-- ==== Sys2Proof/Word.lean ====
section
/-! DEFINITION. The word types of the BFL-9306 (R5, R11). -/

namespace Sys2Proof

/-- A 64-bit word: a scalar register, an address, a record word (R11). -/
abbrev Word := BitVec 64

/-- A 32-bit slot word or literal (R36). -/
abbrev Half := BitVec 32

/-- The smallest addressable unit (R5). -/
abbrev Byte := BitVec 8

/-- The value of a v register (R11). -/
abbrev VVal := BitVec 1024

/-- The value of a p register (R11). -/
abbrev PVal := BitVec 128

/-- A producer tag: SERIAL in bits 0-9, WIN in bits 10-15 (R19). -/
abbrev Tag := BitVec 16

/-- A shape record, words 0 to 3 low first (R223). -/
abbrev Shape := BitVec 256

end Sys2Proof
end

