-- ==== Sys2Proof/Config.lean ====
section
/-! DEFINITION. What an implementation fixes and what the manual leaves open: constants without a body, so that nothing can be proved of their values. -/

namespace Sys2Proof.Config

/-- A variable latency in ck, drawn at the free-value counter (R90, R207, R311; log 6). Free value. -/
opaque delay : Nat → Nat

/-- A choice among the combination trees that R407 allows, drawn at a counter (log 20). Free value. -/
opaque tree : Nat → Nat

/-- A word that the manual leaves open, drawn at a counter (log 6). Free value. -/
opaque freeWord : Nat → BitVec 64

/-- The codes and the scale of the 16 elements that a conversion of i64 to mx8 has (R149): half a block, of which the manual states no result. Source elements with their r, the control (kind, rounding, overflow), and which byte; the scale byte is taken modulo 255 (R82). Free value, log 26. -/
opaque halfBlock : List (Nat × Nat) → Nat → Nat → BitVec 8

/-- What a byte of an HBM line reads as under a key other than the one it was written under (R429): key of the reader, stored key, address, stored byte. Free value, log 10. -/
opaque scramble : Nat → Nat → Nat → BitVec 8 → BitVec 8

/-- The ML-DSA-87 check of an image header against the vendor key in ROM (R420, R421): header bytes, signature bytes. Free value, log 16. -/
opaque signatureGood : List (BitVec 8) → List (BitVec 8) → Bool

/-- SHA3-512 (R420). Free value, log 16. -/
opaque sha3_512 : List (BitVec 8) → List (BitVec 8)

/-- SHA-384 (R425). Free value, log 16. -/
opaque sha384 : List (BitVec 8) → List (BitVec 8)

/-- The bytes of the boot ROM (R425 measurement 1). Free value, log 16. -/
opaque romBytes : List (BitVec 8)

/-- The public identity key of the package for its set of working dies, a bit per die: eight compute dies, then the two I/O dies (R423). Free value, log 16. -/
opaque identityKey : BitVec 10 → List (BitVec 8)

/-- The public key in the leaf certificate of a host-supplied chain (R423). Free value, log 16. -/
opaque leafKey : List (BitVec 8) → List (BitVec 8)

/-- A signature by the identity key over a transcript (R424 CHALLENGE, KEY_EXCHANGE). Free value, log 16. -/
opaque sign : List (BitVec 8) → List (BitVec 8) → List (BitVec 8)

/-- The capabilities that the SPDM responder reports (R424). Free value, log 16. -/
opaque spdmCaps : List (BitVec 8)

/-- The certificate chain that the host supplies with an image (R423). Free value, log 16. -/
opaque hostChain : List (BitVec 8) → List (BitVec 8)

/-- The power draw in watts at a sample (R432). Free value, log 17. -/
opaque draw : Nat → Nat

/-- Whether a copy in flight, or a load of another core, takes a bank of a core's slice in a ck (R206): ck, core, bank. Free value, log 38. -/
opaque engineTakes : Nat → Nat → Nat → Bool

end Sys2Proof.Config
end

