-- ==== Sys2Proof/Syntax.lean ====
section
/-! DEFINITION. The instructions and events of spec/opcode_table.json as syntax: operand forms (R44 to R52), the data that events carry, and one constructor of `Instr` per row of the table. -/

namespace Sys2Proof

/-- Register states (R15). Encoding 11 is never observed. -/
inductive RegState where
  | full | pending | poisoned
deriving DecidableEq, Repr

/-- Poison codes 1 to 12 (R17). -/
inductive PoisonCode where
  | fault | link | engine | qfull | barrier | notDone | moved | order | refused | overlap | mismatch | align
deriving DecidableEq, Repr

/-- The register files that carry a state (R11). -/
inductive RFile where
  | s | v | p
deriving DecidableEq, Repr

/-- A register of a strand: the 8-bit id of R24 without its reserved values. -/
inductive RegId where
  | s (i : BitVec 6) | v (i : BitVec 5) | p (i : BitVec 4)
deriving DecidableEq, Repr

/-- Element types (R46), codes 0 to 13. -/
inductive Ty where
  | i8 | i16 | i32 | i64 | n8 | n16 | n32 | bf16 | f16 | f32 | e4m3 | e5m2 | mx8 | bit
deriving DecidableEq, Repr

/-- Access sizes of format M (R44): 1, 2, 4, 8 bytes. -/
inductive Sz where
  | b1 | b2 | b4 | b8
deriving DecidableEq, Repr

/-- Width of a scalar function or atomic: 64 or 32 bits. -/
inductive W2 where
  | w64 | w32
deriving DecidableEq, Repr

/-- The second source of a three-register scalar instruction: a register, or the L literal (R43). -/
inductive Src2 where
  | reg (b : BitVec 6) | lit (x : Half)
deriving DecidableEq, Repr

/-- The immediate of MOVI: IMM16, or the L literal (R133). -/
inductive ImmW where
  | imm16 (i : BitVec 16) | lit (x : Half)
deriving DecidableEq, Repr

/-- Observer scopes (R47, R316). -/
inductive Scope where
  | context | gang | die | device | system
deriving DecidableEq, Repr

/-- System registers of R26; an unlisted number makes the bundle illegal (R25). -/
inductive SysReg where
  | strand | nstrand | gang | task | job | die | device | repl | context | clock | window | nearstall | traprec
  | arg0 | arg1 | readymap | faultinj | perf (i : BitVec 3) | perfsel (i : BitVec 3)
deriving DecidableEq, Repr

/-- Functions of MULH (R48). -/
inductive MulhF where
  | signed | unsigned | mixed
deriving DecidableEq, Repr

/-- Functions of DIV and REM (R48). -/
inductive DivF where
  | s64 | u64 | s32 | u32
deriving DecidableEq, Repr

/-- Operations of LOGI (R48). -/
inductive LogF where
  | and | or | xor
deriving DecidableEq, Repr

/-- Shift kinds of SHI (R48). -/
inductive ShiftK where
  | shl | shr | sar | rot
deriving DecidableEq, Repr

/-- Conditions of CMP and CMPI (R48, R129). -/
inductive CmpC where
  | eq | ne | lt | le | ltu | leu
deriving DecidableEq, Repr

/-- Functions of MINMAX (R48). -/
inductive MinMaxF where
  | min | max | minu | maxu
deriving DecidableEq, Repr

/-- Functions of BITC (R48). -/
inductive BitcF where
  | clz | ctz | popc
deriving DecidableEq, Repr

/-- Functions of FOP (R48). -/
inductive FopF where
  | fadd | fsub | fmul | fma | fmin | fmax
deriving DecidableEq, Repr

/-- Functions of FCMP (R48). -/
inductive FcmpF where
  | eq | lt | le | un
deriving DecidableEq, Repr

/-- Functions of FCVT (R48, R136). -/
inductive FcvtF where
  | i2f | n2f | f2i | f2iRtz | f2n | f2nRtz
deriving DecidableEq, Repr

/-- Conditions of VCMP (R49). -/
inductive VcmpC where
  | eq | ne | lt | le | gt | ge | un
deriving DecidableEq, Repr

/-- Rounding modes a program can name (R76). -/
inductive Rm where
  | rne | rtz | sto
deriving DecidableEq, Repr

/-- Functions of VRED and VSCAN (R49). -/
inductive RedF where
  | add | min | max | and | or | xor
deriving DecidableEq, Repr

/-- Functions of VFUN (R49). -/
inductive VfunF where
  | exp2 | log2 | rcp | rsqrt
deriving DecidableEq, Repr

/-- Operations of STNS (R51 format G). -/
inductive ScatF where
  | plain | add | min | max
deriving DecidableEq, Repr

/-- Operations of ATMN, ATMF and REDF (R51 format AT). -/
inductive AtomF where
  | add | and | or | xor | min | max | swap | fadd
deriving DecidableEq, Repr

/-- What a producer delivers (R21): a value, or a poison code. -/
inductive Payload where
  | value (x : VVal) | poison (c : PoisonCode)
deriving DecidableEq, Repr

/-- Units that report ready or are mapped out (R416, R431). -/
inductive HwUnit where
  | cluster (d c : Nat) | stack (d : Nat) | port (p : Nat) | hostLink | core (d c n : Nat) | die (d : Nat) | ioDie (n : Nat)
  | lanes (p : Nat) (good : BitVec 8) | diePath (a b : Nat) | line (a : Nat)
deriving DecidableEq, Repr

/-- An endpoint of a channel: device, die, cluster, channel, task number (R234). -/
structure ChanAddr where
  dev : BitVec 12
  die : BitVec 3
  cl : BitVec 2
  ch : BitVec 6
  task : BitVec 32
deriving DecidableEq, Repr

/-- A channel message in transit (R236): its ends, job, bytes, the sender's message count, the binding of the receive end that it left for, and the future it answers. -/
structure Msg where
  src : ChanAddr
  dst : ChanAddr
  job : Nat
  bytes : List Byte
  count : BitVec 32
  ticket : Option (BitVec 32)
  bind : Nat
  sid : Nat
  tag : Option Tag
deriving DecidableEq, Repr

/-- Atomic operation as it travels to an owner (R215, R216). -/
inductive AtomOp where
  | rmw (f : AtomF) (b : Word) | cas (cmp nv : Word)
deriving DecidableEq, Repr

/-- What a flit carries between packages. The manual gives the header only (R389): this content is the model's plain data (log 13). `acc` and `who`, a strand and its continuation record, are for the fault descriptor of the owner (R342); `hold` marks an access of the device, which waits for the release instead of an answer (R433). -/
inductive Packet where
  | read (rid asid : Nat) (va : Word) (len : Nat) (acc : BitVec 4) (hold : Bool) (who : Nat × Word)
  | xlate (rid asid : Nat) (va : Word) (store : Bool) (acc : BitVec 4) (who : Nat × Word)
  | frameRead (rid asid addr len : Nat)
  | frameWrite (rid asid : Nat) (bytes : List (Nat × Byte))
  | frameAtomic (rid asid addr : Nat) (w : W2) (op : AtomOp)
  | readAns (rid : Nat) (bytes : List Byte) (bad : Bool)
  | reserve (rid asid : Nat) (bytes : List (Word × Byte)) (acc : BitVec 4) (who : Nat × Word)
  | release (rid : Nat)
  | reserveAns (rid : Nat)
  | perform (rid asid : Nat) (resv : Option Nat) (bytes : List (Word × Byte)) (acc : BitVec 4) (hold : Bool) (who : Nat × Word)
  | deliver (rid asid : Nat) (rec : Word) (tag : Tag) (x : Payload)
  | performAns (rid : Nat)
  | atomic (rid asid : Nat) (va : Word) (w : W2) (op : AtomOp) (who : Nat × Word)
  | post (asid : Nat) (va : Word) (kind acc : BitVec 4) (gen : BitVec 32) (who : Nat × Word)
  | forward (sid : Nat)
  | atomicAns (rid : Nat) (old : Word)
  | faultAns (rid : Nat) (kind : BitVec 4) (va : Word) (gen : BitVec 32)
  | message (m : Msg)
  | pushed (m : Msg)
  | dropped (m : Msg)
  | credit (dst : ChanAddr) (job : Nat) (word : Word) (depth : BitVec 15) (bind : Nat)
  | creditReq (src dst : ChanAddr) (job : Nat)
  | resyncReq (src dst : ChanAddr) (job : Nat)
  | resyncAns (dst : ChanAddr) (job : Nat) (word : Word) (pushed : BitVec 32) (bind : Nat)
  | skip (dst : ChanAddr) (job : Nat) (n : BitVec 32)
  | tick (src dst : ChanAddr) (job sid : Nat) (tag : Option Tag)
  | ticket (sid : Nat) (tag : Option Tag) (ch : BitVec 6) (job : Nat) (src : ChanAddr) (n : Option (BitVec 32))
  | call (dst : ChanAddr) (job : Nat) (n : BitVec 32) (word : Word) (depth : BitVec 15) (bind : Nat)
  | rebound (dst : ChanAddr) (job : Nat) (n : BitVec 32)
  | contribution (job group : Nat) (seq : BitVec 32) (sparse : Bool) (rank : Nat) (terms : List Nat) (fixed : Bool) (bytes : List Byte)
  | linkControl
deriving DecidableEq, Repr

/-- A flit header with its content (R389, R430). -/
structure Flit where
  dst : BitVec 12
  src : BitVec 12
  hops : BitVec 6
  cls : BitVec 2
  lseq : BitVec 28
  ack : BitVec 28
  counter : BitVec 64
  epoch : BitVec 8
  body : Packet
deriving DecidableEq, Repr

/-- A 64-byte host command entry (R426). -/
structure CmdEntry where
  w0 : Word
  w1 : Word
  w2 : Word
  w3 : Word
  w4 : Word
  w5 : Word
  w6 : Word
  w7 : Word
deriving DecidableEq, Repr

/-- One row of spec/opcode_table.json each. The events of the device come first, in the table's order; `sid`, `gid`, `id` and `rid` are the model's names of a strand, gang, operation and request. -/
inductive Instr where
  -- issue, futures and scheduling
  | bundleIssue (sid : Nat)
  | heldEventEntry (job : Nat)
  | delivery (sid : Nat) (t : Tag) (x : Payload)
  | sleepEnd (sid : Nat)
  | semaFill (sid : Nat) (q : BitVec 4)
  | strandDone (sid : Nat)
  | launchAnswer (sid : Nat)
  | enqueue (die q : Nat) (rec : Word)
  | ringRefill (die q : Nat)
  | dispatch (die : Nat)
  | taskCompletion (gid : Nat)
  | eviction (sid : Nat)
  | pickUp (sid core : Nat)
  | watchdogPreempt (gid : Nat)
  | watchdog (gid : Nat)
  | preemptionRequest (die : Nat) (w0 w1 w2 : Word)
  -- the array and the copy engine
  | arrayClaim (core : Nat)
  | arrayConfigApply (core : Nat)
  | arrayRelease (core : Nat)
  | arrayBeat (core : Nat)
  | arrayCommandComplete (core id : Nat)
  | copyCompletion (core id : Nat)
  | barrierBytes (sid : Nat)
  | copyStart (core id : Nat)
  -- far memory
  | farLoadTranslate (id : Nat)
  | faultRollback (sid : Nat) (kind : BitVec 4) (addr : Word) (mask : BitVec 8)
  | atomicFaultRollback (id : Nat)
  | atomicPlacement (id : Nat)
  | nearAtomicApply (id : Nat)
  | windowTentativePhase (sid : Nat)
  | windowPerform (sid : Nat)
  | performTimeout (id : Nat)
  | tlbWalkComplete (die id : Nat)
  | shootDownRequest (die : Nat) (w0 w1 : Word)
  | shootDownPerformed (die : Nat) (g : BitVec 32)
  | descriptorRelease (die : Nat) (seq : BitVec 32)
  | sequencerLoad (sid : Nat)
  -- channels and fabric
  | messagePush (m : Msg)
  | recvTake (gid : Nat) (c : BitVec 6)
  | sendTransmit (gid : Nat) (c : BitVec 6)
  | creditRefresh (gid : Nat) (c : BitVec 6)
  | creditReceive (gid : Nat) (c : BitVec 6) (word : Word)
  | channelResync (gid : Nat) (c : BitVec 6) (word : Word) (pushed : BitVec 32)
  | tickArrival (src dst : ChanAddr) (job sid : Nat) (t : Option Tag)
  | ticketSkip (gid : Nat) (c : BitVec 6)
  | flitReceive (port : Nat) (f : Flit) (good : Bool)
  | flitResend (port : Nat)
  | flitForward (f : Flit)
  | portTraining (port : Nat) (good : BitVec 8) (peerDev : BitVec 12) (peerPort : BitVec 4)
  | portDown (port : Nat)
  | pathLost (dev : BitVec 12)
  | requestTimeout (rid : Nat)
  | linkKeyUpdate (port : Nat)
  | slotImageLoad (die : Nat)
  -- the switch
  | switchCombine (id a b : Nat)
  | sparseIngressCheck (id rank : Nat)
  | sparseMerge (id : Nat)
  | collectiveDelivery (id rank : Nat)
  | sparseStreamDelivery (id rank : Nat)
  | collectiveLinkLoss (id : Nat)
  -- replication
  | signatureComparison (rset : Nat) (lidx : BitVec 6)
  | replicaGo (sid : Nat)
  | replicaLost (rset idx : Nat)
  | agreedValueArrival (sid ord n : Nat) (x : Payload)
  -- units, boot and host
  | unitReadyReport (u : HwUnit)
  | unitMapOut (u : HwUnit)
  | powerUp
  | go (len : Word)
  | imageStart
  | hostRegisterWrite (off : BitVec 16) (x : Word)
  | setdev (e : CmdEntry)
  | port (e : CmdEntry)
  | route (e : CmdEntry)
  | jobnew (e : CmdEntry)
  | jobend (e : CmdEntry)
  | map (e : CmdEntry)
  | unmap (e : CmdEntry)
  | queue (e : CmdEntry)
  | enq (e : CmdEntry)
  | preempt (e : CmdEntry)
  | slot (e : CmdEntry)
  | clear (e : CmdEntry)
  | dmain (e : CmdEntry)
  | dmaout (e : CmdEntry)
  | pcap (e : CmdEntry)
  | powerSample
  | getVersion
  | getCapabilities
  | negotiateAlgorithms (offered : List Nat)
  | getDigests
  | getCertificate (slot offset len : Nat)
  | challenge (slot : Nat) (nonce : List Byte)
  | getMeasurements (index : Nat)
  | keyExchange (exchange : List Byte)
  | finish (verify : List Byte)
  | keyUpdate
  | endSession
  | ideKm (stream : Nat) (goActive : Bool)
  -- slot 0 (R47)
  | nop
  | br (g : BitVec 4) (o : BitVec 20)
  | brx (g : BitVec 4) (b : BitVec 6)
  | call (g : BitVec 4) (o : BitVec 20)
  | callx (g : BitVec 4) (b : BitVec 6)
  | loop (g : BitVec 4) (c n : BitVec 6)
  | loopi (g : BitVec 4) (c : BitVec 14) (n : BitVec 6)
  | looph (g : BitVec 4) (b : BitVec 6)
  | lexit (g : BitVec 4)
  | wait (g : BitVec 4) (a : RegId)
  | waitany (g : BitVec 4) (f : RFile) (b a : BitVec 6)
  | state (g : BitVec 4) (b : RegId) (a : BitVec 6)
  | yield (g : BitVec 4)
  | sleep (g : BitVec 4) (b : BitVec 6)
  | launch (g : BitVec 4) (b a : BitVec 6)
  | exit (g : BitVec 4)
  | sema (g q : BitVec 4) (b a : BitVec 6)
  | semr (g q : BitVec 4) (b : BitVec 6)
  | karr (g k : BitVec 4) (a : BitVec 6)
  | kdrop (g k : BitVec 4)
  | kinit (g k : BitVec 4) (b : BitVec 6)
  | cmt (g : BitVec 4)
  | rel (g : BitVec 4) (f : Scope)
  | acq (g : BitVec 4) (f : Scope)
  | nfence (g : BitVec 4)
  | nest (g : BitVec 4) (b : BitVec 6)
  | next (g : BitVec 4) (a : BitVec 6)
  | gets (g : BitVec 4) (n : SysReg) (a : BitVec 6)
  | sets (g : BitVec 4) (n : SysReg) (a : BitVec 6)
  | agree (g : BitVec 4) (b a : BitVec 6)
  | trap (g : BitVec 4) (c : BitVec 8)
  | plog (g t b a d : BitVec 4)
  | pset (g : BitVec 4) (w : Sz) (b : BitVec 6) (a : BitVec 4)
  | resume (g : BitVec 4) (b : BitVec 6)
  -- slots 1 and 2 (R48)
  | add (g : BitVec 4) (d a : BitVec 6) (b : Src2) (w : W2)
  | sub (g : BitVec 4) (d a : BitVec 6) (b : Src2) (w : W2)
  | addi (g : BitVec 4) (d a : BitVec 6) (i : BitVec 10)
  | mul (g : BitVec 4) (d a : BitVec 6) (b : Src2) (w : W2)
  | mulh (g : BitVec 4) (d a : BitVec 6) (b : Src2) (f : MulhF)
  | div (g : BitVec 4) (d a : BitVec 6) (b : Src2) (f : DivF)
  | rem (g : BitVec 4) (d a : BitVec 6) (b : Src2) (f : DivF)
  | and (g : BitVec 4) (d a : BitVec 6) (b : Src2)
  | or (g : BitVec 4) (d a : BitVec 6) (b : Src2)
  | xor (g : BitVec 4) (d a : BitVec 6) (b : Src2)
  | logi (g : BitVec 4) (d a : BitVec 6) (o : LogF) (v : BitVec 8)
  | shl (g : BitVec 4) (d a : BitVec 6) (b : Src2) (w : W2)
  | shr (g : BitVec 4) (d a : BitVec 6) (b : Src2) (w : W2)
  | sar (g : BitVec 4) (d a : BitVec 6) (b : Src2) (w : W2)
  | rot (g : BitVec 4) (d a : BitVec 6) (b : Src2) (w : W2)
  | shi (g : BitVec 4) (d a : BitVec 6) (w : W2) (k : ShiftK) (c : BitVec 6)
  | cmp (g d : BitVec 4) (a : BitVec 6) (b : Src2) (f : CmpC)
  | cmpi (g d : BitVec 4) (a : BitVec 6) (c : CmpC) (v : BitVec 7)
  | minmax (g : BitVec 4) (d a : BitVec 6) (b : Src2) (f : MinMaxF)
  | sel (g : BitVec 4) (d a : BitVec 6) (b : Src2) (p : BitVec 4)
  | bitc (g : BitVec 4) (d a : BitVec 6) (f : BitcF)
  | ext (g : BitVec 4) (d a : BitVec 6) (b : Src2) (signed : Bool)
  | ins (g : BitVec 4) (d a : BitVec 6) (b : Src2)
  | mov (g : BitVec 4) (d a : BitVec 6)
  | movPredicate (g d a : BitVec 4)
  | movi (g : BitVec 4) (d : BitVec 6) (i : ImmW)
  | movhi (g : BitVec 4) (d : BitVec 6) (i : BitVec 16)
  | movhiW (g : BitVec 4) (d : BitVec 6) (x : Half)
  | lea (g : BitVec 4) (d a : BitVec 6) (b : Src2) (k : BitVec 3)
  | fop (g : BitVec 4) (d a : BitVec 6) (b : Src2) (f : FopF)
  | fcmp (g d : BitVec 4) (a : BitVec 6) (b : Src2) (f : FcmpF)
  | fcvt (g : BitVec 4) (d a : BitVec 6) (f : FcvtF)
  -- slot 3 (R49)
  | vadd (g : BitVec 4) (d a b : BitVec 5) (t : Ty) (sat : Bool)
  | vsub (g : BitVec 4) (d a b : BitVec 5) (t : Ty) (sat : Bool)
  | vmul (g : BitVec 4) (d a b : BitVec 5) (t : Ty) (hi : Bool)
  | vfma (g : BitVec 4) (d a b : BitVec 5) (t : Ty) (neg : Bool)
  | vmin (g : BitVec 4) (d a b : BitVec 5) (t : Ty)
  | vmax (g : BitVec 4) (d a b : BitVec 5) (t : Ty)
  | vuna (g : BitVec 4) (d a : BitVec 5) (t : Ty) (neg : Bool)
  | vand (g : BitVec 4) (d a b : BitVec 5) (t : Ty)
  | vor (g : BitVec 4) (d a b : BitVec 5) (t : Ty)
  | vxor (g : BitVec 4) (d a b : BitVec 5) (t : Ty)
  | vshl (g : BitVec 4) (d a b : BitVec 5) (t : Ty)
  | vshr (g : BitVec 4) (d a b : BitVec 5) (t : Ty) (ar : Bool)
  | vcmp (g d : BitVec 4) (a b : BitVec 5) (t : Ty) (c : VcmpC)
  | vsel (g : BitVec 4) (d a b : BitVec 5) (t : Ty)
  | vcvt (g : BitVec 4) (d a : BitVec 5) (s t : Ty) (nan : Bool) (r : Rm)
  | vqnt (g : BitVec 4) (d a b : BitVec 5) (t : Ty) (rtz : Bool)
  | vred (g : BitVec 4) (d a : BitVec 5) (t : Ty) (f : RedF)
  | vscan (g : BitVec 4) (d a : BitVec 5) (t : Ty) (f : RedF)
  | vperm (g : BitVec 4) (d a b : BitVec 5) (t : Ty)
  | vbcast (g : BitVec 4) (d a : BitVec 5) (t : Ty) (fromV : Bool)
  | vmovs (g : BitVec 4) (d a b : BitVec 5) (t : Ty)
  | vins (g : BitVec 4) (d a b : BitVec 5) (t : Ty)
  | vidx (g : BitVec 4) (d : BitVec 5) (t : Ty)
  | vfun (g : BitVec 4) (d a : BitVec 5) (f : VfunF)
  | vcx (g : BitVec 4) (d a b : BitVec 5) (t : Ty) (k : BitVec 3)
  | vpopc (g : BitVec 4) (d a : BitVec 5) (t : Ty)
  | vmatch (g d : BitVec 4) (a b : BitVec 5) (t : Ty)
  | vbitsTest (g d : BitVec 4) (a b : BitVec 5) (t : Ty)
  | vbitsSet (g : BitVec 4) (d a b : BitVec 5) (t : Ty)
  | vbitsClear (g : BitVec 4) (d a b : BitVec 5) (t : Ty)
  -- slot 4 (R50)
  | acfg (g : BitVec 4) (a : BitVec 6)
  | aprog (g : BitVec 4) (x : BitVec 2) (d b a : BitVec 6)
  | astat (g h : BitVec 4) (d a : BitVec 6)
  | aswap (g : BitVec 4)
  | astream (g h : BitVec 4) (d b a : BitVec 6)
  | awave (g h : BitVec 4) (d b a : BitVec 6)
  | adrain (g h : BitVec 4) (d a : BitVec 6)
  | aread (g : BitVec 4) (d : BitVec 6) (b : BitVec 5) (a : BitVec 6)
  | aclr (g : BitVec 4)
  | atrace (g h : BitVec 4) (d a : BitVec 6)
  | adone (g : BitVec 4)
  -- slot 5 (R51)
  | ldn (g : BitVec 4) (d a : BitVec 6) (o : BitVec 8) (z : Sz)
  | stn (g : BitVec 4) (d a : BitVec 6) (o : BitVec 8) (z : Sz)
  | ldnv (g : BitVec 4) (d : BitVec 5) (a : BitVec 6) (o : BitVec 8)
  | stnv (g : BitVec 4) (d : BitVec 5) (a : BitVec 6) (o : BitVec 8)
  | ldng (g : BitVec 4) (d : BitVec 5) (a : BitVec 6) (t : Ty) (i : BitVec 5)
  | stns (g : BitVec 4) (d : BitVec 5) (a : BitVec 6) (o : ScatF) (t : Ty) (i : BitVec 5)
  | atmn (g : BitVec 4) (z : W2) (o : AtomF) (d a b : BitVec 6)
  | ldnp (g d : BitVec 4) (a : BitVec 6) (o : BitVec 8)
  | stnp (g d : BitVec 4) (a : BitVec 6) (o : BitVec 8)
  | ldnt (g : BitVec 4) (d : BitVec 5) (a : BitVec 6) (o : BitVec 8) (z : Sz)
  -- slot 6 (R51)
  | ldf (g : BitVec 4) (d a : BitVec 6) (o : BitVec 8) (z : Sz)
  | stf (g : BitVec 4) (d a : BitVec 6) (o : BitVec 8) (z : Sz)
  | ldfv (g : BitVec 4) (d : BitVec 5) (a : BitVec 6) (o : BitVec 8)
  | stfv (g : BitVec 4) (d : BitVec 5) (a : BitVec 6) (o : BitVec 8)
  | atmf (g : BitVec 4) (z : W2) (o : AtomF) (d a b : BitVec 6)
  | redf (g : BitVec 4) (z : W2) (o : AtomF) (a b : BitVec 6)
  | casf (g : BitVec 4) (z : W2) (d a : BitVec 6) (b : BitVec 5)
  | pref (g : BitVec 4) (a : BitVec 6) (o : BitVec 8)
  | ldfg (g : BitVec 4) (d : BitVec 5) (a : BitVec 6) (t : Ty) (i : BitVec 5)
  -- slot 7 (R52)
  | shape (g h a : BitVec 4)
  | copy (g h : BitVec 4) (d b a : BitVec 6)
  | copyq (g h : BitVec 4) (d b : BitVec 6) (a : BitVec 5)
  | gath (g h : BitVec 4) (d b a : BitVec 6)
  | scat (g h : BitVec 4) (d b a : BitVec 6)
  | chan (g : BitVec 4) (c d a : BitVec 6)
  | send (g : BitVec 4) (c d a : BitVec 6)
  | recv (g : BitVec 4) (c d a : BitVec 6)
  | recva (g : BitVec 4) (d : BitVec 6) (a : BitVec 5)
  | tick (g : BitVec 4) (c d : BitVec 6)
  | coll (g : BitVec 4) (d a : BitVec 6)
  | spsend (g : BitVec 4) (d a : BitVec 6)
  | sprecv (g : BitVec 4) (d a : BitVec 6)
  | xstat (g x : BitVec 4) (d : BitVec 6)
  -- the rest of the host interface
  | verificationFailure (status : BitVec 8)
  | stagingWrite (off : Nat) (bytes : List Byte)
  | hostLinkDown
  | nearStorePerformed (id : Nat)
  | pagerForward (die : Nat) (seq : BitVec 32)
  | reservedOp (e : CmdEntry)
deriving DecidableEq, Repr

end Sys2Proof
end

