-- ==== Sys2Proof/WellFormed.lean ====
section
/-! DEFINITION. Which instruction terms are legal: the operand values that R46 to R53, R149 and R202 admit and the type of a field does not already say, and the ranges of the numbers that events carry. -/

namespace Sys2Proof

/-- "int" of R47: i8 to i64 and n8 to n32. -/
def Ty.isInt : Ty → Bool
  | .i8 | .i16 | .i32 | .i64 | .n8 | .n16 | .n32 => true
  | _ => false

/-- "fp" of R47: bf16, f16, f32. -/
def Ty.isFp : Ty → Bool
  | .bf16 | .f16 | .f32 => true
  | _ => false

/-- "i8 to i64". -/
def Ty.isSigned : Ty → Bool
  | .i8 | .i16 | .i32 | .i64 => true
  | _ => false

/-- "int, fp". -/
def Ty.isNum (t : Ty) : Bool := t.isInt || t.isFp

/-- Element width in bits, mx8 counted as 8 (R140, R148). -/
def Ty.width : Ty → Nat
  | .i8 | .n8 | .e4m3 | .e5m2 | .mx8 => 8
  | .i16 | .n16 | .bf16 | .f16 => 16
  | .i32 | .n32 | .f32 => 32
  | .i64 => 64
  | .bit => 1

/-- Number of elements of a v register (R140). -/
def Ty.count (t : Ty) : Nat := 1024 / t.width

/-- The 4-bit code of an element type (R46). -/
def Ty.code : Ty → BitVec 4
  | .i8 => 0 | .i16 => 1 | .i32 => 2 | .i64 => 3 | .n8 => 4 | .n16 => 5 | .n32 => 6 | .bf16 => 7
  | .f16 => 8 | .f32 => 9 | .e4m3 => 10 | .e5m2 => 11 | .mx8 => 12 | .bit => 13

/-- A register a program may write with SETS (classes RW and RF of R26). -/
def SysReg.writable : SysReg → Bool
  | .nearstall | .faultinj | .perf _ | .perfsel _ => true
  | _ => false

/-- Ranges of a unit's name (R256, R416, R431). -/
def HwUnit.ok : HwUnit → Bool
  | .cluster d c => d < 8 && c < 3
  | .stack d => d < 8
  | .port p => p < 16
  | .hostLink => true
  | .core d c n => d < 8 && c < 3 && n < 72
  | .die d => d < 8
  | .ioDie n => n < 2
  | .lanes p _ => p < 16
  | .diePath a b => a < 8 && b < 8
  | .line a => a < 2 ^ 33

/-- FN of VCX names a partner inside the register (R154). -/
def vcxOk (t : Ty) (k : BitVec 3) : Bool := k.toNat ≤ 6 && 2 ^ k.toNat < t.count

/-- FADD exists at 4 bytes only (R51). -/
def atomOk (z : W2) (o : AtomF) : Bool := !(o == .fadd && z == .w64)

/-- Legality of a term (R53, R159, R221). Register indices are in range by their types. -/
def wellFormed : Instr → Bool
  | .sets _ n _ => n.writable
  | .shi _ _ _ w _ c => w == .w64 || c.toNat < 32
  | .vadd _ _ _ _ t sat | .vsub _ _ _ _ t sat => if sat then t.isInt else t.isNum
  | .vmul _ _ _ _ t hi => if hi then t.isInt else t.isNum
  | .vfma _ _ _ _ t _ => t.isNum
  | .vmin _ _ _ _ t | .vmax _ _ _ _ t => t.isNum
  | .vuna _ _ _ t _ => t.isSigned || t.isFp
  | .vshl _ _ _ _ t => t.isInt
  | .vshr _ _ _ _ t _ => t.isInt
  | .vcmp _ _ _ _ t c => if c == .un then t.isFp else t.isNum
  | .vcvt _ d a s t _ _ => (s != .mx8 || a.toNat % 2 == 0) && (t != .mx8 || d.toNat % 2 == 0)
  | .vqnt _ _ _ _ t _ => t == .i8 || t == .i16 || t == .n8 || t == .n16
  | .vred _ _ _ t f | .vscan _ _ _ t f =>
      match f with
      | .add | .min | .max => t.isNum
      | .and | .or | .xor => t.isInt
  | .vperm _ _ _ _ t | .vmovs _ _ _ _ t | .vins _ _ _ _ t => t != .bit
  | .vbcast _ _ _ t _ => t != .bit
  | .vidx _ _ t => t.isInt
  | .vcx _ _ _ _ t k => t.isNum && vcxOk t k
  | .vpopc _ _ _ t => t.isInt
  | .vmatch _ _ _ _ t => t == .i8 || t == .n8 || t == .i16 || t == .n16
  | .vbitsTest _ _ _ _ t | .vbitsSet _ _ _ _ t | .vbitsClear _ _ _ _ t => t.isInt
  | .ldng _ _ _ t _ | .ldfg _ _ _ t _ => t != .bit
  | .stns _ _ _ o t _ => if o == .plain then t != .bit else t.isInt || t == .f32
  | .atmn _ z o _ _ _ | .atmf _ z o _ _ _ => atomOk z o
  | .redf _ z o _ _ => atomOk z o && o != .swap
  | .xstat _ x _ => x.toNat ≤ 4
  | .heldEventEntry job => job < 65536
  | .enqueue die q _ | .ringRefill die q => die < 8 && q < 64
  | .dispatch die | .preemptionRequest die _ _ _ | .shootDownRequest die _ _ | .shootDownPerformed die _ | .descriptorRelease die _
  | .slotImageLoad die | .pagerForward die _ | .tlbWalkComplete die _ => die < 8
  | .pickUp _ core | .arrayClaim core | .arrayConfigApply core | .arrayRelease core | .arrayBeat core
  | .arrayCommandComplete core _ | .copyCompletion core _ | .copyStart core _ => core < 1536
  | .flitReceive port _ _ | .flitResend port | .portTraining port _ _ _ | .portDown port | .linkKeyUpdate port => port < 16
  | .unitReadyReport u | .unitMapOut u => u.ok
  | _ => true

end Sys2Proof
end

