-- ==== Sys2Proof/Decode.lean ====
section
/-! DEFINITION. Slot words to instructions and back (R38 to R53): one decoder per slot, the bundle, and the encoder. A word no row of R47 to R52 lists is rejected by name. -/

namespace Sys2Proof

/-- Why a slot word is reserved (R53, R56). -/
inductive Reject where
  | opcode    -- an opcode the slot does not list
  | function  -- an unlisted function, scope, file, register number or type
  | field     -- a field marked 0 that is not zero, or an index out of range
  | literal   -- L with an instruction that has no literal form (R56, case 5)
deriving DecidableEq, Repr

/-- The result of decoding one slot. -/
abbrev Dec := Except Reject Instr

/-- Bits `lo` to `lo + n - 1` of a slot word. -/
def fld (w : Half) (lo n : Nat) : BitVec n := w.extractLsb' lo n

/-- Give `x` if the condition on the fields holds. -/
def ifOk (c : Bool) (r : Reject) (x : Instr) : Dec := if c then .ok x else .error r

/-- A decoded field that may be reserved. -/
def req {α : Type} (o : Option α) (r : Reject) (k : α → Dec) : Dec :=
  match o with
  | some x => k x
  | none => .error r

/-- Type codes of R46. -/
def tyOf (c : BitVec 4) : Option Ty :=
  match c.toNat with
  | 0 => some .i8 | 1 => some .i16 | 2 => some .i32 | 3 => some .i64 | 4 => some .n8 | 5 => some .n16 | 6 => some .n32
  | 7 => some .bf16 | 8 => some .f16 | 9 => some .f32 | 10 => some .e4m3 | 11 => some .e5m2 | 12 => some .mx8 | 13 => some .bit
  | _ => none

/-- Access sizes of format M (R44). -/
def szOf (c : BitVec 2) : Sz :=
  match c.toNat with
  | 0 => .b1 | 1 => .b2 | 2 => .b4 | _ => .b8

/-- Code of an access size. -/
def szCode : Sz → BitVec 2
  | .b1 => 0 | .b2 => 1 | .b4 => 2 | .b8 => 3

/-- FN 0 is 64 bits, 1 is 32 bits (R48). -/
def w2Of (c : BitVec 4) : Option W2 :=
  match c.toNat with
  | 0 => some .w64 | 1 => some .w32 | _ => none

/-- Code of a width in slots 1 and 2. -/
def w2Code : W2 → BitVec 4
  | .w64 => 0 | .w32 => 1

/-- The width bit of format AT: 0 is 4 bytes, 1 is 8 bytes (R44). -/
def atSz (c : BitVec 1) : W2 := if c == 1 then .w64 else .w32

/-- Code of an atomic's width. -/
def atSzCode : W2 → BitVec 1
  | .w32 => 0 | .w64 => 1

/-- Register ids of R24; an id that names no register is reserved. -/
def regIdOf (b : BitVec 8) : Option RegId :=
  let i := b.extractLsb' 0 6
  match (b.extractLsb' 6 2).toNat with
  | 0 => some (.s i)
  | 1 => if i.toNat < 32 then some (.v (i.setWidth 5)) else none
  | 2 => if i.toNat < 16 then some (.p (i.setWidth 4)) else none
  | _ => none

/-- The 8-bit id of a register (R24, R35). -/
def regIdCode : RegId → BitVec 8
  | .s i => (0 : BitVec 2) ++ i
  | .v i => (1 : BitVec 2) ++ (i.setWidth 6 : BitVec 6)
  | .p i => (2 : BitVec 2) ++ (i.setWidth 6 : BitVec 6)

/-- An id that must name an s register. -/
def sIdOf (b : BitVec 8) : Option (BitVec 6) :=
  if b.extractLsb' 6 2 == 0 then some (b.extractLsb' 0 6) else none

/-- An id that must name a p register. -/
def pIdOf (b : BitVec 8) : Option (BitVec 4) :=
  if b.extractLsb' 4 4 == 8 then some (b.extractLsb' 0 4) else none

/-- A 6-bit field that names a p register must hold 0 to 15. -/
def p6Of (b : BitVec 6) : Option (BitVec 4) := if b.toNat < 16 then some (b.setWidth 4) else none

/-- A 5-bit field that names a p register must hold 0 to 15. -/
def p5Of (b : BitVec 5) : Option (BitVec 4) := if b.toNat < 16 then some (b.setWidth 4) else none

/-- A 6-bit field that names a v register must hold 0 to 31. -/
def v6Of (b : BitVec 6) : Option (BitVec 5) := if b.toNat < 32 then some (b.setWidth 5) else none

/-- Files named by F of WAITANY (R47). -/
def fileOf (c : BitVec 4) : Option RFile :=
  match c.toNat with
  | 0 => some .s | 1 => some .v | 2 => some .p | _ => none

/-- Code of a file. -/
def fileCode : RFile → BitVec 4
  | .s => 0 | .v => 1 | .p => 2

/-- Scopes of REL and ACQ (R47). -/
def scopeOf (c : BitVec 4) : Option Scope :=
  match c.toNat with
  | 0 => some .context | 1 => some .gang | 2 => some .die | 3 => some .device | 4 => some .system | _ => none

/-- Code of a scope. -/
def scopeCode : Scope → BitVec 4
  | .context => 0 | .gang => 1 | .die => 2 | .device => 3 | .system => 4

/-- System registers of R26 by number. -/
def sysRegOf (n : BitVec 8) : Option SysReg :=
  if n.extractLsb' 3 5 == 8 then some (.perf (n.extractLsb' 0 3))
  else if n.extractLsb' 3 5 == 9 then some (.perfsel (n.extractLsb' 0 3))
  else
    match n.toNat with
    | 0x00 => some .strand | 0x01 => some .nstrand | 0x02 => some .gang | 0x03 => some .task | 0x04 => some .job
    | 0x05 => some .die | 0x06 => some .device | 0x07 => some .repl | 0x08 => some .context | 0x10 => some .clock
    | 0x11 => some .window | 0x12 => some .nearstall | 0x13 => some .traprec | 0x18 => some .arg0 | 0x19 => some .arg1
    | 0x20 => some .readymap | 0x21 => some .faultinj
    | _ => none

/-- Number of a system register (R26). -/
def sysRegCode : SysReg → BitVec 8
  | .strand => 0x00 | .nstrand => 0x01 | .gang => 0x02 | .task => 0x03 | .job => 0x04 | .die => 0x05 | .device => 0x06
  | .repl => 0x07 | .context => 0x08 | .clock => 0x10 | .window => 0x11 | .nearstall => 0x12 | .traprec => 0x13
  | .arg0 => 0x18 | .arg1 => 0x19 | .readymap => 0x20 | .faultinj => 0x21
  | .perf i => (8 : BitVec 5) ++ i
  | .perfsel i => (9 : BitVec 5) ++ i

/-- Operations of the atomics (R51). -/
def atomOf (c : BitVec 3) : AtomF :=
  match c.toNat with
  | 0 => .add | 1 => .and | 2 => .or | 3 => .xor | 4 => .min | 5 => .max | 6 => .swap | _ => .fadd

/-- Code of an atomic operation. -/
def atomCode : AtomF → BitVec 3
  | .add => 0 | .and => 1 | .or => 2 | .xor => 3 | .min => 4 | .max => 5 | .swap => 6 | .fadd => 7

/-- Operations of STNS (R51). -/
def scatOf (c : BitVec 2) : ScatF :=
  match c.toNat with
  | 0 => .plain | 1 => .add | 2 => .min | _ => .max

/-- Code of a scatter operation. -/
def scatCode : ScatF → BitVec 2
  | .plain => 0 | .add => 1 | .min => 2 | .max => 3

/-- Conditions of CMP and CMPI (R48). -/
def cmpOf (c : Nat) : Option CmpC :=
  match c with
  | 0 => some .eq | 1 => some .ne | 2 => some .lt | 3 => some .le | 4 => some .ltu | 5 => some .leu | _ => none

/-- Code of a condition. -/
def cmpCode : CmpC → Nat
  | .eq => 0 | .ne => 1 | .lt => 2 | .le => 3 | .ltu => 4 | .leu => 5

/-- Functions of DIV and REM (R48). -/
def divOf (c : Nat) : Option DivF :=
  match c with
  | 0 => some .s64 | 1 => some .u64 | 2 => some .s32 | 3 => some .u32 | _ => none

/-- Code of a DIV function. -/
def divCode : DivF → Nat
  | .s64 => 0 | .u64 => 1 | .s32 => 2 | .u32 => 3

/-- Functions of VRED and VSCAN (R49). -/
def redOf (c : Nat) : Option RedF :=
  match c with
  | 0 => some .add | 1 => some .min | 2 => some .max | 3 => some .and | 4 => some .or | 5 => some .xor | _ => none

/-- Code of a reduction. -/
def redCode : RedF → Nat
  | .add => 0 | .min => 1 | .max => 2 | .and => 3 | .or => 4 | .xor => 5

/-- Slot 0 without its L bit (R38, R47). -/
def decodeCtl (w : Half) : Dec :=
  let g := fld w 20 4
  let ops := fld w 0 20
  let a := fld w 0 8
  let b := fld w 8 8
  let f := fld w 16 4
  let sB (k : BitVec 6 → Instr) : Dec := req (sIdOf b) .field fun i => ifOk (a == 0 && f == 0) .field (k i)
  let cn (i : Instr) : Dec := ifOk (ops == 0) .field i
  if fld w 30 1 != 0 then .error .field
  else
    match (fld w 24 6).toNat with
    | 0 => ifOk (fld w 0 24 == 0) .opcode .nop
    | 1 => .ok (.br g ops)
    | 2 => sB (.brx g)
    | 3 => .ok (.call g ops)
    | 4 => sB (.callx g)
    | 5 => ifOk (fld w 12 8 == 0) .field (.loop g (fld w 6 6) (fld w 0 6))
    | 6 => .ok (.loopi g (fld w 6 14) (fld w 0 6))
    | 7 => sB (.looph g)
    | 8 => cn (.lexit g)
    | 9 => req (regIdOf a) .field fun x => ifOk (b == 0 && f == 0) .field (.wait g x)
    | 10 => req (sIdOf a) .field fun d => req (sIdOf b) .field fun m => req (fileOf f) .function fun x => .ok (.waitany g x m d)
    | 11 => req (sIdOf a) .field fun d => req (regIdOf b) .field fun x => ifOk (f == 0) .field (.state g x d)
    | 12 => cn (.yield g)
    | 13 => sB (.sleep g)
    | 14 => req (sIdOf a) .field fun d => req (sIdOf b) .field fun x => ifOk (f == 0) .field (.launch g x d)
    | 16 => cn (.exit g)
    | 17 => req (sIdOf a) .field fun d => req (sIdOf b) .field fun x => .ok (.sema g f x d)
    | 18 => req (sIdOf b) .field fun x => ifOk (a == 0) .field (.semr g f x)
    | 19 => req (sIdOf a) .field fun d => ifOk (b == 0) .field (.karr g f d)
    | 20 => ifOk (a == 0 && b == 0) .field (.kdrop g f)
    | 21 => req (sIdOf b) .field fun x => ifOk (a == 0) .field (.kinit g f x)
    | 22 => cn (.cmt g)
    | 23 => req (scopeOf f) .function fun x => ifOk (a == 0 && b == 0) .field (.rel g x)
    | 24 => req (scopeOf f) .function fun x => ifOk (a == 0 && b == 0) .field (.acq g x)
    | 25 => cn (.nfence g)
    | 26 => sB (.nest g)
    | 27 => req (sIdOf a) .field fun d => ifOk (b == 0 && f == 0) .field (.next g d)
    | 28 => req (sIdOf a) .field fun d => req (sysRegOf b) .function fun n => ifOk (f == 0) .field (.gets g n d)
    | 29 => req (sIdOf a) .field fun d => req (sysRegOf b) .function fun n =>
        if n.writable then ifOk (f == 0) .field (.sets g n d) else .error .function
    | 30 => req (sIdOf a) .field fun d => req (sIdOf b) .field fun x => ifOk (f == 0) .field (.agree g x d)
    | 31 => ifOk (a == 0 && f == 0) .field (.trap g b)
    | 32 => ifOk (f == 0) .field (.plog g (fld w 12 4) (fld w 8 4) (fld w 4 4) (fld w 0 4))
    | 33 => req (pIdOf a) .field fun d => req (sIdOf b) .field fun x =>
        if f.toNat < 4 then .ok (.pset g (szOf (f.setWidth 2)) x d) else .error .function
    | 35 => sB (.resume g)
    | _ => .error .opcode

/-- Slots 1 and 2. `lit` is the literal of a bundle with L = 1, for slot 1 only; `sb` names slot 2 (R39, R43, R48). -/
def decodeScalar (sb : Bool) (lit : Option Half) (w : Half) : Dec :=
  let g := fld w 22 4
  let d := fld w 16 6
  let a := fld w 10 6
  let b6 := fld w 4 6
  let fn := fld w 0 4
  let f := fn.toNat
  let src2 (k : Src2 → Dec) : Dec :=
    match lit with
    | none => k (.reg b6)
    | some x => if b6 == 0 then k (.lit x) else .error .literal
  let noLit (x : Dec) : Dec := if lit.isNone then x else .error .literal
  let saOnly (x : Dec) : Dec := if sb then .error .opcode else x
  let wide (k : Src2 → W2 → Instr) : Dec := req (w2Of fn) .function fun x => src2 fun b => .ok (k b x)
  let plain (k : Src2 → Instr) : Dec := if f == 0 then src2 fun b => .ok (k b) else .error .function
  match (fld w 26 6).toNat with
  | 0 => if w == 0 then (if lit.isNone then .ok .nop else .error .literal) else .error .opcode
  | 1 => wide fun b x => .add g d a b x
  | 2 => wide fun b x => .sub g d a b x
  | 3 => noLit (.ok (.addi g d a (fld w 0 10)))
  | 4 => wide fun b x => .mul g d a b x
  | 5 => saOnly (match f with
      | 0 => src2 fun b => .ok (.mulh g d a b .signed)
      | 1 => src2 fun b => .ok (.mulh g d a b .unsigned)
      | 2 => src2 fun b => .ok (.mulh g d a b .mixed)
      | _ => .error .function)
  | 6 => saOnly (req (divOf f) .function fun x => src2 fun b => .ok (.div g d a b x))
  | 7 => saOnly (req (divOf f) .function fun x => src2 fun b => .ok (.rem g d a b x))
  | 8 => plain fun b => .and g d a b
  | 9 => plain fun b => .or g d a b
  | 10 => plain fun b => .xor g d a b
  | 11 => noLit (match (fld w 8 2).toNat with
      | 0 => .ok (.logi g d a .and (fld w 0 8))
      | 1 => .ok (.logi g d a .or (fld w 0 8))
      | 2 => .ok (.logi g d a .xor (fld w 0 8))
      | _ => .error .function)
  | 12 => wide fun b x => .shl g d a b x
  | 13 => wide fun b x => .shr g d a b x
  | 14 => wide fun b x => .sar g d a b x
  | 15 => wide fun b x => .rot g d a b x
  | 16 => noLit (if fld w 9 1 != 0 then .error .field else
      let x : W2 := if fld w 8 1 == 0 then .w64 else .w32
      if x == .w32 && fld w 5 1 != 0 then .error .field else
      match (fld w 6 2).toNat with
      | 0 => .ok (.shi g d a x .shl (fld w 0 6))
      | 1 => .ok (.shi g d a x .shr (fld w 0 6))
      | 2 => .ok (.shi g d a x .sar (fld w 0 6))
      | _ => .ok (.shi g d a x .rot (fld w 0 6)))
  | 17 => req (p6Of d) .field fun p => req (cmpOf f) .function fun c => src2 fun b => .ok (.cmp g p a b c)
  | 18 => noLit (req (p6Of d) .field fun p => req (cmpOf (fld w 7 3).toNat) .function fun c => .ok (.cmpi g p a c (fld w 0 7)))
  | 19 => (match f with
      | 0 => src2 fun b => .ok (.minmax g d a b .min)
      | 1 => src2 fun b => .ok (.minmax g d a b .max)
      | 2 => src2 fun b => .ok (.minmax g d a b .minu)
      | 3 => src2 fun b => .ok (.minmax g d a b .maxu)
      | _ => .error .function)
  | 20 => src2 fun b => .ok (.sel g d a b fn)
  | 21 => noLit (if b6 != 0 then .error .field else
      match f with
      | 0 => .ok (.bitc g d a .clz)
      | 1 => .ok (.bitc g d a .ctz)
      | 2 => .ok (.bitc g d a .popc)
      | _ => .error .function)
  | 22 => (match f with
      | 0 => src2 fun b => .ok (.ext g d a b false)
      | 1 => src2 fun b => .ok (.ext g d a b true)
      | _ => .error .function)
  | 23 => plain fun b => .ins g d a b
  | 24 => noLit (if b6 != 0 then .error .field else
      match f with
      | 0 => .ok (.mov g d a)
      | 1 => req (p6Of d) .field fun x => req (p6Of a) .field fun y => .ok (.movPredicate g x y)
      | _ => .error .function)
  | 25 => (match lit with
      | none => .ok (.movi g d (.imm16 (fld w 0 16)))
      | some x => if fld w 0 16 == 0 then .ok (.movi g d (.lit x)) else .error .literal)
  | 26 => (match lit with
      | none => .ok (.movhi g d (fld w 0 16))
      | some x => if fld w 0 16 == 0 then .ok (.movhiW g d x) else .error .literal)
  | 27 => if fld w 3 1 != 0 then .error .function else src2 fun b => .ok (.lea g d a b (fld w 0 3))
  | 28 => saOnly (match f with
      | 0 => src2 fun b => .ok (.fop g d a b .fadd)
      | 1 => src2 fun b => .ok (.fop g d a b .fsub)
      | 2 => src2 fun b => .ok (.fop g d a b .fmul)
      | 3 => src2 fun b => .ok (.fop g d a b .fma)
      | 4 => src2 fun b => .ok (.fop g d a b .fmin)
      | 5 => src2 fun b => .ok (.fop g d a b .fmax)
      | _ => .error .function)
  | 29 => saOnly (req (p6Of d) .field fun p =>
      match f with
      | 0 => src2 fun b => .ok (.fcmp g p a b .eq)
      | 1 => src2 fun b => .ok (.fcmp g p a b .lt)
      | 2 => src2 fun b => .ok (.fcmp g p a b .le)
      | 3 => src2 fun b => .ok (.fcmp g p a b .un)
      | _ => .error .function)
  | 30 => saOnly (noLit (if b6 != 0 then .error .field else
      match f with
      | 0 => .ok (.fcvt g d a .i2f)
      | 1 => .ok (.fcvt g d a .n2f)
      | 2 => .ok (.fcvt g d a .f2i)
      | 3 => .ok (.fcvt g d a .f2iRtz)
      | 4 => .ok (.fcvt g d a .f2n)
      | 5 => .ok (.fcvt g d a .f2nRtz)
      | _ => .error .function))
  | _ => .error .opcode

/-- Slot 3, format V (R44, R49, R142); the type and function limits are those of `wellFormed`. -/
def decodeVec (w : Half) : Dec :=
  let g := fld w 22 4
  let d := fld w 17 5
  let a := fld w 12 5
  let b := fld w 7 5
  let f := (fld w 0 3).toNat
  let chk (i : Instr) : Dec := ifOk (wellFormed i) .function i
  let two (k : Ty → Bool → Instr) : Dec := req (tyOf (fld w 3 4)) .function fun t => if f < 2 then chk (k t (f == 1)) else .error .function
  let one (k : Ty → Instr) : Dec := req (tyOf (fld w 3 4)) .function fun t => if f == 0 then chk (k t) else .error .function
  let b0 (x : Dec) : Dec := if b == 0 then x else .error .field
  match (fld w 26 6).toNat with
  | 0 => if w == 0 then .ok .nop else .error .opcode
  | 1 => two fun t x => .vadd g d a b t x
  | 2 => two fun t x => .vsub g d a b t x
  | 3 => two fun t x => .vmul g d a b t x
  | 4 => two fun t x => .vfma g d a b t x
  | 5 => one fun t => .vmin g d a b t
  | 6 => one fun t => .vmax g d a b t
  | 7 => b0 (two fun t x => .vuna g d a t x)
  | 8 => one fun t => .vand g d a b t
  | 9 => one fun t => .vor g d a b t
  | 10 => one fun t => .vxor g d a b t
  | 11 => one fun t => .vshl g d a b t
  | 12 => two fun t x => .vshr g d a b t x
  | 13 => req (tyOf (fld w 3 4)) .function fun t => req (p5Of d) .field fun p =>
      match f with
      | 0 => chk (.vcmp g p a b t .eq)
      | 1 => chk (.vcmp g p a b t .ne)
      | 2 => chk (.vcmp g p a b t .lt)
      | 3 => chk (.vcmp g p a b t .le)
      | 4 => chk (.vcmp g p a b t .gt)
      | 5 => chk (.vcmp g p a b t .ge)
      | 6 => chk (.vcmp g p a b t .un)
      | _ => .error .function
  | 14 => one fun t => .vsel g d a b t
  | 15 => req (tyOf (fld w 3 4)) .function fun t => req (tyOf (fld w 7 4)) .function fun s =>
      if fld w 11 1 != 0 then .error .field
      else
        match (fld w 0 2).toNat with
        | 0 => chk (.vcvt g d a s t (fld w 2 1 == 1) .rne)
        | 1 => chk (.vcvt g d a s t (fld w 2 1 == 1) .rtz)
        | 2 => chk (.vcvt g d a s t (fld w 2 1 == 1) .sto)
        | _ => .error .function
  | 16 => two fun t x => .vqnt g d a b t x
  | 17 => b0 (req (tyOf (fld w 3 4)) .function fun t => req (redOf f) .function fun x => chk (.vred g d a t x))
  | 18 => b0 (req (tyOf (fld w 3 4)) .function fun t => req (redOf f) .function fun x => chk (.vscan g d a t x))
  | 19 => one fun t => .vperm g d a b t
  | 20 => b0 (two fun t x => .vbcast g d a t x)
  | 21 => one fun t => .vmovs g d a b t
  | 22 => one fun t => .vins g d a b t
  | 23 => b0 (if a == 0 then one fun t => .vidx g d t else .error .field)
  | 24 => b0 (req (tyOf (fld w 3 4)) .function fun t =>
      if t == .f32 then
        match f with
        | 0 => .ok (.vfun g d a .exp2)
        | 1 => .ok (.vfun g d a .log2)
        | 2 => .ok (.vfun g d a .rcp)
        | 3 => .ok (.vfun g d a .rsqrt)
        | _ => .error .function
      else .error .function)
  | 25 => req (tyOf (fld w 3 4)) .function fun t => chk (.vcx g d a b t (fld w 0 3))
  | 26 => b0 (one fun t => .vpopc g d a t)
  | 27 => req (p5Of d) .field fun p => one fun t => .vmatch g p a b t
  | 28 => req (tyOf (fld w 3 4)) .function fun t =>
      match f with
      | 0 => req (p5Of d) .field fun p => chk (.vbitsTest g p a b t)
      | 1 => chk (.vbitsSet g d a b t)
      | 2 => chk (.vbitsClear g d a b t)
      | _ => .error .function
  | _ => .error .opcode

/-- Slot 4, format AR (R44, R50). -/
def decodeArr (w : Half) : Dec :=
  let g := fld w 22 4
  let x := fld w 18 4
  let d := fld w 12 6
  let b := fld w 6 6
  let a := fld w 0 6
  match (fld w 26 6).toNat with
  | 0 => if w == 0 then .ok .nop else .error .opcode
  | 1 => ifOk (b == 0 && d == 0 && x == 0) .field (.acfg g a)
  | 2 => ifOk (x.toNat < 4) .field (.aprog g (x.setWidth 2) d b a)
  | 3 => ifOk (b == 0) .field (.astat g x d a)
  | 4 => ifOk (fld w 0 22 == 0) .field (.aswap g)
  | 5 => .ok (.astream g x d b a)
  | 6 => .ok (.awave g x d b a)
  | 7 => ifOk (b == 0) .field (.adrain g x d a)
  | 8 => req (v6Of b) .field fun v => ifOk (x == 0) .field (.aread g d v a)
  | 9 => ifOk (fld w 0 22 == 0) .field (.aclr g)
  | 10 => ifOk (b == 0) .field (.atrace g x d a)
  | 11 => ifOk (fld w 0 22 == 0) .field (.adone g)
  | _ => .error .opcode

/-- Slot 5, formats M, G and AT (R44, R51, R202). -/
def decodeNear (w : Half) : Dec :=
  let g := fld w 22 4
  let d := fld w 16 6
  let a := fld w 10 6
  let o := fld w 2 8
  let sz := fld w 0 2
  let chk (i : Instr) : Dec := ifOk (wellFormed i) .function i
  match (fld w 26 6).toNat with
  | 0 => if w == 0 then .ok .nop else .error .opcode
  | 1 => .ok (.ldn g d a o (szOf sz))
  | 2 => .ok (.stn g d a o (szOf sz))
  | 3 => req (v6Of d) .field fun v => ifOk (sz == 0) .field (.ldnv g v a o)
  | 4 => req (v6Of d) .field fun v => ifOk (sz == 0) .field (.stnv g v a o)
  | 5 => req (tyOf (fld w 5 4)) .function fun t =>
      if fld w 9 2 != 0 then .error .field else chk (.ldng g (fld w 17 5) (fld w 11 6) t (fld w 0 5))
  | 6 => req (tyOf (fld w 5 4)) .function fun t => chk (.stns g (fld w 17 5) (fld w 11 6) (scatOf (fld w 9 2)) t (fld w 0 5))
  | 7 => chk (.atmn g (atSz (fld w 21 1)) (atomOf (fld w 18 3)) (fld w 12 6) (fld w 6 6) (fld w 0 6))
  | 8 => req (p6Of d) .field fun p => ifOk (sz == 0) .field (.ldnp g p a o)
  | 9 => req (p6Of d) .field fun p => ifOk (sz == 0) .field (.stnp g p a o)
  | 10 => req (v6Of d) .field fun v => .ok (.ldnt g v a o (szOf sz))
  | _ => .error .opcode

/-- Slot 6 (R51, R202). -/
def decodeFar (w : Half) : Dec :=
  let g := fld w 22 4
  let d := fld w 16 6
  let a := fld w 10 6
  let o := fld w 2 8
  let sz := fld w 0 2
  let chk (i : Instr) : Dec := ifOk (wellFormed i) .function i
  let z := atSz (fld w 21 1)
  match (fld w 26 6).toNat with
  | 0 => if w == 0 then .ok .nop else .error .opcode
  | 1 => .ok (.ldf g d a o (szOf sz))
  | 2 => .ok (.stf g d a o (szOf sz))
  | 3 => req (v6Of d) .field fun v => ifOk (sz == 0) .field (.ldfv g v a o)
  | 4 => req (v6Of d) .field fun v => ifOk (sz == 0) .field (.stfv g v a o)
  | 5 => chk (.atmf g z (atomOf (fld w 18 3)) (fld w 12 6) (fld w 6 6) (fld w 0 6))
  | 6 => if fld w 12 6 != 0 then .error .field else chk (.redf g z (atomOf (fld w 18 3)) (fld w 6 6) (fld w 0 6))
  | 7 => if fld w 18 3 != 0 || fld w 0 1 != 0 then .error .field else .ok (.casf g z (fld w 12 6) (fld w 6 6) (fld w 1 5))
  | 8 => ifOk (sz == 0 && d == 0) .field (.pref g a o)
  | 9 => req (tyOf (fld w 5 4)) .function fun t =>
      if fld w 9 2 != 0 then .error .field else chk (.ldfg g (fld w 17 5) (fld w 11 6) t (fld w 0 5))
  | _ => .error .opcode

/-- Slot 7, formats XR and XC (R44, R52). -/
def decodeXfer (w : Half) : Dec :=
  let g := fld w 22 4
  let x := fld w 18 4
  let d := fld w 12 6
  let b := fld w 6 6
  let a := fld w 0 6
  let c := fld w 12 6
  let cd := fld w 6 6
  match (fld w 26 6).toNat with
  | 0 => if w == 0 then .ok .nop else .error .opcode
  | 1 => ifOk (fld w 0 2 == 0 && b == 0 && d == 0) .field (.shape g x (fld w 2 4))
  | 2 => .ok (.copy g x d b a)
  | 3 => ifOk (fld w 0 1 == 0) .field (.copyq g x d b (fld w 1 5))
  | 4 => .ok (.gath g x d b a)
  | 5 => .ok (.scat g x d b a)
  | 6 => ifOk (x == 0) .field (.chan g c cd a)
  | 7 => ifOk (x == 0) .field (.send g c cd a)
  | 8 => ifOk (x == 0) .field (.recv g c cd a)
  | 9 => ifOk (fld w 0 1 == 0 && c == 0 && x == 0) .field (.recva g cd (fld w 1 5))
  | 10 => ifOk (a == 0 && x == 0) .field (.tick g c cd)
  | 11 => ifOk (b == 0 && x == 0) .field (.coll g d a)
  | 12 => ifOk (b == 0 && x == 0) .field (.spsend g d a)
  | 13 => ifOk (b == 0 && x == 0) .field (.sprecv g d a)
  | 14 => ifOk (a == 0 && b == 0 && x.toNat ≤ 4) .field (.xstat g x d)
  | _ => .error .opcode

/-- The decoder of slot `n` for a word without L and without a literal. -/
def decodeSlot (n : Nat) (lit : Option Half) (w : Half) : Dec :=
  match n with
  | 0 => decodeCtl w
  | 1 => decodeScalar false lit w
  | 2 => decodeScalar true none w
  | 3 => decodeVec w
  | 4 => decodeArr w
  | 5 => decodeNear w
  | 6 => decodeFar w
  | _ => decodeXfer w

/-- Little-endian bytes to a number (R5). -/
def leNat : List Byte → Nat
  | [] => 0
  | b :: bs => b.toNat + 256 * leNat bs

/-- A bundle as its eight slot words (R36). -/
abbrev BundleWords := Vector Half 8

/-- Word `i` of 32 bundle bytes. -/
def slotWord (bs : List Byte) (i : Nat) : Half := BitVec.ofNat 32 (leNat ((bs.drop (4 * i)).take 4))

/-- The slot words of 32 bytes, little-endian (R36). -/
def bundleWords (bs : List Byte) : BundleWords :=
  #v[slotWord bs 0, slotWord bs 1, slotWord bs 2, slotWord bs 3, slotWord bs 4, slotWord bs 5, slotWord bs 6, slotWord bs 7]

/-- The L bit of a bundle (R38). -/
def hasLit (b : BundleWords) : Bool := fld b[0] 31 1 == 1

/-- Slot 0 without L: what is left decodes (R38, R40). -/
def ctlWord (w : Half) : Half := (0 : BitVec 1) ++ fld w 0 31

/-- The eight decoded slots of a bundle. With L = 1 slot 2 is data and executes nothing (R43). -/
def decodeBundle (b : BundleWords) : List Dec :=
  let lit : Option Half := if hasLit b then some b[2] else none
  [decodeCtl (ctlWord b[0]), decodeScalar false lit b[1], if hasLit b then .ok .nop else decodeScalar true none b[2],
   decodeVec b[3], decodeArr b[4], decodeNear b[5], decodeFar b[6], decodeXfer b[7]]

/-- The slots in the order `decodeTableWord` tries them (log 9). -/
def tableSlots : List Nat := [0, 1, 3, 4, 5, 6, 7]

/-- The first slot of a list in which a word decodes to something other than NOP. -/
def firstSlot (w : Half) : List Nat → Option (Nat × Instr)
  | [] => none
  | n :: ns =>
    match decodeSlot n none (if n == 0 then ctlWord w else w) with
    | .ok i => some (n, i)
    | .error _ => firstSlot w ns

/-- The slot and the instruction of a word whose slot is not given (log 9). -/
def tableSlot (nbits w : Nat) : Option (Nat × Instr) := if nbits == 32 then firstSlot (BitVec.ofNat 32 w) tableSlots else none

/-- The instruction of a slot word, by the first slot in which it is legal. -/
def decodeTableWord (nbits w : Nat) : Option Instr := (tableSlot nbits w).map (·.2)

/-- A host command from the 64 bytes of its entry (R426). -/
def cmdEntryOf (bs : List Byte) : CmdEntry :=
  let wd (i : Nat) : Word := BitVec.ofNat 64 (leNat ((bs.drop (8 * i)).take 8))
  { w0 := wd 0, w1 := wd 1, w2 := wd 2, w3 := wd 3, w4 := wd 4, w5 := wd 5, w6 := wd 6, w7 := wd 7 }

/-- The host command that an entry's OP names (R427); a code the table does not list is a reserved OP. -/
def decodeCommand (e : CmdEntry) : Instr :=
  match (e.w0.extractLsb' 0 8).toNat with
  | 1 => .setdev e | 2 => .port e | 3 => .route e | 4 => .jobnew e | 5 => .jobend e | 6 => .map e | 7 => .unmap e
  | 8 => .queue e | 9 => .enq e | 10 => .preempt e | 11 => .slot e | 12 => .clear e | 13 => .dmain e | 14 => .dmaout e | 15 => .pcap e
  | _ => .reservedOp e

/-! The encoder, from the same tables. -/

/-- Format CN, CB, CP and CR of slot 0: opcode, guard and the 20 operand bits (R38, R45). -/
def encCtl (opc : Nat) (g : BitVec 4) (ops : BitVec 20) : Half := (0 : BitVec 2) ++ (BitVec.ofNat 6 opc) ++ g ++ ops

/-- Format CR. -/
def encCr (opc : Nat) (g : BitVec 4) (a b : BitVec 8) (f : BitVec 4) : Half := encCtl opc g (f ++ b ++ a)

/-- The id of an s register. -/
def sId (i : BitVec 6) : BitVec 8 := regIdCode (.s i)

/-- The frame of slots 1 to 7 (R39). -/
def encSlot (opc : Nat) (g : BitVec 4) (ops : BitVec 22) : Half := (BitVec.ofNat 6 opc) ++ g ++ ops

/-- The register field and the literal of a second source. -/
def src2Enc : Src2 → BitVec 6 × Option Half
  | .reg b => (b, none)
  | .lit x => (0, some x)

/-- Format S3. -/
def encS3 (opc : Nat) (g : BitVec 4) (d a : BitVec 6) (b : Src2) (f : BitVec 4) : Half × Option Half :=
  (encSlot opc g (d ++ a ++ (src2Enc b).1 ++ f), (src2Enc b).2)

/-- Format SI. -/
def encSi (opc : Nat) (g : BitVec 4) (d a : BitVec 6) (i : BitVec 10) : Half × Option Half := (encSlot opc g (d ++ a ++ i), none)

/-- Format V. -/
def encV (opc : Nat) (g : BitVec 4) (d a b : BitVec 5) (t : Ty) (f : BitVec 3) : Half := encSlot opc g (d ++ a ++ b ++ t.code ++ f)

/-- Format AR and XR. -/
def encAr (opc : Nat) (g x : BitVec 4) (d b a : BitVec 6) : Half := encSlot opc g (x ++ d ++ b ++ a)

/-- Format M. -/
def encM (opc : Nat) (g : BitVec 4) (d a : BitVec 6) (o : BitVec 8) (z : BitVec 2) : Half := encSlot opc g (d ++ a ++ o ++ z)

/-- Format G. -/
def encG (opc : Nat) (g : BitVec 4) (d : BitVec 5) (a : BitVec 6) (o : BitVec 2) (t : Ty) (i : BitVec 5) : Half :=
  encSlot opc g (d ++ a ++ o ++ t.code ++ i)

/-- Format AT. -/
def encAt (opc : Nat) (g : BitVec 4) (z : W2) (o : AtomF) (d a b : BitVec 6) : Half :=
  encSlot opc g (atSzCode z ++ atomCode o ++ d ++ a ++ b)

/-- Format XC. -/
def encXc (opc : Nat) (g : BitVec 4) (c d a : BitVec 6) : Half := encSlot opc g ((0 : BitVec 4) ++ c ++ d ++ a)

/-- A flag as FN bit 0. -/
def fn1 (b : Bool) : BitVec 3 := if b then 1 else 0

/-- Functions of MULH (R48). -/
def mulhCode : MulhF → BitVec 4 | .signed => 0 | .unsigned => 1 | .mixed => 2
/-- Operations of LOGI. -/
def logCode : LogF → BitVec 2 | .and => 0 | .or => 1 | .xor => 2
/-- Kinds of SHI. -/
def shiftCode : ShiftK → BitVec 2 | .shl => 0 | .shr => 1 | .sar => 2 | .rot => 3
/-- Functions of MINMAX. -/
def minmaxCode : MinMaxF → BitVec 4 | .min => 0 | .max => 1 | .minu => 2 | .maxu => 3
/-- Functions of BITC. -/
def bitcCode : BitcF → BitVec 4 | .clz => 0 | .ctz => 1 | .popc => 2
/-- Functions of FOP. -/
def fopCode : FopF → BitVec 4 | .fadd => 0 | .fsub => 1 | .fmul => 2 | .fma => 3 | .fmin => 4 | .fmax => 5
/-- Functions of FCMP. -/
def fcmpCode : FcmpF → BitVec 4 | .eq => 0 | .lt => 1 | .le => 2 | .un => 3
/-- Functions of FCVT. -/
def fcvtCode : FcvtF → BitVec 4 | .i2f => 0 | .n2f => 1 | .f2i => 2 | .f2iRtz => 3 | .f2n => 4 | .f2nRtz => 5
/-- Conditions of VCMP. -/
def vcmpCode : VcmpC → BitVec 3 | .eq => 0 | .ne => 1 | .lt => 2 | .le => 3 | .gt => 4 | .ge => 5 | .un => 6
/-- Rounding modes of VCVT. -/
def rmCode : Rm → BitVec 2 | .rne => 0 | .rtz => 1 | .sto => 2
/-- Functions of VFUN. -/
def vfunCode : VfunF → BitVec 3 | .exp2 => 0 | .log2 => 1 | .rcp => 2 | .rsqrt => 3

/-- The slot, the slot word and the literal of a slot instruction; an event of the device has none. A scalar instruction is given in slot 1. -/
def encode : Instr → Option (Nat × Half × Option Half)
  | .nop => some (0, 0, none)
  | .br g o => some (0, encCtl 1 g o, none)
  | .brx g b => some (0, encCr 2 g 0 (sId b) 0, none)
  | .call g o => some (0, encCtl 3 g o, none)
  | .callx g b => some (0, encCr 4 g 0 (sId b) 0, none)
  | .loop g c n => some (0, encCtl 5 g ((0 : BitVec 8) ++ c ++ n), none)
  | .loopi g c n => some (0, encCtl 6 g (c ++ n), none)
  | .looph g b => some (0, encCr 7 g 0 (sId b) 0, none)
  | .lexit g => some (0, encCtl 8 g 0, none)
  | .wait g a => some (0, encCr 9 g (regIdCode a) 0 0, none)
  | .waitany g f b a => some (0, encCr 10 g (sId a) (sId b) (fileCode f), none)
  | .state g b a => some (0, encCr 11 g (sId a) (regIdCode b) 0, none)
  | .yield g => some (0, encCtl 12 g 0, none)
  | .sleep g b => some (0, encCr 13 g 0 (sId b) 0, none)
  | .launch g b a => some (0, encCr 14 g (sId a) (sId b) 0, none)
  | .exit g => some (0, encCtl 16 g 0, none)
  | .sema g q b a => some (0, encCr 17 g (sId a) (sId b) q, none)
  | .semr g q b => some (0, encCr 18 g 0 (sId b) q, none)
  | .karr g k a => some (0, encCr 19 g (sId a) 0 k, none)
  | .kdrop g k => some (0, encCr 20 g 0 0 k, none)
  | .kinit g k b => some (0, encCr 21 g 0 (sId b) k, none)
  | .cmt g => some (0, encCtl 22 g 0, none)
  | .rel g f => some (0, encCr 23 g 0 0 (scopeCode f), none)
  | .acq g f => some (0, encCr 24 g 0 0 (scopeCode f), none)
  | .nfence g => some (0, encCtl 25 g 0, none)
  | .nest g b => some (0, encCr 26 g 0 (sId b) 0, none)
  | .next g a => some (0, encCr 27 g (sId a) 0 0, none)
  | .gets g n a => some (0, encCr 28 g (sId a) (sysRegCode n) 0, none)
  | .sets g n a => some (0, encCr 29 g (sId a) (sysRegCode n) 0, none)
  | .agree g b a => some (0, encCr 30 g (sId a) (sId b) 0, none)
  | .trap g c => some (0, encCr 31 g 0 c 0, none)
  | .plog g t b a d => some (0, encCtl 32 g ((0 : BitVec 4) ++ t ++ b ++ a ++ d), none)
  | .pset g w b a => some (0, encCr 33 g (regIdCode (.p a)) (sId b) ((0 : BitVec 2) ++ szCode w), none)
  | .resume g b => some (0, encCr 35 g 0 (sId b) 0, none)
  | .add g d a b w => some (1, encS3 1 g d a b (w2Code w))
  | .sub g d a b w => some (1, encS3 2 g d a b (w2Code w))
  | .addi g d a i => some (1, encSi 3 g d a i)
  | .mul g d a b w => some (1, encS3 4 g d a b (w2Code w))
  | .mulh g d a b f => some (1, encS3 5 g d a b (mulhCode f))
  | .div g d a b f => some (1, encS3 6 g d a b (BitVec.ofNat 4 (divCode f)))
  | .rem g d a b f => some (1, encS3 7 g d a b (BitVec.ofNat 4 (divCode f)))
  | .and g d a b => some (1, encS3 8 g d a b 0)
  | .or g d a b => some (1, encS3 9 g d a b 0)
  | .xor g d a b => some (1, encS3 10 g d a b 0)
  | .logi g d a o v => some (1, encSi 11 g d a (logCode o ++ v))
  | .shl g d a b w => some (1, encS3 12 g d a b (w2Code w))
  | .shr g d a b w => some (1, encS3 13 g d a b (w2Code w))
  | .sar g d a b w => some (1, encS3 14 g d a b (w2Code w))
  | .rot g d a b w => some (1, encS3 15 g d a b (w2Code w))
  | .shi g d a w k c => some (1, encSi 16 g d a ((0 : BitVec 1) ++ (if w == .w64 then (0 : BitVec 1) else 1) ++ shiftCode k ++ c))
  | .cmp g d a b f => some (1, encS3 17 g (d.setWidth 6) a b (BitVec.ofNat 4 (cmpCode f)))
  | .cmpi g d a c v => some (1, encSi 18 g (d.setWidth 6) a ((BitVec.ofNat 3 (cmpCode c)) ++ v))
  | .minmax g d a b f => some (1, encS3 19 g d a b (minmaxCode f))
  | .sel g d a b p => some (1, encS3 20 g d a b p)
  | .bitc g d a f => some (1, encS3 21 g d a (.reg 0) (bitcCode f))
  | .ext g d a b s => some (1, encS3 22 g d a b (if s then 1 else 0))
  | .ins g d a b => some (1, encS3 23 g d a b 0)
  | .mov g d a => some (1, encS3 24 g d a (.reg 0) 0)
  | .movPredicate g d a => some (1, encS3 24 g (d.setWidth 6) (a.setWidth 6) (.reg 0) 1)
  | .movi g d (.imm16 i) => some (1, encSlot 25 g (d ++ i), none)
  | .movi g d (.lit x) => some (1, encSlot 25 g (d ++ (0 : BitVec 16)), some x)
  | .movhi g d i => some (1, encSlot 26 g (d ++ i), none)
  | .movhiW g d x => some (1, encSlot 26 g (d ++ (0 : BitVec 16)), some x)
  | .lea g d a b k => some (1, encS3 27 g d a b ((0 : BitVec 1) ++ k))
  | .fop g d a b f => some (1, encS3 28 g d a b (fopCode f))
  | .fcmp g d a b f => some (1, encS3 29 g (d.setWidth 6) a b (fcmpCode f))
  | .fcvt g d a f => some (1, encS3 30 g d a (.reg 0) (fcvtCode f))
  | .vadd g d a b t x => some (3, encV 1 g d a b t (fn1 x), none)
  | .vsub g d a b t x => some (3, encV 2 g d a b t (fn1 x), none)
  | .vmul g d a b t x => some (3, encV 3 g d a b t (fn1 x), none)
  | .vfma g d a b t x => some (3, encV 4 g d a b t (fn1 x), none)
  | .vmin g d a b t => some (3, encV 5 g d a b t 0, none)
  | .vmax g d a b t => some (3, encV 6 g d a b t 0, none)
  | .vuna g d a t x => some (3, encV 7 g d a 0 t (fn1 x), none)
  | .vand g d a b t => some (3, encV 8 g d a b t 0, none)
  | .vor g d a b t => some (3, encV 9 g d a b t 0, none)
  | .vxor g d a b t => some (3, encV 10 g d a b t 0, none)
  | .vshl g d a b t => some (3, encV 11 g d a b t 0, none)
  | .vshr g d a b t x => some (3, encV 12 g d a b t (fn1 x), none)
  | .vcmp g d a b t c => some (3, encV 13 g (d.setWidth 5) a b t (vcmpCode c), none)
  | .vsel g d a b t => some (3, encV 14 g d a b t 0, none)
  | .vcvt g d a s t nan r => some (3, encV 15 g d a (s.code.setWidth 5) t ((if nan then (1 : BitVec 1) else 0) ++ rmCode r), none)
  | .vqnt g d a b t x => some (3, encV 16 g d a b t (fn1 x), none)
  | .vred g d a t f => some (3, encV 17 g d a 0 t (BitVec.ofNat 3 (redCode f)), none)
  | .vscan g d a t f => some (3, encV 18 g d a 0 t (BitVec.ofNat 3 (redCode f)), none)
  | .vperm g d a b t => some (3, encV 19 g d a b t 0, none)
  | .vbcast g d a t x => some (3, encV 20 g d a 0 t (fn1 x), none)
  | .vmovs g d a b t => some (3, encV 21 g d a b t 0, none)
  | .vins g d a b t => some (3, encV 22 g d a b t 0, none)
  | .vidx g d t => some (3, encV 23 g d 0 0 t 0, none)
  | .vfun g d a f => some (3, encV 24 g d a 0 .f32 (vfunCode f), none)
  | .vcx g d a b t k => some (3, encV 25 g d a b t k, none)
  | .vpopc g d a t => some (3, encV 26 g d a 0 t 0, none)
  | .vmatch g d a b t => some (3, encV 27 g (d.setWidth 5) a b t 0, none)
  | .vbitsTest g d a b t => some (3, encV 28 g (d.setWidth 5) a b t 0, none)
  | .vbitsSet g d a b t => some (3, encV 28 g d a b t 1, none)
  | .vbitsClear g d a b t => some (3, encV 28 g d a b t 2, none)
  | .acfg g a => some (4, encAr 1 g 0 0 0 a, none)
  | .aprog g x d b a => some (4, encAr 2 g (x.setWidth 4) d b a, none)
  | .astat g h d a => some (4, encAr 3 g h d 0 a, none)
  | .aswap g => some (4, encAr 4 g 0 0 0 0, none)
  | .astream g h d b a => some (4, encAr 5 g h d b a, none)
  | .awave g h d b a => some (4, encAr 6 g h d b a, none)
  | .adrain g h d a => some (4, encAr 7 g h d 0 a, none)
  | .aread g d b a => some (4, encAr 8 g 0 d (b.setWidth 6) a, none)
  | .aclr g => some (4, encAr 9 g 0 0 0 0, none)
  | .atrace g h d a => some (4, encAr 10 g h d 0 a, none)
  | .adone g => some (4, encAr 11 g 0 0 0 0, none)
  | .ldn g d a o z => some (5, encM 1 g d a o (szCode z), none)
  | .stn g d a o z => some (5, encM 2 g d a o (szCode z), none)
  | .ldnv g d a o => some (5, encM 3 g (d.setWidth 6) a o 0, none)
  | .stnv g d a o => some (5, encM 4 g (d.setWidth 6) a o 0, none)
  | .ldng g d a t i => some (5, encG 5 g d a 0 t i, none)
  | .stns g d a o t i => some (5, encG 6 g d a (scatCode o) t i, none)
  | .atmn g z o d a b => some (5, encAt 7 g z o d a b, none)
  | .ldnp g d a o => some (5, encM 8 g (d.setWidth 6) a o 0, none)
  | .stnp g d a o => some (5, encM 9 g (d.setWidth 6) a o 0, none)
  | .ldnt g d a o z => some (5, encM 10 g (d.setWidth 6) a o (szCode z), none)
  | .ldf g d a o z => some (6, encM 1 g d a o (szCode z), none)
  | .stf g d a o z => some (6, encM 2 g d a o (szCode z), none)
  | .ldfv g d a o => some (6, encM 3 g (d.setWidth 6) a o 0, none)
  | .stfv g d a o => some (6, encM 4 g (d.setWidth 6) a o 0, none)
  | .atmf g z o d a b => some (6, encAt 5 g z o d a b, none)
  | .redf g z o a b => some (6, encAt 6 g z o 0 a b, none)
  | .casf g z d a b => some (6, encAt 7 g z .add d a (b ++ (0 : BitVec 1)), none)
  | .pref g a o => some (6, encM 8 g 0 a o 0, none)
  | .ldfg g d a t i => some (6, encG 9 g d a 0 t i, none)
  | .shape g h a => some (7, encAr 1 g h 0 0 (a ++ (0 : BitVec 2)), none)
  | .copy g h d b a => some (7, encAr 2 g h d b a, none)
  | .copyq g h d b a => some (7, encAr 3 g h d b (a ++ (0 : BitVec 1)), none)
  | .gath g h d b a => some (7, encAr 4 g h d b a, none)
  | .scat g h d b a => some (7, encAr 5 g h d b a, none)
  | .chan g c d a => some (7, encXc 6 g c d a, none)
  | .send g c d a => some (7, encXc 7 g c d a, none)
  | .recv g c d a => some (7, encXc 8 g c d a, none)
  | .recva g d a => some (7, encXc 9 g 0 d (a ++ (0 : BitVec 1)), none)
  | .tick g c d => some (7, encXc 10 g c d 0, none)
  | .coll g d a => some (7, encAr 11 g 0 d 0 a, none)
  | .spsend g d a => some (7, encAr 12 g 0 d 0 a, none)
  | .sprecv g d a => some (7, encAr 13 g 0 d 0 a, none)
  | .xstat g x d => some (7, encAr 14 g x d 0 0, none)
  | _ => none

/-- The words of the bundle that holds one instruction and NOPs (R40, R43). -/
def encodeBundle (n : Nat) (w : Half) (lit : Option Half) : BundleWords :=
  let z : BundleWords := Vector.replicate 8 0
  let z := if h : n < 8 then z.set n w else z
  match lit with
  | none => z
  | some x => (z.set 2 x).set 0 (z[0] ||| 0x80000000)

/-- The little-endian bytes of a number (R5). -/
def leBytes : Nat → Nat → List Byte
  | 0, _ => []
  | k + 1, x => BitVec.ofNat 8 x :: leBytes k (x / 256)

/-- The 32 bytes of a bundle (R36). -/
def bundleBytes (b : BundleWords) : List Byte := b.toList.flatMap fun w => leBytes 4 w.toNat

end Sys2Proof
end

