-- ==== Sys2Proof/Machine/Bits.lean ====
section
/-! DEFINITION. Bit fields, sign extension, elements of registers and little-endian bytes (R5, R10, R13, R35). -/

namespace Sys2Proof.Machine

/-- Bits `lo` to `lo + n - 1` of a number. -/
def bitsOf (x lo n : Nat) : Nat := x >>> lo % 2 ^ n

/-- Bit `i` of a number. -/
def bit (x i : Nat) : Bool := x.testBit i

/-- A field of a word as a number. -/
def wbits (w : Word) (lo n : Nat) : Nat := bitsOf w.toNat lo n

/-- The two's complement value of the low `n` bits of `x`. -/
def sxNat (x n : Nat) : Int := let y := x % 2 ^ n; if n = 0 then 0 else if y.testBit (n - 1) then (y : Int) - 2 ^ n else y

/-- The low `n` bits of an integer (R65, `wrap`). -/
def wrapN (x : Int) (n : Nat) : Nat := (x % (2 ^ n : Int)).toNat

/-- `sx(x, n)` to 64 bits (R35). -/
def sx64 (x n : Nat) : Word := BitVec.ofInt 64 (sxNat x n)

/-- The value of element bits `x` of an integer type (R64). -/
def intVal (t : Ty) (x : Nat) : Int := if t.isSigned then sxNat x t.width else (x % 2 ^ t.width : Nat)

/-- Least value of an integer type. -/
def intMin (t : Ty) : Int := if t.isSigned then -(2 ^ (t.width - 1) : Int) else 0

/-- Greatest value of an integer type. -/
def intMax (t : Ty) : Int := if t.isSigned then (2 ^ (t.width - 1) : Int) - 1 else (2 ^ t.width : Int) - 1

/-- `x` clamped to a range. -/
def clampI (lo hi x : Int) : Int := if x < lo then lo else if hi < x then hi else x

/-- The bits of `sat(x, t)` for an integer type (R65). -/
def satInt (t : Ty) (x : Int) : Nat := wrapN (clampI (intMin t) (intMax t) x) t.width

/-- `k` elements of `w` bits, element 0 first (R13). -/
def elemsOf (w : Nat) : Nat → Nat → List Nat
  | 0, _ => []
  | k + 1, x => x % 2 ^ w :: elemsOf w k (x >>> w)

/-- Elements laid out from bit 0 upward (R13). -/
def packElems (w : Nat) : List Nat → Nat
  | [] => 0
  | x :: xs => x % 2 ^ w + packElems w xs <<< w

/-- The elements of a v register (R140). -/
def velems (w : Nat) (v : VVal) : List Nat := elemsOf w (1024 / w) v.toNat

/-- A v register from its elements. -/
def ofElems (w : Nat) (xs : List Nat) : VVal := BitVec.ofNat 1024 (packElems w xs)

/-- `active(p, w, i)` (R13, R35): the bit of the element's lowest byte. -/
def active (p : PVal) (w i : Nat) : Bool := p.toNat.testBit (i * w / 8)

/-- The numbers 0 to n - 1. -/
def upto (n : Nat) : List Nat := List.range n

/-- Put an element before the first that it may stand before. -/
def insertBy {α : Type} (le : α → α → Bool) (x : α) : List α → List α
  | [] => [x]
  | y :: ys => if le x y then x :: y :: ys else y :: insertBy le x ys

/-- A list in rising order, elements of equal rank in the order they had. -/
def sortBy {α : Type} (le : α → α → Bool) (l : List α) : List α := l.foldr (insertBy le) []

/-- A predicate whose byte groups for elements of `w` bits hold the given bits (R13). -/
def packGroups (w : Nat) (bs : List Bool) : PVal :=
  let k := max (w / 8) 1
  BitVec.ofNat 128 (packElems k (bs.map fun b => if b then 2 ^ k - 1 else 0))

/-- A list with its elements from position `i` on replaced by new ones, as many as these are. -/
def spliceAt {α : Type} (i : Nat) (new : List α) (xs : List α) : List α := xs.take i ++ new ++ xs.drop (i + new.length)

/-- The byte `i` of a 64-bit word list is laid out little-endian (R5). -/
def wordBytes (w : Word) : List Byte := leBytes 8 w.toNat

/-- A word from 8 bytes at offset `o` of a byte list. -/
def wordAt (bs : List Byte) (o : Nat) : Word := BitVec.ofNat 64 (leNat ((bs.drop o).take 8))

/-- A number from `k` bytes at offset `o`. -/
def natAt (bs : List Byte) (o k : Nat) : Nat := leNat ((bs.drop o).take k)

/-- A word from fields given as (value, lowest bit), each already in range. -/
def packWord (fs : List (Nat × Nat)) : Word := BitVec.ofNat 64 (fs.foldl (fun a f => a + f.1 <<< f.2) 0)

/-- Count of set bits in the low `n` bits. -/
def popcount : Nat → Nat → Nat
  | 0, _ => 0
  | n + 1, x => x % 2 + popcount n (x / 2)

/-- Count of trailing zero bits among `n` bits; `n` when all are zero. -/
def ctz : Nat → Nat → Nat
  | 0, _ => 0
  | n + 1, x => if x % 2 = 1 then 0 else 1 + ctz n (x / 2)

/-- Count of leading zero bits of an `n`-bit value; `n` for 0. -/
def clz (n x : Nat) : Nat := if x = 0 then n else n - 1 - Nat.log2 x

/-- Ceiling of a quotient. -/
def ceilDiv (a b : Nat) : Nat := if b = 0 then 0 else (a + b - 1) / b

/-- Update the first element that satisfies `p`. -/
def updFirst {α : Type} (p : α → Bool) (f : α → α) : List α → List α
  | [] => []
  | x :: xs => if p x then f x :: xs else x :: updFirst p f xs

/-- Remove the first element that satisfies `p`. -/
def dropFirst {α : Type} (p : α → Bool) : List α → List α
  | [] => []
  | x :: xs => if p x then xs else x :: dropFirst p xs

/-- Replace the element with key `k`, or append one. -/
def putKey {α : Type} (key : α → Nat) (x : α) : List α → List α
  | [] => [x]
  | y :: ys => if key y = key x then x :: ys else y :: putKey key x ys

/-- Integer square root, bit by bit from bit `k` down. -/
def isqrtFrom (n : Nat) : Nat → Nat → Nat
  | 0, r => if (r + 1) * (r + 1) ≤ n then r + 1 else r
  | k + 1, r => let r' := r + 1 <<< (k + 1); isqrtFrom n k (if r' * r' ≤ n then r' else r)

/-- Floor of the square root. -/
def isqrt (n : Nat) : Nat := isqrtFrom n (Nat.log2 n / 2 + 1) 0

end Sys2Proof.Machine
end

