-- ==== Sys2Proof/Machine/Num.lean ====
section
/-! DEFINITION. Number formats, rounding and conversion (R64 to R87), computed exactly on dyadic rationals. -/

namespace Sys2Proof.Machine

/-- An exact dyadic value (-1)^neg * mant * 2^exp; a zero keeps its sign. -/
structure Dy where
  neg : Bool
  mant : Nat
  exp : Int
deriving DecidableEq, Repr

/-- A value of a type: NaN, an infinity or a finite value (R68). -/
inductive FVal where
  | nan
  | inf (neg : Bool)
  | fin (d : Dy)
deriving DecidableEq, Repr

/-- Layout of a floating-point type (R67): F bits, E bits, bias, and whether E all ones is infinity or NaN. -/
structure FFmt where
  fbits : Nat
  ebits : Nat
  bias : Nat
  hasInf : Bool
deriving DecidableEq, Repr

/-- R67. -/
def fmtF32 : FFmt := ⟨23, 8, 127, true⟩
/-- R67. -/
def fmtF16 : FFmt := ⟨10, 5, 15, true⟩
/-- R67. -/
def fmtBf16 : FFmt := ⟨7, 8, 127, true⟩
/-- R67. -/
def fmtE4m3 : FFmt := ⟨3, 4, 7, false⟩
/-- R67. -/
def fmtE5m2 : FFmt := ⟨2, 5, 15, true⟩
/-- Float carry (R84); it has no subnormals, which its users never meet (R85). -/
def fmtCarry : FFmt := ⟨23, 10, 511, true⟩

/-- The format of a float type. -/
def fmtOf : Ty → Option FFmt
  | .f32 => some fmtF32 | .f16 => some fmtF16 | .bf16 => some fmtBf16 | .e4m3 => some fmtE4m3 | .e5m2 => some fmtE5m2
  | _ => none

/-- Bits of the canonical NaN (R67, R69). -/
def qnanBits (f : FFmt) : Nat := if f.hasInf then (2 ^ f.ebits - 1) <<< f.fbits + 2 ^ (f.fbits - 1) else (2 ^ (f.ebits + f.fbits)) - 1

/-- The greatest finite value (R67). -/
def maxfin (f : FFmt) : Dy :=
  if f.hasInf then ⟨false, 2 ^ (f.fbits + 1) - 1, (f.bias : Int) - f.fbits⟩
  else ⟨false, 2 ^ (f.fbits + 1) - 2, (2 ^ f.ebits - 1 : Int) - f.bias - f.fbits⟩

/-- `value(b, t)` of a float type (R68). -/
def decodeF (f : FFmt) (b : Nat) : FVal :=
  let fr := b % 2 ^ f.fbits
  let e := bitsOf b f.fbits f.ebits
  let s := b.testBit (f.fbits + f.ebits)
  let top := 2 ^ f.ebits - 1
  if e = top ∧ f.hasInf then (if fr = 0 then .inf s else .nan)
  else if e = top ∧ fr = 2 ^ f.fbits - 1 then .nan
  else if e = 0 then .fin ⟨s, fr, 1 - (f.bias : Int) - f.fbits⟩
  else .fin ⟨s, 2 ^ f.fbits + fr, (e : Int) - f.bias - f.fbits⟩

/-- Shift a mantissa by a signed amount, exact when bits are not lost. -/
def shiftZ (m : Nat) (k : Int) : Nat := if 0 ≤ k then m <<< k.toNat else m >>> (-k).toNat

/-- Bits of a finite value that the type represents exactly. -/
def encodeFin (f : FFmt) (d : Dy) : Nat :=
  let s := if d.neg then 1 <<< (f.fbits + f.ebits) else 0
  if d.mant = 0 then s
  else
    let e : Int := (Nat.log2 d.mant : Int) + d.exp
    let emin : Int := 1 - (f.bias : Int)
    if e < emin then s + shiftZ d.mant (d.exp - (emin - f.fbits))
    else s + ((e + f.bias).toNat <<< f.fbits) + (shiftZ d.mant (d.exp - (e - f.fbits)) - 2 ^ f.fbits)

/-- Bits of an infinity. -/
def infBits (f : FFmt) (neg : Bool) : Nat := (if neg then 1 <<< (f.fbits + f.ebits) else 0) + (2 ^ f.ebits - 1) <<< f.fbits

/-- Compare magnitudes of two dyadic values: a > b. -/
def magGt (a b : Dy) : Bool :=
  if b.exp ≤ a.exp then decide (b.mant < a.mant <<< (a.exp - b.exp).toNat) else decide (b.mant <<< (b.exp - a.exp).toNat < a.mant)

/-- The signed mantissa at a given lower exponent. -/
def Dy.at (d : Dy) (e : Int) : Int := let m : Int := d.mant <<< (d.exp - e).toNat; if d.neg then -m else m

/-- Exact sum with the zero-sign rule of R71. -/
def Dy.add (a b : Dy) : Dy :=
  let e := min a.exp b.exp
  let i := a.at e + b.at e
  if i = 0 then ⟨a.neg && b.neg, 0, e⟩ else ⟨decide (i < 0), i.natAbs, e⟩

/-- Exact product. -/
def Dy.mul (a b : Dy) : Dy := ⟨a.neg != b.neg, a.mant * b.mant, a.exp + b.exp⟩

/-- Sign changed. -/
def Dy.flip (a : Dy) : Dy := { a with neg := !a.neg }

/-- Order of exact values: a < b, with -0 equal to +0. -/
def Dy.lt (a b : Dy) : Bool := let e := min a.exp b.exp; decide (a.at e < b.at e)

/-- Equality of exact values, with -0 equal to +0. -/
def Dy.eqv (a b : Dy) : Bool := let e := min a.exp b.exp; decide (a.at e = b.at e)

/-- Rounding modes of R76. -/
inductive RMode where
  | rne | rtz | away | sto
deriving DecidableEq, Repr

/-- The mode a program names (R76). -/
def rmodeOf : Rm → RMode
  | .rne => .rne | .rtz => .rtz | .sto => .sto

/-- Round to a multiple of 2^ue (R76). -/
def roundAt (x : Dy) (ue : Int) (rm : RMode) (r : Nat) : Dy :=
  if ue ≤ x.exp then ⟨x.neg, x.mant <<< (x.exp - ue).toNat, ue⟩
  else
    let k := (ue - x.exp).toNat
    let n := x.mant >>> k
    let q := x.mant % 2 ^ k
    let up := if q = 0 then false
      else match rm with
        | .rne => decide (2 ^ k < 2 * q) || (decide (2 * q = 2 ^ k) && n % 2 == 1)
        | .rtz => false
        | .away => true
        | .sto => decide (r < (q <<< 32) >>> k)
    ⟨x.neg, if up then n + 1 else n, ue⟩

/-- `rnd(x, t, rm, r)` for a float type (R76). -/
def rndF (f : FFmt) (x : Dy) (rm : RMode) (r : Nat) : Dy :=
  if x.mant = 0 then x
  else roundAt x (max ((Nat.log2 x.mant : Int) + x.exp) (1 - (f.bias : Int)) - f.fbits) rm r

/-- `rnd(x, t, rm, r)` for an integer type, as an integer (R76). -/
def rndI (x : Dy) (rm : RMode) (r : Nat) : Int := let y := roundAt x 0 rm r; if y.neg then -(y.mant : Int) else y.mant

/-- Round a finite value to a type and encode it; beyond maxfin the control chooses (R77, R81). -/
def narrowF (f : FFmt) (x : Dy) (rm : RMode) (ovf : Bool) (r : Nat) : Nat :=
  let y := rndF f x rm r
  if magGt y (maxfin f) then
    if !ovf then encodeFin f { maxfin f with neg := x.neg }
    else if f.hasInf then infBits f x.neg else qnanBits f
  else encodeFin f y

/-- A result of IEEE arithmetic in a type with infinities: one rounding, RNE, above maxfin an infinity (R71). -/
def ieee (f : FFmt) : FVal → Nat
  | .nan => qnanBits f
  | .inf s => infBits f s
  | .fin d => narrowF f d .rne true 0

/-- Sum of two values (R71). -/
def FVal.add : FVal → FVal → FVal
  | .nan, _ => .nan
  | _, .nan => .nan
  | .inf a, .inf b => if a = b then .inf a else .nan
  | .inf a, .fin _ => .inf a
  | .fin _, .inf b => .inf b
  | .fin a, .fin b => .fin (a.add b)

/-- Product of two values (R71). -/
def FVal.mul : FVal → FVal → FVal
  | .nan, _ => .nan
  | _, .nan => .nan
  | .inf a, .inf b => .inf (a != b)
  | .inf a, .fin b => if b.mant = 0 then .nan else .inf (a != b.neg)
  | .fin a, .inf b => if a.mant = 0 then .nan else .inf (a.neg != b)
  | .fin a, .fin b => .fin (a.mul b)

/-- Sign changed; a NaN stays. -/
def FVal.flip : FVal → FVal
  | .nan => .nan
  | .inf s => .inf (!s)
  | .fin d => .fin d.flip

/-- Whether a value is a NaN. -/
def FVal.isNan : FVal → Bool
  | .nan => true
  | _ => false

/-- a < b by value, false on a NaN (R135, R146). -/
def FVal.lt : FVal → FVal → Bool
  | .fin a, .fin b => a.lt b
  | .inf s, .fin _ => s
  | .fin _, .inf s => !s
  | .inf s, .inf t => s && !t
  | _, _ => false

/-- a = b by value, -0 equal to +0, false on a NaN. -/
def FVal.eqv : FVal → FVal → Bool
  | .fin a, .fin b => a.eqv b
  | .inf s, .inf t => s == t
  | _, _ => false

/-- Sign of a value. -/
def FVal.neg : FVal → Bool
  | .nan => false
  | .inf s => s
  | .fin d => d.neg

/-- The order of fmin and fmax: -0 below +0 (R72). -/
def FVal.below (a b : FVal) : Bool := a.lt b || (a.eqv b && a.neg && !b.neg)

/-- fmin on bits (R72). -/
def fminB (f : FFmt) (x y : Nat) : Nat :=
  let a := decodeF f x
  let b := decodeF f y
  if a.isNan then (if b.isNan then qnanBits f else y)
  else if b.isNan then x
  else if b.below a then y else x

/-- fmax on bits (R72). -/
def fmaxB (f : FFmt) (x y : Nat) : Nat :=
  let a := decodeF f x
  let b := decodeF f y
  if a.isNan then (if b.isNan then qnanBits f else y)
  else if b.isNan then x
  else if a.below b then y else x

/-- a + b on bits (R71). -/
def faddB (f : FFmt) (x y : Nat) : Nat := ieee f ((decodeF f x).add (decodeF f y))

/-- a - b on bits (R71). -/
def fsubB (f : FFmt) (x y : Nat) : Nat := ieee f ((decodeF f x).add (decodeF f y).flip)

/-- a * b on bits (R71). -/
def fmulB (f : FFmt) (x y : Nat) : Nat := ieee f ((decodeF f x).mul (decodeF f y))

/-- a * b + d, or -(a * b) + d, with one rounding (R134, R144). -/
def fmaB (f : FFmt) (neg : Bool) (x y d : Nat) : Nat :=
  let p := (decodeF f x).mul (decodeF f y)
  ieee f ((if neg then p.flip else p).add (decodeF f d))

/-- An integer as an exact value. -/
def Dy.ofInt (i : Int) : Dy := ⟨decide (i < 0), i.natAbs, 0⟩

/-- `value(b, t)` of any type but mx8; a bit has the value 0 or 1 (R66, R68). -/
def valueOf (t : Ty) (b : Nat) : FVal :=
  match fmtOf t with
  | some f => decodeF f b
  | none => .fin (Dy.ofInt (if t = .bit then ((b % 2 : Nat) : Int) else intVal t b))

/-- Whether a type is floating point. -/
def isFloatTy (t : Ty) : Bool := (fmtOf t).isSome

/-- The saturated integer of an infinity (R81). -/
def satInf (t : Ty) (neg : Bool) : Nat := wrapN (if neg then intMin t else intMax t) t.width

/-- `convert` of R81 from a value; `srcInt` says that the source type is an integer type. mx8 behaves as n8 where it is not a pair (R140). -/
def convertV (x : FVal) (srcInt : Bool) (t : Ty) (rm : RMode) (ovf : Bool) (r : Nat) : Nat :=
  if t = .bit then
    match x with
    | .nan => 1
    | .inf _ => 1
    | .fin d => if d.mant = 0 then 0 else 1
  else
    match fmtOf t with
    | some f =>
      match x with
      | .nan => qnanBits f
      | .inf s => if f.hasInf then infBits f s else if ovf then qnanBits f else encodeFin f { maxfin f with neg := s }
      | .fin d => narrowF f d rm ovf r
    | none =>
      match x with
      | .nan => 0
      | .inf s => satInf t s
      | .fin d => let y := rndI d rm r; if srcInt && ovf then wrapN y t.width else satInt t y

/-- `convert(b, f, t, rm, ovf, r)` (R81). A bit source counts as a type that is neither integer nor float: its values 0 and 1 fit every target. -/
def convert (b : Nat) (f t : Ty) (rm : RMode) (ovf : Bool) (r : Nat) : Nat := convertV (valueOf f b) f.isInt t rm ovf r

/-- mix64 of R78. -/
def mix64 (x : Nat) : Nat :=
  let x := ((x ^^^ x >>> 30) * 0xBF58476D1CE4E5B9) % 2 ^ 64
  let x := ((x ^^^ x >>> 27) * 0x94D049BB133111EB) % 2 ^ 64
  x ^^^ x >>> 31

/-- rand32 of R78. -/
def rand32 (seed pos strand iter lane b : Nat) : Nat :=
  mix64 (mix64 (mix64 (mix64 (mix64 (seed ^^^ pos) ^^^ strand) ^^^ iter) ^^^ lane) ^^^ b) % 2 ^ 32

/-- The kind of an MX block as a type: false is e4m3, true is e5m2 (R74). -/
def mxKind (k : Bool) : Ty := if k then .e5m2 else .e4m3

/-- Value of an MX element of a kind under a scale code (R73). -/
def mxValue (k : Bool) (scale e : Nat) : FVal :=
  if scale % 256 = 255 then .nan
  else
    match valueOf (mxKind k) e with
    | .fin d => .fin { d with exp := d.exp + ((scale % 256 : Nat) : Int) - 127 }
    | v => v

/-- The greatest magnitude among the finite values (R82). -/
def bigMag (xs : List FVal) : Dy :=
  xs.foldl (fun m x => match x with
    | .fin d => if magGt d m then { d with neg := false } else m
    | _ => m) ⟨false, 0, 0⟩

/-- The format of an MX kind. -/
def mxFmt (k : Bool) : FFmt := if k then fmtE5m2 else fmtE4m3

/-- The least `s` of -127 to 127 under which `big` still rounds to a finite element, tried upward (R82). DESIGN CHOICE: 127 where none of them does (log 58). -/
def mxScaleFrom (big : Dy) (k : Bool) (rc : RMode) : Nat → Int → Int
  | 0, s => s
  | n + 1, s => if magGt (rndF (mxFmt k) { big with exp := big.exp - s } rc 0) (maxfin (mxFmt k)) then mxScaleFrom big k rc n (s + 1) else s

/-- `to_mx` of R82 on 32 values: the codes and the scale code. -/
def toMx (xs : List FVal) (k : Bool) (rm : RMode) (ovf : Bool) (rs : List Nat) : List Nat × Nat :=
  let big := bigMag xs
  let rc := if rm = .sto then .away else rm
  let s : Int := if big.mant = 0 then 0 else mxScaleFrom big k rc 254 (-127)
  let scaled := xs.map fun x => match x with
    | .fin d => FVal.fin { d with exp := d.exp - s }
    | v => v
  (List.zipWith (fun x r => convertV x false (mxKind k) rm ovf r) scaled rs, (127 + s).toNat)

/-! VFUN (R153): the exact function value correctly rounded, from truncated values with a sticky bit. -/

/-- A truncated value with a sticky last bit, which rounds as the exact value does. -/
def stickyDy (neg : Bool) (q : Nat) (inexact : Bool) (e : Int) : Dy := ⟨neg, 2 * q + (if inexact then 1 else 0), e - 1⟩

/-- 1/x of a non-zero value, with 64 quotient bits and a sticky bit. -/
def rcpDy (d : Dy) : Dy :=
  let k := Nat.log2 d.mant + 64
  stickyDy d.neg (2 ^ k / d.mant) (2 ^ k % d.mant != 0) (-(k : Int) - d.exp)

/-- 1/sqrt(x) of a positive value, with at least 64 bits and a sticky bit. -/
def rsqrtDy (d : Dy) : Dy :=
  let m := if d.exp % 2 = 0 then d.mant else 2 * d.mant
  let e := if d.exp % 2 = 0 then d.exp else d.exp - 1
  let k := Nat.log2 m + 128
  let n := 2 ^ (2 * (k / 2)) / m
  let r := isqrt n
  stickyDy false r (r * r * m != 2 ^ (2 * (k / 2))) (-((k / 2 : Nat) : Int) - e / 2)

/-- Fraction bits of the products of exp2; their truncation error stays below 2^-180, far from any f32 rounding boundary that is not exact. -/
def funBits : Nat := 192

/-- The product of 2^(2^-i) over the set bits of a fraction of `n` bits, most significant first, truncated at `funBits`. -/
def exp2Frac (frac : Nat) : Nat → Nat → Nat → Nat
  | 0, _, acc => acc
  | n + 1, root, acc =>
    let root := isqrt (root <<< funBits)
    exp2Frac frac n root (if frac.testBit n then (acc * root) >>> funBits else acc)

/-- 2^x rounded to f32 (R153). -/
def exp2F32 (d : Dy) : Nat :=
  if d.mant = 0 then 0x3F800000
  else
    let l : Int := (Nat.log2 d.mant : Int) + d.exp
    if 8 ≤ l then (if d.neg then 0 else infBits fmtF32 false)
    else if l < -25 then 0x3F800000
    else
      -- x = i + frac / 2^n
      let n := (-d.exp).toNat
      let z : Int := d.at (min d.exp 0)
      let i : Int := z / (2 ^ n : Int)
      let frac := (z - i * (2 ^ n : Int)).toNat
      if 128 ≤ i then infBits fmtF32 false
      else if frac = 0 then narrowF fmtF32 ⟨false, 1, i⟩ .rne true 0
      else
        -- an irrational value strictly above the truncated product: a sticky bit rounds it
        let b := exp2Frac frac n (2 ^ (funBits + 1)) (2 ^ funBits)
        narrowF fmtF32 ⟨false, 2 * b + 1, i - funBits - 1⟩ .rne true 0

/-- Bits of the fraction of log2 of m / 2^P in [1, 2), most significant first, `n` of them. -/
def log2Bits : Nat → Nat → Nat → Nat
  | 0, _, acc => acc
  | n + 1, m, acc =>
    let q := (m * m) >>> 512
    if q.testBit 513 then log2Bits n (q / 2) (2 * acc + 1) else log2Bits n q (2 * acc)

/-- log2 of a positive value rounded to f32 (R153). -/
def log2F32 (d : Dy) : Nat :=
  let l := Nat.log2 d.mant
  let e : Int := (l : Int) + d.exp
  if d.mant = 2 ^ l then narrowF fmtF32 (Dy.ofInt e) .rne true 0
  else
    let m := d.mant <<< (512 - l)
    let f := log2Bits 128 m 0
    -- an irrational value strictly inside the last unit: a sticky bit rounds it
    narrowF fmtF32 ((Dy.ofInt e).add ⟨false, 2 * f + 1, -129⟩) .rne true 0

/-- VFUN on f32 bits (R153). -/
def vfunBits (f : VfunF) (x : Nat) : Nat :=
  match f, decodeF fmtF32 x with
  | _, .nan => qnanBits fmtF32
  | .exp2, .inf s => if s then 0 else infBits fmtF32 false
  | .exp2, .fin d => exp2F32 d
  | .log2, .inf s => if s then qnanBits fmtF32 else infBits fmtF32 false
  | .log2, .fin d => if d.mant = 0 then infBits fmtF32 true else if d.neg then qnanBits fmtF32 else log2F32 d
  | .rcp, .inf s => encodeFin fmtF32 ⟨s, 0, 0⟩
  | .rcp, .fin d => if d.mant = 0 then infBits fmtF32 d.neg else narrowF fmtF32 (rcpDy d) .rne true 0
  | .rsqrt, .inf s => if s then qnanBits fmtF32 else 0
  | .rsqrt, .fin d => if d.mant = 0 then infBits fmtF32 d.neg else if d.neg then qnanBits fmtF32 else narrowF fmtF32 (rsqrtDy d) .rne true 0

/-! The carry formats of the switch (R84 to R87). -/

/-- A partial sum in the switch. -/
inductive Carry where
  | float (bits : Nat)
  | int (v : Int) (flag : Bool)
deriving DecidableEq, Repr

/-- Ingress of a float contribution: subnormals become zeros of their sign (R85). -/
def carryOf (t : Ty) (b : Nat) : Carry :=
  match fmtOf t with
  | none => .int (if t = .bit then ((b % 2 : Nat) : Int) else intVal t b) false
  | some f =>
    match decodeF f b with
    | .nan => .float (qnanBits fmtCarry)
    | .inf s => .float (infBits fmtCarry s)
    | .fin d => if bitsOf b f.fbits f.ebits = 0 then .float (encodeFin fmtCarry ⟨d.neg, 0, 0⟩) else .float (encodeFin fmtCarry d)

/-- Saturation to i64 with its flag (R86). -/
def satI64 (x : Int) : Int × Bool := let y := clampI (-(2 ^ 63)) (2 ^ 63 - 1) x; (y, decide (y ≠ x))

/-- ADD of two partial sums (R85, R86). -/
def carryAdd : Carry → Carry → Carry
  | .float a, .float b => .float (faddB fmtCarry a b)
  | .int a f, .int b g => let r := satI64 (a + b); .int r.1 (f || g || r.2)
  | a, _ => a

/-- MIN or MAX of two partial sums (R85, R86). -/
def carryMinMax (mx : Bool) : Carry → Carry → Carry
  | .float a, .float b => .float (if mx then fmaxB fmtCarry a b else fminB fmtCarry a b)
  | .int a f, .int b g => .int (if mx then max a b else min a b) (f || g)
  | a, _ => a

/-- AND, OR, XOR of two integer partial sums (R86), on their two's complement patterns. -/
def carryBit (op : RedF) : Carry → Carry → Carry
  | .int a f, .int b g =>
    let x := wrapN a 64
    let y := wrapN b 64
    let z := match op with
      | .and => x &&& y
      | .or => x ||| y
      | _ => x ^^^ y
    .int (sxNat z 64) (f || g)
  | a, _ => a

/-- Delivery into the destination type (R87). -/
def carryOut (c : Carry) (t : Ty) (ovf : Bool) : Nat :=
  match c with
  | .float b => convertV (decodeF fmtCarry b) false t .rne ovf 0
  | .int v _ => satInt t v

end Sys2Proof.Machine
end

