-- ==== Sys2Proof/Machine/State.lean ====
section
/-! DEFINITION. The state of one BFL-9306 package as plain data, and the state after package reset. Fields marked MODEL are the model's own; every other field is named by the rule it cites. -/

namespace Sys2Proof.Machine

/-- Why the machine stops. Raised by STAGING_WRITE alone. -/
inductive Fault where
  /-- Raised by STAGING_WRITE for an offset outside the 32 MiB of BAR2 (R419): no such byte exists. Safe. -/
  | noStagingByte
deriving DecidableEq, Repr

/-- Why an instruction has no meaning. -/
inductive Refusal where
  /-- Raised by an arm of `exec` that has no meaning yet. Safe: no claim is proved of it. -/
  | notModelled (mnemonic : String)
deriving DecidableEq, Repr

/-- The outcome of an instruction or event. -/
abbrev Out (σ : Type) := Host.Outcome σ Fault Refusal

/-- Bytes by address, strictly rising, no zero byte listed: an unlisted byte reads as zero (log 3). -/
abbrev Memory := List Host.Cell

/-! ## The strand -/

/-- A register that is a future: value, state, producer tag (R11, R15, R19). -/
structure Fut (w : Nat) where
  val : BitVec w
  st : RegState
  tag : Tag
deriving DecidableEq, Repr

/-- The register files (R11). -/
structure RegFile where
  s : Vector (Fut 64) 64
  v : Vector (Fut 1024) 32
  p : Vector (Fut 128) 16
deriving DecidableEq, Repr

/-- One half of the loop-state area (R96). -/
structure LoopSt where
  iter : Word
  count : Word
  first : Word
  rings : BitVec 24
  blen : BitVec 6
  active : Bool
deriving DecidableEq, Repr

/-- One half of the sequencer state (R115). -/
structure SeqSt where
  nextT : BitVec 32
  endT : BitVec 32
  counts : Word
  mode : BitVec 2
  ndim : BitVec 2
deriving DecidableEq, Repr

/-- An entry of the undo log (R31). -/
structure LogEntry where
  reg : RegId
  val : VVal
  st : RegState
  tag : Tag
deriving DecidableEq, Repr

/-- The replay entry (R31, R328), and how many register entries stand before it in the log. -/
structure Replay where
  pos : Nat
  done : BitVec 32
  seen : BitVec 32
deriving DecidableEq, Repr

/-- A gated line entry (R212): line address, byte mask, 64 bytes. -/
structure GatedLine where
  line : Word
  mask : BitVec 64
  data : BitVec 512
deriving DecidableEq, Repr

/-- A semaphore view with its outstanding SEMA (R30, R105). -/
structure Sema where
  count : BitVec 32
  await : BitVec 32
  out : Bool
  rid : RegId
  tag : Option Tag
deriving DecidableEq, Repr

/-- STATE of a strand (R28). -/
inductive StrandSt where
  | ready | running | parked | evicted | faulted | done
deriving DecidableEq, Repr

/-- Trap causes (R370), codes 1 to 15. -/
inductive Cause where
  | illegalBundle | poisonUse | align | nearBounds | farFault | barrierOverarrival | barrierBytes | shape | replicaMismatch
  | channel | loopBody | privilege | trap | queue | watchdog
deriving DecidableEq, Repr

/-- What a trap record holds beyond the strand's identity (R369, R370). -/
structure TrapRec where
  cause : Cause
  mask : BitVec 8
  code : BitVec 16
  bundle : Word
  window : BitVec 32
  addr : Word
deriving DecidableEq, Repr

/-! ## Commands of the engines -/

/-- A far load in flight (R213): how its lanes assemble. -/
inductive LoadKind where
  | s (z : Sz)
  | v
  | g (t : Ty) (mask : List Bool) (old : VVal)
deriving DecidableEq, Repr

/-- A far load: lanes are (address, bytes); the strand's gated bytes are taken at issue (R213). -/
structure FarLoad where
  id : Nat
  sid : Nat
  tag : Option Tag
  window : BitVec 32
  kind : LoadKind
  lanes : List (Word × Nat)
  gated : List (Word × Byte)
  bound : List (Word × Byte)
  remote : Bool
  done : Bool
  /-- kind, address and the owner's generation of a FAULT answer on its way (R214, R342) -/
  fault : Option (BitVec 4 × Word × BitVec 32)
deriving DecidableEq, Repr

/-- A far atomic, REDF or CASF (R216, R217). -/
structure FarAtom where
  id : Nat
  sid : Nat
  tag : Option Tag
  window : BitVec 32
  va : Word
  w : W2
  op : AtomOp
  sent : Bool
  cpt : Word
  held : Option (BitVec 32)
  fkind : BitVec 4
  remote : Bool
deriving DecidableEq, Repr

/-- A near store or ATMN on its way to another slice (R207, R210, R219): bytes stored, or the atomic. -/
inductive NearWhat where
  | store (bytes : List (Nat × Byte))
  | scatter (o : ScatF) (t : Ty) (lanes : List (Nat × Nat))
  | atomic (w : W2) (o : AtomF) (b : Word) (tag : Option Tag)
deriving DecidableEq, Repr

/-- A near operation not yet performed; `loc` is its physical byte address in near memory. -/
structure NearOp where
  id : Nat
  sid : Nat
  gid : Nat
  slice : Nat
  loc : Nat
  what : NearWhat
  sent : Bool
deriving DecidableEq, Repr

/-- A near load from another slice on its way: strand, tag, the slice's core, its banks with their rows, and the ck of its delivery (R206, R207, R282). -/
structure NearLoad where
  sid : Nat
  tag : Tag
  core : Nat
  banks : List (Nat × Nat)
  due : Nat
deriving DecidableEq, Repr

/-- Kinds of array command (R187). -/
inductive ArrKind where
  | prog | stat | swap | stream | wave | drain | clr | trace
deriving DecidableEq, Repr

/-- An array command with the operands it captured (R187). -/
structure ArrCmd where
  id : Nat
  sid : Nat
  tag : Option Tag
  kind : ArrKind
  a : Word
  b : Word
  h : Shape
  x : BitVec 2
  cfg : Word
  /-- steps whose beat at cell (0, 0) is past; for ATRACE the number of images it takes (R192, R194) -/
  entered : Nat
  complete : Nat
  started : Bool
  /-- the ck before which step 0 may not enter (R196) -/
  beat0 : Nat
  bad : Bool
deriving DecidableEq, Repr

/-- One copy command (R226 to R230). -/
inductive CopyKind where
  | copy | gath | scat
deriving DecidableEq, Repr

/-- A copy: its captured command, and once it has started the bytes it will write. Destinations are (far?, address, byte). -/
structure CopyOp where
  id : Nat
  sid : Nat
  tag : Option Tag
  kind : CopyKind
  src : Word
  dst : Word
  cmd : Word
  h : Shape
  idx : List Nat
  window : BitVec 32
  /-- pages translated before the commit point that closes the copy's window: address in far space, HBM address, device (R232, R233) -/
  xl : List (Word × Nat × Option (BitVec 12))
  xlated : Bool
  /-- requests by which other packages keep translations of the copy's pages: request, device (R232) -/
  kept : List (Nat × BitVec 12)
  started : Bool
  /-- bytes to write at completion, copy addresses (R225), in order -/
  writes : List (Word × Byte)
  result : Payload
  count : Nat
  /-- kind, address and the owner's generation of a FAULT answer on its way (R233, R342) -/
  fault : Option (BitVec 4 × Word × BitVec 32)
  /-- bytes that other packages have answered, and whether they have been asked for; requests still unanswered (R396) -/
  cache : List (Word × Byte)
  asked : Bool
  open_ : Nat
  /-- the leeward strands that share the outcome of a windward's far-bound copy (R230, R359) -/
  lee : List Nat
deriving DecidableEq, Repr

/-- A SEND (R236): the message bytes it has read, its ticket, and once it has left its message count. -/
structure SendOp where
  sid : Nat
  tag : Option Tag
  bytes : List Byte
  num : Option (BitVec 32)
  left : Bool
  count : BitVec 32
  since : Nat
deriving DecidableEq, Repr

/-- A RECV or RECVA (R237). -/
structure RecvOp where
  id : Nat
  sid : Nat
  tag : Option Tag
  addr : Word
  size : Nat
  mask : Word
deriving DecidableEq, Repr

/-- A member of a group: device, die, cluster (R399). -/
abbrev GroupMember := BitVec 12 × Nat × Nat

/-- What a command that waits for its window does once the window is performed (R186, R216, R232). -/
inductive Post where
  | farAtom (id : Nat)
  | nearAtom (id : Nat)
  | array (core : Nat) (c : ArrCmd)
  | arrayPoison (t : Option Tag) (c : PoisonCode)
  | copy (c : CopyOp)
  | copyPoison (t : Option Tag) (c : PoisonCode)
  | chan (c : BitVec 6) (t : Option Tag) (desc : List Byte) (bad : Option PoisonCode)
  | send (c : BitVec 6) (op : SendOp) (bad : Option PoisonCode)
  | recv (op : RecvOp) (bad : Option PoisonCode)
  | tick (c : BitVec 6) (t : Option Tag)
  /-- with the members of the group, once the tentative phase has read them (R232) -/
  | coll (t : Option Tag) (aligned : Bool) (desc : List Byte) (ms : Option (List GroupMember))
  | spsend (t : Option Tag) (aligned : Bool) (desc : List Byte) (ms : Option (List GroupMember))
  | sprecv (t : Option Tag) (aligned : Bool) (desc : List Byte) (ms : Option (List GroupMember))
  | launch (a : RegId) (t : Option Tag) (rec : Word)
  | launchAlign (a : RegId)
  /-- a near store of the bundle of a LAUNCH, which commits only when Gust has not rejected the record (R102) -/
  | near (slice loc : Nat) (w : NearWhat)
  | exit
  | rel (f : Scope)
deriving DecidableEq, Repr

/-- Phases of a commit point (R318, R356). -/
inductive ClosePhase where
  | atIssue | tentative | reserve | compare | perform | answer
deriving DecidableEq, Repr

/-- What the bundle of a LAUNCH found, which QUEUE restores: its registers as an undo log, shapes, loop, sequencer, gated lines, FAULTINJ with its count, and the first name that its operations took (R102). -/
structure Before where
  log : List LogEntry
  h : Vector Shape 16
  loop : LoopSt
  seq : SeqSt
  gated : List GatedLine
  inj : Word × Nat
  firstId : Nat
deriving DecidableEq, Repr

/-- A commit point under way (R109, R318). `mask` is the slot mask of R337; `lines` are the reserved places. -/
structure Closing where
  phase : ClosePhase
  mask : BitVec 8
  cpt : Word
  next : Word
  post : List Post
  lines : List (GatedLine × Nat × Option (BitVec 12))
  /-- the generation of each die when it reserved lines (R341) -/
  gen : List (Nat × BitVec 32)
  /-- the commit items to hash: opcode, slot, further words (R355) -/
  items : List (Nat × Nat × List Word)
  /-- whether the signatures are compared (R353) -/
  compare : Bool
  /-- whether the strand stays parked as it was: the implicit commit of an eviction (R284) -/
  keep : Bool
  /-- requests to other packages that have not been answered, and the reservations made there (R396) -/
  open_ : Nat
  rids : List (Nat × BitVec 12)
  /-- faults found in this tentative phase: access, kind, address, the owner's generation (R337, R342) -/
  faults : List (BitVec 4 × BitVec 4 × Word × BitVec 32)
  /-- a source that the signature covers has not been read (R245, R355) -/
  late : Bool
  /-- requests by which other packages keep translations for the commit point (R102) -/
  kept : List (Nat × BitVec 12)
  /-- what the bundle of a LAUNCH found (R102) -/
  before : Option Before
  /-- the place of a launched record, which its owner keeps, in the frame of another package when one is named, and the 64 bytes that Gust has read (R102) -/
  record : Option (Nat × Option (BitVec 12))
  recBytes : List Byte
  /-- Gust rejects the record (R102) -/
  reject : Bool
deriving DecidableEq, Repr

/-- What the bundle at NEXT still waits for after its commit point (R434). -/
inductive Remain where
  | none | exit | rel (f : Scope)
deriving DecidableEq, Repr

/-- Eddy's hashes and the number of items hashed (R354, R355). -/
structure Eddy where
  h1 : Word
  h2 : Word
  items : Nat
deriving DecidableEq, Repr

/-- A strand: registers, control state, and what it holds (R28, R29). -/
structure Strand where
  sid : Nat
  gid : Nat
  lidx : BitVec 6
  /-- core (0 to 1535) and context on which the strand is resident or held (R259, R371) -/
  loc : Option (Nat × BitVec 2)
  st : StrandSt
  regs : RegFile
  h : Vector Shape 16
  q : Vector Sema 16
  pc : Word
  npc : Word
  window : BitVec 32
  cpt : Word
  log : List LogEntry
  replay : Option Replay
  gated : List GatedLine
  loop : LoopSt
  loopC : LoopSt
  seq : SeqSt
  seqC : SeqSt
  /-- serials held (R20), each with whether EXIT awaits its producer (R103) -/
  serials : List (Nat × Bool)
  /-- PARKID as a register id, none for 0xFF (R28, R434) -/
  parkid : Option RegId
  /-- the set a WAITANY parks on: file and mask (R99) -/
  waitset : Option (RFile × Word)
  choice : Option (BitVec 6)
  cdone : Bool
  remain : Remain
  closing : Option Closing
  /-- commands that leave in the ck after their window has been performed (R186, R232) -/
  leaving : List Post
  /-- the open window holds a far load (R217) -/
  farLoaded : Bool
  frame : Word
  crec : Word
  trec : Word
  link : Word
  perf : Vector Word 8
  perfsel : Vector Byte 8
  nearstall : Word
  faultinj : Word
  storeCount : Nat
  readyAt : Nat
  notBefore : Nat
  triedAt : Nat
  /-- the last attempt found all serials held (R20, R27) -/
  waitSerial : Bool
  /-- the NEAR access of the bundle at NEXT has lost its banks for so many ck, and which it wants (R206) -/
  bankWait : Option (Nat × List (Nat × Nat))
  parkedAt : Nat
  asleep : Bool
  /-- operations whose performance NFENCE (R111) and ACQ (R321) still wait for -/
  nearFence : List Nat
  acqFence : List Nat
  mark : Option (BitVec 4 × Word)
  /-- tickets held: channel, number, used (R236, R238) -/
  tickets : List (BitVec 6 × BitVec 32)
  /-- a trap whose record has not yet been written (R433, R363) -/
  heldTrap : Option TrapRec
  /-- a RESUME has begun and waits for the strand's records (R119, R433) -/
  resuming : Bool
  /-- the nest record a NEST waits for (R113) -/
  nestAddr : Option Word
  /-- Eddy's state now, and as it stood at the last commit point (R353, R354) -/
  eddy : Eddy
  eddyC : Eddy
  ordinal : Nat
  sig : Option (BitVec 128)
  verdict : Bool
  /-- ck in which another replica has waited for this strand's signature (R362) -/
  late : Option Nat
  /-- tries at the current commit ordinal that mismatched (R360) -/
  tries : Nat
  /-- agreed values: the next number, that number at the last commit point, and those that have arrived (R357) -/
  agreeN : Nat
  agreeC : Nat
  agreed : List (Nat × Nat × Payload)
  /-- destinations of agreed values not yet filled, and the strand's own outcome once it is there -/
  agreeWait : List (Nat × Nat × Tag × Option Payload)
  /-- a pre-emption or watchdog has stopped the strand's issue (R377) -/
  halted : Bool
deriving DecidableEq, Repr

/-! ## The array of a core -/

/-- One cell of an array (R160): data in bits 0-63, scale in bits 64-71. -/
structure Cell where
  l0 : BitVec 72
  shadow : BitVec 72
  l1 : BitVec 32
  e : BitVec 72
  s : BitVec 72
  wIn : BitVec 72
  nIn : BitVec 72
  /-- L1 after recent steps of the current command, newest first (R195) -/
  hist : List (BitVec 32)
deriving DecidableEq, Repr

/-- A step in the array's pipeline (R162): its command and number, and whether a swap comes before it (R165). -/
structure StepRef where
  cmd : Nat
  step : Nat
  swap : Bool
  cfg : Word
  kind : ArrKind
  a : Word
  h : Shape
  sid : Nat
deriving DecidableEq, Repr

/-- A program slot (R190): image words 0 to 3, row mask, column mask. -/
structure ProgSlot where
  image : BitVec 128
  rows : BitVec 32
  cols : BitVec 32
deriving DecidableEq, Repr

/-- The array of a core (R160, R184 to R195). -/
structure Array where
  holder : Option Nat
  lastJob : Option Nat
  /-- contexts that wait at ACFG: strand and the ck in which its wait began (R184) -/
  waiting : List (Nat × Nat)
  cfg : Word
  /-- configurations recorded and not yet in effect: commands with a lower id must complete first (R184) -/
  nextCfg : List (Nat × Word)
  /-- ADONE issued: commands with a lower id must complete first (R185) -/
  releasing : Option Nat
  cmds : List ArrCmd
  /-- the end of the 32 ck that a clearing claim takes (R184) -/
  freeAt : Nat
  pipe : List (Option StepRef)
  cells : Vector Cell 1024
  progs : Vector ProgSlot 4
  images : List (BitVec 2048)
  /-- the image being completed for each step in the pipeline: command, step, bits (R175) -/
  building : List (Nat × Nat × BitVec 2048)
  /-- ASWAPs not yet given to a step or applied (R191) -/
  swaps : Nat
  /-- the ck in which the edge words of the next beat that stand in other slices are there (R164, R196) -/
  operands : Option Nat
  /-- results that wait for the other half of their 8-byte granule: strand, near address, bytes (R315) -/
  outs : List (Nat × Nat × List Byte)
  /-- the current command of AREAD (R195): id and steps; steps complete now and at the end of the last ck -/
  current : Option (Nat × Nat)
  curDone : Nat
  curDonePrev : Nat
deriving DecidableEq, Repr

/-! ## The gang -/

/-- A barrier (R106). -/
structure Barrier where
  expa : BitVec 7
  expb : BitVec 32
  arrived : BitVec 7
  drops : BitVec 7
  bytes : Nat
  phase : BitVec 32
  bad : Bool
  /-- waiters: strand and tag of its KARR future (R107) -/
  waiters : List (Nat × Option Tag)
deriving DecidableEq, Repr

/-- A send end (R235, R295, R297). -/
structure SendEnd where
  tkt : Bool
  peer : ChanAddr
  /-- the peer's DEPTH, once a credit word has come -/
  depth : Option (BitVec 15)
  free : BitVec 15
  rcvd : BitVec 32
  sent : BitVec 32
  msgs : BitVec 32
  called : Option (BitVec 32)
  /-- ticket numbers that were skipped while their holder was saved (R298) -/
  skips : List (BitVec 32)
  resync : Bool
  /-- the binding of the receive end from which the latest credit word of another package came (R235) -/
  peerBind : Nat
  ops : List SendOp
deriving DecidableEq, Repr

/-- A message in a ring (R294): its bytes stand in the ring from element `start`; a gap may stand before it (R296). -/
structure RingMsg where
  start : Nat
  elems : Nat
  len : Nat
  gap : Bool
  pushedAt : Nat
deriving DecidableEq, Repr

/-- A ticket issued and not yet passed by CALL (R297, R298). -/
structure Ticket where
  num : BitVec 32
  holder : ChanAddr
  sid : Nat
  tag : Option Tag
  skipped : Bool
  called : Option Nat
deriving DecidableEq, Repr

/-- A receive end (R234, R294 to R297, R397). -/
structure RecvEnd where
  /-- the name of the binding, which a message on its way carries (R235) -/
  bind : Nat
  tkt : Bool
  peer : ChanAddr
  /-- the cluster on which the end was bound, and the logical index of the binding strand -/
  cl : BitVec 2
  owner : Nat
  ring : BitVec 20
  depth : BitVec 15
  msgs : List RingMsg
  /-- messages held at the port until they fit -/
  held : List Msg
  tail : Nat
  pushed : BitVec 32
  pushedMsgs : BitVec 32
  /-- the next message count of each sender -/
  expects : List (ChanAddr × BitVec 32)
  /-- elements freed since the last credit word -/
  freed : Nat
  lastCredit : Nat
  lastTraffic : Nat
  nextnum : BitVec 32
  call : BitVec 32
  issued : List Ticket
deriving DecidableEq, Repr

/-- A channel of a gang (R234). -/
inductive Chan where
  | unbound
  | send (e : SendEnd)
  | recv (e : RecvEnd)
deriving DecidableEq, Repr

/-- The gang's dynamic sequencer (R113, R378). -/
structure DynSeq where
  addr : Word
  next : Nat
  total : Nat
  counts : Word
  ndim : BitVec 2
deriving DecidableEq, Repr

/-- The task record's fields (R33). -/
structure Task where
  entry : Word
  width : Nat
  height : Nat
  nstr : Nat
  repl : BitVec 2
  detreq : Bool
  split : Bool
  intacc : Bool
  nearsz : Nat
  taskno : BitVec 32
  waitc : Nat
  nsucc : Nat
  succ : Word
  caddr : Word
  cid : Byte
  ctag : Tag
  ckind : Bool
  arg0 : Word
  arg1 : Word
deriving DecidableEq, Repr

/-- A pre-empted or evicted gang (R378): reason, when, and the array of each holder by logical index, in the form that only the device reads (R198). -/
structure SavedGang where
  reason : BitVec 2
  since : Nat
  arrays : List (Nat × Array)
deriving DecidableEq, Repr

/-- A gang (R249). -/
structure Gang where
  gid : Nat
  record : Word
  task : Task
  job : Nat
  die : Nat
  queue : Nat
  det : Bool
  cluster : Nat
  strands : List Nat
  /-- core and base of each strand's slice (R257, R303) -/
  alloc : List (Nat × Nat)
  save : Word
  saveSize : Nat
  barriers : Vector Barrier 16
  /-- barriers whose state the save area does not yet hold, since the write is held (R290, R433) -/
  unsaved : List (BitVec 4)
  chans : Vector Chan 64
  /-- RECV and RECVA that wait, in the order they reached their channels (R237) -/
  recvs : List RecvOp
  /-- TICKs on their way for send ends that have been bound anew since: strand, tag (R298) -/
  staleTicks : List (Nat × Option Tag)
  dyn : Option DynSeq
  seed : Word
  rset : Option Nat
  ridx : BitVec 2
  repl : BitVec 2
  saved : Option SavedGang
  /-- poison code of the completion, if any (R34) -/
  poison : Option PoisonCode
  completed : Bool
  reported : Bool
  /-- successors whose WAITC has been decremented (R253) -/
  succDone : Nat
deriving DecidableEq, Repr

/-! ## The core -/

/-- A core (R256, R260). -/
structure Core where
  id : Nat
  divBusy : Nat
  divOwner : Option (Nat × Tag)
  lastCtx : Option (BitVec 2)
  streak : Nat
  lastIssue : Nat
  array : Array
  copies : List CopyOp
  xstat : List Nat
  icache : List (Nat × Word × List Byte)
  icJob : Option Nat
  loopBuf : Option (Nat × List (Word × List Byte))
  /-- banks of the core's slice, with their rows, that other requesters take in this ck (R206) -/
  banks : List (Nat × Nat)
deriving DecidableEq, Repr

/-! ## The die -/

/-- A hardware queue (R250, R251): entries are task-record addresses, on die first; a pre-empted gang stands ahead. -/
structure HwQueue where
  num : Nat
  prio : BitVec 3
  det : Bool
  en : Bool
  job : Nat
  clmask : BitVec 3
  ringlog : Nat
  ring : Word
  rhead : BitVec 32
  rtail : BitVec 32
  onDie : List Word
  /-- addresses accepted whose ring entry has not been written (R433) -/
  waitRing : List Word
  /-- the ck from which the queue waits (R254) -/
  since : Option Nat
deriving DecidableEq, Repr

/-- A TLB entry (R338). -/
structure TlbEnt where
  asid : Nat
  level : Nat
  page : Nat
  entry : Word
deriving DecidableEq, Repr

/-- A walk in flight (R339, R340), and the events that wait for its answer. -/
structure Walk where
  id : Nat
  asid : Nat
  off : Nat
  gen : BitVec 32
  joined : List Instr
deriving DecidableEq, Repr

/-- What an event that waits has been answered: the leaf or the fault that a walk at a die has found for an offset; a line read at another package or in its frame; a page that another package has translated; a fault there, with the generation. -/
inductive GotWhat where
  | leaf (die level : Nat) (e : Word)
  | bad (die : Nat) (k : BitVec 4)
  | line (bs : List Byte)
  | page (rid : Nat) (dev : BitVec 12)
  | fault (k : BitVec 4) (gen : BitVec 32)
deriving DecidableEq, Repr

/-- An answer that an event keeps until it has all it waits for (R339, R344, R433). MODEL, log 50. -/
structure Got where
  ev : Instr
  asid : Nat
  va : Word
  what : GotWhat
deriving DecidableEq, Repr

/-- What waits for the release of a fault descriptor (R343, R433): an event, an atomic, the records of a RESUME, the read by which RESUME finds its record. -/
inductive HeldOp where
  | event (i : Instr)
  | atomic (id : Nat)
  | resume (sid : Nat)
  | resumeAt (asid : Nat) (va : Word)
deriving DecidableEq, Repr

/-- A fault descriptor (R342). -/
structure Desc where
  seq : BitVec 32
  va : Word
  asid : Nat
  kind : BitVec 4
  acc : BitVec 4
  crec : Word
  gen : BitVec 32
  sid : Option Nat
  trap : Option TrapRec
  held : List HeldOp
  /-- its release has arrived, and the port has not reported it yet (R343) -/
  releasing : Bool
  /-- the strand of another package whose request has faulted here (R343) -/
  away : Option (BitVec 12 × Nat)
deriving DecidableEq, Repr

/-- A shoot-down accepted and not yet performed (R341). -/
structure ShootDown where
  gen : BitVec 32
  w0 : Word
  w1 : Word
deriving DecidableEq, Repr

/-- A pre-emption request under way (R376, R377). -/
structure Preempt where
  w0 : Word
  report : Word
  seq : BitVec 32
  /-- the address space of the report, none when no job can be named -/
  asid : Option Nat
  /-- the report has been written, or no report is to be written and every gang is saved -/
  over_ : Bool
  gangs : List Nat
  done : Nat
  lastHalt : Nat
  lastSave : Nat
  cmd : Bool
deriving DecidableEq, Repr

/-- A die: its owner, scheduler and router state. -/
structure Die where
  queues : List HwQueue
  lastServed : Vector Nat 8
  asids : List (Nat × Word)
  tlb : List TlbEnt
  walks : List Walk
  walkQ : List Walk
  gen : BitVec 32
  shoots : List ShootDown
  shootDone : List (BitVec 32)
  descs : List Desc
  nextSeq : BitVec 32
  released : List (BitVec 32)
  preempts : List Preempt
  suspect : BitVec 3
  slotJob : Option Nat
  slotWant : Option Nat
  /-- the router slot tables in place: entry bytes (R384) -/
  slotTable : List (List Byte)
  /-- page tables that the firmware has made in its own memory on this die (R427, log 21) -/
  tables : Nat
deriving DecidableEq, Repr

/-! ## Jobs, replica sets, collectives -/

/-- An event of a job's trap queue that has not been entered: the ck of its trap and the place of its core and context, by which events are ordered; the trap records that name it; its 64 bytes, without their number (R369, R372). -/
structure HeldEvent where
  ck : Nat
  place : Nat
  trecs : List Word
  bytes : List Byte
deriving DecidableEq, Repr

/-- A job (R428). -/
structure Job where
  jobn : Nat
  asid : Nat
  priv : Bool
  finj : Bool
  trapq : Word
  traplog : Nat
  wdlim : Nat
  handler : Word
  groups : Word
  save : Word
  saveSize : Nat
  hq : Nat
  hdie : Nat
  key : Nat
  seq : BitVec 32
  /-- trap events not yet entered into the ring (R372) -/
  held : List HeldEvent
  /-- parts of the save pool in use: offset, bytes (R258) -/
  pool : List (Nat × Nat)
  handlerLive : Bool
  slotImage : Word
deriving DecidableEq, Repr

/-- A replica set (R351). -/
structure RSet where
  id : Nat
  gids : List Nat
  lost : List Nat
deriving DecidableEq, Repr

/-- A descriptor as fields, of COLL or of SPSEND and SPRECV. -/
structure CollDesc where
  kind : Nat
  op : Nat
  ty : Option Ty
  dty : Option Ty
  ovf : Bool
  fixed : Bool
  group : Nat
  src : Word
  dst : Word
  count : Nat
  seq : BitVec 32
  root : Nat
  thresh : Nat
  reservedOk : Bool
deriving DecidableEq, Repr

/-- A member's future in a collective instance (R401): its descriptor, the bytes it contributes and whether they have been read; destination and capacity; `recv` marks an SPRECV. -/
structure Member where
  rank : Nat
  sid : Nat
  tag : Option Tag
  dst : Word
  cap : Nat
  recv : Bool
  desc : CollDesc
  len : Nat
  sent : Bool
  done : Bool
deriving DecidableEq, Repr

/-- A partial combination in the switch: the ranks it covers, and its carried elements with their indices (R405 to R407). -/
structure Part where
  ranks : List Nat
  elems : List (Carry × Nat)
deriving DecidableEq, Repr

/-- A block of a sparse stream in the switch (R241, R409, R410): for each index, the contributions by rank. -/
structure SpBlock where
  block : Nat
  dense : Bool
  entries : List (Nat × List (Nat × Carry × Nat))
deriving DecidableEq, Repr

/-- A stream that has passed its ingress check (R409). -/
structure SpPart where
  rank : Nat
  blocks : List SpBlock
deriving DecidableEq, Repr

/-- A collective or sparse instance of a group (R401); `terms` are the fields in which members must agree. -/
structure Coll where
  id : Nat
  job : Nat
  group : Nat
  seq : BitVec 32
  sparse : Bool
  terms : List Nat
  kind : Nat
  op : Nat
  ty : Ty
  dty : Ty
  ovf : Bool
  fixed : Bool
  root : Nat
  count : Nat
  thresh : Nat
  size : Nat
  /-- ranks on this device, and the devices of all members -/
  locals : List Nat
  devs : List (BitVec 12)
  members : List Member
  raw : List (Nat × List Byte)
  parts : List Part
  sparts : List SpPart
  result : Option (List SpBlock)
  /-- the code that poisons the instance, and the rank whose stream failed, if one did (R401, R409) -/
  bad : Option PoisonCode
  badRank : Option Nat
deriving DecidableEq, Repr

/-! ## Ports and the host -/

/-- States of a port (R388). -/
inductive PortSt where
  | down | training | up
deriving DecidableEq, Repr

/-- An Etkel port (R388 to R391, R430). -/
structure Port where
  st : PortSt
  enabled : Bool
  lanes : Byte
  ready : Bool
  peerDev : BitVec 12
  peerPort : BitVec 4
  retry : BitVec 16
  downs : BitVec 16
  nextSeq : BitVec 28
  unacked : List Flit
  expect : BitVec 28
  discarding : Bool
  failures : Nat
  counter : Word
  epoch : Byte
  rxCounter : Word
  /-- the epoch of the last flit accepted, and whether the epoch before it is accepted too (R430) -/
  rxEpoch : Byte
  rxOld : Bool
deriving DecidableEq, Repr

/-- A request to another package that has not been answered (R396). -/
inductive ReqWhat where
  | load (id : Nat) (va : Word) (len : Nat)
  | reserve (sid : Nat)
  | perform (sid : Nat)
  | atomic (id : Nat)
  | copyRead (core id : Nat) (va : Word)
  | copyWrite (core id : Nat)
  | tick (sid : Nat) (tag : Option Tag) (ch : BitVec 6)
  | got (ev : Instr) (asid : Nat) (va : Word)
  | devWrite (p : Packet)
  | message (gid : Nat) (c : BitVec 6) (count : BitVec 32)
  | resync (gid : Nat) (c : BitVec 6)
deriving DecidableEq, Repr

/-- An outstanding remote request. -/
structure Req where
  rid : Nat
  dev : BitVec 12
  what : ReqWhat
  since : Nat
deriving DecidableEq, Repr

/-- A window reserved here for another device: where its bytes go, in another package's frame when one is named (R318, R344, R396). -/
structure Resv where
  id : Nat
  rid : Nat
  dev : BitVec 12
  asid : Nat
  bytes : List (Option (BitVec 12) × Nat × Byte)
  gen : List (Nat × BitVec 32)
deriving DecidableEq, Repr

/-- The BAR0 registers (R419). -/
structure Bar0 where
  stage : Nat
  status : Byte
  go : Word
  cmdbase : Word
  cmdlog : Word
  cmdtail : Word
  cmdhead : Word
  cplbase : Word
  cpltail : Word
  /-- MSI-X vector 0 signals -/
  msix : Nat
deriving DecidableEq, Repr

/-- The SPDM responder (R424, R425). -/
structure Spdm where
  version : Bool
  caps : Bool
  algs : Bool
  session : Nat
  keyEpoch : Nat
  ide : List Nat
  transcript : List Byte
  answers : List (List Byte)
deriving DecidableEq, Repr

/-- A host command that has been fetched and has not completed (R426). -/
structure HostCmd where
  entry : CmdEntry
  /-- its effect has begun, and it waits for its end -/
  done : Bool
  /-- shoot-downs that an UNMAP waits for: die and G -/
  wait : List (Nat × BitVec 32)
  /-- bytes that a DMAIN or DMAOUT has moved -/
  moved : Nat
deriving DecidableEq, Repr

/-! ## The machine -/

/-- An event due at a ck. MODEL, log 6. -/
structure Timer where
  due : Nat
  ev : Instr
deriving DecidableEq, Repr

/-- The bundle being issued: what its slots read (R23, R42), and the slot whose turn it is. MODEL, log 8. -/
structure Issue where
  regs : RegFile
  h : Vector Shape 16
  loop : LoopSt
  slot : Nat
deriving DecidableEq, Repr

/-- The whole package. -/
structure State where
  clock : Nat
  me : Strand
  pool : List Strand
  gangs : List Gang
  jobs : List Job
  cores : List Core
  dies : Vector Die 8
  hbm : Memory
  lineKey : List (Nat × Nat)
  near : Memory
  unitJob : List (Nat × Nat)
  farLoads : List FarLoad
  farAtoms : List FarAtom
  nearOps : List NearOp
  nearLoads : List NearLoad
  colls : List Coll
  rsets : List RSet
  /-- futures of leeward replicas that a windward's delivery fills too (R358, R359): windward strand and tag, leeward strand and tag -/
  mirrors : List (Nat × Tag × Nat × Tag)
  /-- READYMAP bits 0 to 48 (R26) -/
  ready : BitVec 49
  mapped : List HwUnit
  /-- the cores that were mapped out when the mesh of a cluster was last bound (R256): cluster 3d + c, physical cores -/
  meshes : List (Nat × List Nat)
  devnum : BitVec 12
  numset : Bool
  routes : List (Nat × BitVec 16)
  ports : Vector Port 16
  pathWait : List (BitVec 12 × Nat)
  reqs : List Req
  resvs : List Resv
  outFlits : List (Nat × Flit)
  /-- flits that wait for a path change (R395), oldest first -/
  waitFlits : List Flit
  /-- the device's own writes to other packages, not yet sent (R433): device and request -/
  devOut : List (BitVec 12 × Packet)
  /-- MODEL, log 50 -/
  got : List Got
  /-- HBM lines that hold an uncorrectable soft error (R282, R307) -/
  spoiled : List Nat
  bar0 : Bar0
  staging : Memory
  hostMem : Memory
  hostCmds : List HostCmd
  /-- changes of a port's state that the host has been told (R391) -/
  hostEvents : List (Nat × PortSt)
  spdm : Spdm
  identity : Option (List Byte)
  /-- the certificate chain that the host has supplied (R423) -/
  chain : List Byte
  /-- measurements 1 to 4 (R425) -/
  measured : List (List Byte)
  imageVersion : Nat
  /-- the ck of image start (R417, R421) -/
  imageAt : Option Nat
  powerCap : Nat
  power : Nat
  /-- stalls still to be inserted into array beats until the next sample (R432) -/
  stallsPending : Nat
  issue : Option Issue
  inbox : List Instr
  timers : List Timer
  fresh : Nat
  nextId : Nat
deriving DecidableEq, Repr

/-! ## Values at reset -/

/-- A FULL register. -/
def Fut.full {w : Nat} (x : BitVec w) : Fut w := ⟨x, .full, 0⟩

/-- The registers of a strand that starts (R18); p0 is all ones (R11). -/
def RegFile.start : RegFile :=
  { s := Vector.replicate 64 (Fut.full 0), v := Vector.replicate 32 (Fut.full 0), p := (Vector.replicate 16 (Fut.full 0)).set 0 (Fut.full (BitVec.allOnes 128)) }

/-- No loop, no rings (R93). -/
def LoopSt.zero : LoopSt := ⟨0, 0, 0, 0, 0, false⟩

/-- Both halves zero (R115). -/
def SeqSt.zero : SeqSt := ⟨0, 0, 0, 0, 0⟩

/-- A semaphore that counts zero (R18). -/
def Sema.zero : Sema := ⟨0, 0, false, .s 0, none⟩

/-- No strand: the value of `me` while nothing is at issue (log 2). -/
def Strand.none : Strand :=
  { sid := 0, gid := 0, lidx := 0, loc := Option.none, st := .done, regs := RegFile.start, h := Vector.replicate 16 0,
    q := Vector.replicate 16 Sema.zero, pc := 0, npc := 0, window := 0, cpt := 0, log := [], replay := Option.none, gated := [],
    loop := LoopSt.zero, loopC := LoopSt.zero, seq := SeqSt.zero, seqC := SeqSt.zero, serials := [], parkid := Option.none,
    waitset := Option.none, choice := Option.none, cdone := false, remain := .none, closing := Option.none, leaving := [], farLoaded := false, frame := 0, crec := 0,
    trec := 0, link := 0, perf := Vector.replicate 8 0, perfsel := Vector.replicate 8 0, nearstall := 0, faultinj := 0,
    storeCount := 0, readyAt := 0, notBefore := 0, triedAt := 0, waitSerial := false, bankWait := Option.none, parkedAt := 0, asleep := false, nearFence := [], acqFence := [],
    mark := Option.none, tickets := [], heldTrap := Option.none, resuming := false, nestAddr := Option.none, eddy := ⟨0, 0, 0⟩, eddyC := ⟨0, 0, 0⟩,
    ordinal := 0, sig := Option.none, verdict := false, late := Option.none, tries := 0, agreeN := 0, agreeC := 0, agreed := [], agreeWait := []
    halted := false }

/-- A barrier at gang start for N strands (R106). -/
def Barrier.start (n : Nat) : Barrier := ⟨BitVec.ofNat 7 n, 0, 0, 0, 0, 0, false, []⟩

/-- A cell at package reset (R160); its inputs and outputs hold 0. DESIGN CHOICE, log 2. -/
def Cell.zero : Cell := ⟨0, 0, 0, 0, 0, 0, 0, []⟩

/-- An array at package reset (R160). -/
def Array.reset : Array :=
  { holder := none, lastJob := none, waiting := [], cfg := 0, nextCfg := [], releasing := none, cmds := [], freeAt := 0, pipe := [],
    cells := Vector.replicate 1024 Cell.zero, progs := Vector.replicate 4 ⟨0, 0, 0⟩, images := [], building := [], swaps := 0, operands := none, outs := [],
    current := none, curDone := 0, curDonePrev := 0 }

/-- A core at package reset. -/
def Core.reset (id : Nat) : Core :=
  { id := id, divBusy := 0, divOwner := none, lastCtx := none, streak := 0, lastIssue := 0, array := Array.reset, copies := [], xstat := [],
    icache := [], icJob := none, loopBuf := none, banks := [] }

/-- A die at package reset. -/
def Die.reset : Die :=
  { queues := [], lastServed := Vector.replicate 8 63, asids := [], tlb := [], walks := [], walkQ := [], gen := 0, shoots := [],
    shootDone := [], descs := [], nextSeq := 0, released := [], preempts := [], suspect := 0, slotJob := none, slotWant := none, slotTable := [], tables := 0 }

/-- A port at package reset (R388; log 14). -/
def Port.reset : Port :=
  { st := .down, enabled := false, lanes := 0, ready := false, peerDev := 0, peerPort := 0, retry := 0, downs := 0, nextSeq := 0,
    unacked := [], expect := 0, discarding := false, failures := 0, counter := 0, epoch := 0, rxCounter := 0, rxEpoch := 0, rxOld := false }

/-- The package right after reset: no strand, gang, job or program exists; ROM runs on POWER_UP (R419, R420). -/
def State.reset : State :=
  { clock := 0, me := Strand.none, pool := [], gangs := [], jobs := [], cores := [], dies := Vector.replicate 8 Die.reset, hbm := [],
    lineKey := [], near := [], unitJob := [], farLoads := [], farAtoms := [], nearOps := [], nearLoads := [], colls := [], rsets := [], mirrors := [], ready := 0,
    mapped := [], meshes := [], devnum := 0, numset := false, routes := [], ports := Vector.replicate 16 Port.reset, pathWait := [], reqs := [],
    resvs := [], outFlits := [], waitFlits := [], devOut := [], got := [], spoiled := [], bar0 := ⟨0, 0, 0, 0, 0, 0, 0, 0, 0, 0⟩, staging := [], hostMem := [], hostCmds := [], hostEvents := [],
    spdm := ⟨false, false, false, 0, 0, [], [], []⟩, identity := none, chain := [], measured := [], imageVersion := 0, imageAt := none, powerCap := 0, power := 0,
    stallsPending := 0, issue := none, inbox := [], timers := [], fresh := 0, nextId := 1 }

end Sys2Proof.Machine
end

