-- ==== Sys2Proof/Machine/Mem.lean ====
section
/-! DEFINITION. Memory in canonical form, HBM under its line keys (R307, R429) and near memory with its unit owners (R303). -/

namespace Sys2Proof.Machine

/-- Canonical form: addresses strictly rising, no zero byte listed. -/
def Memory.wf : Memory → Bool
  | [] => true
  | [c] => c.2 != 0
  | c :: d :: r => c.2 != 0 && decide (c.1 < d.1) && Memory.wf (d :: r)

/-- The byte at an address. -/
def Memory.read (m : Memory) (a : Nat) : Byte :=
  match m with
  | [] => 0
  | c :: r => if c.1 = a then c.2 else Memory.read r a

/-- The listed cells of bytes laid out from `a`. -/
def cellsOf (a : Nat) : List Byte → Memory
  | [] => []
  | b :: bs => if b = 0 then cellsOf (a + 1) bs else (a, b) :: cellsOf (a + 1) bs

/-- Store bytes from address `a` upward. -/
def Memory.write (m : Memory) (a : Nat) (bs : List Byte) : Memory :=
  m.takeWhile (fun c => decide (c.1 < a)) ++ cellsOf a bs ++ m.dropWhile (fun c => decide (c.1 < a + bs.length))

/-- Read `n` bytes from a memory whose cells below `a` are already dropped. -/
def readFrom : Nat → Nat → Memory → List Byte
  | 0, _, _ => []
  | n + 1, a, [] => 0 :: readFrom n (a + 1) []
  | n + 1, a, c :: r => if c.1 = a then c.2 :: readFrom n (a + 1) r else 0 :: readFrom n (a + 1) (c :: r)

/-- `n` bytes from address `a` upward. -/
def Memory.bytes (m : Memory) (a n : Nat) : List Byte := readFrom n a (m.dropWhile fun c => decide (c.1 < a))

/-- Write scattered bytes, in order. -/
def Memory.writeAll (m : Memory) (ws : List (Nat × Byte)) : Memory := ws.foldl (fun m w => m.write w.1 [w.2]) m

/-! ## HBM -/

/-- A byte address of HBM from its stack and offset (R307). -/
def physAddr (stack off : Nat) : Nat := stack % 8 * 2 ^ 36 + off % 2 ^ 36

/-- The key pair in use for an ASID; ASID 0 has key 0 (R429). -/
def keyOf (s : State) (asid : Nat) : Nat :=
  match s.jobs.find? (fun j => j.asid == asid) with
  | some j => j.key
  | none => 0

/-- The key a line was last written under, none before its first write. -/
def lineKeyOf (s : State) (line : Nat) : Option Nat := (s.lineKey.find? fun p => p.1 == line).map (·.2)

/-- The lines that hold `n` bytes from `a`. -/
def linesOf (a n : Nat) : List Nat := if n = 0 then [] else (upto ((a + n - 1) / 64 - a / 64 + 1)).map (· + a / 64)

/-- The bytes of HBM as a reader under `key` sees them (R429). -/
def hbmRead (s : State) (key a n : Nat) : List Byte :=
  let raw := s.hbm.bytes a n
  if (linesOf a n).all (fun l => match lineKeyOf s l with | none => true | some k => k == key) then raw
  else
    (raw.zip (upto n)).map fun p =>
      match lineKeyOf s ((a + p.2) / 64) with
      | none => p.1
      | some k => if k = key then p.1 else Config.scramble key k (a + p.2) p.1

/-- The lines' keys with line `l` under `key`. -/
def keyLine (l key : Nat) (ks : List (Nat × Nat)) : List (Nat × Nat) := ks.filter (fun p => decide (p.1 < l)) ++ (l, key) :: ks.filter fun p => decide (l < p.1)

/-- Make line `l` a line of `key`: what another key left in it is unpredictable under this one (R429). -/
def rekeyLine (key : Nat) (s : State) (l : Nat) : State :=
  match lineKeyOf s l with
  | none => { s with lineKey := keyLine l key s.lineKey }
  | some k =>
    if k = key then s
    else
      { s with
        hbm := s.hbm.write (64 * l) ((s.hbm.bytes (64 * l) 64).zipIdx.map fun p => Config.scramble key k (64 * l + p.2) p.1)
        lineKey := keyLine l key s.lineKey }

/-- Write bytes to HBM under `key`. -/
def hbmWrite (s : State) (key a : Nat) (bs : List Byte) : State :=
  let s := (linesOf a bs.length).foldl (rekeyLine key) s
  { s with hbm := s.hbm.write a bs }

/-- Whether bytes of HBM hold an uncorrectable soft error (R307). -/
def hbmSpoiled (s : State) (a n : Nat) : Bool := !s.spoiled.isEmpty && (linesOf a n).any s.spoiled.contains

/-- A word of HBM, little-endian. -/
def hbmWord (s : State) (key a : Nat) : Word := BitVec.ofNat 64 (leNat (hbmRead s key a 8))

/-! ## Near memory -/

/-- The near byte address of an offset in a core's slice (R302). -/
def nearAddr (core off : Nat) : Nat := core * 2 ^ 20 + off

/-- Whether a job was the last to write the 4 KiB unit of an address (R303). -/
def unitIs (s : State) (job a : Nat) : Bool := (s.unitJob.find? fun p => p.1 == a / 4096) == some (a / 4096, job)

/-- Near bytes as a gang of `job` reads them: zero in a unit last written by another job (R303). -/
def nearBytes (s : State) (job a n : Nat) : List Byte :=
  (s.near.bytes a n).zipIdx.map fun p => if unitIs s job (a + p.2) then p.1 else 0

/-- Make the unit of an address a unit of `job`, cleared if it was another's (R303). -/
def takeUnit (job : Nat) (s : State) (a : Nat) : State :=
  if unitIs s job a then s
  else { s with near := s.near.write (a / 4096 * 4096) (List.replicate 4096 0), unitJob := putKey Prod.fst (a / 4096, job) s.unitJob }

/-- The 4 KiB units that hold `n` bytes from `a`, each by its first address (R303). -/
def unitsOf (a n : Nat) : List Nat := if n = 0 then [] else (upto ((a + n - 1) / 4096 - a / 4096 + 1)).map fun k => (a / 4096 + k) * 4096

/-- Write near bytes for a gang of `job`. -/
def nearWrite (s : State) (job a : Nat) (bs : List Byte) : State :=
  if bs = [] then s
  else
    let s := (unitsOf a bs.length).foldl (takeUnit job) s
    { s with near := s.near.write a bs }

end Sys2Proof.Machine
end

