-- ==== Sys2Proof/Machine/Xlate.lean ====
section
/-! DEFINITION. Far addresses, translation at the owner die (R205, R331 to R338), and the device's own accesses to far memory (R433). -/

namespace Sys2Proof.Machine

/-- Offset of a far address in its die's window (R205). -/
def farOff (va : Word) : Nat := wbits va 0 45

/-- Owner die of a far address (R205). -/
def farDie (va : Word) : Nat := wbits va 45 3

/-- Device field of a far address (R205). -/
def farDev (va : Word) : BitVec 12 := va.extractLsb' 48 12

/-- A device number that names this package (R306, R393). -/
def ownDev (s : State) (d : BitVec 12) : Bool := d == 0xFFF || (s.numset && d == s.devnum)

/-- What a translation is for: a load, a write, or an instruction fetch (R335). -/
inductive AccKind where
  | load | store | fetch
deriving DecidableEq, Repr

/-- Fault kinds (R335). -/
def kInvalid : BitVec 4 := 1
/-- R335. -/
def kWrite : BitVec 4 := 2
/-- R335. -/
def kFetch : BitVec 4 := 3
/-- R335. -/
def kMalformed : BitVec 4 := 4
/-- R335. -/
def kRange : BitVec 4 := 5
/-- R335. -/
def kHold : BitVec 4 := 6
/-- R335. -/
def kAsid : BitVec 4 := 7
/-- R335. -/
def kFetchRemote : BitVec 4 := 8

/-- Offset bits below the page at a level (R333). -/
def pageBits (level : Nat) : Nat :=
  match level with
  | 0 => 35
  | 1 => 26
  | 2 => 21
  | _ => 16

/-- Index of an offset at a level (R333). -/
def levelIndex (level off : Nat) : Nat :=
  match level with
  | 0 => bitsOf off 35 10
  | 1 => bitsOf off 26 9
  | 2 => bitsOf off 21 5
  | _ => bitsOf off 16 5

/-- A valid entry that is malformed (R334). -/
def malformed (level : Nat) (e : Word) : Bool :=
  if bit e.toNat 1 then
    level == 0 || wbits e 5 11 != 0 || wbits e 51 13 != 0 || (level == 1 && wbits e 16 10 != 0) || (level == 2 && wbits e 16 5 != 0)
  else level == 3 || wbits e 2 6 != 0 || wbits e 39 25 != 0

/-- The table that a non-leaf entry or an ASID entry names, as an HBM address (R332, R334). -/
def tableAddr (e : Word) : Nat := physAddr (wbits e 36 3) (wbits e 8 28 <<< 8)

/-- The entry of a table for an offset, read under the key of ASID 0 (R429). -/
def readEntry (s : State) (tbl level off : Nat) : Word := hbmWord s 0 (tbl + 8 * levelIndex level off)

/-- What one entry says: a fault, a leaf, or the next table. -/
inductive EntryIs where
  | bad (kind : BitVec 4)
  | leaf
  | table (a : Nat)
deriving DecidableEq, Repr

/-- Classify an entry (R334, R335). -/
def entryIs (level : Nat) (e : Word) : EntryIs :=
  if !bit e.toNat 0 then .bad kInvalid
  else if malformed level e then .bad kMalformed
  else if bit e.toNat 1 then .leaf
  else .table (tableAddr e)

/-- Walk the levels given (R333). -/
def walkLevels (s : State) (off : Nat) : List Nat → Nat → Except (BitVec 4) (Nat × Word)
  | [], _ => .error kMalformed
  | l :: ls, tbl =>
    let e := readEntry s tbl l off
    match entryIs l e with
    | .bad k => .error k
    | .leaf => .ok (l, e)
    | .table t => walkLevels s off ls t

/-- The ASID table's word, zero when none was written (R332). -/
def asidWord (s : State) (die asid : Nat) : Word :=
  match (s.dies[die % 8]'(by omega)).asids.find? (fun p => p.1 == asid) with
  | some p => p.2
  | none => 0

/-- A TLB entry of an offset (R338). -/
def tlbFind (s : State) (die asid off : Nat) : Option TlbEnt :=
  (s.dies[die % 8]'(by omega)).tlb.find? fun t => t.asid == asid && t.page == off >>> pageBits t.level

/-- The kind that marks an access whose owner, or whose frame, is another package: no fault of R335 has it. -/
def kAway : BitVec 4 := 0

/-- The kind that marks an access that waits for a walk: no fault of R335 has it. -/
def kWalk : BitVec 4 := 15

/-- The kind that marks a page whose translation another package has not answered yet: no fault of R335 has it. -/
def kPage : BitVec 4 := 14

/-- Whether an access that did not succeed only waits: it has found no fault. -/
def waits (k : BitVec 4) : Bool := k == kAway || k == kWalk || k == kPage

/-- What the end of a walk has answered for an offset to an event that still waits (R340). -/
def walked (s : State) (die asid off : Nat) : Option GotWhat :=
  (s.got.find? fun g => g.asid == asid && farOff g.va >>> 16 == off >>> 16 && (match g.what with
    | .leaf d _ _ | .bad d _ => d == die
    | _ => false)).map (·.what)

/-- The leaf for an offset, from the TLB or from a walk that has ended; a miss waits for a walk (R339). -/
def findLeaf (s : State) (die asid off : Nat) : Except (BitVec 4) (Nat × Word) :=
  match tlbFind s die asid off with
  | some t => .ok (t.level, t.entry)
  | none =>
    match walked s die asid off with
    | some (.leaf _ l e) => .ok (l, e)
    | some (.bad _ k) => .error k
    | _ => .error kWalk

/-- The leaf for an offset by a walk in this ck. -/
def leafNow (s : State) (die asid off : Nat) : Except (BitVec 4) (Nat × Word) :=
  match tlbFind s die asid off with
  | some t => .ok (t.level, t.entry)
  | none => walkLevels s off [0, 1, 2, 3] (tableAddr (asidWord s die asid))

/-- A translated byte: its HBM address, and the device of its frame when that is another package (R344). -/
structure Place where
  addr : Nat
  dev : Option (BitVec 12)
deriving DecidableEq, Repr

/-- The byte that a leaf gives for an offset (R334). -/
def leafPlace (s : State) (level : Nat) (e : Word) (off : Nat) : Place :=
  { addr := physAddr (wbits e 36 3) ((wbits e 16 20 <<< 16) + off % 2 ^ pageBits level)
    dev := if ownDev s (e.extractLsb' 39 12) then none else some (e.extractLsb' 39 12) }

/-- Checks on a leaf (R335). -/
def leafCheck (e : Word) (acc : AccKind) : Option (BitVec 4) :=
  if bit e.toNat 4 then some kHold
  else
    match acc with
    | .load => none
    | .store => if bit e.toNat 2 then none else some kWrite
    | .fetch => if bit e.toNat 3 then none else some kFetch

/-- Checks before the walk (R335): RANGE, FETCH_REMOTE, ASID. -/
def preCheck (s : State) (asid : Nat) (va : Word) (acc : AccKind) : Option (BitVec 4) :=
  if wbits va 60 4 != 0 then some kRange
  else if acc = .fetch && !ownDev s (farDev va) then some kFetchRemote
  else if !bit (asidWord s (farDie va) asid).toNat 0 then some kAsid
  else none

/-- The place that a leaf gives an access, or its fault (R335). -/
def leafGives (s : State) (va : Word) (acc : AccKind) (x : Except (BitVec 4) (Nat × Word)) : Except (BitVec 4) Place :=
  match x with
  | .error k => .error k
  | .ok (l, e) =>
    match leafCheck e acc with
    | some k => .error k
    | none => .ok (leafPlace s l e (farOff va))

/-- Translate an address of this device at its owner die (R331, R335). -/
def translate (s : State) (asid : Nat) (va : Word) (acc : AccKind) : Except (BitVec 4) Place :=
  match preCheck s asid va acc with
  | some k => .error k
  | none => leafGives s va acc (findLeaf s (farDie va) asid (farOff va))

/-- Translate without waiting for a walker: to compare the places of two records. -/
def translateNow (s : State) (asid : Nat) (va : Word) (acc : AccKind) : Except (BitVec 4) Place :=
  match preCheck s asid va acc with
  | some k => .error k
  | none => leafGives s va acc (leafNow s (farDie va) asid (farOff va))

/-- A range cut at 64 KiB boundaries: pieces of an address and a length. -/
def piecesOf : Nat → Word → Nat → List (Word × Nat)
  | 0, _, _ => []
  | f + 1, va, n =>
    let k := min n (65536 - va.toNat % 65536)
    if n = 0 then [] else (va, k) :: piecesOf f (va + BitVec.ofNat 64 k) (n - k)

/-- The pieces of an access. -/
def pieces (va : Word) (n : Nat) : List (Word × Nat) := piecesOf (n / 65536 + 2) va n

/-- A fault of a device access: its kind and address. -/
abbrev XFault := BitVec 4 × Word

/-- Translate every piece of an access. -/
def xlateAll (s : State) (asid : Nat) (acc : AccKind) : List (Word × Nat) → Except XFault (List (Place × Nat))
  | [] => .ok []
  | (va, n) :: ps =>
    match translate s asid va acc with
    | .error k => .error (k, va)
    | .ok p =>
      match xlateAll s asid acc ps with
      | .error e => .error e
      | .ok r => .ok ((p, n) :: r)

/-- Whether an address names another package (R306). -/
def isRemote (s : State) (va : Word) : Bool := !ownDev s (farDev va)

/-- A far address with device 0xFFF in place of the package's own number: both name the same bytes (R306). -/
def canon (s : State) (va : Word) : Word := if isRemote s va then va else va ||| 0x0FFF000000000000

/-- The name of a page that another package translates: bit 0 says that it is for a write. -/
def pageKey (va : Word) (store : Bool) : Word := (va &&& ~~~(0xFFFF : Word)) ||| (if store then 1 else 0)

/-- The 64-byte line of a far address. -/
def lineOf (va : Word) : Word := va &&& ~~~(63 : Word)

/-- What another package has answered for an address to an event that still waits. -/
def gotAnswer (s : State) (asid : Nat) (va : Word) : Option GotWhat :=
  (s.got.find? fun g => g.asid == asid && g.va == va && (match g.what with
    | .leaf _ _ _ | .bad _ _ => false
    | _ => true)).map (·.what)

/-- A line of far memory that another package has answered. -/
def gotLine (s : State) (asid : Nat) (line : Word) : Except XFault (List Byte) :=
  match gotAnswer s asid line with
  | some (.line bs) => .ok bs
  | some (.fault k _) => .error (k, line)
  | _ => .error (kAway, line)

/-- Lines from a line on. -/
def gotLines (s : State) (asid : Nat) : Nat → Word → Except XFault (List Byte)
  | 0, _ => .ok []
  | n + 1, line =>
    match gotLine s asid line with
    | .error e => .error e
    | .ok bs => match gotLines s asid n (line + 64) with
      | .error e => .error e
      | .ok r => .ok (bs ++ r)

/-- Bytes that stand in another package, from the lines it has answered. -/
def awayBytes (s : State) (asid : Nat) (va : Word) (n : Nat) : Except XFault (List Byte) :=
  match gotLines s asid ((va.toNat % 64 + n + 63) / 64) (lineOf va) with
  | .error e => .error e
  | .ok bs => .ok ((bs.drop (va.toNat % 64)).take n)

/-- How an access is translated. -/
abbrev Xlator := State → Nat → Word → AccKind → Except (BitVec 4) Place

/-- Read the pieces of an access, here or in the frames of other packages (R344). -/
def readPieces (tr : Xlator) (s : State) (asid : Nat) : List (Word × Nat) → Except XFault (List Byte)
  | [] => .ok []
  | (va, n) :: ps =>
    match tr s asid va .load with
    | .error k => .error (k, va)
    | .ok p =>
      match (if p.dev.isSome then awayBytes s asid va n else .ok (hbmRead s (keyOf s asid) p.addr n)) with
      | .error e => .error e
      | .ok bs =>
        match readPieces tr s asid ps with
        | .error e => .error e
        | .ok r => .ok (bs ++ r)

/-- Read far memory with a given translation; what another package holds is asked for line by line. -/
def readBy (tr : Xlator) (s : State) (asid : Nat) (va : Word) (n : Nat) : Except XFault (List Byte) :=
  if isRemote s va then awayBytes s asid va n else readPieces tr s asid (pieces va n)

/-- Read far memory for the device in an address space (R433); a miss waits for a walk (R339). -/
def devRead (s : State) (asid : Nat) (va : Word) (n : Nat) : Except XFault (List Byte) := readBy translate s asid va n

/-- Read far memory as it stands, without waiting for a walker. -/
def devReadNow (s : State) (asid : Nat) (va : Word) (n : Nat) : Except XFault (List Byte) := readBy translateNow s asid va n

/-- Store consecutive bytes at the places of an access. -/
def placeBytes (key : Nat) : List (Place × Nat) → List Byte → State → State
  | [], _, s => s
  | (p, n) :: ps, bs, s => placeBytes key ps (bs.drop n) (hbmWrite s key p.addr (bs.take n))

/-- The requests of a device write for the pieces whose frames are in other packages. -/
def framePieces (asid : Nat) : List (Place × Nat) → List Byte → List (BitVec 12 × Packet)
  | [], _ => []
  | (p, n) :: ps, bs => (match p.dev with
    | some d => [(d, .frameWrite 0 asid ((bs.take n).zipIdx.map fun b => (p.addr + b.2, b.1)))]
    | none => []) ++ framePieces asid ps (bs.drop n)

/-- The pieces of a device write whose frames are here, with their bytes. -/
def placeHere (key : Nat) : List (Place × Nat) → List Byte → State → State
  | [], _, s => s
  | (p, n) :: ps, bs, s => placeHere key ps (bs.drop n) (if p.dev.isSome then s else hbmWrite s key p.addr (bs.take n))

/-- Bytes for frames of other packages, line by line, so that a line or a granule arrives whole (R315). -/
def frameLines (ws : List (BitVec 12 × Nat × Byte)) : List (BitVec 12 × List (Nat × Byte)) :=
  ((ws.map fun w => (w.1, w.2.1 / 64)).dedup).map fun k => (k.1, (ws.filter fun w => w.1 == k.1 && w.2.1 / 64 == k.2).map (·.2))

/-- A write of the device to another package: its owner there makes it, and holds it itself if it faults (R433). -/
def awayWrite (asid : Nat) (va : Word) (bs : List Byte) : Packet := .perform 0 asid none (bs.zipIdx.map fun b => (va + BitVec.ofNat 64 b.2, b.1)) 7 true (0, 0)

/-- Write far memory for the device (R433); a write to another package, or to a frame there, waits for its path, in order. -/
def devWrite (s : State) (asid : Nat) (va : Word) (bs : List Byte) : Except XFault State :=
  if isRemote s va then .ok { s with devOut := s.devOut ++ [(farDev va, awayWrite asid va bs)] }
  else
    match xlateAll s asid .store (pieces va bs.length) with
    | .error e => .error e
    | .ok ps =>
      if ps.any fun p => p.1.dev.isSome then
        let s1 := placeHere (keyOf s asid) ps bs s
        .ok { s1 with devOut := s1.devOut ++ framePieces asid ps bs }
      else .ok (placeBytes (keyOf s asid) ps bs s)

/-- Write several ranges, all or none: a fault of any leaves memory unchanged. -/
def devWriteAll (s : State) (asid : Nat) : List (Word × List Byte) → Except XFault State
  | [] => .ok s
  | (va, bs) :: r =>
    match devWrite s asid va bs with
    | .error e => .error e
    | .ok s' => devWriteAll s' asid r

end Sys2Proof.Machine
end

