-- ==== Sys2Proof/Machine/Frame.lean ====
section
/-! DEFINITION. The records of a strand in far memory: register frame (R29 to R31, R96, R115), continuation record (R28), trap record (R369). -/

namespace Sys2Proof.Machine

/-- A register of any file as value, state and tag. -/
structure RegVal where
  val : VVal
  st : RegState
  tag : Tag
deriving DecidableEq, Repr

/-- Read a register with its state, without waiting. -/
def RegFile.get (r : RegFile) : RegId → RegVal
  | .s i => let f := r.s[i.toNat]'(by omega); ⟨f.val.setWidth 1024, f.st, f.tag⟩
  | .v i => let f := r.v[i.toNat]'(by omega); ⟨f.val, f.st, f.tag⟩
  | .p i => let f := r.p[i.toNat]'(by omega); ⟨f.val.setWidth 1024, f.st, f.tag⟩

/-- Whether a register is s0 or p0, which are never written (R12). -/
def regFixed : RegId → Bool
  | .s i => i == 0
  | .v _ => false
  | .p i => i == 0

/-- Write a register with its state; s0 and p0 discard it (R12). -/
def RegFile.put (r : RegFile) (x : RegId) (y : RegVal) : RegFile :=
  if regFixed x then r
  else
    match x with
    | .s i => { r with s := r.s.set i.toNat ⟨y.val.setWidth 64, y.st, y.tag⟩ (by omega) }
    | .v i => { r with v := r.v.set i.toNat ⟨y.val, y.st, y.tag⟩ (by omega) }
    | .p i => { r with p := r.p.set i.toNat ⟨y.val.setWidth 128, y.st, y.tag⟩ (by omega) }

/-- Every register a strand can be owed: s1 to s63, v0 to v31, p1 to p15 (R28). -/
def owedRegs : List RegId :=
  (upto 63).map (fun i => .s (BitVec.ofNat 6 (i + 1))) ++ (upto 32).map (fun i => .v (BitVec.ofNat 5 i)) ++ (upto 15).map (fun i => .p (BitVec.ofNat 4 (i + 1)))

/-- The register that is PENDING with a tag (R273). -/
def findPending (r : RegFile) (t : Tag) : Option RegId :=
  owedRegs.find? fun x => let y := r.get x; y.st == .pending && y.tag == t

/-- NPEND (R28). -/
def npend (r : RegFile) : Nat := (owedRegs.filter fun x => (r.get x).st == .pending).length

/-- Code of a poison (R17). -/
def poisonCode : PoisonCode → Nat
  | .fault => 1 | .link => 2 | .engine => 3 | .qfull => 4 | .barrier => 5 | .notDone => 6 | .moved => 7 | .order => 8
  | .refused => 9 | .overlap => 10 | .mismatch => 11 | .align => 12

/-- A POISONED register holds the code and nothing else (R16). -/
def RegVal.poison (c : PoisonCode) (t : Tag) : RegVal := ⟨BitVec.ofNat 1024 (poisonCode c), .poisoned, t⟩

/-- Encoding of a register state (R15). -/
def stCode : RegState → Nat
  | .full => 0 | .pending => 1 | .poisoned => 2

/-- Register of a frame state: encoding 11 loads as POISONED with ENGINE (R15). -/
def loadReg (val : Nat) (st : Nat) (tag : Nat) : RegVal :=
  match st with
  | 0 => ⟨BitVec.ofNat 1024 val, .full, BitVec.ofNat 16 tag⟩
  | 1 => ⟨0, .pending, BitVec.ofNat 16 tag⟩
  | 2 => ⟨BitVec.ofNat 1024 (val % 65536), .poisoned, BitVec.ofNat 16 tag⟩
  | _ => RegVal.poison .engine (BitVec.ofNat 16 tag)

/-- The frame's registers in order of frame index (R29): all s, all v, all p. -/
def frameRegs : List RegId :=
  (upto 64).map (fun i => .s (BitVec.ofNat 6 i)) ++ (upto 32).map (fun i => .v (BitVec.ofNat 5 i)) ++ (upto 16).map (fun i => .p (BitVec.ofNat 4 i))

/-- Bytes of a register in the frame. -/
def regSize : RegId → Nat
  | .s _ => 8
  | .v _ => 128
  | .p _ => 16

/-- Offset of a register in the frame (R29). -/
def regOff : RegId → Nat
  | .s i => 8 * i.toNat
  | .v i => 0x200 + 128 * i.toNat
  | .p i => 0x1200 + 16 * i.toNat

/-- One half of the loop-state area (R96). -/
def loopBytes (l : LoopSt) : List Byte :=
  wordBytes l.iter ++ wordBytes l.count ++ wordBytes l.first ++ leBytes 4 (l.rings.toNat + l.blen.toNat <<< 24 + (if l.active then 1 <<< 30 else 0)) ++ leBytes 4 0

/-- Read one half of the loop-state area. -/
def loopOf (bs : List Byte) (o : Nat) : LoopSt :=
  let x := natAt bs (o + 0x18) 4
  { iter := wordAt bs o, count := wordAt bs (o + 8), first := wordAt bs (o + 16), rings := BitVec.ofNat 24 x
    blen := BitVec.ofNat 6 (bitsOf x 24 6), active := bit x 30 }

/-- One half of the sequencer state (R115). -/
def seqBytes (q : SeqSt) : List Byte :=
  leBytes 4 q.nextT.toNat ++ leBytes 4 q.endT.toNat ++ wordBytes q.counts ++ leBytes 8 (q.mode.toNat + q.ndim.toNat <<< 2)

/-- Read one half of the sequencer state. -/
def seqOf (bs : List Byte) (o : Nat) : SeqSt :=
  { nextT := BitVec.ofNat 32 (natAt bs o 4), endT := BitVec.ofNat 32 (natAt bs (o + 4) 4), counts := wordAt bs (o + 8)
    mode := BitVec.ofNat 2 (natAt bs (o + 16) 1), ndim := BitVec.ofNat 2 (natAt bs (o + 16) 1 / 4) }

/-- A q entry (R30). -/
def semaBytes (q : Sema) : List Byte :=
  leBytes 4 q.count.toNat ++ (if q.out then leBytes 4 q.await.toNat ++ leBytes 8 ((regIdCode q.rid).toNat + 256) else leBytes 12 0)

/-- Read a q entry; the tag of the outstanding SEMA is that of the register it names. -/
def semaOf (bs : List Byte) (o : Nat) (regs : RegFile) : Sema :=
  let out := bit (natAt bs (o + 8) 2) 8
  let rid := (regIdOf (BitVec.ofNat 8 (natAt bs (o + 8) 1))).getD (.s 0)
  { count := BitVec.ofNat 32 (natAt bs o 4), await := if out then BitVec.ofNat 32 (natAt bs (o + 4) 4) else 0, out := out
    rid := if out then rid else .s 0, tag := if out && !regFixed rid then some (regs.get rid).tag else none }

/-- Bytes of an undo-log entry (R31). -/
def logBytes (e : LogEntry) : List Byte :=
  wordBytes (packWord [((regIdCode e.reg).toNat, 0), (stCode e.st, 8), (e.tag.toNat, 10), (1, 63)]) ++ leBytes (regSize e.reg) e.val.toNat

/-- Bytes of the replay entry (R31). -/
def replayBytes (r : Replay) : List Byte := wordBytes 0x80000000000000FF ++ leBytes 4 r.done.toNat ++ leBytes 4 r.seen.toNat

/-- The undo log of a strand, as the frame holds it. -/
def undoBytes (t : Strand) : List Byte :=
  match t.replay with
  | none => t.log.flatMap logBytes
  | some r => (t.log.take r.pos).flatMap logBytes ++ replayBytes r ++ (t.log.drop r.pos).flatMap logBytes

/-- Read the undo log: entries until a header without VALID. -/
def undoOf : Nat → List Byte → List LogEntry → Option Replay → List LogEntry × Option Replay
  | 0, _, es, r => (es.reverse, r)
  | n + 1, bs, es, r =>
    let hd := natAt bs 0 8
    if !bit hd 63 then (es.reverse, r)
    else if hd % 256 = 255 then
      undoOf n (bs.drop 16) es (some ⟨es.length, BitVec.ofNat 32 (natAt bs 8 4), BitVec.ofNat 32 (natAt bs 12 4)⟩)
    else
      match regIdOf (BitVec.ofNat 8 hd) with
      | none => (es.reverse, r)
      | some x =>
        let y := loadReg (natAt bs 8 (regSize x)) (bitsOf hd 8 2) (bitsOf hd 10 16)
        undoOf n (bs.drop (8 + regSize x)) (⟨x, y.val, y.st, y.tag⟩ :: es) r

/-- Bytes of the undo log in use; 2,048 is the limit of R31. -/
def undoSize (t : Strand) : Nat := (t.log.map fun e => 8 + regSize e.reg).sum + (if t.replay.isSome then 16 else 0)

/-- Pad a byte list with zeros to a length. -/
def padTo (n : Nat) (bs : List Byte) : List Byte := (bs ++ List.replicate (n - bs.length) 0).take n

/-- The 8 KiB frame of a strand (R29). -/
def frameBytes (t : Strand) : List Byte :=
  let rs := frameRegs.map t.regs.get
  (frameRegs.flatMap fun x => leBytes (regSize x) (t.regs.get x).val.toNat)
    ++ padTo 32 (leBytes 28 (packElems 2 (rs.map fun y => stCode y.st)))
    ++ padTo 256 (rs.flatMap fun y => leBytes 2 y.tag.toNat)
    ++ loopBytes t.loop ++ loopBytes t.loopC
    ++ t.h.toList.flatMap (fun x => leBytes 32 x.toNat)
    ++ t.q.toList.flatMap semaBytes
    ++ t.perf.toList.flatMap wordBytes ++ t.perfsel.toList ++ wordBytes t.nearstall
    ++ seqBytes t.seq ++ seqBytes t.seqC ++ List.replicate 32 0
    ++ padTo 2048 (undoBytes t)

/-- The register files of a frame. -/
def frameFile (bs : List Byte) : RegFile :=
  frameRegs.zipIdx.foldl (fun r p =>
    r.put p.1 (loadReg (natAt bs (regOff p.1) (regSize p.1)) (bitsOf (natAt bs (0x1300 + p.2 / 4) 1) (2 * (p.2 % 4)) 2) (natAt bs (0x1320 + 2 * p.2) 2))) RegFile.start

/-- A strand as its frame gives it (R32); the rest of the strand stays. -/
def loadFrame (bs : List Byte) (t : Strand) : Strand :=
  let regs := frameFile bs
  let u := undoOf 256 (bs.drop 0x1800) [] none
  { t with
    regs := regs
    loop := loopOf bs 0x1420
    loopC := loopOf bs 0x1440
    h := Vector.ofFn fun i => BitVec.ofNat 256 (natAt bs (0x1460 + 32 * i.val) 32)
    q := Vector.ofFn fun i => semaOf bs (0x1660 + 16 * i.val) regs
    perf := Vector.ofFn fun i => wordAt bs (0x1760 + 8 * i.val)
    perfsel := Vector.ofFn fun i => BitVec.ofNat 8 (natAt bs (0x17A0 + i.val) 1)
    nearstall := wordAt bs 0x17A8
    seq := seqOf bs 0x17B0
    seqC := seqOf bs 0x17C8
    log := u.1
    replay := u.2 }

/-- Code of STATE (R28). -/
def strandCode : StrandSt → Nat
  | .ready => 0 | .running => 1 | .parked => 2 | .evicted => 3 | .faulted => 4 | .done => 5

/-- PARKID (R28). -/
def parkByte (t : Strand) : Nat :=
  match t.parkid with
  | some r => (regIdCode r).toNat
  | none => 0xFF

/-- What a continuation record says of the strand's gang (R28). -/
structure Ident where
  det : Bool
  repld : Bool
  arr : Bool
  jobn : Nat
  taskn : Nat
deriving DecidableEq, Repr

/-- The 64 bytes of a continuation record (R28). -/
def crecBytes (t : Strand) (i : Ident) : List Byte :=
  let b (x : Bool) : Nat := if x then 1 else 0
  [t.pc, t.frame,
   packWord [(strandCode t.st, 0), (b t.cdone, 3), (b i.det, 8), (b i.repld, 9), (b i.arr, 10), (b t.loop.active, 11), (parkByte t, 16)],
   packWord [(i.jobn, 0), (i.taskn, 16), (t.lidx.toNat, 48)],
   packWord [(npend t.regs, 0), (t.window.toNat, 32)],
   t.cpt, t.trec, t.link].flatMap wordBytes

/-- The state that STATE gives a strand that is not resident; RUNNING, PARKED and the reserved codes leave it as it is (R28, R32). -/
def loadSt (n : Nat) (x : StrandSt) : StrandSt :=
  match n with
  | 0 => .ready | 3 => .evicted | 4 => .faulted | 5 => .done | _ => x

/-- The frame address of a continuation record (R28). -/
def crecFrame (bs : List Byte) : Word := wordAt bs 8 &&& ~~~(8191 : Word)

/-- A strand as its continuation record gives it (R32); what the record says of the gang stays with the gang (log 34). -/
def loadCrec (bs : List Byte) (t : Strand) : Strand :=
  { t with
    frame := crecFrame bs
    st := loadSt (natAt bs 16 1 % 8) t.st
    trec := wordAt bs 48 &&& ~~~(63 : Word)
    pc := wordAt bs 0 &&& ~~~(31 : Word)
    cpt := wordAt bs 40
    link := wordAt bs 56
    window := BitVec.ofNat 32 (natAt bs 36 4)
    cdone := bit (natAt bs 16 1) 3
    parkid := regIdOf (BitVec.ofNat 8 (natAt bs 18 1)) }

/-- Codes of the causes (R370). -/
def Cause.code : Cause → Nat
  | .illegalBundle => 1 | .poisonUse => 2 | .align => 3 | .nearBounds => 4 | .farFault => 5 | .barrierOverarrival => 6
  | .barrierBytes => 7 | .shape => 8 | .replicaMismatch => 9 | .channel => 10 | .loopBody => 11 | .privilege => 12 | .trap => 13
  | .queue => 14 | .watchdog => 15

/-- The 64 bytes of a trap record whose event is not in the trap queue: QUEUED and SEQ are 0 (R369). -/
def trapBytes (r : TrapRec) (t : Strand) (i : Ident) : List Byte :=
  [packWord [(r.cause.code, 0), (r.mask.toNat, 16), (r.code.toNat, 24)], r.bundle, packWord [(r.window.toNat, 0)],
   packWord [(i.taskn, 0), (i.jobn, 32), (t.lidx.toNat, 48)], t.crec, r.addr, 0, 0].flatMap wordBytes

end Sys2Proof.Machine
end

