-- ==== Sys2Proof/Machine/Net.lean ====
section
/-! DEFINITION. Events due at a ck, and the way out of the package: routes (R394, R395), flits on a port (R389, R390), requests to other packages and their limit (R396). -/

namespace Sys2Proof.Machine

/-! ## Time -/

/-- Add an event due at a ck. -/
def addTimer (s : State) (due : Nat) (ev : Instr) : State := { s with timers := s.timers ++ [⟨due, ev⟩] }

/-- Add an event due `n` ck from now. -/
def after (s : State) (n : Nat) (ev : Instr) : State := addTimer s (s.clock + n) ev

/-- Add an event due after a variable time of at least 1 ck (R90; log 6). -/
def later (s : State) (ev : Instr) : State := { addTimer s (s.clock + 1 + Config.delay s.fresh) ev with fresh := s.fresh + 1 }

/-- Try an event again after a variable time, unless it is due already. -/
def poll (s : State) (ev : Instr) : State := if s.timers.any (fun t => t.ev == ev) then s else later s ev

/-- A new name for an operation. -/
def takeId (s : State) : Nat × State := (s.nextId, { s with nextId := s.nextId + 1 })

/-! ## Routes, ports and requests -/

/-- A port of the package. -/
def getPort (s : State) (p : Nat) : Port := s.ports[p % 16]'(by omega)

/-- Update a port. -/
def updPort (s : State) (p : Nat) (f : Port → Port) : State := { s with ports := s.ports.set (p % 16) (f (getPort s p)) (by omega) }

/-- Entry of the route table; PRIM and ALT none when nothing was written (R394, log 14). -/
def routeOf (s : State) (dev : BitVec 12) : BitVec 16 :=
  match s.routes.find? (fun p => p.1 == dev.toNat) with
  | some p => p.2
  | none => 0x03FF

/-- Whether a number names a port that is UP. -/
def portUp (s : State) (p : Nat) : Bool := decide (p < 16) && (getPort s p).st == .up

/-- The port by which a flit for a device leaves (R394). -/
def portFor (s : State) (dev : BitVec 12) : Option Nat :=
  let r := (routeOf s dev).toNat
  if portUp s (bitsOf r 0 5) then some (bitsOf r 0 5)
  else if portUp s (bitsOf r 5 5) then some (bitsOf r 5 5)
  else none

/-- Whether the path to a device is lost (R393, R396). -/
def pathLost (s : State) (dev : BitVec 12) : Bool := !s.numset || (portFor s dev).isNone

/-- The sender's key moves to its next epoch (R430). -/
def nextEpoch (x : Port) : Port := { x with epoch := x.epoch + 1, counter := 0 }

/-- Put a flit on a port: it takes the next LSEQ and is kept until it is acknowledged (R389, R390, R430). -/
def putFlit (s : State) (p : Nat) (f : Flit) : State :=
  let x := if 2 ^ 48 ≤ (getPort s p).counter.toNat + 1 then nextEpoch (getPort s p) else getPort s p
  let g : Flit := { f with lseq := x.nextSeq, ack := x.expect - 1, counter := x.counter, epoch := x.epoch, hops := f.hops + 1 }
  let s1 := updPort s p fun _ => { x with nextSeq := x.nextSeq + 1, counter := x.counter + 1, rxOld := false, unacked := x.unacked ++ [g] }
  { s1 with outFlits := s1.outFlits ++ [(p, g)] }

/-- The port on which unacknowledged flits for a device still hold back a new one (R395). -/
def heldBy (s : State) (dev : BitVec 12) (p : Nat) : Bool :=
  match s.pathWait.find? (fun x => x.1 == dev) with
  | none => false
  | some x => x.2 != p && portUp s x.2 && (getPort s x.2).unacked.any fun f => f.dst == dev

/-- Send a flit, or keep it behind the flits of the old path (R394, R395). A flit whose path is lost is gone. -/
def sendFlit (s : State) (f : Flit) : State :=
  match (if s.numset then portFor s f.dst else none) with
  | none => s
  | some p =>
    if heldBy s f.dst p || s.waitFlits.any (fun x => x.dst == f.dst) then { s with waitFlits := s.waitFlits ++ [f] }
    else putFlit { s with pathWait := (f.dst, p) :: s.pathWait.filter fun x => x.1 != f.dst } p f

/-- Send what waited for a path change, oldest first (R395). -/
def drainFlits (s : State) : State := s.waitFlits.foldl sendFlit { s with waitFlits := [] }

/-- Send a packet from this device. -/
def sendPacket (s : State) (dev : BitVec 12) (cls : BitVec 2) (b : Packet) : State :=
  sendFlit s { dst := dev, src := s.devnum, hops := 0, cls := cls, lseq := 0, ack := 0, counter := 0, epoch := 0, body := b }

/-- ck within which a request must be answered (R396). -/
def requestLimit : Nat := 1300000

/-- Send a request to another package and wait for its answer (R396). -/
def sendReq (s : State) (dev : BitVec 12) (what : ReqWhat) (mk : Nat → Packet) : State :=
  let i := takeId s
  let s1 : State := { i.2 with reqs := i.2.reqs ++ [{ rid := i.1, dev := dev, what := what, since := s.clock }] }
  sendPacket (after s1 requestLimit (.requestTimeout i.1)) dev 0 (mk i.1)

/-- Take an answered or lost request off the list. -/
def takeReq (s : State) (rid : Nat) : Option (Req × State) :=
  match s.reqs.find? (fun r => r.rid == rid) with
  | none => none
  | some r => some (r, { s with reqs := s.reqs.filter fun x => x.rid != rid })

end Sys2Proof.Machine
end

