-- ==== Sys2Proof/Machine/Ops.lean ====
section
/-! DEFINITION. Named operations over the state: strands, gangs, cores, timers, registers as an issuing bundle sees them (R23, R58), obligations and deliveries (R20, R21, R273 to R275), traps and RESUME (R369 to R375, R119). -/

namespace Sys2Proof.Machine

/-! ## Strands, gangs, jobs, cores, dies -/

/-- The strand of a name. -/
def getStrand (s : State) (sid : Nat) : Option Strand := if s.me.sid = sid then some s.me else s.pool.find? fun t => t.sid == sid

/-- Update a strand. -/
def updStrand (s : State) (sid : Nat) (f : Strand → Strand) : State :=
  if s.me.sid = sid then { s with me := f s.me } else { s with pool := updFirst (fun t => t.sid == sid) f s.pool }

/-- Make a strand the one at issue. -/
def focus (s : State) (sid : Nat) : State :=
  if s.me.sid = sid then s
  else
    match s.pool.find? (fun t => t.sid == sid) with
    | none => s
    | some t => { s with me := t, pool := (if s.me.sid = 0 then [] else [s.me]) ++ dropFirst (fun t => t.sid == sid) s.pool }

/-- Every strand that exists. -/
def allStrands (s : State) : List Strand := (if s.me.sid = 0 then [] else [s.me]) ++ s.pool

/-- The gang of a name. -/
def getGang (s : State) (gid : Nat) : Option Gang := s.gangs.find? fun g => g.gid == gid

/-- Update a gang. -/
def updGang (s : State) (gid : Nat) (f : Gang → Gang) : State := { s with gangs := updFirst (fun g => g.gid == gid) f s.gangs }

/-- The gang of a strand. -/
def gangOf (s : State) (t : Strand) : Option Gang := getGang s t.gid

/-- A job by number. -/
def getJob (s : State) (j : Nat) : Option Job := s.jobs.find? fun x => x.jobn == j

/-- Update a job. -/
def updJob (s : State) (j : Nat) (f : Job → Job) : State := { s with jobs := updFirst (fun x => x.jobn == j) f s.jobs }

/-- The job of a strand. -/
def jobOf (s : State) (t : Strand) : Option Job := (gangOf s t).bind fun g => getJob s g.job

/-- The ASID of a strand (R331). -/
def asidOf (s : State) (t : Strand) : Nat := match jobOf s t with | some j => j.asid | none => 0

/-- The job number of a strand. -/
def jobNum (s : State) (t : Strand) : Nat := match gangOf s t with | some g => g.job | none => 0

/-- A core; one not listed is at its reset value. -/
def getCore (s : State) (c : Nat) : Core := (s.cores.find? fun x => x.id == c).getD (Core.reset c)

/-- Store a core. -/
def putCore (s : State) (c : Core) : State := { s with cores := putKey Core.id c s.cores }

/-- Update a core. -/
def updCore (s : State) (c : Nat) (f : Core → Core) : State := putCore s (f (getCore s c))

/-- Die of a core number: eight dies of three clusters of 64 cores. -/
def coreDie (c : Nat) : Nat := c / 192

/-- Cluster of a core number. -/
def coreCluster (c : Nat) : Nat := c / 64 % 3

/-- A die. -/
def getDie (s : State) (d : Nat) : Die := s.dies[d % 8]'(by omega)

/-- Update a die. -/
def updDie (s : State) (d : Nat) (f : Die → Die) : State := { s with dies := s.dies.set (d % 8) (f (getDie s d)) (by omega) }

/-- Core of a resident or held strand, 0 when it has none. -/
def coreOf (t : Strand) : Nat := match t.loc with | some l => l.1 | none => 0

/-- Whether a strand is resident in a context: it issues, waits or is parked there (R259). -/
def resident (t : Strand) : Bool := t.loc.isSome && (t.st == .running || t.st == .parked)

/-- What the records of a strand say of its gang (R28). -/
def identOf (s : State) (t : Strand) : Ident :=
  match gangOf s t with
  | none => ⟨false, false, false, 0, 0⟩
  | some g =>
    let arr := match t.loc, g.saved with
      | none, some v => v.arrays.any fun a => a.1 == t.lidx.toNat
      | _, _ => (getCore s (coreOf t)).array.holder == some t.sid
    { det := g.det, repld := g.repl.toNat > 1, arr := arr, jobn := g.job, taskn := g.task.taskno.toNat }

/-- Count events of a code in the counters that select it (R27). -/
def countEv (t : Strand) (code : Byte) (n : Nat) : Strand :=
  { t with perf := Vector.ofFn fun i => if t.perfsel[i] = code then t.perf[i] + BitVec.ofNat 64 n else t.perf[i] }

/-- Count events while the strand's context is resident (R27). -/
def countHere (t : Strand) (code : Byte) (n : Nat) : Strand := if resident t then countEv t code n else t

/-! ## Replicas (R351 to R357) -/

/-- The replica set of a gang. -/
def rsetOf (s : State) (g : Gang) : Option RSet := g.rset.bind fun i => s.rsets.find? fun r => r.id == i

/-- The gangs of a replica set that still run, windward first (R351, R361). -/
def liveGids (r : RSet) : List Nat := r.gids.filter fun g => !r.lost.contains g

/-- Whether a gang is the windward of its set, or runs without replication. -/
def isWindward (s : State) (g : Gang) : Bool :=
  match rsetOf s g with
  | none => true
  | some r => (liveGids r).head? == some g.gid

/-- The leeward gangs of a windward gang. -/
def leewardGangs (s : State) (g : Gang) : List Gang :=
  match rsetOf s g with
  | none => []
  | some r => if (liveGids r).head? == some g.gid then ((liveGids r).drop 1).filterMap (getGang s) else []

/-- The strand of another gang with the same logical index. -/
def twin (s : State) (h : Gang) (lidx : BitVec 6) : Option Strand := (h.strands.filterMap (getStrand s)).find? fun t => t.lidx == lidx

/-- The set of a replicated strand (R351). -/
def strandSet (s : State) (t : Strand) : Option RSet := (gangOf s t).bind (rsetOf s)

/-- Whether a strand is replicated. -/
def replicated (s : State) (t : Strand) : Bool := (strandSet s t).isSome

/-- Whether a strand is the windward of its set, or unreplicated. -/
def windward (s : State) (t : Strand) : Bool := match gangOf s t with
  | some g => isWindward s g
  | none => true

/-- The strands that correspond to one in the live replicas of its set, windward first, itself included (R351). -/
def replicasOf (s : State) (t : Strand) : List Strand :=
  match strandSet s t with
  | none => [t]
  | some r => ((liveGids r).filterMap (getGang s)).filterMap fun g => twin s g t.lidx

/-- The leeward strands that correspond to a windward strand. -/
def leewardsOf (s : State) (t : Strand) : List Strand := if windward s t then (replicasOf s t).filter fun u => u.sid != t.sid else []

/-- The prime of R354. -/
def eddyP : Nat := 2 ^ 64 - 59

/-- One key of R354. -/
def eddyKey (seed i : Nat) : Nat := mix64 (seed ^^^ i) % (eddyP - 2) + 2

/-- Hash one word (R354). -/
def hashWord (seed : Nat) (e : Eddy) (x : Word) : Eddy :=
  let f (h : Word) (i : Nat) : Word := BitVec.ofNat 64 ((h.toNat * eddyKey seed i + x.toNat % eddyP) % eddyP)
  { e with h1 := f e.h1 1, h2 := f e.h2 2 }

/-- Hash one item: its header and its words (R355). -/
def hashWords (seed : Nat) (e : Eddy) (kind opc sub : Nat) (ws : List Word) : Eddy :=
  let header := packWord [(kind, 0), (opc, 8), (sub, 16), (e.items % 2 ^ 32, 24)]
  let r := (header :: ws).foldl (hashWord seed) e
  { r with items := e.items + 1 }

/-- The task seed of a strand (R79). -/
def seedOf (s : State) (t : Strand) : Nat := match gangOf s t with
  | some g => g.seed.toNat
  | none => 0

/-- Hash an item of the strand at issue, when it is replicated (R355). -/
def hashItem (s : State) (kind opc sub : Nat) (ws : List Word) : State :=
  if replicated s s.me then { s with me := { s.me with eddy := hashWords (seedOf s s.me) s.me.eddy kind opc sub ws } } else s

/-- The signature of a hash state (R354). -/
def sigOf (e : Eddy) : BitVec 128 := e.h2 ++ e.h1

/-- Bytes as little-endian words, the last zero-padded (R355). -/
def wordsOf (bs : List Byte) : List Word := (upto (ceilDiv bs.length 8)).map fun i => wordAt bs (8 * i)

/-- A strand's signature is complete: its replicas are compared; strands that lag are counted from now (R356, R362). -/
def offerSig (s : State) (sid : Nat) (x : BitVec 128) : State :=
  match getStrand s sid with
  | none => s
  | some t =>
    match strandSet s t with
    | none => s
    | some r =>
      let s1 := updStrand s sid fun t => { t with sig := some x, late := none }
      let lag := (replicasOf s1 t).filter fun u => u.sig.isNone && u.late.isNone
      let s2 := lag.foldl (fun s u => updStrand s u.sid fun u => { u with late := some 0 }) s1
      let s3 := lag.foldl (fun s u => match gangOf s u with
        | some g => after s 13000000 (.replicaLost r.id g.ridx.toNat)
        | none => s) s2
      later s3 (.signatureComparison r.id t.lidx)

/-! ## Agreed values (R357) -/

/-- Send an agreed value to the leeward strands. -/
def sendAgreed (s : State) (t : Strand) (ord n : Nat) (x : Payload) : State :=
  (leewardsOf s t).foldl (fun s u => later s (.agreedValueArrival u.sid ord n x)) s

/-- The agreed value that has arrived for a number. -/
def agreedFor (t : Strand) (ord n : Nat) : Option Payload := (t.agreed.find? fun a => a.1 == ord && a.2.1 == n).map (·.2.2)

/-- Take the next agreed number of the strand at issue. -/
def nextAgreed (s : State) : Nat × State := (s.me.agreeN, { s with me := { s.me with agreeN := s.me.agreeN + 1 } })

/-! ## Registers as a bundle sees them -/

/-- The base of the ring that holds offset `k` of a rotating range, searched downward (R58). -/
def ringBase (mask : Nat) : Nat → Option Nat
  | 0 => if mask.testBit 0 then some 0 else none
  | k + 1 => if mask.testBit (k + 1) then some (k + 1) else ringBase mask k

/-- The next base above offset `k`, or the end of the range (R58). -/
def ringEnd (mask n : Nat) : Nat → Nat → Nat
  | 0, k => k
  | f + 1, k => if n ≤ k then n else if mask.testBit k then k else ringEnd mask n f (k + 1)

/-- Rotation of offset `k` in a range of `n` registers on iteration `i` (R58). -/
def rotOff (mask n k i : Nat) : Nat :=
  match ringBase mask k with
  | none => k
  | some b => let e := ringEnd mask n n (b + 1); b + ((k - b) + i) % (e - b)

/-- The register that a field naming `r` refers to (R58). -/
def rotReg (l : LoopSt) (r : RegId) : RegId :=
  if !l.active then r
  else
    match r with
    | .s i => if i.toNat < 48 then r else .s (BitVec.ofNat 6 (48 + rotOff (bitsOf l.rings.toNat 8 16) 16 (i.toNat - 48) l.iter.toNat))
    | .v i => if i.toNat < 24 then r else .v (BitVec.ofNat 5 (24 + rotOff (bitsOf l.rings.toNat 0 8) 8 (i.toNat - 24) l.iter.toNat))
    | .p _ => r

/-- The registers that the slots of the bundle read: as they stood before its writes (R23, R42). -/
def view (s : State) : RegFile := match s.issue with | some i => i.regs | none => s.me.regs

/-- The loop state that rotates the fields of the bundle (R58). -/
def viewLoop (s : State) : LoopSt := match s.issue with | some i => i.loop | none => s.me.loop

/-- The register a field refers to in the bundle at issue. -/
def rot (s : State) (r : RegId) : RegId := rotReg (viewLoop s) r

/-- A register with its state, as the bundle sees it. -/
def look (s : State) (r : RegId) : RegVal := (view s).get (rot s r)

/-- `src` of an s register (R35), after the checks of R276. -/
def rdS (s : State) (i : BitVec 6) : Word := (look s (.s i)).val.setWidth 64

/-- `src` of a v register. -/
def rdV (s : State) (i : BitVec 5) : VVal := (look s (.v i)).val

/-- `src` of a p register. -/
def rdP (s : State) (i : BitVec 4) : PVal := (look s (.p i)).val.setWidth 128

/-- The slot whose turn it is, 0 outside a bundle. -/
def slotNo (s : State) : Nat := match s.issue with | some i => i.slot | none => 0

/-- The shape register hX as the bundle sees it (R42). -/
def rdH (s : State) (x : BitVec 4) : Shape := match s.issue with | some i => i.h[x.toNat]'(by omega) | none => s.me.h[x.toNat]'(by omega)

/-! ## Obligations -/

/-- The lowest serial that is not held, from `k` upward (R20). -/
def freeSerial (held : List (Nat × Bool)) : Nat → Nat → Nat
  | 0, k => k
  | f + 1, k => if held.any (fun p => p.1 == k) then freeSerial held f (k + 1) else k

/-- Log a register at its first write in the window (R31). -/
def logFirst (t : Strand) (r : RegId) : Strand :=
  if regFixed r || t.log.any (fun e => e.reg == r) then t
  else let y := t.regs.get r; { t with log := t.log ++ [⟨r, y.val, y.st, y.tag⟩] }

/-- The tag of a serial in the open window (R19). -/
def tagOf (serial : Nat) (window : BitVec 32) : Tag := BitVec.ofNat 16 (serial % 1024 + window.toNat % 64 * 1024)

/-- Withdraw the SEMA whose future a register holds, when that register is overwritten (R105, log 19). -/
def withdrawSema (t : Strand) (r : RegId) : Strand :=
  let y := t.regs.get r
  if y.st == .pending && t.q.toList.any (fun q => q.out && q.tag == some y.tag) then
    { t with
      q := t.q.map fun q => if q.out && q.tag == some y.tag then { q with await := 0, out := false, rid := .s 0, tag := none } else q
      serials := dropFirst (fun p => p.1 == y.tag.toNat % 1024) t.serials }
  else t

/-- Write a register in the window: its first write is logged and its old obligation is cancelled (R31, R279). -/
def writeReg (t : Strand) (r : RegId) (y : RegVal) : Strand :=
  if regFixed r then t
  else let t := withdrawSema (logFirst t r) r; { t with regs := t.regs.put r y }

/-- Write a register as part of a commit point that has completed: no rollback takes it back (R102, R318). -/
def writeKept (t : Strand) (r : RegId) (y : RegVal) : Strand := { writeReg t r y with log := t.log }

/-- Obligate a register (R20); none for s0 and p0 (R12). `aw` says that EXIT awaits the producer. -/
def obligateT (t : Strand) (r : RegId) (aw : Bool) : Strand × Option Tag :=
  if regFixed r then (t, none)
  else
    let k := freeSerial t.serials 1024 0
    let tag := tagOf k t.window
    ({ writeReg t r ⟨0, .pending, tag⟩ with serials := t.serials ++ [(k, aw)] }, some tag)

/-- Obligate the register that a field of the bundle names (R20). -/
def obligate (s : State) (r : RegId) (aw : Bool) : State × Option Tag :=
  let x := obligateT s.me (rot s r) aw
  ({ s with me := x.1 }, x.2)

/-- Deliver to a tag `n` ck from now. -/
def deliverIn (s : State) (n : Nat) (sid : Nat) (t : Option Tag) (x : Payload) : State :=
  match t with
  | none => s
  | some t => after s n (.delivery sid t x)

/-- Deliver to a tag after a variable time. -/
def deliverLater (s : State) (sid : Nat) (t : Option Tag) (x : Payload) : State :=
  match t with
  | none => s
  | some t => later s (.delivery sid t x)

/-- Obligate a register and fill it after a fixed latency (R90, R124, R137). -/
def produce (s : State) (r : RegId) (lat : Nat) (x : Payload) : State :=
  let o := obligate s r false
  deliverIn o.1 lat s.me.sid o.2 x

/-- A 64-bit result of fixed latency. -/
def produceS (s : State) (d : BitVec 6) (lat : Nat) (x : Word) : State := produce s (.s d) lat (.value (x.setWidth 1024))

/-- A v result of fixed latency. -/
def produceV (s : State) (d : BitVec 5) (lat : Nat) (x : VVal) : State := produce s (.v d) lat (.value x)

/-- A p result of fixed latency. -/
def produceP (s : State) (d : BitVec 4) (lat : Nat) (x : PVal) : State := produce s (.p d) lat (.value (x.setWidth 1024))

/-! ## Deliveries -/

/-- The register contents that a payload gives (R21). -/
def payloadReg (x : Payload) (t : Tag) : RegVal :=
  match x with
  | .value v => ⟨v, .full, t⟩
  | .poison c => RegVal.poison c t

/-- A register value cut to its file's width. -/
def fitReg (r : RegId) (v : VVal) : VVal :=
  match r with
  | .s _ => (v.setWidth 64).setWidth 1024
  | .v _ => v
  | .p _ => (v.setWidth 128).setWidth 1024

/-- Apply a delivery to the undo log (R274). -/
def deliverLog (t : Tag) (x : Payload) (e : LogEntry) : LogEntry :=
  if e.st == .pending && e.tag == t then let y := payloadReg x t; { e with val := fitReg e.reg y.val, st := y.st } else e

/-- Release a serial (R20). -/
def releaseSerial (t : Strand) (tag : Tag) : Strand := { t with serials := dropFirst (fun p => p.1 == tag.toNat % 1024) t.serials }

/-- Apply a delivery to a strand's registers and log; the register that accepted it, if any (R273, R274). -/
def deliverT (t : Strand) (tag : Tag) (x : Payload) : Strand × Option RegId :=
  let r := findPending t.regs tag
  let inLog := t.log.any fun e => e.st == .pending && e.tag == tag
  let t1 := { t with log := t.log.map (deliverLog tag x), closing := t.closing.map fun c => { c with before := c.before.map fun b => { b with log := b.log.map (deliverLog tag x) } } }
  let t2 := match r with
    | some r => { t1 with regs := t1.regs.put r (payloadReg x tag) }
    | none => t1
  let t3 := if r.isNone && !inLog then countHere t2 7 1 else t2
  (releaseSerial t3 tag, r)

/-- Index of a register within its file, if it is of that file. -/
def indexIn (f : RFile) (r : RegId) : Option Nat :=
  match f, r with
  | .s, .s i => some i.toNat
  | .v, .v i => some i.toNat
  | .p, .p i => some i.toNat
  | _, _ => none

/-- Whether a register is a member of a WAITANY set (R99). -/
def inSet (w : RFile × Word) (r : RegId) : Option Nat := (indexIn w.1 r).bind fun i => if bit w.2.toNat i then some i else none

/-- Wake a parked resident strand whose register accepted a delivery; its context is ready at ck `at_` (R98, R99, R277, R278). -/
def wakeResident (at_ : Nat) (r : RegId) (t : Strand) : Strand :=
  let woken := { t with st := .running, readyAt := at_, notBefore := at_, parkid := none }
  match t.waitset with
  | some w =>
    match inSet w r with
    | none => t
    | some i =>
      if t.st == .parked then { woken with choice := some (BitVec.ofNat 6 i) }
      else
        match t.choice with
        | some c => if t.st == .running && t.readyAt == at_ && i < c.toNat then { t with choice := some (BitVec.ofNat 6 i) } else t
        | none => t
  | none => if t.st == .parked && t.parkid == some r then woken else t

/-- Whether an accepted delivery would wake an EVICTED strand (R259, R99). -/
def wouldWake (r : RegId) (t : Strand) : Bool :=
  match t.waitset with
  | some w => (inSet w r).isSome
  | none => t.parkid == some r

/-- Whether an operation of an awaited kind that the strand issued has not delivered (R103). -/
def awaitedOut (s : State) (t : Strand) : Bool :=
  !t.leaving.isEmpty || t.serials.any (·.2) || s.farAtoms.any (fun a => a.sid == t.sid) ||
  s.nearOps.any (fun o => o.sid == t.sid && (match o.what with | .atomic _ _ _ _ => true | _ => false)) ||
  s.cores.any (fun c => c.copies.any (fun x => x.sid == t.sid) || c.array.cmds.any fun x => x.sid == t.sid) ||
  s.gangs.any (fun g => g.chans.toList.any fun c => match c with | .send e => e.ops.any (fun o => o.sid == t.sid) | _ => false) ||
  s.colls.any (fun c => c.members.any fun m => m.sid == t.sid && !m.recv && !m.done)

/-- Whether an earlier access of the strand is still unordered at REL (R320). -/
def accessOut (s : State) (t : Strand) : Bool :=
  s.nearOps.any (fun o => o.sid == t.sid) || s.farLoads.any (fun l => l.sid == t.sid && !l.done) || s.farAtoms.any fun a => a.sid == t.sid

/-- Whether the remaining wait of the bundle at NEXT is over (R434). -/
def remainOver (s : State) (t : Strand) : Bool :=
  match t.remain with
  | .none => true
  | .exit => !awaitedOut s t
  | .rel f => f == .context || !accessOut s t

/-! ## Faults of the device's own accesses -/

/-- The continuation record of a strand, 0 for none (R342). -/
def crecOf (s : State) (sid : Option Nat) : Word := match sid.bind (getStrand s) with
  | some t => t.crec
  | none => 0

/-- Post a fault descriptor at the owner of an address (R342): with the generation at the fault, and what its release makes again (R343). -/
def postFor (s : State) (e : XFault) (asid : Nat) (acc : BitVec 4) (sid : Option Nat) (crec : Word) (gen : BitVec 32) (trap : Option TrapRec) (held : List HeldOp)
    (away : Option (BitVec 12 × Nat)) : State :=
  updDie s (farDie e.2) fun d =>
    { d with
      descs := d.descs ++ [{ seq := d.nextSeq, va := e.2, asid := asid, kind := e.1, acc := acc, crec := crec, gen := gen, sid := sid, trap := trap, held := held, releasing := false, away := away }]
      nextSeq := d.nextSeq + 1 }

/-- Post a fault descriptor for a strand of this package, or for none. -/
def postDesc (s : State) (e : XFault) (asid : Nat) (acc : BitVec 4) (sid : Option Nat) (trap : Option TrapRec) (held : List HeldOp) : State :=
  postFor s e asid acc sid (crecOf s sid) (getDie s (farDie e.2)).gen trap held none

/-- Start a walk for an offset, or join one in flight for the same page; at most 256 run at once (R339). The event runs again when the walk has its answer. -/
def joinWalk (s : State) (die asid off : Nat) (ev : Instr) : State :=
  let d := getDie s die
  let same (w : Walk) : Bool := w.asid == asid && w.off >>> 16 == off >>> 16
  let join (w : Walk) : Walk := if same w && !w.joined.contains ev then { w with joined := w.joined ++ [ev] } else w
  if (d.walks ++ d.walkQ).any same then updDie s die fun d => { d with walks := d.walks.map join, walkQ := d.walkQ.map join }
  else
    let i := takeId s
    let w : Walk := { id := i.1, asid := asid, off := off, gen := d.gen, joined := [ev] }
    if d.walks.length < 256 then later (updDie i.2 die fun d => { d with walks := d.walks ++ [w] }) (.tlbWalkComplete die i.1)
    else updDie i.2 die fun d => { d with walkQ := d.walkQ ++ [w] }

/-- Ask another package for a line, at its owner or in its frame (R344); while it cannot be reached the event is tried again (R433). -/
def askLine (s : State) (asid : Nat) (line : Word) (acc : BitVec 4) (hold : Bool) (who : Nat × Word) (ev : Instr) : State :=
  let what : ReqWhat := .got ev asid line
  let ask (d : BitVec 12) (mk : Nat → Packet) : State := if pathLost s d then later s ev else sendReq s d what mk
  if s.reqs.any fun r => r.what == what then s
  else if isRemote s line then ask (farDev line) fun rid => .read rid asid line 64 acc hold who
  else
    match translate s asid line .load with
    | .ok ⟨a, some d⟩ => ask d fun rid => .frameRead rid asid a 64
    | .ok _ => later s ev
    | .error k => if k = kWalk then joinWalk s (farDie line) asid (farOff line) ev else later s ev

/-- Ask another package to translate a page for a read or a write, and to keep the translation (R232). -/
def askPage (s : State) (asid : Nat) (key : Word) (acc : BitVec 4) (who : Nat × Word) (ev : Instr) : State :=
  let what : ReqWhat := .got ev asid key
  if s.reqs.any fun r => r.what == what then s
  else if pathLost s (farDev key) then later s ev
  else sendReq s (farDev key) what fun rid => .xlate rid asid (pageKey key false) (bit key.toNat 0) acc who

/-- An access that waits for a walk or for another package: the event that makes it runs again when the answer is there. -/
def awaitAccess (s : State) (e : XFault) (asid : Nat) (acc : BitVec 4) (hold : Bool) (who : Nat × Word) (ev : Instr) : State :=
  if e.1 = kWalk then joinWalk s (farDie e.2) asid (farOff e.2) ev
  else if e.1 = kPage then askPage s asid e.2 acc who ev
  else askLine s asid (lineOf e.2) acc hold who ev

/-- Whether an event is on its way: it is due, or waits for a walk or for another package. -/
def evRuns (s : State) (ev : Instr) : Bool :=
  s.timers.any (fun t => t.ev == ev) || s.reqs.any (fun r => match r.what with
    | .got e _ _ => e == ev
    | _ => false) || s.dies.toList.any fun d => (d.walks ++ d.walkQ).any fun w => w.joined.contains ev

/-- Whether an event is still to run: it is on its way, or waits for the release of a descriptor. -/
def evPending (s : State) (ev : Instr) : Bool := evRuns s ev || s.dies.toList.any fun d => d.descs.any fun x => !x.releasing && x.held.contains (.event ev)

/-- Hold a device access as the event that makes it (R433): it waits for its answer, or for the release of the descriptor of its fault. -/
def holdEvent (s : State) (e : XFault) (asid : Nat) (acc : BitVec 4) (sid : Option Nat) (i : Instr) : State :=
  if waits e.1 then awaitAccess s e asid acc true (sid.getD 0, crecOf s sid) i else postDesc s e asid acc sid none [.event i]

/-- The two records of a strand as ranges to write (R28, R29). -/
def recordWrites (s : State) (t : Strand) : List (Word × List Byte) := [(t.frame, frameBytes t), (t.crec, crecBytes t (identOf s t))]

/-- A non-resident strand as its records in far memory give it (R32). -/
def readRecords (s : State) (t : Strand) : Except XFault Strand :=
  match devRead s (asidOf s t) t.crec 64 with
  | .error e => .error e
  | .ok c =>
    match devRead s (asidOf s t) (crecFrame c) 8192 with
    | .error e => .error e
    | .ok f => .ok (loadCrec c (loadFrame f t))

/-- A delivery to a strand that is not resident lands in its frame (R32, R275). -/
def deliverFrame (s : State) (t : Strand) (tag : Tag) (x : Payload) : State :=
  match readRecords s t with
  | .error e => holdEvent s e (asidOf s t) 6 none (.delivery t.sid tag x)
  | .ok u =>
    let r := deliverT u tag x
    let wakes := match r.2 with | some y => wouldWake y r.1 | none => false
    let s1 := updStrand s t.sid fun _ => r.1
    let waited := t.cdone && remainOver s1 r.1
    let u2 := if t.st == .evicted && (wakes || waited) then { r.1 with st := .ready, readyAt := s.clock + 1 } else r.1
    match devWriteAll s (asidOf s t) (recordWrites s u2) with
    | .error e => holdEvent s e (asidOf s t) 7 (some t.sid) (.delivery t.sid tag x)
    | .ok s2 =>
      let s3 := updStrand s2 t.sid fun _ => u2
      match (if t.st != u2.st then gangOf s t else none) with
      | some g => after s3 1 (.dispatch g.die)
      | none => s3

/-- A delivery with its tag to one strand (R21, R273 to R275, R277). -/
def deliverOne (at_ : Nat) (s : State) (sid : Nat) (tag : Tag) (x : Payload) : State :=
  match getStrand s sid with
  | none => s
  | some t =>
    if t.st == .done then s
    else if resident t || t.heldTrap.isSome then
      updStrand s sid fun t =>
        let r := deliverT t tag x
        match r.2 with
        | some y => wakeResident at_ y r.1
        | none => r.1
    else deliverFrame s t tag x

/-- A delivery with its tag, and the same outcome to the leeward replicas that wait for it (R358, R359). -/
def deliverAll (at_ : Nat) (s : State) (sid : Nat) (tag : Tag) (x : Payload) : State :=
  let hit (m : Nat × Tag × Nat × Tag) : Bool := m.1 == sid && m.2.1 == tag
  let s1 := deliverOne at_ { s with mirrors := s.mirrors.filter fun m => !hit m } sid tag x
  (s.mirrors.filter hit).foldl (fun s m => deliverOne at_ s m.2.2.1 m.2.2.2 x) s1

/-- Forget that a tag waits for an agreed value. -/
def dropAgree (s : State) (sid : Nat) (tag : Tag) : State := updStrand s sid fun t => { t with agreeWait := t.agreeWait.filter fun a => a.2.2.1 != tag }

/-- A producer delivers; a context that this wakes is ready at ck `at_`. The windward sends an agreed value on; a leeward takes the windward's value in place of its own, once both are there (R357). -/
def deliverAt (at_ : Nat) (s : State) (sid : Nat) (tag : Tag) (x : Payload) : State :=
  match (getStrand s sid).bind fun t => (t.agreeWait.find? fun a => a.2.2.1 == tag).map fun a => (t, a) with
  | none => deliverAll at_ s sid tag x
  | some (t, ord, n, _) =>
    if windward s t then sendAgreed (deliverAll at_ (dropAgree s sid tag) sid tag x) t ord n x
    else
      match agreedFor t ord n with
      | some y => deliverAll at_ (dropAgree s sid tag) sid tag y
      | none => updStrand s sid fun t => { t with agreeWait := t.agreeWait.map fun a => if a.2.2.1 == tag then (a.1, a.2.1, tag, some x) else a }

/-- A producer delivers in this ck; a context that this wakes is ready in the next (R98). -/
def deliver (s : State) (sid : Nat) (tag : Tag) (x : Payload) : State := deliverAt (s.clock + 1) s sid tag x

/-- Deliver at once to an optional tag. -/
def deliverNow (s : State) (sid : Nat) (t : Option Tag) (x : Payload) : State :=
  match t with
  | none => s
  | some t => deliver s sid t x

/-- Deliver a result of counted latency, which the bundles of this ck may read (R90, R196). -/
def deliverDue (s : State) (sid : Nat) (t : Option Tag) (x : Payload) : State :=
  match t with
  | none => s
  | some t => deliverAt s.clock s sid t x

/-! ## Taking a trap, and RESUME -/

/-- Words of the trap ring's indices (R428). -/
def ringIndices (s : State) (j : Job) : Except XFault (Nat × Nat) :=
  match devRead s j.asid (j.trapq - 64) 8 with
  | .error e => .error e
  | .ok bs => .ok (natAt bs 0 4, natAt bs 4 4)

/-- Word 6 of a trap record whose event has been entered (R369). -/
def queuedWord (n : BitVec 32) : List Byte := wordBytes (packWord [(n.toNat, 0), (1, 32)])

/-- The entry of an event with its number: in word 7 of a mismatch event, else in word 6 with QUEUED (R364, R369). -/
def HeldEvent.numbered (e : HeldEvent) (n : BitVec 32) : List Byte :=
  if e.bytes.head? = some 9 then e.bytes.take 56 ++ leBytes 4 n.toNat ++ e.bytes.drop 60 else e.bytes.take 48 ++ queuedWord n ++ e.bytes.drop 56

/-- What entering an event writes at a ring's index: word 6 of its trap records, the entry, then the producer index (R369, R372). -/
def entryWrites (j : Job) (prod : Nat) (e : HeldEvent) : List (Word × List Byte) :=
  e.trecs.map (fun a => (a + 48, queuedWord j.seq)) ++ [(j.trapq + BitVec.ofNat 64 (64 * (prod % 2 ^ j.traplog)), e.numbered j.seq), (j.trapq - 64, leBytes 4 (prod + 1))]

/-- Enter the job's held events while the ring has room, each with the next number (R369, R372); the handler is enqueued on entry into an empty ring (R373). -/
def enterEvents : Nat → State → Nat → State
  | 0, s, _ => s
  | n + 1, s, jobn =>
    match getJob s jobn with
    | none => s
    | some j =>
      match j.held with
      | [] => s
      | e :: rest =>
        match ringIndices s j with
        | .error x => holdEvent s x j.asid 6 none (.heldEventEntry jobn)
        | .ok (prod, cons) =>
          if (prod + 2 ^ 32 - cons) % 2 ^ 32 = 2 ^ j.traplog then
            (if s.timers.any (fun t => t.ev == .heldEventEntry jobn) then s else later s (.heldEventEntry jobn))
          else
            match devWriteAll s j.asid (entryWrites j prod e) with
            | .error x => holdEvent s x j.asid 7 none (.heldEventEntry jobn)
            | .ok s1 =>
              let s2 := updJob s1 jobn fun j => { j with held := rest, seq := j.seq + 1 }
              let s3 := if prod = cons && j.handler != 0 && !j.handlerLive then after s2 1 (.enqueue j.hdie j.hq j.handler) else s2
              enterEvents n s3 jobn

/-- Place of a strand in the order of die, core and context; one without a context stands at its die's first (R372). -/
def trapPlace (s : State) (t : Strand) : Nat :=
  match t.loc with
  | some l => 4 * l.1 + l.2.toNat
  | none => match gangOf s t with
    | some g => 768 * g.die
    | none => 0

/-- An event joins those of its job that are held: by the ck of its trap, then by its place (R372). -/
def holdTrap (e : HeldEvent) (hs : List HeldEvent) : List HeldEvent :=
  let first (x : HeldEvent) : Bool := decide (x.ck < e.ck) || (x.ck == e.ck && decide (x.place ≤ e.place))
  hs.takeWhile first ++ e :: hs.dropWhile first

/-- Post an event to a job's trap queue: it is entered at the end of this ck, or when the events held before it are (R372). -/
def postEvent (s : State) (jobn place : Nat) (trecs : List Word) (bs : List Byte) : State :=
  match getJob s jobn with
  | none => s
  | some j =>
    let s1 := updJob s jobn fun j => { j with held := holdTrap ⟨s.clock, place, trecs, bs⟩ j.held }
    let due := s.timers.any fun t => t.ev == .heldEventEntry jobn && decide (t.due ≤ s.clock)
    if due || (!j.held.isEmpty && evPending s (.heldEventEntry jobn)) then s1 else after s1 0 (.heldEventEntry jobn)

/-- Write the records of a strand that has trapped, the trap record with QUEUED = 0 until its event is entered; it is FAULTED once they are written (R369, R371, R433). -/
def saveTrap (s : State) (sid : Nat) : State :=
  match getStrand s sid with
  | none => s
  | some t =>
    match (if t.sig.isSome || t.closing.isSome then none else t.heldTrap) with
    | none => s
    | some r =>
      let jobn := jobNum s t
      let u := { t with st := .faulted, heldTrap := none, parkid := none, waitset := none, choice := none, closing := none, asleep := false }
      let quiet := r.cause == .farFault || r.cause == .replicaMismatch || !windward s t
      -- a mismatch event has a layout of its own and is written only to the trap queue (R369)
      let own := if r.cause == .replicaMismatch then [] else [(t.trec, trapBytes r u (identOf s t))]
      match devWriteAll s (asidOf s t) (recordWrites s u ++ own) with
      | .error e => holdEvent s e (asidOf s t) 7 (some sid) (.heldEventEntry jobn)
      | .ok s1 =>
        let s2 := updStrand s1 sid fun _ => u
        if quiet then s2
        else postEvent s2 jobn (trapPlace s t) [t.trec] (trapBytes r u (identOf s t))

/-- Whether a trap of a replicated strand becomes its signature before it is posted (R363): a far fault, a watchdog, and what a verdict itself raised do not. -/
def trapCompared (c : Cause) : Bool := !(c == .farFault || c == .watchdog || c == .replicaMismatch || c == .queue)

/-- TAKE A TRAP on a strand: it stops with NEXT as given, and its records are written (R369 to R371); under replication the trap item is compared first (R363). -/
def takeTrapOn (s : State) (sid : Nat) (r : TrapRec) (next : Word) : State :=
  let s1 := updStrand s sid fun t => { t with pc := next, heldTrap := some r, waitSerial := false, bankWait := none }
  match getStrand s1 sid with
  | none => s1
  | some t =>
    if replicated s1 t && trapCompared r.cause then
      let e := hashWords (seedOf s1 t) ⟨0, 0, 0⟩ 7 0 (Cause.code r.cause) [r.bundle, r.code.setWidth 64]
      offerSig (updStrand s1 sid fun t => { t with st := .parked, parkid := none, waitset := none, choice := none }) sid (sigOf e)
    else saveTrap s1 sid

/-- TAKE A TRAP at the bundle at issue: no slot commits, the window is kept (R370). -/
def takeTrap (s : State) (cause : Cause) (mask : BitVec 8) (code : BitVec 16) (addr : Word) : State :=
  takeTrapOn s s.me.sid ⟨cause, mask, code, s.me.pc, s.me.window, addr⟩ s.me.pc

/-- The mask of one slot. -/
def slotBit (n : Nat) : BitVec 8 := BitVec.ofNat 8 (2 ^ n)

/-- Whether a strand holds an atomic that is unplaced under an unreleased descriptor (R343). -/
def holdsAtomic (s : State) (sid : Nat) : Bool := s.farAtoms.any fun a => a.sid == sid && a.held.isSome

/-- Whether two far addresses of an address space name one byte (R306, R344). -/
def sameByte (s : State) (asid1 : Nat) (a : Word) (asid2 : Nat) (b : Word) : Bool :=
  if isRemote s a || isRemote s b then asid1 == asid2 && a == b
  else
    match translateNow s asid1 a .load, translateNow s asid2 b .load with
    | .ok p, .ok q => p == q
    | _, _ => false

/-- The strand whose continuation record stands at a far address of an address space (R119, R380). -/
def strandAt (s : State) (asid : Nat) (va : Word) : Option Strand := (allStrands s).find? fun t => t.crec != 0 && sameByte s asid va (asidOf s t) t.crec

/-- A leeward register as R435 leaves it: the windward's value and state, unless the windward's is PENDING. -/
def alignReg (w : RegFile) (l : RegFile) (r : RegId) : RegFile :=
  let y := w.get r
  if y.st == .pending then l else l.put r ⟨y.val, y.st, (l.get r).tag⟩

/-- LEEWARD_ALIGN: a leeward strand takes the windward's NEXT, CPT and registers that are not PENDING (R435). -/
def alignTo (w l : Strand) : Strand := { l with pc := w.pc, cpt := w.cpt, regs := owedRegs.foldl (alignReg w.regs) l.regs }

/-- RETURN FROM A TRAP of one strand: FAULTED becomes READY at NEXT (R119, R375); a held context takes it up in the next ck. `f` is applied to its records. -/
def resumeOne (s : State) (sid : Nat) (f : Strand → Strand) : State :=
  match getStrand s sid with
  | none => s
  | some t =>
    if t.st != .faulted || holdsAtomic s sid then s
    else
      -- a descriptor of a read names no strand (R342)
      let wait (e : XFault) (acc : BitVec 4) (who : Option Nat) : State :=
        if waits e.1 then awaitAccess (updStrand s sid fun t => { t with resuming := true }) e (asidOf s t) acc true (who.getD 0, crecOf s who) (.heldEventEntry (jobNum s t))
        else postDesc s e (asidOf s t) acc who none [.resume sid]
      match readRecords s t with
      | .error e => wait e 6 none
      | .ok u =>
        let u := { f u with st := .ready, readyAt := s.clock + 1, resuming := false }
        match devWriteAll s (asidOf s t) (recordWrites s u) with
        | .error e => wait e 7 (some sid)
        | .ok s1 =>
          let s2 := updStrand s1 sid fun _ => u
          match t.loc with
          | some l => after s2 1 (.pickUp sid l.1)
          | none => match gangOf s2 t with
            | some g => after s2 1 (.dispatch g.die)
            | none => s2

/-- RETURN FROM A TRAP (R119): the windward's RESUME brings its leeward strands into line and resumes them too (R122, R435). -/
def resumeStrand (s : State) (sid : Nat) : State :=
  match getStrand s sid with
  | none => s
  | some t =>
    let s1 := resumeOne s sid id
    if t.st != .faulted then s
    else
      match getStrand s1 sid with
      | none => s1
      | some w => if w.st != .ready then s1 else (leewardsOf s1 t).foldl (fun s u => resumeOne s u.sid (alignTo w)) s1

/-! ## Rollback -/

/-- Restore a register from its log entry (R286). -/
def restoreReg (r : RegFile) (e : LogEntry) : RegFile := r.put e.reg ⟨e.val, e.st, e.tag⟩

/-- Discard the open window of a strand (R22, R286, R337): registers, loop and sequencer come back, the replay count stays (R328). -/
def rollbackT (t : Strand) : Strand :=
  { countHere t 8 1 with
    regs := t.log.foldl restoreReg t.regs
    log := []
    replay := t.replay.map fun r => { r with pos := 0, seen := 0 }
    gated := []
    loop := t.loopC
    seq := t.seqC
    window := t.window + 1
    waitset := none, choice := none, closing := none, nestAddr := none, farLoaded := false
    eddy := t.eddyC, sig := none, verdict := false, late := none, agreeN := t.agreeC
    agreeWait := t.agreeWait.filter fun a => !(a.1 == t.ordinal && decide (t.agreeC ≤ a.2.1)) }

/-- A semaphore whose SEMA is withdrawn: its count stays (R105). -/
def Sema.withdrawn (q : Sema) : Sema := { q with await := 0, out := false, rid := .s 0, tag := none }

/-- The SEMAs of a strand after its registers have been restored: the core retargets each to the register that the log leaves PENDING with its tag (R132), and one whose tag no register holds is withdrawn and releases its serial (R20, R105, log 19). -/
def dropLostSemas (t : Strand) : Strand :=
  let holder (q : Sema) : Option RegId := q.tag.bind (findPending t.regs)
  let lost (q : Sema) : Bool := q.out && q.tag.isSome && (holder q).isNone
  { t with
    serials := (t.q.toList.filter lost).foldl (fun l q => dropFirst (fun p => some p.1 == q.tag.map fun g => g.toNat % 1024) l) t.serials
    q := t.q.map fun q => if lost q then q.withdrawn else { q with rid := (holder q).getD q.rid } }

/-- The tags of commands that a discarded commit point will never send; their serials are released as dropped deliveries (R20, R22). -/
def postTags : Post → List Tag
  | .array _ c => c.tag.toList
  | .arrayPoison t _ => t.toList
  | .copy c => c.tag.toList
  | .copyPoison t _ => t.toList
  | .chan _ t _ _ => t.toList
  | .send _ o _ => o.tag.toList
  | .recv o _ => o.tag.toList
  | .tick _ t => t.toList
  | .coll t _ _ _ => t.toList
  | .spsend t _ _ _ => t.toList
  | .sprecv t _ _ _ => t.toList
  | .launch _ t _ => t.toList
  | .launchAlign _ => []
  | .near _ _ w => (match w with | .atomic _ _ _ t => t.toList | _ => [])
  | .farAtom _ | .nearAtom _ | .exit | .rel _ => []

/-- Tell other packages to release what they reserved for a window, or what they keep for a copy (R232, R318). -/
def releaseAll (s : State) (rids : List (Nat × BitVec 12)) : State := rids.foldl (fun s r => sendPacket s r.2 0 (.release r.1)) s

/-- The copies that wait for a window. -/
def postCopies (ps : List Post) : List CopyOp := ps.filterMap fun p => match p with
  | .copy c => some c
  | _ => none

/-- Discard the open window of a strand with what waits on it: unsent commands, its reservations at every owner (R318), its near-bound copies (R233), its divide (R138). -/
def discardWindow (s : State) (sid : Nat) : State :=
  match getStrand s sid with
  | none => s
  | some t =>
    let posts := match t.closing with | some c => c.post | none => []
    let rids := match t.closing with | some c => c.rids ++ c.kept | none => []
    let gone := posts.flatMap postTags
    let atoms := s.farAtoms.filter fun a => a.sid == sid && !a.sent
    let nears := s.nearOps.filter fun o => o.sid == sid && !o.sent
    let nearTags := nears.filterMap fun o => match o.what with | .atomic _ _ _ t => t | _ => none
    let mine (c : CopyOp) : Bool := c.sid == sid && c.window == t.window && bit c.dst.toNat 63
    let copies := s.cores.flatMap fun c => c.copies.filter mine
    let divides (c : Core) : Bool := match c.divOwner with
      | some d => d.1 == sid && d.2.toNat / 1024 == t.window.toNat % 64
      | none => false
    let tags := gone ++ atoms.filterMap (·.tag) ++ nearTags ++ copies.filterMap (·.tag)
    let s1 := updStrand s sid fun t => dropLostSemas (tags.foldl releaseSerial (rollbackT t))
    let s2 := updStrand s1 sid fun t =>
      { t with nearFence := t.nearFence.filter fun i => !nears.any fun o => o.id == i
               acqFence := t.acqFence.filter fun i => !(atoms.any (fun a => a.id == i) || nears.any fun o => o.id == i) }
    let s3 : State := { s2 with
      farAtoms := s2.farAtoms.filter fun a => !(a.sid == sid && !a.sent)
      nearOps := s2.nearOps.filter fun o => !(o.sid == sid && !o.sent)
      reqs := s2.reqs.filter fun r => r.what != .reserve sid
      cores := s2.cores.map fun c => { c with copies := c.copies.filter (fun x => !mine x), divBusy := if divides c then 0 else c.divBusy } }
    releaseAll s3 (rids ++ (copies ++ postCopies posts).flatMap (·.kept))

/-- The kept agreed values of a strand's open window are discarded with the windward's window, those on their way included (R357). -/
def forgetAgreed (s : State) (sid : Nat) : State :=
  match getStrand s sid with
  | none => s
  | some t =>
    let stale (e : Instr) : Bool := match e with
      | .agreedValueArrival i ord n _ => i == sid && ord == t.ordinal && decide (t.agreeC ≤ n)
      | _ => false
    let s1 := updStrand s sid fun t => { t with agreed := t.agreed.filter fun a => t.agreeWait.any fun w => w.1 == a.1 && w.2.1 == a.2.1 }
    { s1 with timers := s1.timers.filter fun x => !stale x.ev }

/-- A strand as its context holds it, or as its records give it when it is not resident (R32); the core keeps its own copy when they cannot be read. -/
def frameView (s : State) (t : Strand) : Strand :=
  if resident t || t.heldTrap.isSome then t
  else match readRecords s t with
    | .ok u => u
    | .error _ => t

/-- ROLLBACK FOR A FAULT of one strand (R337): the window is discarded and the strand stops FAULTED at CPT, which `f` may set back first (R218). -/
def faultRollbackOne (s : State) (sid : Nat) (kind : BitVec 4) (addr : Word) (mask : BitVec 8) (f : Strand → Strand) : State :=
  match getStrand s sid with
  | none => s
  | some t =>
    let u := f (frameView s t)
    let s1 := discardWindow (updStrand s sid fun _ => u) sid
    takeTrapOn s1 sid ⟨.farFault, mask, kind.setWidth 16, u.cpt, u.window, addr⟩ u.cpt

/-- Whether a stopped strand keeps a window that a rollback can discard (R371). -/
def keepsWindow (t : Strand) : Bool := t.st != .faulted || t.pc != t.cpt || !t.log.isEmpty || !t.gated.isEmpty

/-- ROLLBACK FOR A FAULT (R337); a fault of the windward rolls every replica back (R356, R363). -/
def faultRollbackTo (s : State) (sid : Nat) (kind : BitVec 4) (addr : Word) (mask : BitVec 8) (f : Strand → Strand) : State :=
  match getStrand s sid with
  | none => s
  | some t =>
    ((leewardsOf s t).filter fun u => u.st != .done).foldl (fun s u =>
      forgetAgreed (if keepsWindow u then faultRollbackOne s u.sid kind addr mask f else s) u.sid) (faultRollbackOne s sid kind addr mask f)

/-- The rollback of the open window, to CPT. -/
def faultRollbackOn (s : State) (sid : Nat) (kind : BitVec 4) (addr : Word) (mask : BitVec 8) : State := faultRollbackTo s sid kind addr mask id

/-- The generation of the owner at the fault of an access (R342): what another package has answered with it, or the die's own. -/
def faultGen (s : State) (asid : Nat) (e : XFault) : BitVec 32 :=
  match gotAnswer s asid e.2, gotAnswer s asid (pageKey e.2 true) with
  | some (.fault _ g), _ | _, some (.fault _ g) => g
  | _, _ => (getDie s (farDie e.2)).gen

/-- The owner of a faulting address posts its descriptor (R342): here, or in another package, which is told that the rollback has begun (R345). -/
def postFault (s : State) (t : Strand) (e : XFault) (acc : BitVec 4) (gen : BitVec 32) (trap : TrapRec) : State :=
  if isRemote s e.2 then sendPacket s (farDev e.2) 0 (.post (asidOf s t) e.2 e.1 acc gen (t.sid, t.crec))
  else postFor s e (asidOf s t) acc (some t.sid) t.crec gen (some trap) [] none

/-- The trap record of a rollback for a fault (R337). -/
def faultRec (t : Strand) (e : XFault) (mask : BitVec 8) : TrapRec := ⟨.farFault, mask, e.1.setWidth 16, t.cpt, t.window, e.2⟩

/-- The strand rolls back for a fault, and the owner posts its descriptor (R337, R342). -/
def faultStrand (s : State) (t : Strand) (e : XFault) (mask : BitVec 8) (acc : BitVec 4) (gen : BitVec 32) : State :=
  postFault (faultRollbackOn s t.sid e.1 e.2 mask) t e acc gen (faultRec t e mask)

end Sys2Proof.Machine
end

