-- ==== Sys2Proof/Machine/Operands.lean ====
section
/-! DEFINITION. The operands of each slot instruction: guard, sources in parking order, examined destinations, destinations (R41, R55, R141, R276). -/

namespace Sys2Proof.Machine

/-- The guard of a slot instruction; events have none. -/
def guardOf : Instr → BitVec 4
  | .br g _ | .brx g _ | .call g _ | .callx g _ | .loop g _ _ | .loopi g _ _ | .looph g _ | .lexit g | .wait g _ | .waitany g _ _ _
  | .state g _ _ | .yield g | .sleep g _ | .launch g _ _ | .exit g | .sema g _ _ _ | .semr g _ _ | .karr g _ _ | .kdrop g _
  | .kinit g _ _ | .cmt g | .rel g _ | .acq g _ | .nfence g | .nest g _ | .next g _ | .gets g _ _ | .sets g _ _ | .agree g _ _
  | .trap g _ | .plog g _ _ _ _ | .pset g _ _ _ | .resume g _ => g
  | .add g _ _ _ _ | .sub g _ _ _ _ | .addi g _ _ _ | .mul g _ _ _ _ | .mulh g _ _ _ _ | .div g _ _ _ _ | .rem g _ _ _ _ | .and g _ _ _
  | .or g _ _ _ | .xor g _ _ _ | .logi g _ _ _ _ | .shl g _ _ _ _ | .shr g _ _ _ _ | .sar g _ _ _ _ | .rot g _ _ _ _ | .shi g _ _ _ _ _
  | .cmp g _ _ _ _ | .cmpi g _ _ _ _ | .minmax g _ _ _ _ | .sel g _ _ _ _ | .bitc g _ _ _ | .ext g _ _ _ _ | .ins g _ _ _ | .mov g _ _
  | .movPredicate g _ _ | .movi g _ _ | .movhi g _ _ | .movhiW g _ _ | .lea g _ _ _ _ | .fop g _ _ _ _ | .fcmp g _ _ _ _ | .fcvt g _ _ _ => g
  | .vadd g _ _ _ _ _ | .vsub g _ _ _ _ _ | .vmul g _ _ _ _ _ | .vfma g _ _ _ _ _ | .vmin g _ _ _ _ | .vmax g _ _ _ _ | .vuna g _ _ _ _
  | .vand g _ _ _ _ | .vor g _ _ _ _ | .vxor g _ _ _ _ | .vshl g _ _ _ _ | .vshr g _ _ _ _ _ | .vcmp g _ _ _ _ _ | .vsel g _ _ _ _
  | .vcvt g _ _ _ _ _ _ | .vqnt g _ _ _ _ _ | .vred g _ _ _ _ | .vscan g _ _ _ _ | .vperm g _ _ _ _ | .vbcast g _ _ _ _ | .vmovs g _ _ _ _
  | .vins g _ _ _ _ | .vidx g _ _ | .vfun g _ _ _ | .vcx g _ _ _ _ _ | .vpopc g _ _ _ | .vmatch g _ _ _ _ | .vbitsTest g _ _ _ _
  | .vbitsSet g _ _ _ _ | .vbitsClear g _ _ _ _ => g
  | .acfg g _ | .aprog g _ _ _ _ | .astat g _ _ _ | .aswap g | .astream g _ _ _ _ | .awave g _ _ _ _ | .adrain g _ _ _ | .aread g _ _ _
  | .aclr g | .atrace g _ _ _ | .adone g => g
  | .ldn g _ _ _ _ | .stn g _ _ _ _ | .ldnv g _ _ _ | .stnv g _ _ _ | .ldng g _ _ _ _ | .stns g _ _ _ _ _ | .atmn g _ _ _ _ _ | .ldnp g _ _ _
  | .stnp g _ _ _ | .ldnt g _ _ _ _ | .ldf g _ _ _ _ | .stf g _ _ _ _ | .ldfv g _ _ _ | .stfv g _ _ _ | .atmf g _ _ _ _ _ | .redf g _ _ _ _
  | .casf g _ _ _ _ | .pref g _ _ | .ldfg g _ _ _ _ => g
  | .shape g _ _ | .copy g _ _ _ _ | .copyq g _ _ _ _ | .gath g _ _ _ _ | .scat g _ _ _ _ | .chan g _ _ _ | .send g _ _ _ | .recv g _ _ _
  | .recva g _ _ | .tick g _ _ | .coll g _ _ | .spsend g _ _ | .sprecv g _ _ | .xstat g _ _ => g
  | _ => 0

/-- The register of a second source, none for a literal. -/
def src2Reg : Src2 → List RegId
  | .reg b => [.s b]
  | .lit _ => []

/-- The next register of an even pair (R55). -/
def pairS (b : BitVec 5) (k : Nat) : RegId := .s (BitVec.ofNat 6 (2 * b.toNat + k))

/-- The sources of a slot instruction in parking order: those that count a read port (R55, R276). -/
def readsOf : Instr → List RegId
  | .brx _ b | .callx _ b | .looph _ b | .sleep _ b | .nest _ b | .resume _ b => [.s b]
  | .loop _ c _ => [.s c]
  | .waitany _ _ b _ | .launch _ b _ | .sema _ _ b _ | .semr _ _ b | .kinit _ _ b | .agree _ b _ | .pset _ _ b _ => [.s b]
  | .sets _ _ a => [.s a]
  | .plog _ _ b a _ => [.p a, .p b]
  | .add _ _ a b _ | .sub _ _ a b _ | .mul _ _ a b _ | .shl _ _ a b _ | .shr _ _ a b _ | .sar _ _ a b _ | .rot _ _ a b _ => .s a :: src2Reg b
  | .mulh _ _ a b _ => .s a :: src2Reg b
  | .div _ _ a b _ | .rem _ _ a b _ => .s a :: src2Reg b
  | .and _ _ a b | .or _ _ a b | .xor _ _ a b => .s a :: src2Reg b
  | .addi _ _ a _ | .logi _ _ a _ _ | .shi _ _ a _ _ _ | .bitc _ _ a _ | .fcvt _ _ a _ | .cmpi _ _ a _ _ => [.s a]
  | .cmp _ _ a b _ => .s a :: src2Reg b
  | .minmax _ _ a b _ => .s a :: src2Reg b
  | .sel _ _ a b p => .p p :: .s a :: src2Reg b
  | .ext _ _ a b _ => .s a :: src2Reg b
  | .ins _ d a b => .s a :: (src2Reg b ++ [.s d])
  | .movhi _ d _ => [.s d]
  | .movhiW _ d _ => [.s d]
  | .lea _ _ a b _ => .s a :: src2Reg b
  | .fop _ d a b f => .s a :: (src2Reg b ++ (if f == .fma then [.s d] else []))
  | .fcmp _ _ a b _ => .s a :: src2Reg b
  | .vadd _ _ a b _ _ | .vsub _ _ a b _ _ | .vmul _ _ a b _ _ => [.v a, .v b]
  | .vfma _ d a b _ _ => [.v a, .v b, .v d]
  | .vmin _ _ a b _ | .vmax _ _ a b _ | .vand _ _ a b _ | .vor _ _ a b _ | .vxor _ _ a b _ | .vshl _ _ a b _ => [.v a, .v b]
  | .vuna _ _ a _ _ => [.v a]
  | .vshr _ _ a b _ _ => [.v a, .v b]
  | .vcmp _ _ a b _ _ => [.v a, .v b]
  | .vsel _ _ a b _ | .vperm _ _ a b _ => [.v a, .v b]
  | .vcvt _ d a s t _ _ =>
      (if s == .mx8 then [.v a, .v (a + 1)] else [.v a]) ++ (if t == .mx8 then [.v (d + 1)] else [])
  | .vqnt _ _ a b _ _ => [.v a, .v b]
  | .vred _ _ a _ _ | .vscan _ _ a _ _ => [.v a]
  | .vbcast _ _ a _ fromV => if fromV then [.v a] else [.s (a.setWidth 6)]
  | .vmovs _ _ a b _ => [.v a, .s (b.setWidth 6)]
  | .vins _ _ a b _ => [.s (a.setWidth 6), .s (b.setWidth 6)]
  | .vfun _ _ a _ => [.v a]
  | .vcx _ _ a b _ _ => [.v a, .v b]
  | .vpopc _ _ a _ => [.v a]
  | .vmatch _ _ a b _ | .vbitsTest _ _ a b _ => [.v a, .v b]
  | .vbitsSet _ _ a b _ | .vbitsClear _ _ a b _ => [.v a, .v b]
  | .acfg _ a => [.s a]
  | .aprog _ _ _ b a => [.s a, .s b]
  | .astream _ _ _ b a | .awave _ _ _ b a => [.s a, .s b]
  | .astat _ _ _ a | .adrain _ _ _ a | .atrace _ _ _ a => [.s a]
  | .aread _ _ _ a => [.s a]
  | .ldn _ _ a _ _ | .ldf _ _ a _ _ => [.s a]
  | .stn _ d a _ _ | .stf _ d a _ _ => [.s a, .s d]
  | .ldnv _ _ a _ | .ldfv _ _ a _ => [.s a]
  | .stnv _ d a _ | .stfv _ d a _ => [.s a, .v d]
  | .ldng _ _ a _ i | .ldfg _ _ a _ i => [.s a, .v i]
  | .stns _ d a _ _ i => [.s a, .v i, .v d]
  | .atmn _ _ _ _ a b | .atmf _ _ _ _ a b => [.s a, .s b]
  | .ldnp _ _ a _ => [.s a]
  | .stnp _ d a _ => [.s a, .p d]
  | .ldnt _ _ a _ _ => [.s a]
  | .redf _ _ _ a b => [.s a, .s b]
  | .casf _ _ _ a b => [.s a, pairS b 0, pairS b 1]
  | .pref _ a _ => [.s a]
  | .shape _ _ a => (upto 4).map fun k => .s (BitVec.ofNat 6 (4 * a.toNat + k))
  | .copy _ _ _ b a | .gath _ _ _ b a | .scat _ _ _ b a => [.s a, .s b]
  | .copyq _ _ _ b a => [pairS a 0, pairS a 1, .s b]
  | .chan _ _ _ a | .send _ _ _ a | .recv _ _ _ a => [.s a]
  | .recva _ _ a => [pairS a 0, pairS a 1]
  | .coll _ _ a | .spsend _ _ a | .sprecv _ _ a => [.s a]
  | _ => []

/-- Registers that count a read port but are not examined as sources: MOV's A, STATE's B, WAIT's A (R55, R276). -/
def portOnly : Instr → List RegId
  | .mov _ _ a => [.s a]
  | .movPredicate _ _ a => [.p a]
  | .state _ b _ => [b]
  | .wait _ a => [a]
  | _ => []

/-- The destinations of a slot instruction, in the order its form writes them (R20, R55). -/
def destsOf : Instr → List RegId
  | .call _ _ => [.s 47]
  | .callx _ _ => [.s 47]
  | .waitany _ _ _ a | .launch _ _ a | .sema _ _ _ a | .agree _ _ a => [.s a]
  | .state _ _ a => [.s a]
  | .karr _ _ a => [.s a]
  | .next _ a => [.s a]
  | .gets _ _ a => [.s a]
  | .plog _ _ _ _ d => [.p d]
  | .pset _ _ _ a => [.p a]
  | .add _ d _ _ _ | .sub _ d _ _ _ | .mul _ d _ _ _ | .shl _ d _ _ _ | .shr _ d _ _ _ | .sar _ d _ _ _ | .rot _ d _ _ _ => [.s d]
  | .mulh _ d _ _ _ => [.s d]
  | .div _ d _ _ _ | .rem _ d _ _ _ => [.s d]
  | .and _ d _ _ | .or _ d _ _ | .xor _ d _ _ | .ins _ d _ _ => [.s d]
  | .addi _ d _ _ | .logi _ d _ _ _ | .shi _ d _ _ _ _ | .bitc _ d _ _ | .fcvt _ d _ _ => [.s d]
  | .cmp _ d _ _ _ => [.p d]
  | .cmpi _ d _ _ _ => [.p d]
  | .minmax _ d _ _ _ => [.s d]
  | .sel _ d _ _ _ => [.s d]
  | .ext _ d _ _ _ => [.s d]
  | .mov _ d _ => [.s d]
  | .movPredicate _ d _ => [.p d]
  | .movi _ d _ => [.s d]
  | .movhi _ d _ => [.s d]
  | .movhiW _ d _ => [.s d]
  | .lea _ d _ _ _ => [.s d]
  | .fop _ d _ _ _ => [.s d]
  | .fcmp _ d _ _ _ => [.p d]
  | .vadd _ d _ _ _ _ | .vsub _ d _ _ _ _ | .vmul _ d _ _ _ _ | .vfma _ d _ _ _ _ => [.v d]
  | .vmin _ d _ _ _ | .vmax _ d _ _ _ | .vand _ d _ _ _ | .vor _ d _ _ _ | .vxor _ d _ _ _ | .vshl _ d _ _ _ => [.v d]
  | .vuna _ d _ _ _ => [.v d]
  | .vshr _ d _ _ _ _ => [.v d]
  | .vcmp _ d _ _ _ _ => [.p d]
  | .vsel _ d _ _ _ | .vperm _ d _ _ _ => [.v d]
  | .vcvt _ d _ _ t _ _ => if t == .mx8 then [.v d, .v (d + 1)] else [.v d]
  | .vqnt _ d _ _ _ _ => [.v d]
  | .vred _ d _ _ _ | .vscan _ d _ _ _ => [.v d]
  | .vbcast _ d _ _ _ => [.v d]
  | .vmovs _ d _ _ _ => [.s (d.setWidth 6)]
  | .vins _ d _ _ _ => [.v d]
  | .vidx _ d _ => [.v d]
  | .vfun _ d _ _ => [.v d]
  | .vcx _ d _ _ _ _ => [.v d]
  | .vpopc _ d _ _ => [.v d]
  | .vmatch _ d _ _ _ | .vbitsTest _ d _ _ _ => [.p d]
  | .vbitsSet _ d _ _ _ | .vbitsClear _ d _ _ _ => [.v d]
  | .aprog _ _ d _ _ => [.s d]
  | .astream _ _ d _ _ | .awave _ _ d _ _ => [.s d]
  | .astat _ _ d _ | .adrain _ _ d _ | .atrace _ _ d _ => [.s d]
  | .aread _ d b _ => [.v b, .s d]
  | .ldn _ d _ _ _ | .ldf _ d _ _ _ => [.s d]
  | .ldnv _ d _ _ | .ldfv _ d _ _ => [.v d]
  | .ldng _ d _ _ _ | .ldfg _ d _ _ _ => [.v d]
  | .atmn _ _ _ d _ _ | .atmf _ _ _ d _ _ => [.s d]
  | .ldnp _ d _ _ => [.p d]
  | .ldnt _ d _ _ _ => [.v d]
  | .casf _ _ d _ _ => [.s d]
  | .copy _ _ d _ _ | .gath _ _ d _ _ | .scat _ _ d _ _ | .copyq _ _ d _ _ => [.s d]
  | .chan _ _ d _ | .send _ _ d _ | .recv _ _ d _ => [.s d]
  | .recva _ d _ => [.s d]
  | .tick _ _ d => [.s d]
  | .coll _ d _ | .spsend _ d _ | .sprecv _ d _ => [.s d]
  | .xstat _ _ d => [.s d]
  | _ => []

/-- Whether an instruction merges under its guard (R141, R202). -/
def merges : Instr → Bool
  | .vadd _ _ _ _ _ _ | .vsub _ _ _ _ _ _ | .vmul _ _ _ _ _ _ | .vfma _ _ _ _ _ _ | .vmin _ _ _ _ _ | .vmax _ _ _ _ _ | .vuna _ _ _ _ _
  | .vand _ _ _ _ _ | .vor _ _ _ _ _ | .vxor _ _ _ _ _ | .vshl _ _ _ _ _ | .vshr _ _ _ _ _ _ | .vcmp _ _ _ _ _ _ | .vqnt _ _ _ _ _ _
  | .vperm _ _ _ _ _ | .vbcast _ _ _ _ _ | .vidx _ _ _ | .vfun _ _ _ _ | .vpopc _ _ _ _ | .vmatch _ _ _ _ _ | .vbitsTest _ _ _ _ _
  | .ldng _ _ _ _ _ | .ldfg _ _ _ _ _ => true
  | .vcvt _ _ _ _ t _ _ => t != .mx8
  | _ => false

/-- Whether a guard of zero suppresses the instruction: every kind but merge, mask, select and direction (R41, R141, R202). -/
def wholeGuard (i : Instr) : Bool :=
  match i with
  | .vsel _ _ _ _ _ | .vred _ _ _ _ _ | .vscan _ _ _ _ _ | .vcx _ _ _ _ _ _ | .vbitsSet _ _ _ _ _ | .vbitsClear _ _ _ _ _ | .stns _ _ _ _ _ _ => false
  | _ => !merges i

/-- Destinations examined without a read port (R141): merging with a guard, and always in VQNT and VINS. -/
def examinedOf (i : Instr) : List RegId :=
  match i with
  | .vqnt _ d _ _ _ _ => [.v d]
  | .vins _ d _ _ _ => [.v d]
  | .vfma _ _ _ _ _ _ => []
  | _ => if merges i && guardOf i != 0 then destsOf i else []

/-- The h register that SHAPE writes (R56). -/
def hDestOf : Instr → Option (BitVec 4)
  | .shape _ h _ => some h
  | _ => none

/-- Every register that counts as written for rule 1 of R56: destinations, and MOV's source (R132). -/
def writesOf (i : Instr) : List RegId :=
  match i with
  | .mov _ _ a => .s a :: destsOf i
  | .movPredicate _ _ a => .p a :: destsOf i
  | _ => destsOf i

/-- Whether the guard suppresses the instruction, given the guard's value (R41). -/
def suppressedBy (s : State) (i : Instr) : Bool := wholeGuard i && !(rdP s (guardOf i)).toNat.testBit 0

/-- Whether element `e` of width `w` is enabled (R35, R141). -/
def enabled (s : State) (g : BitVec 4) (w e : Nat) : Bool := g == 0 || active (rdP s g) w e

/-- The value of a second source: the register, or the literal sign-extended (R43, R125). -/
def rdSrc2 (s : State) : Src2 → Word
  | .reg b => rdS s b
  | .lit x => x.signExtend 64

/-- Bytes of an access size (R44). -/
def szBytes : Sz → Nat
  | .b1 => 1 | .b2 => 2 | .b4 => 4 | .b8 => 8

/-- Bytes of an atomic's width. -/
def w2Bytes : W2 → Nat
  | .w32 => 4 | .w64 => 8

/-- Effective address of format M (R44, R203). -/
def eaM (s : State) (a : BitVec 6) (o : BitVec 8) (unit : Nat) : Word := rdS s a + BitVec.ofInt 64 (o.toInt * unit)

/-- Lanes of a gather or scatter: 16 for i64, else 32 (R203). -/
def lanesOf (t : Ty) : Nat := if t.width = 64 then 16 else 32

/-- Bytes of a lane. -/
def laneBytes (t : Ty) : Nat := t.width / 8

/-- Effective address of lane `i` of format G (R203). -/
def eaG (s : State) (a : BitVec 6) (iv : BitVec 5) (t : Ty) (i : Nat) : Word :=
  rdS s a + BitVec.ofNat 64 (bitsOf (rdV s iv).toNat (32 * i) 32 * laneBytes t)

end Sys2Proof.Machine
end

