-- ==== Sys2Proof/Machine/Flags.lean ====
section
/-! DEFINITION. Conditions and the predicates they write (R13, R120, R121, R129, R135, R146). The device has no flags register. -/

namespace Sys2Proof.Machine

/-- A condition of CMP and CMPI on 64-bit values (R129). -/
def cmpHolds (c : CmpC) (a b : Word) : Bool :=
  match c with
  | .eq => a == b
  | .ne => a != b
  | .lt => a.slt b
  | .le => a.sle b
  | .ltu => a.ult b
  | .leu => a.ule b

/-- All ones or all zeros (R129). -/
def flagP (b : Bool) : PVal := if b then BitVec.allOnes 128 else 0

/-- A condition of FCMP on f32 bits (R135). -/
def fcmpHolds (f : FcmpF) (a b : Nat) : Bool :=
  let x := decodeF fmtF32 a
  let y := decodeF fmtF32 b
  match f with
  | .eq => x.eqv y
  | .lt => x.lt y
  | .le => x.lt y || x.eqv y
  | .un => x.isNan || y.isNan

/-- A condition of VCMP on element bits (R146). -/
def vcmpHolds (t : Ty) (c : VcmpC) (a b : Nat) : Bool :=
  let x := valueOf t a
  let y := valueOf t b
  match c with
  | .eq => x.eqv y
  | .ne => !x.eqv y
  | .lt => x.lt y
  | .le => x.lt y || x.eqv y
  | .gt => y.lt x
  | .ge => y.lt x || x.eqv y
  | .un => x.isNan || y.isNan

/-- The prefix mask of PSET for elements of `w` bits (R121). -/
def prefixP (w n : Nat) : PVal := packGroups w ((upto (1024 / w)).map fun i => decide (i < n))

/-- PLOG: bit (2a + b) of the truth table for each pair of bits (R120). -/
def plogP (t : BitVec 4) (a b : PVal) : PVal :=
  (if t[3] then a &&& b else 0) ||| (if t[2] then a &&& ~~~b else 0) ||| (if t[1] then ~~~a &&& b else 0) ||| (if t[0] then ~~~a &&& ~~~b else 0)

end Sys2Proof.Machine
end

