-- ==== Sys2Proof/Machine/NearEng.lean ====
section
/-! DEFINITION. The near-memory engine: near addresses (R204), stores and atomics on their way to a slice (R207 to R210, R219), the arithmetic of atomics (R215). -/

namespace Sys2Proof.Machine

/-- The slice that a near address names for a strand (R204). -/
def nearSlice (t : Strand) (a : Nat) : Nat := if bit a 26 then t.lidx.toNat else bitsOf a 20 6

/-- Byte offset of a near address (R204). -/
def nearOff (a : Nat) : Nat := bitsOf a 0 20

/-- Bytes of a gang's allocation in each slice (R303). -/
def nearLimit (g : Gang) : Nat := g.task.nearsz * 4096

/-- The bounds check of R204 for `n` bytes at an address of `k` bits: true when it passes. -/
def nearIn (g : Gang) (t : Strand) (a n : Nat) : Bool :=
  a >>> 27 == 0 && (bit a 26 || decide (nearSlice t a < g.task.nstr)) && decide (nearOff a + n ≤ nearLimit g)

/-- Physical near byte address of an offset in a slice of the gang (R303). -/
def slicePhys (g : Gang) (slice off : Nat) : Nat :=
  match g.alloc[slice]? with
  | some p => nearAddr p.1 (p.2 + off)
  | none => 0

/-- Physical near byte address of a near address. -/
def nearPhys (g : Gang) (t : Strand) (a : Nat) : Nat := slicePhys g (nearSlice t a) (nearOff a)

/-- The new value of an atomic on `w`-byte patterns (R215). -/
def atomNew (z : W2) (f : AtomF) (old b : Nat) : Nat :=
  let n := 8 * w2Bytes z
  match f with
  | .add => (old + b) % 2 ^ n
  | .and => old &&& b
  | .or => old ||| b
  | .xor => old ^^^ b
  | .min => if sxNat b n < sxNat old n then b else old
  | .max => if sxNat old n < sxNat b n then b else old
  | .swap => b
  | .fadd => faddB fmtF32 old b

/-- The value an atomic leaves at its address (R215). -/
def atomStore (z : W2) (op : AtomOp) (old : Nat) : Nat :=
  let n := 2 ^ (8 * w2Bytes z)
  match op with
  | .rmw f b => atomNew z f old (b.toNat % n)
  | .cas c v => if old = c.toNat % n then v.toNat % n else old

/-- The value an atomic returns: sign-extended at 4 bytes, except fadd (R215). -/
def atomResult (z : W2) (op : AtomOp) (old : Nat) : Word :=
  match z, op with
  | .w64, _ => BitVec.ofNat 64 old
  | .w32, .rmw .fadd _ => BitVec.ofNat 64 old
  | .w32, _ => sx64 old 32

/-- One lane of STNS into the bytes it finds (R209). -/
def scatterValue (o : ScatF) (t : Ty) (old d : Nat) : Nat :=
  match o with
  | .plain => d
  | .add => if t = .f32 then faddB fmtF32 old d else wrapN (intVal t old + intVal t d) t.width
  | .min => if t = .f32 then fminB fmtF32 old d else if intVal t d < intVal t old then d else old
  | .max => if t = .f32 then fmaxB fmtF32 old d else if intVal t old < intVal t d then d else old

/-- Perform STNS lanes at physical addresses, in ascending lane order (R209). -/
def scatterLanes (s : State) (job : Nat) (o : ScatF) (t : Ty) (lanes : List (Nat × Nat)) : State :=
  lanes.foldl (fun s l =>
    let k := laneBytes t
    nearWrite s job l.1 (leBytes k (scatterValue o t (leNat (nearBytes s job l.1 k)) l.2))) s

/-- The bank and the row of a near byte (R206, R304). -/
def bankOf (a : Nat) : Nat × Nat := (bitsOf a 6 5, bitsOf a 11 9)

/-- The banks, each with its row, that `n` bytes from an address lie in. -/
def banksOf (a n : Nat) : List (Nat × Nat) := if n = 0 then [] else ((upto ((a + n - 1) / 64 - a / 64 + 1)).map fun k => bankOf ((a / 64 + k) * 64)).dedup

/-- Requesters other than its NEAR slot take banks of a core in this ck (R206). -/
def takeBanks (s : State) (core : Nat) (bs : List (Nat × Nat)) : State := if bs.isEmpty then s else updCore s core fun c => { c with banks := c.banks ++ bs }

/-- The banks that a near operation occupies at its slice (R304). -/
def nearBanks (o : NearOp) : List (Nat × Nat) :=
  match o.what with
  | .store bs => (bs.map fun b => bankOf b.1).dedup
  | .scatter _ t lanes => (lanes.flatMap fun l => banksOf l.1 (laneBytes t)).dedup
  | .atomic z _ _ _ => banksOf o.loc (w2Bytes z)

/-- Perform a near operation at its slice (R209, R219). The answer of an atomic leaves in the ck after `due`, in which its command is to have reached the slice (R207). -/
def performNear (s : State) (o : NearOp) (due : Nat) : State :=
  let job := match getGang s o.gid with | some g => g.job | none => 0
  match o.what with
  | .store bs => bs.foldl (fun s b => nearWrite s job b.1 [b.2]) s
  | .scatter f t lanes => scatterLanes s job f t lanes
  | .atomic z f b tag =>
    let old := leNat (nearBytes s job o.loc (w2Bytes z))
    let s1 := nearWrite s job o.loc (leBytes (w2Bytes z) (atomStore z (.rmw f b) old))
    deliverIn s1 (due - s.clock + 1) o.sid tag (.value ((atomResult z (.rmw f b) old).setWidth 1024))

/-- Remove an operation from the fences that wait for it (R111, R321). -/
def clearFence (s : State) (sid id : Nat) : State :=
  updStrand s sid fun t => { t with nearFence := t.nearFence.filter (· != id), acqFence := t.acqFence.filter (· != id) }

/-- The ck in which a near operation is to reach its slice. -/
def nearDue (s : State) (o : NearOp) : Nat := match s.timers.find? (fun t => t.ev == .nearAtomicApply o.id) with
  | some t => max s.clock t.due
  | none => s.clock

/-- Perform, in order, the near operations of a strand that satisfy `p` (R210). -/
def drainNear (s : State) (sid : Nat) (p : NearOp → Bool) : State :=
  let mine := s.nearOps.filter fun o => o.sid == sid && o.sent && p o
  mine.foldl (fun s o => clearFence (performNear { s with nearOps := s.nearOps.filter fun x => x.id != o.id } o (nearDue s o)) sid o.id) s

/-- Every near operation of the strand to one slice, so that a later access there sees it (R210). -/
def drainSlice (s : State) (sid slice : Nat) : State := drainNear s sid fun o => o.slice == slice

/-- Every near operation of the strand. -/
def drainAll (s : State) (sid : Nat) : State := drainNear s sid fun _ => true

/-- Queue a near operation for another slice: it is performed after a variable time (R207, R210). -/
def sendNear (s : State) (t : Strand) (slice loc : Nat) (w : NearWhat) (ev : Nat → Instr) : State :=
  let i := takeId s
  later { i.2 with nearOps := i.2.nearOps ++ [⟨i.1, t.sid, t.gid, slice, loc, w, true⟩] } (ev i.1)

/-- Perform a near store of a strand at once in its own slice, or send it to another (R305). -/
def nearPut (s : State) (t : Strand) (slice loc : Nat) (w : NearWhat) : State :=
  if slice = t.lidx.toNat then performNear (drainSlice s t.sid slice) ⟨0, t.sid, t.gid, slice, loc, w, true⟩ s.clock
  else sendNear s t slice loc w .nearStorePerformed

/-- Store bytes for a strand at physical addresses of one slice: at once in its own slice, on their way otherwise (R305). -/
def nearStore (s : State) (t : Strand) (slice : Nat) (loc : Nat) (bs : List Byte) : State :=
  if slice = t.lidx.toNat then nearWrite (drainSlice s t.sid slice) (jobNum s t) loc bs
  else sendNear s t slice loc (.store (bs.zipIdx.map fun p => (loc + p.2, p.1))) .nearStorePerformed

/-- Read `n` near bytes for a strand: its earlier stores to the slice are performed first (R210). -/
def nearLoad (s : State) (g : Gang) (t : Strand) (a n : Nat) : State × List Byte :=
  let s1 := drainSlice s t.sid (nearSlice t a)
  (s1, nearBytes s1 g.job (nearPhys g t a) n)

/-- The core whose slice a near operation reaches. -/
def nearCore (o : NearOp) : Nat := o.loc / 2 ^ 20

/-- Whether a near operation comes from another core than its slice's (R305). -/
def fromAfar (s : State) (o : NearOp) : Bool := match getStrand s o.sid with
  | some t => o.slice != t.lidx.toNat
  | none => true

/-- An operation reaches its slice: every earlier one of its strand to that slice is performed, then this one (R210). From another core it takes its banks before the core's NEAR slot (R206). -/
def arriveNear (s : State) (id : Nat) : State :=
  match s.nearOps.find? (fun o => o.id == id) with
  | none => s
  | some o =>
    let s1 := drainNear s o.sid fun x => x.slice == o.slice && decide (x.id < id)
    let s2 := clearFence (performNear { s1 with nearOps := s1.nearOps.filter fun x => x.id != id } o s.clock) o.sid id
    if fromAfar s o then takeBanks s2 (nearCore o) (nearBanks o) else s2

/-- A pending near store reaches its slice and is performed there, in the order of R210. -/
def execNearStorePerformed (id : Nat) (s : State) : Out State := .next (arriveNear s id)

/-- A near atomic reaches its slice and is applied among the slice's accesses in bundle order (R219). -/
def execNearAtomicApply (id : Nat) (s : State) : Out State := .next (arriveNear s id)

/-- The ck that an access to another slice takes at most: 40, and 1 for each access from another core queued ahead of it at its banks (R207). -/
def nearLimitCk (s : State) (locs : List Nat) : Nat :=
  40 + (s.nearOps.filter fun o => fromAfar s o && o.sent && locs.any fun a => nearCore o == a / 2 ^ 20 && (nearBanks o).any fun b => b.1 == (bankOf a).1).length

/-- An ATMN for another slice reaches it, so that its answer, 1 ck later, is there within the limit of R207. -/
def nearSoon (s : State) (loc : Nat) (ev : Instr) : State :=
  after { s with fresh := s.fresh + 1 } (1 + Config.delay s.fresh % (nearLimitCk s [loc] - 1)) ev

end Sys2Proof.Machine
end

