-- ==== Sys2Proof/Machine/FarEng.lean ====
section
/-! DEFINITION. The far-memory engine: gated lines (R212, R346), far loads at their owner (R213, R214), walks and the TLB (R338 to R341), far atomics and their placement (R216 to R218). -/

namespace Sys2Proof.Machine

/-! ## Gated lines -/

/-- Put a byte into a line entry. -/
def setLineByte (l : GatedLine) (o : Nat) (b : Byte) : GatedLine :=
  { l with mask := l.mask ||| BitVec.ofNat 64 (2 ^ o)
           data := (l.data &&& ~~~(BitVec.ofNat 512 (255 <<< (8 * o)))) ||| BitVec.ofNat 512 (b.toNat <<< (8 * o)) }

/-- Whether an entry holds bytes of the line of an address (R212): own device number and 0xFFF name one line (R306). -/
def holdsLine (s : State) (va : Word) (g : GatedLine) : Bool := canon s g.line == canon s (lineOf va)

/-- Gate one byte: it merges into its line's entry, or takes a new one (R212). -/
def gateByte (s : State) (t : Strand) (va : Word) (b : Byte) : Strand :=
  let o := va.toNat % 64
  if t.gated.any (holdsLine s va) then { t with gated := updFirst (holdsLine s va) (fun g => setLineByte g o b) t.gated }
  else { t with gated := t.gated ++ [setLineByte ⟨lineOf va, 0, 0⟩ o b] }

/-- Gate consecutive bytes. -/
def gateBytes (s : State) (t : Strand) (va : Word) : List Byte → Strand
  | [] => t
  | b :: bs => gateBytes s (gateByte s t va b) (va + 1) bs

/-- The strand's own gated byte at an address (R213). -/
def gatedByte (s : State) (t : Strand) (va : Word) : Option Byte :=
  (t.gated.find? (holdsLine s va)).bind fun g =>
    let o := va.toNat % 64
    if g.mask.toNat.testBit o then some (BitVec.ofNat 8 (g.data.toNat >>> (8 * o))) else none

/-- The gated bytes of a range. -/
def gatedIn (s : State) (t : Strand) (va : Word) (n : Nat) : List (Word × Byte) :=
  (upto n).filterMap fun i => (gatedByte s t (va + BitVec.ofNat 64 i)).map fun b => (va + BitVec.ofNat 64 i, b)

/-- Addresses of a line that its mask covers, with their bytes. -/
def lineBytes (g : GatedLine) : List (Word × Byte) :=
  (upto 64).filterMap fun o => if g.mask.toNat.testBit o then some (g.line + BitVec.ofNat 64 o, BitVec.ofNat 8 (g.data.toNat >>> (8 * o))) else none

/-- The line entries a store of `n` bytes would newly need (R212). -/
def newLines (s : State) (t : Strand) (va : Word) (n : Nat) : Nat :=
  let first := lineOf va
  let last := lineOf (va + BitVec.ofNat 64 (n - 1))
  let miss (l : Word) : Nat := if t.gated.any (holdsLine s l) then 0 else 1
  if first = last then miss first else miss first + miss last

/-- Count a gated store, and the data it gates under FAULTINJ (R346): `n` is its size in bytes. -/
def injectStore (s : State) (t : Strand) (x : Nat) (n : Nat) : Nat × Strand :=
  let c := t.storeCount + 1
  let ord := wbits t.faultinj 2 30
  let idx := match gangOf s t with | some g => g.ridx.toNat | none => 0
  let b := wbits t.faultinj 32 6 % (8 * min n 8)
  if ord ≠ 0 ∧ c = ord then
    (if idx = wbits t.faultinj 0 2 then x ^^^ 2 ^ b else x, { t with storeCount := c, faultinj := t.faultinj &&& ~~~(0xFFFFFFFC : Word) })
  else (x, { t with storeCount := c })

/-! ## Loads -/

/-- The result of a load from the bytes it has read (R208, R213). -/
def loadValue (k : LoadKind) (lanes : List (Word × Nat)) (get : Word → Byte) : VVal :=
  let bytesAt (l : Word × Nat) : Nat := leNat ((upto l.2).map fun i => get (l.1 + BitVec.ofNat 64 i))
  match k with
  | .s _ | .v => match lanes with
    | l :: _ => BitVec.ofNat 1024 (bytesAt l)
    | [] => 0
  | .g t mask old =>
    let n := lanesOf t
    let olds := velems t.width old
    -- `lanes` holds the enabled lanes only, in ascending order
    let vals := (mask.zip olds).foldl (fun (acc : List Nat × List (Word × Nat)) p =>
      if p.1 then (match acc.2 with | l :: r => (acc.1 ++ [bytesAt l], r) | [] => (acc.1 ++ [0], [])) else (acc.1 ++ [p.2], acc.2)) ([], lanes)
    ofElems t.width (vals.1.take n)

/-- Whether two accesses touch one 64-byte line. -/
def sameLine (s : State) (a b : List (Word × Nat)) : Bool :=
  a.any fun x => b.any fun y => (upto 2).any fun i => (upto 2).any fun j =>
    canon s (lineOf (x.1 + BitVec.ofNat 64 ((x.2 - 1) * i))) == canon s (lineOf (y.1 + BitVec.ofNat 64 ((y.2 - 1) * j)))

/-- Whether an earlier load or atomic of the strand to a line of this load is still unbound or unplaced (R317 rule 3). -/
def loadBlocked (s : State) (l : FarLoad) : Bool :=
  s.farLoads.any (fun x => x.sid == l.sid && decide (x.id < l.id) && !x.done && sameLine s x.lanes l.lanes) ||
  s.farAtoms.any fun a => a.sid == l.sid && decide (a.id < l.id) && sameLine s [(a.va, w2Bytes a.w)] l.lanes

/-- The pages of a load that miss: it waits for the walk of each (R339). -/
def missed (s : State) (asid : Nat) (lanes : List (Word × Nat)) : List Word :=
  (lanes.filter fun l => match translate s asid l.1 .load with
    | .error k => k == kWalk
    | .ok _ => false).map (·.1)

/-- An event that an answered walk sets free runs in this ck, once. -/
def runJoined (s : State) (ev : Instr) : State :=
  match ev with
  | .bundleIssue _ => s
  | _ => if s.timers.any (fun t => t.ev == ev && decide (t.due ≤ s.clock)) then s else after s 0 ev

/-- A walk answers every request that joined it (R340). -/
def answerWalk (s : State) (w : Walk) (what : GotWhat) : State :=
  w.joined.foldl runJoined { s with got := s.got ++ w.joined.map fun ev => ⟨ev, w.asid, BitVec.ofNat 64 w.off, what⟩ }

/-- What a walk from the root finds for an offset (R333, R339). -/
def walkFinds (s : State) (die asid off : Nat) : GotWhat :=
  match walkLevels s off [0, 1, 2, 3] (tableAddr (asidWord s die asid)) with
  | .ok (l, e) => .leaf die l e
  | .error k => .bad die k

/-- Fill the TLB of a die with a leaf that is not HOLD (R338). -/
def fillTlb (s : State) (die asid off : Nat) (what : GotWhat) : State :=
  match what with
  | .leaf _ l e =>
    if bit e.toNat 4 then s
    else updDie s die fun d => { d with tlb := (d.tlb ++ [({ asid := asid, level := l, page := off >>> pageBits l, entry := e } : TlbEnt)]).drop (d.tlb.length + 1 - 32768) }
  | _ => s

/-- A walker is free: the walk that has waited longest starts (R339). -/
def startQueued (s : State) (die : Nat) : State :=
  match (getDie s die).walkQ with
  | [] => s
  | q :: qs => later (updDie s die fun d => { d with walks := d.walks ++ [{ q with gen := d.gen }], walkQ := qs }) (.tlbWalkComplete die q.id)

/-- The end of a walk (R340): with an unchanged generation it fills the TLB and answers what has joined it; else it restarts. -/
def execTlbWalkComplete (die id : Nat) (s : State) : Out State :=
  .next (
    let d := getDie s die
    match d.walks.find? (fun w => w.id == id) with
    | none => s
    | some w =>
      if w.gen ≠ d.gen then
        later (updDie s die fun d => { d with walks := d.walks.map fun x => if x.id = id then { x with gen := d.gen } else x }) (.tlbWalkComplete die id)
      else
        let x := walkFinds s die w.asid w.off
        let s1 := updDie s die fun d => { d with walks := d.walks.filter fun x => x.id != id }
        startQueued (answerWalk (fillTlb s1 die w.asid w.off x) w x) die)

/-- Translate every lane for a load; the first fault in lane order decides. -/
def placeLanes (s : State) (asid : Nat) : List (Word × Nat) → Except XFault (List (Word × Nat × Place))
  | [] => .ok []
  | (va, n) :: ls =>
    match translate s asid va .load with
    | .error k => .error (k, va)
    | .ok p =>
      match placeLanes s asid ls with
      | .error e => .error e
      | .ok r => .ok ((va, n, p) :: r)

/-- The byte of a load: the strand's own gated byte, else the byte bound (R213). -/
def loadByte (l : FarLoad) (va : Word) : Byte :=
  match l.gated.find? (fun p => p.1 == va) with
  | some p => p.2
  | none => match l.bound.find? (fun p => p.1 == va) with
    | some p => p.2
    | none => 0

/-- Slots 5 and 6 fault with the bit of slot 6 (R337). -/
def farSlotMask : BitVec 8 := 0b01000000

/-- Update a load. -/
def updLoad (s : State) (id : Nat) (f : FarLoad → FarLoad) : State := { s with farLoads := updFirst (fun l => l.id == id) f s.farLoads }

/-- Take a load off the list. -/
def dropLoad (s : State) (l : FarLoad) : State := clearFence { s with farLoads := s.farLoads.filter fun x => x.id != l.id } l.sid l.id

/-- Bytes of a lane with their addresses. -/
def laneBytesAt (va : Word) (bs : List Byte) : List (Word × Byte) := bs.zipIdx.map fun b => (va + BitVec.ofNat 64 b.2, b.1)

/-- Whether every byte of a load is bound. -/
def loadBound (l : FarLoad) : Bool := l.lanes.all fun x => (upto x.2).all fun i => l.bound.any fun b => b.1 == x.1 + BitVec.ofNat 64 i

/-- Bytes of a load are bound; with the last of them its answer leaves and arrives after a variable time (R213). -/
def bindPart (s : State) (id : Nat) (va : Word) (bs : List Byte) : State :=
  let s1 := updLoad s id fun l => { l with bound := l.bound ++ laneBytesAt va bs }
  match s1.farLoads.find? (fun l => l.id == id) with
  | none => s1
  | some l =>
    if loadBound l && !l.done then deliverLater (dropLoad s1 l) l.sid l.tag (.value (loadValue l.kind l.lanes (loadByte l))) else s1

/-- A load whose path is lost answers LINK, without a rollback (R396). -/
def linkLoad (s : State) (id : Nat) : State :=
  match s.farLoads.find? (fun l => l.id == id) with
  | none => s
  | some l => deliverNow (dropLoad s l) l.sid l.tag (.poison .link)

/-- Send the lanes of a load that other packages own, once (R396). -/
def sendLanes (s : State) (asid : Nat) (l : FarLoad) (lanes : List (Word × Nat)) : State :=
  (lanes.flatMap fun x => pieces x.1 x.2).foldl (fun s x => sendReq s (farDev x.1) (.load l.id x.1 x.2) fun rid => .read rid asid x.1 x.2 0 false (l.sid, crecOf s (some l.sid))) s

/-- Whether the stack of an HBM address has been mapped out (R431). -/
def stackGone (s : State) (addr : Nat) : Bool := s.mapped.contains (.stack (addr / 2 ^ 36)) || s.mapped.contains (.die (addr / 2 ^ 36))

/-- A load whose owner or frame stands in a mapped-out unit answers ENGINE (R282). -/
def engineLoad (s : State) (id : Nat) : State :=
  match s.farLoads.find? (fun l => l.id == id) with
  | none => s
  | some l => deliverNow (dropLoad s l) l.sid l.tag (.poison .engine)

/-- A FAULT answer is on its way to the core, with the owner's generation (R214, R342). -/
def faultLoad (s : State) (l : FarLoad) (e : XFault) (gen : BitVec 32) : State :=
  later (updLoad s l.id fun x => { x with done := true, fault := some (e.1, e.2, gen) }) (.faultRollback l.sid e.1 e.2 farSlotMask)

/-- Bind the lanes whose frames the owner has found: here, or in the frame of another package (R344). A mapped-out stack or a soft error answers ENGINE (R282, R307). -/
def bindLanes (s : State) (asid id : Nat) (ps : List (Word × Nat × Place)) : State :=
  ps.foldl (fun s p =>
    match p.2.2.dev with
    | none => if stackGone s p.2.2.addr || hbmSpoiled s p.2.2.addr p.2.1 then engineLoad s id else bindPart s id p.1 (hbmRead s (keyOf s asid) p.2.2.addr p.2.1)
    | some d => if pathLost s d then linkLoad s id else sendReq s d (.load id p.1 p.2.1) fun rid => .frameRead rid asid p.2.2.addr p.2.1) s

/-- A far load reaches its owner: it misses and joins walks, is bound, or faults (R213, R214, R339). -/
def execFarLoadTranslate (id : Nat) (s : State) : Out State :=
  .next (
    match s.farLoads.find? (fun l => l.id == id) with
    | none => s
    | some l =>
      match getStrand s l.sid with
      | none => s
      | some t =>
        let asid := asidOf s t
        let far := l.lanes.filter fun x => isRemote s x.1
        let here := l.lanes.filter fun x => !isRemote s x.1
        if l.done then s
        else if loadBlocked s l then later s (.farLoadTranslate id)
        else if !l.remote && far.any (fun x => pathLost s (farDev x.1)) then linkLoad s id
        else
          let s1 := if l.remote then s else sendLanes (updLoad s id fun l => { l with remote := true }) asid l far
          match placeLanes s asid here with
          | .ok ps => bindLanes s1 asid id ps
          | .error e =>
            if e.1 = kWalk then (missed s asid here).foldl (fun s va => joinWalk s (farDie va) asid (farOff va) (.farLoadTranslate id)) s1
            else faultLoad s1 l e (faultGen s asid e))

/-- Issue a far load of the strand at issue (R213). -/
def issueLoad (s : State) (tag : Option Tag) (k : LoadKind) (lanes : List (Word × Nat)) : State :=
  let i := takeId s
  let l : FarLoad :=
    { id := i.1, sid := s.me.sid, tag := tag, window := s.me.window, kind := k, lanes := lanes, gated := lanes.flatMap fun l => gatedIn s s.me l.1 l.2
      bound := [], remote := false, done := false, fault := none }
  if lanes = [] then deliverLater s s.me.sid tag (.value (loadValue k [] fun _ => 0))
  else later { i.2 with farLoads := i.2.farLoads ++ [l], me := { i.2.me with farLoaded := true } } (.farLoadTranslate i.1)

/-- A near-bound copy whose far source has faulted (R233). -/
def faultCopy (s : State) (sid : Nat) (f : XFault) : Option CopyOp :=
  (s.cores.flatMap (·.copies)).find? fun c => c.sid == sid && c.fault.map (fun g => (g.1, g.2.1)) == some f

/-- A load whose owner has answered FAULT (R214). -/
def faultedLoad (s : State) (sid : Nat) (f : XFault) : Option FarLoad :=
  s.farLoads.find? fun l => l.sid == sid && l.fault.map (fun g => (g.1, g.2.1)) == some f

/-- The generation in a FAULT answer. -/
def answerGen (x : Option (BitVec 4 × Word × BitVec 32)) : BitVec 32 := match x with
  | some f => f.2.2
  | none => 0

/-- A FAULT answer reaches the core: rollback, unless its window has been discarded (R214, R233, R337, R345). A strand that has trapped with its window kept rolls back too. -/
def execFaultRollback (sid : Nat) (kind : BitVec 4) (addr : Word) (mask : BitVec 8) (s : State) : Out State :=
  .next (
    match getStrand s sid with
    | none => s
    | some t =>
      match faultedLoad s sid (kind, addr) with
      | some l =>
        let s1 := dropLoad s l
        let s2 := if l.window = t.window && t.st != .done then faultStrand s1 t (kind, addr) mask 0 (answerGen l.fault) else s1
        deliverNow s2 sid l.tag (.poison .fault)
      | none =>
        match faultCopy s sid (kind, addr) with
        | none => s
        | some c => if c.window = t.window && t.st != .done then faultStrand s t (kind, addr) mask 3 (answerGen c.fault) else s)

/-! ## Atomics -/

/-- Whether every earlier atomic of the strand has been placed (R217). -/
def atomFirst (s : State) (a : FarAtom) : Bool := !(s.farAtoms.any fun x => x.sid == a.sid && decide (x.id < a.id))

/-- Whether an earlier load of the strand to the atomic's line is still unbound (R317 rule 3). -/
def atomBlocked (s : State) (a : FarAtom) : Bool :=
  s.farLoads.any fun x => x.sid == a.sid && decide (x.id < a.id) && !x.done && sameLine s x.lanes [(a.va, w2Bytes a.w)]

/-- Take an atomic off the list: it is placed, or counts as placed. -/
def dropAtom (s : State) (a : FarAtom) : State := clearFence { s with farAtoms := s.farAtoms.filter fun x => x.id != a.id } a.sid a.id

/-- The update of an atomic at its place (R215): the old value, and the bytes after it. -/
def applyAtom (s : State) (asid addr : Nat) (w : W2) (op : AtomOp) : Nat × State :=
  let n := w2Bytes w
  let old := leNat (hbmRead s (keyOf s asid) addr n)
  (old, hbmWrite s (keyOf s asid) addr (leBytes n (atomStore w op old)))

/-- An atomic is placed; its old value is delivered (R216). -/
def placeAtomAt (s : State) (a : FarAtom) (asid : Nat) (p : Place) : State :=
  let r := applyAtom s asid p.addr a.w a.op
  deliverLater (dropAtom r.2 a) a.sid a.tag (.value ((atomResult a.w a.op r.1).setWidth 1024))

/-- A lost path: the future is poisoned LINK, and the atomic counts as placed (R396). -/
def linkAtom (s : State) (a : FarAtom) : State := deliverNow (dropAtom s a) a.sid a.tag (.poison .link)

/-- An atomic at a mapped-out unit answers ENGINE (R282). -/
def engineAtom (s : State) (a : FarAtom) : State := deliverNow (dropAtom s a) a.sid a.tag (.poison .engine)

/-- An atomic faults at its owner: it is held there unplaced (R218, R343). -/
def holdAtom (s : State) (a : FarAtom) (asid : Nat) (t : Strand) (k : BitVec 4) : State :=
  let seq := (getDie s (farDie a.va)).nextSeq
  let s1 := postDesc s (k, a.va) asid 2 (some a.sid) (some ⟨.farFault, farSlotMask, k.setWidth 16, a.cpt, t.window, a.va⟩) [.atomic a.id]
  later { s1 with farAtoms := s1.farAtoms.map fun x => if x.id = a.id then { x with held := some seq, fkind := k } else x } (.atomicFaultRollback a.id)

/-- Send an atomic to another package. -/
def sendAtom (s : State) (a : FarAtom) (d : BitVec 12) (mk : Nat → Packet) : State :=
  if pathLost s d then linkAtom s a
  else sendReq { s with farAtoms := s.farAtoms.map fun x => if x.id = a.id then { x with remote := true } else x } d (.atomic a.id) mk

/-- An atomic translates at its owner, and is placed once every earlier atomic of the strand is placed (R216, R217). -/
def execAtomicPlacement (id : Nat) (s : State) : Out State :=
  .next (
    match s.farAtoms.find? (fun a => a.id == id) with
    | none => s
    | some a =>
      match getStrand s a.sid with
      | none => s
      | some t =>
        let asid := asidOf s t
        let early := !atomFirst s a || atomBlocked s a
        if !a.sent || a.held.isSome || a.remote then s
        else if isRemote s a.va then
          if early then later s (.atomicPlacement id) else sendAtom s a (farDev a.va) fun rid => .atomic rid asid a.va a.w a.op (a.sid, t.crec)
        else
          match translate s asid a.va .store with
          | .ok p =>
            if early then later s (.atomicPlacement id)
            else
              match p.dev with
              | none => if stackGone s p.addr || hbmSpoiled s p.addr (w2Bytes a.w) then engineAtom s a else placeAtomAt s a asid p
              | some d => sendAtom s a d fun rid => .frameAtomic rid asid p.addr a.w a.op
          | .error k => if k = kWalk then joinWalk s (farDie a.va) asid (farOff a.va) (.atomicPlacement id) else holdAtom s a asid t k)

/-- The strand at the commit point of an atomic: what it awaits there stays when no later commit point has come (R218). -/
def backTo (cpt : Word) (last : Bool) (t : Strand) : Strand :=
  if last && t.cpt == cpt then t else { t with cpt := cpt, cdone := false, remain := .none }

/-- The core learns that an atomic has faulted: later atomics answer NOTDONE, and the strand and its replicas roll back to the atomic's commit point (R218, R358). An answer without a destination is dropped like one whose register no longer waits. -/
def execAtomicFaultRollback (id : Nat) (s : State) : Out State :=
  .next (
    match s.farAtoms.find? (fun a => a.id == id) with
    | none => s
    | some a =>
      match getStrand s a.sid with
      | none => s
      | some t =>
        let gone := s.farAtoms.filter fun x => x.sid == a.sid && decide (a.id < x.id)
        let s1 := gone.foldl dropAtom s
        let s2 := if t.st == .done then s1 else faultRollbackTo s1 a.sid a.fkind a.va farSlotMask (backTo a.cpt gone.isEmpty)
        let s3 := updStrand s2 a.sid fun t => countHere t 7 (gone.filter fun x => x.tag.isNone).length
        gone.foldl (fun s x => deliverLater s x.sid x.tag (.poison .notDone)) s3)

end Sys2Proof.Machine
end

