-- ==== Sys2Proof/Machine/ArrayCell.lean ====
section
/-! DEFINITION. The array cell: configuration word (R182, R183), Ilusal words (R166 to R168, R173, R174) and one step of a cell (R161, R167 to R172). -/

namespace Sys2Proof.Machine

/-! ## The configuration word -/

/-- FLOW (R182): 0 WS, 1 OS, 2 WAVE. -/
def cfgFlow (c : Word) : Nat := wbits c 0 2
/-- SKEW = PRESKEWED (R182). -/
def cfgSkew (c : Word) : Bool := bit c.toNat 2
/-- ADDN (R182). -/
def cfgAddn (c : Word) : Bool := bit c.toNat 3
/-- Active rows (R182). -/
def cfgRows (c : Word) : Nat := wbits c 4 5 + 1
/-- Active columns (R182). -/
def cfgCols (c : Word) : Nat := wbits c 9 5 + 1
/-- PSLOT (R182). -/
def cfgSlot (c : Word) : Nat := wbits c 14 2
/-- WFMT (R182). -/
def cfgW (c : Word) : Option Ty := tyOf (c.extractLsb' 16 4)
/-- XFMT (R182). -/
def cfgX (c : Word) : Option Ty := tyOf (c.extractLsb' 20 4)
/-- INIT (R182). -/
def cfgInit (c : Word) : Nat := wbits c 32 32

/-- The row of R183 that flow and formats match, 1 to 9. -/
def cfgRow (c : Word) : Option Nat :=
  let a := wbits c 24 4
  if cfgFlow c = 2 then (if cfgW c = some .i32 ∧ cfgX c = some .i32 ∧ a = 2 then some 9 else none)
  else
    match cfgW c, cfgX c with
    | some .i8, some .i8 => if a = 2 then some 1 else none
    | some .e4m3, some .e4m3 | some .e4m3, some .e5m2 | some .e5m2, some .e4m3 | some .e5m2, some .e5m2 => if a = 9 then some 2 else none
    | some .mx8, some .mx8 => if a = 9 then some 3 else none
    | some .bf16, some .bf16 => if a = 9 then some 4 else none
    | some .f16, some .f16 => if a = 9 then some 5 else none
    | some .f32, some .f32 => if a = 9 then some 6 else none
    | some .i16, some .i16 => if a = 2 then some 7 else none
    | some .bit, some .bit => if a = 2 then some 8 else none
    | _, _ => none

/-- A valid configuration (R183). -/
def cfgValid (c : Word) : Bool :=
  wbits c 30 2 == 0 && cfgFlow c != 3 && (!cfgAddn c || cfgFlow c == 0) && (cfgRow c).isSome

/-- The granule of a format (R183). -/
def granule (t : Option Ty) : Nat :=
  match t with
  | some .f32 | some .i32 => 4
  | _ => 8

/-- g(WFMT). -/
def cfgGw (c : Word) : Nat := granule (cfgW c)
/-- g(XFMT). -/
def cfgGx (c : Word) : Nat := granule (cfgX c)

/-- Whether the configuration is an mx8 row. -/
def cfgMx (c : Word) : Bool := cfgRow c == some 3

/-! ## Ilusal words -/

/-- OP of a word. -/
def wOp (w : Nat) : Nat := bitsOf w 0 4
/-- F of a word. -/
def wF (w : Nat) : Nat := bitsOf w 4 4
/-- DST of a word. -/
def wDst (w : Nat) : Nat := bitsOf w 24 4
/-- IMM16 of a word. -/
def wImm (w : Nat) : Nat := bitsOf w 8 16

/-- A word with no reserved encoding (R166, R168). -/
def wordOk (w : Nat) : Bool :=
  bitsOf w 28 3 == 0 && decide (wDst w ≤ 3) &&
  match wOp w with
  | 0 => wF w == 0 && wImm w == 0 && wDst w == 0
  | 1 => wF w == 0 && wImm w == 0
  | 2 => decide (wF w ≤ 1) && wImm w == 0
  | 3 => decide (wF w ≤ 1) && wImm w == 0
  | 4 => wF w == 0 && wImm w == 0
  | 5 => decide (wF w ≤ 1) && wImm w == 0
  | 6 => decide (wF w ≤ 1) && wDst w == 0
  | 7 => decide (wF w ≤ 1) && wDst w == 0
  | 8 => decide (wF w ≤ 7) && (decide (6 ≤ wF w) || wImm w == 0)
  | 9 => decide (wF w ≤ 5)
  | _ => false

/-- The four words of an image (R166). -/
def imageWords (i : BitVec 128) : List Nat := (upto 4).map fun k => bitsOf i.toNat (32 * k) 32

/-- A word admitted under a configuration (R173, R183). -/
def admitted (c : Word) (w : Nat) : Bool :=
  let row := (cfgRow c).getD 0
  !(cfgFlow c == 1 && wDst w == 3) &&
  match wOp w with
  | 0 | 8 | 9 => true
  | 1 => decide (1 ≤ row) && decide (row ≤ 6)
  | 2 | 5 => row == 7
  | 3 => row == 4
  | 4 => row == 8
  | 6 | 7 => row == 9
  | _ => false

/-- The words that cell (i, j) runs: the slot's image under its masks, four NOP words elsewhere (R190). -/
def cellWords (p : ProgSlot) (i j : Nat) : List Nat :=
  if bit p.rows.toNat i && bit p.cols.toNat j then imageWords p.image else [0, 0, 0, 0]

/-- Whether every word of PSLOT in an active cell is admitted (R189). -/
def slotAdmitted (c : Word) (p : ProgSlot) : Bool :=
  let any := (upto (cfgRows c)).any (fun i => bit p.rows.toNat i) && (upto (cfgCols c)).any fun j => bit p.cols.toNat j
  !any || (imageWords p.image).all (admitted c)

/-! ## One step of a cell -/

/-- sadd16 (R168). -/
def sadd16 (a b : Int) (f : Nat) : Int :=
  if f = 0 ∧ (a = 32767 ∨ b = 32767) then 32767
  else if f = 1 ∧ (a = -32768 ∨ b = -32768) then -32768
  else clampI (-32768) 32767 (a + b)

/-- Strictly better under a sense (R171). -/
def betterI (f : Nat) (a b : Int) : Bool := if f = 0 then decide (a < b) else decide (b < a)

/-- Data of a lane value. -/
def laneData (x : BitVec 72) : Nat := bitsOf x.toNat 0 64
/-- SC of a lane value. -/
def laneSc (x : BitVec 72) : Nat := bitsOf x.toNat 64 8
/-- A lane value from data and scale. -/
def lane72 (d sc : Nat) : BitVec 72 := BitVec.ofNat 72 (d % 2 ^ 64 + (sc % 256) <<< 64)

/-- What a cell sees of its flow in one step. -/
structure CellEnv where
  cfg : Word
  row : Nat
  step : Nat
  w : BitVec 72
  n : BitVec 72
  x : BitVec 72
  nw : Nat
deriving DecidableEq, Repr

/-- What a cell has written so far in a step. -/
structure CellStep where
  l1 : Nat
  t : Nat
  eq : Bool
  e : Option Nat
  s : Option Nat
  code : Option Nat
deriving DecidableEq, Repr

/-- The addend A of the flow (R161); N bits 0-31 in WAVE (R172). -/
def addend (v : CellEnv) (c : CellStep) : Nat := if cfgFlow v.cfg = 1 then c.l1 else bitsOf (laneData v.n) 0 32

/-- Values of the lanes of one side (R169). -/
def laneVals (t : Option Ty) (kind : Bool) (x : BitVec 72) : List FVal :=
  match t with
  | some .mx8 => (elemsOf 8 8 (laneData x)).map (mxValue kind (laneSc x))
  | some .e4m3 | some .e5m2 => (elemsOf 8 8 (laneData x)).map (valueOf (t.getD .e4m3))
  | some .bf16 | some .f16 => (elemsOf 16 4 (laneData x)).map (valueOf (t.getD .bf16))
  | some .f32 => [valueOf .f32 (bitsOf (laneData x) 0 32)]
  | _ => []

/-- DOT (R169): exact products, one rounding of the sum; i8 wraps. -/
def dotStep (v : CellEnv) (a : Nat) : Nat :=
  if cfgRow v.cfg = some 1 then
    let ps := List.zipWith (fun x y => sxNat x 8 * sxNat y 8) (elemsOf 8 8 (laneData v.w)) (elemsOf 8 8 (laneData v.x))
    wrapN (sxNat a 32 + ps.sum) 32
  else
    let ps := List.zipWith FVal.mul (laneVals (cfgW v.cfg) (bit v.cfg.toNat 28) v.w) (laneVals (cfgX v.cfg) (bit v.cfg.toNat 29) v.x)
    ieee fmtF32 (ps.foldl FVal.add (decodeF fmtF32 a))

/-- The i16 sums of the lanes under a sense (R170). -/
def laneSums (v : CellEnv) (f : Nat) : List Int :=
  List.zipWith (fun x y => sadd16 (sxNat x 16) (sxNat y 16) f) (elemsOf 16 4 (laneData v.w)) (elemsOf 16 4 (laneData v.x))

/-- SRADD (R170). -/
def sraddStep (v : CellEnv) (f a : Nat) : Nat := wrapN ((laneSums v f).foldl (fun c x => if betterI f x c then x else c) (sxNat a 16)) 16

/-- fmax or fmin of exact values (R72). -/
def bestF (mx : Bool) (a b : FVal) : FVal :=
  if a.isNan then b
  else if b.isNan then a
  else if mx then (if a.below b then b else a)
  else if b.below a then b else a

/-- SRMUL (R170). -/
def srmulStep (v : CellEnv) (f a : Nat) : Nat :=
  let ps := List.zipWith FVal.mul (laneVals (some .bf16) false v.w) (laneVals (some .bf16) false v.x)
  ieee fmtF32 (ps.foldl (bestF (f == 0)) (decodeF fmtF32 a))

/-- ORAND (R170). -/
def orandStep (v : CellEnv) (a : Nat) : Nat := if a % 2 = 1 ∨ laneData v.w &&& laneData v.x ≠ 0 then 1 else 0

/-- ARG (R170): kappa is the row in WS and the step in OS. -/
def argStep (v : CellEnv) (f a : Nat) : Nat :=
  let kappa := if cfgFlow v.cfg = 0 then v.row else v.step
  let r := (laneSums v f).zipIdx.foldl (fun (c : Int × Nat) x => if betterI f x.1 c.1 then (x.1, (4 * kappa + x.2) % 65536) else c)
    (sxNat a 16, bitsOf a 16 16)
  wrapN r.1 16 + r.2 <<< 16

/-- The sources of MOVE and ADDK (R172). -/
def moveSrc (v : CellEnv) (c : CellStep) (w : Nat) : Nat :=
  match wF w with
  | 0 => 0
  | 1 => c.l1
  | 2 => addend v c
  | 3 => bitsOf (laneData v.w) 0 32
  | 4 => bitsOf (laneData v.n) 0 32
  | 5 => c.t
  | 6 => wrapN (sxNat (wImm w) 16) 32
  | _ => wImm w <<< 16

/-- Write a result to DST (R161, R166). -/
def dstWrite (v : CellEnv) (c : CellStep) (dst res : Nat) : CellStep :=
  let res := res % 2 ^ 32
  match dst with
  | 0 => if cfgFlow v.cfg = 0 then { c with s := some res, l1 := res } else { c with l1 := res }
  | 1 => { c with l1 := res }
  | 2 => { c with t := res }
  | _ => { c with s := some res }

/-- WSUB (R171): the 16-bit sum in T, bits 16 to 31 zero. DESIGN CHOICE, log 52. -/
def wsubStep (v : CellEnv) (c : CellStep) (w : Nat) : CellStep :=
  let eq := bitsOf (laneData v.w) 16 16 == bitsOf (laneData v.n) 16 16
  { c with eq := eq, t := wrapN (sadd16 (sxNat v.nw 16) (sxNat (bitsOf w (if eq then 8 else 16) 8) 8) (wF w)) 16 }

/-- WBEST (R171). -/
def wbestStep (v : CellEnv) (c : CellStep) (w : Nat) : CellStep :=
  let f := wF w
  let n := sadd16 (sxNat (laneData v.n) 16) (sxNat (bitsOf w 8 8) 8) f
  let west := sadd16 (sxNat (laneData v.w) 16) (sxNat (bitsOf w 16 8) 8) f
  let r0 : Int × Nat := (sxNat c.t 16, if c.eq then 0 else 1)
  let r1 := if betterI f n r0.1 then (n, 2) else r0
  let r2 := if betterI f west r1.1 then (west, 3) else r1
  let b := wrapN r2.1 16
  { c with
    e := some (b + bitsOf (laneData v.w) 16 16 <<< 16)
    s := some (b + bitsOf (laneData v.n) 16 16 <<< 16)
    l1 := b
    code := some r2.2 }

/-- One Ilusal word (R168). -/
def runWord (v : CellEnv) (c : CellStep) (w : Nat) : CellStep :=
  let a := addend v c
  match wOp w with
  | 1 => dstWrite v c (wDst w) (dotStep v a)
  | 2 => dstWrite v c (wDst w) (sraddStep v (wF w) a)
  | 3 => dstWrite v c (wDst w) (srmulStep v (wF w) a)
  | 4 => dstWrite v c (wDst w) (orandStep v a)
  | 5 => dstWrite v c (wDst w) (argStep v (wF w) a)
  | 6 => wsubStep v c w
  | 7 => wbestStep v c w
  | 8 => dstWrite v c (wDst w) (moveSrc v c w)
  | 9 => dstWrite v c (wDst w) (wrapN ((moveSrc v c w : Int) + sxNat (wImm w) 16) 32)
  | _ => c

/-- The words of a step in order, through the first END (R167). -/
def runWords (v : CellEnv) (c : CellStep) : List Nat → CellStep
  | [] => c
  | w :: ws => let c' := runWord v c w; if bit w 31 then c' else runWords v c' ws

/-- One step of a cell (R161, R167): the cell after it, with E and S driven, and its traceback code. -/
def cellStep (cfg : Word) (words : List Nat) (row step : Nat) (w n : BitVec 72) (nw : Nat) (c : Cell) : Cell × Option Nat :=
  let v : CellEnv := { cfg := cfg, row := row, step := step, w := w, n := n, x := if cfgFlow cfg = 0 then c.l0 else n, nw := nw }
  let r := runWords v { l1 := c.l1.toNat, t := 0, eq := false, e := none, s := none, code := none } words
  let eOut := match r.e with | some x => lane72 x 0 | none => w
  let sOut := match cfgFlow cfg, r.s with
    | 1, _ => n
    | _, some x => lane72 x 0
    | 0, none => lane72 (bitsOf (laneData n) 0 32) 0
    | _, none => n
  ({ c with l1 := BitVec.ofNat 32 r.l1, e := eOut, s := sOut, wIn := w, nIn := n, hist := (BitVec.ofNat 32 r.l1 :: c.hist).take 64 }, r.code)

end Sys2Proof.Machine
end

