-- ==== Sys2Proof/Machine/Sync.lean ====
section
/-! DEFINITION. Barriers of a gang (R106, R107, R288 to R290), semaphores of a context (R105, R292), and edits of a strand wherever it stands (R32). -/

namespace Sys2Proof.Machine

/-- Edit a strand: in its context, or in its records while it is not resident (R32, R293). A fault holds the event that asks (R433). -/
def editStrand (s : State) (sid : Nat) (ev : Instr) (f : Strand → Strand) : State :=
  match getStrand s sid with
  | none => s
  | some t =>
    if t.st == .done then s
    else if resident t || t.heldTrap.isSome then updStrand s sid f
    else
      match readRecords s t with
      | .error e => holdEvent s e (asidOf s t) 6 none ev
      | .ok u =>
        match devWriteAll s (asidOf s t) (recordWrites s (f u)) with
        | .error e => holdEvent s e (asidOf s t) 7 (some sid) ev
        | .ok s1 => updStrand s1 sid fun _ => f u

/-- The address space of a gang. -/
def gangAsid (s : State) (g : Gang) : Nat := match getJob s g.job with
  | some j => j.asid
  | none => 0

/-! ## Slices of a gang, placed or saved -/

/-- Array checkpoints that a saved gang holds (R378). -/
def savedArrays (g : Gang) : Nat := match g.saved with
  | some v => v.arrays.length
  | none => 0

/-- Far address of a near byte of a saved gang (R378). -/
def saveNear (g : Gang) (slice off : Nat) : Word := g.save + BitVec.ofNat 64 (0x2000 + 0xC000 * savedArrays g + slice * nearLimit g + off)

/-- Read a slice of a gang: near memory, or its save area (R397). -/
def gangRead (s : State) (g : Gang) (slice off n : Nat) : Except XFault (List Byte) :=
  if g.saved.isSome then devRead s (gangAsid s g) (saveNear g slice off) n else .ok (nearBytes s g.job (slicePhys g slice off) n)

/-- Write a slice of a gang: near memory, or its save area. -/
def gangWrite (s : State) (g : Gang) (slice off : Nat) (bs : List Byte) : Except XFault State :=
  if bs = [] then .ok s
  else if g.saved.isSome then devWrite s (gangAsid s g) (saveNear g slice off) bs
  else .ok (nearWrite s g.job (slicePhys g slice off) bs)

/-! ## Barriers -/

/-- A barrier of a gang. -/
def getBarrier (s : State) (gid : Nat) (k : BitVec 4) : Option Barrier := (getGang s gid).map fun g => g.barriers[k.toNat]'(by omega)

/-- A barrier as the gang save area holds it (R378). -/
def barrierBytes (b : Barrier) : List Byte :=
  [packWord [(b.expa.toNat, 0), (if b.bad then 1 else 0, 7), (b.arrived.toNat, 8), (b.drops.toNat, 16), (b.phase.toNat, 32)],
   packWord [(b.expb.toNat, 0), (b.bytes % 2 ^ 32, 32)], 0, 0].flatMap wordBytes

/-- Write a barrier into the save area of its gang; a fault holds the write (R290, R433). -/
def saveBarrier (s : State) (gid : Nat) (k : BitVec 4) : State :=
  match getGang s gid with
  | none => s
  | some g =>
    match devWrite s (gangAsid s g) (g.save + BitVec.ofNat 64 (0x40 + 32 * k.toNat)) (barrierBytes (g.barriers[k.toNat]'(by omega))) with
    | .ok s1 => updGang s1 gid fun g => { g with unsaved := g.unsaved.filter (· != k) }
    | .error e => holdEvent (updGang s gid fun g => { g with unsaved := g.unsaved.filter (· != k) ++ [k] }) e (gangAsid s g) 7 none (.heldEventEntry g.job)

/-- Store a barrier: in its cluster, and in the save area of a gang that is saved (R290). -/
def putBarrier (s : State) (gid : Nat) (k : BitVec 4) (b : Barrier) : State :=
  let s1 := updGang s gid fun g => { g with barriers := g.barriers.set k.toNat b (by omega) }
  match getGang s gid with
  | none => s1
  | some g => if g.saved.isNone then s1 else saveBarrier s1 gid k

/-- Deliver one payload to every waiter of a barrier, in the ck after: no move of the same bundle finds its register FULL (R132). -/
def wakeWaiters (s : State) (b : Barrier) (x : Payload) : State := b.waiters.foldl (fun s w => deliverIn s 1 w.1 w.2 x) s

/-- Complete the phase of a barrier when its arrivals and bytes are there (R107); with EXPA lowered to 0 it never completes (R290). -/
def checkPhase (s : State) (gid : Nat) (k : BitVec 4) : State :=
  match getBarrier s gid k with
  | none => s
  | some b =>
    if b.expa ≠ 0 ∧ b.arrived = b.expa ∧ b.expb.toNat ≤ b.bytes then
      wakeWaiters (putBarrier s gid k { b with phase := b.phase + 1, arrived := 0, bytes := 0, expa := b.expa - b.drops, drops := 0, waiters := [] })
        b (.value (b.phase.setWidth 1024))
    else s

/-- The bytes of a completing copy reach barrier KB (R288). -/
def addBytes (s : State) (gid : Nat) (k : BitVec 4) (n sid : Nat) (dst : Word) : State :=
  match getBarrier s gid k with
  | none => s
  | some b =>
    if b.bad then s
    else if b.expb.toNat < b.bytes + n then
      let s1 := wakeWaiters (putBarrier s gid k { b with bytes := b.bytes + n, bad := true, waiters := [] }) b (.poison .barrier)
      after (updStrand s1 sid fun t => { t with mark := some (k, dst) }) 0 (.barrierBytes sid)
    else checkPhase (putBarrier s gid k { b with bytes := b.bytes + n }) gid k

/-- The strand as its trap must save it: its own context, or its records when it is not resident. -/
def trapView (s : State) (t : Strand) : Except XFault Strand :=
  if resident t || t.heldTrap.isSome then .ok t else readRecords s t

/-- A marked strand traps BARRIER_BYTES at a bundle boundary (R289); no window is discarded. -/
def barrierTrap (s : State) (sid : Nat) : State :=
  match getStrand s sid with
  | none => s
  | some t =>
    match t.mark with
    | none => s
    | some m =>
      if t.closing.isSome || t.st == .faulted || t.st == .done then s
      else
        match trapView s t with
        | .error e => holdEvent s e (asidOf s t) 6 none (.barrierBytes sid)
        | .ok u =>
          takeTrapOn (updStrand s sid fun _ => { u with mark := none }) sid ⟨.barrierBytes, 0, m.1.setWidth 16, u.pc, u.window, m.2⟩ u.pc

/-- A strand marked by a barrier overrun traps at its first bundle boundary (R289). -/
def execBarrierBytes (sid : Nat) (s : State) : Out State := .next (barrierTrap s sid)

/-! ## Semaphores -/

/-- A semaphore of a strand. -/
def getSema (t : Strand) (q : BitVec 4) : Sema := t.q[q.toNat]'(by omega)

/-- Store a semaphore. -/
def putSema (t : Strand) (q : BitVec 4) (x : Sema) : Strand := { t with q := t.q.set q.toNat x (by omega) }

/-- The count after an increment, which stops at 2^32 - 1 (R105). -/
def semaSum (c n : BitVec 32) : BitVec 32 := if 2 ^ 32 ≤ c.toNat + n.toNat then BitVec.allOnes 32 else c + n

/-- Increment a semaphore; a waiting SEMA is tested at the end of the ck (R105). -/
def semaInc (s : State) (sid : Nat) (q : BitVec 4) (n : BitVec 32) (ev : Instr) : State :=
  after (editStrand s sid ev fun t => let x := getSema t q; putSema t q { x with count := semaSum x.count n }) 0 (.semaFill sid q)

/-- Whether the waiting SEMA of a semaphore can take its count. -/
def semaReady (x : Sema) : Bool := x.out && decide (x.await ≤ x.count)

/-- The waiting SEMA takes its count and delivers it (R105). -/
def execSemaFill (sid : Nat) (q : BitVec 4) (s : State) : Out State :=
  .next (
    match getStrand s sid with
    | none => s
    | some t =>
      match trapView s t with
      | .error e => holdEvent s e (asidOf s t) 6 none (.semaFill sid q)
      | .ok u =>
        let x := getSema u q
        if t.st == .done || !semaReady x then s
        else
          let s1 := editStrand s sid (.semaFill sid q) fun t =>
            putSema t q { x with count := x.count - x.await, await := 0, out := false, rid := .s 0, tag := none }
          deliverNow s1 sid x.tag (.value (x.count.setWidth 1024)))

end Sys2Proof.Machine
end

