-- ==== Sys2Proof/Machine/CopyEng.lean ====
section
/-! DEFINITION. The copy engine (R223 to R233): shape records, geometry, checks, reading at COPY_START, completion. -/

namespace Sys2Proof.Machine

/-! ## Shape records (R223) -/

/-- TYPE code. -/
def shTypeCode (h : Shape) : BitVec 4 := h.extractLsb' 0 4
/-- N0. -/
def shN0 (h : Shape) : Nat := bitsOf h.toNat 8 16
/-- N1. -/
def shN1 (h : Shape) : Nat := bitsOf h.toNat 24 16
/-- N2. -/
def shN2 (h : Shape) : Nat := bitsOf h.toNat 40 16
/-- VALID. -/
def shValid (h : Shape) : Bool := bit h.toNat 63
/-- P. -/
def shP (h : Shape) : Nat := bitsOf h.toNat 64 32
/-- P2. -/
def shP2 (h : Shape) : Nat := bitsOf h.toNat 96 32
/-- O2. -/
def shO2 (h : Shape) : Nat := bitsOf h.toNat 128 32
/-- O3. -/
def shO3 (h : Shape) : Nat := bitsOf h.toNat 160 32
/-- PP. -/
def shPP (h : Shape) : Nat := bitsOf h.toNat 192 32
/-- PP2. -/
def shPP2 (h : Shape) : Nat := bitsOf h.toNat 224 32

/-- Width in bytes, taken as 1 for bit (R224). -/
def unitBytes (t : Ty) : Nat := max (t.width / 8) 1

/-- The checks of SHAPE on words 0 to 3 (R224). -/
def shapeOk (w0 : Word) (h : Shape) : Bool :=
  wbits w0 4 4 == 0 && wbits w0 56 8 == 0 && decide (1 ≤ shN0 h) && decide (1 ≤ shN1 h) && decide (1 ≤ shN2 h) &&
  match tyOf (w0.extractLsb' 0 4) with
  | none => false
  | some t =>
    (t != .bit || shN0 h % 8 == 0) && (t != .mx8 || shN0 h % 32 == 0) && shP h % unitBytes t == 0 && shPP h % unitBytes t == 0

/-! ## The command word (R226) -/

/-- QUEUE. -/
def cmQueue (c : Word) : Nat := wbits c 0 2
/-- CONV. -/
def cmConv (c : Word) : Bool := bit c.toNat 2
/-- OVF. -/
def cmOvf (c : Word) : Bool := bit c.toNat 9
/-- TRANS. -/
def cmTrans (c : Word) : Bool := bit c.toNat 10
/-- SKIND. -/
def cmSkind (c : Word) : Bool := bit c.toNat 11
/-- DKIND. -/
def cmDkind (c : Word) : Bool := bit c.toNat 12
/-- KB. -/
def cmKb (c : Word) : BitVec 4 := c.extractLsb' 16 4
/-- KEN. -/
def cmKen (c : Word) : Bool := bit c.toNat 20
/-- SEMQ. -/
def cmSemq (c : Word) : BitVec 4 := c.extractLsb' 21 4
/-- SEN. -/
def cmSen (c : Word) : Bool := bit c.toNat 25

/-- RM as a mode. -/
def cmRm (c : Word) : RMode :=
  match wbits c 7 2 with
  | 0 => .rne
  | 1 => .rtz
  | _ => .sto

/-! ## Geometry (R227, R228) -/

/-- Whether a copy address is near (R225). -/
def caNear (a : Word) : Bool := bit a.toNat 63

/-- Whether a copy is far-bound (R225). -/
def farBound (c : CopyOp) : Bool := !caNear c.dst

/-- The source type; a record that SHAPE built always has one. -/
def copyTy (c : CopyOp) : Ty := (tyOf (shTypeCode c.h)).getD .i8

/-- The destination type: DTYPE when the copy converts. -/
def copyDty (c : CopyOp) : Ty := if cmConv c.cmd then (tyOf (c.cmd.extractLsb' 3 4)).getD (copyTy c) else copyTy c

/-- Element width of the source in bits. -/
def copyWs (c : CopyOp) : Nat := (copyTy c).width
/-- Element width of the destination in bits. -/
def copyWd (c : CopyOp) : Nat := (copyDty c).width

/-- Bytes that `n` elements of `w` bits take. -/
def elBytes (n w : Nat) : Nat := ceilDiv (n * w) 8

/-- Pairs of two index ranges, first index slowest. -/
def pairsOf (m n : Nat) : List (Nat × Nat) := (upto m).flatMap fun a => (upto n).map fun b => (a, b)

/-- Source rows: offset from S and bytes (R227, R228). -/
def srcRows (c : CopyOp) : List (Nat × Nat) :=
  let n := elBytes (shN0 c.h) (copyWs c)
  match c.kind with
  | .copy => (pairsOf (shN2 c.h) (shN1 c.h)).map fun p => (p.1 * shPP c.h + p.2 * shP c.h, n)
  | .gath => c.idx.map fun i => (i * shP c.h, n)
  | .scat => (upto (shN1 c.h)).map fun r => (r * shP c.h, n)

/-- Destination rows: offset from D and bytes (R227, R228). -/
def dstRows (c : CopyOp) : List (Nat × Nat) :=
  match c.kind with
  | .copy =>
    if cmTrans c.cmd then
      (pairsOf (shN2 c.h) (shN0 c.h)).map fun p => (p.1 * shPP2 c.h + p.2 * shP2 c.h, elBytes (shN1 c.h) (copyWd c))
    else (pairsOf (shN2 c.h) (shN1 c.h)).map fun p => (p.1 * shPP2 c.h + p.2 * shP2 c.h, elBytes (shN0 c.h) (copyWd c))
  | .gath => (upto (shN1 c.h)).map fun r => (r * shP2 c.h, elBytes (shN0 c.h) (copyWs c))
  | .scat => c.idx.map fun i => (i * shP2 c.h, elBytes (shN0 c.h) (copyWs c))

/-- Bytes that a list of rows touches, counted from the base. -/
def rowsEnd (rs : List (Nat × Nat)) : Nat := rs.foldl (fun m r => if r.2 = 0 then m else max m (r.1 + r.2)) 0

/-- Lowest byte that a list of rows touches. -/
def rowsStart (rs : List (Nat × Nat)) : Nat :=
  match rs with
  | [] => 0
  | r :: rs => rs.foldl (fun m r => min m r.1) r.1

/-- Whether the source carries scale bytes. -/
def srcScaled (c : CopyOp) : Bool := c.kind == .copy && copyTy c == .mx8
/-- Whether the destination carries scale bytes. -/
def dstScaled (c : CopyOp) : Bool := c.kind == .copy && copyDty c == .mx8

/-- Scale bytes of a list of rows, element by element: the byte at offset x has its scale at x / 32 (R227). -/
def scaleRows (o : Nat) (rs : List (Nat × Nat)) : List (Nat × Nat) := rs.map fun r => (o + r.1 / 32, if r.2 = 0 then 0 else ceilDiv (r.1 % 32 + r.2) 32)

/-- Scale bytes of a list of rows whose blocks of 32 elements start with the row (R227). -/
def blockScales (o : Nat) (rs : List (Nat × Nat)) : List (Nat × Nat) := rs.map fun r => (o + r.1 / 32, ceilDiv r.2 32)

/-- Scale bytes that a copy reads. -/
def srcScales (c : CopyOp) : List (Nat × Nat) := if srcScaled c then scaleRows (shO3 c.h) (srcRows c) else []

/-- Scale bytes that a copy writes: chosen afresh for the blocks of a destination row, or copied with their elements (R227). -/
def dstScales (c : CopyOp) : List (Nat × Nat) := if !dstScaled c then [] else if cmConv c.cmd then blockScales (shO2 c.h) (dstRows c) else scaleRows (shO2 c.h) (dstRows c)

/-- Every range the source side reads. -/
def srcRanges (c : CopyOp) : List (Nat × Nat) := srcRows c ++ srcScales c

/-- Every range the destination side writes. -/
def dstRanges (c : CopyOp) : List (Nat × Nat) := dstRows c ++ dstScales c

/-! ## Near bounds -/

/-- The slice, and the bytes from the offset to the end of the allocation, of a near address held in `k` bits. -/
def nearRoom (g : Gang) (t : Strand) (a : Nat) : Option Nat :=
  if a >>> 27 == 0 && (bit a 26 || decide (nearSlice t a < g.task.nstr)) then some (nearLimit g - nearOff a) else none

/-- The first byte of a near range that fails R204: `n` bytes from `a`, none when it passes or is empty. -/
def nearBad (g : Gang) (t : Strand) (a n : Nat) : Option Nat :=
  if n = 0 then none
  else
    match nearRoom g t a with
    | none => some a
    | some r => if n ≤ r then none else some (a + r)

/-- The near address of a copy address as a number that R204 checks: bits 27 to 62 must be zero. -/
def caBits (a : Word) : Nat := bitsOf a.toNat 0 63

/-- The first near byte of a copy that fails R204 (R228, R229). -/
def copyBad (g : Gang) (t : Strand) (c : CopyOp) : Option Word :=
  let side (a : Word) (n : Nat) : Option Word := if caNear a then (nearBad g t (caBits a) n).map (BitVec.ofNat 64) else none
  let src := if c.kind == .gath then none else side c.src (rowsEnd (srcRanges c))
  let dst := if c.kind == .scat then none else side c.dst (rowsEnd (dstRanges c))
  let idx := if c.kind == .copy then none else (nearBad g t (shO3 c.h) (4 * shN1 c.h)).map (BitVec.ofNat 64)
  src.or (dst.or idx)

/-! ## Checks at issue -/

/-- A malformed command word (R226). -/
def cmBad (c : CopyOp) : Bool :=
  let w := c.cmd
  let d := tyOf (w.extractLsb' 3 4)
  wbits w 26 38 != 0 || wbits w 7 2 == 3 || decide (4 < wbits w 13 3) || d.isNone || (!cmConv w && wbits w 3 4 != 0) ||
  (cmTrans w && (copyTy c == .bit || copyTy c == .mx8 || (cmConv w && (d == some .bit || d == some .mx8))))

/-- What poisons a copy ENGINE at issue (R229). -/
def copyEngine (c : CopyOp) : Bool :=
  !shValid c.h || cmBad c || (c.kind != .copy && decide (1 < shN2 c.h)) || (copyDty c == .mx8 && shN0 c.h % 32 != 0)

/-- What poisons a copy ALIGN at issue (R229). -/
def copyMisaligned (c : CopyOp) : Bool :=
  let s := unitBytes (copyTy c)
  let d := unitBytes (copyDty c)
  let mxS := copyTy c == .mx8
  let mxD := copyDty c == .mx8
  c.src.toNat % s != 0 || c.dst.toNat % d != 0 || shP2 c.h % d != 0 || (c.kind == .copy && shPP2 c.h % d != 0) ||
  (mxS && (c.src.toNat % 32 != 0 || (srcScaled c && shO3 c.h % 32 != 0))) || (mxD && (c.dst.toNat % 32 != 0 || (dstScaled c && shO2 c.h % 32 != 0)))

/-- A range in one space: 0 is near memory by physical address, 1 + ASID a far address space. -/
abbrev SpaceRange := Nat × Nat × Nat

/-- The ranges of rows on one side: one in its slice, or one for each far die that the rows lie in (R231). The package's own number and 0xFFF name the same bytes (R306). -/
def rangesOf (s : State) (g : Gang) (t : Strand) (a : Word) (rs : List (Nat × Nat)) : List SpaceRange :=
  if caNear a then (if g.saved.isSome then [] else let p := nearPhys g t (caBits a); [(0, p + rowsStart rs, p + rowsEnd rs)])
  else
    let at_ (r : Nat × Nat) : Nat := (canon s (a + BitVec.ofNat 64 r.1)).toNat
    let rs := (rs.filter fun r => r.2 != 0).map fun r => (at_ r, r.2)
    ((rs.map fun r => r.1 >>> 45).dedup).map fun d => let mine := rs.filter fun r => r.1 >>> 45 == d; (1 + asidOf s t, rowsStart mine, rowsEnd mine)

/-- The destination ranges of a copy: elements, and scales (R231). -/
def destRanges (s : State) (g : Gang) (t : Strand) (c : CopyOp) : List SpaceRange :=
  rangesOf s g t c.dst (dstRows c) ++ if dstScaled c then rangesOf s g t c.dst (dstScales c) else []

/-- Whether two ranges share a byte. -/
def rangesMeet (a b : SpaceRange) : Bool := a.1 == b.1 && decide (a.2.1 < b.2.2) && decide (b.2.1 < a.2.2)

/-- The gang and strand of a copy. -/
def copyOwner (s : State) (c : CopyOp) : Option (Gang × Strand) :=
  match getStrand s c.sid with
  | none => none
  | some t => match gangOf s t with
    | none => none
    | some g => some (g, t)

/-- Whether the destination overlaps an in-flight copy of another queue (R231). -/
def copyOverlaps (s : State) (g : Gang) (t : Strand) (c : CopyOp) : Bool :=
  (getCore s (coreOf t)).copies.any fun x =>
    cmQueue x.cmd != cmQueue c.cmd &&
    match copyOwner s x with
    | none => false
    | some o => (destRanges s g t c).any fun a => (a.1 == 0 || g.det) && (destRanges s o.1 o.2 x).any fun b => rangesMeet a b

/-- Whether a physical near range is in the destination of a copy in flight on a core (R197, R211). -/
def copyLocked (s : State) (core : Nat) (phys n : Nat) : Bool :=
  (getCore s core).copies.any fun c =>
    caNear c.dst &&
    match copyOwner s c with
    | none => false
    | some o => o.1.saved.isNone && let p := nearPhys o.1 o.2 (caBits c.dst); (dstRanges c).any fun r => decide (p + r.1 < phys + n) && decide (phys < p + r.1 + r.2)

/-- Near bytes of a copy at a copy address: in its slice, or in the save area while its gang is saved (R246). -/
def copyNear (s : State) (g : Gang) (t : Strand) (a off n : Nat) : Except XFault (List Byte) := gangRead s g (nearSlice t a) (nearOff a + off) n

/-- The index list, read from near memory (R228). -/
def readIdx (s : State) (g : Gang) (t : Strand) (h : Shape) : List Nat :=
  match copyNear s g t (shO3 h) 0 (4 * shN1 h) with
  | .ok bs => (upto (shN1 h)).map fun i => natAt bs (4 * i) 4
  | .error _ => []

/-! ## Reading -/

/-- The 64 KiB step that holds an address. -/
def pageOf (va : Word) : Word := va &&& ~~~(0xFFFF : Word)

/-- Where a far byte of a copy stands: the translation its owners keep (R232), else by translation now; none in another package. -/
def copyPlace (s : State) (c : CopyOp) (asid : Nat) (va : Word) (acc : AccKind) : Except XFault (Option Place) :=
  if isRemote s va then .ok none
  else
    match c.xl.find? (fun x => x.1 == pageOf va) with
    | some x => .ok (some ⟨x.2.1 + va.toNat % 65536, x.2.2⟩)
    | none => match translate s asid va acc with
      | .error k => .error (k, va)
      | .ok p => .ok (some p)

/-- Bytes that other packages have answered. -/
def cacheBytes (c : CopyOp) (va : Word) (n : Nat) : List Byte :=
  (upto n).map fun i => match c.cache.find? (fun b => b.1 == va + BitVec.ofNat 64 i) with
    | some b => b.2
    | none => 0

/-- Far bytes of a copy, piece by piece. -/
def farPieces (s : State) (c : CopyOp) (asid : Nat) : List (Word × Nat) → Except XFault (List Byte)
  | [] => .ok []
  | p :: ps =>
    match copyPlace s c asid p.1 .load with
    | .error e => .error e
    | .ok q =>
      match farPieces s c asid ps with
      | .error e => .error e
      | .ok r => .ok ((match q with
          | some ⟨a, none⟩ => hbmRead s (keyOf s asid) a p.2
          | _ => cacheBytes c p.1 p.2) ++ r)

/-- Bytes of a copy's far side. -/
def farCopyBytes (s : State) (c : CopyOp) (asid : Nat) (va : Word) (n : Nat) : Except XFault (List Byte) := farPieces s c asid (pieces va n)

/-- Bytes of one side of a copy at an offset from its base. -/
def copyBytes (s : State) (c : CopyOp) (g : Gang) (t : Strand) (base : Word) (off n : Nat) : Except XFault (List Byte) :=
  if caNear base then copyNear s g t (caBits base) off n
  else farCopyBytes s c (asidOf s t) (base + BitVec.ofNat 64 off) n

/-- Read every row of a side. -/
def readRows (s : State) (c : CopyOp) (g : Gang) (t : Strand) (base : Word) : List (Nat × Nat) → Except XFault (List (List Byte))
  | [] => .ok []
  | r :: rs =>
    match copyBytes s c g t base r.1 r.2 with
    | .error e => .error e
    | .ok b => match readRows s c g t base rs with
      | .error e => .error e
      | .ok bs => .ok (b :: bs)

/-- The elements of a row of bytes. -/
def rowElems (w n : Nat) (bs : List Byte) : List Nat := elemsOf w n (leNat bs)

/-- Argument `pos` of R78 for a copy: the destination element's address as the command names it. -/
def copyPos (t : Strand) (dst : Word) (off : Nat) : Nat :=
  if caNear dst then nearSlice t (caBits dst) <<< 20 + nearOff (caBits dst) + off else (dst + BitVec.ofNat 64 off).toNat

/-- Exact value of a source element (R73, R81). -/
def srcValue (c : CopyOp) (scale x : Nat) : FVal := if copyTy c == .mx8 then mxValue (cmSkind c.cmd) scale x else valueOf (copyTy c) x

/-- Convert one element (R81). -/
def convElem (c : CopyOp) (scale x r : Nat) : Nat := convertV (srcValue c scale x) (copyTy c).isInt (copyDty c) (cmRm c.cmd) (cmOvf c.cmd) r

/-- Split a list into groups of `n`. -/
def groupsOf {α : Type} (n : Nat) : Nat → List α → List (List α)
  | 0, _ => []
  | f + 1, xs => if xs.isEmpty then [] else xs.take n :: groupsOf n f (xs.drop n)

/-- Address of a destination byte. -/
def dstAddr (c : CopyOp) (off : Nat) : Word := c.dst + BitVec.ofNat 64 off

/-- Bytes at consecutive destination offsets. -/
def writesAt (c : CopyOp) (off : Nat) (bs : List Byte) : List (Word × Byte) := bs.zipIdx.map fun p => (dstAddr c (off + p.2), p.1)

/-- The bytes that hold elements `e0` on of `w` bits; bits of a last partial byte stay as memory has them. -/
def packBytes (w : Nat) (xs : List Nat) (old : List Byte) : List Byte :=
  let n := elBytes xs.length w
  let rest := (leNat old) >>> (xs.length * w) <<< (xs.length * w)
  leBytes n (packElems w xs + rest % 2 ^ (8 * n))

/-- One row of a copy as destination writes: (k, r), its elements and their source scales. -/
def rowWrites (s : State) (c : CopyOp) (g : Gang) (t : Strand) (k r : Nat) (xs scales : List Nat) : List (Word × Byte) :=
  let from_ := k * shPP c.h + r * shP c.h
  let seed := g.seed.toNat
  let wd := copyWd c
  let row := k * shPP2 c.h + r * shP2 c.h
  let offOf (e : Nat) : Nat := if cmTrans c.cmd then k * shPP2 c.h + e * shP2 c.h + r * wd / 8 else row + e * wd / 8
  let rand (e x : Nat) : Nat := rand32 seed (copyPos t c.dst (offOf e)) 0 0 0 x
  let scaleAt (e : Nat) : Nat := scales.getD ((from_ % 32 + e) / 32) 127
  let ys := if cmConv c.cmd then xs.zipIdx.map fun p => convElem c (scaleAt p.2) p.1 (rand p.2 p.1) else xs
  if cmTrans c.cmd then (ys.zipIdx.map fun p => writesAt c (offOf p.2) (leBytes (wd / 8) p.1)).flatten
  else if copyDty c == .mx8 && cmConv c.cmd then
    let blocks := (groupsOf 32 (xs.length / 32 + 1) xs.zipIdx).map fun b =>
      toMx (b.map fun p => srcValue c (scaleAt p.2) p.1) (cmDkind c.cmd) (cmRm c.cmd) (cmOvf c.cmd) (b.map fun p => rand p.2 p.1)
    (blocks.zipIdx.map fun b => writesAt c (row + 32 * b.2) (b.1.1.map (BitVec.ofNat 8)) ++ writesAt c (shO2 c.h + row / 32 + b.2) [BitVec.ofNat 8 b.1.2]).flatten
  else
    let n := elBytes ys.length wd
    let old := if ys.length * wd % 8 = 0 then [] else match copyBytes s c g t c.dst row n with
      | .ok b => b
      | .error _ => []
    writesAt c row (packBytes wd ys old) ++
      -- without CONV each element takes its scale byte along; the last of a destination block stands
      if copyDty c == .mx8 then (((upto xs.length).filter fun e => e == 0 || (row + e) % 32 == 0 || (from_ + e) % 32 == 0).map fun e =>
        writesAt c (shO2 c.h + (row + e) / 32) [BitVec.ofNat 8 (scaleAt e)]).flatten else []

/-- The writes of COPY and COPYQ (R227). -/
def copyWrites (s : State) (c : CopyOp) (g : Gang) (t : Strand) : Except XFault (List (Word × Byte)) :=
  match readRows s c g t c.src (srcRows c) with
  | .error e => .error e
  | .ok rows =>
    match readRows s c g t c.src (srcScales c) with
    | .error e => .error e
    | .ok scs =>
      .ok (((pairsOf (shN2 c.h) (shN1 c.h)).zip rows).zipIdx.map fun p =>
        rowWrites s c g t p.1.1.1 p.1.1.2 (rowElems (copyWs c) (shN0 c.h) p.1.2) ((scs.getD p.2 []).map (·.toNat))).flatten

/-- Rows of GATH and SCAT up to the first indexed near row that fails R204, and whether one failed (R228). -/
def goodRows (g : Gang) (t : Strand) (c : CopyOp) : Nat × Bool :=
  let rows := if c.kind == .gath then srcRows c else dstRows c
  let base := if c.kind == .gath then c.src else c.dst
  if !caNear base then (rows.length, false)
  else
    let ok (r : Nat × Nat) : Bool := match nearRoom g t (caBits base) with
      | none => false
      | some m => decide (r.1 + r.2 ≤ m)
    let good := (rows.takeWhile ok).length
    (good, decide (good < rows.length))

/-- The writes of GATH and SCAT (R228). -/
def indexWrites (s : State) (c : CopyOp) (g : Gang) (t : Strand) (n : Nat) : Except XFault (List (Word × Byte)) :=
  match readRows s c g t c.src ((srcRows c).take n) with
  | .error e => .error e
  | .ok rows => .ok ((rows.zip (dstRows c)).map fun p => writesAt c p.2.1 p.1).flatten

/-! ## Life of a copy -/

/-- Update a copy of a core. -/
def updCopy (s : State) (core id : Nat) (f : CopyOp → CopyOp) : State :=
  updCore s core fun c => { c with copies := updFirst (fun x => x.id == id) f c.copies }

/-- The oldest outstanding copy of a queue that has not started. -/
def nextCopy (c : Core) (q : Nat) : Option CopyOp :=
  match c.copies.filter fun x => cmQueue x.cmd == q with
  | [] => none
  | x :: _ => if x.started then none else some x

/-- Let the head of a queue start reading after a variable time (R230). -/
def wakeQueue (s : State) (core q : Nat) : State :=
  match nextCopy (getCore s core) q with
  | none => s
  | some x => if s.timers.any (fun t => t.ev == .copyStart core x.id) then s else later s (.copyStart core x.id)

/-- Place a copy on its queue (R229). -/
def placeCopy (s : State) (core : Nat) (c : CopyOp) : State :=
  wakeQueue (updCore s core fun k => { k with copies := k.copies ++ [c] }) core (cmQueue c.cmd)

/-- Element bytes a copy moves (R227). -/
def copyCount (c : CopyOp) : Nat := elBytes (shN0 c.h * shN1 c.h * (if c.kind == .copy then shN2 c.h else 1)) (copyWd c)

/-- Pages of one side of a copy that are not near, 64 KiB steps. -/
def sidePages (base : Word) (rs : List (Nat × Nat)) : List Word :=
  if caNear base then [] else ((rs.flatMap fun r => pieces (base + BitVec.ofNat 64 r.1) r.2).map fun p => p.1 &&& ~~~(0xFFFF : Word)).dedup

/-- Translate the pages that this device owns; the first fault decides. -/
def xlateHere (s : State) (asid : Nat) (acc : AccKind) : List Word → Except XFault (List (Word × Nat × Option (BitVec 12)))
  | [] => .ok []
  | va :: vs =>
    if isRemote s va then xlateHere s asid acc vs
    else
      match translate s asid va acc with
      | .error k => .error (k, va)
      | .ok p => match xlateHere s asid acc vs with
        | .error e => .error e
        | .ok r => .ok ((va, p.addr, p.dev) :: r)

/-- The requests by which other packages keep the pages that they own; one that has not answered is waited for (R232). -/
def xlateAway (s : State) (asid : Nat) (store : Bool) : List Word → Except XFault (List (Nat × BitVec 12))
  | [] => .ok []
  | va :: vs =>
    if !isRemote s va then xlateAway s asid store vs
    else
      match gotAnswer s asid (pageKey va store) with
      | some (.page rid d) => match xlateAway s asid store vs with
        | .error e => .error e
        | .ok r => .ok ((rid, d) :: r)
      | some (.fault k _) => .error (k, va)
      | _ => .error (kPage, pageKey va store)

/-- Translate every page of the copy's far sides at its owner (R232, R233): the fault, and 3 for a source or 4 for a destination (R342). -/
def xlateCopy (s : State) (g : Gang) (t : Strand) (c : CopyOp) : Except (XFault × BitVec 4) CopyOp :=
  let c := if c.kind == .copy then c else { c with idx := readIdx s g t c.h }
  let src := sidePages c.src (srcRanges c)
  let dst := sidePages c.dst (dstRanges c)
  match xlateHere s (asidOf s t) .load src, xlateAway s (asidOf s t) false src with
  | .error e, _ => .error (e, 3)
  | _, .error e => .error (e, 3)
  | .ok a, .ok x =>
    match xlateHere s (asidOf s t) .store dst, xlateAway s (asidOf s t) true dst with
    | .error e, _ => .error (e, 4)
    | _, .error e => .error (e, 4)
    | .ok b, .ok y => .ok { c with xl := b ++ a, xlated := true, kept := x ++ y }

/-- The far source pieces of a copy that stand in other packages: device, address, bytes, HBM address when only the frame is there (R344). -/
def remoteReads (s : State) (c : CopyOp) (asid : Nat) : List (BitVec 12 × Word × Nat × Option Nat) :=
  if caNear c.src then []
  else
    ((srcRanges c).flatMap fun r => pieces (c.src + BitVec.ofNat 64 r.1) r.2).filterMap fun p =>
      match copyPlace s c asid p.1 .load with
      | .ok none => some (farDev p.1, p.1, p.2, none)
      | .ok (some ⟨a, some d⟩) => some (d, p.1, p.2, some a)
      | _ => none

/-- End a copy without contributions: its future takes a poison code (R271, R396). -/
def endCopy (s : State) (core : Nat) (c : CopyOp) (code : PoisonCode) : State :=
  let s1 := updCore s core fun k => { k with copies := k.copies.filter fun x => x.id != c.id }
  wakeQueue (deliverNow (releaseAll s1 c.kept) c.sid c.tag (.poison code)) core (cmQueue c.cmd)

/-- Whether a source line of this package holds an uncorrectable soft error (R282). -/
def copySpoiled (s : State) (c : CopyOp) (asid : Nat) : Bool :=
  !s.spoiled.isEmpty && !caNear c.src && ((srcRanges c).flatMap fun r => pieces (c.src + BitVec.ofNat 64 r.1) r.2).any fun p =>
    match copyPlace s c asid p.1 .load with
    | .ok (some ⟨a, none⟩) => hbmSpoiled s a p.2
    | _ => false

/-- Ask other packages for the source bytes they hold; a lost path ends the copy with LINK (R396). -/
def askCopy (s : State) (core asid : Nat) (who : Nat × Word) (c : CopyOp) (rs : List (BitVec 12 × Word × Nat × Option Nat)) : State :=
  if rs.any (fun r => pathLost s r.1) then endCopy s core c .link
  else
    rs.foldl (fun s r => sendReq s r.1 (.copyRead core c.id r.2.1) fun rid => match r.2.2.2 with
      | none => .read rid asid r.2.1 r.2.2.1 3 false who
      | some a => .frameRead rid asid a r.2.2.1) (updCopy s core c.id fun _ => { c with asked := true, open_ := rs.length })

/-- Put the bytes a copy has read into it; it completes after a variable time. -/
def beginWrites (s : State) (core : Nat) (c : CopyOp) (ws : List (Word × Byte)) (res : Payload) : State :=
  later (updCopy s core c.id fun _ => { c with started := true, writes := ws, result := res, count := ws.length }) (.copyCompletion core c.id)

/-- Whether the save area gives what a copy of a saved gang reads (R246, R433). -/
def savedSource (s : State) (g : Gang) (t : Strand) (c : CopyOp) : Except XFault (List Byte) :=
  if g.saved.isNone then .ok []
  else
    match (if c.kind == .copy then .ok [] else copyNear s g t (shO3 c.h) 0 (4 * shN1 c.h)) with
    | .error e => .error e
    | .ok bs => if caNear c.src then copyNear s g t (caBits c.src) 0 (rowsEnd (srcRanges c)) else .ok bs

/-- Whether the save area takes what a copy of a saved gang writes (R246, R433). -/
def savedDest (s : State) (g : Gang) (t : Strand) (c : CopyOp) : Except XFault (List (Place × Nat)) :=
  if g.saved.isNone || !caNear c.dst then .ok []
  else xlateAll s (gangAsid s g) .store (pieces (saveNear g (nearSlice t (caBits c.dst)) (nearOff (caBits c.dst))) (rowsEnd (dstRanges c)))

/-- A copy starts reading once every write of the copy before it on its queue has been performed (R230, R326). -/
def execCopyStart (core id : Nat) (s : State) : Out State :=
  .next (
    match (getCore s core).copies.find? (fun c => c.id == id) with
    | none => s
    | some c =>
      match copyOwner s c with
      | none => s
      | some (g, t) =>
        if c.started || c.open_ != 0 || (nextCopy (getCore s core) (cmQueue c.cmd)).map (·.id) != some id then s
        else match savedSource s g t c with
        | .error e => holdEvent s e (gangAsid s g) 6 none (.copyStart core id)
        | .ok _ =>
          -- the list is read when the command starts, or where its pages have been translated from it (R228, R232, R233)
          let c := if c.kind == .copy || c.xlated then c else { c with idx := readIdx s g t c.h }
          let rs := remoteReads s c (asidOf s t)
          if copySpoiled s c (asidOf s t) then endCopy s core c .engine
          else if !c.asked && !rs.isEmpty then askCopy s core (asidOf s t) (c.sid, t.crec) c rs
          else
            let good := if c.kind == .copy then (0, false) else goodRows g t c
            let ws := if c.kind == .copy then copyWrites s c g t else indexWrites s c g t good.1
            match ws with
            | .ok ws => beginWrites s core c ws (if good.2 then .poison .engine else .value (BitVec.ofNat 1024 (copyCount c)))
            | .error e =>
              if waits e.1 then awaitAccess s e (asidOf s t) 3 false (c.sid, t.crec) (.copyStart core id)
              else if c.window = t.window then later (updCopy s core id fun _ => { c with fault := some (e.1, e.2, faultGen s (asidOf s t) e) }) (.faultRollback c.sid e.1 e.2 0b10000000)
              else endCopy s core c .fault)

/-- Perform one byte of a copy at a place of this package. -/
def putCopyByte (g : Gang) (t : Strand) (asid : Nat) (c : CopyOp) (s : State) (w : Word × Byte) : State :=
  if caNear w.1 then (match gangWrite s g (nearSlice t (caBits c.dst)) (nearOff (caBits c.dst) + (w.1 - c.dst).toNat) [w.2] with
    | .ok s1 => s1
    | .error _ => s)
  else
    match copyPlace s c asid w.1 .store with
    | .ok (some ⟨a, none⟩) => hbmWrite s (keyOf s asid) a [w.2]
    | _ => s

/-- The bytes of a copy for other packages: device and bytes, addresses virtual; or a frame there. -/
def remoteWrites (s : State) (c : CopyOp) (asid : Nat) : List (BitVec 12 × Nat × Bool × Word × Byte) :=
  c.writes.filterMap fun w =>
    if caNear w.1 then none
    else
      match copyPlace s c asid w.1 .store with
      | .ok none => some (farDev w.1, 0, false, w.1, w.2)
      | .ok (some ⟨a, some d⟩) => some (d, a, true, w.1, w.2)
      | _ => none

/-- A copy completes in one ck: barrier bytes, semaphore and future follow its writes (R230), for each replica that shares it (R359). -/
def closeCopy (s : State) (core : Nat) (c : CopyOp) : State :=
  let s1 := updCore s core fun k => { k with copies := k.copies.filter fun x => x.id != c.id }
  let ok := match c.result with
    | .value _ => true
    | .poison _ => false
  let contribute (s : State) (sid : Nat) : State :=
    match getStrand s sid with
    | none => s
    | some t =>
      let s2 := if ok && cmKen c.cmd then addBytes s t.gid (cmKb c.cmd) (copyCount c) sid c.dst else s
      if ok && cmSen c.cmd then semaInc s2 sid (cmSemq c.cmd) 1 (.copyCompletion core c.id) else s2
  wakeQueue (deliverNow ((c.sid :: c.lee).foldl contribute (releaseAll s1 c.kept)) c.sid c.tag c.result) core (cmQueue c.cmd)

/-- Perform a copy's writes; bytes for other packages are sent, and the copy completes when they have answered. -/
def finishCopy (s : State) (core : Nat) (c : CopyOp) (g : Gang) (t : Strand) : State :=
  let asid := asidOf s t
  let far := remoteWrites s c asid
  let s1 := c.writes.foldl (putCopyByte g t asid c) s
  if far.isEmpty then closeCopy s1 core c
  else if far.any (fun w => pathLost s w.1) then endCopy s1 core c .link
  else
    let devs := (far.map (·.1)).dedup
    let frames := frameLines ((far.filter (·.2.2.1)).map fun w => (w.1, w.2.1, w.2.2.2.2))
    let s2 := updCopy s1 core c.id fun c => { c with writes := [], open_ := (devs.filter fun d => far.any fun w => w.1 == d && !w.2.2.1).length + frames.length }
    let s3 := devs.foldl (fun s d =>
      let mine := (far.filter fun w => w.1 == d && !w.2.2.1).map fun w => (w.2.2.2.1, w.2.2.2.2)
      if mine.isEmpty then s else sendReq s d (.copyWrite core c.id) fun rid => .perform rid asid none mine 4 false (c.sid, t.crec)) s2
    frames.foldl (fun s w => sendReq s w.1 (.copyWrite core c.id) fun rid => .frameWrite rid asid w.2) s3

/-- Whether the strand's records can be reached, which a completion into a non-resident strand needs (R433). -/
def recordsOk (s : State) (t : Strand) : Except XFault Unit :=
  if resident t || t.heldTrap.isSome then .ok ()
  else
    match readRecords s t with
    | .error e => .error e
    | .ok u => match devWriteAll s (asidOf s t) (recordWrites s u) with
      | .error e => .error e
      | .ok _ => .ok ()

/-- A copy completes (R230); its gang's barrier, semaphore and future take the outcome. -/
def execCopyCompletion (core id : Nat) (s : State) : Out State :=
  .next (
    match (getCore s core).copies.find? (fun c => c.id == id) with
    | none => s
    | some c =>
      match copyOwner s c with
      | none => s
      | some (g, t) =>
        if !c.started || c.open_ != 0 then s
        else
          match recordsOk s t, savedDest s g t c with
          | .error e, _ => holdEvent s e (asidOf s t) 7 (some c.sid) (.copyCompletion core id)
          | _, .error e => holdEvent s e (gangAsid s g) 7 none (.copyCompletion core id)
          | .ok _, .ok _ => finishCopy s core c g t)

/-- An answer to a copy's read or write request; a lost one ends the copy with LINK (R396). -/
def copyAnswer (s : State) (core id : Nat) (va : Word) (bs : List Byte) (lost : Bool) : State :=
  match (getCore s core).copies.find? (fun c => c.id == id) with
  | none => s
  | some c =>
    if lost then endCopy s core c .link
    else
      let c1 := { c with cache := c.cache ++ bs.zipIdx.map (fun p => (va + BitVec.ofNat 64 p.2, p.1)), open_ := c.open_ - 1 }
      let s1 := updCopy s core id fun _ => c1
      if c1.open_ ≠ 0 then s1
      else if c.started then after s1 0 (.copyCompletion core id)
      else later s1 (.copyStart core id)

end Sys2Proof.Machine
end

