-- ==== Sys2Proof/Machine/ArrayEng.lean ====
section
/-! DEFINITION. The array of a core: claim, configuration and release (R184, R185), lanes and beats (R162 to R165, R187), commands (R188 to R194) and AREAD's row (R195). -/

namespace Sys2Proof.Machine

/-- Update the array of a core. -/
def updArray (s : State) (core : Nat) (f : Array → Array) : State := updCore s core fun c => { c with array := f c.array }

/-- The array of a core. -/
def getArray (s : State) (core : Nat) : Array := (getCore s core).array

/-- The configuration that a command issued now uses: the last one recorded (R184). -/
def cfgNow (a : Array) : Word :=
  match a.nextCfg.getLast? with
  | some p => p.2
  | none => a.cfg

/-- Let the array act in this ck if it does not already. -/
def kickArray (s : State) (core : Nat) : State :=
  if s.timers.any (fun t => t.ev == .arrayBeat core) then s else after s 0 (.arrayBeat core)

/-! ## Items of a command (R188) -/

/-- Stationary, streaming and result addresses are near addresses in the gang's space. -/
def armP (c : ArrCmd) : Nat := shP c.h

/-- West word of row `i`, step `k`. -/
def westAddr (c : StepRef) (k i : Nat) : Nat :=
  c.a.toNat + (k + if cfgSkew c.cfg then i else 0) * shP c.h + cfgGw c.cfg * i

/-- North word, addend or result of column `j`, step `k`. -/
def northAddr (c : StepRef) (k j : Nat) : Nat :=
  c.a.toNat + shO2 c.h + (k + if cfgSkew c.cfg then j else 0) * shP2 c.h + (if cfgFlow c.cfg = 1 then cfgGx c.cfg else 4) * j

/-- Corner of block `k` (R188). -/
def cornerAddr (c : StepRef) (k : Nat) : Nat := c.a.toNat + shO3 c.h + 4 * k

/-- Scale of the element byte at `x`, for a command with base `a` (R188). -/
def scaleAddr (a : Word) (h : Shape) (x : Nat) : Nat := a.toNat + shO3 h + (x - a.toNat) / 32

/-- Items of `size` bytes that a command touches: the first address, steps and their pitch, neighbours (one behind the other), and the pitches by which each neighbour is late (R188). -/
structure Items where
  base : Nat
  steps : Nat
  pitch : Nat
  count : Nat
  size : Nat
  skew : Nat
deriving DecidableEq, Repr

/-- Address of the item of step `k` and neighbour `j`. -/
def Items.at_ (x : Items) (k j : Nat) : Nat := x.base + (k + x.skew * j) * x.pitch + x.size * j

/-- The near items of a command with source A, step count S and its shape (R188, R189): elements, and whether they carry scales. -/
def cmdItems (kind : ArrKind) (cfg : Word) (a : Nat) (steps : Nat) (h : Shape) : List (Items × Bool) :=
  let r := cfgRows cfg
  let c := cfgCols cfg
  let sk := if cfgSkew cfg then 1 else 0
  let west : Items := ⟨a, steps, shP h, r, cfgGw cfg, sk⟩
  let north (g : Nat) : Items := ⟨a + shO2 h, steps, shP2 h, c, g, sk⟩
  match kind with
  | .prog => [(⟨a, 1, 0, 1, 16, 0⟩, false)]
  | .stat => [(⟨a, r, shP h, c, cfgGx cfg, 0⟩, cfgMx cfg)]
  | .drain => [(⟨a, r, shP h, c, 4, 0⟩, false)]
  | .trace => [(⟨a, 64, shP h, 1, 256, 0⟩, false)]
  | .swap | .clr => []
  | .wave => [(west, false), (north 4, false), (⟨a + shO3 h, steps, 4, 1, 4, 0⟩, false)]
  | .stream => if cfgFlow cfg = 1 then [(west, cfgMx cfg), (north (cfgGx cfg), cfgMx cfg)] else [(west, cfgMx cfg), (north 4, false)]

/-- Alignment at issue (R189). -/
def cmdAligned (kind : ArrKind) (cfg : Word) (a : Nat) (h : Shape) : Bool :=
  let gw := cfgGw cfg
  let gx := cfgGx cfg
  let mx := !cfgMx cfg || (a % 32 == 0 && shO2 h % 32 == 0 && shP h % 32 == 0 && shP2 h % 32 == 0)
  match kind with
  | .prog => a % 16 == 0
  | .trace => a % 8 == 0 && shP h % 8 == 0
  | .drain => a % 4 == 0 && shP h % 4 == 0
  | .stat => a % gx == 0 && shP h % gx == 0 && shP h % gw == 0 && shP2 h % gw == 0 && mx
  | .stream =>
    a % gw == 0 && shP h % gw == 0 && shP2 h % gw == 0 && mx &&
    (if cfgFlow cfg = 1 then (a + shO2 h) % gx == 0 && shP2 h % gx == 0 else (a + shO2 h) % 4 == 0 && shP2 h % 4 == 0)
  | .wave => a % 4 == 0 && shP h % 4 == 0 && shP2 h % 4 == 0 && (a + shO2 h) % 4 == 0 && (a + shO3 h) % 4 == 0
  | .swap | .clr => true

/-- The first of `n` values from `k` upward for which `f` answers. -/
def firstOf {α : Type} (f : Nat → Option α) : Nat → Nat → Option α
  | 0, _ => none
  | n + 1, k => (f k).or (firstOf f n (k + 1))

/-- Steps after which an item that moves by its pitch lies outside every slice. -/
def boundedSteps (x : Items) : Nat := if x.pitch = 0 then min x.steps 1 else min x.steps (2 ^ 27 / x.pitch + 2)

/-- The first byte of a command's items, or of their scales, that fails R204, in the order of steps. -/
def itemsBad (g : Gang) (t : Strand) (a : Word) (h : Shape) (x : Items × Bool) : Option Nat :=
  firstOf (fun k => firstOf (fun j =>
    (nearBad g t (x.1.at_ k j) x.1.size).or (if x.2 then nearBad g t (scaleAddr a h (x.1.at_ k j)) 1 else none)) x.1.count 0) (boundedSteps x.1) 0

/-- The first near byte of a command outside the bounds of R189: only bytes that the command touches count. -/
def spansBad (g : Gang) (t : Strand) (a : Word) (h : Shape) (xs : List (Items × Bool)) : Option Nat := xs.findSome? (itemsBad g t a h)

/-! ## Claim, configuration, release -/

/-- Clear what a claim by another job clears (R184). -/
def clearArray (a : Array) : Array :=
  { a with cells := Vector.replicate 1024 Cell.zero, progs := Vector.replicate 4 ⟨0, 0, 0⟩, images := [], building := [], swaps := 0, operands := none, outs := [] }

/-- A context becomes the holder (R184); a claim by another job clears the array, which takes 32 ck. -/
def claimArray (s : State) (core sid job : Nat) : State :=
  updArray s core fun a =>
    let b := if a.lastJob.isSome && a.lastJob != some job then { clearArray a with freeAt := s.clock + 32 } else a
    { b with holder := some sid, lastJob := some job, releasing := none, waiting := a.waiting.filter fun w => w.1 != sid }

/-- Record a configuration; it takes effect once every earlier command has completed (R184). -/
def recordCfg (s : State) (core : Nat) (w : Word) : State :=
  let i := takeId s
  after (updArray i.2 core fun a => { a with nextCfg := a.nextCfg ++ [(i.1, w)], releasing := none }) 0 (.arrayConfigApply core)

/-- Whether `a` goes before `b` among the contexts that wait at ACFG (R184). -/
def waitsBefore (s : State) (a b : Nat × Nat) : Bool :=
  let ctx (sid : Nat) : Nat := match (getStrand s sid).bind (·.loc) with
    | some l => l.2.toNat
    | none => 4
  decide (a.2 < b.2) || (a.2 == b.2 && decide (ctx a.1 ≤ ctx b.1))

/-- The context whose turn it is to claim. -/
def firstWaiting (s : State) (a : Array) : Option Nat :=
  (a.waiting.foldl (fun o w => match o with
    | none => some w
    | some x => if waitsBefore s x w then some x else some w) none).map (·.1)

/-- Whether a context still waits at the ACFG where its wait began: it has neither stopped nor been made ready since (R184). -/
def stillWaits (s : State) (w : Nat × Nat) : Bool := match getStrand s w.1 with
  | some t => resident t && t.st == .running && decide (t.readyAt ≤ w.2)
  | none => false

/-- The array is free: the first waiting context may issue its ACFG (R184). -/
def execArrayClaim (core : Nat) (s : State) : Out State :=
  .next (
    let s1 := updArray s core fun a => { a with waiting := a.waiting.filter (stillWaits s) }
    let a := getArray s1 core
    match a.holder, firstWaiting s1 a with
    | none, some sid => match getStrand s1 sid with
      | some t => claimArray s1 core sid (jobNum s1 t)
      | none => s1
    | _, _ => s1)

/-- A recorded configuration takes effect once every earlier command has completed (R184). -/
def execArrayConfigApply (core : Nat) (s : State) : Out State :=
  .next (
    let a := getArray s core
    match a.nextCfg with
    | [] => s
    | p :: ps =>
      if a.cmds.any (fun c => decide (c.id < p.1)) then s
      else
        let s1 := kickArray (updArray s core fun a => { a with cfg := p.2, nextCfg := ps }) core
        if ps.isEmpty then s1 else after s1 0 (.arrayConfigApply core))

/-- Release the array: no holder, and the next waiting context claims it. -/
def releaseArray (s : State) (core : Nat) : State :=
  let s1 := updArray s core fun a => { a with holder := none, releasing := none, nextCfg := [], cfg := cfgNow a }
  if (getArray s1 core).waiting.isEmpty then s1 else after s1 0 (.arrayClaim core)

/-- ADONE releases the array once every earlier command has completed (R185); one issued after it does not hold it back. -/
def execArrayRelease (core : Nat) (s : State) : Out State :=
  .next (
    let a := getArray s core
    match a.releasing with
    | none => s
    | some id => if a.cmds.any fun c => decide (c.id < id) then s else releaseArray s core)

/-! ## Lanes -/

/-- Whether a command runs in the stream lane (R187). -/
def streamLane (k : ArrKind) : Bool :=
  match k with
  | .stat | .trace => false
  | _ => true

/-- Whether a command is a stream of steps. -/
def isStream (k : ArrKind) : Bool := k == .stream || k == .wave

/-- Whether an active cell has still to take a swap: one is not applied, or is on its way and has not reached the last diagonal (R187). -/
def swapPending (a : Array) : Bool := a.swaps != 0 || a.pipe.zipIdx.any fun p => match p.1 with
  | some r => r.swap && decide (p.2 < cfgRows r.cfg + cfgCols r.cfg - 2)
  | none => false

/-- Whether a command may start (R184, R187). -/
def mayStart (a : Array) (c : ArrCmd) : Bool :=
  let earlier := a.cmds.filter fun x => decide (x.id < c.id)
  !c.started && !(a.nextCfg.any fun p => decide (p.1 < c.id)) &&
  match c.kind with
  | .stat => !(earlier.any fun x => x.kind == .stat || x.kind == .swap) && !swapPending a
  | .trace => !(earlier.any fun x => x.kind == .trace) && (!(earlier.any fun x => x.kind == .wave) || decide (64 ≤ a.images.length))
  | .swap => !(earlier.any fun x => streamLane x.kind || x.kind == .stat)
  | .stream | .wave => (earlier.filter fun x => streamLane x.kind).all fun x => isStream x.kind && x.started && decide (x.b.toNat % 2 ^ 32 ≤ x.entered)
  | _ => !(earlier.any fun x => streamLane x.kind)

/-- Exchange L0 with its shadow in one cell (R165). -/
def swapCell (c : Cell) : Cell := { c with l0 := c.shadow, shadow := c.l0 }

/-- Apply every pending swap in every cell (R191). -/
def applySwaps (a : Array) : Array :=
  { a with cells := if a.swaps % 2 = 1 then a.cells.map swapCell else a.cells, swaps := 0 }

/-- Update a command of an array. -/
def updCmd (a : Array) (id : Nat) (f : ArrCmd → ArrCmd) : Array := { a with cmds := updFirst (fun c => c.id == id) f a.cmds }

/-- Read `n` near bytes of a command's strand. -/
def cmdBytes (s : State) (sid a n : Nat) : List Byte :=
  match getStrand s sid with
  | none => List.replicate n 0
  | some t => match gangOf s t with
    | none => List.replicate n 0
    | some g => nearBytes s g.job (nearPhys g t a) n

/-- Write near bytes for a command's strand. -/
def cmdWrite (s : State) (sid a : Nat) (bs : List Byte) : State :=
  match getStrand s sid with
  | none => s
  | some t => match gangOf s t with
    | none => s
    | some g => nearWrite s g.job (nearPhys g t a) bs

/-- Physical address of a near address of a command's strand. -/
def cmdPhys (s : State) (sid a : Nat) : Nat :=
  match getStrand s sid with
  | none => 0
  | some t => match gangOf s t with
    | none => 0
    | some g => nearPhys g t a

/-- Whether near bytes that a command reads are locked by this core's copies (R197). -/
def cmdLocked (s : State) (core sid a n : Nat) : Bool := copyLocked s core (cmdPhys s sid a) n

/-- Data and scale of an operand of `n` bytes. -/
def operand72 (s : State) (sid : Nat) (mx : Bool) (base : Word) (h : Shape) (x n : Nat) : BitVec 72 :=
  lane72 (leNat (cmdBytes s sid x n)) (if mx then leNat (cmdBytes s sid (scaleAddr base h x) 1) else 0)

/-- Cells (i, j) of the active area, row by row. -/
def activeCells (cfg : Word) : List (Nat × Nat) := pairsOf (cfgRows cfg) (cfgCols cfg)

/-- Map the active cells with their positions. -/
def mapActive (cfg : Word) (cells : Vector Cell 1024) (f : Nat → Nat → Cell → Cell) : Vector Cell 1024 :=
  Vector.ofFn fun k => let i := k.val / 32; let j := k.val % 32; if i < cfgRows cfg ∧ j < cfgCols cfg then f i j cells[k] else cells[k]

/-- The ck that a command which is no stream takes (R193, R196). -/
def cmdTime (a : Array) (c : ArrCmd) : Nat :=
  match c.kind with
  | .prog => 12
  | .stat => cfgRows c.cfg + 10
  | .drain => cfgRows c.cfg + 12
  | .trace => 4 * a.images.length + 12
  | .clr => 2
  | _ => 0

/-- APROG's image is stored in its slot when every word is free of reserved encodings (R174, R190). -/
def storeProg (a : Array) (c : ArrCmd) (image : BitVec 128) : Array :=
  if (imageWords image).all wordOk then
    { a with progs := a.progs.set c.x.toNat ⟨image, BitVec.ofNat 32 c.b.toNat, BitVec.ofNat 32 (c.b.toNat >>> 32)⟩ (by omega) }
  else updCmd a c.id fun c => { c with bad := true }

/-- The bytes that ASTAT reads, item by item. -/
def statItems (c : ArrCmd) : List (Nat × Nat) :=
  (activeCells c.cfg).flatMap fun p =>
    let x := c.a.toNat + p.1 * armP c + cfgGx c.cfg * p.2
    (x, cfgGx c.cfg) :: if cfgMx c.cfg then [(scaleAddr c.a c.h x, 1)] else []

/-- Whether a near address of a command's strand stands in the slice of another core. -/
def elsewhere (s : State) (core sid a : Nat) : Bool := cmdPhys s sid a / 2 ^ 20 != core

/-- Start one command that may start (R187, R190 to R194). Operands in another slice take a variable time more (R196). A stream whose predecessor has not completed enters its step 0 at once; one behind a stream of no steps waits the 8 ck of R196, and a stream of no steps fills in the ck of its start. DESIGN CHOICE, log 52. -/
def startCmd (s : State) (core : Nat) (c : ArrCmd) : State :=
  let a := getArray s core
  let go (s : State) (b : Array) (far : Bool) (n : Nat) : State :=
    let s1 := updArray s core fun _ => updCmd b c.id fun c => { c with started := true }
    if far then { after s1 (n + Config.delay s.fresh) (.arrayCommandComplete core c.id) with fresh := s.fresh + 1 } else after s1 n (.arrayCommandComplete core c.id)
  match c.kind with
  | .prog =>
    if cmdLocked s core c.sid c.a.toNat 16 then s
    else go s (storeProg (applySwaps a) c (BitVec.ofNat 128 (leNat (cmdBytes s c.sid c.a.toNat 16)))) (elsewhere s core c.sid c.a.toNat) (cmdTime a c)
  | .stat =>
    if (statItems c).any (fun r => cmdLocked s core c.sid r.1 r.2) then s
    else
      let load (i j : Nat) : BitVec 72 := operand72 s c.sid (cfgMx c.cfg) c.a c.h (c.a.toNat + i * armP c + cfgGx c.cfg * j) (cfgGx c.cfg)
      go s { a with cells := mapActive c.cfg a.cells fun i j x => { x with shadow := load i j } } ((statItems c).any fun r => elsewhere s core c.sid r.1) (cmdTime a c)
  | .swap => go s { a with swaps := a.swaps + 1 } false 0
  | .clr =>
    let b := applySwaps a
    go s { b with current := none, cells := mapActive c.cfg b.cells fun _ _ x => { x with l1 := BitVec.ofNat 32 (cfgInit c.cfg) } } false (cmdTime a c)
  | .drain => go s (applySwaps a) false (cmdTime a c)
  | .trace => go s (updCmd a c.id fun c => { c with entered := a.images.length }) false (cmdTime a c)
  | .stream | .wave =>
    let chained := a.cmds.any fun x => decide (x.id < c.id) && isStream x.kind && x.b.toNat % 2 ^ 32 != 0
    let s1 := updArray s core fun a => updCmd a c.id fun c => { c with started := true, beat0 := if chained then s.clock else s.clock + 8 }
    if c.b.toNat % 2 ^ 32 = 0 then after s1 0 (.arrayCommandComplete core c.id) else s1

/-- Start every command that may start. -/
def startCmds (s : State) (core : Nat) : State :=
  (getArray s core).cmds.foldl (fun s c =>
    match (getArray s core).cmds.find? (fun x => x.id == c.id) with
    | some d => if mayStart (getArray s core) d then startCmd s core d else s
    | none => s) s

/-! ## Beats -/

/-- The step that would enter now: the first stream with steps left. A pending swap comes with the step 0 of a stream, so a stream of no steps takes none. DESIGN CHOICE, log 52. -/
def entering (s : State) (a : Array) : Option StepRef :=
  match a.cmds.find? (fun c => isStream c.kind && c.started && decide (c.entered < c.b.toNat % 2 ^ 32)) with
  | none => none
  | some c =>
    if s.clock < c.beat0 then none
    else some { cmd := c.id, step := c.entered, swap := c.entered == 0 && a.swaps % 2 == 1, cfg := c.cfg, kind := c.kind, a := c.a, h := c.h, sid := c.sid }

/-- The near items that a pipe position presents: west word of row `i` and north word of column `i` (R163). -/
def edgeItems (r : StepRef) (i : Nat) : List (Nat × Nat) :=
  let west := if i < cfgRows r.cfg then [(westAddr r r.step i, cfgGw r.cfg)] else []
  let north :=
    if i < cfgCols r.cfg then
      match cfgFlow r.cfg with
      | 1 => [(northAddr r r.step i, cfgGx r.cfg)]
      | 0 => if cfgAddn r.cfg then [(northAddr r r.step i, 4)] else []
      | _ => [(northAddr r r.step i, 4)] ++ if i = 0 then [(cornerAddr r r.step, 4)] else []
    else []
  let scales := if cfgMx r.cfg then (west ++ if cfgFlow r.cfg = 1 then north else []).map fun x => (scaleAddr r.a r.h x.1, 1) else []
  west ++ north ++ scales

/-- Whether the holder of an array is being pre-empted or evicted: no new step enters (R198). -/
def frozen (s : State) (a : Array) : Bool :=
  match a.holder.bind (getStrand s) with
  | some t => t.halted
  | none => false

/-- The near items that the edges present in a beat: strand, address, bytes. -/
def beatItems (pipe : List (Option StepRef)) : List (Nat × Nat × Nat) :=
  pipe.zipIdx.flatMap fun p => match p.1 with
    | none => []
    | some r => (edgeItems r p.2).map fun x => (r.sid, x.1, x.2)

/-- The banks of a core that near items of its array take. -/
def itemBanks (s : State) (core : Nat) (xs : List (Nat × Nat × Nat)) : List (Nat × Nat) :=
  (xs.flatMap fun x => let p := cmdPhys s x.1 x.2.1; if p / 2 ^ 20 = core then banksOf p x.2.2 else []).dedup

/-- Whether two requesters want different rows of one bank (R206). -/
def banksClash (a b : List (Nat × Nat)) : Bool := a.any fun x => b.any fun y => x.1 == y.1 && x.2 != y.2

/-- Whether a NEAR access of the core that has waited 4 ck takes a bank from the array (R206). -/
def displaced (s : State) (core : Nat) (banks : List (Nat × Nat)) : Bool :=
  (allStrands s).any fun t => resident t && coreOf t == core && match t.bankWait with
    | some w => decide (4 ≤ w.1) && banksClash w.2 banks
    | none => false

/-- Whether a beat stalls (R164): a due edge byte is under a copy of this core (R197), a NEAR access takes its bank (R206), or 64 images are held (R175). The steps that complete before a checkpoint are not held back by images (R198). -/
def stalled (s : State) (core : Nat) (pipe : List (Option StepRef)) : Bool :=
  let xs := beatItems pipe
  (decide (64 ≤ (getArray s core).images.length) && !frozen s (getArray s core)) || xs.any (fun x => cmdLocked s core x.1 x.2.1 x.2.2) ||
  displaced s core (itemBanks s core xs)

/-- Whether the edges of a beat read another slice (R196). -/
def beatElsewhere (s : State) (core : Nat) (pipe : List (Option StepRef)) : Bool := (beatItems pipe).any fun x => elsewhere s core x.1 x.2.1

/-- The west operand of cell (i, j) (R163). -/
def westIn (s : State) (r : StepRef) (cells : Vector Cell 1024) (i j : Nat) : BitVec 72 :=
  if j = 0 then operand72 s r.sid (cfgMx r.cfg) r.a r.h (westAddr r r.step i) (cfgGw r.cfg) else (cells[(32 * i + j - 1) % 1024]'(by omega)).e

/-- The north operand of cell (i, j) (R163). -/
def northIn (s : State) (r : StepRef) (cells : Vector Cell 1024) (i j : Nat) : BitVec 72 :=
  if i = 0 then
    match cfgFlow r.cfg with
    | 1 => operand72 s r.sid (cfgMx r.cfg) r.a r.h (northAddr r r.step j) (cfgGx r.cfg)
    | 0 => if cfgAddn r.cfg then lane72 (leNat (cmdBytes s r.sid (northAddr r r.step j) 4)) 0 else lane72 (cfgInit r.cfg) 0
    | _ => lane72 (leNat (cmdBytes s r.sid (northAddr r r.step j) 4)) 0
  else (cells[(32 * (i - 1) + j) % 1024]'(by omega)).s

/-- The NW operand of cell (i, j) (R160, R163). -/
def nwIn (s : State) (r : StepRef) (cells : Vector Cell 1024) (i j : Nat) : Nat :=
  if cfgFlow r.cfg ≠ 2 then 0
  else if j = 0 then
    (if i = 0 then leNat (cmdBytes s r.sid (cornerAddr r r.step) 4) else bitsOf (laneData (cells[(32 * (i - 1)) % 1024]'(by omega)).wIn) 0 32)
  else bitsOf (laneData (cells[(32 * i + j - 1) % 1024]'(by omega)).nIn) 0 32

/-- One cell in a beat: it runs the step at its place in the pipe, after a swap that comes with it (R162, R165). -/
def beatCell (s : State) (a : Array) (pipe : List (Option StepRef)) (k : Fin 1024) : Cell × Option (StepRef × Nat) :=
  let i := k.val / 32
  let j := k.val % 32
  let c := a.cells[k]
  match pipe.getD (i + j) none with
  | none => (c, none)
  | some r =>
    if i < cfgRows r.cfg ∧ j < cfgCols r.cfg then
      let c1 := if r.swap then swapCell c else c
      let ws := cellWords (a.progs[cfgSlot r.cfg % 4]'(by omega)) i j
      let x := cellStep r.cfg ws i r.step (westIn s r a.cells i j) (northIn s r a.cells i j) (nwIn s r a.cells i j) c1
      (x.1, x.2.map fun code => (r, code))
    else (c, none)

/-- Put traceback codes into the images being built (R175). -/
def addCode (bs : List (Nat × Nat × BitVec 2048)) (r : StepRef) (i j code : Nat) : List (Nat × Nat × BitVec 2048) :=
  bs.map fun b => if b.1 = r.cmd ∧ b.2.1 = r.step then (b.1, b.2.1, b.2.2 ||| BitVec.ofNat 2048 (code <<< (64 * i + 2 * j))) else b

/-- A result that leaves the array in a beat: strand, near address, bytes, and whether the next beat brings the other half of its 8-byte granule. -/
structure EdgeWrite where
  sid : Nat
  at_ : Nat
  bytes : List Byte
  half : Bool
deriving DecidableEq, Repr

/-- The writes that leave the south and east edges in a beat (R163, R188). -/
def edgeWrites (pipe : List (Option StepRef)) (cells : Vector Cell 1024) : List EdgeWrite :=
  let low (x : BitVec 72) : List Byte := leBytes 4 (bitsOf (laneData x) 0 32)
  let pairs (x y : Nat) (more : Bool) : Bool := more && x % 8 == 0 && y == x + 4
  pipe.zipIdx.flatMap fun p => match p.1 with
    | none => []
    | some r =>
      if cfgFlow r.cfg = 1 then []
      else
        let lastR := cfgRows r.cfg - 1
        let lastC := cfgCols r.cfg - 1
        let j := p.2 - lastR
        let i := p.2 - lastC
        let south := if lastR ≤ p.2 ∧ j ≤ lastC then
            [(⟨r.sid, northAddr r r.step j, low (cells[(32 * lastR + j) % 1024]'(by omega)).s, pairs (northAddr r r.step j) (northAddr r r.step (j + 1)) (decide (j < lastC))⟩ : EdgeWrite)] else []
        let east := if cfgFlow r.cfg = 2 ∧ lastC ≤ p.2 ∧ i ≤ lastR then
            [(⟨r.sid, westAddr r r.step i, low (cells[(32 * i + lastC) % 1024]'(by omega)).e, pairs (westAddr r r.step i) (westAddr r r.step (i + 1)) (decide (i < lastR))⟩ : EdgeWrite)] else []
        south ++ east

/-- Perform a result, with the half of its 8-byte granule that has waited for it; a half whose other half comes next waits (R315). -/
def putEdge (core : Nat) (s : State) (w : EdgeWrite) : State :=
  match (getArray s core).outs.find? (fun o => o.1 == w.sid && o.2.1 + 4 == w.at_ && w.at_ % 8 == 4) with
  | some o => cmdWrite (updArray s core fun a => { a with outs := a.outs.filter (· != o) }) w.sid o.2.1 (o.2.2 ++ w.bytes)
  | none => if w.half then updArray s core fun a => { a with outs := a.outs ++ [(w.sid, w.at_, w.bytes)] } else cmdWrite s w.sid w.at_ w.bytes

/-- The configuration of the steps in a pipe. -/
def pipeCfg (a : Array) (pipe : List (Option StepRef)) : Word :=
  match pipe.find? Option.isSome with
  | some (some r) => r.cfg
  | _ => a.cfg

/-- The pipe after a step enters: one place per diagonal of the active cells. -/
def shiftPipe (a : Array) (e : Option StepRef) : List (Option StepRef) :=
  let cfg := pipeCfg a (e :: a.pipe)
  (e :: a.pipe).take (cfgRows cfg + cfgCols cfg - 1)

/-- Count the step that completes at the end of a beat, keep its image, and end its command with its last step (R162, R175, R192, R196). -/
def stepDone (s : State) (core : Nat) (r : StepRef) : State :=
  let img := ((getArray s core).building.find? fun b => b.1 == r.cmd && b.2.1 == r.step).map (·.2.2)
  let s1 := updArray s core fun a =>
    { updCmd a r.cmd fun c => { c with complete := c.complete + 1 } with
      images := a.images ++ img.toList
      building := a.building.filter fun b => !(b.1 == r.cmd && b.2.1 == r.step) }
  match (getArray s1 core).cmds.find? (fun c => c.id == r.cmd) with
  | some c => if c.complete = c.b.toNat % 2 ^ 32 then after s1 7 (.arrayCommandComplete core r.cmd) else s1
  | none => s1

/-- Steps of the current command that the cells of diagonal `p` have executed (R162, R195). -/
def stepsPast (a : Array) (p : Nat) : Nat :=
  match a.current with
  | none => 0
  | some (id, n) =>
    let entered := match a.cmds.find? (fun c => c.id == id) with
      | some c => c.entered
      | none => n
    entered - ((a.pipe.take p).filter fun x => match x with
      | some r => r.cmd == id
      | none => false).length

/-- One beat that does not stall (R162 to R165). Cells outside the active area take a swap in the beat in which its step enters. DESIGN CHOICE, log 52. -/
def runBeat (s : State) (core : Nat) (e : Option StepRef) (pipe : List (Option StepRef)) : State :=
  let a := getArray s core
  -- a swap that comes with a step reaches the cells that run nothing with its entry
  let idle (k : Nat) (r : StepRef) : Bool := !(k / 32 < cfgRows r.cfg && k % 32 < cfgCols r.cfg)
  let a := match e with
    | some r =>
      let a := updCmd a r.cmd fun c => { c with entered := c.entered + 1 }
      let a := if r.swap then { a with swaps := 0, cells := Vector.ofFn fun k => if idle k.val r then swapCell a.cells[k] else a.cells[k] } else { a with swaps := 0 }
      let a := if r.kind == .wave then { a with building := a.building ++ [(r.cmd, r.step, 0)] } else a
      if r.step = 0 then { a with current := (a.cmds.find? fun c => c.id == r.cmd).map fun c => (c.id, c.b.toNat % 2 ^ 32), curDone := 0, curDonePrev := 0 } else a
    | none => a
  let out : Vector (Cell × Option (StepRef × Nat)) 1024 := Vector.ofFn (beatCell s a pipe)
  let codes := (upto 1024).foldl (fun bs k => match (out[k % 1024]'(by omega)).2 with
    | some (r, code) => addCode bs r (k / 32) (k % 32) code
    | none => bs) a.building
  let cells := out.map (·.1)
  let last := cfgRows (pipeCfg a pipe) + cfgCols (pipeCfg a pipe) - 2
  let b := { a with pipe := pipe, cells := cells, building := codes }
  let s1 := updArray s core fun _ => { b with curDone := stepsPast b last }
  let ws := edgeWrites pipe cells
  let s2 := takeBanks (ws.foldl (putEdge core) s1) core (itemBanks s core (beatItems pipe ++ ws.map fun w => (w.sid, w.at_, 4)))
  match pipe.getD last none with
  | some r => stepDone s2 core r
  | none => s2

/-- Whether the array still has something to do in later ck. -/
def arrayActive (a : Array) : Bool := !a.cmds.isEmpty || a.pipe.any Option.isSome

/-- One ck of a core's array: commands that may start do, and one beat passes unless it stalls (R162, R164, R187). -/
def execArrayBeat (core : Nat) (s : State) : Out State :=
  .next (
    let still := frozen s (getArray s core)
    let s0 := if s.clock < (getArray s core).freeAt || still then s else startCmds s core
    let a := getArray s0 core
    let e := if still then none else entering s0 a
    let pipe := shiftPipe a e
    let s1 := if !pipe.any Option.isSome then updArray s0 core fun a => { a with pipe := [] }
      else if stalled s0 core pipe then s0
      else if beatElsewhere s0 core pipe && a.operands.isNone then
        -- words of other slices take a variable time (R196)
        { updArray s0 core fun a => { a with operands := some (s0.clock + 1 + Config.delay s0.fresh) } with fresh := s0.fresh + 1 }
      else if a.operands.any fun n => decide (s0.clock < n) then s0
      else if 0 < s0.stallsPending then { s0 with stallsPending := s0.stallsPending - 1 }
      else runBeat (updArray s0 core fun a => { a with operands := none }) core e pipe
    if arrayActive (getArray s1 core) then after s1 1 (.arrayBeat core) else s1)

/-! ## Completion -/

/-- A command completes: its near writes are performed and its future fills (R187, R190 to R194, R197). -/
def execArrayCommandComplete (core id : Nat) (s : State) : Out State :=
  .next (
    let a := getArray s core
    match a.cmds.find? (fun c => c.id == id) with
    | none => s
    | some c =>
      if !c.started then s
      else
        let s1 := match c.kind with
          | .drain => (activeCells c.cfg).foldl (fun s p =>
              cmdWrite s c.sid (c.a.toNat + p.1 * armP c + 4 * p.2) (leBytes 4 (a.cells[(32 * p.1 + p.2) % 1024]'(by omega)).l1.toNat)) s
          | .trace => (a.images.take c.entered).zipIdx.foldl (fun s m => cmdWrite s c.sid (c.a.toNat + m.2 * armP c) (leBytes 256 m.1.toNat)) s
          | _ => s
        let s2 := updArray s1 core fun a =>
          { a with cmds := a.cmds.filter (fun x => x.id != id), images := if c.kind == .trace then a.images.drop c.entered else a.images }
        let res : Payload :=
          if c.bad then .poison .engine
          else match c.kind with
            | .stream | .wave => .value (BitVec.ofNat 1024 (c.b.toNat % 2 ^ 32))
            | .trace => .value (BitVec.ofNat 1024 c.entered)
            | _ => .value 0
        let s3 := deliverDue s2 c.sid c.tag res
        let s4 := if (getArray s3 core).nextCfg.isEmpty then s3 else after s3 0 (.arrayConfigApply core)
        let s5 := if (getArray s4 core).releasing.isSome then after s4 0 (.arrayRelease core) else s4
        if (getArray s5 core).cmds.isEmpty then s5 else kickArray (if s5.clock < (getArray s5 core).freeAt || frozen s5 (getArray s5 core) then s5 else startCmds s5 core) core)

/-! ## AREAD -/

/-- L1 of a cell of the row that AREAD names, and the count (R195). -/
def areadRow (a : Array) (r : Nat) : List Nat × Nat :=
  let c := if a.current.isSome then a.curDonePrev else 0
  let lane (j : Nat) : Nat :=
    let x := a.cells[(32 * r + j) % 1024]'(by omega)
    if cfgRows a.cfg ≤ r ∨ cfgCols a.cfg ≤ j then 0
    else
      match a.current with
      | none => x.l1.toNat
      | some _ => if c = 0 then x.l1.toNat else (x.hist.getD (stepsPast a (r + j) - c) x.l1).toNat
  ((upto 32).map lane, c)

/-- Send a command to its lane (R187). -/
def sendArray (s : State) (core : Nat) (c : ArrCmd) : State :=
  let s1 := updArray s core fun a => { a with cmds := a.cmds ++ [c] }
  kickArray (if s1.clock < (getArray s1 core).freeAt then s1 else startCmds s1 core) core

/-! ## Bytes that outstanding commands write (R325) -/

/-- Whether items of `size` bytes at a pitch cover the byte `d` above their base: `count` neighbours, `n` steps, skewed or not. -/
def itemsHit (p size count skew n d : Nat) : Bool :=
  decide (0 < n) && (upto count).any fun j =>
    decide (size * j ≤ d) &&
    let e := d - size * j
    if p = 0 then decide (e < size) else decide (max (skew * j) (ceilDiv (e + 1 - size) p) ≤ min (e / p) (skew * j + n - 1))

/-- The near addresses by which a strand can name a physical near byte: by slice index, and through SELF, which ignores bits 20 to 25 (R204). -/
def nearNames (g : Gang) (t : Strand) (x : Nat) : List Nat :=
  (g.alloc.zipIdx.filter fun p => p.1.1 == x / 2 ^ 20 && decide (nearAddr p.1.1 p.1.2 ≤ x)).flatMap fun p =>
    let off := x - nearAddr p.1.1 p.1.2
    (p.2 * 2 ^ 20 + off) :: if p.2 = t.lidx.toNat then (upto 64).map fun k => 2 ^ 26 + k * 2 ^ 20 + off else []

/-- Whether a command writes the physical near byte `x`. -/
def cmdWritesByte (s : State) (c : ArrCmd) (x : Nat) : Bool :=
  match getStrand s c.sid with
  | none => false
  | some t => match gangOf s t with
    | none => false
    | some g =>
      let sk := if cfgSkew c.cfg then 1 else 0
      let steps := c.b.toNat % 2 ^ 32
      (nearNames g t x).any fun n =>
        let above (o : Nat) (f : Nat → Bool) : Bool := decide (c.a.toNat + o ≤ n) && f (n - c.a.toNat - o)
        match c.kind with
        | .drain => above 0 (itemsHit (shP c.h) 4 (cfgCols c.cfg) 0 (cfgRows c.cfg))
        | .trace => above 0 (itemsHit (shP c.h) 256 1 0 (if c.started then c.entered else 64))
        | .stream => cfgFlow c.cfg == 0 && above (shO2 c.h) (itemsHit (shP2 c.h) 4 (cfgCols c.cfg) sk steps)
        | .wave => above (shO2 c.h) (itemsHit (shP2 c.h) 4 (cfgCols c.cfg) sk steps) || above 0 (itemsHit (shP c.h) 4 (cfgRows c.cfg) sk steps)
        | _ => false

/-- Whether a near range holds a byte that an outstanding command of the core writes (R325). -/
def arrayWrites (s : State) (core phys n : Nat) : Bool :=
  (getArray s core).cmds.any fun c => (upto n).any fun i => cmdWritesByte s c (phys + i)

end Sys2Proof.Machine
end

