-- ==== Sys2Proof/Machine/ChanEng.lean ====
section
/-! DEFINITION. Channels (R234 to R238, R294 to R298, R381, R397): ends, rings, credit words, tickets, messages. -/

namespace Sys2Proof.Machine

/-! ## Slices of a set -/

/-- Write the same place of a gang's slice and of each of its leeward gangs (R359). -/
def gangWriteAll (s : State) (gs : List Gang) (slice off : Nat) (bs : List Byte) : Except XFault State :=
  match gs with
  | [] => .ok s
  | g :: rest => match gangWrite s g slice off bs with
    | .error e => .error e
    | .ok s1 => gangWriteAll s1 rest slice off bs

/-! ## Ends -/

/-- A channel of a gang. -/
def chanOf (g : Gang) (c : BitVec 6) : Chan := g.chans[c.toNat]'(by omega)

/-- The strands of a gang and of its leeward gangs. -/
def setStrands (s : State) (g : Gang) : List Nat := (g :: leewardGangs s g).flatMap (·.strands)

/-- Store a channel. -/
def putChan (s : State) (gid : Nat) (c : BitVec 6) (x : Chan) : State := updGang s gid fun g => { g with chans := g.chans.set c.toNat x (by omega) }

/-- The send end of a channel. -/
def sendEnd (s : State) (gid : Nat) (c : BitVec 6) : Option (Gang × SendEnd) :=
  match getGang s gid with
  | none => none
  | some g => match chanOf g c with
    | .send e => some (g, e)
    | _ => none

/-- The receive end of a channel. -/
def recvEnd (s : State) (gid : Nat) (c : BitVec 6) : Option (Gang × RecvEnd) :=
  match getGang s gid with
  | none => none
  | some g => match chanOf g c with
    | .recv e => some (g, e)
    | _ => none

/-- The address of a channel end of a gang. -/
def addrOf (s : State) (g : Gang) (c : BitVec 6) (cl : BitVec 2) : ChanAddr :=
  { dev := if s.numset then s.devnum else 0xFFF, die := BitVec.ofNat 3 g.die, cl := cl, ch := c, task := g.task.taskno }

/-- The channel directory: the receive end that an address of a job names (R397, R381). -/
def findRecv (s : State) (job : Nat) (a : ChanAddr) : Option (Gang × RecvEnd) :=
  s.gangs.findSome? fun g =>
    if g.job = job ∧ g.die = a.die.toNat ∧ g.task.taskno = a.task ∧ isWindward s g ∧ !g.completed then
      match chanOf g a.ch with
      | .recv e => if e.cl = a.cl then some (g, e) else none
      | _ => none
    else none

/-- The gang whose send end an address names. -/
def findSend (s : State) (job : Nat) (a : ChanAddr) : Option (Gang × SendEnd) :=
  s.gangs.findSome? fun g =>
    if g.job = job ∧ g.die = a.die.toNat ∧ g.task.taskno = a.task ∧ isWindward s g ∧ !g.completed then
      match chanOf g a.ch with
      | .send e => some (g, e)
      | _ => none
    else none

/-- Elements of a message (R236). -/
def elemsOfLen (n : Nat) : Nat := max 1 (ceilDiv n 64)

/-- Elements in use in a ring. -/
def ringUsed (e : RecvEnd) : Nat := (e.msgs.map (·.elems)).sum

/-- The credit word of a receive end (R295). -/
def creditWord (e : RecvEnd) : Word := packWord [(e.depth.toNat - ringUsed e, 0), (e.pushed.toNat, 16)]

/-! ## Sending -/

/-- Try to send in this ck. -/
def kickSend (s : State) (gid : Nat) (c : BitVec 6) : State := after s 0 (.sendTransmit gid c)

/-- Whether the credits of a send end cover `e` elements (R295). -/
def creditFor (x : SendEnd) (e : Nat) : Bool := !x.resync && decide (e + (x.sent - x.rcvd).toNat ≤ x.free.toNat)

/-- Whether an op may leave: the credits cover it, and its ticket is called (R236, R297). -/
def maySend (x : SendEnd) (o : SendOp) : Bool := creditFor x (elemsOfLen o.bytes.length) && (!x.tkt || (o.num.isSome && o.num == x.called))

/-- Whether a message is longer than the peer's ring (R236). -/
def tooLong (x : SendEnd) (o : SendOp) : Bool := match x.depth with
  | some d => decide (d.toNat < elemsOfLen o.bytes.length)
  | none => false

/-- The first op that may act: none of its strand's earlier ops still waits (R236). -/
def firstSend (x : SendEnd) : List SendOp → List Nat → Option SendOp
  | [], _ => none
  | o :: os, busy =>
    if o.left then firstSend x os busy
    else if !busy.contains o.sid && (tooLong x o || maySend x o) then some o
    else firstSend x os (o.sid :: busy)

/-- Skip a ticket at its receive end (R298). -/
def skipTicket (s : State) (job : Nat) (dst : ChanAddr) (n : BitVec 32) : State :=
  if ownDev s dst.dev then
    match findRecv s job dst with
    | none => s
    | some (g, e) =>
      after (putChan s g.gid dst.ch (.recv { e with issued := e.issued.map fun t => if t.num = n then { t with skipped := true } else t })) 0 (.ticketSkip g.gid dst.ch)
  else sendPacket s dst.dev 3 (.skip dst job n)

/-- A SEND is poisoned; a ticket that it holds is skipped (R298). -/
def poisonSend (s : State) (job : Nat) (peer : ChanAddr) (o : SendOp) (code : PoisonCode) : State :=
  deliverNow (match o.num with
    | some n => skipTicket s job peer n
    | none => s) o.sid o.tag (.poison code)

/-- The SEND of a message is over: its future fills, or is poisoned, and its ticket is skipped (R236, R298). -/
def endSend (s : State) (m : Msg) (x : Payload) : State :=
  let s1 := match findSend s m.job m.src with
    | some (g, e) =>
      let s0 : State := { s with reqs := s.reqs.filter fun r => r.what != .message g.gid m.src.ch m.count }
      putChan s0 g.gid m.src.ch (.send { e with ops := e.ops.filter fun o => !(o.left && o.count == m.count && o.sid == m.sid) })
    | none => s
  let s2 := match x, m.ticket with
    | .poison _, some n => skipTicket s1 m.job m.dst n
    | _, _ => s1
  deliverNow s2 m.sid m.tag x

/-- The binding that a message leaves for: what stands there now, or what the latest credit word of another package named (R235). -/
def bindOf (s : State) (job : Nat) (x : SendEnd) : Nat :=
  if ownDev s x.peer.dev then (match findRecv s job x.peer with
    | some (_, e) => e.bind
    | none => 0) else x.peerBind

/-- One message leaves, to a receive end of this package or of another (R236). -/
def leaveMsg (s : State) (m : Msg) : State :=
  if ownDev s m.dst.dev then later s (.messagePush m)
  else if pathLost s m.dst.dev then endSend s m (.poison .link)
  else
    match findSend s m.job m.src with
    | some (g, _) => sendReq s m.dst.dev (.message g.gid m.src.ch m.count) fun _ => .message m
    | none => sendPacket s m.dst.dev 0 (.message m)

/-- A send end sends what its credits and calls allow (R236, R295, R297). -/
def execSendTransmit (gid : Nat) (c : BitVec 6) (s : State) : Out State :=
  .next (
    match sendEnd s gid c with
    | none => s
    | some (g, x) =>
      match firstSend x x.ops [] with
      | none => s
      | some o =>
        if tooLong x o then kickSend (poisonSend (putChan s gid c (.send { x with ops := dropFirst (fun y => y == o) x.ops })) g.job x.peer o .engine) gid c
        else
          let m : Msg :=
            { src := addrOf s g c (BitVec.ofNat 2 g.cluster), dst := x.peer, job := g.job, bytes := o.bytes, count := x.msgs, ticket := o.num, bind := bindOf s g.job x
              sid := o.sid, tag := o.tag }
          let o' := { o with left := true, count := x.msgs, since := s.clock }
          let x' := { x with ops := updFirst (fun y => y == o) (fun _ => o') x.ops, msgs := x.msgs + 1, sent := x.sent + BitVec.ofNat 32 (elemsOfLen o.bytes.length) }
          kickSend (leaveMsg (putChan s gid c (.send x')) m) gid c)

/-! ## Credits -/

/-- Watch for 2,600 ck without a credit word or traffic (R295). -/
def armRefresh (s : State) (gid : Nat) (c : BitVec 6) : State :=
  { s with timers := (s.timers.filter fun t => t.ev != .creditRefresh gid c) ++ [⟨s.clock + 2600, .creditRefresh gid c⟩] }

/-- A credit word leaves a receive end: freed elements are counted anew (R295). -/
def noteCredit (s : State) (gid : Nat) (c : BitVec 6) : State :=
  armRefresh (match recvEnd s gid c with
    | some (_, e) => putChan s gid c (.recv { e with freed := 0, lastCredit := s.clock })
    | none => s) gid c

/-- The message count that a receive end expects of a sender: every earlier message of it has been pushed (R296; log 53). -/
def expectOf (e : RecvEnd) (a : ChanAddr) : BitVec 32 := match e.expects.find? (fun p => p.1 == a) with
  | some p => p.2
  | none => 0

/-- A send end asks its receive end for a fresh credit word and SEQ (R296). -/
def askResync (s : State) (g : Gang) (c : BitVec 6) (x : SendEnd) : State :=
  let s1 := putChan s g.gid c (.send { x with resync := true })
  let src := addrOf s g c (BitVec.ofNat 2 g.cluster)
  if ownDev s x.peer.dev then
    match findRecv s g.job x.peer with
    | some (h, e) => later (noteCredit s1 h.gid x.peer.ch) (.channelResync g.gid c (creditWord e) (expectOf e src))
    | none => s1
  else sendReq s1 x.peer.dev (.resync g.gid c) fun _ => .resyncReq src x.peer g.job

/-- A credit word reaches a send end (R295): it may now send, or it resynchronises (R296). -/
def execCreditReceive (gid : Nat) (c : BitVec 6) (word : Word) (s : State) : Out State :=
  .next (
    match sendEnd s gid c with
    | none => s
    | some (g, x) =>
      let free := BitVec.ofNat 15 (wbits word 0 15)
      let rcvd := BitVec.ofNat 32 (wbits word 16 32)
      let deep := x.depth.getD free
      if x.resync then s
      else if deep < free ∨ deep.toNat < (x.sent - rcvd).toNat then
        askResync s g c x
      else kickSend (putChan s gid c (.send { x with free := free, rcvd := rcvd, depth := some deep })) gid c)

/-- A send end takes the fresh credit word and SEQ of a resynchronisation (R296): messages that have not been pushed are poisoned LINK. `pushed` counts this end's messages modulo 2^32. -/
def execChannelResync (gid : Nat) (c : BitVec 6) (word : Word) (pushed : BitVec 32) (s : State) : Out State :=
  .next (
    match sendEnd s gid c with
    | none => s
    | some (g, x) =>
      let gone (o : SendOp) : Bool := o.left && !(o.count - pushed).msb
      let rcvd := BitVec.ofNat 32 (wbits word 16 32)
      let x' := { x with resync := false, free := BitVec.ofNat 15 (wbits word 0 15), rcvd := rcvd, sent := rcvd, ops := x.ops.filter fun o => !gone o }
      kickSend ((x.ops.filter gone).foldl (fun s o => poisonSend s g.job x.peer o .link) (putChan s gid c (.send x'))) gid c)

/-- A send end begins to resynchronise by itself (R397). -/
def startResync (s : State) (gid : Nat) (c : BitVec 6) : State :=
  match sendEnd s gid c with
  | none => s
  | some (g, x) =>
    if x.resync then s else askResync s g c x

/-- Give a credit word to the send end of an address; its DEPTH comes with it. -/
def giveCredit (s : State) (job : Nat) (dst : ChanAddr) (word : Word) (depth : BitVec 15) (bind : Nat) : State :=
  if ownDev s dst.dev then
    match findSend s job dst with
    | none => s
    | some (g, x) => later (putChan s g.gid dst.ch (.send { x with depth := some depth, peerBind := bind })) (.creditReceive g.gid dst.ch word)
  else sendPacket s dst.dev 3 (.credit dst job word depth bind)

/-- The send end entitled to credits: the peer, or the holder of the called ticket (R295, R297). -/
def creditTarget (e : RecvEnd) : Option ChanAddr :=
  if e.tkt then ((e.issued.find? fun t => t.num == e.call && !t.skipped).map (·.holder)) else some e.peer

/-- A receive end sends a credit word to the send end that is entitled to it, if there is one (R295). -/
def sendCredit (s : State) (gid : Nat) (c : BitVec 6) : State :=
  match recvEnd s gid c with
  | none => s
  | some (g, e) => match creditTarget e with
    | some a => giveCredit (noteCredit s gid c) g.job a (creditWord e) e.depth e.bind
    | none => armRefresh s gid c

/-- At the end of a ck: a credit word is due once 16 elements have been freed, and again when the channel has been silent for 2,600 ck (R295). -/
def execCreditRefresh (gid : Nat) (c : BitVec 6) (s : State) : Out State :=
  .next (
    match recvEnd s gid c with
    | none => s
    | some (_, e) =>
      if 16 ≤ e.freed ∨ max e.lastCredit e.lastTraffic + 2600 ≤ s.clock then sendCredit s gid c
      else addTimer s (max e.lastCredit e.lastTraffic + 2600) (.creditRefresh gid c))

/-! ## Tickets -/

/-- Call a ticket at its holder (R297): the call carries a credit word, from which the holder's accounting starts. -/
def giveCall (s : State) (job : Nat) (dst : ChanAddr) (n : BitVec 32) (word : Word) (depth : BitVec 15) (bind : Nat) : State :=
  if ownDev s dst.dev then
    match findSend s job dst with
    | none => s
    | some (g, x) =>
      let rcvd := BitVec.ofNat 32 (wbits word 16 32)
      let s1 := kickSend (putChan s g.gid dst.ch (.send { x with called := some n, free := BitVec.ofNat 15 (wbits word 0 15), rcvd := rcvd, sent := rcvd, depth := some depth, peerBind := bind })) g.gid dst.ch
      if g.saved.isSome then after s1 13001 (.ticketSkip g.gid dst.ch) else s1
  else sendPacket s dst.dev 3 (.call dst job n word depth bind)

/-- Call the ticket whose turn it is, if it has been issued and not yet called; pass skipped numbers (R297, R298). -/
def callNext : Nat → State → Nat → BitVec 6 → State
  | 0, s, _, _ => s
  | f + 1, s, gid, c =>
    match recvEnd s gid c with
    | none => s
    | some (g, e) =>
      match e.issued.find? fun t => t.num == e.call with
      | none => s
      | some t =>
        if t.skipped then callNext f (putChan s gid c (.recv { e with call := e.call + 1, issued := e.issued.filter fun x => x.num != e.call })) gid c
        else if t.called.isSome then s
        else
          let e' := { e with issued := e.issued.map (fun x => if x.num = e.call then { x with called := some s.clock } else x), freed := 0, lastCredit := s.clock }
          armRefresh (giveCall (putChan s gid c (.recv e')) g.job t.holder t.num (creditWord e) e.depth e.bind) gid c

/-- At a send end: the task of a called ticket has been pre-empted for longer than 13,000 ck (R298). -/
def lapseTicket (s : State) (g : Gang) (c : BitVec 6) (x : SendEnd) : State :=
  match x.called, g.saved with
  | some n, some v =>
    if x.tkt && decide (v.since + 13000 < s.clock) then
      let gone := x.ops.filter fun o => !o.left && o.num == some n
      let s1 := putChan s g.gid c (.send { x with called := none, skips := x.skips ++ [n], ops := x.ops.filter fun o => o.left || o.num != some n })
      skipTicket (gone.foldl (fun s o => deliverNow s o.sid o.tag (.poison .link)) s1) g.job x.peer n
    else s
  | _, _ => s

/-- A ticket that will never be used is skipped: the receive end advances CALL past it (R298); a send end whose task has been saved for too long gives its ticket up. -/
def execTicketSkip (gid : Nat) (c : BitVec 6) (s : State) : Out State :=
  .next (match recvEnd s gid c with
    | some (_, e) => callNext (e.issued.length + 1) s gid c
    | none => match sendEnd s gid c with
      | some (g, x) => lapseTicket s g c x
      | none => s)

/-- Order of senders of one ck: device, die, cluster, channel (R297). -/
def addrLt (a b : ChanAddr) : Bool :=
  let key (x : ChanAddr) : Nat := ((x.dev.toNat * 8 + x.die.toNat) * 4 + x.cl.toNat) * 64 + x.ch.toNat
  decide (key a < key b)

/-- Whether a request from a lower sender to the same end is due in this ck. -/
def lowerTick (s : State) (src dst : ChanAddr) (job : Nat) : Bool :=
  s.timers.any fun t => decide (t.due ≤ s.clock) && match t.ev with
    | .tickArrival a d j _ _ => d == dst && j == job && addrLt a src
    | _ => false

/-- A ticket number, or LINK, reaches the strand that asked (R238): it holds the ticket from the ck in which the future fills (R236). A ticket of a strand that has ended, or of a send end that has been bound anew, is skipped (R103, R298). -/
def giveTicket (s : State) (sid : Nat) (tag : Option Tag) (ch : BitVec 6) (job : Nat) (at_ : ChanAddr) (n : Option (BitVec 32)) : State :=
  let s : State := { s with reqs := s.reqs.filter fun r => r.what != .tick sid tag ch }
  match n, getStrand s sid with
  | none, _ => deliverNow s sid tag (.poison .link)
  | some n, none => skipTicket s job at_ n
  | some n, some t =>
    let stale := match gangOf s t with
      | some g => g.staleTicks.contains (sid, tag)
      | none => true
    let s1 := updGang s t.gid fun g => { g with staleTicks := g.staleTicks.filter (· != (sid, tag)) }
    let s2 := if stale || t.st == .done then skipTicket s1 job at_ n
      else (sid :: (leewardsOf s t).map (·.sid)).foldl (fun s i => updStrand s i fun t => { t with tickets := t.tickets ++ [(ch, n)] }) s1
    deliverNow s2 sid tag (.value (n.setWidth 1024))

/-- A SEND uses its ticket, in every replica (R236). -/
def useTicket (s : State) (sid : Nat) (c : BitVec 6) (num : Option (BitVec 32)) : State :=
  match num, getStrand s sid with
  | some n, some t => (sid :: (leewardsOf s t).map (·.sid)).foldl (fun s i => updStrand s i fun t => { t with tickets := dropFirst (fun k => k == (c, n)) t.tickets }) s
  | _, _ => s

/-- A TICK request reaches the receive end, which allots the next number (R238, R297). One that finds no ticketed receive end is poisoned LINK. DESIGN CHOICE, log 52. -/
def execTickArrival (src dst : ChanAddr) (job sid : Nat) (t : Option Tag) (s : State) : Out State :=
  .next (
    if lowerTick s src dst job then after s 0 (.tickArrival src dst job sid t)
    else
      let answer (s : State) (n : Option (BitVec 32)) : State :=
        if ownDev s src.dev then giveTicket s sid t src.ch job dst n else sendPacket s src.dev 1 (.ticket sid t src.ch job dst n)
      match findRecv s job dst with
      | none => answer s none
      | some (g, e) =>
        if !e.tkt then answer s none
        else
          let x : Ticket := { num := e.nextnum, holder := src, sid := sid, tag := t, skipped := false, called := none }
          let s1 := putChan s g.gid dst.ch (.recv { e with nextnum := e.nextnum + 1, issued := e.issued ++ [x] })
          callNext (e.issued.length + 2) (answer s1 (some e.nextnum)) g.gid dst.ch)

/-! ## Receiving -/

/-- Put bytes into a ring at an element, around its end. -/
def ringWrite (s : State) (gs : List Gang) (e : RecvEnd) (start : Nat) (bs : List Byte) : Except XFault State :=
  let size := 64 * e.depth.toNat
  let o := 64 * (start % e.depth.toNat)
  match gangWriteAll s gs e.owner (e.ring.toNat + o) (bs.take (size - o)) with
  | .error x => .error x
  | .ok s1 => gangWriteAll s1 gs e.owner e.ring.toNat (bs.drop (size - o))

/-- Bytes of a message in a ring. -/
def ringRead (s : State) (g : Gang) (e : RecvEnd) (m : RingMsg) : Except XFault (List Byte) :=
  let size := 64 * e.depth.toNat
  let o := 64 * (m.start % e.depth.toNat)
  match gangRead s g e.owner (e.ring.toNat + o) (min m.len (size - o)) with
  | .error x => .error x
  | .ok a => match gangRead s g e.owner e.ring.toNat (m.len - (size - o)) with
    | .error x => .error x
    | .ok b => .ok (a ++ b)

/-- Examine the waiting receives of a channel in the next ck. -/
def kickRecv (s : State) (gid : Nat) (c : BitVec 6) : State :=
  if s.timers.any (fun t => t.ev == .recvTake gid c && decide (s.clock < t.due)) then s else after s 1 (.recvTake gid c)

/-- Enter a message into the ring (R294): its bytes, its gap (R296), its ticket (R297), and the future of its SEND (R236). -/
def pushMsg (s : State) (g : Gang) (c : BitVec 6) (e : RecvEnd) (m : Msg) : Except XFault State :=
  let n := elemsOfLen m.bytes.length
  match ringWrite s (g :: leewardGangs s g) e e.tail m.bytes with
  | .error x => .error x
  | .ok s1 =>
    let skip := m.count - expectOf e m.src
    let x : RingMsg := { start := e.tail, elems := n, len := m.bytes.length, gap := skip != 0 && !skip.msb, pushedAt := s.clock }
    let isCall := e.tkt && m.ticket == some e.call
    let e' := { e with
      msgs := e.msgs ++ [x], tail := e.tail + n, pushed := e.pushed + BitVec.ofNat 32 n, pushedMsgs := e.pushedMsgs + 1, lastTraffic := s.clock
      expects := (m.src, m.count + 1) :: e.expects.filter fun p => p.1 != m.src
      call := if isCall then e.call + 1 else e.call
      issued := if isCall then e.issued.filter fun t => t.num != e.call else e.issued }
    let s2 := kickRecv (putChan s1 g.gid c (.recv e')) g.gid c
    let s3 := if ownDev s m.src.dev then endSend s2 m (.value (BitVec.ofNat 1024 m.bytes.length)) else sendPacket s2 m.src.dev 1 (.pushed m)
    .ok (if isCall then callNext (e'.issued.length + 1) s3 g.gid c else s3)

/-- Whether an earlier message of the same send end has left and has not been pushed: messages of one channel arrive in order (R236). -/
def earlierOut (s : State) (m : Msg) : Bool :=
  ownDev s m.src.dev && match findSend s m.job m.src with
    | some (_, x) => x.ops.any fun o => o.left && decide (o.count < m.count)
    | none => false

/-- A message that finds no receive end is dropped (R397). -/
def dropMsg (s : State) (m : Msg) : State :=
  if ownDev s m.src.dev then endSend s m (.poison .link) else sendPacket s m.src.dev 1 (.dropped m)

/-- Push or hold a message at its receive end; one that left under an earlier binding is dropped (R235, R246). -/
def takeMsg (s : State) (m : Msg) : State :=
  match findRecv s m.job m.dst with
  | none => dropMsg s m
  | some (g, e) =>
    if e.tkt != m.ticket.isSome || m.bind != e.bind then dropMsg s m
    else if !e.held.isEmpty || e.depth.toNat < ringUsed e + elemsOfLen m.bytes.length then putChan s g.gid m.dst.ch (.recv { e with held := e.held ++ [m] })
    else
      match pushMsg s g m.dst.ch e m with
      | .ok s1 => s1
      | .error x => holdEvent s x (gangAsid s g) 7 none (.messagePush m)

/-- A message arrives at its receive end (R294, R397). -/
def execMessagePush (m : Msg) (s : State) : Out State := .next (if earlierOut s m then later s (.messagePush m) else takeMsg s m)

/-- Push the messages held at the port that now fit (R294). -/
def drainHeld : Nat → State → Nat → BitVec 6 → State
  | 0, s, _, _ => s
  | f + 1, s, gid, c =>
    match recvEnd s gid c with
    | none => s
    | some (g, e) =>
      match e.held with
      | [] => s
      | m :: ms =>
        if e.depth.toNat < ringUsed e + elemsOfLen m.bytes.length then s
        else
          match pushMsg s g c { e with held := ms } m with
          | .ok s1 => drainHeld f s1 gid c
          | .error x => holdEvent s x (gangAsid s g) 7 none (.recvTake gid c)

/-- The result word of RECV and RECVA (R237). -/
def recvWord (written len ch : Nat) : Word := packWord [(written, 0), (len, 32), (ch, 56)]

/-- Whether a channel holds something that a pop of this ck may take: a message or a gap from before the ck (R294). -/
def poppable (s : State) (g : Gang) (c : Nat) : Bool :=
  match chanOf g (BitVec.ofNat 6 c) with
  | .recv e => match e.msgs with
    | m :: _ => decide (m.pushedAt < s.clock)
    | [] => false
  | _ => false

/-- The lowest channel of a mask that holds a message (R237). -/
def lowestReady (s : State) (g : Gang) (mask : Word) : Option Nat := (upto 64).find? fun c => bit mask.toNat c && poppable s g c

/-- Remove a waiting receive of a gang. -/
def dropRecv (s : State) (gid id : Nat) : State := updGang s gid fun g => { g with recvs := g.recvs.filter fun o => o.id != id }

/-- One waiting receive takes the oldest message of a channel (R237), in every replica's slice (R359); a gap poisons it LINK (R296). -/
def takeOne (s : State) (g : Gang) (o : RecvOp) (c : Nat) : Except XFault State :=
  let ch := BitVec.ofNat 6 c
  match chanOf g ch with
  | .recv e =>
    match e.msgs with
    | [] => .ok s
    | m :: ms =>
      if m.gap then
        .ok (deliverNow (dropRecv (putChan s g.gid ch (.recv { e with msgs := { m with gap := false } :: ms })) g.gid o.id) o.sid o.tag (.poison .link))
      else
        match ringRead s g e m with
        | .error x => .error x
        | .ok bs =>
          let n := min m.len o.size
          let t := getStrand s o.sid
          let slice := match t with
            | some t => nearSlice t o.addr.toNat
            | none => 0
          match gangWriteAll s (g :: leewardGangs s g) slice (nearOff o.addr.toNat) (bs.take n) with
          | .error x => .error x
          | .ok s1 =>
            let e' := { e with msgs := ms, freed := e.freed + m.elems, lastTraffic := s.clock }
            let s2 := dropRecv (putChan s1 g.gid ch (.recv e')) g.gid o.id
            let s3 := deliverNow s2 o.sid o.tag (.value ((recvWord n m.len c).setWidth 1024))
            let s4 := if 16 ≤ e'.freed then after s3 0 (.creditRefresh g.gid ch) else s3
            .ok (kickRecv (drainHeld (e.held.length + 1) s4 g.gid ch) g.gid ch)
  | _ => .ok s

/-- Serve the waiting receives of a gang in the order they reached their channels. -/
def serveRecvs (ev : Instr) : List RecvOp → State → Nat → State
  | [], s, _ => s
  | o :: os, s, gid =>
    match getGang s gid with
    | none => s
    | some g =>
      match lowestReady s g o.mask with
      | none => serveRecvs ev os s gid
      | some c => match takeOne s g o c with
        | .ok s1 => serveRecvs ev os s1 gid
        | .error x => holdEvent s x (gangAsid s g) 7 (some o.sid) ev

/-- Waiting RECV and RECVA take messages (R237, R294). -/
def execRecvTake (gid : Nat) (c : BitVec 6) (s : State) : Out State :=
  .next (
    match getGang s gid with
    | none => s
    | some g =>
      let s1 := serveRecvs (.recvTake gid c) (g.recvs.filter fun o => bit o.mask.toNat c.toNat) s gid
      drainHeld ((match recvEnd s1 gid c with
        | some (_, e) => e.held.length
        | none => 0) + 1) s1 gid c)

/-! ## Binding -/

/-- A channel descriptor from its 64 bytes (R234): the end it binds, or none when it is malformed. -/
def chanDesc (g : Gang) (lidx : Nat) (cl : BitVec 2) (now : Nat) (bs : List Byte) : Option Chan :=
  let w0 := wordAt bs 0
  let w1 := wordAt bs 8
  let w2 := wordAt bs 16
  let peer : ChanAddr := { dev := w0.extractLsb' 8 12, die := w0.extractLsb' 20 3, cl := w0.extractLsb' 23 2, ch := w0.extractLsb' 25 6, task := w2.extractLsb' 0 32 }
  let tkt := bit w0.toNat 1
  let ring := wbits w1 0 20
  let depth := wbits w1 32 15
  let reservedOk := wbits w0 2 6 == 0 && wbits w0 31 33 == 0 && wbits w1 20 12 == 0 && wbits w1 47 17 == 0 && wbits w2 32 32 == 0 && (bs.drop 24).all (· == 0) && wbits w0 23 2 != 3
  if !reservedOk then none
  else if bit w0.toNat 0 then
    if ring % 64 = 0 ∧ 16 ≤ depth ∧ depth ≤ 16384 ∧ 2 ^ Nat.log2 depth = depth ∧ ring + 64 * depth ≤ nearLimit g then
      some (.recv { bind := 0, tkt := tkt, peer := peer, cl := cl, owner := lidx, ring := BitVec.ofNat 20 ring, depth := BitVec.ofNat 15 depth, msgs := [], held := []
                    tail := 0, pushed := 0, pushedMsgs := 0, expects := [], freed := 0, lastCredit := now, lastTraffic := now, nextnum := 0, call := 0, issued := [] })
    else none
  else if ring = 0 ∧ depth = 0 then
    some (.send { tkt := tkt, peer := peer, depth := none, free := 0, rcvd := 0, sent := 0, msgs := 0, called := none, skips := [], resync := false, peerBind := 0, ops := [] })
  else none

/-- Poison LINK a list of SENDs. -/
def linkSends (s : State) (job : Nat) (peer : ChanAddr) (os : List SendOp) : State := os.foldl (fun s o => poisonSend s job peer o .link) s

/-- The SENDs of a send end that wait for the call of a number are poisoned LINK: the receive end has been bound anew (R298). -/
def dropWaiting (s : State) (job : Nat) (at_ : ChanAddr) (n : BitVec 32) : State :=
  match findSend s job at_ with
  | none => s
  | some (h, x) =>
    let hit (o : SendOp) : Bool := !o.left && o.num == some n
    linkSends (putChan s h.gid at_.ch (.send { x with ops := x.ops.filter fun o => !hit o })) job x.peer (x.ops.filter hit)

/-- TICKs on their way between ends of this package. -/
def ticksFor (s : State) (p : ChanAddr → ChanAddr → Nat → Bool) : List (Nat × Option Tag) := s.timers.filterMap fun t => match t.ev with
  | .tickArrival src dst job sid tag => if p src dst job then some (sid, tag) else none
  | _ => none

/-- TICKs that strands of a gang have sent on a channel and that have not been answered. -/
def ticksOut (s : State) (g : Gang) (c : BitVec 6) : List (Nat × Option Tag) :=
  (ticksFor s (fun src _ _ => src.ch == c) ++ s.reqs.filterMap fun r => match r.what with
    | .tick sid tag ch => if ch = c then some (sid, tag) else none
    | _ => none).filter fun k => g.strands.contains k.1

/-- Undo the old binding of a channel (R235, R298). -/
def unbind (s : State) (g : Gang) (c : BitVec 6) : State :=
  match chanOf g c with
  | .unbound => s
  | .send x =>
    let waiting := x.ops.filter fun o => !o.left
    let nums := (g.strands.filterMap (getStrand s)).flatMap fun t => (t.tickets.filter fun k => k.1 == c).map (·.2)
    let s1 := linkSends (updGang s g.gid fun g => { g with staleTicks := g.staleTicks ++ ticksOut s g c }) g.job x.peer waiting
    let s2 := if x.tkt then nums.foldl (fun s n => skipTicket s g.job x.peer n) s1 else s1
    (setStrands s g).foldl (fun s sid => updStrand s sid fun t => { t with tickets := t.tickets.filter fun k => k.1 != c }) s2
  | .recv e =>
    let me := addrOf s g c e.cl
    let gone := g.recvs.filter fun o => bit o.mask.toNat c.toNat
    let s1 := gone.foldl (fun s o => deliverNow (dropRecv s g.gid o.id) o.sid o.tag (.poison .link)) s
    let s2 := e.held.foldl dropMsg s1
    -- every TICK on its way, and every SEND that waits for a call, of the old binding (R298)
    let mine (src dst : ChanAddr) (job : Nat) : Bool := ownDev s src.dev && ownDev s dst.dev && job == g.job && { dst with dev := me.dev } == me
    let ticks := ticksFor s2 mine
    let s3 : State := { s2 with timers := s2.timers.filter fun t => match t.ev with
      | .tickArrival src dst job _ _ => !mine src dst job
      | _ => true }
    let s4 := ticks.foldl (fun s k => deliverNow s k.1 k.2 (.poison .link)) s3
    (e.issued.filter fun t => !t.skipped).foldl (fun s t =>
      if ownDev s t.holder.dev then dropWaiting s g.job t.holder t.num else sendPacket s t.holder.dev 3 (.rebound t.holder g.job t.num)) s4

/-- The peer of a new send end, asked for its credit word (R235). -/
def askCredit (s : State) (g : Gang) (c : BitVec 6) (x : SendEnd) : State :=
  if x.tkt then s
  else if ownDev s x.peer.dev then
    match findRecv s g.job x.peer with
    | some (h, e) =>
      if e.tkt then s else giveCredit (noteCredit s h.gid x.peer.ch) g.job (addrOf s g c (BitVec.ofNat 2 g.cluster)) (creditWord e) e.depth e.bind
    | none => s
  else sendPacket s x.peer.dev 3 (.creditReq (addrOf s g c (BitVec.ofNat 2 g.cluster)) x.peer g.job)

/-- A new binding takes its name (R235). -/
def nameBinding (s : State) (x : Chan) : Chan × State :=
  match x with
  | .recv e => let i := takeId s; (.recv { e with bind := i.1 }, i.2)
  | _ => (x, s)

/-- CHAN takes effect: bind channel `c` as its descriptor says (R235). -/
def bindChan (s : State) (gid sid : Nat) (c : BitVec 6) (tag : Option Tag) (bs : List Byte) : State :=
  match getGang s gid, getStrand s sid with
  | some g, some t =>
    match chanDesc g t.lidx.toNat (BitVec.ofNat 2 g.cluster) s.clock bs with
    | none => deliverLater s sid tag (.poison .engine)
    | some x =>
      let n := nameBinding (unbind s g c) x
      -- a leeward gang knows the binding, which its own checks at issue read (R236, R237)
      let s1 := (gid :: (leewardGangs s g).map (·.gid)).foldl (fun s i => putChan s i c n.1) n.2
      let s2 := match n.1 with
        | .send e => askCredit s1 g c e
        | .recv e => if e.tkt then s1 else sendCredit s1 gid c
        | .unbound => s1
      deliverLater s2 sid tag (.value 0)
  | _, _ => s

/-! ## Commands at a channel -/

/-- SEND reaches the channel with the bytes it has read and the strand's oldest ticket (R236). -/
def postSend (s : State) (gid : Nat) (c : BitVec 6) (o : SendOp) : State :=
  match sendEnd s gid c with
  | none => deliverLater s o.sid o.tag (.poison .link)
  | some (_, x) =>
    if o.num.any x.skips.contains then deliverLater s o.sid o.tag (.poison .link)
    else kickSend (putChan s gid c (.send { x with ops := x.ops ++ [o] })) gid c

/-- RECV or RECVA reaches its channels; an empty mask answers at once with channel 64 (R237). -/
def postRecv (s : State) (gid : Nat) (o : RecvOp) : State :=
  if o.mask = 0 then deliverNow s o.sid o.tag (.value ((recvWord 0 0 64).setWidth 1024))
  else
    let s1 := updGang s gid fun g => { g with recvs := g.recvs ++ [o] }
    (upto 64).foldl (fun s c => if bit o.mask.toNat c then kickRecv s gid (BitVec.ofNat 6 c) else s) s1

/-- TICK leaves for the receive end (R238); a lost path poisons its future LINK. -/
def postTick (s : State) (gid sid : Nat) (c : BitVec 6) (tag : Option Tag) : State :=
  match sendEnd s gid c with
  | none => deliverLater s sid tag (.poison .link)
  | some (g, x) =>
    let src := addrOf s g c (BitVec.ofNat 2 g.cluster)
    if ownDev s x.peer.dev then later s (.tickArrival src x.peer g.job sid tag)
    else if pathLost s x.peer.dev then deliverNow s sid tag (.poison .link)
    else sendReq s x.peer.dev (.tick sid tag c) fun _ => .tick src x.peer g.job sid tag

end Sys2Proof.Machine
end

