-- ==== Sys2Proof/Machine/CollEng.lean ====
section
/-! DEFINITION. Collectives and sparse streams in the switch (R239 to R242, R399, R401 to R414). -/

namespace Sys2Proof.Machine

/-! ## Groups (R399) -/

/-- Entry `g` of a job's group table with its members; none when the entry is not valid or has a reserved bit (R399). -/
def groupBy (tr : Xlator) (s : State) (j : Job) (g : Nat) : Except XFault (Option (List GroupMember)) :=
  match readBy tr s j.asid (j.groups + BitVec.ofNat 64 (16 * g)) 16 with
  | .error e => .error e
  | .ok bs =>
    let w0 := wordAt bs 0
    let list := wordAt bs 8
    if !bit w0.toNat 12 || wbits w0 13 51 != 0 || wbits list 0 4 != 0 then .ok none
    else
      let n := wbits w0 0 12 + 1
      match readBy tr s j.asid list (4 * n) with
      | .error e => .error e
      | .ok ms =>
        let ent (i : Nat) : Nat := natAt ms (4 * i) 4
        if (upto n).any (fun i => ent i >>> 17 != 0) then .ok none
        else .ok (some ((upto n).map fun i => (BitVec.ofNat 12 (ent i), bitsOf (ent i) 12 3, bitsOf (ent i) 15 2)))

/-- A group, where a miss waits for a walk. -/
def groupInfo (s : State) (j : Job) (g : Nat) : Except XFault (Option (List GroupMember)) := groupBy translate s j g

/-- The rank of a gang in a group: its place in the list, none when it is listed not at all or more than once (R399). -/
def rankIn (s : State) (g : Gang) (ms : List GroupMember) : Option Nat :=
  let mine := ms.zipIdx.filter fun m => s.numset && m.1.1 == s.devnum && m.1.2.1 == g.die && m.1.2.2 == g.cluster
  match mine with
  | [m] => some m.2
  | _ => none

/-! ## Descriptors (R239, R242) -/

/-- A collective descriptor (R239). -/
def collDesc (bs : List Byte) : CollDesc :=
  let w0 := wordAt bs 0
  let w4 := wordAt bs 32
  { kind := wbits w0 0 4, op := wbits w0 4 4, ty := tyOf (w0.extractLsb' 8 4), dty := tyOf (w0.extractLsb' 12 4), ovf := bit w0.toNat 16, fixed := bit w0.toNat 17
    group := wbits w0 18 12, src := wordAt bs 8, dst := wordAt bs 16, count := natAt bs 24 4, seq := BitVec.ofNat 32 (natAt bs 28 4), root := wbits w4 0 12, thresh := 0
    reservedOk := wbits w0 30 34 == 0 && wbits w4 12 52 == 0 && (bs.drop 40).all (· == 0) }

/-- A sparse descriptor (R242). -/
def sparseDesc (bs : List Byte) : CollDesc :=
  let w0 := wordAt bs 0
  let w3 := wordAt bs 24
  { kind := 0, op := wbits w0 0 4, ty := tyOf (w0.extractLsb' 4 4), dty := tyOf (w0.extractLsb' 8 4), ovf := bit w0.toNat 12, fixed := bit w0.toNat 13
    group := wbits w0 14 12, src := wordAt bs 8, dst := wordAt bs 8, count := natAt bs 16 4, seq := BitVec.ofNat 32 (natAt bs 20 4), root := wbits w3 0 12, thresh := wbits w0 26 13
    reservedOk := wbits w0 39 25 == 0 && wbits w3 12 52 == 0 && (bs.drop 32).all (· == 0) && decide (wbits w0 26 13 ≤ 4096) }

/-- The fields in which members must agree (R401). -/
def descTerms (d : CollDesc) (sparse : Bool) : List Nat :=
  let code (t : Option Ty) : Nat := match t with
    | some t => t.code.toNat
    | none => 15
  [d.kind, d.op, code d.ty, code d.dty, if d.ovf then 1 else 0, d.root, if sparse then d.thresh else d.count]

/-- The type pairs of R404. -/
def pairOk (op : Nat) (ty dty : Option Ty) : Bool :=
  match ty, dty with
  | some t, some d =>
    if op ≤ 2 then (isFloatTy t && isFloatTy d) || (t.isInt && d.isInt)
    else if op ≤ 5 then t.isInt && d.isInt
    else decide (op ≤ 7) && t == d && (t == .i32 || t == .n32 || t == .f32)
  | _, _ => false

/-- Bytes of an element or pair. -/
def termBytes (op : Nat) (t : Option Ty) : Nat := if 6 ≤ op then 8 else match t with
  | some t => unitBytes t
  | none => 1

/-- Elements a member contributes (R403). -/
def srcCount (d : CollDesc) (n rank : Nat) : Nat :=
  match d.kind with
  | 2 => if rank = d.root then d.count else 0
  | 4 | 5 => n * d.count
  | _ => d.count

/-- Elements a member's destination takes (R403). -/
def dstCount (kind root count n rank : Nat) : Nat :=
  match kind with
  | 1 => if rank = root then count else 0
  | 3 | 5 => n * count
  | _ => count

/-- Whether check 3 of R402 fails, but for the group. -/
def descBad (d : CollDesc) (sparse : Bool) : Bool :=
  !d.reservedOk || decide (5 < d.kind) || decide (7 < d.op) || !pairOk d.op d.ty d.dty ||
  (!sparse && (d.kind == 2 || d.kind == 3 || d.kind == 5) && d.op != 0)

/-- Whether check 2 of R402 fails, but for the descriptor's own address. -/
def descMisaligned (d : CollDesc) (sparse send : Bool) : Bool :=
  if sparse then (if send then d.src.toNat % 8 != 0 else d.dst.toNat % 8 != 0)
  else d.src.toNat % termBytes d.op d.ty != 0 || d.dst.toNat % termBytes d.op d.dty != 0

/-! ## Combining (R405 to R407) -/

/-- Whether a carried value is a NaN. -/
def carryNan (c : Carry) : Bool := match c with
  | .float b => (decodeF fmtCarry b).isNan
  | .int _ _ => false

/-- a before b for ARGMIN. -/
def carryLt (a b : Carry) : Bool :=
  match a, b with
  | .float x, .float y => (decodeF fmtCarry x).lt (decodeF fmtCarry y)
  | .int x _, .int y _ => decide (x < y)
  | _, _ => false

/-- ARGMIN and ARGMAX of two pairs (R405). -/
def argComb (mx : Bool) (a b : Carry × Nat) : Carry × Nat :=
  let low := min a.2 b.2
  if carryNan a.1 && carryNan b.1 then (.float (qnanBits fmtCarry), low)
  else if carryNan a.1 then b
  else if carryNan b.1 then a
  else
    let lt := if mx then carryLt b.1 a.1 else carryLt a.1 b.1
    let gt := if mx then carryLt a.1 b.1 else carryLt b.1 a.1
    if lt then a else if gt then b else if a.2 ≤ b.2 then a else b

/-- comb of R405. -/
def comb (op : Nat) (a b : Carry × Nat) : Carry × Nat :=
  match op with
  | 0 => (carryAdd a.1 b.1, 0)
  | 1 => (carryMinMax false a.1 b.1, 0)
  | 2 => (carryMinMax true a.1 b.1, 0)
  | 3 => (carryBit .and a.1 b.1, 0)
  | 4 => (carryBit .or a.1 b.1, 0)
  | 5 => (carryBit .xor a.1 b.1, 0)
  | 6 => argComb false a b
  | _ => argComb true a b

/-- comb with absent operands (R405). -/
def combOpt (op : Nat) (a b : Option (Carry × Nat)) : Option (Carry × Nat) :=
  match a, b with
  | none, y => y
  | x, none => x
  | some x, some y => some (comb op x y)

/-- One level of the fixed tree: neighbours combine, an odd last one passes (R406). -/
def fixedLevel (op : Nat) : List (Option (Carry × Nat)) → List (Option (Carry × Nat))
  | a :: b :: r => combOpt op a b :: fixedLevel op r
  | r => r

/-- `fixed` (R406); the first argument bounds the levels. -/
def fixedTree (op : Nat) : Nat → List (Option (Carry × Nat)) → Option (Carry × Nat)
  | 0, xs => xs.headD none
  | f + 1, xs => if xs.length ≤ 1 then xs.headD none else fixedTree op f (fixedLevel op xs)

/-- A value of some binary tree over the contributions, drawn freely (R407). -/
def freeTree (op : Nat) : Nat → Nat → List (Carry × Nat) → Option (Carry × Nat)
  | 0, _, xs => xs.head?
  | f + 1, k, xs =>
    match xs with
    | [] => none
    | [x] => some x
    | x :: y :: r =>
      let ys := x :: y :: r
      let i := Config.tree k % ys.length
      let a := ys.getD i x
      let zs := ys.eraseIdx i
      let j := Config.tree (k + 1) % zs.length
      freeTree op f (k + 2) (zs.eraseIdx j ++ [comb op a (zs.getD j y)])

/-- The reduction of an element over the ranks' contributions (R406, R407): `k` is where a free tree is drawn. -/
def reduceElem (c : Coll) (k : Nat) (xs : List (Option (Carry × Nat))) : Option (Carry × Nat) :=
  if c.fixed then fixedTree c.op xs.length xs else freeTree c.op xs.length k (xs.filterMap id)

/-- Element `i` of a contribution as it enters carry (R405). -/
def enterElem (ty : Ty) (op : Nat) (bs : List Byte) (i : Nat) : Carry × Nat :=
  if 6 ≤ op then (carryOf ty (natAt bs (8 * i) 4), natAt bs (8 * i + 4) 4)
  else let w := unitBytes ty; (carryOf ty (natAt bs (w * i) w), 0)

/-- A carried value at delivery: its bytes in DTYPE, and whether SAT is set by it (R87, R408). -/
def leaveElem (c : Coll) (x : Carry × Nat) : List Byte × Bool :=
  let v := carryOut x.1 c.dty c.ovf
  let w := unitBytes c.dty
  let sat := match x.1 with
    | .int n f => f || intVal c.dty v != n
    | .float _ => false
  (if 6 ≤ c.op then leBytes 4 v ++ leBytes 4 x.2 else leBytes w v, sat)

/-- A moved element at delivery (R403): converted by R81 with RNE. -/
def moveElem (c : Coll) (bs : List Byte) (i : Nat) : List Byte × Bool :=
  let w := unitBytes c.ty
  let x := natAt bs (w * i) w
  let v := convert x c.ty c.dty .rne c.ovf 0
  (leBytes (unitBytes c.dty) v, c.ty.isInt && c.dty.isInt && intVal c.dty v != intVal c.ty x)

/-! ## Instances (R401) -/

/-- Update an instance. -/
def updColl (s : State) (id : Nat) (f : Coll → Coll) : State := { s with colls := updFirst (fun c => c.id == id) f s.colls }

/-- An instance by its name. -/
def getColl (s : State) (id : Nat) : Option Coll := s.colls.find? fun c => c.id == id

/-- The instance of a group and SEQ (R401). -/
def findColl (s : State) (job group : Nat) (seq : BitVec 32) (sparse : Bool) : Option Coll :=
  s.colls.find? fun c => c.job == job && c.group == group && c.seq == seq && c.sparse == sparse

/-- A new instance with the terms of its first member. -/
def newColl (s : State) (job : Nat) (d : CollDesc) (sparse fixed : Bool) (ms : List GroupMember) : Coll × State :=
  let i := takeId s
  let c : Coll :=
    { id := i.1, job := job, group := d.group, seq := d.seq, sparse := sparse, terms := descTerms d sparse, kind := d.kind, op := d.op, ty := d.ty.getD .i8, dty := d.dty.getD .i8
      ovf := d.ovf, fixed := fixed, root := d.root, count := d.count, thresh := if d.thresh = 0 then 1024 else d.thresh, size := ms.length
      locals := (ms.zipIdx.filter fun m => m.1.1 == s.devnum).map (·.2), devs := ms.map (·.1), members := [], raw := [], parts := [], sparts := [], result := none
      bad := none, badRank := none }
  (c, { i.2 with colls := i.2.colls ++ [c] })

/-- Remove an instance that is no longer in flight: every local member has been answered, and every contribution has come (R401). -/
def retireColl (s : State) (id : Nat) : State :=
  match getColl s id with
  | none => s
  | some c =>
    let needsRecv (r : Nat) : Bool := c.sparse && (c.root == 0xFFF || c.root == r)
    let settled (r : Nat) : Bool :=
      c.members.any (fun m => m.rank == r && !m.recv && m.done) && (!needsRecv r || c.members.any fun m => m.rank == r && m.recv && m.done)
    if c.raw.length = c.size ∧ c.locals.all settled then { s with colls := s.colls.filter fun x => x.id != id } else s

/-- Answer one member's future. -/
def answerMember (s : State) (id : Nat) (m : Member) (x : Payload) : State :=
  deliverNow (updColl s id fun c => { c with members := c.members.map fun y => if y = m then { y with done := true } else y }) m.sid m.tag x

/-- Answer every member that still waits and satisfies `p`. -/
def answerAll (s : State) (id : Nat) (p : Member → Bool) (x : Payload) : State :=
  match getColl s id with
  | none => s
  | some c => (c.members.filter fun m => !m.done && p m).foldl (fun s m => answerMember s id m x) s

/-- Poison what the members of an instance still wait for, once it is known to be bad (R401, R409). -/
def poisonColl (s : State) (id : Nat) : State :=
  match getColl s id with
  | none => s
  | some c =>
    match c.bad with
    | none => s
    | some code =>
      let s1 := match c.badRank with
        | none => answerAll s id (fun _ => true) (.poison code)
        | some r => answerAll (answerAll (answerAll s id (fun m => m.recv) (.poison code)) id (fun m => m.rank == r) (.poison code)) id (fun _ => true) (.value 0)
      retireColl s1 id

/-- The next step of an instance whose contributions have changed. -/
def advanceColl (s : State) (id : Nat) : State :=
  match getColl s id with
  | none => s
  | some c =>
    if c.bad.isSome then poisonColl s id
    else if c.raw.length < c.size then s
    else if c.sparse then
      (if c.result.isSome then (c.members.filter fun m => m.recv && !m.done).foldl (fun s m => later s (.sparseStreamDelivery id m.rank)) s
       else if c.sparts.length = c.size then later s (.sparseMerge id) else s)
    else if c.kind = 2 ∨ c.kind = 3 ∨ c.kind = 5 ∨ c.parts.length = 1 then
      (c.members.filter fun m => !m.done).foldl (fun s m => later s (.collectiveDelivery id m.rank)) s
    else s

/-- Whether two nodes of the switch are neighbours of the fixed tree (R406): ranks j·2^(k+1) on, and the next 2^k. -/
def siblings (n : Nat) (a b : List Nat) : Bool :=
  (upto 13).any fun k =>
    let w := 2 ^ k
    (upto (n / (2 * w) + 1)).any fun j =>
      let lo := 2 * w * j
      a == (upto n).filter (fun r => decide (lo ≤ r) && decide (r < lo + w)) && b == (upto n).filter fun r => decide (lo + w ≤ r) && decide (r < lo + 2 * w)

/-- A pair of parts that the switch may combine now: the fixed tree's neighbours, or the two that came first. -/
def pickPair (c : Coll) : Option (Nat × Nat) :=
  if c.fixed then
    (c.parts.flatMap fun a => (c.parts.filter fun b => siblings c.size a.ranks b.ranks).map fun b => (a.ranks.headD 0, b.ranks.headD 0)).head?
  else
    match c.parts with
    | a :: b :: _ => some (a.ranks.headD 0, b.ranks.headD 0)
    | _ => none

/-- Let the switch combine what it can. -/
def kickCombine (s : State) (id : Nat) : State :=
  match getColl s id with
  | none => s
  | some c => match pickPair c with
    | none => s
    | some p => if s.timers.any (fun t => match t.ev with
        | .switchCombine i _ _ => i == id
        | _ => false) then s else later s (.switchCombine id p.1 p.2)

/-- A contribution enters the switch of this package (R401, R405, R409). -/
def enterContribution (s : State) (id rank : Nat) (terms : List Nat) (fixed : Bool) (bs : List Byte) : State :=
  match getColl s id with
  | none => s
  | some c =>
    if c.raw.any (fun r => r.1 == rank) then s
    else
      let bad := if terms = c.terms then c.bad else some .engine
      let partOf (r : Nat × List Byte) : Part := { ranks := [r.1], elems := if c.sparse || c.kind == 2 || c.kind == 3 || c.kind == 5 then [] else (upto (r.2.length / termBytes c.op (some c.ty))).map (enterElem c.ty c.op r.2) }
      -- the first member with FIXED = 1 makes the instance form its values anew, in the fixed shape (R401, R406)
      let parts := if fixed && !c.fixed then (c.raw ++ [(rank, bs)]).map partOf else c.parts ++ [partOf (rank, bs)]
      let c' := { c with raw := c.raw ++ [(rank, bs)], fixed := c.fixed || fixed, parts := if c.sparse then [] else parts, bad := bad, badRank := if terms = c.terms then c.badRank else none }
      let s1 := updColl s id fun _ => c'
      if bad.isSome then advanceColl s1 id
      else if c.sparse then later s1 (.sparseIngressCheck id rank)
      else if c.kind = 2 ∨ c.kind = 3 ∨ c.kind = 5 then advanceColl s1 id
      else if c'.parts.length = c.size ∨ !c'.fixed then
        (let s2 := kickCombine s1 id; if c.size = 1 then advanceColl s2 id else s2)
      else kickCombine s1 id

/-- Send a member's contribution to the other devices of its group. -/
def shareContribution (s : State) (c : Coll) (rank : Nat) (terms : List Nat) (fixed : Bool) (bs : List Byte) : State :=
  (c.devs.dedup.filter fun d => d != s.devnum).foldl (fun s d =>
    sendPacket s d 2 (.contribution c.job c.group c.seq c.sparse rank terms fixed bs)) s

/-- A contribution of another device arrives; one that must wait for the group's table comes again as `ev`. -/
def takeContribution (s : State) (job group : Nat) (seq : BitVec 32) (sparse : Bool) (rank : Nat) (terms : List Nat) (fixed : Bool) (bs : List Byte) (ev : Instr) : State :=
  match findColl s job group seq sparse, getJob s job with
  | some c, _ => enterContribution s c.id rank terms fixed bs
  | none, some j =>
    match groupInfo s j group with
    | .ok (some ms) =>
      let ty (n : Nat) : Option Ty := tyOf (BitVec.ofNat 4 n)
      let d : CollDesc :=
        { kind := terms.getD 0 0, op := terms.getD 1 0, ty := ty (terms.getD 2 15), dty := ty (terms.getD 3 15), ovf := terms.getD 4 0 == 1, fixed := fixed, group := group
          src := 0, dst := 0, count := terms.getD 6 0, seq := seq, root := terms.getD 5 0, thresh := if sparse then terms.getD 6 0 else 0, reservedOk := true }
      let r := newColl s job d sparse fixed ms
      enterContribution r.2 r.1.id rank terms fixed bs
    | .ok none => s
    | .error e => holdEvent s e j.asid 6 none ev
  | none, none => s

/-! ## Reading and writing a member's memory -/

/-- Bytes at a copy address of a strand (R225). -/
def memberRead (s : State) (g : Gang) (t : Strand) (a : Word) (n : Nat) : Except XFault (List Byte) :=
  if n = 0 then .ok []
  else if caNear a then gangRead s g (nearSlice t (caBits a)) (nearOff (caBits a)) n
  else devRead s (asidOf s t) a n

/-- Write at a copy address of a strand, in every replica's slice when it is near (R359). -/
def memberWrite (s : State) (g : Gang) (t : Strand) (a : Word) (bs : List Byte) : Except XFault State :=
  if caNear a then gangWriteAll s (g :: leewardGangs s g) (nearSlice t (caBits a)) (nearOff (caBits a)) bs
  else devWrite s (asidOf s t) a bs

/-- The first near byte of a member's ranges that fails R204 (R402 check 1). -/
def collBad (s : State) (g : Gang) (t : Strand) (j : Job) (d : CollDesc) (sparse send : Bool) : Option Nat :=
  let n := match groupBy translateNow s j d.group with
    | .ok (some ms) => (ms.length, (rankIn s g ms).getD 0)
    | _ => (1, 0)
  let near (a : Word) (len : Nat) : Option Nat := if caNear a then nearBad g t (caBits a) len else none
  if sparse then near d.src d.count
  else if send then (near d.src (srcCount d n.1 n.2 * termBytes d.op d.ty)).or (near d.dst (dstCount d.kind d.root d.count n.1 n.2 * termBytes d.op d.dty))
  else none

/-! ## Commands -/

/-- A member whose source has been read contributes; one whose source another package holds, or whose page misses, waits for its bytes (R232, R401). A source that its own owner refuses poisons the future ENGINE (log 54). -/
def contribute (s : State) (id : Nat) (m : Member) (ev : Instr) : State :=
  match getColl s id, getStrand s m.sid with
  | some c, some t =>
    match gangOf s t with
    | none => s
    | some g =>
      let terms := descTerms m.desc c.sparse
      let fixed := m.desc.fixed || g.det
      match memberRead s g t m.desc.src m.len with
      | .error e =>
        if waits e.1 then awaitAccess s e (asidOf s t) 3 false (m.sid, t.crec) ev
        else deliverNow (updColl s id fun c => { c with members := c.members.filter (· != m) }) m.sid m.tag (.poison .engine)
      | .ok bs =>
        let s1 := updColl s id fun c => { c with members := c.members.map fun y => if y = m then { y with sent := true } else y }
        if c.devs.any (fun x => x != s.devnum && pathLost s x) then later s1 (.collectiveLinkLoss id)
        else enterContribution (shareContribution s1 c m.rank terms fixed bs) id m.rank terms fixed bs
  | _, _ => s

/-- The event by which a member's contribution enters: with its ingress check, or with the delivery that waits for it. -/
def contributeEv (c : Coll) (rank : Nat) : Instr := if c.sparse then .sparseIngressCheck c.id rank else .collectiveDelivery c.id rank

/-- A sending member that has not contributed yet. -/
def unsent (c : Coll) (rank : Nat) : Option Member := c.members.find? fun m => m.rank == rank && !m.recv && !m.done && !m.sent

/-- COLL, SPSEND or SPRECV after its window has been performed: checks 2 and 3 of R402 on the descriptor and the group that its tentative phase has read, then the instance (R401). -/
def postColl (s : State) (sid : Nat) (tag : Option Tag) (aligned : Bool) (d : CollDesc) (sparse send : Bool) (ms : Option (List GroupMember)) : State :=
  match getStrand s sid with
  | none => s
  | some t =>
    match gangOf s t with
    | none => s
    | some g =>
      let engine := deliverLater s sid tag (.poison .engine)
      if !aligned || descMisaligned d sparse send then deliverLater s sid tag (.poison .align)
      else if !s.numset || descBad d sparse then engine
      else
        match ms with
        | none => engine
        | some ms =>
          match rankIn s g ms with
          | none => engine
          | some rank =>
            if !(decide (d.root < ms.length) || (sparse && d.root == 0xFFF)) then engine
            else if sparse && !send && d.root != 0xFFF && d.root != rank then deliverLater s sid tag (.value 0)
            else
              let fixed := d.fixed || g.det
              let r := match findColl s g.job d.group d.seq sparse with
                | some c => (c, s)
                | none => newColl s g.job d sparse fixed ms
              let c := r.1
              if c.members.any (fun m => m.rank == rank && m.recv == !send) then engine
              else
                let len := if sparse then d.count else srcCount d ms.length rank * termBytes d.op d.ty
                let m : Member := { rank := rank, sid := sid, tag := tag, dst := d.dst, cap := d.count, recv := !send, desc := d, len := len, sent := false, done := false }
                let s1 := updColl r.2 c.id fun c => { c with members := c.members ++ [m] }
                if !send then
                  (if descTerms d sparse = c.terms then advanceColl s1 c.id
                   else advanceColl (updColl s1 c.id fun c => { c with bad := some .engine, badRank := none }) c.id)
                else contribute s1 c.id m (contributeEv c rank)

/-- Two partial combinations meet in a switch (R405 to R407); `a` and `b` name the lowest rank of each. -/
def execSwitchCombine (id a b : Nat) (s : State) : Out State :=
  .next (
    match getColl s id with
    | none => s
    | some c =>
      match c.parts.find? (fun p => p.ranks.head? == some a), c.parts.find? (fun p => p.ranks.head? == some b) with
      | some p, some q =>
        if a = b || (c.fixed && !siblings c.size p.ranks q.ranks) then s
        else
          let new : Part := { ranks := p.ranks ++ q.ranks, elems := List.zipWith (comb c.op) p.elems q.elems }
          let s1 := updColl s id fun c => { c with parts := (c.parts.filter fun x => x != p && x != q) ++ [new] }
          if c.parts.length = 2 ∧ c.raw.length = c.size then advanceColl s1 id else kickCombine s1 id
      | _, _ => s)

/-- Contribution of a rank. -/
def rawOf (c : Coll) (r : Nat) : List Byte := match c.raw.find? (fun x => x.1 == r) with
  | some x => x.2
  | none => []

/-- What a member's destination receives (R403, R406 to R408): its bytes with the SAT flag, element by element. -/
def collElems (s : State) (c : Coll) (rank : Nat) : List (List Byte × Bool) :=
  let ranks := upto c.size
  let reduced (i : Nat) : List Byte × Bool :=
    let x := if c.fixed then match c.parts with
        | p :: _ => p.elems[i]?
        | [] => none
      else reduceElem c (s.fresh + 2 * c.size * (i + 1)) (ranks.map fun r => some (enterElem c.ty c.op (rawOf c r) i))
    match x with
    | some y => leaveElem c y
    | none => ([], false)
  match c.kind with
  | 0 => (upto c.count).map reduced
  | 1 => if rank = c.root then (upto c.count).map reduced else []
  | 2 => (upto c.count).map fun i => moveElem c (rawOf c c.root) i
  | 3 => ranks.flatMap fun q => (upto c.count).map fun i => moveElem c (rawOf c q) i
  | 4 => (upto c.count).map fun i => reduced (rank * c.count + i)
  | _ => ranks.flatMap fun q => (upto c.count).map fun i => moveElem c (rawOf c q) (rank * c.count + i)

/-- A member's destination is written and its future fills (R240, R403, R408). -/
def execCollectiveDelivery (id rank : Nat) (s : State) : Out State :=
  .next (
    match getColl s id with
    | none => s
    | some c =>
      match c.members.find? (fun m => m.rank == rank && !m.done) with
      | none => s
      | some m =>
        if (unsent c rank).isSome then contribute s id m (.collectiveDelivery id rank) else
        match getStrand s m.sid with
        | none => retireColl (answerMember s id m (.value 0)) id
        | some t =>
          match gangOf s t with
          | none => retireColl (answerMember s id m (.value 0)) id
          | some g =>
            if c.raw.length < c.size || c.bad.isSome then s
            else
              let es := collElems s c rank
              match memberWrite s g t m.dst (es.flatMap (·.1)) with
              | .error e => holdEvent s e (asidOf s t) 7 (some m.sid) (.collectiveDelivery id rank)
              | .ok s1 =>
                let s2 := { s1 with fresh := s1.fresh + 2 * c.size * (es.length + 2) }
                retireColl (answerMember s2 id m (.value (BitVec.ofNat 1024 (es.length + if es.any (·.2) then 2 ^ 32 else 0)))) id)

/-- The path between two members is lost while the instance is in flight (R414). -/
def execCollectiveLinkLoss (id : Nat) (s : State) : Out State :=
  .next (let s1 := answerAll s id (fun _ => true) (.poison .link); { s1 with colls := s1.colls.filter fun c => c.id != id })

/-! ## Sparse streams -/

/-- Pad to a multiple of 8 bytes. -/
def up8 (n : Nat) : Nat := (n + 7) / 8 * 8


/-- Left fold of equal neighbours: the accumulated entry comes first (R409). -/
def foldEqual (op rank : Nat) (acc : Nat × Carry × Nat) : List (Nat × Carry × Nat) → List (Nat × List (Nat × Carry × Nat))
  | [] => [(acc.1, [(rank, acc.2)])]
  | x :: r => if x.1 = acc.1 then foldEqual op rank (acc.1, comb op acc.2 x.2) r else (acc.1, [(rank, acc.2)]) :: foldEqual op rank x r

/-- The entries of a block with equal indices combined. -/
def runsOf (op rank : Nat) : List (Nat × Carry × Nat) → List (Nat × List (Nat × Carry × Nat))
  | [] => []
  | x :: r => foldEqual op rank x r

/-- Whether a list never decreases. -/
def rising : List Nat → Bool
  | a :: b :: r => decide (a ≤ b) && rising (b :: r)
  | _ => true

/-- Read the blocks of a stream (R241) and check them (R409): the blocks, or the code that poisons. -/
def ingress (op : Nat) (ty : Ty) (rank : Nat) : Nat → List Byte → Option Nat → Except PoisonCode (List SpBlock)
  | 0, _, _ => .error .engine
  | f + 1, bs, prev =>
    if bs.length < 8 then .error .engine
    else
      let hd := wordAt bs 0
      let block := wbits hd 0 20
      let dense := bit hd.toNat 20
      let n := wbits hd 21 13
      let w := termBytes op (some ty)
      let idxLen := if dense then 0 else up8 (4 * n)
      let valLen := up8 (n * w)
      if wbits hd 34 29 ≠ 0 ∨ 4096 < n ∨ (dense ∧ n ≠ 4096) then .error .engine
      else if (match prev with
        | some p => decide (block ≤ p)
        | none => false) then .error .order
      else if bs.length < 8 + idxLen + valLen then .error .engine
      else
        let body := bs.drop 8
        let idx (i : Nat) : Nat := if dense then block * 4096 + i else natAt body (4 * i) 4
        let vals := body.drop idxLen
        let ids := (upto n).map idx
        if !rising ids || ids.any (fun i => i / 4096 != block) then .error .order
        else
          let b : SpBlock := { block := block, dense := dense, entries := runsOf op rank (ids.zipIdx.map fun p => (p.1, enterElem ty op vals p.2)) }
          if bit hd.toNat 63 then .ok [b]
          else match ingress op ty rank f (bs.drop (8 + idxLen + valLen)) (some block) with
            | .error e => .error e
            | .ok r => .ok (b :: r)

/-- The switch checks a stream at ingress (R409); the sender's future fills with 0 when the stream has left (R242). -/
def execSparseIngressCheck (id rank : Nat) (s : State) : Out State :=
  .next (
    match getColl s id with
    | none => s
    | some c =>
      match unsent c rank with
      | some m => contribute s id m (.sparseIngressCheck id rank)
      | none =>
      if c.bad.isSome || c.sparts.any (fun p => p.rank == rank) || !c.raw.any (fun r => r.1 == rank) then s
      else
        match ingress c.op c.ty rank ((rawOf c rank).length / 8 + 1) (rawOf c rank) none with
        | .error code => advanceColl (updColl s id fun c => { c with bad := some code, badRank := some rank }) id
        | .ok bs =>
          let s1 := updColl s id fun c => { c with sparts := c.sparts ++ [{ rank := rank, blocks := bs }] }
          advanceColl (answerAll s1 id (fun m => m.rank == rank && !m.recv) (.value 0)) id)

/-- Sorted union of numbers without repeats. -/
def unionSorted (xs : List Nat) : List Nat := (sortBy (fun a b => decide (a ≤ b)) xs).dedup

/-- Merge the blocks of one number (R410): for each index, the contributions of every rank. -/
def mergeBlock (c : Coll) (b : Nat) : SpBlock :=
  let bs := (c.sparts.flatMap (·.blocks)).filter fun x => x.block == b
  let es := bs.flatMap (·.entries)
  let ids := unionSorted (es.map (·.1))
  let sent := bs.any (·.dense)
  { block := b, dense := sent || decide (c.thresh < ids.length) || decide (2048 < ids.length)
    entries := ids.map fun i => (i, (es.filter fun e => e.1 == i).flatMap (·.2)) }

/-- Every block number that any member listed, merged (R410, R411). -/
def execSparseMerge (id : Nat) (s : State) : Out State :=
  .next (
    match getColl s id with
    | none => s
    | some c =>
      if c.sparts.length ≠ c.size ∨ c.result.isSome ∨ c.bad.isSome then s
      else
        let blocks := unionSorted ((c.sparts.flatMap (·.blocks)).map (·.block))
        advanceColl (updColl s id fun c => { c with result := some (blocks.map (mergeBlock c)) }) id)

/-- The absent value of an operator (R412). -/
def absentBytes (c : Coll) : List Byte :=
  let w := unitBytes c.dty
  let ext (neg : Bool) : Nat := if isFloatTy c.dty then convertV (.inf neg) false c.dty .rne c.ovf 0 else wrapN (if neg then intMin c.dty else intMax c.dty) c.dty.width
  match c.op with
  | 1 => leBytes w (ext false)
  | 2 => leBytes w (ext true)
  | 3 => leBytes w (2 ^ (8 * w) - 1)
  | 6 => leBytes 4 (ext false) ++ leBytes 4 0xFFFFFFFF
  | 7 => leBytes 4 (ext true) ++ leBytes 4 0xFFFFFFFF
  | _ => leBytes w 0

/-- Contributions of an index in the order of ranks, absent ones none. -/
def byRank (c : Coll) (xs : List (Nat × Carry × Nat)) : List (Option (Carry × Nat)) := (upto c.size).map fun r => (xs.find? fun x => x.1 == r).map (·.2)

/-- A delivered block: its bytes, and SAT (R241, R411, R412). -/
def blockBytes (s : State) (c : Coll) (b : SpBlock) (last : Bool) : List Byte × Bool :=
  let vals := b.entries.map fun e => (e.1, match reduceElem c (s.fresh + 2 * c.size * (e.1 + 1)) (byRank c e.2) with
    | some x => leaveElem c x
    | none => (absentBytes c, false))
  let n := if b.dense then 4096 else b.entries.length
  let hd := packWord [(b.block, 0), (if b.dense then 1 else 0, 20), (n, 21), (if last then 1 else 0, 63)]
  let body := if b.dense then
      (upto 4096).flatMap fun i => match vals.find? (fun v => v.1 == b.block * 4096 + i) with
        | some v => v.2.1
        | none => absentBytes c
    else
      let idx := b.entries.flatMap fun e => leBytes 4 e.1
      let vs := vals.flatMap (·.2.1)
      padTo (up8 idx.length) idx ++ padTo (up8 vs.length) vs
  (wordBytes hd ++ body, vals.any (·.2.2))

/-- Whole blocks up to a capacity, and whether the stream was cut (R242). -/
def fitBlocks : Nat → List (List Byte × Bool) → List (List Byte × Bool) × Bool
  | _, [] => ([], false)
  | cap, b :: bs => if b.1.length ≤ cap then let r := fitBlocks (cap - b.1.length) bs; (b :: r.1, r.2) else ([], true)

/-- The merged stream is written at a receiving member, and its SPRECV fills (R242, R411 to R413). -/
def execSparseStreamDelivery (id rank : Nat) (s : State) : Out State :=
  .next (
    match getColl s id with
    | none => s
    | some c =>
      match c.members.find? (fun m => m.rank == rank && m.recv && !m.done), c.result with
      | some m, some bs =>
        let outs := bs.zipIdx.map fun b => blockBytes s c b.1 (b.2 + 1 == bs.length)
        let fit := fitBlocks m.cap outs
        let data := fit.1.flatMap (·.1)
        let sentDense (b : SpBlock) : Bool := (c.sparts.flatMap (·.blocks)).any fun x => x.block == b.block && x.dense
        let grown := bs.any fun b => !sentDense b && decide (c.thresh < b.entries.length)
        let fell := bs.any fun b => !sentDense b && decide (b.entries.length ≤ c.thresh) && decide (2048 < b.entries.length)
        let flag (x : Bool) (k : Nat) : Nat := if x then 2 ^ k else 0
        let word : Word := BitVec.ofNat 64 (data.length + flag (fit.1.any (·.2)) 32 + flag grown 33 + flag fell 34 + flag fit.2 35)
        let done (s : State) : State := retireColl (answerMember { s with fresh := s.fresh + 2 * c.size * (2 ^ 32) } id m (.value (word.setWidth 1024))) id
        -- the strand of a withdrawn SPRECV may be gone: a far stream is written all the same (R103)
        let late : State := match (if caNear m.dst then none else getJob s c.job) with
          | none => done s
          | some j => match devWrite s j.asid m.dst data with
            | .error e => holdEvent s e j.asid 7 none (.sparseStreamDelivery id rank)
            | .ok s1 => done s1
        match getStrand s m.sid with
        | none => late
        | some t =>
          match gangOf s t with
          | none => late
          | some g =>
            match memberWrite s g t m.dst data with
            | .error e => holdEvent s e (asidOf s t) 7 (some m.sid) (.sparseStreamDelivery id rank)
            | .ok s1 => done s1
      | _, _ => s)

end Sys2Proof.Machine
end

