-- ==== Sys2Proof/Machine/Gust.lean ====
section
/-! DEFINITION. Gust's records, meshes and queues: task records (R33), rejection (R252, R352), the cluster mesh and placement search (R256, R257), enqueue and the overflow ring (R250, R251), candidates and rank (R254, R255). -/

namespace Sys2Proof.Machine

/-! ## Task records (R33) -/

/-- The fields of a task record from its 64 bytes. -/
def taskOf (bs : List Byte) : Task :=
  let w (i : Nat) : Word := wordAt bs (8 * i)
  { entry := w 0, width := wbits (w 1) 0 3 + 1, height := wbits (w 1) 3 3 + 1, nstr := wbits (w 1) 6 6 + 1, repl := (w 1).extractLsb' 12 2
    detreq := bit (w 1).toNat 14, split := bit (w 1).toNat 15, intacc := bit (w 1).toNat 16, nearsz := wbits (w 1) 17 9
    taskno := (w 2).extractLsb' 0 32, waitc := wbits (w 2) 32 16, nsucc := wbits (w 2) 48 16, succ := w 3, caddr := w 4
    cid := (w 5).extractLsb' 0 8, ctag := (w 5).extractLsb' 8 16, ckind := bit (w 5).toNat 24, arg0 := w 6, arg1 := w 7 }

/-- What R252 rejects without regard to the queue or the clusters. DEDUCED: a SUCC that is not 0 beside NSUCC = 0 is accepted, since R252 names SUCC only for NSUCC > 0 (log 55). -/
def recordBad (bs : List Byte) : Bool :=
  let t := taskOf bs
  wbits (wordAt bs 8) 26 38 != 0 || wbits (wordAt bs 40) 25 39 != 0 || t.repl == 0 || wbits t.entry 0 5 != 0 ||
  decide (t.width * t.height < t.nstr) || decide (256 < t.nearsz) || (decide (0 < t.nsucc) && (t.succ == 0 || t.succ.toNat % 8 != 0))

/-! ## The cluster mesh (R256) -/

/-- The physical cores of a cluster that are mapped out now. -/
def lostCores (s : State) (die cl : Nat) : List Nat := s.mapped.filterMap fun u => match u with
  | .core d c n => if d = die ∧ c = cl then some n else none
  | _ => none

/-- The cores that the mesh of a cluster leaves out: those lost when it was bound. -/
def meshLost (s : State) (die cl : Nat) : List Nat := match s.meshes.find? (fun m => m.1 == 3 * die + cl) with
  | some m => m.2
  | none => lostCores s die cl

/-- Cores of a row that the mesh of a cluster leaves out. -/
def rowLost (s : State) (die cl y : Nat) : Nat := ((meshLost s die cl).filter fun n => n / 9 == y).length

/-- The physical core bound at a position of a cluster mesh: its row's cores in order, without those left out. -/
def boundCore (s : State) (die cl x y : Nat) : Option Nat := (((upto 9).map (· + 9 * y)).filter fun n => !(meshLost s die cl).contains n)[x]?

/-- Whether the core of a position has been mapped out since the mesh was bound, or its cluster or die has (R431). -/
def coreGone (s : State) (core : Nat) : Bool :=
  let d := coreDie core
  let c := coreCluster core
  s.mapped.contains (.cluster d c) || s.mapped.contains (.die d) ||
  match boundCore s d c (core % 8) (core / 8 % 8) with
  | some n => (lostCores s d c).contains n && !(meshLost s d c).contains n
  | none => false

/-- Whether a position of a cluster mesh is a hole. -/
def holeAt (s : State) (die cl : Nat) (p : Nat × Nat) : Bool :=
  let k := rowLost s die cl p.2
  decide (2 ≤ k) && decide (9 - k ≤ p.1)

/-- Whether a cluster has reported ready. -/
def clusterReady (s : State) (die cl : Nat) : Bool := s.ready.toNat.testBit (3 * die + cl)

/-- Whether a cluster, or its die, has been mapped out (R431). -/
def clusterOut (s : State) (die cl : Nat) : Bool := s.mapped.contains (.cluster die cl) || s.mapped.contains (.die die)

/-- The core at a position of a cluster mesh. -/
def coreAt (die cl : Nat) (p : Nat × Nat) : Nat := die * 192 + cl * 64 + p.2 * 8 + p.1

/-- Position of strand `i` under an orientation at an origin (R257). -/
def posOf (w h ox oy o i : Nat) : Nat × Nat :=
  let x := i % w
  let y := i / w
  (ox + if o % 2 = 1 then w - 1 - x else x, oy + if o / 2 = 1 then h - 1 - y else y)

/-- The candidate placements of a gang in a cluster, in the order of R257: the positions of its strands. -/
def candidatesIn (w h n : Nat) : List (List (Nat × Nat)) :=
  (upto (9 - h)).flatMap fun oy => (upto (9 - w)).flatMap fun ox => (upto 4).map fun o => (upto n).map (posOf w h ox oy o)

/-- Whether a cluster has ever reported ready: its mesh was bound then (R256). -/
def everReady (s : State) (die cl : Nat) : Bool := s.meshes.any fun m => m.1 == 3 * die + cl

/-- Whether a cluster could place a shape if every core were idle; one that has not yet reported ready counts as having no hole, mapped out or not (R252). -/
def couldPlace (s : State) (die cl w h n : Nat) : Bool :=
  !everReady s die cl || (!clusterOut s die cl && (candidatesIn w h n).any fun ps => ps.all fun p => !holeAt s die cl p)

/-- The dies of a task's replicas, windward first (R351). -/
def replicaDies (d : Nat) (repl : BitVec 2) : List Nat :=
  match repl.toNat with
  | 2 => [d, (d + 4) % 8]
  | 3 => [d, (d + 3) % 8, (d + 5) % 8]
  | _ => [d]

/-- A queue of a die; one not listed has never been written. -/
def getQueue (s : State) (die q : Nat) : Option HwQueue := (getDie s die).queues.find? fun x => x.num == q

/-- Update a queue. -/
def updQueue (s : State) (die q : Nat) (f : HwQueue → HwQueue) : State :=
  updDie s die fun d => { d with queues := updFirst (fun x => x.num == q) f d.queues }

/-- The clusters of a mask. -/
def clustersOf (m : BitVec 3) : List Nat := (upto 3).filter fun c => bit m.toNat c

/-- Whether Gust rejects a record at a queue (R252, R352). -/
def rejects (s : State) (die : Nat) (q : HwQueue) (bs : List Byte) : Bool :=
  let t := taskOf bs
  recordBad bs || (t.detreq && !q.det) ||
  (replicaDies die t.repl).any fun d =>
    (decide (1 < t.repl.toNat) && s.mapped.contains (.die d)) || !(clustersOf q.clmask).any fun c => couldPlace s d c t.width t.height t.nstr

/-! ## The queue (R250, R251) -/

/-- Records of a queue that stand in its ring, the ones that wait to be written included. -/
def ringCount (q : HwQueue) : Nat := (q.rtail - q.rhead).toNat + q.waitRing.length

/-- The address space of the job that owns a queue. -/
def queueAsid (s : State) (q : HwQueue) : Nat := match getJob s q.job with
  | some j => j.asid
  | none => 0

/-- Far address of a ring entry (R250). -/
def ringEntry (q : HwQueue) (i : BitVec 32) : Word := q.ring + BitVec.ofNat 64 (8 * (i.toNat % 2 ^ q.ringlog))

/-- Write the ring entries that wait; a fault holds the refill (R433). -/
def flushRing : Nat → State → Nat → Nat → State
  | 0, s, _, _ => s
  | n + 1, s, die, num =>
    match getQueue s die num with
    | none => s
    | some q =>
      match q.waitRing with
      | [] => s
      | a :: rest =>
        match devWrite s (queueAsid s q) (ringEntry q q.rtail) (wordBytes a) with
        | .error e => holdEvent s e (queueAsid s q) 7 none (.ringRefill die num)
        | .ok s1 => flushRing n (updQueue s1 die num fun q => { q with waitRing := rest, rtail := q.rtail + 1 }) die num

/-- Move entries of the ring to the on-die part while it has room; an entry of 0 is skipped (R251, R255). -/
def refill : Nat → State → Nat → Nat → State
  | 0, s, _, _ => s
  | n + 1, s, die, num =>
    match getQueue s die num with
    | none => s
    | some q =>
      if q.rhead = q.rtail ∨ 16 ≤ q.onDie.length then s
      else
        match devRead s (queueAsid s q) (ringEntry q q.rhead) 8 with
        | .error e => holdEvent s e (queueAsid s q) 6 none (.ringRefill die num)
        | .ok bs =>
          let a := wordAt bs 0
          refill n (updQueue s die num fun q => { q with rhead := q.rhead + 1, onDie := q.onDie ++ if a = 0 then [] else [a] }) die num

/-- RING_REFILL: waiting entries are written, and the on-die part is filled from the ring (R251, R433). -/
def execRingRefill (die q : Nat) (s : State) : Out State :=
  .next (match getQueue s die q with
    | none => s
    | some x => after (refill (ringCount x + 1) (flushRing (x.waitRing.length + 1) s die q) die q) 0 (.dispatch die))

/-- Outcomes of an enqueue. -/
inductive EnqRes where
  | done | rejected | full
deriving DecidableEq, Repr

/-- ENQUEUE of a record that has been read and checked: it joins its queue on die or in the ring, or finds both full (R251). -/
def joinQueue (s : State) (die num : Nat) (rec : Word) : EnqRes × State :=
  match getQueue s die num with
  | none => (.rejected, s)
  | some q =>
    if q.rhead != q.rtail || !q.waitRing.isEmpty || decide (16 ≤ q.onDie.length) then
      if ringCount q = 2 ^ q.ringlog then (.full, s)
      else
        let s1 := updQueue s die num fun q => { q with waitRing := q.waitRing ++ [rec] }
        (.done, after (if q.waitRing.isEmpty then flushRing 1 s1 die num else s1) 0 (.dispatch die))
    else (.done, after (updQueue s die num fun q => { q with onDie := q.onDie ++ [rec] }) 0 (.dispatch die))

/-- ENQUEUE: a task-record address joins its hardware queue, unless Gust rejects the record (R251, R252). A handler record that is rejected leaves its events in the ring (R373). -/
def execEnqueue (die q : Nat) (rec : Word) (s : State) : Out State :=
  .next (
    match getQueue s die q with
    | none => s
    | some x =>
      match getJob s x.job with
      | none => s
      | some j =>
        let handler := s.jobs.find? fun k => k.handler == rec && k.hdie == die && k.hq == q
        if (match handler with
          | some k => k.handlerLive || !j.priv
          | none => false) then s
        else
          match devRead s j.asid rec 64 with
          | .error e => holdEvent s e j.asid 6 none (.enqueue die q rec)
          | .ok bs =>
            if rejects s die x bs then s
            else
              let r := joinQueue s die q rec
              match handler, r.1 with
              | some k, .done => updJob r.2 k.jobn fun k => { k with handlerLive := true }
              | _, _ => r.2)

end Sys2Proof.Machine
end

