-- ==== Sys2Proof/Machine/Commit.lean ====
section
/-! DEFINITION. Commit points (R109, R318): what a bundle asks for, the tentative and perform phases, what follows the window, LAUNCH's answer (R102), and the completion of a task as LAUNCH and Gust report it (R34). -/

namespace Sys2Proof.Machine

/-! ## Asking for a commit point -/

/-- No commit point yet. -/
def Closing.start : Closing :=
  { phase := .atIssue, mask := 0, cpt := 0, next := 0, post := [], lines := [], gen := [], items := [], compare := false, keep := false, open_ := 0
    rids := [], faults := [], late := false, kept := [], before := none, record := none, recBytes := [], reject := false }

/-- A slot of the bundle at issue makes its window close when the bundle has issued (R318): opcode, further words of its commit item (R355), and what follows the window. -/
def commitPoint (s : State) (opc : Nat) (ws : List Word) (post : List Post) : State :=
  let c := s.me.closing.getD Closing.start
  { s with me := { s.me with closing := some { c with mask := c.mask ||| slotBit (slotNo s), items := c.items ++ [(opc, slotNo s, ws)], post := c.post ++ post } } }

/-- Whether what follows a window acts outside the strand's context and near space: a release operation (R353). -/
def releases : Post → Bool
  | .copy c => farBound c
  | .array _ _ | .arrayPoison _ _ | .nearAtom _ | .near _ _ _ | .launchAlign _ | .rel _ => false
  | _ => true

/-- The tag that an operation which follows a window will deliver to. -/
def postTag (s : State) : Post → Option Tag
  | .farAtom id => (s.farAtoms.find? fun a => a.id == id).bind (·.tag)
  | p => (postTags p).head?

/-! ## What the tentative phase waits for -/

/-- Far loads of the open window that are not bound (R213). -/
def loadsOpen (s : State) (t : Strand) : Bool := s.farLoads.any fun l => l.sid == t.sid && l.window == t.window

/-- Whether the commit point waits for earlier atomics to be placed (R217). -/
def waitsAtoms (s : State) (t : Strand) : Bool :=
  s.farAtoms.any fun a => a.sid == t.sid && a.sent && (a.tag.isSome || t.farLoaded || !t.log.isEmpty || !t.gated.isEmpty)

/-- Near-bound copies of the open window whose far sources are not translated (R233). -/
def copiesOpen (s : State) (t : Strand) : List (Nat × CopyOp) :=
  s.cores.flatMap fun k =>
    (k.copies.filter fun c => c.sid == t.sid && c.window == t.window && !farBound c && !caNear c.src && !c.xlated && !c.started).map fun c => (k.id, c)

/-- Whether what follows a window needs translations of its own (R102, R232). -/
def needsXlate : Post → Bool
  | .copy c => !(caNear c.src && caNear c.dst)
  | .coll _ _ _ _ | .spsend _ _ _ _ | .sprecv _ _ _ _ | .launch _ _ _ => true
  | _ => false

/-- Whether a post is an array command. -/
def isArrayPost : Post → Bool
  | .array _ _ | .arrayPoison _ _ => true
  | _ => false

/-- Whether what follows a window is a command, which leaves in the ck after its window has been performed (R186, R232). -/
def isCommand : Post → Bool
  | .farAtom _ | .nearAtom _ | .launch _ _ _ | .launchAlign _ | .near _ _ _ | .exit | .rel _ => false
  | _ => true

/-- Whether something of the window, but for its logged registers, keeps its commit point open (R109, R213, R217, R233, R353). DESIGN CHOICE: an array command whose window holds no gated line waits for these too (log 28). -/
def heldOpen (s : State) (t : Strand) (c : Closing) : Bool :=
  c.compare || !t.gated.isEmpty || loadsOpen s t || waitsAtoms s t || !(copiesOpen s t).isEmpty || c.post.any needsXlate

/-- Whether the commit point parks (R109): it completes in its ck of issue when its window is empty. A register that its own bundle logs counts (R217). -/
def needsPhase (s : State) (t : Strand) (c : Closing) : Bool := heldOpen s t c || !t.log.isEmpty

/-! ## Completion -/

/-- How a wait after the window begins (R103, R320, R434). -/
def remainOf (s : State) (t : Strand) (ps : List Post) : Remain :=
  if ps.contains .exit then .exit
  else
    match ps.findSome? (fun p => match p with
      | .rel f => some f
      | _ => none) with
    | some f => if f == .context || !accessOut s t then .none else .rel f
    | none => .none

/-- A SEND that was poisoned at issue leaves no message; its ticket is used and skipped (R236, R298). -/
def refuseSend (s : State) (t : Strand) (c : BitVec 6) (op : SendOp) (code : PoisonCode) : State :=
  match sendEnd s t.gid c with
  | some (g, x) => poisonSend (useTicket s t.sid c op.num) g.job x.peer op code
  | none => deliverLater s t.sid op.tag (.poison code)

/-- Send one operation that waited for its window (R216, R219, R232, R186). -/
def runPost (s : State) (sid : Nat) (cpt : Word) (p : Post) : State :=
  match getStrand s sid with
  | none => s
  | some t =>
    match p with
    | .farAtom id => later { s with farAtoms := s.farAtoms.map fun a => if a.id = id then { a with sent := true, cpt := cpt } else a } (.atomicPlacement id)
    | .nearAtom id =>
      let s1 : State := { s with nearOps := s.nearOps.map fun o => if o.id = id then { o with sent := true } else o }
      match s.nearOps.find? (fun o => o.id == id) with
      | none => s
      | some o => if o.slice = t.lidx.toNat then after s1 7 (.nearAtomicApply id) else nearSoon s1 o.loc (.nearAtomicApply id)
    | .near slice loc w => nearPut s t slice loc w
    | .array core c => sendArray s core c
    | .arrayPoison tag code => deliverLater s sid tag (.poison code)
    | .copy c => placeCopy s (coreOf t) c
    | .copyPoison tag code => deliverLater s sid tag (.poison code)
    | .chan c tag desc bad => match bad with
      | some code => deliverLater s sid tag (.poison code)
      | none => bindChan s t.gid sid c tag desc
    | .send c op bad => match bad with
      | some code => refuseSend s t c op code
      | none => postSend (useTicket s sid c op.num) t.gid c op
    | .recv op bad => match bad with
      | some code => deliverLater s sid op.tag (.poison code)
      | none => postRecv s t.gid op
    | .tick c tag => postTick s t.gid sid c tag
    | .coll tag al desc ms => postColl s sid tag al (collDesc desc) false true ms
    | .spsend tag al desc ms => postColl s sid tag al (sparseDesc desc) true true ms
    | .sprecv tag al desc ms => postColl s sid tag al (sparseDesc desc) true false ms
    | .launchAlign a => updStrand s sid fun t => writeKept t a (RegVal.poison .align (t.regs.get a).tag)
    | .launch _ _ _ | .exit | .rel _ => s

/-- The bookkeeping of a completed commit point (R22, R96, R109, R115, R328, R353): an empty window, the loop and sequencer copied, CPT moved. -/
def closeWindow (t : Strand) (c : Closing) : Strand :=
  let e : Eddy := if c.compare then ⟨0, 0, 0⟩ else t.eddy
  let n := if c.compare then 0 else t.agreeN
  let ord := if c.compare then t.ordinal + 1 else t.ordinal
  { t with
    window := t.window + 1, cpt := c.cpt, log := [], replay := none, gated := [], farLoaded := false, loopC := t.loop, seqC := t.seq
    eddy := e, eddyC := e, agreeN := n, agreeC := n, ordinal := ord, sig := none, verdict := false
    tries := if c.compare then 0 else t.tries
    agreed := t.agreed.filter fun a => decide (ord ≤ a.1) || t.agreeWait.any fun w => w.1 == a.1 && w.2.1 == a.2.1 }

/-- The windward's outcome is delivered to a leeward's future too (R358, R359). -/
def mirrorPosts (s : State) (w : Nat) (ps : List Post) (l : Strand) : State :=
  match l.closing with
  | none => s
  | some c =>
    { s with mirrors := s.mirrors ++ (ps.zip c.post).filterMap fun p => match postTag s p.1, postTag s p.2 with
        | some a, some b => if releases p.1 && !(match p.1 with
            | .launch _ _ _ => true
            | _ => false) then some (w, a, l.sid, b) else none
        | _, _ => none }

/-- The strand as the bundle of its LAUNCH found it, with the values delivered since (R102). -/
def restoreBefore (t : Strand) (b : Before) : Strand :=
  { t with regs := b.log.foldl restoreReg t.regs, h := b.h, loop := b.loop, loopC := b.loop, seq := b.seq, seqC := b.seq, faultinj := b.inj.1, storeCount := b.inj.2 }

/-- Gust rejects the record of a LAUNCH: no slot of its bundle commits, and the window keeps what stood in it before (R102). -/
def rejectBundle (s : State) (sid : Nat) : State :=
  match getStrand s sid with
  | none => s
  | some t =>
    match t.closing with
    | none => s
    | some c =>
      match c.before with
      | none => s
      | some b =>
        let mine (i who : Nat) : Bool := who == sid && decide (b.firstId ≤ i)
        let gone := s.farLoads.filterMap (fun l => if mine l.id l.sid then l.tag else none) ++ s.farAtoms.filterMap (fun a => if mine a.id a.sid then a.tag else none) ++
          s.nearOps.filterMap (fun o => if mine o.id o.sid then (match o.what with
            | .atomic _ _ _ t => t
            | _ => none) else none) ++ (c.post.filter isCommand).flatMap postTags
        let keep (p : Post) : Bool := match p with
          | .launch _ _ _ => true
          | _ => false
        let s1 : State := { s with
          farLoads := s.farLoads.filter fun l => !mine l.id l.sid
          farAtoms := s.farAtoms.filter fun a => !mine a.id a.sid
          nearOps := s.nearOps.filter fun o => !mine o.id o.sid }
        updStrand s1 sid fun t => { gone.foldl releaseSerial t with gated := b.gated, closing := some { c with reject := true, post := c.post.filter keep } }

/-- Give the leeward strands their part of what the windward does once, and let them go on; a rejected LAUNCH is rejected in each (R102, R353, R356). -/
def releaseLeewards (s : State) (t : Strand) (c : Closing) : State :=
  (leewardsOf s t).foldl (fun s u =>
    let s1 := if c.reject then rejectBundle s u.sid else mirrorPosts s t.sid c.post u
    later (updStrand s1 u.sid fun u => { u with verdict := true, sig := none }) (.replicaGo u.sid)) s

/-- A far-bound copy of the windward contributes to every replica's barrier and semaphore (R230, R359). -/
def withLee (s : State) (t : Strand) : Post → Post
  | .copy c => .copy (if farBound c then { c with lee := (leewardsOf s t).map (·.sid) } else c)
  | p => p

/-- What follows a window: at once when the commit point completes in its ck of issue, else commands leave in the next ck (R186, R232). -/
def runPosts (s : State) (sid : Nat) (c : Closing) (ps : List Post) : State :=
  let wait := c.phase != .tentative
  let s1 := (ps.filter fun p => !(wait && isCommand p)).foldl (fun s p => runPost s sid c.cpt p) s
  if wait && ps.any isCommand then after (updStrand s1 sid fun t => { t with leaving := t.leaving ++ ps.filter isCommand }) 1 (.windowPerform sid) else s1

/-- The strand goes on at the next bundle; a context that has parked is ready in the next ck, unless its bundle keeps it longer (R92, R101). -/
def goOn (now : Nat) (next : Word) (t : Strand) : Strand :=
  let u := { t with pc := next, st := .running, remain := .none, cdone := false }
  if t.st == .parked then { u with readyAt := max t.notBefore (now + 1), notBefore := max t.notBefore (now + 1) } else u

/-- The commit point completes: the window closes, what waited for it is sent, and the strand goes on (R109, R318, R434). A strand that a barrier has marked traps before it can end (R289). -/
def finishCommit (s : State) (sid : Nat) : State :=
  match getStrand s sid with
  | none => s
  | some t =>
    match t.closing with
    | none => s
    | some c =>
      let leeward := c.compare && (!windward s t || t.verdict)
      let posts := if leeward then c.post.filter fun p => !releases p else c.post.map (withLee s t)
      let s0 := if c.compare && !leeward then releaseLeewards s t c else s
      let launch := c.post.any fun p => match p with
        | .launch _ _ _ => true
        | _ => false
      let u := closeWindow t c
      let s1 := updStrand s0 sid fun _ => { u with closing := none }
      let s2 := runPosts s1 sid c posts
      let gone := if leeward then c.post.filterMap fun p => match p with
          | .farAtom id => some id
          | _ => none
        else []
      let s3 : State := { s2 with farAtoms := s2.farAtoms.filter fun a => !gone.contains a.id }
      let remain := match getStrand s3 sid with
        | some v => remainOf s3 v c.post
        | none => .none
      let s4 := updStrand s3 sid fun v =>
        if launch then { v with closing := some { c with phase := .answer }, st := .parked, parkid := none, parkedAt := s.clock }
        else if c.keep then v
        else if remain = .none then goOn s.clock c.next v
        else { v with st := .parked, parkid := none, cdone := true, remain := remain, parkedAt := s.clock }
      let s5 := if launch && !leeward then later s4 (.launchAnswer sid) else s4
      let s6 := if u.mark.isSome then after s5 0 (.barrierBytes sid) else s5
      let s7 := if remain = .exit then after s6 0 (.strandDone sid) else s6
      let s8 := match u.heldTrap with
        | some x => takeTrapOn s7 sid { x with window := u.window } x.bundle
        | none => s7
      if c.keep then later s8 (.eviction sid) else s8

/-! ## The tentative phase -/

/-- A fault of a tentative phase: access code, kind, address, the owner's generation (R337, R342). -/
abbrev PhaseFault := BitVec 4 × BitVec 4 × Word × BitVec 32

/-- A fault with the generation of its owner. -/
def phaseFaultOf (s : State) (asid : Nat) (acc : BitVec 4) (e : XFault) : PhaseFault := (acc, e.1, e.2, faultGen s asid e)

/-- What the lines that this device owns give: the places reserved, the lines that miss, and the faults (R318, R339). -/
structure LinesAt where
  places : List (GatedLine × Nat × Option (BitVec 12))
  missing : List Word
  faults : List PhaseFault

/-- Translate the lines that this device owns; every faulting line is reported. -/
def xlateLines (s : State) (asid : Nat) (ls : List GatedLine) : LinesAt :=
  ls.foldl (fun r l =>
    match translate s asid l.line .store with
    | .ok p => { r with places := r.places ++ [(l, p.addr, p.dev)] }
    | .error k => if k = kWalk then { r with missing := r.missing ++ [l.line] } else { r with faults := r.faults ++ [phaseFaultOf s asid 1 (k, l.line)] }) ⟨[], [], []⟩

/-- The members of a collective's group, once its table, its list and the pages of its far ranges that this device owns have been translated (R232, R336); none when it names no group. -/
def collPages (s : State) (g : Gang) (t : Strand) (j : Job) (d : CollDesc) (sparse send : Bool) : Except (BitVec 4 × XFault) (Option (List GroupMember)) :=
  match groupInfo s j d.group with
  | .error e => .error (0, e)
  | .ok none => .ok none
  | .ok (some ms) =>
    let rank := (rankIn s g ms).getD 0
    let srcLen := if sparse then d.count else srcCount d ms.length rank * termBytes d.op d.ty
    let dstLen := if sparse then d.count else dstCount d.kind d.root d.count ms.length rank * termBytes d.op d.dty
    match (if send then xlateHere s (asidOf s t) .load (sidePages d.src [(0, srcLen)]) else .ok []),
      (if sparse && send then .ok [] else xlateHere s (asidOf s t) .store (sidePages d.dst [(0, dstLen)])) with
    | .error e, _ => .error (3, e)
    | _, .error e => .error (4, e)
    | _, _ => .ok (some ms)

/-- Translate what follows a window (R232): the post with its translations, or the access code and the fault. -/
def xlatePost (s : State) (g : Gang) (t : Strand) (p : Post) : Except (BitVec 4 × XFault) Post :=
  let coll (aligned : Bool) (d : CollDesc) (sparse send : Bool) (mk : Option (List GroupMember) → Post) : Except (BitVec 4 × XFault) Post :=
    match getJob s g.job with
    | none => .ok p
    | some j =>
      if !aligned || descMisaligned d sparse send || !s.numset || descBad d sparse then .ok p
      else match collPages s g t j d sparse send with
        | .error e => .error e
        | .ok ms => .ok (mk ms)
  match p with
  | .copy c =>
    if caNear c.src && caNear c.dst then .ok p
    else match xlateCopy s g t c with
      | .error e => .error (e.2, e.1)
      | .ok c => .ok (.copy c)
  | .coll tag al desc _ => coll al (collDesc desc) false true fun ms => .coll tag al desc ms
  | .spsend tag al desc _ => coll al (sparseDesc desc) true true fun ms => .spsend tag al desc ms
  | .sprecv tag al desc _ => coll al (sparseDesc desc) true false fun ms => .sprecv tag al desc ms
  | _ => .ok p

/-- Translate everything that follows a window. -/
def xlatePosts (s : State) (g : Gang) (t : Strand) : List Post → Except (BitVec 4 × XFault) (List Post)
  | [] => .ok []
  | p :: ps =>
    match xlatePost s g t p with
    | .error e => .error e
    | .ok q =>
      match xlatePosts s g t ps with
      | .error e => .error e
      | .ok r => .ok (q :: r)

/-- Release what other packages have reserved or keep for a commit point (R318). -/
def releaseRemote (s : State) (sid : Nat) (c : Closing) : State :=
  releaseAll { s with reqs := s.reqs.filter fun r => r.what != .reserve sid } (c.rids ++ c.kept ++ (postCopies c.post).flatMap (·.kept))

/-- The slot mask of a fault in a tentative phase (R337): for gated lines bit 0 when the bundle holds a CMT or REL, else the slots whose commit point it is; for another request the slot that issued it. -/
def phaseMask (c : Closing) (acc : BitVec 4) : BitVec 8 :=
  if acc = 1 then (if c.items.any fun i => i.2.1 == 0 && (i.1 == 22 || i.1 == 23) then 1 else c.mask)
  else if acc = 6 || acc = 7 then 1
  else 0b10000000

/-- The owner of a far address: its device and die. -/
def ownerOf (s : State) (va : Word) : Word := canon s va >>> 45

/-- A fault in the tentative phase (R337): the lowest faulting line decides, else what another request has found; each owner posts its own descriptor. -/
def phaseFault (s : State) (t : Strand) (c : Closing) (fs : List PhaseFault) : State :=
  let lines := fs.filter fun f => f.1 == 1
  match (if lines.isEmpty then fs else lines) with
  | [] => s
  | f :: rest =>
    let low := rest.foldl (fun (a b : PhaseFault) => if a.1 == 1 && b.2.2.1 < a.2.2.1 then b else a) f
    let mask := phaseMask c low.1
    let owners := ((fs.map fun x => ownerOf s x.2.2.1).dedup).filter fun o => o != ownerOf s low.2.2.1
    let others := owners.filterMap fun o => fs.find? fun x => ownerOf s x.2.2.1 == o
    let e : XFault := (low.2.1, low.2.2.1)
    others.foldl (fun s x => postFault s t (x.2.1, x.2.2.1) x.1 x.2.2.2 (faultRec t e mask)) (faultStrand s t e mask low.1 low.2.2.2)

/-- Every place is reserved: the signatures are compared, or the window is performed (R318, R356). -/
def reserved (s : State) (sid : Nat) : State :=
  match getStrand s sid with
  | none => s
  | some t =>
    match t.closing with
    | none => s
    | some c =>
      if c.compare then offerSig (updStrand s sid fun t => { t with closing := some { c with phase := .compare } }) sid (sigOf t.eddy)
      else after (updStrand s sid fun t => { t with closing := some { c with phase := .perform } }) 0 (.windowPerform sid)

/-- The dies of other packages that own lines of a window, with the bytes for each. -/
def remoteLines (s : State) (ls : List GatedLine) : List (BitVec 12 × List (Word × Byte)) :=
  let far := ls.filter fun l => isRemote s l.line
  ((far.map fun l => ownerOf s l.line).dedup).map fun (o : Word) => ((o >>> 3).setWidth 12, (far.filter fun l => ownerOf s l.line == o).flatMap lineBytes)

/-- Every owner has answered the reservation of a window (R318): a fault rolls the strand back, else every place is reserved. -/
def reserveSettled (s : State) (sid : Nat) : State :=
  match getStrand s sid with
  | none => s
  | some t =>
    match t.closing with
    | none => s
    | some c => if c.faults.isEmpty then reserved s sid else phaseFault s t c c.faults

/-- Ask every owner for places (R318); the faults found here wait for those of other packages (R337). -/
def beginReserve (s : State) (t : Strand) (c : Closing) (ls : LinesAt) (far : List (BitVec 12 × List (Word × Byte))) (ps : List Post) (fs : List PhaseFault) : State :=
  let c1 := { c with phase := .reserve, lines := ls.places, post := ps, open_ := far.length, rids := [], faults := ls.faults ++ fs
                     gen := (upto 8).map fun d => (d, (getDie s d).gen) }
  let s1 := updStrand s t.sid fun t => { t with closing := some c1 }
  let s2 := far.foldl (fun s d =>
    let rid := s.nextId
    updStrand (sendReq s d.1 (.reserve t.sid) fun rid => .reserve rid (asidOf s t) d.2 1 (t.sid, t.crec)) t.sid fun t =>
      { t with closing := t.closing.map fun c => { c with rids := c.rids ++ [(rid, d.1)] } }) s1
  if far.isEmpty then reserveSettled s2 t.sid else s2

/-- Reserve the window's lines at their owners (R318): every line that misses starts or joins a walk (R339), and a path that is lost keeps the commit point in this phase (R396). `fs` are faults found before. -/
def reserveLines (s : State) (t : Strand) (c : Closing) (g : Gang) (fs : List PhaseFault) : State :=
  let asid := asidOf s t
  let ev : Instr := .windowTentativePhase t.sid
  let ls := xlateLines s asid (t.gated.filter fun l => !isRemote s l.line)
  let far := remoteLines s t.gated
  if !ls.missing.isEmpty then ls.missing.foldl (fun s va => joinWalk s (farDie va) asid (farOff va) ev) s
  else if far.any (fun d => pathLost s d.1) || ls.places.any (fun l => match l.2.2 with
      | some d => pathLost s d
      | none => false) then poll s ev
  else if !fs.isEmpty then beginReserve s t c ls far c.post fs
  else
    match xlatePosts s g t c.post with
    | .error f => if waits f.2.1 then awaitAccess s f.2 asid f.1 false (t.sid, t.crec) ev else beginReserve s t c ls far c.post [phaseFaultOf s asid f.1 f.2]
    | .ok ps => beginReserve s t c ls far ps []

/-- Whether the index list of a near-bound GATH can be read: no copy before it on its queue is outstanding (R228, R233). -/
def listReady (s : State) (core : Nat) (c : CopyOp) : Bool := c.kind != .gath || (nextCopy (getCore s core) (cmQueue c.cmd)).map (·.id) == some c.id

/-- Translate the far sources of the window's near-bound copies before it closes (R233). -/
def xlateWindowCopies (s : State) (g : Gang) (t : Strand) : List (Nat × CopyOp) → Except (BitVec 4 × XFault) State
  | [] => .ok s
  | (core, c) :: cs =>
    match xlateCopy s g t c with
    | .error e => .error (e.2, e.1)
    | .ok d => xlateWindowCopies (updCopy s core c.id fun x => { x with xl := d.xl, xlated := true, kept := d.kept, idx := d.idx }) g t cs

/-! ## What the signature covers (R355) -/

/-- Bytes at a copy address that are read for the signature. -/
def hashRead (s : State) (g : Gang) (t : Strand) (a : Word) (off n : Nat) : Except XFault (List Byte) :=
  if caNear a then copyNear s g t (caBits a) off n else devRead s (asidOf s t) (a + BitVec.ofNat 64 off) n

/-- The source bytes of a copy in the order it reads them (R355). -/
def copySource (s : State) (g : Gang) (t : Strand) (c : CopyOp) : List (Nat × Nat) → Except XFault (List Byte)
  | [] => .ok []
  | r :: rs =>
    match hashRead s g t c.src r.1 r.2 with
    | .error e => .error e
    | .ok bs =>
      match copySource s g t c rs with
      | .error e => .error e
      | .ok more => .ok (bs ++ more)

/-- The words of a copy before its source bytes (R355). -/
def copyWords (c : CopyOp) : List Word :=
  let h (k : Nat) : Word := c.h.extractLsb' (64 * k) 64
  [c.src, c.dst, c.cmd, h 0, h 1, h 2, h 3]

/-- The source bytes of a collective or a stream, as they are hashed (R355). -/
def collSource (s : State) (g : Gang) (t : Strand) (d : CollDesc) (sparse : Bool) : Except (BitVec 4 × XFault) (List Byte) :=
  match getJob s g.job with
  | none => .ok []
  | some j =>
    match groupInfo s j d.group with
    | .error e => .error (0, e)
    | .ok none => .ok []
    | .ok (some ms) =>
      let len := if sparse then d.count else srcCount d ms.length ((rankIn s g ms).getD 0) * termBytes d.op d.ty
      match memberRead s g t d.src len with
      | .error e => .error (3, e)
      | .ok bs => .ok bs

/-- The item of an operation whose source far memory holds: kind, SUB and words (R355). Its source is read in the tentative phase. -/
def lateItem (s : State) (g : Gang) (t : Strand) (p : Post) : Option (Except (BitVec 4 × XFault) (Nat × Nat × List Word)) :=
  let coll (desc : List Byte) (d : CollDesc) (sparse : Bool) : Except (BitVec 4 × XFault) (Nat × Nat × List Word) :=
    match collSource s g t d sparse with
    | .error e => .error e
    | .ok bs => .ok (4, 0, wordsOf desc ++ wordsOf bs)
  match p with
  | .copy c =>
    if !farBound c || caNear c.src then none
    else some (match copySource s g t c (srcRanges c) with
      | .error e => .error (3, e)
      | .ok bs => .ok (3, cmQueue c.cmd, copyWords c ++ wordsOf bs))
  | .coll _ true desc _ => some (coll desc (collDesc desc) false)
  | .spsend _ true desc _ => some (coll desc (sparseDesc desc) true)
  | _ => none

/-- Whether an operation's source is read for the signature in the tentative phase. -/
def lateSource : Post → Bool
  | .copy c => farBound c && !caNear c.src
  | .coll _ al _ _ | .spsend _ al _ _ => al
  | _ => false

/-- The commit items of a bundle come last (R355). -/
def hashCommit (seed : Nat) (pc : Word) (c : Closing) (e : Eddy) : Eddy := c.items.foldl (fun e i => hashWords seed e 6 i.1 i.2.1 (pc :: i.2.2)) e

/-- Opcode of the commit point of slot 7. -/
def opcodeOf (c : Closing) : Nat := match c.items.find? (fun i => i.2.1 == 7) with
  | some i => i.1
  | none => 0

/-- The hash state with what the signature still lacks: the item whose source has now been read, then the commit items (R355). -/
def hashLate (s : State) (g : Gang) (t : Strand) (c : Closing) : Except (BitVec 4 × XFault) Eddy :=
  if !c.late then .ok t.eddy
  else
    match c.post.findSome? (lateItem s g t) with
    | some (.error e) => .error e
    | some (.ok x) => .ok (hashCommit (seedOf s t) t.pc c (hashWords (seedOf s t) t.eddy x.1 (opcodeOf c) x.2.1 x.2.2))
    | none => .ok (hashCommit (seedOf s t) t.pc c t.eddy)

/-! ## The record of a LAUNCH (R102) -/

/-- The launch of a commit point. -/
def closingLaunch (c : Closing) : Option (RegId × Option Tag × Word) := c.post.findSome? fun p => match p with
  | .launch a tag rec => some (a, tag, rec)
  | _ => none

/-- Gust translates the record for a read and, when the destination is not s0, for a write, and reads its 64 bytes: its place, the request by which another package keeps it, and the bytes (R102). -/
def launchRecord (s : State) (t : Strand) (write : Bool) (rec : Word) : Except (BitVec 4 × XFault) (Option (Nat × Option (BitVec 12)) × List (Nat × BitVec 12) × List Byte) :=
  let asid := asidOf s t
  match devRead s asid rec 64 with
  | .error e => .error (6, e)
  | .ok bs =>
    if isRemote s rec then
      match (if write then xlateAway s asid true [rec] else .ok []) with
      | .error e => .error (7, e)
      | .ok kept => .ok (none, kept, bs)
    else
      match translate s asid rec (if write then .store else .load) with
      | .error k => .error (7, k, rec)
      | .ok p => .ok (some (p.addr, p.dev), [], bs)

/-- Gust has read the record of a LAUNCH, which it rejects or not (R102, R252). -/
def readLaunch (s : State) (g : Gang) (sid : Nat) (x : Option (Nat × Option (BitVec 12)) × List (Nat × BitVec 12) × List Byte) : State :=
  let s1 := updStrand s sid fun t => { t with closing := t.closing.map fun c => { c with record := x.1, kept := x.2.1, recBytes := x.2.2 } }
  let bad := match getQueue s g.die g.queue with
    | none => true
    | some q => rejects s g.die q x.2.2
  if bad then rejectBundle s1 sid else s1

/-! ## The phases -/

/-- Reserve for the strand as it stands, its LAUNCH's record read first (R102, R318). -/
def reserveAfterLaunch (s : State) (g : Gang) (sid : Nat) : State :=
  match getStrand s sid with
  | none => s
  | some t =>
    match t.closing with
    | none => s
    | some c =>
      match (if c.recBytes.isEmpty then closingLaunch c else none) with
      | none => reserveLines s t c g []
      | some (_, tag, rec) =>
        match launchRecord s t tag.isSome rec with
        | .error e =>
          if waits e.2.1 then awaitAccess s e.2 (asidOf s t) e.1 false (sid, t.crec) (.windowTentativePhase sid)
          else reserveLines s t c g [phaseFaultOf s (asidOf s t) e.1 e.2]
        | .ok x =>
          let s1 := readLaunch s g sid x
          match getStrand s1 sid with
          | none => s1
          | some u => match u.closing with
            | none => s1
            | some d => reserveLines s1 u d g []

/-- The signature is complete: a leeward offers it, the windward reserves (R356). A leeward whose source faults waits for the windward's rollback. -/
def signAndReserve (s : State) (g : Gang) (t : Strand) (c : Closing) : State :=
  let ev : Instr := .windowTentativePhase t.sid
  match hashLate s g t c with
  | .error e =>
    if waits e.2.1 then awaitAccess s e.2 (asidOf s t) e.1 false (t.sid, t.crec) ev
    else if windward s t then phaseFault s t c [phaseFaultOf s (asidOf s t) e.1 e.2]
    else poll s ev
  | .ok x =>
    let s1 := updStrand s t.sid fun t => { t with eddy := x, closing := some { c with late := false } }
    if c.compare && !windward s t then reserved s1 t.sid else reserveAfterLaunch s1 g t.sid

/-- WINDOW_TENTATIVE_PHASE (R318): loads bound, earlier atomics placed, sources translated, then the lines reserved. A leeward only signs (R356). -/
def execWindowTentativePhase (sid : Nat) (s : State) : Out State :=
  .next (
    match getStrand s sid with
    | none => s
    | some t =>
      match t.closing, gangOf s t with
      | some c, some g =>
        if c.phase != .tentative then s
        else if loadsOpen s t || waitsAtoms s t || (copiesOpen s t).any (fun k => !listReady s k.1 k.2) then poll s (.windowTentativePhase sid)
        else
          match xlateWindowCopies s g t (copiesOpen s t) with
          | .error f =>
            if waits f.2.1 then awaitAccess s f.2 (asidOf s t) f.1 false (sid, t.crec) (.windowTentativePhase sid)
            else phaseFault s t c [phaseFaultOf s (asidOf s t) f.1 f.2]
          | .ok s1 => signAndReserve s1 g t c
      | _, _ => s)

/-- Apply one reserved line under its byte mask (R315, R318). -/
def applyLine (key : Nat) (s : State) (l : GatedLine × Nat × Option (BitVec 12)) : State :=
  (lineBytes l.1).foldl (fun s b => hbmWrite s key (l.2.1 + b.1.toNat % 64) [b.2]) s

/-- The window has been performed at every owner: a LAUNCH, an EXIT or a plain commit goes on. -/
def performed (s : State) (sid : Nat) : State := finishCommit s sid

/-- The bytes of reserved lines whose frames are in other packages, line by line (R315, R344). -/
def awayLines (ls : List (GatedLine × Nat × Option (BitVec 12))) : List (BitVec 12 × List (Nat × Byte)) :=
  frameLines (ls.flatMap fun l => match l.2.2 with
    | some d => (lineBytes l.1).map fun b => (d, l.2.1 + b.1.toNat % 64, b.2)
    | none => [])

/-- The owners apply the reserved lines (R318). -/
def performLines (s : State) (t : Strand) (c : Closing) : State :=
  let asid := asidOf s t
  let s1 := (c.lines.filter fun l => l.2.2.isNone).foldl (applyLine (keyOf s asid)) s
  let frames := awayLines c.lines
  if frames.isEmpty && c.rids.isEmpty then performed s1 t.sid
  else
    let s2 := updStrand s1 t.sid fun t => { t with closing := some { c with lines := [], rids := [], open_ := frames.length + c.rids.length } }
    let ask (s : State) (d : BitVec 12) (mk : Nat → Packet) : State :=
      let rid := s.nextId
      after (sendReq s d (.perform t.sid) mk) requestLimit (.performTimeout rid)
    let s3 := c.rids.foldl (fun s r => ask s r.2 fun rid => .perform rid asid (some r.1) [] 1 false (t.sid, t.crec)) s2
    frames.foldl (fun s f => ask s f.1 fun rid => .frameWrite rid asid f.2) s3

/-- The commands of a window that has been performed leave (R186, R232). -/
def leaveNow (s : State) (sid : Nat) : State :=
  match getStrand s sid with
  | none => s
  | some t => t.leaving.foldl (fun s p => runPost s sid t.cpt p) (updStrand s sid fun t => { t with leaving := [] })

/-- WINDOW_PERFORM (R318): the owners apply the reserved lines, and the commit point completes with the last of them; in the ck after, its commands leave (R186, R232). -/
def execWindowPerform (sid : Nat) (s : State) : Out State :=
  .next (
    let s1 := leaveNow s sid
    match getStrand s1 sid with
    | none => s1
    | some t =>
      match t.closing with
      | none => s1
      | some c => if c.phase != .perform || c.open_ != 0 then s1 else performLines s1 t c)

/-- One of the requests of a perform phase has been answered, or its time has passed (R396). -/
def performAnswered (s : State) (sid : Nat) : State :=
  match getStrand s sid with
  | none => s
  | some t =>
    match t.closing with
    | none => s
    | some c =>
      if c.phase != .perform || c.open_ = 0 then s
      else if c.open_ = 1 then performed (updStrand s sid fun t => { t with closing := some { c with open_ := 0 } }) sid
      else updStrand s sid fun t => { t with closing := some { c with open_ := c.open_ - 1 } }

/-- An owner has answered a reservation: with places, or with faults (R318, R337). -/
def reserveAnswered (s : State) (sid : Nat) (fs : List PhaseFault) : State :=
  match getStrand s sid with
  | none => s
  | some t =>
    match t.closing with
    | none => s
    | some c =>
      if c.phase != .reserve then s
      else
        let s1 := updStrand s sid fun t => { t with closing := some { c with open_ := c.open_ - 1, faults := c.faults ++ fs } }
        if c.open_ ≤ 1 then reserveSettled s1 sid else s1

/-- An owner cannot be reached: the commit point stays in the tentative phase (R396). -/
def reserveLost (s : State) (sid : Nat) : State :=
  match getStrand s sid with
  | none => s
  | some t =>
    match t.closing with
    | none => s
    | some c =>
      if c.phase != .reserve then s
      else
        let drop (p : Post) : Post := match p with
          | .copy x => .copy { x with kept := [], xl := [], xlated := false }
          | p => p
        poll (updStrand (releaseRemote s sid c) sid fun t =>
          { t with closing := some { c with phase := .tentative, rids := [], kept := [], recBytes := if c.reject then c.recBytes else [], faults := [], open_ := 0, post := c.post.map drop } })
          (.windowTentativePhase sid)

/-- Perform a window that another device reserved here; bytes for frames elsewhere are sent on, line by line (R315, R344). -/
def performResv (s : State) (r : Resv) : State :=
  let s1 := r.bytes.foldl (fun s b => if b.1.isSome then s else hbmWrite s (keyOf s r.asid) b.2.1 [b.2.2]) { s with resvs := s.resvs.filter fun x => x.id != r.id }
  let away := frameLines (r.bytes.filterMap fun b => b.1.map fun d => (d, b.2.1, b.2.2))
  { s1 with devOut := s1.devOut ++ away.map fun w => (w.1, .frameWrite 0 r.asid w.2) }

/-- PERFORM_TIMEOUT (R396): an owner performs by itself what it reserved; a commit point stops waiting for an owner that has not answered in 1 ms. -/
def execPerformTimeout (id : Nat) (s : State) : Out State :=
  .next (
    match s.resvs.find? (fun r => r.id == id) with
    | some r => performResv s r
    | none =>
      match s.reqs.find? (fun r => r.rid == id) with
      | some r => match r.what with
        | .perform sid => performAnswered { s with reqs := s.reqs.filter fun x => x.rid != id } sid
        | _ => s
      | none => s)

/-! ## Starting -/

/-- Start the commit point of the strand at issue; CPT and the next bundle are known (R109, R353, R356). A window with nothing gated lets its array commands reach the array now (R186). -/
def startCommit (s : State) : State :=
  match s.me.closing with
  | none => s
  | some c =>
    let t := s.me
    let rep := replicated s t
    let late := rep && c.post.any lateSource
    let cmp := rep && (t.eddy.items != t.eddyC.items || !t.gated.isEmpty || c.post.any releases)
    let e := if rep && !late then hashCommit (seedOf s t) t.pc c t.eddy else t.eddy
    let c1 := { c with compare := cmp, late := late, phase := .tentative }
    let s1 : State := { s with me := { t with eddy := e, closing := some c1 } }
    if needsPhase s1 s1.me c1 then
      let early := if heldOpen s1 s1.me c1 then [] else c.post.filter isArrayPost
      let s2 : State := if early.isEmpty then s1 else { s1 with me := { s1.me with closing := some { c1 with post := c.post.filter fun p => !isArrayPost p } } }
      -- a strand that waits at issue for an implicit commit point is RUNNING (R259)
      let s3 := if c.keep || c.mask == 0 then s2 else { s2 with me := { s2.me with st := .parked, parkid := none, waitset := none, parkedAt := s.clock } }
      later (early.foldl (fun s p => runPost s t.sid c.cpt p) s3) (.windowTentativePhase t.sid)
    else finishCommit s1 t.sid

/-- An implicit commit point before the bundle at NEXT (R31, R212, R284): it counts in event 5. -/
def implicitCommit (s : State) (keep : Bool) : State :=
  let c : Closing := { Closing.start with cpt := if s.me.cdone then s.me.cpt else s.me.pc, next := s.me.pc, keep := keep, items := [(0, 0, [])] }
  startCommit { s with me := { countEv s.me 5 1 with closing := some c } }

/-! ## Task completion and LAUNCH's answer -/

/-- The completion of a task is delivered to a strand of its job (R34, R271). -/
def outcome (code : Option PoisonCode) : Payload := match code with
  | some c => .poison c
  | none => .value 0

/-- Deliver a completion to the strand of a continuation record of this package, when word 3 of the record holds the task's job (R272); none while the record cannot be read. -/
def reportTo (s : State) (asid jobn : Nat) (rec : Word) (tag : Tag) (x : Payload) (ev : Instr) : Option State × State :=
  match devRead s asid (rec + 24) 8 with
  | .error e => (none, holdEvent s e asid 6 none ev)
  | .ok bs =>
    match (if natAt bs 0 2 = jobn then strandAt s asid rec else none) with
    | none => (some s, s)
    | some t => let s1 := deliver s t.sid tag x; (some s1, s1)

/-- Report an outcome as a record says (R34): a completion word, or a delivery to the strand that it names, here or in the package that owns its record (R272). The first part is none while the report is held (R433). -/
def reportTask (s : State) (jobn : Nat) (k : Task) (code : Option PoisonCode) (ev : Instr) : Option State × State :=
  let asid := match getJob s jobn with
    | some j => j.asid
    | none => 0
  if k.ckind then
    if isRemote s k.caddr && (strandAt s asid k.caddr).isNone then
      let s1 : State := { s with devOut := s.devOut ++ [(farDev k.caddr, .deliver 0 asid k.caddr k.ctag (outcome code))] }
      (some s1, s1)
    else reportTo s asid jobn k.caddr k.ctag (outcome code) ev
  else
    match devWrite s asid k.caddr (leBytes 8 (match code with
      | some c => poisonCode c
      | none => 0)) with
    | .error e => (none, holdEvent s e asid 7 none ev)
    | .ok s1 => (some s1, s1)

/-- The strand that launched goes on after Gust's answer. -/
def afterLaunch (s : State) (sid : Nat) : State :=
  updStrand s sid fun t =>
    match t.closing with
    | some c => goOn s.clock c.next { t with closing := none }
    | none => t

/-- QUEUE (R102, R109, R122): the bundle of the LAUNCH commits no slot, its window stays committed and is empty, and NEXT is the bundle; a later rollback returns there too, since nothing of the bundle has been committed (log 31). -/
def queueTrap (s : State) (sid : Nat) (rec : Word) : State :=
  match getStrand s sid with
  | none => s
  | some t =>
    let back := match t.closing.bind (·.before) with
      | some b => restoreBefore t b
      | none => t
    let tags := match t.closing with
      | some c => c.post.flatMap postTags
      | none => []
    let u := { tags.foldl releaseSerial back with closing := none, cpt := t.pc }
    takeTrapOn (updStrand s sid fun _ => u) sid ⟨.queue, 1, 0, t.pc, t.window, rec⟩ t.pc

/-- The destination of a LAUNCH becomes PENDING with the tag reserved for it (R102). -/
def obligateLaunch (s : State) (sid : Nat) (a : RegId) (tag : Option Tag) : State :=
  match tag with
  | none => s
  | some g => updStrand s sid fun t => writeKept t a ⟨0, .pending, g⟩

/-- The launch of a strand: its closing's LAUNCH. -/
def launchOf (t : Strand) : Option (RegId × Option Tag × Word) := t.closing.bind closingLaunch

/-- Gust writes CADDR, CID, CTAG and CKIND into the record, whose place its owner has kept: here, in a frame of another package, or at an owner there (R102, R344). The owner there keeps it until then. -/
def writeCompletion (s : State) (t : Strand) (c : Closing) (rec : Word) (a : RegId) (tag : Tag) : State :=
  let asid := asidOf s t
  let bs := wordBytes t.crec ++ wordBytes (packWord [((regIdCode a).toNat, 0), (tag.toNat, 8), (1, 24)])
  match c.record with
  | some (p, none) => hbmWrite s (keyOf s asid) (p + 32) bs
  | some (p, some d) => { s with devOut := s.devOut ++ [(d, .frameWrite 0 asid (bs.zipIdx.map fun b => (p + 32 + b.2, b.1)))] }
  | none => { s with devOut := s.devOut ++ [(farDev rec, awayWrite asid (rec + 32) bs)] }

/-- The requests by which other packages keep the record of a LAUNCH end, after the writes to it (R102). -/
def releaseKept (s : State) (kept : List (Nat × BitVec 12)) : State := { s with devOut := s.devOut ++ kept.map fun r => (r.2, .release r.1) }

/-- Gust refuses a record or finds the queue full: the destination takes the code, or the record's own completion reports it, which may be held (R102, R433). -/
def launchFails (s : State) (sid jobn : Nat) (tag : Option Tag) (k : Task) (code : PoisonCode) : Option State × State :=
  match tag with
  | some _ => let s1 := deliverNow s sid tag (.poison code); (some s1, s1)
  | none => reportTask s jobn k (some code) (.launchAnswer sid)

/-- Gust refuses the record, reports QFULL, or appends it (R102, R266). -/
def launchEnqueue (s : State) (sid : Nat) (g : Gang) (q : HwQueue) (tag : Option Tag) (rec : Word) (k : Task) : Option State × State :=
  if q.det && k.split && !k.intacc then launchFails s sid g.job tag k .refused
  else
    let r := joinQueue s g.die g.queue rec
    match r.1 with
    | .full => launchFails r.2 sid g.job tag k .qfull
    | _ => (some r.2, r.2)

/-- LAUNCH_ANSWER (R102): Gust rejects, refuses, reports QFULL or appends the record; every replica receives the outcome. -/
def execLaunchAnswer (sid : Nat) (s : State) : Out State :=
  .next (
    match getStrand s sid with
    | none => s
    | some t =>
      match t.closing, launchOf t, gangOf s t with
      | some c, some (a, tag, rec), some g =>
        let ls := (leewardsOf s t).filter fun u => (launchOf u).isSome
        let all := sid :: ls.map (·.sid)
        if c.phase != .answer then s
        else if ls.any (fun u => match u.closing with
            | some d => d.phase != .answer
            | none => false) then later s (.launchAnswer sid)
        else
          match (if c.reject then none else getQueue s g.die g.queue) with
          | none => all.foldl (fun s i => queueTrap s i rec) (releaseAll s c.kept)
          | some q =>
            let s1 := match tag with
              | none => s
              | some tg => writeCompletion s t c rec a tg
            let s2 := ls.foldl (fun s u => match launchOf u with
              | some (b, ltag, _) =>
                let s3 := obligateLaunch s u.sid b ltag
                match tag, ltag with
                | some x, some y => { s3 with mirrors := s3.mirrors ++ [(sid, x, u.sid, y)] }
                | _, _ => s3
              | none => s) (obligateLaunch s1 sid a tag)
            match launchEnqueue s2 sid g q tag rec (taskOf c.recBytes) with
            | (none, s3) => s3
            | (some s3, _) => all.foldl afterLaunch (releaseKept s3 c.kept)
      | _, _, _ => s)

end Sys2Proof.Machine
end

