-- ==== Sys2Proof/Machine/Issue.lean ====
section
/-! DEFINITION. The issue of a bundle: illegality (R55 to R57), what stops it (R276, R283, and the checks at issue of every slot), waits at issue, implicit commit points (R31, R212), and what closes it (R94, R109). -/

namespace Sys2Proof.Machine

/-! ## Illegality -/

/-- L is 1 and slot 1 has no literal form, or the field that the literal replaces is not zero (R56, case 5). -/
def litMisused (w : Half) : Bool :=
  match (w.toNat >>> 26) with
  | 0 => w == 0
  | 3 | 11 | 16 | 18 | 21 | 24 | 30 => true
  | 25 | 26 => bitsOf w.toNat 0 16 != 0
  | n => decide (n ≤ 30) && bitsOf w.toNat 4 6 != 0

/-- Read ports of a slot instruction, one entry for each (R55): sources, MOV's, STATE's and WAIT's operand, the guard. -/
def readPorts (i : Instr) : List RegId :=
  if i = .nop then [] else (.p (guardOf i) :: (readsOf i ++ portOnly i)).filter fun r => !regFixed r

/-- Write ports of a slot instruction (R55). -/
def writePorts (i : Instr) : List RegId := (destsOf i).filter fun r => !regFixed r

/-- The file of a register. -/
def fileOf : RegId → RFile
  | .s _ => .s
  | .v _ => .v
  | .p _ => .p

/-- Slots that use a port of a file, when all of them together exceed the budget (R55, R57). -/
def overPorts (f : RFile) (limit : Nat) (ports : List (Nat × List RegId)) : List Nat :=
  let mine := ports.map fun p => (p.1, (p.2.filter fun r => fileOf r == f).length)
  if limit < (mine.map (·.2)).sum then (mine.filter fun p => p.2 != 0).map (·.1) else []

/-- The slots that write a register which another slot writes too (R56, case 1). -/
def doubleWrites (is : List (Nat × Instr)) : List Nat :=
  let ws := is.map fun p => (p.1, (writesOf p.2).filter fun r => !regFixed r, hDestOf p.2)
  (ws.filter fun a => ws.any fun b => a.1 != b.1 && (a.2.1.any (fun r => b.2.1.contains r) || (a.2.2.isSome && a.2.2 == b.2.2))).map (·.1)

/-- The slots that hold an instruction other than NOP, with it. -/
def slotInstrs (b : BundleWords) : List (Nat × Instr) :=
  ((decodeBundle b).zipIdx.filterMap fun d => match d.1 with
    | .ok i => some (d.2, i)
    | .error _ => none).filter fun p => p.2 != .nop

/-- The literal's field of a word of slot 1 (R43, R48). -/
def litField (w : Half) : Half := match (w.toNat >>> 26) with
  | 25 | 26 => 0xFFFF
  | _ => 0x3F0

/-- Slot 1 of a bundle whose literal is misused: the literal form that its opcode has, else its instruction without a literal (R56, R57). -/
def misusedSlot (lit w : Half) : Dec := match decodeScalar false (some lit) (w &&& ~~~(litField w)) with
  | .ok i => .ok i
  | .error _ => decodeScalar false none w

/-- The instructions by whose fields double writes and budgets are counted (R57): a slot whose only fault is bit 30 or a misused literal counts too. DESIGN CHOICE, log 56: a slot that holds a reserved encoding has no fields to count. -/
def countedInstrs (b : BundleWords) : List (Nat × Instr) :=
  let other := (slotInstrs b).filter fun p => !(p.1 == 0 || (p.1 == 1 && hasLit b && litMisused b[1]))
  let zero := match decodeCtl (ctlWord b[0] &&& ~~~(0x40000000 : Half)) with
    | .ok i => [(0, i)]
    | .error _ => []
  let one := if hasLit b && litMisused b[1] then match misusedSlot b[2] b[1] with
      | .ok i => [(1, i)]
      | .error _ => []
    else []
  (zero ++ one ++ other).filter fun p => p.2 != .nop

/-- The mask of a list of slots. -/
def maskOf (slots : List Nat) : BitVec 8 := slots.foldl (fun m n => m ||| slotBit n) 0

/-- The mask of an illegal bundle's offending slots, zero when the bundle is legal (R56, R57). -/
def illegalMask (b : BundleWords) : BitVec 8 :=
  let is := countedInstrs b
  let bad := (decodeBundle b).zipIdx.filterMap fun d => match d.1 with
    | .error _ => some d.2
    | .ok _ => none
  let reads := is.map fun p => (p.1, readPorts p.2)
  let writes := is.map fun p => (p.1, writePorts p.2)
  maskOf (bad ++ (if hasLit b && litMisused b[1] then [0, 1] else []) ++ doubleWrites is ++
    overPorts .s 12 reads ++ overPorts .v 6 reads ++ overPorts .p 8 reads ++ overPorts .s 6 writes ++ overPorts .v 3 writes ++ overPorts .p 4 writes)

/-! ## What stops an attempt -/

/-- Why a bundle does not issue in this attempt. -/
inductive Stop where
  | park (r : RegId)
  | parkAny (f : RFile) (m : Word)
  | trap (c : Cause) (mask : BitVec 8) (code : BitVec 16) (addr : Word)
  | hold
  | holdSerial
  | holdBank (w : List (Nat × Nat))
  | holdArray
  | commit
  | nest (a : Word)
deriving DecidableEq, Repr

/-- Examine one operand (R276, R283). -/
def examine (s : State) (slot : Nat) (r : RegId) : Option Stop :=
  let y := look s r
  match y.st with
  | .full => none
  | .pending => some (.park (rot s r))
  | .poisoned => some (.trap .poisonUse (slotBit slot) (y.val.setWidth 16) ((regIdCode (rot s r)).setWidth 64))

/-- A register of a file by index. -/
def regAt (f : RFile) (i : Nat) : RegId :=
  match f with
  | .s => .s (BitVec.ofNat 6 i)
  | .v => .v (BitVec.ofNat 5 i)
  | .p => .p (BitVec.ofNat 4 i)

/-- Registers of a file. -/
def fileSize : RFile → Nat
  | .s => 64 | .v => 32 | .p => 16

/-- The indices of a WAITANY set (R99). -/
def anySet (f : RFile) (m : Word) : List Nat := (upto (fileSize f)).filter fun i => bit m.toNat i

/-- The least member of a WAITANY set that is not PENDING (R99). -/
def anyReady (s : State) (f : RFile) (m : Word) : Option Nat := (anySet f m).find? fun i => ((view s).get (regAt f i)).st != .pending

/-- The register that an agreed WAITANY names in this replica (R122). -/
def agreedIndex (x : Payload) : Nat :=
  match x with
  | .value v => v.toNat % 64
  | .poison _ => 0

/-- WAITANY in slot 0's turn (R99, R122). -/
def waitanyStop (s : State) (f : RFile) (m : Word) : Option Stop :=
  if anySet f m = [] then none
  else if replicated s s.me && !windward s s.me then
    match agreedFor s.me s.me.ordinal s.me.agreeN with
    | none => some .hold
    | some x => let r := regAt f (agreedIndex x); if ((view s).get r).st == .pending then some (.park r) else none
  else if s.me.choice.isSome || (anyReady s f m).isSome then none
  else some (.parkAny f m)

/-- The part of a slot's turn before its sources: LEXIT without a loop (R97), LOOP in a loop (R94), WAIT (R98). -/
def beforeSources (s : State) (i : Instr) : Option Stop :=
  match i with
  | .lexit _ => if (viewLoop s).active then none else some (.trap .loopBody 1 0 0)
  | .loop _ _ _ | .loopi _ _ _ => if (viewLoop s).active then some (.trap .loopBody 1 0 0) else none
  | .wait _ a => if (look s a).st == .pending then some (.park (rot s a)) else none
  | _ => none

/-- Whether the strand's job has fault injection enabled (R25, R428). -/
def mayInject (s : State) : Bool := match jobOf s s.me with
  | some j => j.finj
  | none => false

/-- Whether the strand's job is privileged (R54). -/
def privilegedJob (s : State) : Bool := match jobOf s s.me with
  | some j => j.priv
  | none => false

/-- The part of a slot's turn after its sources: WAITANY, LOOPH's masks (R93), PRIVILEGE (R25, R54), MOV of a POISONED source (R132). -/
def afterSources (s : State) (slot : Nat) (i : Instr) : Option Stop :=
  let moved (r : RegId) : Option Stop := if (look s r).st == .poisoned then examine s slot r else none
  match i with
  | .waitany _ f b _ => waitanyStop s f (rdS s b)
  | .looph _ b => if (rdS s b).toNat >>> 24 == 0 then none else some (.trap .loopBody 1 0 0)
  | .sets _ .faultinj _ => if mayInject s then none else some (.trap .privilege 1 ((sysRegCode .faultinj).setWidth 16) 0)
  | .resume _ _ => if privilegedJob s then none else some (.trap .privilege 1 0 0)
  | .mov _ _ a => moved (.s a)
  | .movPredicate _ _ a => moved (.p a)
  | _ => none

/-- One slot's turn in the parking order (R276). -/
def slotTurn (s : State) (p : Nat × Instr) : Option Stop :=
  (beforeSources s p.2).or (((readsOf p.2).findSome? (examine s p.1)).or ((afterSources s p.1 p.2).or ((examinedOf p.2).findSome? (examine s p.1))))

/-- Instructions that may not stand in an active loop's body (R97). -/
def badInBody : Instr → Bool
  | .br _ _ | .brx _ _ | .call _ _ | .callx _ _ | .loop _ _ _ | .loopi _ _ _ | .looph _ _ | .exit _ => true
  | _ => false

/-- The last bundle of an active loop (R94). -/
def loopLast (l : LoopSt) : Word := l.first + BitVec.ofNat 64 (32 * l.blen.toNat)

/-- The LOOP_BODY trap of R97, made whether or not a guard suppresses the instruction. -/
def bodyTrap (s : State) (is : List (Nat × Instr)) : Option Stop :=
  let l := viewLoop s
  if l.active && decide (l.first ≤ s.me.pc) && decide (s.me.pc ≤ loopLast l) && is.any (fun p => badInBody p.2) then some (.trap .loopBody 1 0 0) else none

/-! ## Checks at the access -/

/-- The near bytes that an instruction of slot 5 accesses, (address, bytes) for each lane, and its alignment (R203, R204, R208). -/
def nearSpans (s : State) (i : Instr) : List (Word × Nat) × Nat :=
  let lanes (g : BitVec 4) (a : BitVec 6) (t : Ty) (iv : BitVec 5) : List (Word × Nat) × Nat :=
    ((upto (lanesOf t)).filterMap fun e => if enabled s g t.width e then some (eaG s a iv t e, laneBytes t) else none, laneBytes t)
  match i with
  | .ldn _ _ a o z => ([(eaM s a o (szBytes z), szBytes z)], szBytes z)
  | .stn _ _ a o z => ([(eaM s a o (szBytes z), szBytes z)], szBytes z)
  | .ldnv _ _ a o | .stnv _ _ a o => ([(eaM s a o 128, 128)], 128)
  | .ldnp _ _ a o | .stnp _ _ a o => ([(eaM s a o 16, 16)], 16)
  | .ldnt _ _ a o z => let g := if z == .b8 then 8 else 4; ([(eaM s a o 128, 64 * (128 / g - 1) + g)], g)
  | .ldng g _ a t iv => lanes g a t iv
  | .stns g _ a _ t iv => lanes g a t iv
  | .atmn _ z _ _ a _ => ([(rdS s a, w2Bytes z)], w2Bytes z)
  | _ => ([], 1)

/-- The near bytes that an instruction of slot 5 touches, as physical address and count: LDNT reads `g` bytes of each 64 (R208). -/
def nearTouched (s : State) (g : Gang) (i : Instr) : List (Nat × Nat) :=
  match i with
  | .ldnt _ _ a o z =>
    let w := if z == .b8 then 8 else 4
    let p := nearPhys g s.me (eaM s a o 128).toNat
    (upto (128 / w)).map fun k => (p + 64 * k, w)
  | i => (nearSpans s i).1.map fun p => (nearPhys g s.me p.1.toNat, p.2)

/-- NEAR_BOUNDS, then ALIGN, of slot 5 (R204). -/
def nearTrap (s : State) (g : Gang) (i : Instr) : Option (Cause × Word) :=
  let x := nearSpans s i
  match x.1.find? (fun p => !nearIn g s.me p.1.toNat p.2) with
  | some p => some (.nearBounds, p.1)
  | none => (x.1.find? fun p => p.1.toNat % x.2 != 0).map fun p => (.align, p.1)

/-- ALIGN of the far instructions that have no destination (R205). -/
def farTrap (s : State) (i : Instr) : Option (Cause × Word) :=
  let check (ea : Word) (n : Nat) : Option (Cause × Word) := if ea.toNat % n == 0 then none else some (.align, ea)
  match i with
  | .stf _ _ a o z => check (eaM s a o (szBytes z)) (szBytes z)
  | .stfv _ _ a o => check (eaM s a o 128) 128
  | .redf _ z _ a _ => check (rdS s a) (w2Bytes z)
  | _ => none

/-- What an array command captures at issue (R187): its kind, A, B, its shape when it takes one, and X. -/
def arrayOf (s : State) (i : Instr) : Option (ArrKind × Word × Word × Option Shape × BitVec 2) :=
  match i with
  | .aprog _ x _ b a => some (.prog, rdS s a, rdS s b, none, x)
  | .astat _ h _ a => some (.stat, rdS s a, 0, some (rdH s h), 0)
  | .aswap _ => some (.swap, 0, 0, none, 0)
  | .astream _ h _ b a => some (.stream, rdS s a, rdS s b, some (rdH s h), 0)
  | .awave _ h _ b a => some (.wave, rdS s a, rdS s b, some (rdH s h), 0)
  | .adrain _ h _ a => some (.drain, rdS s a, 0, some (rdH s h), 0)
  | .aclr _ => some (.clr, 0, 0, none, 0)
  | .atrace _ h _ a => some (.trace, rdS s a, 0, some (rdH s h), 0)
  | _ => none

/-- The core of the strand at issue. -/
def myCore (s : State) : Nat := coreOf s.me

/-- Whether the strand at issue holds its core's array. -/
def holdsArray (s : State) : Bool := (getArray s (myCore s)).holder == some s.me.sid

/-- Test e of R189: what poisons an array command ENGINE. -/
def arrayEngine (s : State) (k : ArrKind) (h : Option Shape) : Bool :=
  let a := getArray s (myCore s)
  let cfg := cfgNow a
  let flowBad := match k with
    | .stream => cfgFlow cfg == 2
    | .wave => cfgFlow cfg != 2
    | _ => false
  let wordsBad := isStream k && !slotAdmitted cfg (a.progs[cfgSlot cfg % 4]'(by omega))
  !holdsArray s || (match h with
    | some x => !shValid x
    | none => false) || (!cfgValid cfg && k != .prog) || flowBad || wordsBad

/-- Whether an array command is aligned (R189). -/
def arrayAligned (s : State) (k : ArrKind) (a : Word) (h : Option Shape) : Bool := cmdAligned k (cfgNow (getArray s (myCore s))) a.toNat (h.getD 0)

/-- Whether an earlier APROG has not completed (R192). -/
def progOut (s : State) : Bool := (getArray s (myCore s)).cmds.any fun c => c.kind == .prog

/-- NEAR_BOUNDS of an array command that would be sent to its lane (R189). -/
def arrayTrap (s : State) (g : Gang) (i : Instr) : Option (Cause × Word) :=
  match arrayOf s i with
  | none => none
  | some (k, a, b, h, _) =>
    if (isStream k && progOut s) || arrayEngine s k h || !arrayAligned s k a h then none
    else (spansBad g s.me a (h.getD 0) (cmdItems k (cfgNow (getArray s (myCore s))) a.toNat (b.toNat % 2 ^ 32) (h.getD 0))).map fun x => (.nearBounds, BitVec.ofNat 64 x)

/-- The copy that an instruction of slot 7 asks for, with its captured operands (R226 to R228); `id` and `tag` come later. -/
def copyOf (s : State) (i : Instr) : Option CopyOp :=
  let mk (k : CopyKind) (src dst cmd : Word) (h : Shape) : CopyOp :=
    { id := 0, sid := s.me.sid, tag := none, kind := k, src := src, dst := dst, cmd := cmd, h := h, idx := [], window := s.me.window, xl := [], xlated := false, kept := []
      started := false, writes := [], result := .value 0, count := 0, fault := none, cache := [], asked := false, open_ := 0, lee := [] }
  match i with
  | .copy _ h _ b a => some (mk .copy (rdS s a) (rdS s b) 0 (rdH s h))
  | .copyq _ h _ b a => some (mk .copy ((look s (pairS a 0)).val.setWidth 64) ((look s (pairS a 1)).val.setWidth 64) (rdS s b) (rdH s h))
  | .gath _ h _ b a => some (mk .gath (rdS s a) (rdS s b) 0 (rdH s h))
  | .scat _ h _ b a => some (mk .scat (rdS s a) (rdS s b) 0 (rdH s h))
  | _ => none

/-- The near address and the byte count of SEND and RECV (R52). -/
def chanSpan (a : Word) : Nat × Nat := (wbits a 0 32, wbits a 32 20)

/-- The first channel of a mask that is no receive end (R237). -/
def badRecv (g : Gang) (m : Word) : Option Nat := (upto 64).find? fun c => bit m.toNat c && (match g.chans[c % 64]'(by omega) with
  | .recv _ => false
  | _ => true)

/-- An unused ticket of the strand on a channel (R236). -/
def hasTicket (t : Strand) (c : BitVec 6) : Bool := t.tickets.any fun k => k.1 == c

/-- 64 descriptor bytes at a near address. -/
def descBytes (s : State) (g : Gang) (t : Strand) (a : Word) : List Byte := (nearLoad s g t a.toNat 64).2

/-- CHANNEL, SHAPE and NEAR_BOUNDS of slot 7 (R224, R229, R235 to R238, R402). -/
def xferTrap (s : State) (g : Gang) (i : Instr) : Option (Cause × BitVec 16 × Word) :=
  let t := s.me
  let near (a : Nat) (n : Nat) : Option (Cause × BitVec 16 × Word) := (nearBad g t a n).map fun x => (.nearBounds, 0, BitVec.ofNat 64 x)
  let chan (c : Nat) : Option (Cause × BitVec 16 × Word) := some (.channel, BitVec.ofNat 16 c, 0)
  let coll (a : Word) (sparse send : Bool) : Option (Cause × BitVec 16 × Word) :=
    (near a.toNat 64).or (
      if a.toNat % 64 != 0 then none
      else
        match getJob s g.job with
        | none => none
        | some j => let d := descBytes s g t a
                    (collBad s g t j (if sparse then sparseDesc d else collDesc d) sparse send).map fun x => (.nearBounds, 0, BitVec.ofNat 64 x))
  match i with
  | .shape _ _ a =>
    let w (k : Nat) : Word := rdS s (BitVec.ofNat 6 (4 * a.toNat + k))
    let h : Shape := w 3 ++ w 2 ++ w 1 ++ w 0
    if shapeOk (w 0) h then none else some (.shape, 0, w 0)
  | .copy _ _ _ _ _ | .copyq _ _ _ _ _ | .gath _ _ _ _ _ | .scat _ _ _ _ _ =>
    ((copyOf s i).bind (copyBad g t)).map fun x => (.nearBounds, 0, x)
  | .chan _ _ _ a => near (rdS s a).toNat 64
  | .send _ c _ a =>
    match g.chans[c.toNat]'(by omega) with
    | .send e => if e.tkt && !hasTicket t c then chan c.toNat else near (chanSpan (rdS s a)).1 (chanSpan (rdS s a)).2
    | _ => chan c.toNat
  | .recv _ c _ a =>
    match g.chans[c.toNat]'(by omega) with
    | .recv _ => near (chanSpan (rdS s a)).1 (chanSpan (rdS s a)).2
    | _ => chan c.toNat
  | .recva _ _ a =>
    let x : Word := (look s (pairS a 0)).val.setWidth 64
    match badRecv g ((look s (pairS a 1)).val.setWidth 64) with
    | some c => chan c
    | none => near (chanSpan x).1 (chanSpan x).2
  | .tick _ c _ =>
    match g.chans[c.toNat]'(by omega) with
    | .send e => if e.tkt then none else chan c.toNat
    | _ => chan c.toNat
  | .coll _ _ a => coll (rdS s a) false true
  | .spsend _ _ a => coll (rdS s a) true true
  | .sprecv _ _ a => coll (rdS s a) true false
  | _ => none

/-- Whether the next replayed instruction of the window only counts (R328). -/
def replaysNow (t : Strand) : Bool := match t.replay with
  | some r => decide (r.seen.toNat + 1 ≤ r.done.toNat)
  | none => false

/-- BARRIER_OVERARRIVAL of KARR and KDROP (R107). -/
def arrivalTrap (s : State) (k : BitVec 4) : Option (Cause × BitVec 16 × Word) :=
  match getBarrier s s.me.gid k with
  | some b => if !replaysNow s.me && !b.bad && b.arrived == b.expa then some (.barrierOverarrival, 0, 0) else none
  | none => none

/-- The checks that one slot makes at its access, after all parking (R370). -/
def accessTrap (s : State) (p : Nat × Instr) : Option Stop :=
  let stop (x : Cause × BitVec 16 × Word) : Stop := .trap x.1 (slotBit p.1) x.2.1 x.2.2
  let plain (x : Cause × Word) : Stop := .trap x.1 (slotBit p.1) 0 x.2
  match gangOf s s.me with
  | none => none
  | some g =>
    match p.2 with
    | .karr _ k _ | .kdrop _ k => (arrivalTrap s k).map stop
    | .nest _ b => if (rdS s b).toNat % 64 == 0 then none else some (.trap .shape 1 0 (rdS s b))
    | i => ((nearTrap s g i).map plain).or (((arrayTrap s g i).map plain).or (((farTrap s i).map plain).or ((xferTrap s g i).map stop)))

/-! ## Waits at issue -/

/-- Whether an instruction is an access of its slot for ACQ (R321). -/
def ordersAcq : Instr → Bool
  | .ldn _ _ _ _ _ | .stn _ _ _ _ _ | .ldnv _ _ _ _ | .stnv _ _ _ _ | .ldng _ _ _ _ _ | .stns _ _ _ _ _ _ | .atmn _ _ _ _ _ _ | .ldnp _ _ _ _ | .stnp _ _ _ _
  | .ldnt _ _ _ _ _ | .ldf _ _ _ _ _ | .stf _ _ _ _ _ | .ldfv _ _ _ _ | .stfv _ _ _ _ | .atmf _ _ _ _ _ _ | .redf _ _ _ _ _ | .casf _ _ _ _ _ | .pref _ _ _
  | .ldfg _ _ _ _ _ | .aprog _ _ _ _ _ | .astat _ _ _ _ | .astream _ _ _ _ _ | .awave _ _ _ _ _ | .adrain _ _ _ _ | .atrace _ _ _ _ | .copy _ _ _ _ _
  | .copyq _ _ _ _ _ | .gath _ _ _ _ _ | .scat _ _ _ _ _ | .chan _ _ _ _ | .send _ _ _ _ | .recv _ _ _ _ | .recva _ _ _ | .coll _ _ _ | .spsend _ _ _
  | .sprecv _ _ _ => true
  | _ => false

/-- Whether an instruction's near bytes are under a copy of this core, or are written by an outstanding array command (R211, R325). -/
def nearHeld (s : State) (g : Gang) (i : Instr) : Bool :=
  (nearTouched s g i).any fun p => copyLocked s (myCore s) p.1 p.2 || arrayWrites s (myCore s) p.1 p.2

/-- Whether the gang's dynamic sequencer serves a NEST of another address (R113). -/
def nestBusy (g : Gang) (a : Word) : Bool := match g.dyn with
  | some d => d.addr != a && decide (d.next < d.total)
  | none => false

/-- Whether a strand takes static slices (R113). -/
def staticSlices (s : State) (g : Gang) (t : Strand) : Bool := g.det || replicated s t

/-- Copies outstanding on a core (R230), those whose windows are closing or have just closed included. -/
def copiesOut (s : State) (core : Nat) : Nat :=
  let posts (t : Strand) : List Post := t.leaving ++ (match t.closing with
    | some c => c.post
    | none => [])
  (getCore s core).copies.length + (((allStrands s).filter fun t => t.loc.isSome && coreOf t == core).map fun t => (postCopies (posts t)).length).sum

/-- The banks, with their rows, of the strand's own slice that a NEAR access wants in its ck (R206, R304); ATMN goes to its slice later. -/
def banksWanted (s : State) (g : Gang) (i : Instr) : List (Nat × Nat) :=
  match i with
  | .atmn _ _ _ _ _ _ => []
  | i => (((nearTouched s g i).filter fun p => p.1 / 2 ^ 20 == myCore s).flatMap fun p => banksOf p.1 p.2).dedup

/-- The banks, with their rows, of a core's slice in which a copy reads or writes. -/
def copyBanks (s : State) (core : Nat) (c : CopyOp) : List (Nat × Nat) :=
  match copyOwner s c with
  | none => []
  | some o =>
    let side (a : Word) (rs : List (Nat × Nat)) : List (Nat × Nat) :=
      let p := nearPhys o.1 o.2 (caBits a)
      if caNear a && p / 2 ^ 20 == core then rs.flatMap fun r => banksOf (p + r.1) r.2 else []
    if o.1.saved.isSome || !c.started then [] else side c.src (srcRanges c) ++ side c.dst (dstRanges c)

/-- Whether a bank that a NEAR access wants is taken by another requester (R206): by the array and stores and atomics of other cores in this ck; by copies and loads of other cores in the ck that the model leaves open (log 38). -/
def banksLost (s : State) (core : Nat) (want : List (Nat × Nat)) : Bool :=
  let others := (s.cores.flatMap fun k => k.copies.flatMap (copyBanks s core)) ++ (s.nearLoads.filter fun l => l.core == core).flatMap (·.banks)
  banksClash want ((getCore s core).banks ++ others.filter fun b => Config.engineTakes s.clock core b.1)

/-- The NEAR access of a bundle loses its banks, unless it has waited 4 ck (R206). -/
def bankStop (s : State) (p : Nat × Instr) : Option Stop :=
  match gangOf s s.me with
  | none => none
  | some g =>
    let w := banksWanted s g p.2
    let waited := match s.me.bankWait with
      | some x => x.1
      | none => 0
    if decide (waited < 4) && banksLost s (myCore s) w then some (.holdBank w) else none

/-- Why one unsuppressed slot waits at issue (R105, R107, R113, R127, R184, R187, R192, R211, R217, R230, R321, R325). -/
def slotHold (s : State) (p : Nat × Instr) : Option Stop :=
  let c := getCore s (myCore s)
  let hold (b : Bool) : Option Stop := if b then some .hold else none
  match gangOf s s.me with
  | none => none
  | some g =>
    if ordersAcq p.2 && !s.me.acqFence.isEmpty then some .hold
    else
      match p.2 with
      | .div _ _ _ _ _ | .rem _ _ _ _ _ => hold (decide (s.clock < c.divBusy))
      | .acfg _ _ =>
        match c.array.holder with
        | some h => if h = s.me.sid then none else some .holdArray
        | none =>
          let a := { c.array with waiting := c.array.waiting.filter (stillWaits s) }
          if a.waiting.isEmpty || firstWaiting s a == some s.me.sid then none else some .holdArray
      | .sema _ q _ _ => hold (getSema s.me q).out
      | .nest _ b => hold (!staticSlices s g s.me && nestBusy g (rdS s b))
      | .atmf _ _ _ _ _ _ | .redf _ _ _ _ _ | .casf _ _ _ _ _ => hold (decide (16 ≤ (s.farAtoms.filter fun a => a.sid == s.me.sid).length))
      | .copy _ _ _ _ _ | .copyq _ _ _ _ _ | .gath _ _ _ _ _ | .scat _ _ _ _ _ => hold (decide (16 ≤ copiesOut s (myCore s)))
      | i =>
        match arrayOf s i with
        | some (k, _, _, _, _) => hold (holdsArray s && (decide (8 ≤ c.array.cmds.length) || (isStream k && progOut s)))
        | none => hold (!(nearSpans s i).1.isEmpty && (!s.me.nearFence.isEmpty || nearHeld s g i))

/-- The destinations that an instruction logs (R31): LAUNCH's is written after its window, a replayed KARR writes nothing (R328). -/
def loggedDests (s : State) (i : Instr) : List RegId :=
  match i with
  | .launch _ _ _ => []
  | .karr _ _ _ => if replaysNow s.me then [] else destsOf i
  | i => destsOf i

/-- The registers that a bundle writes for the first time in its window (R31). -/
def newlyLogged (s : State) (is : List (Nat × Instr)) : List RegId :=
  let moved (i : Instr) : List RegId := match i with
    | .mov _ d a => if (look s (.s a)).st == .pending && a != d then [.s a] else []
    | .movPredicate _ d a => if (look s (.p a)).st == .pending && a != d then [.p a] else []
    | _ => []
  ((is.flatMap fun p => (loggedDests s p.2 ++ moved p.2).map (rot s)).filter fun r => !regFixed r && !(s.me.log.any fun e => e.reg == r)).dedup

/-- Whether an instruction is replayed rather than repeated (R328). -/
def isReplayed : Instr → Bool
  | .karr _ _ _ | .kdrop _ _ | .kinit _ _ _ | .semr _ _ _ => true
  | _ => false

/-- Whether the bundle would pass the undo log's 2,048 bytes (R31). -/
def logFull (s : State) (is : List (Nat × Instr)) : Bool :=
  let entry := if s.me.replay.isNone && is.any (fun p => isReplayed p.2) then 16 else 0
  decide (2048 < undoSize s.me + ((newlyLogged s is).map fun r => 8 + regSize r).sum + entry)

/-- The new gated lines that a bundle's store needs (R212). -/
def linesNeeded (s : State) (i : Instr) : Nat :=
  match i with
  | .stf _ _ a o z => newLines s s.me (eaM s a o (szBytes z)) (szBytes z)
  | .stfv _ _ a o => newLines s s.me (eaM s a o 128) 128
  | _ => 0

/-- Whether the bundle needs an implicit commit point before it (R31, R212). -/
def needsImplicit (s : State) (is : List (Nat × Instr)) : Bool :=
  logFull s is || decide (64 < s.me.gated.length + (is.map fun p => linesNeeded s p.2).sum)

/-- The serials that an instruction takes (R20): none for a move that hands on a future (R132), a misaligned LAUNCH (R102), a KARR that is replayed or meets a poisoned barrier (R107, R328). -/
def serialsOf (s : State) (i : Instr) : Nat :=
  let all := (writePorts i).length
  match i with
  | .mov _ _ a => if (look s (.s a)).st == .pending then 0 else all
  | .movPredicate _ _ a => if (look s (.p a)).st == .pending then 0 else all
  | .launch _ b _ => if (rdS s b).toNat % 64 == 0 then all else 0
  | .karr _ k _ => if replaysNow s.me || ((getBarrier s s.me.gid k).map (·.bad)).getD true then 0 else all
  | _ => all

/-- The serials that a bundle needs (R20). -/
def serialsNeeded (s : State) (is : List (Nat × Instr)) : Nat := (is.map fun p => serialsOf s p.2).sum

/-- A NEST whose record the sequencer has not read yet (R113). -/
def nestStop (s : State) (p : Nat × Instr) : Option Stop :=
  match p.2 with
  | .nest _ b => if s.me.nestAddr == some (rdS s b) then none else some (.nest (rdS s b))
  | _ => none

/-- Why the bundle does not issue in this attempt: LOOP_BODY, guards, operands in parking order, checks at the accesses, waits, implicit commit points. -/
def stopOf (s : State) (is : List (Nat × Instr)) : Option Stop :=
  match (bodyTrap s is).or (is.findSome? fun p => examine s p.1 (.p (guardOf p.2))) with
  | some x => some x
  | none =>
    let on := is.filter fun p => !suppressedBy s p.2
    (on.findSome? (slotTurn s)).or ((on.findSome? (accessTrap s)).or ((on.findSome? (slotHold s)).or (
      if 1024 < s.me.serials.length + serialsNeeded s on then some .holdSerial
      else if needsImplicit s on then some .commit
      else (on.findSome? (nestStop s)).or (on.findSome? (bankStop s)))))

/-! ## Issuing -/

/-- A slot operation of a bundle: its slot, the instruction, its effect when it is not suppressed. -/
structure SlotOp where
  slot : Nat
  instr : Instr
  eff : State → State

/-- Change the strand at issue. -/
def setMe (s : State) (f : Strand → Strand) : State := { s with me := f s.me }

/-- The attempt ends without an issue; the strand waits at issue or parks (R42, R277). -/
def stopIssue (s : State) (x : Stop) : State :=
  let fresh := setMe s fun t => { t with waitSerial := false, bankWait := none }
  let tried := setMe fresh fun t => { t with triedAt := s.clock + 1 }
  let park (t : Strand) (r : Option RegId) (w : Option (RFile × Word)) : Strand :=
    { t with st := .parked, parkid := r, waitset := w, parkedAt := if t.st == .parked then t.parkedAt else s.clock }
  match x with
  | .park r => setMe tried fun t => park t (some r) none
  | .parkAny f m => setMe tried fun t => { park t none (some (f, m)) with choice := none }
  | .trap c mask code addr => takeTrap s c mask code addr
  | .hold => tried
  | .holdSerial => setMe tried fun t => { t with waitSerial := true }
  | .holdBank w => setMe tried fun t => { t with bankWait := some ((match s.me.bankWait with
      | some x => x.1
      | none => 0), w) }
  | .holdArray => updArray tried (myCore s) fun a => let ws := a.waiting.filter (stillWaits s)
      { a with waiting := if ws.any (fun w => w.1 == s.me.sid) then ws else ws ++ [(s.me.sid, s.clock)] }
  | .commit => implicitCommit tried false
  | .nest a => later (setMe tried fun t => { park t none none with nestAddr := some a }) (.sequencerLoad s.me.sid)

/-- Whether another context of the core is ready (R260). -/
def otherReady (s : State) : Bool :=
  (allStrands s).any fun t => t.sid != s.me.sid && t.loc.isSome && coreOf t == myCore s && t.st == .running && t.heldTrap.isNone && t.closing.isNone && decide (t.notBefore ≤ s.clock)

/-- The bundle issues in this ck: what its slots read is fixed (R23), the core counts the issue (R260). -/
def openIssue (s : State) : State :=
  let c := getCore s (myCore s)
  let ctx := s.me.loc.map (·.2)
  let streak := if c.lastCtx == ctx && c.lastCtx.isSome && decide (c.streak < 64) then c.streak + 1 else 1
  let me := countEv s.me 1 1
  let me := if streak = 64 && otherReady s then { me with readyAt := s.clock + 1 } else me
  { putCore s { c with lastIssue := s.clock + 1, lastCtx := ctx, streak := streak } with
    me := { me with st := .running, parkid := none, triedAt := s.clock + 1, npc := me.pc + 32, asleep := false, waitSerial := false, bankWait := none }
    issue := some { regs := s.me.regs, h := s.me.h, loop := s.me.loop, slot := 0 } }

/-- One slot's effect in its turn. -/
def runSlot (s : State) (o : SlotOp) : State :=
  match s.issue with
  | none => s
  | some i =>
    let s1 := { s with issue := some { i with slot := o.slot } }
    if suppressedBy s1 o.instr then s1 else o.eff s1

/-- The loop state and the next bundle after a bundle of an active loop's body (R94). -/
def loopStep (before : LoopSt) (t : Strand) : LoopSt × Word :=
  if before.active && t.loop.active && t.pc == loopLast before then
    let l := { t.loop with iter := t.loop.iter + 1 }
    if l.iter = l.count then ({ l with active := false }, t.pc + 32) else (l, before.first)
  else (t.loop, t.npc)

/-- A core's loop buffer is free for the strands of other contexts once its loop has ended (R309). -/
def dropLoopBuf (c : Core) (sid : Nat) : Core := { c with loopBuf := c.loopBuf.filter fun b => b.1 != sid }

/-- The bundle closes: the loop turns, a commit point starts, or the strand goes on at the next bundle (R94, R109). After a TRAP, NEXT is what its record says: pc + 32 (R118). -/
def closeIssue (s : State) : State :=
  match s.issue with
  | none => s
  | some i =>
    let r := loopStep i.loop s.me
    let next := match s.me.heldTrap with
      | some x => x.bundle
      | none => r.2
    let s1 : State := { s with issue := none, me := { s.me with loop := r.1, choice := none, waitset := none } }
    let s2 := if i.loop.active && !r.1.active then updCore s1 (myCore s1) fun c => dropLoopBuf c s.me.sid else s1
    match s2.me.closing with
    | some c => startCommit (setMe s2 fun t => { t with closing := some { c with cpt := next, next := next } })
    | none =>
      match s2.me.heldTrap with
      | some x => takeTrapOn (setMe s2 fun t => { t with heldTrap := none }) s2.me.sid x next
      | none => setMe s2 fun t => { t with pc := next }

/-- Whether a slot's effect must not be seen by another slot of its bundle, and so comes after theirs: SETS, and the near stores, which act at once in the strand's own slice (R42, R116, R346). -/
def actsLast : Instr → Bool
  | .sets _ _ _ | .stn _ _ _ _ _ | .stnv _ _ _ _ | .stnp _ _ _ _ | .stns _ _ _ _ _ _ => true
  | _ => false

/-- The slot operations of a bundle in the order in which the model performs them. -/
def inTurn (ops : List SlotOp) : List SlotOp := ops.filter (fun o => !actsLast o.instr) ++ ops.filter fun o => actsLast o.instr

/-- ISSUE A BUNDLE of the strand at issue, or find what stops it (R42). -/
def issueOps (ops : List SlotOp) (s : State) : State :=
  match stopOf s (ops.map fun o => (o.slot, o.instr)) with
  | some x => stopIssue s x
  | none => closeIssue ((inTurn ops).foldl runSlot (openIssue s))

/-- The meaning of one slot instruction: its effect inside the bundle at issue, or a bundle of its own. -/
def slotOp (slot : Nat) (i : Instr) (eff : State → State) (s : State) : Out State :=
  .next (if s.issue.isSome then (if suppressedBy s i then s else eff s) else issueOps [⟨slot, i, eff⟩] s)

/-! ## Fetch -/

/-- The line of the instruction cache that holds a bundle (R308). -/
def codeLine (pc : Word) : Word := pc &&& ~~~(63 : Word)

/-- A line of a core's instruction cache. -/
def icacheLine (c : Core) (asid : Nat) (line : Word) : Option (List Byte) := (c.icache.find? fun e => e.1 == asid && e.2.1 == line).map (·.2.2)

/-- The bundle bytes in the loop buffer, when this strand's loop runs from it (R309). -/
def loopBufBytes (c : Core) (t : Strand) : Option (List Byte) :=
  if t.loop.active then (c.loopBuf.filter fun b => b.1 == t.sid).bind fun b => (b.2.find? fun e => e.1 == t.pc).map (·.2) else none

/-- What a fetch gives: the bundle's bytes when the core has it, a line to read first, a wait for a walk or for another package, or a fault (R92, R308). -/
inductive Fetch where
  | bytes (bs : List Byte)
  | miss (line : List Byte)
  | wait (e : XFault)
  | fault (k : BitVec 4)
deriving DecidableEq, Repr

/-- A line that a fetch reads through its owner, here or in a frame of another package (R92, R344). -/
def fetchLine (s : State) (asid : Nat) (line : Word) (x : Except (BitVec 4) Place) : Fetch :=
  match x with
  | .error k => if waits k then .wait (k, line) else .fault k
  | .ok p =>
    match p.dev with
    | none => .miss (hbmRead s (keyOf s asid) p.addr 64)
    | some _ => match gotLine s asid line with
      | .ok bs => .miss bs
      | .error e => if waits e.1 then .wait e else .fault e.1

/-- Fetch the bundle at NEXT with a given translation. -/
def fetchBy (tr : Xlator) (s : State) : Fetch :=
  let t := s.me
  let c := getCore s (myCore s)
  let asid := asidOf s t
  match loopBufBytes c t with
  | some bs => .bytes bs
  | none =>
    match icacheLine c asid (codeLine t.pc) with
    | some l => .bytes ((l.drop (t.pc.toNat % 64)).take 32)
    | none => fetchLine s asid (codeLine t.pc) (tr s asid (codeLine t.pc) .fetch)

/-- Fetch the bundle at NEXT. -/
def fetchBundle (s : State) : Fetch := fetchBy translate s

/-- Put a line into the instruction cache, which holds 1,024; the oldest leaves (R308). -/
def fillIcache (s : State) (line : List Byte) : State :=
  updCore s (myCore s) fun c => { c with icache := ((c.icache ++ [(asidOf s s.me, codeLine s.me.pc, line)]).drop (c.icache.length + 1 - 1024)) }

/-- The loop buffer loads a body as its first iteration fetches it (R309). -/
def fillLoopBuf (s : State) (bs : List Byte) : State :=
  if !s.me.loop.active then s
  else updCore s (myCore s) fun c => { c with loopBuf := c.loopBuf.map fun b => if b.1 == s.me.sid && !b.2.any (fun e => e.1 == s.me.pc) then (b.1, b.2 ++ [(s.me.pc, bs)]) else b }

/-- A fetch that faults traps FAR_FAULT; the window is kept, and the owner posts its descriptor with ACC 5 (R92, R342, R370). -/
def fetchFault (s : State) (k : BitVec 4) : State :=
  let t := s.me
  let rec_ : TrapRec := ⟨.farFault, 0, k.setWidth 16, t.pc, t.window, t.pc⟩
  let asid := asidOf s t
  postDesc (takeTrap s .farFault 0 (k.setWidth 16) t.pc) (k, t.pc) asid 5 (some t.sid) (some rec_) []

/-- The bundle that 32 bytes hold. -/
def bundleOf (bs : List Byte) : BundleWords := bundleWords bs

end Sys2Proof.Machine
end

