-- ==== Sys2Proof/Machine/Control.lean ====
section
/-! DEFINITION. Slot 0: branches, loops, waiting, launch and exit, semaphores, barriers, commit points and fences, the tile sequencer, system registers, traps, predicates (R88 to R122). -/

namespace Sys2Proof.Machine

/-! ## Shared operations -/

/-- A taken branch: the next bundle, and 2 ck in which the context is not ready (R92). -/
def takeBranch (s : State) (target : Word) : State := setMe s fun t => { t with npc := target, notBefore := s.clock + 3 }

/-- A CB target (R45). -/
def cbTarget (s : State) (o : BitVec 20) : Word := s.me.pc + BitVec.ofInt 64 (32 * o.toInt)

/-- A BRX or CALLX target: bits 0 to 4 are ignored (R91). -/
def regTarget (s : State) (b : BitVec 6) : Word := rdS s b &&& ~~~(31 : Word)

/-- The return address goes to s47 (R91). -/
def saveReturn (s : State) : State := produceS s 47 1 (s.me.pc + 32)

/-- Poison a register at once (R102, R107). -/
def poisonReg (s : State) (r : RegId) (c : PoisonCode) : State :=
  setMe s fun t => let x := rot s r; writeReg t x (RegVal.poison c (t.regs.get x).tag)

/-- Deliver within `n` ck after issue. -/
def deliverWithin (s : State) (n : Nat) (sid : Nat) (t : Option Tag) (x : Payload) : State :=
  deliverIn { s with fresh := s.fresh + 1 } (1 + Config.delay s.fresh % n) sid t x

/-- Obligate a destination whose value the device agrees under replication (R357); unreplicated it has a fixed latency. -/
def agreeValue (s : State) (r : RegId) (lat : Nat) (x : Payload) : State :=
  if !replicated s s.me then produce s r lat x
  else
    let n := nextAgreed s
    let o := obligate n.2 r false
    let ord := s.me.ordinal
    if windward s s.me then deliverLater (sendAgreed o.1 o.1.me ord n.1 x) s.me.sid o.2 x
    else
      match agreedFor s.me ord n.1 with
      | some y => deliverLater o.1 s.me.sid o.2 y
      | none => match o.2 with
        | none => o.1
        | some g => setMe o.1 fun t => { t with agreeWait := t.agreeWait ++ [(ord, n.1, g, some x)] }

/-- Obligate a destination that a producer fills later with an agreed outcome (R357): the windward's, in every replica. -/
def obligateAgreed (s : State) (r : RegId) (aw : Bool) : State × Option Tag :=
  if !replicated s s.me then obligate s r aw
  else
    let n := nextAgreed s
    let o := obligate n.2 r aw
    match o.2 with
    | none => o
    | some g => (setMe o.1 fun t => { t with agreeWait := t.agreeWait ++ [(s.me.ordinal, n.1, g, none)] }, o.2)

/-- Count one replayed instruction; perform it unless the window has done so before (R328). -/
def replayed (s : State) (f : State → State) : State :=
  let r := s.me.replay.getD ⟨s.me.log.length, 0, 0⟩
  if replaysNow { s.me with replay := some r } then setMe s fun t => { t with replay := some { r with seen := r.seen + 1 } }
  else f (setMe s fun t => { t with replay := some { r with seen := r.seen + 1, done := r.done + 1 } })

/-! ## Branches and calls (R91, R92) -/

/-- NOP (R40). -/
def execNop (s : State) : Out State := slotOp 0 .nop id s

/-- BR (R91). -/
def execBr (g : BitVec 4) (o : BitVec 20) (s : State) : Out State := slotOp 0 (.br g o) (fun s => takeBranch s (cbTarget s o)) s

/-- BRX (R91). -/
def execBrx (g : BitVec 4) (b : BitVec 6) (s : State) : Out State := slotOp 0 (.brx g b) (fun s => takeBranch s (regTarget s b)) s

/-- CALL (R91). -/
def execCall (g : BitVec 4) (o : BitVec 20) (s : State) : Out State := slotOp 0 (.call g o) (fun s => takeBranch (saveReturn s) (cbTarget s o)) s

/-- CALLX (R91): the target is the old value of its register. -/
def execCallx (g : BitVec 4) (b : BitVec 6) (s : State) : Out State := slotOp 0 (.callx g b) (fun s => takeBranch (saveReturn s) (regTarget s b)) s

/-! ## The loop buffer (R93 to R97) -/

/-- Whether a core's loop buffer is free for the strand at issue (R309). -/
def loopBufFree (s : State) : Bool :=
  match (getCore s (myCore s)).loopBuf with
  | none => true
  | some b => b.1 == s.me.sid || (match getStrand s b.1 with
      | some t => !(t.loc.isSome && coreOf t == myCore s && t.loop.active)
      | none => true)

/-- Start a loop of `count` iterations over BLEN + 1 bundles (R94); it takes the loop buffer when that is free (R309). -/
def startLoop (s : State) (count : Word) (blen : BitVec 6) : State :=
  if count = 0 then takeBranch s (s.me.pc + BitVec.ofNat 64 (32 * (blen.toNat + 2)))
  else
    let s1 := if loopBufFree s then updCore s (myCore s) fun c => { c with loopBuf := some (s.me.sid, []) } else s
    setMe s1 fun t => { t with loop := { t.loop with iter := 0, count := count, first := t.pc + 32, blen := blen, active := true } }

/-- LOOP (R94). -/
def execLoop (g : BitVec 4) (c n : BitVec 6) (s : State) : Out State := slotOp 0 (.loop g c n) (fun s => startLoop s (rdS s c) n) s

/-- LOOPI (R94). -/
def execLoopi (g : BitVec 4) (c : BitVec 14) (n : BitVec 6) (s : State) : Out State := slotOp 0 (.loopi g c n) (fun s => startLoop s (c.setWidth 64) n) s

/-- LOOPH sets the rings of loops that start later (R93). -/
def execLooph (g : BitVec 4) (b : BitVec 6) (s : State) : Out State :=
  slotOp 0 (.looph g b) (fun s => setMe s fun t => { t with loop := { t.loop with rings := (rdS s b).setWidth 24 } }) s

/-- LEXIT ends the loop; the next bundle is the one after its last (R95). -/
def execLexit (g : BitVec 4) (s : State) : Out State :=
  slotOp 0 (.lexit g) (fun s => takeBranch (setMe s fun t => { t with loop := { t.loop with active := false } }) (loopLast (viewLoop s) + 32)) s

/-! ## Waiting and inspecting (R98 to R101) -/

/-- WAIT: once its register is not PENDING it has no further effect (R98). -/
def execWait (g : BitVec 4) (a : RegId) (s : State) : Out State := slotOp 0 (.wait g a) id s

/-- The index that WAITANY delivers (R99, R122). -/
def waitanyIndex (s : State) (f : RFile) (m : Word) : Nat :=
  if anySet f m = [] then 64
  else if replicated s s.me && !windward s s.me then
    match agreedFor s.me s.me.ordinal s.me.agreeN with
    | some x => agreedIndex x
    | none => 64
  else match s.me.choice with
    | some c => c.toNat
    | none => (anyReady s f m).getD 64

/-- WAITANY writes the index of the register chosen; under replication it is the windward's (R99, R122). -/
def execWaitany (g : BitVec 4) (f : RFile) (b a : BitVec 6) (s : State) : Out State :=
  slotOp 0 (.waitany g f b a) (fun s =>
    let i := waitanyIndex s f (rdS s b)
    let s1 :=
      if replicated s s.me && anySet f (rdS s b) != [] then
        let n := nextAgreed s
        if windward s s.me then sendAgreed n.2 n.2.me s.me.ordinal n.1 (.value (BitVec.ofNat 1024 i)) else n.2
      else s
    produceS s1 a 1 (BitVec.ofNat 64 i)) s

/-- STATE: the register's state, and its code when POISONED (R100). -/
def stateWord (y : RegVal) : Word := packWord [(stCode y.st, 0), (if y.st == .poisoned then y.val.toNat % 65536 else 0, 16)]

/-- STATE examines a register without waiting (R100). -/
def execState (g : BitVec 4) (b : RegId) (a : BitVec 6) (s : State) : Out State := slotOp 0 (.state g b a) (fun s => produceS s a 1 (stateWord (look s b))) s

/-- YIELD: the context counts as having become ready in the next ck, and its streak ends (R101, R260). -/
def execYield (g : BitVec 4) (s : State) : Out State :=
  slotOp 0 (.yield g) (fun s => setMe (updCore s (myCore s) fun c => { c with streak := 64 }) fun t => { t with readyAt := s.clock + 1 }) s

/-- SLEEP: the context is not ready for n ck (R101). -/
def execSleep (g : BitVec 4) (b : BitVec 6) (s : State) : Out State :=
  slotOp 0 (.sleep g b) (fun s =>
    let n := wbits (rdS s b) 0 32
    if n = 0 then s
    else after (setMe s fun t => { t with asleep := true, notBefore := s.clock + 1 + n, readyAt := s.clock + 1 + n }) (n + 1) (.sleepEnd s.me.sid)) s

/-! ## Launch and exit (R102, R103) -/

/-- Reserve the tag of a LAUNCH: a serial is held, but the destination does not become PENDING yet (R102). -/
def reserveTag (s : State) (r : RegId) : State × Option Tag :=
  if regFixed (rot s r) then (s, none)
  else
    let k := freeSerial s.me.serials 1024 0
    (setMe s fun t => { t with serials := t.serials ++ [(k, false)] }, some (tagOf k s.me.window))

/-- What the bundle at issue has found: registers, shapes, loop, sequencer, gated lines, FAULTINJ (R102). -/
def beforeBundle (s : State) (i : Issue) : Before :=
  { log := owedRegs.map fun r => let y := i.regs.get r; ⟨r, y.val, y.st, y.tag⟩
    h := i.h, loop := i.loop, seq := s.me.seq, gated := s.me.gated, inj := (s.me.faultinj, s.me.storeCount), firstId := s.nextId }

/-- LAUNCH: a commit point, then Gust's answer (R102). Bits 0 to 5 of the address not zero poison the destination ALIGN. -/
def execLaunch (g : BitVec 4) (b a : BitVec 6) (s : State) : Out State :=
  slotOp 0 (.launch g b a) (fun s =>
    let rec_ := rdS s b
    let s1 := hashItem s 5 14 0 [rec_]
    if rec_.toNat % 64 ≠ 0 then commitPoint s1 14 [] [.launchAlign (rot s (.s a))]
    else
      let x := reserveTag s1 (.s a)
      let s2 := commitPoint x.1 14 [] [.launch (rot s (.s a)) x.2 rec_]
      match s.issue with
      | none => s2
      | some i => setMe s2 fun t => { t with closing := t.closing.map fun c => { c with before := some (beforeBundle s i) } }) s

/-- EXIT: a commit point, then the wait for the awaited kinds (R103). -/
def execExit (g : BitVec 4) (s : State) : Out State := slotOp 0 (.exit g) (fun s => commitPoint s 16 [] [.exit]) s

/-! ## Semaphores (R105) -/

/-- SEMA waits in the background until the count reaches n (R105). -/
def execSema (g q : BitVec 4) (b a : BitVec 6) (s : State) : Out State :=
  slotOp 0 (.sema g q b a) (fun s =>
    let o := obligateAgreed s (.s a) false
    let r := rot s (.s a)
    after (setMe o.1 fun t => putSema t q { getSema t q with await := (rdS s b).setWidth 32, out := true, rid := if regFixed r then .s 0 else r, tag := o.2 }) 1
      (.semaFill s.me.sid q)) s

/-- SEMR increments a semaphore (R105), replayed under R328. -/
def execSemr (g q : BitVec 4) (b : BitVec 6) (s : State) : Out State :=
  slotOp 0 (.semr g q b) (fun s => replayed s fun s => semaInc s s.me.sid q ((rdS s b).setWidth 32) (.semaFill s.me.sid q)) s

/-! ## Barriers (R106, R107) -/

/-- KARR arrives and waits for the phase (R107), replayed under R328. -/
def execKarr (g k : BitVec 4) (a : BitVec 6) (s : State) : Out State :=
  slotOp 0 (.karr g k a) (fun s => replayed s fun s =>
    match getBarrier s s.me.gid k with
    | none => s
    | some x =>
      if x.bad then poisonReg s (.s a) .barrier
      else
        let o := obligate s (.s a) false
        checkPhase (putBarrier o.1 s.me.gid k { x with arrived := x.arrived + 1, waiters := x.waiters ++ [(s.me.sid, o.2)] }) s.me.gid k) s

/-- KDROP arrives and lowers later phases by one (R107), replayed under R328. -/
def execKdrop (g k : BitVec 4) (s : State) : Out State :=
  slotOp 0 (.kdrop g k) (fun s => replayed s fun s =>
    match getBarrier s s.me.gid k with
    | none => s
    | some x => if x.bad then s else checkPhase (putBarrier s s.me.gid k { x with arrived := x.arrived + 1, drops := x.drops + 1 }) s.me.gid k) s

/-- KINIT sets a barrier anew (R106), replayed under R328. -/
def execKinit (g k : BitVec 4) (b : BitVec 6) (s : State) : Out State :=
  slotOp 0 (.kinit g k b) (fun s => replayed s fun s =>
    match getBarrier s s.me.gid k with
    | none => s
    | some x =>
      let w := rdS s b
      let e := wbits w 0 7
      let bad := e == 0 || decide (64 < e) || wbits w 7 25 != 0
      wakeWaiters (putBarrier s s.me.gid k { expa := BitVec.ofNat 7 e, expb := w.extractLsb' 32 32, arrived := 0, drops := 0, bytes := 0, phase := 0, bad := bad, waiters := [] })
        x (.poison .barrier)) s

/-! ## Commit points and fences (R109 to R111) -/

/-- CMT (R109). -/
def execCmt (g : BitVec 4) (s : State) : Out State := slotOp 0 (.cmt g) (fun s => commitPoint s 22 [] []) s

/-- Code of a scope (R47). -/
def scopeNum : Scope → Nat
  | .context => 0 | .gang => 1 | .die => 2 | .device => 3 | .system => 4

/-- REL: a commit point, then the wait of its scope (R110, R320). -/
def execRel (g : BitVec 4) (f : Scope) (s : State) : Out State := slotOp 0 (.rel g f) (fun s => commitPoint s 23 [BitVec.ofNat 64 (scopeNum f)] [.rel f]) s

/-- ACQ: accesses of later bundles wait for the loads and atomics issued before it (R110, R321). -/
def execAcq (g : BitVec 4) (f : Scope) (s : State) : Out State :=
  slotOp 0 (.acq g f) (fun s =>
    if f == .context then s
    else
      let loads := (s.farLoads.filter fun l => l.sid == s.me.sid && !l.done).map (·.id)
      let atoms := (s.farAtoms.filter fun a => a.sid == s.me.sid).map (·.id)
      setMe s fun t => { t with acqFence := (t.acqFence ++ loads ++ atoms).dedup }) s

/-- NFENCE: later near accesses wait for the near accesses issued before it (R111). -/
def execNfence (g : BitVec 4) (s : State) : Out State :=
  slotOp 0 (.nfence g) (fun s => setMe s fun t => { t with nearFence := (s.nearOps.filter fun o => o.sid == t.sid).map (·.id) }) s

/-! ## The tile-loop sequencer (R112 to R115) -/

/-- A nest record's dimension d: its tiles, none when a limit is violated (R112). -/
def nestDim (bs : List Byte) (ndim d : Nat) : Option Nat :=
  let w := wordAt bs (8 + 8 * d)
  if ndim < d then (if w = 0 then some 1 else none)
  else
    let e := wbits w 0 32
    let t := wbits w 32 32
    if e = 0 ∨ t = 0 ∨ e < t then none
    else if ceilDiv e t ≤ 65535 then some (ceilDiv e t) else none

/-- A nest record: dimensions less one, tiles of each dimension, tiles in all; none when it is malformed (R112). -/
def nestOf (bs : List Byte) : Option (BitVec 2 × Word × Nat) :=
  let w := wordAt bs 0
  let nd := wbits w 0 2
  match nestDim bs nd 0, nestDim bs nd 1, nestDim bs nd 2, nestDim bs nd 3 with
  | some a, some b, some c, some d =>
    let total := a * b * c * d
    let keep (k x : Nat) : Nat := if nd < k then 0 else x
    if w.toNat >>> 2 ≠ 0 ∨ (upto 3).any (fun k => wordAt bs (40 + 8 * k) != 0) ∨ 2 ^ 32 ≤ total then none
    else some (BitVec.ofNat 2 nd, packWord [(a, 0), (keep 1 b, 16), (keep 2 c, 32), (keep 3 d, 48)], total)
  | _, _, _, _ => none

/-- SEQUENCER_LOAD (R113): the record of a waiting NEST has been read; the strand issues its bundle again with the nest staged, or traps SHAPE, or faults as a load. -/
def execSequencerLoad (sid : Nat) (s : State) : Out State :=
  .next (
    match getStrand s sid with
    | none => s
    | some t =>
      match t.nestAddr with
      | none => s
      | some a =>
        if t.st != .parked || !resident t then s
        else
          match devRead s (asidOf s t) a 64 with
          | .error e =>
            if waits e.1 then awaitAccess s e (asidOf s t) 0 false (sid, t.crec) (.sequencerLoad sid)
            else faultStrand s t e 1 0 (faultGen s (asidOf s t) e)
          | .ok bs =>
            match nestOf bs with
            | none => takeTrapOn (updStrand s sid fun t => { t with nestAddr := none }) sid ⟨.shape, 1, 0, t.pc, t.window, a⟩ t.pc
            | some n =>
              updStrand s sid fun t =>
                { t with st := .running, readyAt := s.clock + 1, notBefore := s.clock + 1
                         seq := { nextT := 0, endT := BitVec.ofNat 32 n.2.2, counts := n.2.1, mode := 2, ndim := n.1 } })

/-- The nest is read: the strand takes its static slice, or joins or reloads the gang's sequencer (R113). -/
def startNest (s : State) (g : Gang) (a : Word) : State :=
  let q := s.me.seq
  let total := q.endT.toNat
  if staticSlices s g s.me then
    let j := s.me.lidx.toNat
    let n := max g.task.nstr 1
    setMe s fun t => { t with nestAddr := none, seq := { q with nextT := BitVec.ofNat 32 (j * total / n), endT := BitVec.ofNat 32 ((j + 1) * total / n), mode := 1 } }
  else
    let joins := match g.dyn with
      | some d => d.addr == a && decide (d.next < d.total)
      | none => false
    let s1 := if joins then s else updGang s g.gid fun g => { g with dyn := some ⟨a, 0, total, q.counts, q.ndim⟩ }
    setMe s1 fun t => { t with nestAddr := none, seq := { q with nextT := 0, endT := 0, mode := 2 } }

/-- NEST (R113). Its bundle issues once the sequencer has read the record. -/
def execNest (g : BitVec 4) (b : BitVec 6) (s : State) : Out State :=
  slotOp 0 (.nest g b) (fun s => match gangOf s s.me with
    | some h => startNest s h (rdS s b)
    | none => s) s

/-- Tile indices of tile `t`, the last dimension varying fastest (R112, R114). -/
def tileWord (counts : Word) (ndim : Nat) (t : Nat) : Word :=
  let r := (upto (ndim + 1)).reverse.foldl (fun (acc : Nat × List (Nat × Nat)) d =>
    let n := max (wbits counts (16 * d) 16) 1
    (acc.1 / n, (acc.1 % n, 16 * d) :: acc.2)) (t, [])
  packWord r.2

/-- NEXT: the next tile of the strand's slice or of the shared counter, all ones when none remains (R114). -/
def execNext (g : BitVec 4) (a : BitVec 6) (s : State) : Out State :=
  slotOp 0 (.next g a) (fun s =>
    let q := s.me.seq
    if q.mode = 2 then
      match gangOf s s.me with
      | none => s
      | some h =>
        let o := obligate s (.s a) false
        match h.dyn with
        | some d =>
          if d.next < d.total then
            deliverWithin (updGang o.1 h.gid fun g => { g with dyn := some { d with next := d.next + 1 } }) 40 s.me.sid o.2 (.value ((tileWord d.counts d.ndim.toNat d.next).setWidth 1024))
          else deliverWithin o.1 40 s.me.sid o.2 (.value ((BitVec.allOnes 64).setWidth 1024))
        | none => deliverWithin o.1 40 s.me.sid o.2 (.value ((BitVec.allOnes 64).setWidth 1024))
    else if q.mode = 1 ∧ q.nextT < q.endT then
      produceS (setMe s fun t => { t with seq := { q with nextT := q.nextT + 1 } }) a 2 (tileWord q.counts q.ndim.toNat q.nextT.toNat)
    else produceS s a 2 (BitVec.allOnes 64)) s

/-! ## System registers, agreement, traps (R25, R26, R116 to R119) -/

/-- The value of a system register (R26). -/
def sysRead (s : State) (n : SysReg) : Word :=
  let t := s.me
  let field (f : Gang → Word) : Word := match gangOf s t with
    | some g => f g
    | none => 0
  match n with
  | .strand => t.lidx.setWidth 64
  | .nstrand => field fun g => BitVec.ofNat 64 g.task.nstr
  | .gang => field fun g => packWord [(g.task.width, 0), (g.task.height, 4), (g.cluster, 8)]
  | .task => field fun g => g.task.taskno.setWidth 64
  | .job => field fun g => packWord [(g.job, 0), (asidOf s t, 16), (if privilegedJob s then 1 else 0, 28)]
  | .die => BitVec.ofNat 64 (coreDie (coreOf t))
  | .device => packWord [(if s.numset then s.devnum.toNat else 0, 0), (if s.numset then 1 else 0, 12)]
  | .repl => field fun g => packWord [(max g.repl.toNat 1, 0), (g.ridx.toNat, 2)]
  | .context => match t.loc with
    | some l => l.2.setWidth 64
    | none => 0
  | .clock => BitVec.ofNat 64 s.clock
  | .window => packWord [(t.window.toNat, 0), (t.gated.length, 32)]
  | .nearstall => t.nearstall
  | .traprec => t.trec
  | .arg0 => field fun g => g.task.arg0
  | .arg1 => field fun g => g.task.arg1
  | .readymap => s.ready.setWidth 64
  | .faultinj => t.faultinj
  | .perf i => t.perf[i.toNat]'(by omega)
  | .perfsel i => (t.perfsel[i.toNat]'(by omega)).setWidth 64

/-- Write a system register of class RW or RF; unlisted fields ignore the write (R25, R26, R346). -/
def sysWrite (t : Strand) (n : SysReg) (x : Word) : Strand :=
  match n with
  | .nearstall => { t with nearstall := x }
  | .faultinj => { t with faultinj := x &&& 0x3FFFFFFFFF, storeCount := 0 }
  | .perf i => { t with perf := t.perf.set i.toNat x (by omega) }
  | .perfsel i => { t with perfsel := t.perfsel.set i.toNat (x.setWidth 8) (by omega) }
  | _ => t

/-- GETS (R116); CLOCK is agreed under replication (R122). -/
def execGets (g : BitVec 4) (n : SysReg) (a : BitVec 6) (s : State) : Out State :=
  slotOp 0 (.gets g n a) (fun s => if n == .clock then agreeValue s (.s a) 2 (.value ((sysRead s n).setWidth 1024)) else produceS s a 2 (sysRead s n)) s

/-- SETS (R116). -/
def execSets (g : BitVec 4) (n : SysReg) (a : BitVec 6) (s : State) : Out State := slotOp 0 (.sets g n a) (fun s => setMe s fun t => sysWrite t n (rdS s a)) s

/-- AGREE: the windward replica's value (R117). -/
def execAgree (g : BitVec 4) (b a : BitVec 6) (s : State) : Out State :=
  slotOp 0 (.agree g b a) (fun s => agreeValue s (.s a) 1 (.value ((rdS s b).setWidth 1024))) s

/-- TRAP: the whole bundle commits, then the strand traps with the software code, NEXT at the bundle after it (R118). -/
def execTrap (g : BitVec 4) (c : BitVec 8) (s : State) : Out State :=
  slotOp 0 (.trap g c) (fun s => setMe s fun t => { t with heldTrap := some ⟨.trap, 1, c.setWidth 16, t.pc + 32, t.window, 0⟩ }) s

/-- The read by which RESUME finds a continuation record; a fault holds it (R119, R336, R433). -/
def resumeAt (s : State) (asid : Nat) (va : Word) : State :=
  match (if isRemote s va then .ok ⟨0, none⟩ else translateNow s asid va .load) with
  | .error k => postDesc s (k, va) asid 6 none none [.resumeAt asid va]
  | .ok _ => match strandAt s asid va with
    | some t => resumeStrand s t.sid
    | none => s

/-- RESUME of the strand whose continuation record is named; a leeward performs nothing (R119, R122). -/
def execResume (g : BitVec 4) (b : BitVec 6) (s : State) : Out State :=
  slotOp 0 (.resume g b) (fun s => if windward s s.me then resumeAt s (asidOf s s.me) (rdS s b &&& ~~~(63 : Word)) else s) s

/-! ## Predicates (R120, R121) -/

/-- PLOG (R120). -/
def execPlog (g t b a d : BitVec 4) (s : State) : Out State := slotOp 0 (.plog g t b a d) (fun s => produceP s d 1 (plogP t (rdP s a) (rdP s b))) s

/-- PSET (R121). -/
def execPset (g : BitVec 4) (w : Sz) (b : BitVec 6) (a : BitVec 4) (s : State) : Out State :=
  slotOp 0 (.pset g w b a) (fun s => produceP s a 1 (prefixP (8 * szBytes w) (rdS s b).toNat)) s

end Sys2Proof.Machine
end

