-- ==== Sys2Proof/Machine/ArraySlot.lean ====
section
/-! DEFINITION. Slot 4: the commands of the systolic array (R184 to R195). -/

namespace Sys2Proof.Machine

/-- Issue an array command (R186, R187, R189): its future is obligated in the window that its commit point closes; it is poisoned ENGINE or ALIGN, or goes to its lane. -/
def arrayCommand (s : State) (i : Instr) (opc : Nat) (d : Option RegId) : State :=
  match arrayOf s i with
  | none => s
  | some (k, a, b, h, x) =>
    let o := match d with
      | some r => obligate s r true
      | none => (s, none)
    if arrayEngine s k h then commitPoint o.1 opc [] [.arrayPoison o.2 .engine]
    else if !arrayAligned s k a h then commitPoint o.1 opc [] [.arrayPoison o.2 .align]
    else
      let n := takeId o.1
      let c : ArrCmd :=
        { id := n.1, sid := s.me.sid, tag := o.2, kind := k, a := a, b := b, h := h.getD 0, x := x, cfg := cfgNow (getArray s (myCore s))
          entered := 0, complete := 0, started := false, beat0 := 0, bad := false }
      commitPoint (drainAll n.2 s.me.sid) opc [] [.array (myCore s) c]

/-- ACFG: claim the array when no context holds it, and record the configuration (R184). -/
def execAcfg (g : BitVec 4) (a : BitVec 6) (s : State) : Out State :=
  slotOp 4 (.acfg g a) (fun s =>
    let s1 := if holdsArray s then s else claimArray s (myCore s) s.me.sid (jobNum s s.me)
    recordCfg s1 (myCore s) (rdS s a)) s

/-- APROG (R190). -/
def execAprog (g : BitVec 4) (x : BitVec 2) (d b a : BitVec 6) (s : State) : Out State :=
  slotOp 4 (.aprog g x d b a) (fun s => arrayCommand s (.aprog g x d b a) 2 (some (.s d))) s

/-- ASTAT (R191). -/
def execAstat (g h : BitVec 4) (d a : BitVec 6) (s : State) : Out State :=
  slotOp 4 (.astat g h d a) (fun s => arrayCommand s (.astat g h d a) 3 (some (.s d))) s

/-- ASWAP (R191). -/
def execAswap (g : BitVec 4) (s : State) : Out State := slotOp 4 (.aswap g) (fun s => arrayCommand s (.aswap g) 4 none) s

/-- ASTREAM (R192). -/
def execAstream (g h : BitVec 4) (d b a : BitVec 6) (s : State) : Out State :=
  slotOp 4 (.astream g h d b a) (fun s => arrayCommand s (.astream g h d b a) 5 (some (.s d))) s

/-- AWAVE (R192). -/
def execAwave (g h : BitVec 4) (d b a : BitVec 6) (s : State) : Out State :=
  slotOp 4 (.awave g h d b a) (fun s => arrayCommand s (.awave g h d b a) 6 (some (.s d))) s

/-- ADRAIN (R193). -/
def execAdrain (g h : BitVec 4) (d a : BitVec 6) (s : State) : Out State :=
  slotOp 4 (.adrain g h d a) (fun s => arrayCommand s (.adrain g h d a) 7 (some (.s d))) s

/-- AREAD: row r and the steps complete, after 4 ck, or ENGINE for a non-holder (R185, R195); agreed under replication (R199). -/
def execAread (g : BitVec 4) (d : BitVec 6) (b : BitVec 5) (a : BitVec 6) (s : State) : Out State :=
  slotOp 4 (.aread g d b a) (fun s =>
    if holdsArray s then
      let x := areadRow (getArray s (myCore s)) (wbits (rdS s a) 0 5)
      agreeValue (agreeValue s (.v b) 4 (.value (ofElems 32 x.1))) (.s d) 4 (.value (BitVec.ofNat 1024 x.2))
    else agreeValue (agreeValue s (.v b) 4 (.poison .engine)) (.s d) 4 (.poison .engine)) s

/-- ACLR (R193). -/
def execAclr (g : BitVec 4) (s : State) : Out State := slotOp 4 (.aclr g) (fun s => arrayCommand s (.aclr g) 9 none) s

/-- ATRACE (R194). -/
def execAtrace (g h : BitVec 4) (d a : BitVec 6) (s : State) : Out State :=
  slotOp 4 (.atrace g h d a) (fun s => arrayCommand s (.atrace g h d a) 10 (some (.s d))) s

/-- ADONE: the holder releases the array once every earlier command has completed (R185). -/
def execAdone (g : BitVec 4) (s : State) : Out State :=
  slotOp 4 (.adone g) (fun s =>
    let i := takeId s
    if holdsArray s then after (updArray i.2 (myCore s) fun a => { a with releasing := some i.1 }) 0 (.arrayRelease (myCore s)) else s) s

end Sys2Proof.Machine
end

