-- ==== Sys2Proof/Machine/Near.lean ====
section
/-! DEFINITION. Slot 5: near memory (R201 to R211, R219). The checks of R204 and the waits of R211 come at issue. -/

namespace Sys2Proof.Machine

/-- Fill a near destination: after a fixed latency in the strand's own slice, within the limit of R207 from other slices, at the places given, each with its bytes. -/
def fillNear (s : State) (r : RegId) (own : Bool) (lat : Nat) (locs : List (Nat × Nat)) (x : VVal) : State :=
  let o := obligate s r false
  if own then deliverIn o.1 lat s.me.sid o.2 (.value x)
  else
    let n := nearLimitCk s (locs.map (·.1))
    let due := s.clock + 1 + Config.delay s.fresh % n
    let s1 := deliverWithin o.1 n s.me.sid o.2 (.value x)
    match o.2 with
    | some t => { s1 with nearLoads := s1.nearLoads ++ locs.map fun a => ⟨s.me.sid, t, a.1 / 2 ^ 20, banksOf a.1 a.2, due⟩ }
    | none => s1

/-- A near load of `n` consecutive bytes (R207, R208). -/
def nearLoadOp (s : State) (r : RegId) (a : Word) (n : Nat) (f : List Byte → VVal) : State :=
  match gangOf s s.me with
  | none => s
  | some g =>
    let x := nearLoad s g s.me a.toNat n
    fillNear x.1 r (nearSlice s.me a.toNat == s.me.lidx.toNat) 6 [(nearPhys g s.me a.toNat, n)] (f x.2)

/-- The bytes as a register value, little-endian. -/
def bytesVal (bs : List Byte) : VVal := BitVec.ofNat 1024 (leNat bs)

/-- Whether a LAUNCH stands in the bundle at issue. -/
def launching (s : State) : Bool := match s.me.closing with
  | some c => c.post.any fun p => match p with
    | .launch _ _ _ => true
    | _ => false
  | none => false

/-- A near store beside a LAUNCH waits until Gust has not rejected the record, since QUEUE commits no slot (R102). -/
def holdStore (s : State) (slice loc : Nat) (w : NearWhat) : State :=
  setMe s fun t => { t with closing := t.closing.map fun c => { c with post := c.post ++ [.near slice loc w] } }

/-- A near store of the bundle at issue. -/
def storeOrHold (s : State) (slice loc : Nat) (bs : List Byte) : State :=
  if launching s then holdStore s slice loc (.store (bs.zipIdx.map fun p => (loc + p.2, p.1))) else nearStore s s.me slice loc bs

/-- A near store of consecutive bytes (R209). -/
def nearStoreOp (s : State) (a : Word) (bs : List Byte) : State :=
  match gangOf s s.me with
  | none => s
  | some g => storeOrHold s (nearSlice s.me a.toNat) (nearPhys g s.me a.toNat) bs

/-- LDN (R208). -/
def execLdn (g : BitVec 4) (d a : BitVec 6) (o : BitVec 8) (z : Sz) (s : State) : Out State :=
  slotOp 5 (.ldn g d a o z) (fun s => nearLoadOp s (.s d) (eaM s a o (szBytes z)) (szBytes z) bytesVal) s

/-- STN (R209). -/
def execStn (g : BitVec 4) (d a : BitVec 6) (o : BitVec 8) (z : Sz) (s : State) : Out State :=
  slotOp 5 (.stn g d a o z) (fun s => nearStoreOp s (eaM s a o (szBytes z)) (leBytes (szBytes z) (rdS s d).toNat)) s

/-- LDNV (R208). -/
def execLdnv (g : BitVec 4) (d : BitVec 5) (a : BitVec 6) (o : BitVec 8) (s : State) : Out State :=
  slotOp 5 (.ldnv g d a o) (fun s => nearLoadOp s (.v d) (eaM s a o 128) 128 bytesVal) s

/-- STNV (R209). -/
def execStnv (g : BitVec 4) (d : BitVec 5) (a : BitVec 6) (o : BitVec 8) (s : State) : Out State :=
  slotOp 5 (.stnv g d a o) (fun s => nearStoreOp s (eaM s a o 128) (leBytes 128 (rdV s d).toNat)) s

/-- LDNP: the bits as stored (R208). -/
def execLdnp (g d : BitVec 4) (a : BitVec 6) (o : BitVec 8) (s : State) : Out State :=
  slotOp 5 (.ldnp g d a o) (fun s => nearLoadOp s (.p d) (eaM s a o 16) 16 bytesVal) s

/-- STNP (R209). -/
def execStnp (g d : BitVec 4) (a : BitVec 6) (o : BitVec 8) (s : State) : Out State :=
  slotOp 5 (.stnp g d a o) (fun s => nearStoreOp s (eaM s a o 16) (leBytes 16 (rdP s d).toNat)) s

/-- LDNT's transpose: element c of row i goes to element c * nr + i (R208). -/
def transposeVal (z : Sz) (bs : List Byte) : VVal :=
  let k := szBytes z
  let g := if z == .b8 then 8 else 4
  let nr := 128 / g
  ofElems (8 * k) ((upto (128 / k)).map fun e => leNat ((bs.drop (64 * (e % nr) + k * (e / nr))).take k))

/-- LDNT (R208). -/
def execLdnt (g : BitVec 4) (d : BitVec 5) (a : BitVec 6) (o : BitVec 8) (z : Sz) (s : State) : Out State :=
  slotOp 5 (.ldnt g d a o z) (fun s =>
    let w := if z == .b8 then 8 else 4
    nearLoadOp s (.v d) (eaM s a o 128) (64 * (128 / w - 1) + w) (transposeVal z)) s

/-- The effective addresses of a gather or scatter: none for a lane that is not enabled (R202, R203). -/
def laneAddrs (s : State) (g : BitVec 4) (a : BitVec 6) (t : Ty) (iv : BitVec 5) : List (Option Word) :=
  (upto (lanesOf t)).map fun i => if enabled s g t.width i then some (eaG s a iv t i) else none

/-- Read the enabled lanes of a near gather. -/
def gatherNear (s : State) (g : Gang) (k : Nat) (eas : List (Option Word)) : State × List (Option Nat) :=
  eas.foldl (fun acc ea => match ea with
    | none => (acc.1, acc.2 ++ [none])
    | some a => let r := nearLoad acc.1 g acc.1.me a.toNat k; (r.1, acc.2 ++ [some (leNat r.2)])) (s, [])

/-- The most distinct rows that enabled lanes address in one bank of the slice, at least 1 (R206, R207). -/
def bankRows (eas : List (Option Word)) : Nat :=
  let offs := eas.filterMap fun ea => ea.map fun a => nearOff a.toNat
  (upto 32).foldl (fun m b => max m ((offs.filter fun o => bitsOf o 6 5 == b).map (bitsOf · 11 9)).dedup.length) 1

/-- LDNG: enabled lanes are gathered, the others keep the old element, elements past the lanes are zero (R203, R207, R208). -/
def execLdng (g : BitVec 4) (d : BitVec 5) (a : BitVec 6) (t : Ty) (i : BitVec 5) (s : State) : Out State :=
  slotOp 5 (.ldng g d a t i) (fun s =>
    match gangOf s s.me with
    | none => s
    | some h =>
      let eas := laneAddrs s g a t i
      let x := gatherNear s h (laneBytes t) eas
      let own := eas.all fun ea => match ea with
        | some e => nearSlice s.me e.toNat == s.me.lidx.toNat
        | none => true
      let v := ofElems t.width ((x.2.zip (velems t.width (rdV s d))).map fun p => p.1.getD p.2)
      let m := if own then bankRows eas else 1
      let s1 := setMe x.1 fun t => { countEv t 6 (m - 1) with nearstall := t.nearstall + BitVec.ofNat 64 (m - 1) }
      fillNear s1 (.v d) own (5 + m) (eas.filterMap fun ea => ea.bind fun e => if nearSlice s.me e.toNat == s.me.lidx.toNat then none else some (nearPhys h s.me e.toNat, laneBytes t)) v) s

/-- STNS: enabled lanes in ascending order at each slice (R209, R210). -/
def execStns (g : BitVec 4) (d : BitVec 5) (a : BitVec 6) (o : ScatF) (t : Ty) (i : BitVec 5) (s : State) : Out State :=
  slotOp 5 (.stns g d a o t i) (fun s =>
    match gangOf s s.me with
    | none => s
    | some h =>
      let me := s.me
      let lanes := ((laneAddrs s g a t i).zip (velems t.width (rdV s d))).filterMap fun p =>
        p.1.map fun ea => (nearSlice me ea.toNat, nearPhys h me ea.toNat, p.2)
      ((lanes.map (·.1)).dedup).foldl (fun s sl =>
        let mine := (lanes.filter fun l => l.1 == sl).map (·.2)
        if launching s then holdStore s sl ((mine.map (·.1)).headD 0) (.scatter o t mine)
        else if sl = me.lidx.toNat then scatterLanes (drainSlice s me.sid sl) h.job o t mine
        else sendNear s me sl ((mine.map (·.1)).headD 0) (.scatter o t mine) .nearStorePerformed) s) s

/-- SUB of an atomic in a signature: OP + 8 * SZ (R355). -/
def atomSub (z : W2) (o : AtomF) : Nat := (atomCode o).toNat + 8 * (if z == .w64 then 1 else 0)

/-- ATMN: a commit point; the command goes to its slice after its window (R219). D is the windward's value under replication (R220). -/
def execAtmn (g : BitVec 4) (z : W2) (o : AtomF) (d a b : BitVec 6) (s : State) : Out State :=
  slotOp 5 (.atmn g z o d a b) (fun s =>
    match gangOf s s.me with
    | none => s
    | some h =>
      let ea := rdS s a
      let s1 := hashItem s 2 7 (atomSub z o) [ea, rdS s b]
      let x := obligateAgreed s1 (.s d) true
      let i := takeId x.1
      let op : NearOp :=
        { id := i.1, sid := s.me.sid, gid := s.me.gid, slice := nearSlice s.me ea.toNat, loc := nearPhys h s.me ea.toNat, what := .atomic z o (rdS s b) x.2, sent := false }
      commitPoint { i.2 with nearOps := i.2.nearOps ++ [op] } 7 [] [.nearAtom i.1]) s

end Sys2Proof.Machine
end

