-- ==== Sys2Proof/Machine/Far.lean ====
section
/-! DEFINITION. Slot 6: far memory (R205, R212 to R218). A misaligned store has trapped at issue. -/

namespace Sys2Proof.Machine

/-- Obligate and poison ALIGN: a misaligned far access with a destination makes no access (R205). -/
def alignPoison (s : State) (r : RegId) : State :=
  let o := obligate s r false
  deliverLater o.1 s.me.sid o.2 (.poison .align)

/-- A far load of one run of bytes (R213). -/
def farLoadOp (s : State) (r : RegId) (ea : Word) (n : Nat) (k : LoadKind) : State :=
  if ea.toNat % n ≠ 0 then alignPoison s r
  else let o := obligate s r false; issueLoad o.1 o.2 k [(ea, n)]

/-- LDF (R213). -/
def execLdf (g : BitVec 4) (d a : BitVec 6) (o : BitVec 8) (z : Sz) (s : State) : Out State :=
  slotOp 6 (.ldf g d a o z) (fun s => farLoadOp s (.s d) (eaM s a o (szBytes z)) (szBytes z) (.s z)) s

/-- LDFV (R213). -/
def execLdfv (g : BitVec 4) (d : BitVec 5) (a : BitVec 6) (o : BitVec 8) (s : State) : Out State :=
  slotOp 6 (.ldfv g d a o) (fun s => farLoadOp s (.v d) (eaM s a o 128) 128 .v) s

/-- LDFG: merges as LDNG; a base that is no multiple of w/8 poisons ALIGN (R205, R213). -/
def execLdfg (g : BitVec 4) (d : BitVec 5) (a : BitVec 6) (t : Ty) (i : BitVec 5) (s : State) : Out State :=
  slotOp 6 (.ldfg g d a t i) (fun s =>
    if (rdS s a).toNat % laneBytes t ≠ 0 then alignPoison s (.v d)
    else
      let eas := laneAddrs s g a t i
      let o := obligate s (.v d) false
      issueLoad o.1 o.2 (.g t (eas.map Option.isSome) (rdV s d)) (eas.filterMap fun ea => ea.map fun e => (e, laneBytes t))) s

/-- Gate the bytes of a store (R212); the data it gates is what FAULTINJ leaves, and it is hashed as gated (R346, R355). -/
def gateStore (s : State) (opc sub : Nat) (ea : Word) (n x : Nat) : State :=
  let r := injectStore s s.me x n
  let bs := leBytes n r.1
  hashItem { s with me := gateBytes s r.2 ea bs } 1 opc sub (ea :: wordsOf bs)

/-- STF (R212). -/
def execStf (g : BitVec 4) (d a : BitVec 6) (o : BitVec 8) (z : Sz) (s : State) : Out State :=
  slotOp 6 (.stf g d a o z) (fun s => gateStore s 2 (szCode z).toNat (eaM s a o (szBytes z)) (szBytes z) ((rdS s d).toNat % 2 ^ (8 * szBytes z))) s

/-- STFV (R212). -/
def execStfv (g : BitVec 4) (d : BitVec 5) (a : BitVec 6) (o : BitVec 8) (s : State) : Out State :=
  slotOp 6 (.stfv g d a o) (fun s => gateStore s 4 4 (eaM s a o 128) 128 (rdV s d).toNat) s

/-- A far atomic (R216): its commit point stands even when its address is misaligned (R205). -/
def farAtomicOp (s : State) (opc sub : Nat) (d : Option RegId) (ea : Word) (z : W2) (op : AtomOp) (ws : List Word) : State :=
  let s1 := hashItem s 2 opc sub (ea :: ws)
  let o := match d with
    | some r => obligate s1 r true
    | none => (s1, none)
  if ea.toNat % w2Bytes z ≠ 0 then commitPoint (deliverLater o.1 s.me.sid o.2 (.poison .align)) opc [] []
  else
    let i := takeId o.1
    let x : FarAtom :=
      { id := i.1, sid := s.me.sid, tag := o.2, window := s.me.window, va := ea, w := z, op := op, sent := false, cpt := 0, held := none, fkind := 0, remote := false }
    commitPoint { i.2 with farAtoms := i.2.farAtoms ++ [x] } opc [] [.farAtom i.1]

/-- ATMF (R215, R216). -/
def execAtmf (g : BitVec 4) (z : W2) (o : AtomF) (d a b : BitVec 6) (s : State) : Out State :=
  slotOp 6 (.atmf g z o d a b) (fun s => farAtomicOp s 5 (atomSub z o) (some (.s d)) (rdS s a) z (.rmw o (rdS s b)) [rdS s b]) s

/-- REDF (R215, R216). -/
def execRedf (g : BitVec 4) (z : W2) (o : AtomF) (a b : BitVec 6) (s : State) : Out State :=
  slotOp 6 (.redf g z o a b) (fun s => farAtomicOp s 6 (atomSub z o) none (rdS s a) z (.rmw o (rdS s b)) [rdS s b]) s

/-- CASF (R215, R216). -/
def execCasf (g : BitVec 4) (z : W2) (d a : BitVec 6) (b : BitVec 5) (s : State) : Out State :=
  slotOp 6 (.casf g z d a b) (fun s =>
    let c : Word := (look s (pairS b 0)).val.setWidth 64
    let v : Word := (look s (pairS b 1)).val.setWidth 64
    farAtomicOp s 7 (if z == .w64 then 8 else 0) (some (.s d)) (rdS s a) z (.cas c v) [c, v]) s

/-- PREF brings a line into a cache that no program sees: it has no effect on the state, and it never faults (R205, R213). -/
def execPref (g : BitVec 4) (a : BitVec 6) (o : BitVec 8) (s : State) : Out State := slotOp 6 (.pref g a o) id s

end Sys2Proof.Machine
end

