-- ==== Sys2Proof/Machine/Scalar.lean ====
section
/-! DEFINITION. Slots 1 and 2: scalar integer, address and FP32 instructions (R123 to R139). -/

namespace Sys2Proof.Machine

/-! ## Values -/

/-- A result at a width: 32-bit results are sign-extended (R124). -/
def atWidth (w : W2) (x : Nat) : Word :=
  match w with
  | .w64 => BitVec.ofNat 64 x
  | .w32 => sx64 x 32

/-- MULH (R126). -/
def mulhValue (f : MulhF) (a b : Word) : Word :=
  match f with
  | .signed => BitVec.ofInt 64 (a.toInt * b.toInt / 2 ^ 64)
  | .unsigned => BitVec.ofNat 64 (a.toNat * b.toNat / 2 ^ 64)
  | .mixed => BitVec.ofInt 64 (a.toInt * (b.toNat : Int) / 2 ^ 64)

/-- Width of a DIV or REM. -/
def divWidth : DivF → Nat
  | .s64 | .u64 => 64
  | .s32 | .u32 => 32

/-- Quotient and remainder as bit patterns at the width (R126). -/
def divRem (f : DivF) (a b : Nat) : Nat × Nat :=
  let n := divWidth f
  let x := a % 2 ^ n
  let y := b % 2 ^ n
  if y = 0 then (2 ^ n - 1, x)
  else
    match f with
    | .u64 | .u32 => (x / y, x % y)
    | .s64 | .s32 =>
      let p := sxNat x n
      let q := sxNat y n
      (wrapN (p.tdiv q) n, wrapN (p.tmod q) n)

/-- A DIV or REM result as the register receives it (R124, R126). -/
def divResult (f : DivF) (x : Nat) : Word := if divWidth f = 32 then sx64 x 32 else BitVec.ofNat 64 x

/-- ck of a DIV or REM (R137). -/
def divLatency (f : DivF) : Nat := if divWidth f = 32 then 12 else 20

/-- LOGI, with its zero-extended immediate (R128). -/
def logiValue (o : LogF) (a : Word) (v : BitVec 8) : Word :=
  match o with
  | .and => a &&& v.setWidth 64
  | .or => a ||| v.setWidth 64
  | .xor => a ^^^ v.setWidth 64

/-- A shift or rotation of `a` by `c` modulo the width (R128). -/
def shiftValue (k : ShiftK) (w : W2) (a : Word) (c : Nat) : Word :=
  let n := 8 * w2Bytes w
  let x := a.toNat % 2 ^ n
  let c := c % n
  let r : Nat :=
    match k with
    | .shl => (x <<< c) % 2 ^ n
    | .shr => x >>> c
    | .sar => wrapN (sxNat x n / 2 ^ c) n
    | .rot => (x >>> c ||| x <<< (n - c)) % 2 ^ n
  atWidth w r

/-- MINMAX (R130). -/
def minmaxValue (f : MinMaxF) (a b : Word) : Word :=
  match f with
  | .min => if b.slt a then b else a
  | .max => if a.slt b then b else a
  | .minu => if b.ult a then b else a
  | .maxu => if a.ult b then b else a

/-- BITC (R130). -/
def bitcValue (f : BitcF) (a : Word) : Word :=
  BitVec.ofNat 64 (match f with
    | .clz => clz 64 a.toNat
    | .ctz => ctz 64 a.toNat
    | .popc => popcount 64 a.toNat)

/-- The field of a position word: first bit, length inside the register (R131). -/
def fieldOf (w : Word) : Nat × Nat :=
  let p := wbits w 0 6
  let n := min (wbits w 6 7) 64
  (p, min (p + n) 64 - p)

/-- EXT (R131). -/
def extValue (signed : Bool) (a w : Word) : Word :=
  let f := fieldOf w
  let x := bitsOf a.toNat f.1 f.2
  if signed then sx64 x f.2 else BitVec.ofNat 64 x

/-- INS (R131). -/
def insValue (a w d : Word) : Word :=
  let f := fieldOf w
  let m : Nat := (2 ^ f.2 - 1) <<< f.1
  (d &&& ~~~(BitVec.ofNat 64 m)) ||| BitVec.ofNat 64 (bitsOf a.toNat 0 f.2 <<< f.1)

/-- MOVI's constant (R133). -/
def moviValue : ImmW → Word
  | .imm16 x => x.signExtend 64
  | .lit x => x.signExtend 64

/-- MOVHI with IMM16 (R133). -/
def movhiValue (d : Word) (i : BitVec 16) : Word := sx64 (d.toNat % 2 ^ 16 + i.toNat <<< 16) 32

/-- MOVHI.W (R133). -/
def movhiWValue (d : Word) (x : Half) : Word := (d &&& (0xFFFFFFFF : Word)) ||| (x.setWidth 64 <<< 32)

/-- The f32 bits of a register or literal (R134). -/
def f32Of (x : Word) : Nat := x.toNat % 2 ^ 32

/-- FOP (R134). -/
def fopValue (f : FopF) (a b d : Word) : Word :=
  let x := f32Of a
  let y := f32Of b
  BitVec.ofNat 64 (match f with
    | .fadd => faddB fmtF32 x y
    | .fsub => fsubB fmtF32 x y
    | .fmul => fmulB fmtF32 x y
    | .fma => fmaB fmtF32 false x y (f32Of d)
    | .fmin => fminB fmtF32 x y
    | .fmax => fmaxB fmtF32 x y)

/-- ck of a FOP (R137). -/
def fopLatency : FopF → Nat
  | .fma => 4
  | _ => 3

/-- f32 to n64 (R81, R136). -/
def toN64 (x : FVal) (rm : RMode) : Nat :=
  match x with
  | .nan => 0
  | .inf neg => if neg then 0 else 2 ^ 64 - 1
  | .fin d => (clampI 0 (2 ^ 64 - 1) (rndI d rm 0)).toNat

/-- FCVT (R136). -/
def fcvtValue (f : FcvtF) (a : Word) : Word :=
  BitVec.ofNat 64 (match f with
    | .i2f => convert a.toNat .i64 .f32 .rne false 0
    | .n2f => narrowF fmtF32 (Dy.ofInt a.toNat) .rne false 0
    | .f2i => convert (f32Of a) .f32 .i64 .rne false 0
    | .f2iRtz => convert (f32Of a) .f32 .i64 .rtz false 0
    | .f2n => toN64 (decodeF fmtF32 (f32Of a)) .rne
    | .f2nRtz => toN64 (decodeF fmtF32 (f32Of a)) .rtz)

/-! ## Integer arithmetic (R126, R127) -/

/-- ADD (R126). -/
def execAdd (g : BitVec 4) (d a : BitVec 6) (b : Src2) (w : W2) (s : State) : Out State :=
  slotOp 1 (.add g d a b w) (fun s => produceS s d 1 (atWidth w (rdS s a + rdSrc2 s b).toNat)) s

/-- SUB (R126). -/
def execSub (g : BitVec 4) (d a : BitVec 6) (b : Src2) (w : W2) (s : State) : Out State :=
  slotOp 1 (.sub g d a b w) (fun s => produceS s d 1 (atWidth w (rdS s a - rdSrc2 s b).toNat)) s

/-- ADDI (R126). -/
def execAddi (g : BitVec 4) (d a : BitVec 6) (i : BitVec 10) (s : State) : Out State :=
  slotOp 1 (.addi g d a i) (fun s => produceS s d 1 (rdS s a + i.signExtend 64)) s

/-- MUL (R126). -/
def execMul (g : BitVec 4) (d a : BitVec 6) (b : Src2) (w : W2) (s : State) : Out State :=
  slotOp 1 (.mul g d a b w) (fun s => produceS s d 3 (atWidth w (rdS s a * rdSrc2 s b).toNat)) s

/-- MULH (R126). -/
def execMulh (g : BitVec 4) (d a : BitVec 6) (b : Src2) (f : MulhF) (s : State) : Out State :=
  slotOp 1 (.mulh g d a b f) (fun s => produceS s d 4 (mulhValue f (rdS s a) (rdSrc2 s b))) s

/-- The divider is busy until its result is there (R127); what it works on is dropped with its window (R138). DESIGN CHOICE: with D = s0 or an obligation that is cancelled otherwise, it stays busy for its whole latency (log 59). -/
def useDivider (s : State) (d : BitVec 6) (f : DivF) (x : Nat) : State :=
  let o := obligate s (.s d) false
  deliverIn (updCore o.1 (myCore s) fun c => { c with divBusy := s.clock + divLatency f, divOwner := some (s.me.sid, o.2.getD (tagOf 0 s.me.window)) })
    (divLatency f) s.me.sid o.2 (.value ((divResult f x).setWidth 1024))

/-- DIV (R126, R127). -/
def execDiv (g : BitVec 4) (d a : BitVec 6) (b : Src2) (f : DivF) (s : State) : Out State :=
  slotOp 1 (.div g d a b f) (fun s => useDivider s d f (divRem f (rdS s a).toNat (rdSrc2 s b).toNat).1) s

/-- REM (R126, R127). -/
def execRem (g : BitVec 4) (d a : BitVec 6) (b : Src2) (f : DivF) (s : State) : Out State :=
  slotOp 1 (.rem g d a b f) (fun s => useDivider s d f (divRem f (rdS s a).toNat (rdSrc2 s b).toNat).2) s

/-! ## Logic, shifts and compares (R128, R129) -/

/-- AND (R128). -/
def execAnd (g : BitVec 4) (d a : BitVec 6) (b : Src2) (s : State) : Out State :=
  slotOp 1 (.and g d a b) (fun s => produceS s d 1 (rdS s a &&& rdSrc2 s b)) s

/-- OR (R128). -/
def execOr (g : BitVec 4) (d a : BitVec 6) (b : Src2) (s : State) : Out State :=
  slotOp 1 (.or g d a b) (fun s => produceS s d 1 (rdS s a ||| rdSrc2 s b)) s

/-- XOR (R128). -/
def execXor (g : BitVec 4) (d a : BitVec 6) (b : Src2) (s : State) : Out State :=
  slotOp 1 (.xor g d a b) (fun s => produceS s d 1 (rdS s a ^^^ rdSrc2 s b)) s

/-- LOGI (R128). -/
def execLogi (g : BitVec 4) (d a : BitVec 6) (o : LogF) (v : BitVec 8) (s : State) : Out State :=
  slotOp 1 (.logi g d a o v) (fun s => produceS s d 1 (logiValue o (rdS s a) v)) s

/-- SHL (R128). -/
def execShl (g : BitVec 4) (d a : BitVec 6) (b : Src2) (w : W2) (s : State) : Out State :=
  slotOp 1 (.shl g d a b w) (fun s => produceS s d 1 (shiftValue .shl w (rdS s a) (rdSrc2 s b).toNat)) s

/-- SHR (R128). -/
def execShr (g : BitVec 4) (d a : BitVec 6) (b : Src2) (w : W2) (s : State) : Out State :=
  slotOp 1 (.shr g d a b w) (fun s => produceS s d 1 (shiftValue .shr w (rdS s a) (rdSrc2 s b).toNat)) s

/-- SAR (R128). -/
def execSar (g : BitVec 4) (d a : BitVec 6) (b : Src2) (w : W2) (s : State) : Out State :=
  slotOp 1 (.sar g d a b w) (fun s => produceS s d 1 (shiftValue .sar w (rdS s a) (rdSrc2 s b).toNat)) s

/-- ROT (R128). -/
def execRot (g : BitVec 4) (d a : BitVec 6) (b : Src2) (w : W2) (s : State) : Out State :=
  slotOp 1 (.rot g d a b w) (fun s => produceS s d 1 (shiftValue .rot w (rdS s a) (rdSrc2 s b).toNat)) s

/-- SHI (R128). -/
def execShi (g : BitVec 4) (d a : BitVec 6) (w : W2) (k : ShiftK) (c : BitVec 6) (s : State) : Out State :=
  slotOp 1 (.shi g d a w k c) (fun s => produceS s d 1 (shiftValue k w (rdS s a) c.toNat)) s

/-- CMP (R129). -/
def execCmp (g d : BitVec 4) (a : BitVec 6) (b : Src2) (f : CmpC) (s : State) : Out State :=
  slotOp 1 (.cmp g d a b f) (fun s => produceP s d 1 (flagP (cmpHolds f (rdS s a) (rdSrc2 s b)))) s

/-- CMPI (R129). -/
def execCmpi (g d : BitVec 4) (a : BitVec 6) (c : CmpC) (v : BitVec 7) (s : State) : Out State :=
  slotOp 1 (.cmpi g d a c v) (fun s => produceP s d 1 (flagP (cmpHolds c (rdS s a) (v.signExtend 64)))) s

/-! ## Selection, counts and fields (R130, R131) -/

/-- MINMAX (R130). -/
def execMinmax (g : BitVec 4) (d a : BitVec 6) (b : Src2) (f : MinMaxF) (s : State) : Out State :=
  slotOp 1 (.minmax g d a b f) (fun s => produceS s d 1 (minmaxValue f (rdS s a) (rdSrc2 s b))) s

/-- SEL (R130). -/
def execSel (g : BitVec 4) (d a : BitVec 6) (b : Src2) (p : BitVec 4) (s : State) : Out State :=
  slotOp 1 (.sel g d a b p) (fun s => produceS s d 1 (if (rdP s p).toNat.testBit 0 then rdS s a else rdSrc2 s b)) s

/-- BITC (R130). -/
def execBitc (g : BitVec 4) (d a : BitVec 6) (f : BitcF) (s : State) : Out State :=
  slotOp 1 (.bitc g d a f) (fun s => produceS s d 1 (bitcValue f (rdS s a))) s

/-- EXT (R131). -/
def execExt (g : BitVec 4) (d a : BitVec 6) (b : Src2) (signed : Bool) (s : State) : Out State :=
  slotOp 1 (.ext g d a b signed) (fun s => produceS s d 1 (extValue signed (rdS s a) (rdSrc2 s b))) s

/-- INS (R131). -/
def execIns (g : BitVec 4) (d a : BitVec 6) (b : Src2) (s : State) : Out State :=
  slotOp 1 (.ins g d a b) (fun s => produceS s d 1 (insValue (rdS s a) (rdSrc2 s b) (rdS s d))) s

/-! ## Moving futures, constants, addresses (R132, R133) -/

/-- A PENDING future moves: its tag goes to the destination, and the source is POISONED with MOVED (R132, R280). -/
def moveFuture (t : Strand) (d a : RegId) : Strand :=
  let tag := (t.regs.get a).tag
  let t1 := logFirst t a
  let t2 := { t1 with regs := t1.regs.put a (RegVal.poison .moved tag) }
  let t3 := writeReg t2 d ⟨0, .pending, tag⟩
  { t3 with q := t3.q.map fun q => if q.out && q.tag == some tag then { q with rid := if regFixed d then .s 0 else d } else q }

/-- MOV of a register of any file (R132). -/
def moveReg (s : State) (d a : RegId) : State :=
  let y := look s a
  match y.st with
  | .full => produce s d 1 (.value y.val)
  | .pending => if rot s d == rot s a then s else setMe s fun t => moveFuture t (rot s d) (rot s a)
  | .poisoned => s

/-- MOV, s to s (R132). -/
def execMov (g : BitVec 4) (d a : BitVec 6) (s : State) : Out State := slotOp 1 (.mov g d a) (fun s => moveReg s (.s d) (.s a)) s

/-- MOV, p to p (R132). -/
def execMovPredicate (g d a : BitVec 4) (s : State) : Out State := slotOp 1 (.movPredicate g d a) (fun s => moveReg s (.p d) (.p a)) s

/-- MOVI (R133). -/
def execMovi (g : BitVec 4) (d : BitVec 6) (i : ImmW) (s : State) : Out State := slotOp 1 (.movi g d i) (fun s => produceS s d 1 (moviValue i)) s

/-- MOVHI with IMM16 (R133). -/
def execMovhi (g : BitVec 4) (d : BitVec 6) (i : BitVec 16) (s : State) : Out State :=
  slotOp 1 (.movhi g d i) (fun s => produceS s d 1 (movhiValue (rdS s d) i)) s

/-- MOVHI.W with the literal (R133). -/
def execMovhiW (g : BitVec 4) (d : BitVec 6) (x : Half) (s : State) : Out State :=
  slotOp 1 (.movhiW g d x) (fun s => produceS s d 1 (movhiWValue (rdS s d) x)) s

/-- LEA (R133). -/
def execLea (g : BitVec 4) (d a : BitVec 6) (b : Src2) (k : BitVec 3) (s : State) : Out State :=
  slotOp 1 (.lea g d a b k) (fun s => produceS s d 1 (rdS s a + (rdSrc2 s b <<< k.toNat))) s

/-! ## FP32 (R134 to R136) -/

/-- FOP (R134). -/
def execFop (g : BitVec 4) (d a : BitVec 6) (b : Src2) (f : FopF) (s : State) : Out State :=
  slotOp 1 (.fop g d a b f) (fun s => produceS s d (fopLatency f) (fopValue f (rdS s a) (rdSrc2 s b) (rdS s d))) s

/-- FCMP (R135). -/
def execFcmp (g d : BitVec 4) (a : BitVec 6) (b : Src2) (f : FcmpF) (s : State) : Out State :=
  slotOp 1 (.fcmp g d a b f) (fun s => produceP s d 2 (flagP (fcmpHolds f (f32Of (rdS s a)) (f32Of (rdSrc2 s b))))) s

/-- FCVT (R136). -/
def execFcvt (g : BitVec 4) (d a : BitVec 6) (f : FcvtF) (s : State) : Out State :=
  slotOp 1 (.fcvt g d a f) (fun s => produceS s d 3 (fcvtValue f (rdS s a))) s

end Sys2Proof.Machine
end

