-- ==== Sys2Proof/Machine/Sched.lean ====
section
/-! DEFINITION. What happens next: events from outside, events due, the context that issues (R260), and the passing of one ck. -/

namespace Sys2Proof.Machine

/-- Whether a strand goes on to a comparison point at which another replica waits for it, halted or not: a pre-emption then takes effect after the verdict (R365). -/
def owesSig (s : State) (t : Strand) : Bool := t.sig.isNone && (replicasOf s t).any fun u => u.sig.isSome

/-- Whether a context may attempt its next bundle in this ck: ready, or waiting only on the remaining wait of R434. -/
def mayIssue (s : State) (t : Strand) : Bool :=
  t.loc.isSome && t.heldTrap.isNone && t.closing.isNone && (!t.halted || owesSig s t) && !coreGone s (coreOf t) && (t.st == .running || (t.st == .parked && t.cdone)) &&
  decide (t.notBefore ≤ s.clock) && decide (t.triedAt < s.clock + 1) && decide ((getCore s (coreOf t)).lastIssue < s.clock + 1)

/-- Whether `a` goes before `b` among the ready contexts of one core (R260). -/
def goesFirst (c : Core) (a b : Strand) : Bool :=
  let ctx (t : Strand) : Option (BitVec 2) := t.loc.map (·.2)
  let keeps (t : Strand) : Bool := ctx t == c.lastCtx && c.lastCtx.isSome && decide (c.streak < 64)
  if keeps a then true
  else if keeps b then false
  else decide (a.readyAt < b.readyAt) || (a.readyAt == b.readyAt && decide ((ctx a).getD 0 ≤ (ctx b).getD 0))

/-- The choice among two candidates: within one core by R260, between cores by logical strand index (R107). -/
def better (s : State) (a b : Strand) : Strand :=
  if coreOf a = coreOf b then (if goesFirst (getCore s (coreOf a)) a b then a else b)
  else if a.lidx ≤ b.lidx then a else b

/-- The best candidate of a core. -/
def coreChoice (s : State) (core : Nat) (ts : List Strand) : Option Strand :=
  ts.foldl (fun o t => if coreOf t = core then (match o with | none => some t | some u => some (better s u t)) else o) none

/-- The strand that attempts to issue next. -/
def pickIssue (s : State) : Option Nat :=
  let ts := (allStrands s).filter (mayIssue s)
  let best := ts.filterMap fun t => match coreChoice s (coreOf t) ts with | some u => if u.sid = t.sid then some t else none | none => none
  (best.foldl (fun o t => match o with | none => some t | some u => some (better s u t)) none).map (·.sid)

/-- Events that come at the end of their ck, after what the bundles of the ck do: the test of a SEMA (R105, R108), a copy's bytes after the arrivals of the ck (R107, R288, R291), a credit word after its pushes (R295); the entry of the traps of the ck into their rings (R372). -/
def endOfCk : Instr → Bool
  | .semaFill _ _ | .copyCompletion _ _ | .creditRefresh _ _ | .heldEventEntry _ => true
  | _ => false

/-- The first event that may run, removed from the list. -/
def takeDue (p : Timer → Bool) : List Timer → Option (Instr × List Timer)
  | [] => none
  | t :: ts =>
    if p t then some (t.ev, ts)
    else match takeDue p ts with
      | some r => some (r.1, t :: r.2)
      | none => none

/-- Take the first event that may run. -/
def dueInstr (s : State) (p : Timer → Bool) : Option (Instr × State) := (takeDue p s.timers).map fun r => (r.1, { s with timers := r.2 })

/-- What the next step executes, and the state with it removed from where it waited; none when only time passes. Events from outside come first, then events due, the bundles of the ck, and the events at its end. -/
def nextInstr (s : State) : Option (Instr × State) :=
  match s.inbox with
  | i :: is => some (i, { s with inbox := is })
  | [] =>
    match dueInstr s fun t => decide (t.due ≤ s.clock) && !endOfCk t.ev with
    | some r => some r
    | none =>
      match pickIssue s with
      | some sid => some (.bundleIssue sid, s)
      | none => dueInstr s fun t => decide (t.due ≤ s.clock)

/-- A NEAR access that waits for its banks has waited one ck more (R206). -/
def countBank (t : Strand) : Strand :=
  match t.bankWait with
  | none => t
  | some w => { countEv t 6 1 with bankWait := some (w.1 + 1, w.2), nearstall := t.nearstall + 1 }

/-- What a resident strand counts in one ck (R27, R206, R362): parked, ready and not selected, waiting for a serial or for banks, holding the array. -/
def countCk (s : State) (t : Strand) : Strand :=
  if !(resident t) then t
  else
    let t := { t with late := t.late.map (· + 1) }
    let t := if t.st == .parked then countEv t 2 1 else t
    let c := getCore s (coreOf t)
    let issued := c.lastIssue == s.clock + 1 && c.lastCtx == t.loc.map (·.2)
    let t := if t.st == .running && t.notBefore ≤ s.clock && !issued then countEv t 3 1 else t
    let t := if t.waitSerial then countEv t 9 1 else t
    let t := countBank t
    if c.array.holder == some t.sid then countEv t 4 1 else t

/-- A request of the device under its name. -/
def named (rid : Nat) : Packet → Packet
  | .perform _ a r bs c h w => .perform rid a r bs c h w
  | .frameWrite _ a bs => .frameWrite rid a bs
  | .deliver _ a rec t x => .deliver rid a rec t x
  | p => p

/-- Whether a write of the device to another package has not been answered. -/
def writesOut (s : State) (dev : BitVec 12) : Bool := s.reqs.any fun r => r.dev == dev && match r.what with
  | .devWrite _ => true
  | _ => false

/-- Send a write of the device: one at a time to each package, once its path is there (R433). A release waits for no answer. -/
def sendWrite (s : State) (w : BitVec 12 × Packet) : State :=
  match w.2 with
  | .release _ => sendPacket s w.1 0 w.2
  | p => if pathLost s w.1 || writesOut s w.1 then { s with devOut := s.devOut ++ [w] } else sendReq s w.1 (.devWrite p) fun r => named r p

/-- Send what the device writes to other packages, in order. -/
def sendWrites (s : State) : State := s.devOut.foldl sendWrite { s with devOut := [] }

/-- Whether a fetch still waits for an answer it has: its strand is at that line, and the line is not in the cache. -/
def fetchWaits (s : State) (sid : Nat) (g : Got) : Bool :=
  match getStrand s sid with
  | none => false
  | some t =>
    let line := codeLine t.pc
    resident t && asidOf s t == g.asid && (icacheLine (getCore s (coreOf t)) g.asid line).isNone &&
      (g.va == line || farOff g.va >>> 16 == farOff line >>> 16)

/-- Whether an answer is kept: the event that waits for it is still to run. -/
def keepsGot (s : State) (g : Got) : Bool :=
  evPending s g.ev || match g.ev with
    | .bundleIssue sid => fetchWaits s sid g
    | _ => false

/-- What a core keeps from one ck to the next: XSTAT's counts, AREAD's count of the last ck; its banks are free again (R195, R206, R243). -/
def tickCore (c : Core) : Core :=
  { c with
    xstat := (upto 5).map fun x => if x = 4 then c.copies.length else (c.copies.filter fun y => y.cmd.toNat % 4 == x).length
    array := { c.array with curDonePrev := c.array.curDone }
    banks := [] }

/-- ck from image start within which every cluster and stack reports or is mapped out (R417). -/
def bringUpLimit : Nat := 390000000

/-- A cluster or a stack that has not reported when the limit is over is mapped out (R417). -/
def mapOutLate (s : State) : State :=
  if s.imageAt.any fun t => s.clock + 1 == t + bringUpLimit then
    let late (k : Nat) (u : HwUnit) : List HwUnit := if s.ready.toNat.testBit k || s.mapped.contains u then [] else [u]
    { s with mapped := s.mapped ++ ((upto 24).flatMap fun k => late k (.cluster (k / 3) (k % 3))) ++ (upto 8).flatMap fun d => late (24 + d) (.stack d) }
  else s

/-- One ck passes. -/
def tick (s0 : State) : State :=
  let s := mapOutLate (sendWrites s0)
  { s with
    clock := s.clock + 1
    me := countCk s s.me
    pool := s.pool.map (countCk s)
    cores := s.cores.map tickCore
    nearLoads := s.nearLoads.filter fun l => decide (s.clock < l.due)
    got := s.got.filter (keepsGot s) }

end Sys2Proof.Machine
end

