-- ==== Sys2Proof/Machine/Transfer.lean ====
section
/-! DEFINITION. Slot 7: shapes, copies, channels, collectives and their status (R222 to R246). The checks that trap come at issue. -/

namespace Sys2Proof.Machine

/-! ## Shapes and copies -/

/-- The record that SHAPE builds from four words: VALID is set (R224). -/
def shapeRec (w0 w1 w2 w3 : Word) : Shape := w3 ++ w2 ++ w1 ++ (w0 ||| 0x8000000000000000)

/-- SHAPE (R224). -/
def execShape (g h a : BitVec 4) (s : State) : Out State :=
  slotOp 7 (.shape g h a) (fun s =>
    let w (k : Nat) : Word := rdS s (BitVec.ofNat 6 (4 * a.toNat + k))
    setMe s fun t => { t with h := t.h.set h.toNat (shapeRec (w 0) (w 1) (w 2) (w 3)) (by omega) }) s

/-- The near source bytes of a copy (R355). -/
def nearSource (s : State) (g : Gang) (c : CopyOp) : List Byte := match copySource s g s.me c (srcRanges c) with
  | .ok bs => bs
  | .error _ => []

/-- Hash a far-bound copy at issue (R355). A far source is read, and the copy hashed, in the tentative phase; one whose future is poisoned reads no far source (log 29). -/
def hashCopy (s : State) (g : Gang) (opc : Nat) (c : CopyOp) (poisoned : Bool) : State :=
  if caNear c.src then hashItem s 3 opc (cmQueue c.cmd) (copyWords c ++ wordsOf (nearSource s g c))
  else if poisoned then hashItem s 3 opc (cmQueue c.cmd) (copyWords c)
  else s

/-- What poisons a copy at issue, in the order of R229. -/
def copyPoisonOf (s : State) (g : Gang) (c : CopyOp) : Option PoisonCode :=
  if copyEngine c then some .engine
  else if copyMisaligned c then some .align
  else if copyOverlaps s g s.me c then some .overlap
  else none

/-- A near-bound copy goes to its queue; beside a LAUNCH it waits until Gust has not rejected the record (R102). -/
def placeOrHold (s : State) (c : CopyOp) : State :=
  if launching s then setMe s fun t => { t with closing := t.closing.map fun x => { x with post := x.post ++ [.copy c] } } else placeCopy s (myCore s) c

/-- Issue a copy (R229): a far-bound one is a commit point (R232), a near-bound one goes to its queue (R233). -/
def copyCommand (s : State) (i : Instr) (opc : Nat) (d : BitVec 6) : State :=
  match copyOf s i, gangOf s s.me with
  | some c, some g =>
    let s := drainAll s s.me.sid
    let c := if c.kind == .copy then c else { c with idx := readIdx s g s.me c.h }
    let poison := copyPoisonOf s g c
    if farBound c then
      let o := obligate (hashCopy s g opc c poison.isSome) (.s d) true
      match poison with
      | some code => commitPoint o.1 opc [] [.copyPoison o.2 code]
      | none => let n := takeId o.1; commitPoint n.2 opc [] [.copy { c with id := n.1, tag := o.2 }]
    else
      let o := obligateAgreed s (.s d) true
      match poison with
      | some code => deliverLater o.1 s.me.sid o.2 (.poison code)
      | none => let n := takeId o.1; placeOrHold n.2 { c with id := n.1, tag := o.2 }
  | _, _ => s

/-- COPY (R227). -/
def execCopy (g h : BitVec 4) (d b a : BitVec 6) (s : State) : Out State :=
  slotOp 7 (.copy g h d b a) (fun s => copyCommand s (.copy g h d b a) 2 d) s

/-- COPYQ (R226, R227). -/
def execCopyq (g h : BitVec 4) (d b : BitVec 6) (a : BitVec 5) (s : State) : Out State :=
  slotOp 7 (.copyq g h d b a) (fun s => copyCommand s (.copyq g h d b a) 3 d) s

/-- GATH (R228). -/
def execGath (g h : BitVec 4) (d b a : BitVec 6) (s : State) : Out State :=
  slotOp 7 (.gath g h d b a) (fun s => copyCommand s (.gath g h d b a) 4 d) s

/-- SCAT (R228). -/
def execScat (g h : BitVec 4) (d b a : BitVec 6) (s : State) : Out State :=
  slotOp 7 (.scat g h d b a) (fun s => copyCommand s (.scat g h d b a) 5 d) s

/-! ## Channels -/

/-- CHAN: a commit point, then the binding (R235). -/
def execChan (g : BitVec 4) (c d a : BitVec 6) (s : State) : Out State :=
  slotOp 7 (.chan g c d a) (fun s =>
    match gangOf s s.me with
    | none => s
    | some h =>
      let x := rdS s a
      let s1 := drainAll s s.me.sid
      let bs := descBytes s1 h s1.me x
      let o := obligate s1 (.s d) false
      commitPoint o.1 6 [c.setWidth 64, x] [.chan c o.2 bs (if x.toNat % 64 = 0 then none else some .align)]) s

/-- The ticket that a SEND uses: the strand's oldest on a ticketed channel (R236). -/
def oldestTicket (s : State) (g : Gang) (c : BitVec 6) : Option (BitVec 32) :=
  match chanOf g c with
  | .send e => if e.tkt then (s.me.tickets.find? fun k => k.1 == c).map (·.2) else none
  | _ => none

/-- SEND: a commit point, then the message (R236). -/
def execSend (g : BitVec 4) (c d a : BitVec 6) (s : State) : Out State :=
  slotOp 7 (.send g c d a) (fun s =>
    match gangOf s s.me with
    | none => s
    | some h =>
      let x := rdS s a
      let s1 := drainAll s s.me.sid
      let sp := chanSpan x
      let bs := nearBytes s1 h.job (nearPhys h s1.me sp.1) sp.2
      let o := obligate (hashItem s1 4 7 0 (x :: wordsOf bs)) (.s d) true
      let op : SendOp := { sid := s.me.sid, tag := o.2, bytes := bs, num := oldestTicket s h c, left := false, count := 0, since := 0 }
      commitPoint o.1 7 [] [.send c op (if sp.1 % 8 = 0 then none else some .align)]) s

/-- RECV and RECVA of a mask of channels (R237). -/
def recvCommand (s : State) (opc : Nat) (d : BitVec 6) (x mask : Word) (ws : List Word) : State :=
  let sp := chanSpan x
  let o := obligate (drainAll s s.me.sid) (.s d) false
  let n := takeId o.1
  let op : RecvOp := { id := n.1, sid := s.me.sid, tag := o.2, addr := BitVec.ofNat 64 sp.1, size := sp.2, mask := mask }
  commitPoint n.2 opc ws [.recv op (if sp.1 % 8 = 0 then none else some .align)]

/-- RECV: a commit point, then the wait for a message (R237). -/
def execRecv (g : BitVec 4) (c d a : BitVec 6) (s : State) : Out State :=
  slotOp 7 (.recv g c d a) (fun s => recvCommand s 8 d (rdS s a) (BitVec.ofNat 64 (2 ^ c.toNat)) [c.setWidth 64, rdS s a]) s

/-- RECVA: as RECV, for the channels of a mask (R237). -/
def execRecva (g : BitVec 4) (d : BitVec 6) (a : BitVec 5) (s : State) : Out State :=
  slotOp 7 (.recva g d a) (fun s =>
    let x : Word := (look s (pairS a 0)).val.setWidth 64
    let m : Word := (look s (pairS a 1)).val.setWidth 64
    recvCommand s 9 d x m [x, m]) s

/-- TICK: a commit point, then the request for a ticket (R238). -/
def execTick (g : BitVec 4) (c d : BitVec 6) (s : State) : Out State :=
  slotOp 7 (.tick g c d) (fun s =>
    let o := obligate s (.s d) false
    commitPoint o.1 10 [c.setWidth 64] [.tick c o.2]) s

/-! ## Collectives and sparse streams -/

/-- COLL, SPSEND and SPRECV (R240, R242): a commit point, then the command with the descriptor it read. What they send is hashed with its source in the tentative phase (R355); a misaligned one sends nothing. -/
def collCommand (s : State) (opc : Nat) (d : BitVec 6) (x : Word) (sparse send : Bool) : State :=
  match gangOf s s.me with
  | none => s
  | some g =>
    let s1 := drainAll s s.me.sid
    let aligned := x.toNat % 64 == 0
    let bs := descBytes s1 g s1.me x
    let s2 := if send && !aligned then hashItem s1 4 opc 0 (wordsOf bs) else s1
    let o := obligate s2 (.s d) send
    commitPoint o.1 opc (if send then [] else [x]) [if sparse then (if send then .spsend o.2 aligned bs none else .sprecv o.2 aligned bs none) else .coll o.2 aligned bs none]

/-- COLL (R240). -/
def execColl (g : BitVec 4) (d a : BitVec 6) (s : State) : Out State := slotOp 7 (.coll g d a) (fun s => collCommand s 11 d (rdS s a) false true) s

/-- SPSEND (R242). -/
def execSpsend (g : BitVec 4) (d a : BitVec 6) (s : State) : Out State := slotOp 7 (.spsend g d a) (fun s => collCommand s 12 d (rdS s a) true true) s

/-- SPRECV (R242). -/
def execSprecv (g : BitVec 4) (d a : BitVec 6) (s : State) : Out State := slotOp 7 (.sprecv g d a) (fun s => collCommand s 13 d (rdS s a) true false) s

/-- XSTAT: copies outstanding at the end of the last ck, on one queue or on all (R243); agreed under replication (R245). -/
def execXstat (g x : BitVec 4) (d : BitVec 6) (s : State) : Out State :=
  slotOp 7 (.xstat g x d) (fun s => agreeValue s (.s d) 1 (.value (BitVec.ofNat 1024 ((getCore s (myCore s)).xstat.getD x.toNat 0)))) s

end Sys2Proof.Machine
end

