-- ==== Sys2Proof/Machine/VectorSlot.lean ====
section
/-! DEFINITION. Slot 3: the vector engine (R140 to R159). -/

namespace Sys2Proof.Machine

/-! ## Elements and merging (R13, R140, R141) -/

/-- `elem(x, w, i)` (R13). -/
def elemV (w : Nat) (x : VVal) (i : Nat) : Nat := bitsOf x.toNat (w * i) w

/-- A merging result: enabled elements from `f`, the others from the old destination (R141). -/
def mergeV (s : State) (g : BitVec 4) (w : Nat) (d : BitVec 5) (f : Nat → Nat) : VVal :=
  ofElems w ((velems w (rdV s d)).zipIdx.map fun p => if enabled s g w p.2 then f p.2 else p.1)

/-- A merging predicate: the byte groups of enabled elements from `f`, the others from the old destination (R146). -/
def mergeP (s : State) (g d : BitVec 4) (w : Nat) (f : Nat → Bool) : PVal :=
  let m := packGroups w ((upto (1024 / w)).map (enabled s g w))
  (rdP s d &&& ~~~m) ||| (packGroups w ((upto (1024 / w)).map f) &&& m)

/-- An element-wise instruction of two sources that merges. -/
def vec2 (s : State) (g : BitVec 4) (d a b : BitVec 5) (t : Ty) (lat : Nat) (f : Nat → Nat → Nat) : State :=
  produceV s d lat (mergeV s g t.width d fun i => f (elemV t.width (rdV s a) i) (elemV t.width (rdV s b) i))

/-- An element-wise instruction of one source that merges. -/
def vec1 (s : State) (g : BitVec 4) (d a : BitVec 5) (t : Ty) (lat : Nat) (f : Nat → Nat) : State :=
  produceV s d lat (mergeV s g t.width d fun i => f (elemV t.width (rdV s a) i))

/-- ck of an instruction with an integer and a float latency (R157). -/
def latOf (t : Ty) (int flt : Nat) : Nat := if isFloatTy t then flt else int

/-! ## Element functions (R144, R145) -/

/-- VADD and VSUB (R144). -/
def vaddElem (t : Ty) (sat sub : Bool) (a b : Nat) : Nat :=
  match fmtOf t with
  | some f => if sub then fsubB f a b else faddB f a b
  | none =>
    let r := if sub then intVal t a - intVal t b else intVal t a + intVal t b
    if sat then satInt t r else wrapN r t.width

/-- VMUL (R144). -/
def vmulElem (t : Ty) (hi : Bool) (a b : Nat) : Nat :=
  match fmtOf t with
  | some f => fmulB f a b
  | none => wrapN (if hi then intVal t a * intVal t b / 2 ^ t.width else intVal t a * intVal t b) t.width

/-- VFMA (R144). -/
def vfmaElem (t : Ty) (neg : Bool) (a b d : Nat) : Nat :=
  match fmtOf t with
  | some f => fmaB f neg a b d
  | none => wrapN ((if neg then -(intVal t a * intVal t b) else intVal t a * intVal t b) + intVal t d) t.width

/-- VMIN (R144). -/
def vminElem (t : Ty) (a b : Nat) : Nat :=
  match fmtOf t with
  | some f => fminB f a b
  | none => if intVal t b < intVal t a then b else a

/-- VMAX (R144). -/
def vmaxElem (t : Ty) (a b : Nat) : Nat :=
  match fmtOf t with
  | some f => fmaxB f a b
  | none => if intVal t a < intVal t b then b else a

/-- VUNA (R144). -/
def vunaElem (t : Ty) (neg : Bool) (a : Nat) : Nat :=
  match fmtOf t with
  | some f =>
    if (decodeF f a).isNan then qnanBits f
    else if neg then a ^^^ 2 ^ (t.width - 1) else a % 2 ^ (t.width - 1)
  | none => wrapN (if neg then -intVal t a else (intVal t a).natAbs) t.width

/-- VSHR (R145). -/
def vshrElem (t : Ty) (ar : Bool) (a b : Nat) : Nat :=
  let c := b % t.width
  if ar then wrapN (sxNat a t.width / 2 ^ c) t.width else a >>> c

/-! ## Arithmetic -/

/-- VADD (R144). -/
def execVadd (g : BitVec 4) (d a b : BitVec 5) (t : Ty) (sat : Bool) (s : State) : Out State :=
  slotOp 3 (.vadd g d a b t sat) (fun s => vec2 s g d a b t (latOf t 2 4) (vaddElem t sat false)) s

/-- VSUB (R144). -/
def execVsub (g : BitVec 4) (d a b : BitVec 5) (t : Ty) (sat : Bool) (s : State) : Out State :=
  slotOp 3 (.vsub g d a b t sat) (fun s => vec2 s g d a b t (latOf t 2 4) (vaddElem t sat true)) s

/-- VMUL (R144). -/
def execVmul (g : BitVec 4) (d a b : BitVec 5) (t : Ty) (hi : Bool) (s : State) : Out State :=
  slotOp 3 (.vmul g d a b t hi) (fun s => vec2 s g d a b t (latOf t 3 4) (vmulElem t hi)) s

/-- VFMA (R144). -/
def execVfma (g : BitVec 4) (d a b : BitVec 5) (t : Ty) (neg : Bool) (s : State) : Out State :=
  slotOp 3 (.vfma g d a b t neg) (fun s =>
    produceV s d (latOf t 3 4) (mergeV s g t.width d fun i =>
      vfmaElem t neg (elemV t.width (rdV s a) i) (elemV t.width (rdV s b) i) (elemV t.width (rdV s d) i))) s

/-- VMIN (R144). -/
def execVmin (g : BitVec 4) (d a b : BitVec 5) (t : Ty) (s : State) : Out State :=
  slotOp 3 (.vmin g d a b t) (fun s => vec2 s g d a b t (latOf t 2 4) (vminElem t)) s

/-- VMAX (R144). -/
def execVmax (g : BitVec 4) (d a b : BitVec 5) (t : Ty) (s : State) : Out State :=
  slotOp 3 (.vmax g d a b t) (fun s => vec2 s g d a b t (latOf t 2 4) (vmaxElem t)) s

/-- VUNA (R144). -/
def execVuna (g : BitVec 4) (d a : BitVec 5) (t : Ty) (neg : Bool) (s : State) : Out State :=
  slotOp 3 (.vuna g d a t neg) (fun s => vec1 s g d a t (latOf t 2 4) (vunaElem t neg)) s

/-- VAND (R145). -/
def execVand (g : BitVec 4) (d a b : BitVec 5) (t : Ty) (s : State) : Out State :=
  slotOp 3 (.vand g d a b t) (fun s => vec2 s g d a b t 2 (· &&& ·)) s

/-- VOR (R145). -/
def execVor (g : BitVec 4) (d a b : BitVec 5) (t : Ty) (s : State) : Out State :=
  slotOp 3 (.vor g d a b t) (fun s => vec2 s g d a b t 2 (· ||| ·)) s

/-- VXOR (R145). -/
def execVxor (g : BitVec 4) (d a b : BitVec 5) (t : Ty) (s : State) : Out State :=
  slotOp 3 (.vxor g d a b t) (fun s => vec2 s g d a b t 2 (· ^^^ ·)) s

/-- VSHL (R145). -/
def execVshl (g : BitVec 4) (d a b : BitVec 5) (t : Ty) (s : State) : Out State :=
  slotOp 3 (.vshl g d a b t) (fun s => vec2 s g d a b t 2 fun x y => (x <<< (y % t.width)) % 2 ^ t.width) s

/-- VSHR (R145). -/
def execVshr (g : BitVec 4) (d a b : BitVec 5) (t : Ty) (ar : Bool) (s : State) : Out State :=
  slotOp 3 (.vshr g d a b t ar) (fun s => vec2 s g d a b t 2 (vshrElem t ar)) s

/-- VCMP (R146). -/
def execVcmp (g d : BitVec 4) (a b : BitVec 5) (t : Ty) (c : VcmpC) (s : State) : Out State :=
  slotOp 3 (.vcmp g d a b t c) (fun s =>
    produceP s d 3 (mergeP s g d t.width fun i => vcmpHolds t c (elemV t.width (rdV s a) i) (elemV t.width (rdV s b) i))) s

/-- VSEL (R147). -/
def execVsel (g : BitVec 4) (d a b : BitVec 5) (t : Ty) (s : State) : Out State :=
  slotOp 3 (.vsel g d a b t) (fun s =>
    produceV s d 2 (ofElems t.width ((upto t.count).map fun i => if active (rdP s g) t.width i then elemV t.width (rdV s a) i else elemV t.width (rdV s b) i))) s

/-! ## Conversion and requantisation (R148 to R150) -/

/-- The iteration count that STO rounding takes: of the active loop, else 0 (R78). -/
def loopIter (s : State) : Nat := if (viewLoop s).active then (viewLoop s).iter.toNat else 0

/-- Argument r of a VCVT element (R78). -/
def cvtRand (s : State) (i x : Nat) : Nat := rand32 (seedOf s s.me) s.me.pc.toNat s.me.lidx.toNat (loopIter s) i x

/-- Exact value of source element `i` of a VCVT, and its bits (R148, R149). -/
def cvtSource (s : State) (a : BitVec 5) (t : Ty) (i : Nat) : FVal × Nat :=
  let x := elemV t.width (rdV s a) i
  if t == .mx8 then
    let o := rdV s (a + 1)
    (mxValue (o.toNat.testBit 32) (elemV 8 o (i / 32)) x, x)
  else (valueOf t x, x)

/-- VCVT to a target other than mx8 (R148). -/
def cvtPlain (s : State) (g : BitVec 4) (d a : BitVec 5) (from_ to_ : Ty) (nan : Bool) (r : Rm) : VVal :=
  let n := 1024 / max from_.width to_.width
  ofElems to_.width ((velems to_.width (rdV s d)).zipIdx.map fun p =>
    if n ≤ p.2 then 0
    else if enabled s g to_.width p.2 then
      let x := cvtSource s a from_ p.2
      convertV x.1 from_.isInt to_ (rmodeOf r) nan (cvtRand s p.2 x.2)
    else p.1)

/-- VCVT of i64 to mx8: half a block, whose 16 codes and scale the manual does not state (R149, log 26). -/
def cvtHalf (s : State) (a : BitVec 5) (k nan : Bool) (r : Rm) : VVal × VVal :=
  let xs := (upto 16).map fun e => let x := elemV 64 (rdV s a) e; (x, cvtRand s e x)
  let control := k.toNat + 2 * nan.toNat + 4 * (match r with | .rne => 0 | .rtz => 1 | .sto => 2)
  (ofElems 8 ((upto 16).map fun e => (Config.halfBlock xs control e).toNat), BitVec.ofNat 1024 ((Config.halfBlock xs control 16).toNat % 255 + if k then 2 ^ 32 else 0))

/-- VCVT to mx8: the codes and the scale register (R149). -/
def cvtMx (s : State) (d a : BitVec 5) (from_ : Ty) (nan : Bool) (r : Rm) : VVal × VVal :=
  let k := (rdV s (d + 1)).toNat.testBit 32
  if from_ == .i64 then cvtHalf s a k nan r
  else
  let n := 1024 / max from_.width 8
  let blocks := (upto (n / 32)).map fun j =>
    let xs := (upto 32).map fun e => cvtSource s a from_ (32 * j + e)
    toMx (xs.map (·.1)) k (rmodeOf r) nan (xs.zipIdx.map fun p => cvtRand s (32 * j + p.2) p.1.2)
  (ofElems 8 (blocks.flatMap (·.1)), BitVec.ofNat 1024 (packElems 8 (blocks.map (·.2)) + if k then 2 ^ 32 else 0))

/-- VCVT (R148, R149). -/
def execVcvt (g : BitVec 4) (d a : BitVec 5) (s t : Ty) (nan : Bool) (r : Rm) (st : State) : Out State :=
  slotOp 3 (.vcvt g d a s t nan r) (fun z =>
    if t == .mx8 then
      let x := cvtMx z d a s nan r
      produceV (produceV z d 6 x.1) (d + 1) 6 x.2
    else produceV z d 4 (cvtPlain z g d a s t nan r)) st

/-- One lane of VQNT (R150). -/
def vqntElem (t : Ty) (rtz : Bool) (a c : Nat) : Nat :=
  let x := sxNat a 32
  let y := rndI ⟨decide (x < 0), x.natAbs, -(bitsOf c 0 6 : Int)⟩ (if rtz then .rtz else .rne) 0
  satInt t (y + sxNat (c >>> 8) 16)

/-- VQNT (R150). -/
def execVqnt (g : BitVec 4) (d a b : BitVec 5) (t : Ty) (rtz : Bool) (s : State) : Out State :=
  slotOp 3 (.vqnt g d a b t rtz) (fun s =>
    let q := if t.width = 8 then bitsOf (rdV s b).toNat 6 2 else bitsOf (rdV s b).toNat 6 1
    let old := velems t.width (rdV s d)
    let lanes := (upto 32).map fun i =>
      if enabled s g 32 i then vqntElem t rtz (elemV 32 (rdV s a) i) (elemV 32 (rdV s b) i) else old.getD (32 * q + i) 0
    produceV s d 3 (ofElems t.width (spliceAt (32 * q) lanes old))) s

/-! ## Reductions and scans (R151) -/

/-- `comb` (R151). -/
def redComb (t : Ty) (f : RedF) (a b : Nat) : Nat :=
  match f with
  | .add => vaddElem t false false a b
  | .min => vminElem t a b
  | .max => vmaxElem t a b
  | .and => a &&& b
  | .or => a ||| b
  | .xor => a ^^^ b

/-- The identity of `comb` (R151). -/
def redId (t : Ty) (f : RedF) : Nat :=
  match fmtOf t, f with
  | some _, .add => 2 ^ (t.width - 1)
  | some m, .min => infBits m false
  | some m, .max => infBits m true
  | some _, _ => 0
  | none, .add => 0
  | none, .min => wrapN (intMax t) t.width
  | none, .max => wrapN (intMin t) t.width
  | none, .and => 2 ^ t.width - 1
  | none, .or => 0
  | none, .xor => 0

/-- Elements of the source, the identity where disabled. -/
def redInput (s : State) (g : BitVec 4) (a : BitVec 5) (t : Ty) (f : RedF) : List Nat :=
  (velems t.width (rdV s a)).zipIdx.map fun p => if enabled s g t.width p.2 then p.1 else redId t f

/-- One level of the tree: neighbours combine. -/
def pairUp (c : Nat → Nat → Nat) : List Nat → List Nat
  | a :: b :: r => c a b :: pairUp c r
  | r => r

/-- The fixed tree of VRED. -/
def redTree (c : Nat → Nat → Nat) : Nat → List Nat → Nat
  | 0, xs => xs.headD 0
  | n + 1, xs => redTree c n (pairUp c xs)

/-- The steps of VSCAN, with distances d, 2d, .... -/
def scanSteps (c : Nat → Nat → Nat) : Nat → Nat → List Nat → List Nat
  | 0, _, xs => xs
  | n + 1, d, xs => scanSteps c n (2 * d) (xs.take d ++ List.zipWith c xs (xs.drop d))

/-- VRED (R151). -/
def execVred (g : BitVec 4) (d a : BitVec 5) (t : Ty) (f : RedF) (s : State) : Out State :=
  slotOp 3 (.vred g d a t f) (fun s => produceV s d (latOf t 6 10) (ofElems t.width [redTree (redComb t f) 7 (redInput s g a t f)])) s

/-- VSCAN (R151). -/
def execVscan (g : BitVec 4) (d a : BitVec 5) (t : Ty) (f : RedF) (s : State) : Out State :=
  slotOp 3 (.vscan g d a t f) (fun s => produceV s d (latOf t 6 10) (ofElems t.width (scanSteps (redComb t f) 7 1 (redInput s g a t f)))) s

/-! ## Lane movement (R152) -/

/-- VPERM (R152). -/
def execVperm (g : BitVec 4) (d a b : BitVec 5) (t : Ty) (s : State) : Out State :=
  slotOp 3 (.vperm g d a b t) (fun s =>
    produceV s d 3 (mergeV s g t.width d fun i => let j := elemV t.width (rdV s b) i; if j < t.count then elemV t.width (rdV s a) j else 0)) s

/-- VBCAST (R152). -/
def execVbcast (g : BitVec 4) (d a : BitVec 5) (t : Ty) (fromV : Bool) (s : State) : Out State :=
  slotOp 3 (.vbcast g d a t fromV) (fun s =>
    produceV s d 2 (mergeV s g t.width d fun _ => if fromV then elemV t.width (rdV s a) 0 else (rdS s (a.setWidth 6)).toNat % 2 ^ t.width)) s

/-- VMOVS (R152). -/
def execVmovs (g : BitVec 4) (d a b : BitVec 5) (t : Ty) (s : State) : Out State :=
  slotOp 3 (.vmovs g d a b t) (fun s =>
    let j := (rdS s (b.setWidth 6)).toNat
    let x := elemV t.width (rdV s a) j
    produceS s (d.setWidth 6) 2 (if t.count ≤ j then 0 else if t.isSigned then sx64 x t.width else BitVec.ofNat 64 x)) s

/-- VINS (R152). -/
def execVins (g : BitVec 4) (d a b : BitVec 5) (t : Ty) (s : State) : Out State :=
  slotOp 3 (.vins g d a b t) (fun s =>
    let j := (rdS s (b.setWidth 6)).toNat
    let x := (rdS s (a.setWidth 6)).toNat % 2 ^ t.width
    produceV s d 2 (ofElems t.width ((velems t.width (rdV s d)).zipIdx.map fun p => if p.2 = j then x else p.1))) s

/-- VIDX (R144). -/
def execVidx (g : BitVec 4) (d : BitVec 5) (t : Ty) (s : State) : Out State :=
  slotOp 3 (.vidx g d t) (fun s => produceV s d 2 (mergeV s g t.width d fun i => i % 2 ^ t.width)) s

/-- VFUN (R153). -/
def execVfun (g : BitVec 4) (d a : BitVec 5) (f : VfunF) (s : State) : Out State :=
  slotOp 3 (.vfun g d a f) (fun s => vec1 s g d a .f32 12 (vfunBits f)) s

/-! ## Compare-exchange (R154) -/

/-- The order of VCX keys: every NaN above all else, -0 below +0 (R154). -/
def keyLt (t : Ty) (a b : Nat) : Bool :=
  match fmtOf t with
  | some f =>
    let x := decodeF f a
    let y := decodeF f b
    if x.isNan then false else if y.isNan then true else x.below y
  | none => decide (intVal t a < intVal t b)

/-- VCX (R154). -/
def execVcx (g : BitVec 4) (d a b : BitVec 5) (t : Ty) (k : BitVec 3) (s : State) : Out State :=
  slotOp 3 (.vcx g d a b t k) (fun s =>
    let w := t.width
    let dist := 2 ^ k.toNat
    let key (i : Nat) : Nat := elemV w (rdV s a) i
    let swap (i : Nat) : Bool := if enabled s g w i then keyLt t (key (i + dist)) (key i) else keyLt t (key i) (key (i + dist))
    produceV s d 2 (ofElems w ((upto t.count).map fun e =>
      let i := if bit e k.toNat then e - dist else e
      let other := if bit e k.toNat then i else i + dist
      elemV w (rdV s b) (if swap i then other else e)))) s

/-! ## Counts, strings and bitmaps (R144, R155, R156) -/

/-- VPOPC (R144). -/
def execVpopc (g : BitVec 4) (d a : BitVec 5) (t : Ty) (s : State) : Out State :=
  slotOp 3 (.vpopc g d a t) (fun s => vec1 s g d a t 2 (popcount t.width)) s

/-- VMATCH at one position (R155). -/
def matchAt (w n : Nat) (a b : VVal) (i : Nat) : Bool :=
  let m := elemV w b (n - 1)
  decide (1 ≤ m) && decide (m ≤ n - 1) && (upto m).all fun k => decide (n ≤ i + k) || elemV w a (i + k) == elemV w b k

/-- VMATCH (R155). -/
def execVmatch (g d : BitVec 4) (a b : BitVec 5) (t : Ty) (s : State) : Out State :=
  slotOp 3 (.vmatch g d a b t) (fun s => produceP s d 3 (mergeP s g d t.width (matchAt t.width t.count (rdV s a) (rdV s b)))) s

/-- The bitmap bits that the enabled elements name (R156). -/
def bitIndices (s : State) (g : BitVec 4) (a : BitVec 5) (t : Ty) : List Nat :=
  (velems t.width (rdV s a)).zipIdx.filterMap fun p => if enabled s g t.width p.2 then some (p.1 % 1024) else none

/-- A mask of bits. -/
def bitMask (is : List Nat) : VVal := is.foldl (fun m i => m ||| BitVec.ofNat 1024 (2 ^ i)) 0

/-- VBITS test (R156). -/
def execVbitsTest (g d : BitVec 4) (a b : BitVec 5) (t : Ty) (s : State) : Out State :=
  slotOp 3 (.vbitsTest g d a b t) (fun s =>
    produceP s d 3 (mergeP s g d t.width fun i => (rdV s b).toNat.testBit (elemV t.width (rdV s a) i % 1024))) s

/-- VBITS set (R156). -/
def execVbitsSet (g : BitVec 4) (d a b : BitVec 5) (t : Ty) (s : State) : Out State :=
  slotOp 3 (.vbitsSet g d a b t) (fun s => produceV s d 3 (rdV s b ||| bitMask (bitIndices s g a t))) s

/-- VBITS clear (R156). -/
def execVbitsClear (g : BitVec 4) (d a b : BitVec 5) (t : Ty) (s : State) : Out State :=
  slotOp 3 (.vbitsClear g d a b t) (fun s => produceV s d 3 (rdV s b &&& ~~~bitMask (bitIndices s g a t))) s

end Sys2Proof.Machine
end

