-- ==== Sys2Proof/Machine/Bundle.lean ====
section
/-! DEFINITION. BUNDLE_ISSUE (R42): the fetch of the bundle at NEXT, its legality, and its slots' effects in one step. -/

namespace Sys2Proof.Machine

/-- The effect of one slot instruction of a bundle; an event is none. -/
def runInstr (i : Instr) (s : State) : Out State :=
  match i with
  | .nop => execNop s
  | .br g o => execBr g o s
  | .brx g b => execBrx g b s
  | .call g o => execCall g o s
  | .callx g b => execCallx g b s
  | .loop g c n => execLoop g c n s
  | .loopi g c n => execLoopi g c n s
  | .looph g b => execLooph g b s
  | .lexit g => execLexit g s
  | .wait g a => execWait g a s
  | .waitany g f b a => execWaitany g f b a s
  | .state g b a => execState g b a s
  | .yield g => execYield g s
  | .sleep g b => execSleep g b s
  | .launch g b a => execLaunch g b a s
  | .exit g => execExit g s
  | .sema g q b a => execSema g q b a s
  | .semr g q b => execSemr g q b s
  | .karr g k a => execKarr g k a s
  | .kdrop g k => execKdrop g k s
  | .kinit g k b => execKinit g k b s
  | .cmt g => execCmt g s
  | .rel g f => execRel g f s
  | .acq g f => execAcq g f s
  | .nfence g => execNfence g s
  | .nest g b => execNest g b s
  | .next g a => execNext g a s
  | .gets g n a => execGets g n a s
  | .sets g n a => execSets g n a s
  | .agree g b a => execAgree g b a s
  | .trap g c => execTrap g c s
  | .plog g t b a d => execPlog g t b a d s
  | .pset g w b a => execPset g w b a s
  | .resume g b => execResume g b s
  | .add g d a b w => execAdd g d a b w s
  | .sub g d a b w => execSub g d a b w s
  | .addi g d a i => execAddi g d a i s
  | .mul g d a b w => execMul g d a b w s
  | .mulh g d a b f => execMulh g d a b f s
  | .div g d a b f => execDiv g d a b f s
  | .rem g d a b f => execRem g d a b f s
  | .and g d a b => execAnd g d a b s
  | .or g d a b => execOr g d a b s
  | .xor g d a b => execXor g d a b s
  | .logi g d a o v => execLogi g d a o v s
  | .shl g d a b w => execShl g d a b w s
  | .shr g d a b w => execShr g d a b w s
  | .sar g d a b w => execSar g d a b w s
  | .rot g d a b w => execRot g d a b w s
  | .shi g d a w k c => execShi g d a w k c s
  | .cmp g d a b f => execCmp g d a b f s
  | .cmpi g d a c v => execCmpi g d a c v s
  | .minmax g d a b f => execMinmax g d a b f s
  | .sel g d a b p => execSel g d a b p s
  | .bitc g d a f => execBitc g d a f s
  | .ext g d a b signed => execExt g d a b signed s
  | .ins g d a b => execIns g d a b s
  | .mov g d a => execMov g d a s
  | .movPredicate g d a => execMovPredicate g d a s
  | .movi g d i => execMovi g d i s
  | .movhi g d i => execMovhi g d i s
  | .movhiW g d x => execMovhiW g d x s
  | .lea g d a b k => execLea g d a b k s
  | .fop g d a b f => execFop g d a b f s
  | .fcmp g d a b f => execFcmp g d a b f s
  | .fcvt g d a f => execFcvt g d a f s
  | .vadd g d a b t sat => execVadd g d a b t sat s
  | .vsub g d a b t sat => execVsub g d a b t sat s
  | .vmul g d a b t hi => execVmul g d a b t hi s
  | .vfma g d a b t neg => execVfma g d a b t neg s
  | .vmin g d a b t => execVmin g d a b t s
  | .vmax g d a b t => execVmax g d a b t s
  | .vuna g d a t neg => execVuna g d a t neg s
  | .vand g d a b t => execVand g d a b t s
  | .vor g d a b t => execVor g d a b t s
  | .vxor g d a b t => execVxor g d a b t s
  | .vshl g d a b t => execVshl g d a b t s
  | .vshr g d a b t ar => execVshr g d a b t ar s
  | .vcmp g d a b t c => execVcmp g d a b t c s
  | .vsel g d a b t => execVsel g d a b t s
  | .vcvt g d a src t nan r => execVcvt g d a src t nan r s
  | .vqnt g d a b t rtz => execVqnt g d a b t rtz s
  | .vred g d a t f => execVred g d a t f s
  | .vscan g d a t f => execVscan g d a t f s
  | .vperm g d a b t => execVperm g d a b t s
  | .vbcast g d a t fromV => execVbcast g d a t fromV s
  | .vmovs g d a b t => execVmovs g d a b t s
  | .vins g d a b t => execVins g d a b t s
  | .vidx g d t => execVidx g d t s
  | .vfun g d a f => execVfun g d a f s
  | .vcx g d a b t k => execVcx g d a b t k s
  | .vpopc g d a t => execVpopc g d a t s
  | .vmatch g d a b t => execVmatch g d a b t s
  | .vbitsTest g d a b t => execVbitsTest g d a b t s
  | .vbitsSet g d a b t => execVbitsSet g d a b t s
  | .vbitsClear g d a b t => execVbitsClear g d a b t s
  | .acfg g a => execAcfg g a s
  | .aprog g x d b a => execAprog g x d b a s
  | .astat g h d a => execAstat g h d a s
  | .aswap g => execAswap g s
  | .astream g h d b a => execAstream g h d b a s
  | .awave g h d b a => execAwave g h d b a s
  | .adrain g h d a => execAdrain g h d a s
  | .aread g d b a => execAread g d b a s
  | .aclr g => execAclr g s
  | .atrace g h d a => execAtrace g h d a s
  | .adone g => execAdone g s
  | .ldn g d a o z => execLdn g d a o z s
  | .stn g d a o z => execStn g d a o z s
  | .ldnv g d a o => execLdnv g d a o s
  | .stnv g d a o => execStnv g d a o s
  | .ldng g d a t i => execLdng g d a t i s
  | .stns g d a o t i => execStns g d a o t i s
  | .atmn g z o d a b => execAtmn g z o d a b s
  | .ldnp g d a o => execLdnp g d a o s
  | .stnp g d a o => execStnp g d a o s
  | .ldnt g d a o z => execLdnt g d a o z s
  | .ldf g d a o z => execLdf g d a o z s
  | .stf g d a o z => execStf g d a o z s
  | .ldfv g d a o => execLdfv g d a o s
  | .stfv g d a o => execStfv g d a o s
  | .atmf g z o d a b => execAtmf g z o d a b s
  | .redf g z o a b => execRedf g z o a b s
  | .casf g z d a b => execCasf g z d a b s
  | .pref g a o => execPref g a o s
  | .ldfg g d a t i => execLdfg g d a t i s
  | .shape g h a => execShape g h a s
  | .copy g h d b a => execCopy g h d b a s
  | .copyq g h d b a => execCopyq g h d b a s
  | .gath g h d b a => execGath g h d b a s
  | .scat g h d b a => execScat g h d b a s
  | .chan g c d a => execChan g c d a s
  | .send g c d a => execSend g c d a s
  | .recv g c d a => execRecv g c d a s
  | .recva g d a => execRecva g d a s
  | .tick g c d => execTick g c d s
  | .coll g d a => execColl g d a s
  | .spsend g d a => execSpsend g d a s
  | .sprecv g d a => execSprecv g d a s
  | .xstat g x d => execXstat g x d s
  | .bundleIssue _ => .next s
  | .heldEventEntry _ => .next s
  | .delivery _ _ _ => .next s
  | .sleepEnd _ => .next s
  | .semaFill _ _ => .next s
  | .strandDone _ => .next s
  | .launchAnswer _ => .next s
  | .enqueue _ _ _ => .next s
  | .ringRefill _ _ => .next s
  | .dispatch _ => .next s
  | .taskCompletion _ => .next s
  | .eviction _ => .next s
  | .pickUp _ _ => .next s
  | .watchdogPreempt _ => .next s
  | .watchdog _ => .next s
  | .preemptionRequest _ _ _ _ => .next s
  | .arrayClaim _ => .next s
  | .arrayConfigApply _ => .next s
  | .arrayRelease _ => .next s
  | .arrayBeat _ => .next s
  | .arrayCommandComplete _ _ => .next s
  | .copyCompletion _ _ => .next s
  | .barrierBytes _ => .next s
  | .copyStart _ _ => .next s
  | .farLoadTranslate _ => .next s
  | .faultRollback _ _ _ _ => .next s
  | .atomicFaultRollback _ => .next s
  | .atomicPlacement _ => .next s
  | .nearAtomicApply _ => .next s
  | .windowTentativePhase _ => .next s
  | .windowPerform _ => .next s
  | .performTimeout _ => .next s
  | .tlbWalkComplete _ _ => .next s
  | .shootDownRequest _ _ _ => .next s
  | .shootDownPerformed _ _ => .next s
  | .descriptorRelease _ _ => .next s
  | .sequencerLoad _ => .next s
  | .messagePush _ => .next s
  | .recvTake _ _ => .next s
  | .sendTransmit _ _ => .next s
  | .creditRefresh _ _ => .next s
  | .creditReceive _ _ _ => .next s
  | .channelResync _ _ _ _ => .next s
  | .tickArrival _ _ _ _ _ => .next s
  | .ticketSkip _ _ => .next s
  | .flitReceive _ _ _ => .next s
  | .flitResend _ => .next s
  | .flitForward _ => .next s
  | .portTraining _ _ _ _ => .next s
  | .portDown _ => .next s
  | .pathLost _ => .next s
  | .requestTimeout _ => .next s
  | .linkKeyUpdate _ => .next s
  | .slotImageLoad _ => .next s
  | .switchCombine _ _ _ => .next s
  | .sparseIngressCheck _ _ => .next s
  | .sparseMerge _ => .next s
  | .collectiveDelivery _ _ => .next s
  | .sparseStreamDelivery _ _ => .next s
  | .collectiveLinkLoss _ => .next s
  | .signatureComparison _ _ => .next s
  | .replicaGo _ => .next s
  | .replicaLost _ _ => .next s
  | .agreedValueArrival _ _ _ _ => .next s
  | .unitReadyReport _ => .next s
  | .unitMapOut _ => .next s
  | .powerUp => .next s
  | .go _ => .next s
  | .imageStart => .next s
  | .hostRegisterWrite _ _ => .next s
  | .setdev _ => .next s
  | .port _ => .next s
  | .route _ => .next s
  | .jobnew _ => .next s
  | .jobend _ => .next s
  | .map _ => .next s
  | .unmap _ => .next s
  | .queue _ => .next s
  | .enq _ => .next s
  | .preempt _ => .next s
  | .slot _ => .next s
  | .clear _ => .next s
  | .dmain _ => .next s
  | .dmaout _ => .next s
  | .pcap _ => .next s
  | .powerSample => .next s
  | .getVersion => .next s
  | .getCapabilities => .next s
  | .negotiateAlgorithms _ => .next s
  | .getDigests => .next s
  | .getCertificate _ _ _ => .next s
  | .challenge _ _ => .next s
  | .getMeasurements _ => .next s
  | .keyExchange _ => .next s
  | .finish _ => .next s
  | .keyUpdate => .next s
  | .endSession => .next s
  | .ideKm _ _ => .next s
  | .verificationFailure _ => .next s
  | .stagingWrite _ _ => .next s
  | .hostLinkDown => .next s
  | .nearStorePerformed _ => .next s
  | .pagerForward _ _ => .next s
  | .reservedOp _ => .next s

/-- The state that an outcome leaves; one that stops leaves the state as it was. -/
def outState (s : State) (o : Out State) : State :=
  match o with
  | .next t => t
  | _ => s

/-- A slot instruction as an operation of its bundle. -/
def asOp (p : Nat × Instr) : SlotOp := ⟨p.1, p.2, fun s => outState s (runInstr p.2 s)⟩

/-- Issue the bundle that the fetch has given, or trap (R42, R57). -/
def issueBytes (s : State) (bs : List Byte) : State :=
  let b := bundleOf bs
  if illegalMask b != 0 then takeTrap s .illegalBundle (illegalMask b) 0 0
  else issueOps ((slotInstrs b).map asOp) (fillLoopBuf s bs)

/-- The wait that is left of the bundle at NEXT (R434): over, the strand goes on at CPT or is done (R103); else it is tried again. -/
def pollRemain (s : State) : State :=
  let t := s.me
  if !remainOver s t then setMe s fun t => { t with triedAt := s.clock + 1 }
  else match t.remain with
    | .exit => after (setMe s fun t => { t with triedAt := s.clock + 1 }) 0 (.strandDone t.sid)
    | _ => setMe s fun t => { t with cdone := false, remain := .none, pc := t.cpt, st := .running, readyAt := s.clock + 1, notBefore := s.clock + 1 }

/-- The fetch takes a variable time of at least 1 ck (R90). -/
def fetchLater (s : State) : State := { setMe s (fun t => { t with notBefore := s.clock + 1 + Config.delay s.fresh }) with fresh := s.fresh + 1 }

/-- The strand at issue attempts its next bundle (R42, R92, R308). -/
def attempt (s : State) : State :=
  if s.me.mark.isSome then barrierTrap s s.me.sid
  else if s.me.cdone then pollRemain s
  else
    match fetchBundle s with
    | .fault k => fetchFault s k
    | .miss line => fetchLater (fillIcache s line)
    | .wait e => awaitAccess (fetchLater s) e (asidOf s s.me) 5 false (s.me.sid, s.me.crec) (.bundleIssue s.me.sid)
    | .bytes bs => issueBytes s bs

/-- BUNDLE_ISSUE (R42): a context that may issue attempts its next bundle. -/
def execBundleIssue (sid : Nat) (s : State) : Out State :=
  .next (
    match getStrand s sid with
    | none => s
    | some t => if mayIssue s t then attempt (focus { s with issue := none } sid) else s)

end Sys2Proof.Machine
end

