-- ==== Sys2Proof/Machine/Fabric.lean ====
section
/-! DEFINITION. The Etkel ports and the switch (R384 to R397, R430): flits received, resent and forwarded, what each packet asks of this device, training and loss of ports, lost paths and requests, slot images. -/

namespace Sys2Proof.Machine

/-! ## What another package asks of this one (log 13) -/

/-- The places of bytes to be written, each in this package or in a frame of another (R344). -/
def xlateBytes (s : State) (asid : Nat) : List (Word × Byte) → Except XFault (List (Option (BitVec 12) × Nat × Byte))
  | [] => .ok []
  | (va, b) :: r =>
    match translate s asid va .store with
    | .error k => .error (k, va)
    | .ok p => match xlateBytes s asid r with
      | .error e => .error e
      | .ok q => .ok ((p.dev, p.addr, b) :: q)

/-- Answer a request of another package. -/
def answer (s : State) (f : Flit) (b : Packet) : State := sendPacket s f.src 1 b

/-- Answer FAULT with this owner's generation; the descriptor follows when the rollback has begun (R214, R342, R345). -/
def answerFault (s : State) (f : Flit) (rid asid : Nat) (e : XFault) : State := answer s f (.faultAns rid e.1 e.2 (faultGen s asid e))

/-- A request that cannot be made now: it waits for a walk or for a frame elsewhere; an access of the device is held under its descriptor; any other is answered FAULT (R214, R339, R342, R433). -/
def waitOrFault (s : State) (f : Flit) (rid asid : Nat) (e : XFault) (acc : BitVec 4) (hold : Bool) (who : Nat × Word) : State :=
  if waits e.1 then awaitAccess s e asid acc hold who (.flitForward f)
  else if hold then postFor s e asid acc none who.2 (faultGen s asid e) none [.event (.flitForward f)] none
  else answerFault s f rid asid e

/-- Whether bytes of this package that an access reads stand in a mapped-out stack or hold an uncorrectable soft error (R282, R307). -/
def spoiledAt (s : State) (asid : Nat) (va : Word) (n : Nat) : Bool := match xlateAll s asid .load (pieces va n) with
  | .ok ps => ps.any fun p => p.1.dev.isNone && (stackGone s p.1.addr || hbmSpoiled s p.1.addr p.2)
  | .error _ => false

/-- Read for another package: the bytes, here or in a frame elsewhere, or a fault (R213, R214, R344). -/
def readFor (s : State) (f : Flit) (rid asid : Nat) (va : Word) (len : Nat) (acc : BitVec 4) (hold : Bool) (who : Nat × Word) : State :=
  match devRead s asid va len with
  | .error e => waitOrFault s f rid asid e acc hold who
  | .ok bs => answer s f (.readAns rid bs (spoiledAt s asid va len))

/-- Keep a translation for another package (R232). -/
def xlateFor (s : State) (f : Flit) (rid asid : Nat) (va : Word) (store : Bool) (acc : BitVec 4) (who : Nat × Word) : State :=
  match translate s asid va (if store then .store else .load) with
  | .error k => waitOrFault s f rid asid (k, va) acc false who
  | .ok _ =>
    let i := takeId s
    answer { i.2 with resvs := i.2.resvs ++ [{ id := i.1, rid := rid, dev := f.src, asid := asid, bytes := [], gen := (upto 8).map fun d => (d, (getDie s d).gen) }] } f (.reserveAns rid)

/-- The faults of the lines of a window, lowest address first of all (R337), and the lines that miss. -/
def lineFaults (s : State) (asid : Nat) (lines : List Word) : Option XFault × List Word :=
  lines.foldl (fun r l =>
    match translate s asid l .store with
    | .ok _ => r
    | .error k =>
      if k = kWalk then (r.1, r.2 ++ [l])
      else match r.1 with
        | some e => (if l.toNat < e.2.toNat then some (k, l) else r.1, r.2)
        | none => (some (k, l), r.2)) (none, [])

/-- Reserve a window's lines here for another package, once every line has its translation (R318, R339). -/
def reserveFor (s : State) (f : Flit) (rid asid : Nat) (bs : List (Word × Byte)) : State :=
  let x := lineFaults s asid ((bs.map fun b => lineOf b.1).dedup)
  if !x.2.isEmpty then x.2.foldl (fun s l => joinWalk s (farDie l) asid (farOff l) (.flitForward f)) s
  else
    match x.1, xlateBytes s asid bs with
    | some e, _ | none, .error e => answerFault s f rid asid e
    | none, .ok ps =>
      let i := takeId s
      answer { i.2 with resvs := i.2.resvs ++ [{ id := i.1, rid := rid, dev := f.src, asid := asid, bytes := ps, gen := (upto 8).map fun d => (d, (getDie s d).gen) }] } f (.reserveAns rid)

/-- The name under which an access to a frame of another package is asked for; it is the address of no line and of no page. -/
def frameKey (d : BitVec 12) (addr : Nat) : Word := (d ++ (0 : BitVec 52)) ||| BitVec.ofNat 64 (64 * addr + 32)

/-- What the package with a frame has answered to an event. -/
def frameAnswer (s : State) (ev : Instr) (key : Word) : Option (List Byte) := s.got.findSome? fun g => match g.what with
  | .line bs => if g.ev == ev && g.va == key then some bs else none
  | _ => none

/-- Ask the package with a frame, once; `retry` says whether the request is made again when its path is lost. -/
def askFrame (s : State) (ev : Instr) (asid : Nat) (d : BitVec 12) (key : Word) (retry : Bool) (mk : Nat → Packet) : State :=
  if s.reqs.any fun r => r.what == .got ev asid key then s
  else if pathLost s d then (if retry then later s ev else s)
  else sendReq s d (.got ev asid key) mk

/-- Perform bytes for another package: those for frames elsewhere go there first, line by line; with their answers the rest is written, and the request is answered (R230, R315, R318, R344). -/
def performAll (s : State) (f : Flit) (rid asid : Nat) (ps : List (Option (BitVec 12) × Nat × Byte)) (drop : Option Nat) : State :=
  let ev : Instr := .flitForward f
  let key (g : BitVec 12 × List (Nat × Byte)) : Word := frameKey g.1 ((g.2.head?.map (·.1)).getD 0)
  let left := (frameLines (ps.filterMap fun b => b.1.map fun d => (d, b.2.1, b.2.2))).filter fun g => (frameAnswer s ev (key g)).isNone
  if left.isEmpty then
    let s1 := ps.foldl (fun s b => if b.1.isSome then s else hbmWrite s (keyOf s asid) b.2.1 [b.2.2]) s
    answer { s1 with resvs := s1.resvs.filter fun x => some x.id != drop } f (.performAns rid)
  else left.foldl (fun s g => askFrame s ev asid g.1 (key g) true fun r => .frameWrite r asid g.2) s

/-- Perform for another package: a reserved window, or bytes that were not reserved (R318, R230, R433). -/
def performFor (s : State) (f : Flit) (rid asid : Nat) (resv : Option Nat) (bs : List (Word × Byte)) (acc : BitVec 4) (hold : Bool) (who : Nat × Word) : State :=
  match resv with
  | some r =>
    match s.resvs.find? (fun x => x.rid == r && x.dev == f.src) with
    | some x => performAll s f rid x.asid x.bytes (some x.id)
    | none => answer s f (.performAns rid)
  | none =>
    match xlateBytes s asid bs with
    | .error e => waitOrFault s f rid asid e acc hold who
    | .ok ps => performAll s f rid asid ps none

/-- The fault kind by which an owner answers an atomic whose place holds an uncorrectable soft error or has been mapped out (R282); no kind of R335 has it. -/
def kSoft : BitVec 4 := 13

/-- Place an atomic for another package, or hold it unplaced under a descriptor; its requester rolls back (R216, R218). -/
def atomicFor (s : State) (f : Flit) (rid asid : Nat) (va : Word) (w : W2) (op : AtomOp) (who : Nat × Word) : State :=
  match translate s asid va .store with
  | .error k =>
    if waits k then awaitAccess s (k, va) asid 2 false who (.flitForward f)
    else answerFault (postFor s (k, va) asid 2 none who.2 (faultGen s asid (k, va)) none [.event (.flitForward f)] (some (f.src, who.1))) f rid asid (k, va)
  | .ok p => match p.dev with
    | some d =>
      match frameAnswer s (.flitForward f) (frameKey d p.addr) with
      | some bs => answer s f (.atomicAns rid (wordAt bs 0))
      | none => askFrame s (.flitForward f) asid d (frameKey d p.addr) false fun r => .frameAtomic r asid p.addr w op
    | none =>
      if stackGone s p.addr || hbmSpoiled s p.addr (w2Bytes w) then answer s f (.faultAns rid kSoft va 0)
      else let r := applyAtom s asid p.addr w op; answer r.2 f (.atomicAns rid (BitVec.ofNat 64 r.1))

/-- Forget events that wait, as they are due, joined to a walk, or asked for elsewhere. -/
def dropEvents (s : State) (p : Instr → Bool) : State :=
  let keep (w : Walk) : Walk := { w with joined := w.joined.filter fun e => !p e }
  { s with
    timers := s.timers.filter fun t => !p t.ev
    reqs := s.reqs.filter fun r => match r.what with
      | .got e _ _ => !p e
      | _ => true
    got := s.got.filter fun g => !p g.ev
    dies := s.dies.map fun d => { d with walks := d.walks.map keep, walkQ := d.walkQ.map keep } }

/-- Another package releases what it has reserved or kept here, or has asked for (R318, R232). -/
def releaseFor (s : State) (f : Flit) (rid : Nat) : State :=
  let asked (e : Instr) : Bool := match e with
    | .flitForward g => g.src == f.src && (match g.body with
      | .reserve r _ _ _ _ | .xlate r _ _ _ _ _ => r == rid
      | _ => false)
    | _ => false
  dropEvents { s with resvs := s.resvs.filter fun r => !(r.rid == rid && r.dev == f.src) } asked

/-- A completion reaches the strand of this package that its record names (R34, R272). -/
def deliverFor (s : State) (f : Flit) (rid asid : Nat) (rec : Word) (tag : Tag) (x : Payload) : State :=
  match s.jobs.find? (fun j => j.asid == asid) with
  | none => answer s f (.performAns rid)
  | some j => match reportTo s asid j.jobn rec tag x (.flitForward f) with
    | (none, s1) => s1
    | (some s1, _) => answer s1 f (.performAns rid)

/-- A pager of another package has forwarded a fault of a strand of this one: its event, which stands at TREC, is entered into the job's trap queue (R343, R369). -/
def forwardHere (s : State) (f : Flit) (sid : Nat) : State :=
  match getStrand s sid with
  | none => s
  | some t =>
    match devRead s (asidOf s t) t.trec 64 with
    | .error e => holdEvent s e (asidOf s t) 6 none (.flitForward f)
    | .ok bs => postEvent s (jobNum s t) (trapPlace s t) [t.trec] bs

/-- A far copy's request has faulted at another package: the window that is open rolls back, one already closed ends with FAULT (R233, R337). -/
def faultCopyAt (s : State) (core id : Nat) (e : XFault) (gen : BitVec 32) : State :=
  match (getCore s core).copies.find? (fun c => c.id == id) with
  | none => s
  | some c =>
    match getStrand s c.sid with
    | none => s
    | some t =>
      if c.window = t.window && resident t then later (updCopy s core id fun x => { x with fault := some (e.1, e.2, gen) }) (.faultRollback c.sid e.1 e.2 0b10000000)
      else endCopy s core c .fault

/-- An event has an answer that it waited for. -/
def takeGot (s : State) (ev : Instr) (asid : Nat) (va : Word) (what : GotWhat) : State := runJoined { s with got := s.got ++ [⟨ev, asid, va, what⟩] } ev

/-- A FAULT answer from another package's owner (R214, R218, R337). -/
def faultAnswer (s : State) (rid : Nat) (e : XFault) (gen : BitVec 32) : State :=
  match takeReq s rid with
  | none => s
  | some (r, s1) =>
    match r.what with
    | .load id _ _ => match s1.farLoads.find? (fun l => l.id == id) with
      | some l => faultLoad s1 l e gen
      | none => s1
    | .reserve sid => reserveAnswered s1 sid [(1, e.1, e.2, gen)]
    | .atomic id =>
      match s.farAtoms.find? (fun a => a.id == id) with
      | none => s
      | some a =>
        if e.1 = kSoft then engineAtom s1 a
        -- the owner holds it: its answer still comes once it has been placed
        else if a.held.isSome then s
        else later { s with farAtoms := s.farAtoms.map fun a => if a.id = id then { a with held := some 0xFFFFFFFF, fkind := e.1 } else a } (.atomicFaultRollback id)
    | .copyRead core id _ | .copyWrite core id => faultCopyAt s1 core id e gen
    | .perform sid => performAnswered s1 sid
    | .got ev asid va => takeGot s1 ev asid va (.fault e.1 gen)
    | .tick _ _ _ | .message _ _ _ | .resync _ _ | .devWrite _ => s1

/-- An answer to a request of this package: its bytes, whether a soft error stands in them, and what an event that waits keeps of it. -/
def takeAnswer (s : State) (rid : Nat) (bs : List Byte) (bad : Bool) (what : Req → GotWhat) : State :=
  match takeReq s rid with
  | none => s
  | some (r, s1) =>
    match r.what with
    | .load id va _ => if bad then engineLoad s1 id else bindPart s1 id va bs
    | .reserve sid => reserveAnswered s1 sid []
    | .perform sid => performAnswered s1 sid
    | .atomic id => match s1.farAtoms.find? (fun a => a.id == id) with
      | some a => deliverNow (dropAtom s1 a) a.sid a.tag (.value ((atomResult a.w a.op (natAt bs 0 8)).setWidth 1024))
      | none => s1
    | .copyRead core id va =>
      match (if bad then (getCore s1 core).copies.find? (fun c => c.id == id) else none) with
      | some c => endCopy s1 core c .engine
      | none => copyAnswer s1 core id va bs false
    | .copyWrite core id => copyAnswer s1 core id 0 [] false
    | .got ev asid va => takeGot s1 ev asid va (what r)
    | .tick _ _ _ | .message _ _ _ | .resync _ _ | .devWrite _ => s1

/-- Consume a flit whose DST is this device (R392): what its packet asks is done here. -/
def consume (s : State) (f : Flit) : State :=
  match f.body with
  | .read rid asid va len acc hold who => readFor s f rid asid va len acc hold who
  | .xlate rid asid va store acc who => xlateFor s f rid asid va store acc who
  | .frameRead rid asid a len => answer s f (.readAns rid (hbmRead s (keyOf s asid) a len) (stackGone s a || hbmSpoiled s a len))
  | .frameWrite rid asid bs => answer (bs.foldl (fun s b => hbmWrite s (keyOf s asid) b.1 [b.2]) s) f (.performAns rid)
  | .frameAtomic rid asid a w op => let r := applyAtom s asid a w op; answer r.2 f (.atomicAns rid (BitVec.ofNat 64 r.1))
  | .readAns rid bs bad => takeAnswer s rid bs bad fun _ => .line bs
  | .reserve rid asid bs _ _ => reserveFor s f rid asid bs
  | .release rid => releaseFor s f rid
  | .reserveAns rid => takeAnswer s rid [] false fun r => .page rid r.dev
  | .perform rid asid resv bs acc hold who => performFor s f rid asid resv bs acc hold who
  | .deliver rid asid rec tag x => deliverFor s f rid asid rec tag x
  | .performAns rid => takeAnswer s rid [] false fun _ => .line []
  | .atomic rid asid va w op who => atomicFor s f rid asid va w op who
  | .post asid va kind acc gen who => postFor s (kind, va) asid acc none who.2 gen none [] (some (f.src, who.1))
  | .forward sid => forwardHere s f sid
  | .atomicAns rid old => takeAnswer s rid (wordBytes old) false fun _ => .line (wordBytes old)
  | .faultAns rid kind va gen => faultAnswer s rid (kind, va) gen
  | .message m => takeMsg s m
  | .pushed m => endSend s m (.value (BitVec.ofNat 1024 m.bytes.length))
  | .dropped m => endSend s m (.poison .link)
  | .credit dst job word depth bind => giveCredit s job dst word depth bind
  | .creditReq src dst job => match findRecv s job dst with
    | some (g, e) => if e.tkt then s else sendPacket (noteCredit s g.gid dst.ch) src.dev 3 (.credit src job (creditWord e) e.depth e.bind)
    | none => s
  | .resyncReq src dst job => match findRecv s job dst with
    | some (g, e) => sendPacket (noteCredit s g.gid dst.ch) src.dev 3 (.resyncAns src job (creditWord e) (expectOf e src) e.bind)
    | none => s
  | .resyncAns dst job word pushed bind => match findSend s job dst with
    | some (g, x) => later (putChan { s with reqs := s.reqs.filter fun r => r.what != .resync g.gid dst.ch } g.gid dst.ch (.send { x with peerBind := bind })) (.channelResync g.gid dst.ch word pushed)
    | none => s
  | .skip dst job n => skipTicket s job dst n
  | .tick src dst job sid tag => after s 0 (.tickArrival src dst job sid tag)
  | .ticket sid tag ch job src n => giveTicket s sid tag ch job src n
  | .call dst job n word depth bind => giveCall s job dst n word depth bind
  | .rebound dst job n => dropWaiting s job dst n
  | .contribution job group seq sparse rank terms fixed bs => takeContribution s job group seq sparse rank terms fixed bs (.flitForward f)
  | .linkControl => s

/-! ## Flits on a port (R389, R390, R430) -/

/-- Whether the receiver accepts a key epoch (R430). -/
def epochOk (x : Port) (e : Byte) : Bool := e == x.rxEpoch || e == x.rxEpoch + 1 || (x.rxOld && e == x.rxEpoch - 1)

/-- Flits up to ACK are acknowledged (R389, R390). -/
def ackFlits (x : Port) (a : BitVec 28) : Port :=
  let left := x.unacked.filter fun g => (a - g.lseq).msb
  { x with unacked := left, failures := if left.length < x.unacked.length then 0 else x.failures }

/-- Tell the peer what has been received: a link-control flit, which has no place in the LSEQ order (log 13). -/
def sendAck (s : State) (p : Nat) : State :=
  let x := getPort s p
  let g : Flit := { dst := x.peerDev, src := s.devnum, hops := 0, cls := 3, lseq := x.nextSeq - 1, ack := x.expect - 1, counter := x.counter, epoch := x.epoch, body := .linkControl }
  { updPort s p (fun x => { x with counter := x.counter + 1, rxOld := false }) with outFlits := s.outFlits ++ [(p, g)] }

/-- Take a flit that is in order: its acknowledgement, its epoch, and the next number. -/
def acceptFlit (x : Port) (f : Flit) : Port :=
  let y := ackFlits x f.ack
  let new : Bool := f.epoch == x.rxEpoch + 1
  { y with expect := x.expect + 1, discarding := false, rxCounter := f.counter + 1, rxEpoch := if new then f.epoch else x.rxEpoch, rxOld := if new then true else x.rxOld }

/-- Whether a flit is for this device (R392). -/
def forHere (s : State) (f : Flit) : Bool := s.numset && f.dst == s.devnum

/-- The send end of this package for which a credit word comes: gang and channel. -/
def creditEnd (s : State) (f : Flit) : Option (Nat × BitVec 6) := match f.body with
  | .credit dst job _ _ _ => if forHere s f then (findSend s job dst).map fun g => (g.1.gid, dst.ch) else none
  | _ => none

/-- A flit fails its check: it is discarded with all after it until the resend (R390); the send end of a credit word resynchronises too (R296). -/
def discardFlit (s : State) (port : Nat) (f : Flit) : State :=
  let s1 := sendAck (updPort s port fun x => { x with discarding := true }) port
  match creditEnd s f with
  | some e => startResync s1 e.1 e.2
  | none => s1

/-- FLIT_RECEIVE (R390): the flits of a port are taken in LSEQ order; one that fails its check or its epoch is discarded, with all after it until the resend. -/
def execFlitReceive (port : Nat) (f : Flit) (good : Bool) (s : State) : Out State :=
  .next (
    let x := getPort s port
    if x.st != .up then s
    else if !good || !epochOk x f.epoch then discardFlit s port f
    else if f.body == .linkControl then drainFlits (updPort s port fun x => ackFlits x f.ack)
    else if f.lseq != x.expect then s
    else
      let s1 := drainFlits (sendAck (updPort s port fun x => acceptFlit x f) port)
      if forHere s f then consume s1 f
      else if s.numset then after s1 0 (.flitForward f)
      else s1)

/-- FLIT_FORWARD (R394): out by the route-table entry of DST, dropped after 63 switches; one for this device is consumed. -/
def execFlitForward (f : Flit) (s : State) : Out State :=
  .next (
    if forHere s f then consume s f
    else if !s.numset || f.hops = 63 then s
    else sendFlit s f)

/-! ## Ports (R388, R391) -/

/-- Set or clear a bit of READYMAP (R26). -/
def setReady (s : State) (b : Nat) (on : Bool) : State :=
  { s with ready := if on then s.ready ||| BitVec.ofNat 49 (2 ^ b) else s.ready &&& ~~~(BitVec.ofNat 49 (2 ^ b)) }

/-- Add to a 16-bit count that saturates (R391). -/
def satAdd (c : BitVec 16) (n : Nat) : BitVec 16 := BitVec.ofNat 16 (min 65535 (c.toNat + n))

/-- Lanes in use after training (R391). -/
def lanesUp (good : Byte) : Nat :=
  let n := popcount 8 good.toNat
  if n = 8 then 8 else if 4 ≤ n then 4 else if 2 ≤ n then 2 else 0

/-- The code of a port's state (R391). -/
def PortSt.code : PortSt → Nat
  | .down => 0
  | .training => 1
  | .up => 2

/-- The port status word (R391), as the host reads it through the die controller; reading changes nothing. -/
def portStatus (x : Port) : Word :=
  packWord [(x.st.code, 0), (if x.st == .up then lanesUp x.lanes else 0, 2), (x.lanes.toNat, 6), (x.peerDev.toNat, 14), (x.peerPort.toNat, 26), (x.retry.toNat, 32), (x.downs.toNat, 48)]

/-- The devices that something of this package still waits for. -/
def devsInUse (s : State) : List (BitVec 12) :=
  (s.reqs.map (·.dev) ++ s.resvs.map (·.dev) ++ s.colls.flatMap (fun c => c.devs.filter fun d => d != s.devnum) ++ s.waitFlits.map (·.dst)).dedup

/-- Every device in use whose path is lost is declared so in this ck (R396). -/
def declareLost (s : State) : State := (devsInUse s).foldl (fun s d => if pathLost s d then after s 0 (.pathLost d) else s) s

/-- The send ends with a message among flits: gang and channel. -/
def carriedEnds (s : State) (fs : List Flit) : List (Nat × BitVec 6) :=
  (fs.filterMap fun f => match f.body with
    | .message m => if ownDev s m.src.dev then (findSend s m.job m.src).map fun g => (g.1.gid, m.src.ch) else none
    | _ => none).dedup

/-- Whether a request waits until its owner can make it, however long that takes: an access of the device or of a waiting event, which is made again when its path returns (R433). -/
def patient : ReqWhat → Bool
  | .got _ _ _ | .devWrite _ => true
  | _ => false

/-- Whether an event only passes on what another package has asked once: its asker sees the loss (R396). -/
def asksOnce : Instr → Bool
  | .flitForward f => match f.body with
    | .atomic _ _ _ _ _ _ => true
    | _ => false
  | _ => false

/-- A patient request whose path has changed or is lost is made again. -/
def askAgain (s : State) (r : Req) : State :=
  match r.what with
  | .got ev _ _ => if asksOnce ev then s else poll s ev
  | .devWrite p => { s with devOut := (r.dev, p) :: s.devOut }
  | _ => s

/-- Make the patient requests again that satisfy `p`. -/
def askAgainAll (s : State) (p : Req → Bool) : State :=
  let q (r : Req) : Bool := patient r.what && p r
  (s.reqs.filter q).reverse.foldl askAgain { s with reqs := s.reqs.filter fun r => !q r }

/-- A port goes DOWN, and trains again if it is enabled (R390, R391, R395, R397). A reservation made over it is performed within 1 ms (R396). -/
def downPort (s : State) (p : Nat) : State :=
  let x := getPort s p
  if x.st == .down then s
  else
    let s1 := updPort s p fun x => { x with st := if x.enabled then .training else .down, downs := satAdd x.downs 1, unacked := [], discarding := false, failures := 0 }
    let s2 := { setReady s1 (32 + p) false with hostEvents := s.hostEvents ++ (p, .down) :: if x.enabled then [(p, .training)] else [] }
    let s3 := (carriedEnds s x.unacked).foldl (fun s e => startResync s e.1 e.2) s2
    let used (d : BitVec 12) : Bool := bitsOf (routeOf s d).toNat 0 5 == p || bitsOf (routeOf s d).toNat 5 5 == p
    let s4 := (s.resvs.filter fun r => used r.dev).foldl (fun s r => after s requestLimit (.performTimeout r.id)) s3
    drainFlits (declareLost (askAgainAll s4 fun r => used r.dev))

/-- FLIT_RESEND (R390): everything from the first flit not acknowledged is sent again; the ninth failure takes the port DOWN. -/
def execFlitResend (port : Nat) (s : State) : Out State :=
  .next (
    let x := getPort s port
    if x.st != .up || x.unacked.isEmpty then s
    else if 8 ≤ x.failures then downPort s port
    else
      let again := x.unacked.zipIdx.map fun g => { g.1 with ack := x.expect - 1, counter := x.counter + BitVec.ofNat 64 g.2, epoch := x.epoch }
      let s1 := updPort s port fun x => { x with failures := x.failures + 1, retry := satAdd x.retry again.length, counter := x.counter + BitVec.ofNat 64 again.length, unacked := again, rxOld := false }
      { s1 with outFlits := s1.outFlits ++ again.map fun g => (port, g) })

/-- PORT_DOWN (R391): loss of lock, a resend failure, or the peer DOWN. -/
def execPortDown (port : Nat) (s : State) : Out State := .next (if (getPort s port).st == .up then downPort s port else s)

/-- Whether a port can work at all: its I/O die has not been mapped out (R431). -/
def portThere (s : State) (p : Nat) : Bool := decide (p < 16) && !s.mapped.contains (.port p) && !s.mapped.contains (.ioDie (p / 8))

/-- PORT_TRAINING (R391, R430): the lanes that pass are known, the link keys are new, and the port comes UP on 8, 4 or 2 lanes. -/
def execPortTraining (port : Nat) (good : BitVec 8) (peerDev : BitVec 12) (peerPort : BitVec 4) (s : State) : Out State :=
  .next (
    let x := getPort s port
    if x.st != .training || !portThere s port then s
    else if lanesUp good = 0 then updPort s port fun x => { x with lanes := good }
    else
      let s1 := updPort s port fun x =>
        { x with st := .up, lanes := good, peerDev := peerDev, peerPort := peerPort, nextSeq := 0, unacked := [], expect := 0, discarding := false, failures := 0
                 counter := 0, epoch := 0, rxCounter := 0, rxEpoch := 0, rxOld := false }
      drainFlits { setReady s1 (32 + port) true with hostEvents := s.hostEvents ++ [(port, .up)] })

/-- LINK_KEY_UPDATE (R430): the port's sender moves to the next key epoch. -/
def execLinkKeyUpdate (port : Nat) (s : State) : Out State := .next (if (getPort s port).st == .up then updPort s port nextEpoch else s)

/-! ## Lost paths and requests (R396) -/

/-- What becomes of a request that is lost (R396, R397). -/
def loseReq (s : State) (r : Req) : State :=
  match r.what with
  | .load id _ _ => linkLoad s id
  | .reserve sid => reserveLost s sid
  | .perform sid => performAnswered s sid
  | .atomic id => match s.farAtoms.find? (fun a => a.id == id) with
    | some a => linkAtom s a
    | none => s
  | .copyRead core id _ | .copyWrite core id => copyAnswer s core id 0 [] true
  | .tick sid tag _ => deliverNow s sid tag (.poison .link)
  | .message gid c _ => startResync s gid c
  | .resync gid c => match sendEnd s gid c with
    | some (g, x) => if x.resync then askResync s g c x else s
    | none => s
  | .got _ _ _ | .devWrite _ => askAgain s r

/-- A SEND whose message is lost with its path is poisoned LINK, and its ticket is skipped (R282, R298, R396). -/
def loseMessage (s : State) (r : Req) : State :=
  match r.what with
  | .message gid c n => match sendEnd s gid c with
    | some (g, x) => (x.ops.filter fun o => o.left && o.count == n).foldl (fun s o => poisonSend s g.job x.peer o .link)
        (putChan s gid c (.send { x with ops := x.ops.filter fun o => !(o.left && o.count == n) }))
    | none => s
  | _ => s

/-- Whether a request stays although its path is lost: the perform phase waits its 1 ms (R396), a resynchronisation is asked for again. -/
def outlives : ReqWhat → Bool
  | .perform _ | .resync _ _ => true
  | _ => false

/-- PATH_LOST (R396): every request outstanding to a device that no UP port leads to is answered LINK in this ck. -/
def execPathLost (dev : BitVec 12) (s : State) : Out State :=
  .next (
    if !pathLost s dev then s
    else
      let gone := s.reqs.filter fun r => r.dev == dev && !outlives r.what
      let s1 : State := { s with reqs := s.reqs.filter (fun r => !(r.dev == dev && !outlives r.what)), waitFlits := s.waitFlits.filter fun f => f.dst != dev }
      let s2 := gone.foldl (fun s r => loseReq (loseMessage s r) r) s1
      let s3 := (s.colls.filter fun c => c.devs.contains dev).foldl (fun s c => after s 0 (.collectiveLinkLoss c.id)) s2
      (s.resvs.filter fun r => r.dev == dev).foldl (fun s r => after s requestLimit (.performTimeout r.id)) s3)

/-- Whether a request is an atomic that its owner has answered FAULT and holds. -/
def heldAway (s : State) (r : Req) : Bool := match r.what with
  | .atomic id => s.farAtoms.any fun a => a.id == id && a.held.isSome
  | _ => false

/-- REQUEST_TIMEOUT (R396): an answer has not come within 1 ms. -/
def execRequestTimeout (rid : Nat) (s : State) : Out State :=
  .next (
    match takeReq s rid with
    | none => s
    | some (r, s1) => if heldAway s r || patient r.what || decide (s.clock < r.since + requestLimit) then s else loseReq s1 r)

/-! ## Slot tables (R384 to R387) -/

/-- Whether an entry of a router's slot table is malformed (R385); `mesh` says which kind of router. -/
def slotMalformed (mesh : Bool) (e : Nat) : Bool :=
  let outs := if mesh then 5 else 8
  let ins := (upto outs).filterMap fun o => if bit e (4 * o + 3) then some (bitsOf e (4 * o) 3) else none
  (mesh && e >>> 20 != 0) || (mesh && ins.any fun i => decide (4 < i)) || ins.dedup.length != ins.length

/-- Bytes of a slot image (R387). -/
def slotImageBytes : Nat := 0x30400

/-- The tables of an image: 64 mesh routers for each of three clusters, then the die router (R387). -/
def slotTables (bs : List Byte) : List (List Byte) := (upto 193).map fun k => (bs.drop (1024 * k)).take 1024

/-- Whether an image holds a malformed entry. -/
def imageMalformed (ts : List (List Byte)) : Bool := ts.zipIdx.any fun t => (upto 256).any fun n => slotMalformed (decide (t.2 < 192)) (natAt t.1 (4 * n) 4)

/-- A slot table with every RSV bit cleared (R387). -/
def clearRsv (t : List Byte) : List Byte := t.map (· &&& 0x77)

/-- SLOT_IMAGE_LOAD (R387): in a ck whose CLOCK is a multiple of 256 the die's routers take the scheduled job's image. -/
def execSlotImageLoad (die : Nat) (s : State) : Out State :=
  .next (
    let d := getDie s die
    let done (t : List (List Byte)) : State := updDie s die fun d => { d with slotJob := d.slotWant, slotWant := none, slotTable := t }
    match d.slotWant with
    | none => s
    | some jn =>
      match getJob s jn with
      | none => updDie s die fun d => { d with slotWant := none }
      | some j =>
        if s.clock % 256 ≠ 0 then addTimer s ((s.clock / 256 + 1) * 256) (.slotImageLoad die)
        else if j.slotImage = 0 then done (d.slotTable.map clearRsv)
        else
          match devRead s j.asid j.slotImage slotImageBytes with
          | .error e => holdEvent s e j.asid 6 none (.slotImageLoad die)
          | .ok bs => if imageMalformed (slotTables bs) then updDie s die fun d => { d with slotWant := none } else done (slotTables bs))

end Sys2Proof.Machine
end

