-- ==== Sys2Proof/Machine/Place.lean ====
section
/-! DEFINITION. Placement: free contexts, near memory and arrays (R257), the save pool (R258, R378), the binding of a new gang (R258) and the restoring of a saved one (R262, R379). -/

namespace Sys2Proof.Machine

/-! ## What is free -/

/-- Offer placement on a die in this ck. -/
def kickDispatch (s : State) (die : Nat) : State :=
  if s.timers.any (fun t => t.ev == .dispatch die && decide (t.due ≤ s.clock)) then s else after s 0 (.dispatch die)

/-- Offer placement on every die. -/
def kickDies (s : State) : State := (upto 8).foldl kickDispatch s

/-- The lowest free context of a core; a held context is not free (R371). -/
def freeCtx (s : State) (core : Nat) : Option (BitVec 2) :=
  ((upto 4).find? fun k => !(allStrands s).any fun t => t.loc == some (core, BitVec.ofNat 2 k)).map (BitVec.ofNat 2)

/-- The parts of a core's slice that gangs hold: base and bytes. -/
def sliceUsed (s : State) (core : Nat) : List (Nat × Nat) :=
  s.gangs.flatMap fun g => (g.alloc.filter fun a => a.1 == core).map fun a => (a.2, nearLimit g)

/-- Whether a range is clear of the parts in use. -/
def clearOf (used : List (Nat × Nat)) (lo n : Nat) : Bool := used.all fun u => decide (lo + n ≤ u.1) || decide (u.1 + u.2 ≤ lo)

/-- The lowest base at which `n` units of 4 KiB are free in a core's slice (R257). -/
def freeBase (s : State) (core n : Nat) : Option Nat :=
  let used := sliceUsed s core
  (sortBy (fun a b => decide (a ≤ b)) (0 :: used.map fun u => u.1 + u.2)).find? fun b => decide (b + 4096 * n ≤ 2 ^ 20) && clearOf used b (4096 * n)

/-- The four conditions of R257 for strands at positions of a cluster, and what they get: core, context, base. -/
def fits (s : State) (die cl nearsz : Nat) (arrs : List Nat) (ps : List (Nat × Nat)) : Option (List (Nat × BitVec 2 × Nat)) :=
  let one (p : (Nat × Nat) × Nat) : Option (Nat × BitVec 2 × Nat) :=
    let core := coreAt die cl p.1
    if holeAt s die cl p.1 || coreGone s core || (arrs.contains p.2 && (getArray s core).holder.isSome) then none
    else
      match freeCtx s core, freeBase s core nearsz with
      | some c, some b => some (core, c, b)
      | _, _ => none
  let got := ps.zipIdx.map one
  if got.all Option.isSome then some (got.filterMap id) else none

/-- The first candidate of R257 that fits: its cluster and what each strand gets. -/
def findPlace (s : State) (die : Nat) (clusters : List Nat) (w h n nearsz : Nat) (arrs : List Nat) : Option (Nat × List (Nat × BitVec 2 × Nat)) :=
  (clusters.filter fun c => clusterReady s die c && !clusterOut s die c).findSome? fun c =>
    ((candidatesIn w h n).findSome? (fits s die c nearsz arrs)).map fun x => (c, x)

/-! ## The save pool (R258, R378) -/

/-- Bytes of a gang in the save pool: frames, records, and its save area with room for an array checkpoint of every strand; a whole number of frames, since the pool's address is a multiple of 64 KiB and FRAME of 8 KiB (R28, R29, R428). -/
def poolBytes (n nearsz : Nat) : Nat := ceilDiv (n * 8192 + n * 128 + 0x2000 + 0xC000 * n + n * nearsz * 4096) 8192 * 8192

/-- A free part of a job's save pool. -/
def poolFit (j : Job) (size : Nat) : Option Nat :=
  (sortBy (fun a b => decide (a ≤ b)) (0 :: j.pool.map fun u => u.1 + u.2)).find? fun b => decide (b + size ≤ j.saveSize) && clearOf j.pool b size

/-- Addresses in a gang's part of the pool: frame, continuation record and trap record of strand `i`, and the save area. -/
def poolFrame (base : Word) (i : Nat) : Word := base + BitVec.ofNat 64 (8192 * i)
/-- Continuation record of strand `i`. -/
def poolCrec (base : Word) (n i : Nat) : Word := base + BitVec.ofNat 64 (8192 * n + 64 * i)
/-- Trap record of strand `i`. -/
def poolTrec (base : Word) (n i : Nat) : Word := base + BitVec.ofNat 64 (8192 * n + 64 * n + 64 * i)
/-- Gang save area. -/
def poolSave (base : Word) (n : Nat) : Word := base + BitVec.ofNat 64 (8192 * n + 128 * n)

/-! ## Binding a new gang (R258) -/

/-- A core takes a strand of a job: lines of another job leave its instruction cache (R308). -/
def coreForJob (s : State) (core job : Nat) : State :=
  updCore s core fun c => if c.icJob == some job then c else { c with icache := [], icJob := some job }

/-- The ck before a strand that is placed now can issue (R265). -/
def firstIssue (s : State) (k : Nat) : Nat := s.clock + 1 + Config.delay (s.fresh + k) % 128

/-- Strand `i` of a new gang at its start (R18, R258). -/
def newStrand (s : State) (gid sid0 n i : Nat) (task : Task) (base : Word) (l : Nat × BitVec 2 × Nat) : Strand :=
  { Strand.none with
    sid := sid0 + i, gid := gid, lidx := BitVec.ofNat 6 i, loc := some (l.1, l.2.1), st := .running, pc := task.entry, npc := task.entry, cpt := task.entry
    frame := poolFrame base i, crec := poolCrec base n i, trec := poolTrec base n i, readyAt := s.clock + 1, notBefore := firstIssue s i }

/-- A gang as Gust binds it (R258). -/
def newGang (gid rec_ : Nat × Word) (task : Task) (job die queue cl : Nat) (det : Bool) (ls : List (Nat × BitVec 2 × Nat)) (base : Word) (seed : Word)
    (rset : Option Nat) (ridx : BitVec 2) (sids : List Nat) : Gang :=
  { gid := gid.1, record := rec_.2, task := task, job := job, die := die, queue := queue, det := det, cluster := cl, strands := sids
    alloc := ls.map fun l => (l.1, l.2.2), save := poolSave base task.nstr, saveSize := poolBytes task.nstr task.nearsz
    barriers := Vector.replicate 16 (Barrier.start task.nstr), unsaved := [], staleTicks := [], chans := Vector.replicate 64 .unbound, recvs := [], dyn := none, seed := seed
    rset := rset, ridx := ridx, repl := task.repl, saved := none, poison := none, completed := false, reported := false, succDone := 0 }

/-- The task seed (R79). -/
def taskSeed (s : State) (det : Bool) (task : Task) : Word :=
  BitVec.ofNat 64 (mix64 (if det then task.taskno.toNat else task.taskno.toNat ^^^ s.clock))

/-- Bind one gang: its strands are RUNNING and their continuation records written. A fault binds nothing (R258, R433). -/
def bindGang (s : State) (j : Job) (rec_ : Word) (task : Task) (die queue cl : Nat) (det : Bool) (seed : Word) (rset : Option Nat) (ridx : BitVec 2)
    (ls : List (Nat × BitVec 2 × Nat)) : Except (Option XFault) State :=
  match poolFit j (poolBytes task.nstr task.nearsz) with
  | none => .error none
  | some off =>
    let base := j.save + BitVec.ofNat 64 off
    let gid := s.nextId
    let ts := ls.zipIdx.map fun l => newStrand s gid (gid + 1) task.nstr l.2 task base l.1
    let g := newGang (gid, 0) (0, rec_) task j.jobn die queue cl det ls base seed rset ridx (ts.map (·.sid))
    let s1 : State := { s with nextId := gid + 1 + task.nstr, fresh := s.fresh + task.nstr, gangs := s.gangs ++ [g], pool := s.pool ++ ts }
    let s2 := updJob s1 j.jobn fun j => { j with pool := j.pool ++ [(off, poolBytes task.nstr task.nearsz)] }
    match devWriteAll s2 j.asid (ts.map fun t => (t.crec, crecBytes t (identOf s2 t))) with
    | .error e => .error (some e)
    | .ok s3 => .ok (ls.foldl (fun s l => coreForJob s l.1 j.jobn) s3)

/-! ## Restoring a saved gang (R262, R379) -/

/-- A strand as a context picks it up (R259): READY runs, EVICTED is parked again, FAULTED is held. -/
def pickedUp (s : State) (k : Nat) (t : Strand) : Strand :=
  match t.st with
  | .ready => { t with link := 0, st := if t.cdone then .parked else .running, readyAt := s.clock + 1, notBefore := firstIssue s k, parkedAt := s.clock, parkid := if t.cdone then none else t.parkid
                       waitset := if t.cdone then none else t.waitset, halted := false }
  | .evicted => { t with st := .parked, parkedAt := s.clock, halted := false }
  | _ => { t with halted := false }

/-- Restore an array checkpoint into the array of a core, which no context can claim first (R198). -/
def restoreArray (s : State) (core sid job : Nat) (a : Array) : State :=
  let s1 := updArray s core fun b =>
    { b with
      holder := some sid, lastJob := some job, cfg := a.cfg, nextCfg := a.nextCfg, releasing := a.releasing, cells := a.cells, progs := a.progs, images := a.images
      swaps := a.swaps, current := a.current, curDone := a.curDone, curDonePrev := a.curDone, pipe := [], building := [], operands := none, outs := a.outs
      cmds := a.cmds.map fun c => { c with beat0 := s.clock + 8 } }
  let s2 := if a.nextCfg.isEmpty then s1 else after s1 0 (.arrayConfigApply core)
  let s3 := if a.releasing.isSome then after s2 0 (.arrayRelease core) else s2
  if a.cmds.isEmpty then s3 else kickArray s3 core

/-- Read the near saves of a gang into its new slices. -/
def restoreNear (s : State) (g : Gang) : List (Nat × BitVec 2 × Nat) → Nat → Except XFault State
  | [], _ => .ok s
  | l :: ls, i =>
    match (if g.task.nearsz = 0 then .ok [] else devRead s (gangAsid s g) (saveNear g i 0) (nearLimit g)) with
    | .error e => .error e
    | .ok bs => restoreNear (nearWrite s g.job (nearAddr l.1 l.2.2) bs) g ls (i + 1)

/-- Read the frame and record of each strand of a gang. -/
def restoreStrands (s : State) (k : Nat) : List (Strand × (Nat × BitVec 2 × Nat)) → Except XFault (List Strand)
  | [] => .ok []
  | p :: ps =>
    match restoreStrands s (k + 1) ps with
    | .error e => .error e
    | .ok rest =>
      if p.1.st == .done then .ok (p.1 :: rest)
      else
        match readRecords s p.1 with
        | .error e => .error e
        | .ok t => .ok ({ pickedUp s k t with loc := some (p.2.1, p.2.2.1) } :: rest)

/-- A fault of one of Gust's accesses, with its access code: 6 for a read, 7 for a write (R342). -/
abbrev GustFault := BitVec 4 × XFault

/-- Place a saved gang again (R379): records, near memory and arrays come back before any strand issues. The records are written last: ARR says who then holds an array (R28). -/
def restoreGang (s : State) (g : Gang) (cl : Nat) (ls : List (Nat × BitVec 2 × Nat)) : Except GustFault State :=
  let ts := g.strands.filterMap (getStrand s)
  match restoreStrands s 0 (ts.zip ls) with
  | .error e => .error (6, e)
  | .ok us =>
    match restoreNear s g ls 0 with
    | .error e => .error (6, e)
    | .ok s1 =>
      let s2 := us.foldl (fun s u => updStrand s u.sid fun _ => u) { s1 with fresh := s1.fresh + us.length }
      let s3 := updGang s2 g.gid fun g => { g with cluster := cl, alloc := ls.map fun l => (l.1, l.2.2), saved := none }
      let s4 := ls.foldl (fun s l => coreForJob s l.1 g.job) s3
      let arrays := match g.saved with
        | some v => v.arrays
        | none => []
      let s5 := arrays.foldl (fun s a => match us[a.1]?, ls[a.1]? with
        | some u, some l => restoreArray s l.1 u.sid g.job a.2
        | _, _ => s) s4
      match devWriteAll s5 (gangAsid s g) ((us.filter fun u => u.st != .done).map fun u => (u.crec, crecBytes u (identOf s5 u))) with
      | .error e => .error (7, e)
      | .ok s6 => .ok s6

/-- The logical indices of a saved gang's strands that hold a checkpoint. -/
def arrIdx (g : Gang) : List Nat := match g.saved with
  | some v => v.arrays.map (·.1)
  | none => []

end Sys2Proof.Machine
end

