-- ==== Sys2Proof/Machine/Save.lean ====
section
/-! DEFINITION. Saving a gang to memory (R198, R285, R377, R378): when it can be saved, what its save area holds, the states its strands take, and eviction of a free strand (R261, R284). -/

namespace Sys2Proof.Machine

/-! ## The save area (R378, R198) -/

/-- The array checkpoint of R198, as offsets and bytes; its reserved bytes are zero (R9). Queued commands and images beyond 64 stay with the device. -/
def checkpointBytes (a : Array) : List (Nat × List Byte) :=
  let cells := a.cells.toList
  let k := match a.cmds.find? (fun c => c.started) with
    | some c => c.entered
    | none => 0
  let head :=
    cells.flatMap (fun c => leBytes 4 c.l1.toNat) ++ cells.flatMap (fun c => leBytes 8 c.l0.toNat) ++ cells.flatMap (fun c => leBytes 8 c.shadow.toNat)
    ++ cells.map (fun c => c.l0.extractLsb' 64 8) ++ cells.map (fun c => c.shadow.extractLsb' 64 8)
    ++ a.progs.toList.flatMap (fun p => leBytes 16 p.image.toNat ++ leBytes 4 p.rows.toNat ++ leBytes 4 p.cols.toNat)
    ++ wordBytes a.cfg ++ wordBytes (packWord [(k % 2 ^ 32, 0), (min a.images.length 64, 32)])
  [(0, head), (0x5870, List.replicate 528 0), (0x5C80, List.replicate 9088 0), (0x8000, (a.images.take 64).flatMap fun i => leBytes 256 i.toNat)]

/-- The header, barriers and sequencer of a gang save area, with the reserved bytes to 0x067F, which are zero (R9, R378). -/
def saveHeader (g : Gang) (reason : BitVec 2) (arrays : Nat) : List Byte :=
  wordBytes (packWord [(g.task.taskno.toNat, 0), (g.job, 32), ((g.task.nstr - 1) % 64, 48), (reason.toNat, 56)])
    ++ wordBytes (packWord [(0x2000 + 0xC000 * arrays, 0), (arrays, 32)]) ++ List.replicate 48 0
    ++ g.barriers.toList.flatMap barrierBytes
    ++ (match g.dyn with
      | some d => wordBytes d.addr ++ wordBytes (BitVec.ofNat 64 d.next) ++ wordBytes (BitVec.ofNat 64 d.total) ++ List.replicate 40 0
      | none => List.replicate 64 0)
    ++ List.replicate 1024 0

/-- The strands of a gang that hold an array: logical index and core. -/
def heldArrays (s : State) (g : Gang) : List (Nat × Nat) :=
  ((g.strands.filterMap (getStrand s)).filter fun t => t.loc.isSome && (getArray s (coreOf t)).holder == some t.sid).map fun t => (t.lidx.toNat, coreOf t)

/-- Every range that a gang's save area receives (R378). -/
def areaWrites (s : State) (g : Gang) (reason : BitVec 2) : List (Word × List Byte) :=
  let as := heldArrays s g
  let at_ (n : Nat) : Word := g.save + BitVec.ofNat 64 n
  (at_ 0, saveHeader g reason as.length) ::
    (as.zipIdx.flatMap fun a => (checkpointBytes (getArray s a.1.2)).map fun r => (at_ (0x2000 + 0xC000 * a.2 + r.1), r.2))
    ++ (upto g.task.nstr).map fun i => (at_ (0x2000 + 0xC000 * as.length + i * nearLimit g), nearBytes s g.job (slicePhys g i 0) (nearLimit g))

/-! ## When a gang can be saved -/

/-- The devices that a commit point needs: owners and frames of its lines, owners of its copies' pages and of a launched record (R396). -/
def commitDevs (s : State) (t : Strand) (c : Closing) : List (BitVec 12) :=
  let asid := asidOf s t
  let frames := t.gated.filterMap fun l => match translateNow s asid l.line .store with
    | .ok p => if isRemote s l.line then none else p.dev
    | .error _ => none
  let copies := postCopies c.post ++ (copiesOpen s t).map (·.2)
  let pages := copies.flatMap fun c => sidePages c.src (srcRanges c) ++ sidePages c.dst (dstRanges c)
  let records := match closingLaunch c with
    | some l => [l.2.2]
    | none => []
  (remoteLines s t.gated).map (·.1) ++ frames ++ ((pages ++ records).filter (isRemote s)).map farDev

/-- Whether a lost path holds the tentative phase of a commit point, which counts as a fault (R319, R396). -/
def pathHolds (s : State) (t : Strand) : Bool := match t.closing with
  | some c => c.phase == .tentative && (commitDevs s t c).any (pathLost s)
  | none => false

/-- Whether a strand is outside a commit point; a tentative phase that a lost path holds counts as faulted (R319, R396). -/
def outsideCommit (s : State) (t : Strand) : Bool := t.closing.isNone || pathHolds s t

/-- Whether the array of a core has completed every step that it has entered (R198). -/
def arrayQuiet (s : State) (core : Nat) : Bool :=
  let a := getArray s core
  a.pipe.all Option.isNone && decide (a.freeAt ≤ s.clock) &&
  a.cmds.all fun c => !c.started || (isStream c.kind && c.complete == c.entered && decide (c.entered < c.b.toNat % 2 ^ 32))

/-- Whether a strand can be saved now: halted outside a commit point, with no command on its way to an engine, and no trap or verdict (R319, R365, R377). Its copies and channel operations run on (R246). -/
def strandQuiet (s : State) (t : Strand) : Bool :=
  t.st == .done || (outsideCommit s t && t.heldTrap.isNone && t.sig.isNone && t.leaving.isEmpty)

/-- Whether every strand and array of a gang can be saved now. -/
def gangQuiet (s : State) (g : Gang) : Bool :=
  (g.strands.filterMap (getStrand s)).all (strandQuiet s) && (heldArrays s g).all fun a => arrayQuiet s a.2

/-! ## States after a save (R259, R285) -/

/-- What the bundle at NEXT would meet in parking order (R276, R285); none when it would not park. -/
def parksAt (s : State) (t : Strand) : Option Stop :=
  let s1 := focus { updStrand s t.sid (fun _ => t) with issue := none } t.sid
  let bytes := match fetchBy translateNow s1 with
    | .bytes bs => some bs
    | .miss line => some ((line.drop (t.pc.toNat % 64)).take 32)
    | .wait _ | .fault _ => none
  match bytes with
  | none => none
  | some bs =>
    let b := bundleOf bs
    let is := slotInstrs b
    if illegalMask b != 0 then none
    else
      match (bodyTrap s1 is).or (is.findSome? fun p => examine s1 p.1 (.p (guardOf p.2))) with
      | some x => some x
      | none => (is.filter fun p => !suppressedBy s1 p.2).findSome? (slotTurn s1)

/-- The state a strand takes when its gang is saved (R259, R285). -/
def savedStrand (s : State) (t : Strand) : Strand :=
  let ready := { t with st := .ready, parkid := none, waitset := none, choice := none, asleep := false, readyAt := s.clock + 1 }
  let evicted (r : Option RegId) (w : Option (RFile × Word)) : Strand := { t with st := .evicted, parkid := r, waitset := w, choice := none }
  match t.st with
  | .running => ready
  | .parked =>
    if t.cdone then (if remainOver s t then ready else evicted none none)
    else
      match parksAt s t with
      | some (.park r) => evicted (some r) none
      | some (.parkAny f m) => evicted none (some (f, m))
      | _ => ready
  | _ => t

/-- A strand whose window has been committed, as eviction leaves it (R284). One that still waited for its nest record is READY: its NEST bundle issues again and reads the record (R113). -/
def evictedStrand (t : Strand) : Strand := { t with st := if t.nestAddr.isSome then .ready else .evicted, nestAddr := none }

/-- A strand as it is saved: its records' contents when it was not resident, its near accesses performed, its open window discarded unless its eviction has committed it. -/
def settleStrand (s : State) (evict : Bool) (sid : Nat) : Except GustFault State :=
  match getStrand s sid with
  | none => .ok s
  | some t =>
    if t.st == .done then .ok s
    else
      match (if resident t then .ok t else readRecords s t) with
      | .error e => .error (6, e)
      | .ok u =>
        let s1 := drainAll (updStrand s sid fun _ => u) sid
        if evict && t.closing.isNone then .ok (updStrand s1 sid evictedStrand)
        else
          let s2 := forgetAgreed (discardWindow s1 sid) sid
          let s3 := updStrand s2 sid fun t => { t with pc := if t.cdone then t.pc else t.cpt, closing := none }
          .ok (updStrand s3 sid fun t => savedStrand s3 t)

/-- Settle every strand of a list. -/
def settleAll (evict : Bool) : List Nat → State → Except GustFault State
  | [], s => .ok s
  | i :: is, s => match settleStrand s evict i with
    | .error e => .error e
    | .ok s1 => settleAll evict is s1

/-- The array of a core after its checkpoint is taken: no holder, no command; the next waiting context may claim it (R198). -/
def leaveArray (s : State) (core : Nat) : State :=
  let s1 := updArray s core fun a => { a with holder := none, nextCfg := [], releasing := none, cmds := [], pipe := [], building := [], swaps := 0, operands := none, outs := [], current := none, images := [] }
  if (getArray s1 core).waiting.isEmpty then s1 else after s1 0 (.arrayClaim core)

/-- A strand leaves its core: what the core keeps for it is dropped. -/
def leaveCore (s : State) (t : Strand) : State :=
  match t.loc with
  | none => s
  | some l =>
    let s1 := updCore s l.1 fun c => { dropLoopBuf c t.sid with array := { c.array with waiting := c.array.waiting.filter fun w => w.1 != t.sid } }
    updStrand s1 t.sid fun t => { t with loc := none, halted := false }

/-- The send ends of a gang whose ticket has been called (R298). -/
def calledEnds (g : Gang) : List (BitVec 6) := ((upto 64).map (BitVec.ofNat 6)).filter fun c => match chanOf g c with
  | .send e => e.tkt && e.called.isSome
  | _ => false

/-- SAVE A GANG (R377, R378): its strands settle, its area and records are written, its contexts, near memory and arrays are freed. A fault changes nothing. -/
def saveGang (s : State) (g : Gang) (reason : BitVec 2) : Except GustFault State :=
  match settleAll (reason == 0) g.strands s with
  | .error e => .error e
  | .ok s0 =>
    match getGang s0 g.gid with
    | none => .ok s0
    | some g =>
      let as := heldArrays s0 g
      let arrays := as.map fun a => (a.1, getArray s0 a.2)
      let ts := (g.strands.filterMap (getStrand s0)).filter fun t => t.st != .done
      let s1 := updGang s0 g.gid fun g => { g with alloc := [], saved := some ⟨reason, s.clock, arrays⟩ }
      let s2 := ts.foldl leaveCore s1
      let us := ts.filterMap fun t => getStrand s2 t.sid
      match devWriteAll s2 (gangAsid s g) (areaWrites s0 g reason ++ us.flatMap (recordWrites s2)) with
      | .error e => .error (7, e)
      | .ok s3 =>
        let s4 := as.foldl (fun s a => leaveArray s a.2) s3
        let s5 := (calledEnds g).foldl (fun s c => after s 13001 (.ticketSkip g.gid c)) s4
        .ok (kickDies s5)

/-- Save several gangs, all or none. -/
def saveGangs (reason : BitVec 2) : List Gang → State → Except GustFault State
  | [], s => .ok s
  | g :: gs, s => match saveGang s g reason with
    | .error e => .error e
    | .ok s1 => saveGangs reason gs s1

/-! ## Candidates that wait (R255, R261, R263) -/

/-- The record of a queue entry, if it can be read. -/
def recordAt (s : State) (q : HwQueue) (a : Word) : Except XFault Task :=
  match devRead s (queueAsid s q) a 64 with
  | .error e => .error e
  | .ok bs => .ok (taskOf bs)

/-- A place in a queue: its ring index, none on die, and the record's address, none while the ring entry cannot be read (R255). -/
abbrev QueuePlace := Option (BitVec 32) × Option Word

/-- The ring entries of a queue, oldest first. -/
def ringPlaces (s : State) (q : HwQueue) : List (BitVec 32 × Except XFault (List Byte)) :=
  (upto (q.rtail - q.rhead).toNat).map fun k => let i := q.rhead + BitVec.ofNat 32 k; (i, devRead s (queueAsid s q) (ringEntry q i) 8)

/-- The records of a queue, oldest first; a ring entry of 0 is no record. -/
def queueRecords (s : State) (q : HwQueue) : List QueuePlace :=
  q.onDie.map (fun a => (none, some a)) ++ ((ringPlaces s q).filterMap fun p => match p.2 with
    | .ok bs => if wordAt bs 0 = 0 then none else some (some p.1, some (wordAt bs 0))
    | .error _ => some (some p.1, none)) ++ q.waitRing.map fun a => (none, some a)

/-- Whether a record is dispatchable: it can be read, and its WAITC is 0 (R253). -/
def dispatchable (s : State) (q : HwQueue) (a : Word) : Bool :=
  match recordAt s q a with
  | .ok k => k.waitc == 0
  | .error _ => false

/-- A saved gang of the queue that stands ahead of its candidate (R377): more than one strand, any of them READY. -/
def savedAhead (s : State) (die : Nat) (q : HwQueue) : Option Gang :=
  let ready (t : Strand) : Bool := t.st == StrandSt.ready
  s.gangs.find? fun g => g.die == die && g.queue == q.num && g.saved.isSome && g.unsaved.isEmpty && !(g.strands.length == 1 && g.rset.isNone) && isWindward s g &&
    (match rsetOf s g with
      | some r => (liveGids r).filterMap (getGang s)
      | none => [g]).any fun h => (h.strands.filterMap (getStrand s)).any ready

/-- Whether the record at a place of a queue is dispatchable; one whose place cannot be read is not. -/
def placeReady (s : State) (q : HwQueue) (p : QueuePlace) : Bool := p.2.any (dispatchable s q)

/-- The fault, or the wait, that keeps Gust from the record at a place of a queue (R433). -/
def placeFault (s : State) (q : HwQueue) (p : QueuePlace) : Option XFault :=
  match p with
  | (_, some a) => (match recordAt s q a with
    | .error e => some e
    | .ok _ => none)
  | (some i, none) => (match devRead s (queueAsid s q) (ringEntry q i) 8 with
    | .error e => some e
    | .ok _ => none)
  | (none, none) => none

/-- Whether Gust still reads the record at a place of a queue, so that it cannot pass it. -/
def placeWaits (s : State) (q : HwQueue) (p : QueuePlace) : Bool := (placeFault s q p).any fun e => waits e.1

/-- The candidate record of a queue (R255). -/
def candidateOf (s : State) (q : HwQueue) : Option (Option (BitVec 32) × Word) :=
  let first := if q.det then (queueRecords s q).head? else (queueRecords s q).find? fun p => placeReady s q p || placeWaits s q p
  ((if q.en then first else none).filter (placeReady s q)).bind fun p => p.2.map fun a => (p.1, a)

/-- What a queue offers: a saved gang, or its candidate record. -/
inductive Offer where
  | gang (g : Gang)
  | record (at_ : Option (BitVec 32)) (a : Word) (k : Task)
deriving DecidableEq, Repr

/-- The offer of a queue. -/
def offerOf (s : State) (die : Nat) (q : HwQueue) : Option Offer :=
  match (if q.en then savedAhead s die q else none) with
  | some g => some (.gang g)
  | none =>
    match candidateOf s q with
    | none => none
    | some r => match recordAt s q r.2 with
      | .ok k => some (.record r.1 r.2 k)
      | .error _ => none

/-- What an offer needs on one die (R257, R351, R352): clusters, shape, near memory, and the strands that take an array. -/
structure Need where
  die : Nat
  clusters : List Nat
  w : Nat
  h : Nat
  n : Nat
  nearsz : Nat
  arrs : List Nat
  /-- the job whose save pool a record's gang takes its part from (R258) -/
  pool : Option Nat
deriving DecidableEq, Repr

/-- Clusters of a mask for a replicated task: the suspect ones of the die are left out (R352). -/
def trusted (s : State) (die : Nat) (repld : Bool) (cs : List Nat) : List Nat := cs.filter fun c => !(repld && bit (getDie s die).suspect.toNat c)

/-- The gangs that return with a saved gang: its replica set, or itself (R365). -/
def gangsWith (s : State) (g : Gang) : List Gang :=
  match rsetOf s g with
  | some r => (liveGids r).filterMap (getGang s)
  | none => [g]

/-- What a saved gang needs to return. -/
def gangNeed (s : State) (q : HwQueue) (g : Gang) : Need :=
  ⟨g.die, trusted s g.die g.rset.isSome (clustersOf q.clmask), g.task.width, g.task.height, g.task.nstr, g.task.nearsz, arrIdx g, none⟩

/-- What an offer needs, die by die, windward first. -/
def needsOf (s : State) (die : Nat) (q : HwQueue) (o : Offer) : List Need :=
  match o with
  | .gang g => (gangsWith s g).map (gangNeed s q)
  | .record _ _ k => (replicaDies die k.repl).map fun d => ⟨d, trusted s d (decide (1 < k.repl.toNat)) (clustersOf q.clmask), k.width, k.height, k.nstr, k.nearsz, [], some q.job⟩

/-- The place of a need, if there is one at this moment. -/
def placeOf (s : State) (x : Need) : Option (Nat × List (Nat × BitVec 2 × Nat)) := findPlace s x.die x.clusters x.w x.h x.n x.nearsz x.arrs

/-- Whether the save pool has no room for a new gang (R258). -/
def poolFull (s : State) (x : Need) : Bool := match x.pool.bind (getJob s) with
  | some j => (poolFit j (poolBytes x.n x.nearsz)).isNone
  | none => false

/-- Whether a need cannot be placed at this moment, for want of a place or of room in the save pool (R257, R258). -/
def unplaced (s : State) (x : Need) : Bool := (placeOf s x).isNone || poolFull s x

/-- Whether a position of a cluster is no hole, and its array free where one is needed: what eviction cannot change. -/
def standsOpen (s : State) (x : Need) (cl : Nat) (ps : List (Nat × Nat)) : Bool :=
  ps.zipIdx.all fun p => !holeAt s x.die cl p.1 && !(x.arrs.contains p.2 && (getArray s (coreAt x.die cl p.1)).holder.isSome)

/-- Whether a need is unplaced for want of a context or of near memory (R261). -/
def wantsRoom (s : State) (x : Need) : Bool :=
  (placeOf s x).isNone && (x.clusters.filter fun c => clusterReady s x.die c && !clusterOut s x.die c).any fun c => (candidatesIn x.w x.h x.n).any (standsOpen s x c)

/-- Every need of the offers of every queue. -/
def allNeeds (s : State) : List Need :=
  (upto 8).flatMap fun d => (getDie s d).queues.flatMap fun q => match offerOf s d q with
    | some o => needsOf s d q o
    | none => []

/-! ## Eviction (R261, R284) -/

/-- Whether a strand has a near-bound copy, an ATMN or a near access outstanding (R261). -/
def nearBusy (s : State) (t : Strand) : Bool :=
  s.cores.any (fun k => k.copies.any fun c => c.sid == t.sid && caNear c.dst) || s.nearOps.any (fun o => o.sid == t.sid) ||
  s.nearLoads.any fun l => l.sid == t.sid && decide (s.clock ≤ l.due)

/-- Whether a strand may be chosen for eviction now: parked for 2,600 ck, inside a commit point or not, with nothing near-bound outstanding (R261, R365, R434). -/
def evictable (s : State) (t : Strand) : Bool :=
  match gangOf s t with
  | none => false
  | some g => g.strands.length == 1 && g.saved.isNone && t.st == .parked && t.loc.isSome && decide (t.parkedAt + 2600 ≤ s.clock) && t.heldTrap.isNone && !t.halted && !nearBusy s t

/-- Whether a halted strand has committed and can be evicted as it stands; a lost path lets it go without (R284, R396). -/
def evictNow (s : State) (t : Strand) : Bool :=
  t.halted && t.st == .parked && t.heldTrap.isNone && t.sig.isNone && !nearBusy s t && (pathHolds s t || (t.closing.isNone && t.log.isEmpty && t.gated.isEmpty)) &&
  match gangOf s t with
  | some g => gangQuiet s g
  | none => false

/-- Whether a pre-emption request still waits for a gang. -/
def underRequest (s : State) (gid : Nat) : Bool := s.dies.toList.any fun d => d.preempts.any fun p => p.gangs.contains gid

/-- Undo the halt of an eviction that has not come about. -/
def unhalt (s : State) (ts : List Strand) : State := ts.foldl (fun s t => updStrand s t.sid fun t => { t with halted := underRequest s t.gid }) s

/-- A strand chosen for eviction halts; one that is outside a commit point, with no wait left of one, commits first (R284, R319, R434). -/
def haltToEvict (s : State) (sid : Nat) : State :=
  let s1 := updStrand s sid fun t => { t with halted := true }
  match getStrand s1 sid with
  | none => s1
  | some t => if t.closing.isSome then poll s1 (.eviction sid) else implicitCommit (focus s1 sid) true

/-- EVICTION (R261): the strand, or with it every replica (R365), halts and commits (R284); once quiet it is saved and its context freed. Inside a commit point it takes effect when that completes (R319). A delivery that has woken it, or a fault, leaves it where it is. -/
def execEviction (sid : Nat) (s : State) : Out State :=
  .next (
    match getStrand s sid with
    | none => s
    | some t =>
      let ts := replicasOf s t
      if ts.any (fun t => t.halted) then
        if ts.any (fun t => !outsideCommit s t) then poll s (.eviction sid)
        else if ts.all (evictNow s) then
          match saveGangs 0 (ts.filterMap (gangOf s)) s with
          | .ok s1 => s1
          | .error e => holdEvent (unhalt s ts) e.2 (asidOf s t) e.1 none (.eviction sid)
        else if ts.all (fun t => t.st == .parked && t.heldTrap.isNone) then after s 1 (.eviction sid)
        else unhalt s ts
      else if ts.all (evictable s) && (allNeeds s).any (fun x => x.die == coreDie (coreOf t) && wantsRoom s x) then
        (ts.map (·.sid)).foldl haltToEvict s
      else s)

end Sys2Proof.Machine
end

