-- ==== Sys2Proof/Machine/Switch.lean ====
section
/-! DEFINITION. Gust over time: dispatch by rank (R254 to R258), pick-up (R259, R262), pre-emption requests (R376, R377), the doldrums watchdog (R263, R264), the end of strands and tasks (R103, R253). -/

namespace Sys2Proof.Machine

/-- Hold an event on a fault, unless it is held there already (R433). -/
def holdOnce (s : State) (e : XFault) (asid : Nat) (acc : BitVec 4) (i : Instr) : State :=
  if (getDie s (farDie e.2)).descs.any (fun d => !d.releasing && d.va == e.2 && d.held.contains (.event i)) then s else holdEvent s e asid acc none i

/-! ## Pick-up (R259, R262, R375) -/

/-- Every core of a die at a position of a ready cluster's mesh, in the order of R257. -/
def coresOf (s : State) (die : Nat) : List (Nat × Nat × Nat) :=
  ((upto 3).filter fun c => clusterReady s die c && !clusterOut s die c).flatMap fun c =>
    ((pairsOf 8 8).map fun p => (p.2, p.1)).filterMap fun p => if holeAt s die c p then none else some (c, coreAt die c p, 0)

/-- The room that a saved free strand finds on a core: cluster, core, context, base (R259). -/
def roomOn (s : State) (g : Gang) (c : Nat × Nat × Nat) : Option (Nat × Nat × BitVec 2 × Nat) :=
  if coreGone s c.2.1 || (!(arrIdx g).isEmpty && (getArray s c.2.1).holder.isSome) then none
  else
    match freeCtx s c.2.1, freeBase s c.2.1 g.task.nearsz with
    | some x, some b => some (c.1, c.2.1, x, b)
    | _, _ => none

/-- PICK_UP: a held context, or a free context of the die, takes a READY strand up (R259, R262, R375). -/
def execPickUp (sid core : Nat) (s : State) : Out State :=
  .next (
    match getStrand s sid with
    | none => s
    | some t =>
      if t.st != .ready then s
      else
        match t.loc, gangOf s t with
        | some _, _ =>
          match readRecords s t with
          | .error e => holdEvent s e (asidOf s t) 6 none (.pickUp sid core)
          | .ok u =>
            let v := { pickedUp s 0 u with halted := t.halted }
            match devWriteAll s (asidOf s t) [(t.crec, crecBytes v (identOf s v))] with
            | .error e => holdEvent s e (asidOf s t) 7 (some sid) (.pickUp sid core)
            | .ok s1 => updStrand { s1 with fresh := s1.fresh + 1 } sid fun _ => v
        | none, some g =>
          if g.saved.isNone || !g.unsaved.isEmpty || g.strands.length != 1 || g.rset.isSome then s
          else
            match ((coresOf s g.die).find? fun c => c.2.1 == core).bind (roomOn s g) with
            | none => kickDispatch s g.die
            | some r => match restoreGang s g r.1 [r.2] with
              | .error e => holdEvent s e.2 (gangAsid s g) e.1 (if e.1 = 7 then some sid else none) (.pickUp sid core)
              | .ok s1 => s1
        | none, none => s)

/-- The saved free strands of a die that are READY, with the core that takes each (R259). -/
def pickable (s : State) (die : Nat) : Option (Nat × Nat) :=
  s.gangs.findSome? fun g =>
    if g.die = die ∧ g.saved.isSome ∧ g.unsaved.isEmpty ∧ g.strands.length = 1 ∧ g.rset.isNone then
      ((g.strands.filterMap (getStrand s)).find? fun t => t.st == .ready).bind fun t =>
        ((coresOf s die).findSome? (roomOn s g)).bind fun r => if evPending s (.pickUp t.sid r.2.1) then none else some (t.sid, r.2.1)
    else none

/-! ## Pre-emption (R376, R377) -/

/-- The 64 bytes of a report. -/
def reportBytes (s : State) (p : Preempt) : List Byte :=
  let at_ (k : Nat) : Word := BitVec.ofNat 64 k
  [packWord [(p.seq.toNat, 0), (p.done % 2 ^ 16, 32)], (if p.done = 0 then Config.freeWord s.fresh else at_ p.lastHalt),
   (if p.done = 0 then Config.freeWord (s.fresh + 1) else at_ p.lastSave), 0, 0, 0, 0, 0].flatMap wordBytes

/-- Replace or drop an entry of a die's list of requests. -/
def putPreempt (s : State) (die : Nat) (p : Preempt) (q : Option Preempt) : State :=
  updDie s die fun d => { d with preempts := d.preempts.flatMap fun x => if x == p then q.toList else [x] }

/-- Every target is saved: the report is written (R377); a fault holds the request (R433). -/
def reportPreempt (s : State) (die : Nat) (p : Preempt) : State :=
  let over_ (s : State) : State := putPreempt s die p (if p.cmd then some { p with over_ := true } else none)
  match p.asid with
  | none => over_ s
  | some a => match devWrite { s with fresh := s.fresh + 2 } a p.report (reportBytes s p) with
    | .ok s1 => over_ s1
    | .error e => holdOnce s e a 7 (.preemptionRequest die p.w0 p.report (p.seq.setWidth 64))

/-- A gang of a die's requests has been saved, or is gone. -/
def preemptDone (s : State) (gid : Nat) (saved : Bool) : State :=
  (upto 8).foldl (fun s die =>
    ((getDie s die).preempts.filter fun p => p.gangs.contains gid).foldl (fun s p =>
      let p1 := { p with gangs := p.gangs.filter (· != gid), done := p.done + (if saved then 1 else 0), lastSave := if saved then s.clock else p.lastSave }
      let s1 := putPreempt s die p (some p1)
      if p1.gangs.isEmpty then reportPreempt s1 die p1 else s1) s) s

/-- Stop the issue of every strand of a gang (R377). -/
def haltGang (s : State) (g : Gang) : State := g.strands.foldl (fun s i => updStrand s i fun t => { t with halted := t.st != .done }) s

/-- Whether a gang is a target of a request (R376). -/
def isTarget (s : State) (die kind id : Nat) (g : Gang) : Bool :=
  g.saved.isNone && !g.completed && g.die == die &&
  match kind with
  | 0 => g.task.taskno.toNat == id
  | 1 => g.queue == id && isWindward s g
  | 2 => g.job == id
  | _ => false

/-- The gangs that a request pre-empts: its targets, and with each its whole replica set (R365, R376). -/
def targetsOf (s : State) (die kind id : Nat) : List Gang := ((s.gangs.filter (isTarget s die kind id)).flatMap (gangsWith s)).dedup

/-- The job in whose address space the report stands (R376). -/
def reportAsid (s : State) (die kind id : Nat) (gs : List Gang) : Option Nat :=
  let job : Option Nat := match kind with
    | 0 => gs.head?.map Gang.job
    | 1 => (getQueue s die id).map HwQueue.job
    | 2 => some id
    | _ => none
  (job.bind (getJob s)).map Job.asid

/-- Clear EN of the target's queues (R376). -/
def stopQueues (s : State) (die kind id : Nat) (gs : List Gang) : State :=
  match kind with
  | 0 => gs.foldl (fun s g => if isWindward s g then updQueue s g.die g.queue fun q => { q with en := false } else s) s
  | 1 => updQueue s die id fun q => { q with en := false }
  | 2 => updDie s die fun d => { d with queues := d.queues.map fun q => if q.job = id then { q with en := false } else q }
  | _ => s

/-- Accept a request for the dies given, the first of which keeps it (R376, R377). `cmd` says that a host command waits for its end. -/
def acceptOn (s : State) (dies : List Nat) (w0 w1 w2 : Word) (cmd : Bool) : State :=
  let kind := wbits w0 0 2
  let id := wbits w0 8 32
  let gs := (dies.flatMap fun d => targetsOf s d kind id).dedup
  let s1 := if bit w0.toNat 2 then dies.foldl (fun s d => stopQueues s d kind id (targetsOf s d kind id)) s else s
  let p : Preempt := { w0 := w0, report := w1, seq := w2.setWidth 32, asid := dies.findSome? fun d => reportAsid s d kind id (targetsOf s d kind id), over_ := false
                       gangs := gs.map (·.gid), done := 0, lastHalt := s.clock, lastSave := s.clock, cmd := cmd }
  let die := dies.headD 0
  let s2 := updDie s1 die fun d => { d with preempts := d.preempts ++ [p] }
  let s3 := gs.foldl haltGang s2
  if gs.isEmpty then reportPreempt s3 die p
  else gs.foldl (fun s g => if isWindward s g then after s 1 (.watchdogPreempt g.gid) else s) s3

/-- Accept a request at one die's pre-emption port (R376). -/
def acceptPreempt (s : State) (die : Nat) (w0 w1 w2 : Word) (cmd : Bool) : State := acceptOn s [die] w0 w1 w2 cmd

/-- PREEMPTION_REQUEST: a request written to a die's port; a report that was held is written again (R376, R377, R433). -/
def execPreemptionRequest (die : Nat) (w0 w1 w2 : Word) (s : State) : Out State :=
  .next (
    match (getDie s die).preempts.find? (fun p => p.w0 == w0 && p.report == w1 && p.seq == w2.setWidth 32 && p.gangs.isEmpty && !p.over_) with
    | some p => reportPreempt s die p
    | none => acceptPreempt s die w0 w1 w2 false)

/-! ## The watchdogs (R263, R264) -/

/-- The strands of a gang and of the gangs that go with it. -/
def setMembers (s : State) (g : Gang) : List Strand := (gangsWith s g).flatMap fun h => h.strands.filterMap (getStrand s)

/-- Whether a gang is being halted by the watchdog. -/
def dogHalts (s : State) (g : Gang) : Bool :=
  decide (1 < g.strands.length) && g.saved.isNone && !underRequest s g.gid && (g.strands.filterMap (getStrand s)).any fun t => t.halted

/-- Whether every strand of a gang is in the doldrums, and a candidate for its cluster cannot be placed (R263). -/
def inDoldrums (s : State) (g : Gang) : Bool :=
  let ts := setMembers s g
  decide (1 < g.strands.length) && g.saved.isNone && !g.completed && isWindward s g &&
  ts.all (fun t => t.st == .done || (t.st == .parked && decide (t.parkedAt + 13000 < s.clock) && !t.halted)) && ts.any (fun t => t.st == .parked) &&
  (gangsWith s g).any fun h => (allNeeds s).any fun x => x.die == h.die && x.clusters.contains h.cluster && unplaced s x

/-- The ck of a gang's latest park. -/
def latestPark (s : State) (g : Gang) : Nat := (setMembers s g).foldl (fun m t => if t.st == .parked then max m t.parkedAt else m) 0

/-- The gang that the watchdog takes first: the one whose latest park is oldest (R263). -/
def dogChoice (s : State) : Option Gang :=
  (s.gangs.filter (inDoldrums s)).foldl (fun o g => match o with
    | none => some g
    | some h => if latestPark s g < latestPark s h then some g else some h) none

/-- Whether a free strand of a die can be evicted for a candidate: it goes first (R263). -/
def evictsFirst (s : State) (die : Nat) : Bool :=
  (allNeeds s).any (fun x => x.die == die && wantsRoom s x) && (allStrands s).any fun t => t.loc.isSome && coreDie (coreOf t) == die && (replicasOf s t).all (evictable s)

/-- Save the halted gangs of a set once all of them are quiet; `reason` 1 for a request, 2 for the watchdog. -/
def saveHalted (s : State) (g : Gang) : State :=
  let gs := (gangsWith s g).filter fun h => h.saved.isNone && !h.completed
  if gs.isEmpty then s
  else if !gs.all (gangQuiet s) then after s 1 (.watchdogPreempt g.gid)
  else
    let reason : BitVec 2 := if gs.any (fun h => underRequest s h.gid) then 1 else 2
    match saveGangs reason gs s with
    | .error e => holdOnce s e.2 (gangAsid s g) e.1 (.watchdogPreempt g.gid)
    | .ok s1 =>
      let s2 := gs.foldl (fun s h => preemptDone s h.gid true) s1
      let limit := match getJob s2 g.job with
        | some j => j.wdlim
        | none => 0
      if reason = 2 ∧ limit ≠ 0 then after s2 (limit * 1300) (.watchdog g.gid) else s2

/-- WATCHDOG_PREEMPT: the doldrums watchdog halts a gang, and a gang that is halted is saved once it is quiet (R263, R377). -/
def execWatchdogPreempt (gid : Nat) (s : State) : Out State :=
  .next (
    match getGang s gid with
    | none => preemptDone s gid false
    | some g =>
      if g.completed then preemptDone s gid false
      else if g.saved.isSome then preemptDone s gid true
      else if underRequest s gid || dogHalts s g then saveHalted s g
      else if (dogChoice s).map (·.gid) == some gid && !s.gangs.any (dogHalts s) && !evictsFirst s g.die then
        after ((gangsWith s g).foldl haltGang s) 1 (.watchdogPreempt gid)
      else s)

/-- Write the records of the strands of a gang that the watchdog traps (R264, R369). -/
def dogWrites (s : State) (ts : List Strand) : List (Word × List Byte) :=
  ts.flatMap fun t =>
    let r : TrapRec := ⟨.watchdog, 0, 0, t.pc, t.window - 1, 0⟩
    recordWrites s t ++ [(t.trec, trapBytes r t (identOf s t))]

/-- Trap the saved strands of one gang WATCHDOG; the windward posts one event for all of them, whose number their trap records take (R264). -/
def dogTrap (s : State) (g : Gang) : Except XFault State :=
  let ts := ((g.strands.filterMap (getStrand s)).filter fun t => t.st != .done && t.st != .faulted).map fun t => { t with st := StrandSt.faulted, parkid := none, waitset := none, choice := none }
  match devWriteAll s (gangAsid s g) (dogWrites s ts) with
  | .error e => .error e
  | .ok s1 =>
    let s2 := ts.foldl (fun s t => updStrand s t.sid fun _ => t) s1
    match ts.head? with
    | some t =>
      if isWindward s g then .ok (postEvent s2 g.job (trapPlace s2 t) (ts.map (·.trec)) (trapBytes ⟨.watchdog, 0, 0, t.pc, t.window - 1, 0⟩ t (identOf s t)))
      else .ok s2
    | none => .ok s2

/-- Trap every gang of a set. -/
def dogTraps : List Gang → State → Except XFault State
  | [], s => .ok s
  | g :: gs, s => match dogTrap s g with
    | .error e => .error e
    | .ok s1 => dogTraps gs s1

/-- The saved strands as their records stand, for a trap that writes them (R32). -/
def loadSaved (s : State) (ts : List Strand) : Except XFault State :=
  match ts with
  | [] => .ok s
  | t :: rest => match (if t.st == .done then .ok t else readRecords s t) with
    | .error e => .error e
    | .ok u => loadSaved (updStrand s t.sid fun _ => u) rest

/-- WATCHDOG (R264): a gang that the watchdog pre-empted and none of whose strands has become READY within its job's limit traps in every strand. -/
def execWatchdog (gid : Nat) (s : State) : Out State :=
  .next (
    match getGang s gid with
    | none => s
    | some g =>
      let limit := match getJob s g.job with
        | some j => j.wdlim
        | none => 0
      match g.saved with
      | none => s
      | some v =>
        if v.reason != 2 || limit = 0 || decide (s.clock < v.since + limit * 1300) || (setMembers s g).any (fun t => t.st == .ready) || !isWindward s g then s
        else
          match loadSaved s (setMembers s g) with
          | .error e => holdOnce s e (gangAsid s g) 6 (.watchdog gid)
          | .ok s0 => match dogTraps (gangsWith s0 g) s0 with
            | .error e => holdOnce s e (gangAsid s g) 7 (.watchdog gid)
            | .ok s1 => s1)

/-! ## Dispatch (R254 to R258) -/

/-- Whether a queue has something to dispatch: a saved gang, or any dispatchable record, its candidate or not (R254). -/
def hasWork (s : State) (die : Nat) (q : HwQueue) : Bool := (savedAhead s die q).isSome || (queueRecords s q).any (placeReady s q)

/-- Mark since when each queue of a die waits (R254). -/
def markWaits (s : State) (die : Nat) : State :=
  let os := (getDie s die).queues.map fun q => (q.num, hasWork s die q)
  updDie s die fun d => { d with queues := d.queues.map fun q => { q with since := if os.contains (q.num, true) then some (q.since.getD s.clock) else none } }

/-- Rank of a queue (R254). -/
def rankOf (s : State) (q : HwQueue) : Nat := min 7 (q.prio.toNat + (s.clock - q.since.getD s.clock) / 1300000)

/-- Place of a queue in the order of its rank: after the queue last served there, wrapping from 63 to 0 (R254). -/
def turnOf (s : State) (die : Nat) (q : HwQueue) : Nat := (q.num + 63 - ((getDie s die).lastServed[rankOf s q % 8]'(by omega))) % 64

/-- The queues of a die in the order in which Gust takes them (R254). -/
def queueOrder (s : State) (die : Nat) : List HwQueue :=
  sortBy (fun a b => decide (rankOf s b < rankOf s a) || (rankOf s a == rankOf s b && decide (turnOf s die a ≤ turnOf s die b))) ((getDie s die).queues.filter fun q => q.since.isSome)

/-- The places of every need of an offer at this moment, the held clusters of the queue's die left out. -/
def placesFor (s : State) (die : Nat) (held : List Nat) (xs : List Need) : Option (List (Need × Nat × List (Nat × BitVec 2 × Nat))) :=
  let got := xs.map fun x => (placeOf s (if x.die = die then { x with clusters := x.clusters.filter fun c => !held.contains c } else x)).map fun p => (x, p)
  if got.all Option.isSome then some (got.filterMap id) else none

/-- Whether holes found after the enqueue leave a need no cluster at all (R267). -/
def neverFits (s : State) (q : HwQueue) (x : Need) : Bool := !(clustersOf q.clmask).any fun c => couldPlace s x.die c x.w x.h x.n

/-- Take a dispatched record off its queue (R255): from the die, or by a 0 in its ring entry. -/
def takeRecord (s : State) (die : Nat) (q : HwQueue) (at_ : Option (BitVec 32)) (a : Word) : Except XFault State :=
  match at_ with
  | none => .ok (updQueue s die q.num fun q => if q.onDie.contains a then { q with onDie := dropFirst (· == a) q.onDie } else { q with waitRing := dropFirst (· == a) q.waitRing })
  | some i => devWrite s (queueAsid s q) (ringEntry q i) (wordBytes 0)

/-- Bind the gangs of a record: its windward, or its whole replica set with one seed (R258, R352). -/
def bindAll (j : Job) (a : Word) (k : Task) (q : HwQueue) (seed : Word) (rset : Option Nat) :
    List (Need × Nat × List (Nat × BitVec 2 × Nat)) → Nat → State → Except (Option XFault) State
  | [], _, s => .ok s
  | p :: ps, idx, s =>
    match bindGang s j a k p.1.die q.num p.2.1 q.det seed rset (BitVec.ofNat 2 idx) p.2.2 with
    | .error e => .error e
    | .ok s1 => bindAll ((getJob s1 j.jobn).getD j) a k q seed rset ps (idx + 1) s1

/-- Dispatch a record to the places found (R258). -/
def placeRecord (s : State) (die : Nat) (q : HwQueue) (at_ : Option (BitVec 32)) (a : Word) (k : Task) (ps : List (Need × Nat × List (Nat × BitVec 2 × Nat))) :
    Except (Option XFault) State :=
  match getJob s q.job with
  | none => .error none
  | some j =>
    let seed := taskSeed s q.det k
    let gid0 := if k.repl.toNat ≤ 1 then s.nextId else s.nextId + 1
    let rid := s.nextId
    let s0 := if k.repl.toNat ≤ 1 then s else { s with nextId := rid + 1 }
    match bindAll j a k q seed (if k.repl.toNat ≤ 1 then none else some rid) ps 0 s0 with
    | .error e => .error e
    | .ok s1 =>
      let s2 := if k.repl.toNat ≤ 1 then s1 else { s1 with rsets := s1.rsets ++ [⟨rid, (s1.gangs.filter fun g => decide (gid0 ≤ g.gid)).map (·.gid), []⟩] }
      match takeRecord s2 die q at_ a with
      | .error e => .error (some e)
      | .ok s3 => .ok s3

/-- A task that no cluster can hold any more completes poisoned ENGINE without being dispatched (R267). -/
def refuseRecord (s : State) (die : Nat) (q : HwQueue) (at_ : Option (BitVec 32)) (a : Word) (k : Task) : Except XFault State :=
  match takeRecord s die q at_ a with
  | .error e => .error e
  | .ok s1 =>
    let gid := s1.nextId
    let g := { newGang (gid, 0) (0, a) k q.job die q.num 0 q.det [] 0 0 none 0 [] with poison := some .engine, saveSize := 0 }
    .ok (after { s1 with nextId := gid + 1, gangs := s1.gangs ++ [g] } 0 (.taskCompletion gid))

/-- Restore every gang of a set (R365, R379). -/
def restoreAll : List (Gang × Nat × List (Nat × BitVec 2 × Nat)) → State → Except GustFault State
  | [], s => .ok s
  | p :: ps, s => match restoreGang s p.1 p.2.1 p.2.2 with
    | .error e => .error e
    | .ok s1 => restoreAll ps s1

/-- Outcomes of offering a queue. -/
inductive Offered where
  | served (s : State)
  | stuck (s : State)
  | unplaced

/-- Offer one queue's candidate (R254). -/
def offerQueue (s : State) (die : Nat) (held : List Nat) (q : HwQueue) (o : Offer) : Offered :=
  let xs := needsOf s die q o
  let stuck (e : GustFault) : Offered := .stuck (holdOnce s e.2 (queueAsid s q) e.1 (.dispatch die))
  match o with
  | .gang g =>
    match placesFor s die held xs with
    | none => .unplaced
    | some ps => match restoreAll ((gangsWith s g).zip (ps.map (·.2))) s with
      | .error e => stuck e
      | .ok s1 => .served s1
  | .record at_ a k =>
    if xs.any (neverFits s q) then
      match refuseRecord s die q at_ a k with
      | .error e => stuck (7, e)
      | .ok s1 => .served s1
    else
      match placesFor s die held xs with
      | none => .unplaced
      | some ps => match placeRecord s die q at_ a k ps with
        | .error none => .unplaced
        | .error (some e) => stuck (7, e)
        | .ok s1 => .served s1

/-- Serve a queue: it is the last served at its rank and waits from now (R254). -/
def servedAt (s : State) (die : Nat) (q : HwQueue) (rank : Nat) : State :=
  let s1 := updDie s die fun d => { d with lastServed := d.lastServed.set (rank % 8) q.num (by omega) }
  after (updQueue s1 die q.num fun q => { q with since := none }) 0 (.ringRefill die q.num)

/-- Offer the queues in order; a queue at rank 7 that cannot be placed holds its clusters from those after it (R254). -/
def offerQueues (die : Nat) : List HwQueue → List Nat → State → Bool × State
  | [], _, s => (false, s)
  | q :: qs, held, s =>
    match offerOf s die q with
    | none => offerQueues die qs held s
    | some o =>
      match offerQueue s die held q o with
      | .served s1 => (true, servedAt s1 die q (rankOf s q))
      | .stuck s1 => offerQueues die qs held s1
      | .unplaced => offerQueues die qs (if rankOf s q = 7 ∧ held.isEmpty then clustersOf q.clmask else held) s

/-- The first record of a die's queues that Gust cannot read, or not yet: the fault, and the address space (R433). -/
def unreadRecord (s : State) (die : Nat) : Option (XFault × Nat) :=
  (getDie s die).queues.findSome? fun q => (queueRecords s q).findSome? fun p => (placeFault s q p).map fun e => (e, queueAsid s q)

/-- The strands of a job in Gust's queue on a die: READY, and without a context. -/
def gustQueue (s : State) (die job : Nat) : List Strand :=
  ((s.gangs.filter fun g => g.die == die && g.job == job && g.saved.isSome).flatMap fun g => g.strands.filterMap (getStrand s)).filter fun t => t.st == .ready && t.loc.isNone

/-- LINK of each of them: the next continuation record, 0 at the end (R28). DESIGN CHOICE, log 57: the queue of a job on a die. -/
def gustLinks (ts : List Strand) : List (Strand × Word) := ts.zip ((ts.drop 1).map (·.crec) ++ [0])

/-- Write LINK of a strand into its continuation record; a fault holds the next look at the die (R28, R433). -/
def writeLink (die : Nat) (s : State) (p : Strand × Word) : State :=
  if p.1.link = p.2 then s
  else
    match devWrite s (asidOf s p.1) (p.1.crec + 56) (wordBytes p.2) with
    | .ok s1 => updStrand s1 p.1.sid fun t => { t with link := p.2 }
    | .error e => holdOnce s e (asidOf s p.1) 7 (.dispatch die)

/-- Link Gust's queue of every job on a die. -/
def linkQueue (s : State) (die : Nat) : State := (s.jobs.flatMap fun j => gustLinks (gustQueue s die j.jobn)).foldl (writeLink die) s

/-- Offer placement again later, unless that is already due earlier. -/
def recheck (s : State) (die n : Nat) : State :=
  if s.timers.any (fun t => t.ev == .dispatch die && decide (t.due ≤ s.clock + n)) then s else after s n (.dispatch die)

/-- What follows when a candidate stays unplaced (R261, R263): the longest-parked free strand is evicted, then the watchdog acts; meanwhile the die looks again. -/
def relieve (s : State) (die : Nat) : State :=
  let xs := (allNeeds s).filter fun x => x.die == die && unplaced s x
  if xs.isEmpty then s
  else
    let parked := (allStrands s).filter fun t => t.loc.isSome && coreDie (coreOf t) == die && t.st == .parked
    let free := parked.filter fun t => (replicasOf s t).all (evictable s)
    let busy := parked.any fun t => t.halted
    let first := free.foldl (fun (o : Option Strand) t => match o with
      | none => some t
      | some u => if t.parkedAt < u.parkedAt then some t else some u) none
    let s1 := match (if busy || !xs.any (wantsRoom s) then none else first) with
      | some t => after s 0 (.eviction t.sid)
      | none => match dogChoice s with
        | some g => if s.timers.any (fun t => t.ev == .watchdogPreempt g.gid) then s else after s 0 (.watchdogPreempt g.gid)
        | none => s
    let due := parked.foldl (fun m t => (([t.parkedAt + 2600, t.parkedAt + 13001].filter fun x => decide (s.clock < x)).foldl min m)) (s.clock + 2600)
    recheck s1 die (due - s.clock)

/-- DISPATCH (R254): READY free strands are picked up first (R259); then Gust takes the queues in order and places the first candidate that can be placed. -/
def execDispatch (die : Nat) (s : State) : Out State :=
  .next (
    let s := linkQueue s die
    match pickable s die with
    | some p => after (after s 0 (.pickUp p.1 p.2)) 0 (.dispatch die)
    | none =>
      let s0 := match unreadRecord s die with
        | some e => holdOnce s e.1 e.2 6 (.dispatch die)
        | none => s
      let s1 := markWaits s0 die
      let r := offerQueues die (queueOrder s1 die) [] s1
      if r.1 then after r.2 0 (.dispatch die) else (upto 8).foldl relieve r.2)

/-! ## The end of a strand and of a task (R103, R253) -/

/-- Skip the tickets that a strand holds (R298). -/
def dropTickets (s : State) (t : Strand) : State :=
  match gangOf s t with
  | none => s
  | some g =>
    if !isWindward s g then s
    else t.tickets.foldl (fun s k => match chanOf g k.1 with
      | .send x => skipTicket s g.job x.peer k.2
      | _ => s) s

/-- STRAND_DONE (R103): once every awaited operation has delivered, the strand releases the array, is DONE, and its context is free; its other operations are withdrawn. -/
def execStrandDone (sid : Nat) (s : State) : Out State :=
  .next (
    match getStrand s sid with
    | none => s
    | some t =>
      if !t.cdone || t.remain != .exit || awaitedOut s t || t.st != .parked || t.heldTrap.isSome || t.mark.isSome then s
      else
        let u := { t with st := StrandSt.done, cdone := false, remain := .none, parkid := none, waitset := none }
        match devWriteAll s (asidOf s t) [(t.crec, crecBytes u (identOf s u))] with
        | .error e => holdEvent s e (asidOf s t) 7 (some sid) (.strandDone sid)
        | .ok s1 =>
          let core := coreOf t
          let s2 := if (getArray s1 core).holder == some sid then releaseArray s1 core else s1
          let s3 := dropTickets s2 t
          let s4 := updGang s3 t.gid fun g => { g with recvs := g.recvs.filter fun o => o.sid != sid }
          let s5 := updCore s4 core fun c => { dropLoopBuf c sid with array := { c.array with waiting := c.array.waiting.filter fun w => w.1 != sid } }
          let s6 := updStrand s5 sid fun _ => { u with loc := none, tickets := [], halted := false }
          let s7 := { s6 with farLoads := s6.farLoads.filter fun l => l.sid != sid }
          let s8 := match getGang s7 t.gid with
            | some g => if (g.strands.filterMap (getStrand s7)).all (fun x => x.st == .done) then after s7 0 (.taskCompletion g.gid) else s7
            | none => s7
          kickDies s8)

/-- Free a gang's part of the save pool. -/
def freePool (s : State) (g : Gang) : State :=
  updJob s g.job fun j => { j with pool := j.pool.filter fun p => !(decide (p.1 ≤ (g.save - j.save).toNat) && decide ((g.save - j.save).toNat < p.1 + p.2)) }

/-- A gang retires: its strands, its part of the pool and its channels are gone (R397). -/
def retireGang (s : State) (g : Gang) : State :=
  let held := g.chans.toList.flatMap fun c => match c with
    | .recv e => e.held
    | _ => []
  let s0 := held.foldl dropMsg s
  let s1 := freePool s0 g
  let gs := s1.gangs.filter fun x => x.gid != g.gid
  let s2 : State := { s1 with
    gangs := gs
    pool := s1.pool.filter fun t => t.gid != g.gid
    me := if s1.me.gid = g.gid then Strand.none else s1.me
    rsets := s1.rsets.filter fun r => gs.any fun x => x.rset == some r.id }
  preemptDone (kickDies s2) g.gid false

/-- Decrement WAITC of the next successor (R253); one already at 0 stays 0. None when all are decremented. -/
def decOne (s : State) (g : Gang) : Except GustFault (Option State) :=
  if g.task.nsucc ≤ g.succDone then .ok none
  else
    let asid := gangAsid s g
    match devRead s asid (g.task.succ + BitVec.ofNat 64 (8 * g.succDone)) 8 with
    | .error e => .error (6, e)
    | .ok bs =>
      let a := wordAt bs 0 + 20
      match devRead s asid a 2 with
      | .error e => .error (6, e)
      | .ok w =>
        match (if leNat w = 0 then .ok s else devWrite s asid a (leBytes 2 (leNat w - 1))) with
        | .error e => .error (7, e)
        | .ok s1 => .ok (some (updGang s1 g.gid fun g => { g with succDone := g.succDone + 1 }))

/-- The handler of a job has ended (R373). -/
def handlerEnds (s : State) (g : Gang) : State :=
  { s with jobs := s.jobs.map fun k => if k.handler = g.record ∧ k.hdie = g.die ∧ k.hq = g.queue then { k with handlerLive := false } else k }

/-- The replicas of a gang's set that were outvoted or lost (R361). -/
def lostGangs (s : State) (g : Gang) : List Gang := match rsetOf s g with
  | some r => r.lost.filterMap (getGang s)
  | none => []

/-- TASK_COMPLETION (R253): Gust reports the completion, then decrements the successors one by one, and the gang retires. A leeward gang retires without a report (R359). -/
def execTaskCompletion (gid : Nat) (s : State) : Out State :=
  .next (
    match getGang s gid with
    | none => s
    | some g =>
      if !(g.strands.filterMap (getStrand s)).all (fun t => t.st == .done) then s
      else if !isWindward s g then retireGang s g
      else
        let s0 := updGang s gid fun g => { g with completed := true }
        if !g.reported then
          let r := reportTask s0 g.job g.task g.poison (.taskCompletion gid)
          match r.1 with
          | none => r.2
          | some s1 => after (updGang s1 gid fun g => { g with reported := true }) 0 (.taskCompletion gid)
        else
          match decOne s0 g with
          | .error e => holdEvent s0 e.2 (gangAsid s g) e.1 none (.taskCompletion gid)
          | .ok (some s1) => kickDies (after s1 0 (.taskCompletion gid))
          | .ok none => (g :: lostGangs s0 g).foldl retireGang (handlerEnds s0 g))

end Sys2Proof.Machine
end

