-- ==== Sys2Proof/Machine/Pager.lean ====
section
/-! DEFINITION. Deliveries as events (R21), the end of a sleep (R101), held trap events (R372), and what the pager writes to a die: shoot-downs (R341), releases and forwarded events (R343). -/

namespace Sys2Proof.Machine

/-- DELIVERY: a producer's value or poison has arrived with its tag before the bundles of this ck, one of which may read it (R21, R90). -/
def execDelivery (sid : Nat) (t : Tag) (x : Payload) (s : State) : Out State := .next (deliverAt s.clock s sid t x)

/-- SLEEP_END: a strand's SLEEP is over; it is ready again (R101). -/
def execSleepEnd (sid : Nat) (s : State) : Out State :=
  .next (updStrand s sid fun t => if t.asleep && decide (t.notBefore ≤ s.clock) then { t with asleep := false } else t)

/-- A RESUME whose strand's records have been waited for is made again; a leeward comes into line with its windward (R119, R435). -/
def resumeAgain (s : State) (t : Strand) : State :=
  if windward s t then resumeStrand s t.sid
  else match (replicasOf s t).head? with
    | some w => resumeOne s t.sid (alignTo w)
    | none => resumeOne s t.sid id

/-- Make again what a job's strands and barriers still wait to have written or read: trap records, records of a RESUME, barriers of a saved gang (R290, R433). -/
def writeHeld (s : State) (job : Nat) : State :=
  let ts := (allStrands s).filter fun t => jobNum s t == job
  let s1 := (ts.filter fun t => t.heldTrap.isSome && t.closing.isNone).foldl (fun s t => saveTrap s t.sid) s
  let s2 := (ts.filter fun t => t.resuming).foldl resumeAgain s1
  (s2.gangs.filter fun g => g.job == job).foldl (fun s g => g.unsaved.foldl (fun s k => saveBarrier s g.gid k) s) s2

/-- HELD_EVENT_ENTRY: what the job's strands and barriers wait to have written is written, then the held events of the job enter its ring while it has room (R372, R433). -/
def execHeldEventEntry (job : Nat) (s : State) : Out State :=
  .next (
    let s1 := writeHeld s job
    match getJob s1 job with
    | some j => enterEvents (j.held.length + 1) s1 job
    | none => s1)

/-! ## Shoot-downs (R341) -/

/-- The level whose pages a request's SZ names (R341). -/
def shootLevel (w1 : Word) : Nat :=
  match wbits w1 14 2 with
  | 0 => 3
  | 1 => 2
  | _ => 1

/-- Whether a request covers an offset of an address space (R341). -/
def shootCovers (w0 w1 : Word) (asid off : Nat) : Bool :=
  match wbits w1 12 2 with
  | 0 => asid == wbits w1 0 12 && off >>> pageBits (shootLevel w1) == wbits w0 0 45 >>> pageBits (shootLevel w1)
  | 1 => asid == wbits w1 0 12
  | 2 => true
  | _ => false

/-- Whether a request removes a TLB entry: for one page, the entry of that page. -/
def shootEntry (w0 w1 : Word) (e : TlbEnt) : Bool :=
  if wbits w1 12 2 = 0 then e.level == shootLevel w1 && shootCovers w0 w1 e.asid (e.page <<< pageBits e.level) else shootCovers w0 w1 e.asid (e.page <<< pageBits e.level)

/-- Forget what events that still wait have been answered for pages that a request covers (R341). -/
def dropGot (s : State) (die : Nat) (w0 w1 : Word) : State :=
  { s with got := s.got.filter fun g => !(!isRemote s g.va && farDie g.va == die && shootCovers w0 w1 g.asid (farOff g.va)) }

/-- Accept a shoot-down at a die's port: G rises and the matching entries leave the TLB in this ck (R341). The G of the request. -/
def acceptShoot (s : State) (die : Nat) (w0 w1 : Word) : BitVec 32 × State :=
  let g := (getDie s die).gen + 1
  (g, later (updDie (dropGot s die w0 w1) die fun d => { d with gen := g, tlb := d.tlb.filter fun e => !shootEntry w0 w1 e, shoots := d.shoots ++ [⟨g, w0, w1⟩] }) (.shootDownPerformed die g))

/-- SHOOT_DOWN_REQUEST (R341). -/
def execShootDownRequest (die : Nat) (w0 w1 : Word) (s : State) : Out State := .next (acceptShoot s die w0 w1).2

/-- Whether a generation is older than another (R340). -/
def olderGen (a g : BitVec 32) : Bool := a != g && !(g - a).msb

/-- Whether an address of this package is covered by a request at a die. -/
def shootHits (s : State) (die : Nat) (w0 w1 : Word) (asid : Nat) (va : Word) : Bool := !isRemote s va && farDie va == die && shootCovers w0 w1 asid (farOff va)

/-- Whether a strand's reservations at a die are from before a generation (R341). -/
def oldReservation (die : Nat) (g : BitVec 32) (t : Strand) : Bool :=
  match t.closing with
  | none => false
  | some c => c.phase != .atIssue && c.phase != .tentative && c.gen.any fun p => p.1 == die && olderGen p.2 g

/-- Whether a copy of a strand holds a translation that a request covers (R232). -/
def oldCopy (s : State) (die : Nat) (w0 w1 : Word) (c : CopyOp) : Bool :=
  match getStrand s c.sid with
  | some t => c.xl.any fun p => shootHits s die w0 w1 (asidOf s t) p.1
  | none => false

/-- Whether everything that a shoot-down waits for is done (R341). -/
def shootReady (s : State) (die : Nat) (x : ShootDown) : Bool :=
  let d := getDie s die
  !(d.walks.any fun w => olderGen w.gen x.gen) && !((allStrands s).any (oldReservation die x.gen)) &&
  !(s.resvs.any fun r => r.gen.any fun p => p.1 == die && olderGen p.2 x.gen) &&
  !(s.reqs.any fun r => match r.what with
    | .load _ va _ => !isRemote s va && farDie va == die
    | .atomic id => s.farAtoms.any fun a => a.id == id && !isRemote s a.va && farDie a.va == die
    | .got (.flitForward _) _ _ | .devWrite (.frameWrite _ _ _) => true
    | .got _ _ va => !isRemote s va && farDie va == die
    | _ => false) && !(s.devOut.any fun w => match w.2 with
    | .frameWrite _ _ _ => true
    | _ => false) &&
  !(s.cores.any fun k => k.copies.any (oldCopy s die x.w0 x.w1)) &&
  !((allStrands s).any fun t => match t.closing with
    | some c => c.post.any fun p => match p with
      | .copy y => oldCopy s die x.w0 x.w1 y
      | _ => false
    | none => false)

/-- SHOOT_DOWN_PERFORMED: once it is the oldest and nothing holds it back, the cores drop their instruction lines and the port reports G (R341, R308). -/
def execShootDownPerformed (die : Nat) (g : BitVec 32) (s : State) : Out State :=
  .next (
    match (getDie s die).shoots with
    | [] => s
    | x :: xs =>
      if !((getDie s die).shoots.any fun y => y.gen == g) then s
      else if x.gen != g || !shootReady s die x then later s (.shootDownPerformed die g)
      else
        let s1 : State := { dropGot s die x.w0 x.w1 with cores := s.cores.map fun c => { c with icache := c.icache.filter fun e => !shootHits s die x.w0 x.w1 e.1 e.2.1 } }
        updDie s1 die fun d => { d with shoots := xs, shootDone := d.shootDone ++ [g] })

/-! ## Descriptors (R343) -/

/-- Make one held access of a descriptor again (R343, R433). -/
def retryHeld (die : Nat) (seq : BitVec 32) (s : State) (h : HeldOp) : State :=
  match h with
  | .event i => after s 0 i
  | .atomic id =>
    match (s.farAtoms.find? fun a => a.id == id && a.held == some seq && farDie a.va == die) with
    | none => s
    | some _ =>
      match execAtomicPlacement id { s with farAtoms := s.farAtoms.map fun a => if a.id = id then { a with held := none } else a } with
      | .next s1 => s1
      | _ => s
  | .resume sid => match getStrand s sid with
    | some t => resumeAgain s t
    | none => s
  | .resumeAt asid va => resumeAt s asid va

/-- Whether a held request, made again, has neither been placed nor faulted again (R343). -/
def stillOut (s : State) (h : HeldOp) : Bool :=
  match h with
  | .event i => evRuns s i
  | .atomic id => s.farAtoms.any fun a => a.id == id && a.held.isNone
  | .resume sid => match getStrand s sid with
    | some t => t.resuming
    | none => false
  | .resumeAt _ _ => false

/-- DESCRIPTOR_RELEASE: the owner makes every held access again, and the port reports SEQ once each has been placed or has faulted again (R343). -/
def execDescriptorRelease (die : Nat) (seq : BitVec 32) (s : State) : Out State :=
  .next (
    let report (s : State) : State := updDie s die fun d => { d with descs := d.descs.filter (fun y => y.seq != seq), released := d.released ++ [seq] }
    match (getDie s die).descs.find? (fun d => d.seq == seq) with
    | none => report s
    | some x =>
      if x.held.isEmpty || (x.releasing && !x.held.any (stillOut s)) then report s
      else if x.releasing then after s 1 (.descriptorRelease die seq)
      else
        let s1 := updDie s die fun d => { d with descs := d.descs.map fun y => if y.seq = seq then { y with releasing := true } else y }
        after (x.held.foldl (retryHeld die seq) s1) 0 (.descriptorRelease die seq))

/-- PAGER_FORWARD: an event that the pager has not resolved is entered into the job's trap queue (R343, R369). -/
def execPagerForward (die : Nat) (seq : BitVec 32) (s : State) : Out State :=
  .next (
    match (getDie s die).descs.find? (fun d => d.seq == seq) with
    | none => s
    | some x =>
      match x.away with
      | some w => sendPacket (updDie s die fun d => { d with descs := d.descs.map fun y => if y.seq = seq then { y with away := none } else y }) w.1 0 (.forward w.2)
      | none =>
      match x.trap, x.sid.bind (getStrand s) with
      | some r, some t =>
        let s1 := updDie s die fun d => { d with descs := d.descs.map fun y => if y.seq = seq then { y with trap := none } else y }
        postEvent s1 (jobNum s t) (trapPlace s t) [t.trec] (trapBytes r t (identOf s t))
      | _, _ => s)

end Sys2Proof.Machine
end

