-- ==== Sys2Proof/Machine/ReplicaEng.lean ====
section
/-! DEFINITION. Replica sets at their comparison points (R356), agreed values (R357), the dual and the triple rule (R360, R361), lost replicas (R362) and mismatch events (R364). -/

namespace Sys2Proof.Machine

/-- A replica set. -/
def getRSet (s : State) (id : Nat) : Option RSet := s.rsets.find? fun r => r.id == id

/-- The strands of a set with a logical index, in the live replicas, windward first. -/
def setStrandsAt (s : State) (r : RSet) (lidx : BitVec 6) : List Strand := ((liveGids r).filterMap (getGang s)).filterMap fun g => twin s g lidx

/-- Update the strands of a list. -/
def updAll (s : State) (ts : List Strand) (f : Strand → Strand) : State := ts.foldl (fun s t => updStrand s t.sid f) s

/-! ## The event of R364 -/

/-- Why a comparison failed. -/
inductive MismatchIs where
  | differ | trapped | lost
deriving DecidableEq, Repr

/-- Code of a reason. -/
def MismatchIs.code : MismatchIs → Nat
  | .differ => 0
  | .trapped => 1
  | .lost => 2

/-- The slot mask of the operation that is compared (R364). -/
def mismatchMask (ts : List Strand) : BitVec 8 :=
  match ts.findSome? (fun t => t.closing.map (·.mask)) with
  | some m => m
  | none => match ts.findSome? (·.heldTrap) with
    | some r => r.mask
    | none => 0

/-- Whether a trap is what a strand offers for comparison (R363); one that waits for its bundle's commit point is not. -/
def offersTrap (t : Strand) : Bool := t.heldTrap.isSome && t.closing.isNone

/-- The bundle that is compared. -/
def mismatchBundle (t : Strand) : Word := match t.heldTrap with
  | some r => if t.closing.isNone then r.bundle else t.pc
  | none => t.pc

/-- The 64 bytes of a mismatch event, its number not yet given (R364). `out` is the outvoted gang, none when the event is fatal. -/
def mismatchBytes (s : State) (w : Strand) (mask : BitVec 8) (reason : MismatchIs) (out : Option Gang) (repln : Nat) : List Byte :=
  let i := identOf s w
  let o := match out with
    | some g => (g.ridx.toNat, g.die, g.cluster)
    | none => (0, 0, 0)
  let sig := w.sig.getD 0
  [packWord [(9, 0), (if out.isNone then 1 else 0, 8), (reason.code, 9), (mask.toNat, 16), (o.1, 24), (repln, 26), (o.2.1, 28), (o.2.2, 31)],
   mismatchBundle w, packWord [(w.window.toNat, 0), (w.ordinal % 2 ^ 32, 32)], packWord [(i.taskn, 0), (i.jobn, 32), (w.lidx.toNat, 48)], w.crec,
   sig.extractLsb' 0 64, sig.extractLsb' 64 64, 0].flatMap wordBytes

/-- Post a mismatch event for the windward strand. -/
def postMismatch (s : State) (w : Strand) (ts : List Strand) (reason : MismatchIs) (out : Option Gang) (repln : Nat) : State :=
  let mask := mismatchMask ts
  postEvent s (jobNum s w) (trapPlace s w) [] (mismatchBytes s w mask reason out repln)

/-! ## The dual rule (R360) -/

/-- Discard the window of one strand for a retry: it continues at CPT, RUNNING. -/
def retryStrand (s : State) (sid : Nat) : State :=
  let s1 := forgetAgreed (discardWindow s sid) sid
  updStrand s1 sid fun t =>
    { t with pc := t.cpt, st := .running, heldTrap := none, parkid := none, tries := t.tries + 1, readyAt := s.clock + 1, notBefore := s.clock + 1 }

/-- A strand traps REPLICA_MISMATCH at CPT; one whose window is being performed traps once that is done. -/
def mismatchTrap (s : State) (sid : Nat) : State :=
  match getStrand s sid with
  | none => s
  | some t =>
    let rec_ (t : Strand) : TrapRec := ⟨.replicaMismatch, 0, 0, t.cpt, t.window, 0⟩
    let performs : Bool := match t.closing with
      | some c => c.phase == .perform || c.phase == .answer || t.verdict
      | none => false
    if t.st == .done || t.st == .faulted then s
    else if performs then updStrand s sid fun t => { t with heldTrap := some (rec_ t) }
    else
      let u := frameView s t
      let s1 := forgetAgreed (discardWindow (updStrand s sid fun _ => u) sid) sid
      let s2 := updStrand s1 sid fun t => { t with heldTrap := none }
      takeTrapOn s2 sid (rec_ u) u.cpt

/-- Every strand of every replica traps, one fatal event is posted, and the completion will be poisoned (R360). -/
def fatalMismatch (s : State) (r : RSet) (ts : List Strand) (reason : MismatchIs) : State :=
  let gs := (liveGids r).filterMap (getGang s)
  match ts.head? with
  | none => s
  | some w =>
    let s1 := postMismatch s w ts reason none gs.length
    let s2 := gs.foldl (fun s g => updGang s g.gid fun g => { g with poison := some .mismatch }) s1
    (gs.flatMap (·.strands)).foldl mismatchTrap s2

/-- The dual rule: one more try of the same comparison point, then the fatal trap (R360). -/
def dualRule (s : State) (r : RSet) (ts : List Strand) : State :=
  let reason : MismatchIs := if ts.any offersTrap then .trapped else .differ
  if ts.any (fun t => decide (1 ≤ t.tries)) then fatalMismatch s r ts reason
  else (ts.map (·.sid)).foldl retryStrand s

/-! ## The triple rule (R361) -/

/-- The records of a retired replica: STATE DONE, NEXT the comparison bundle. -/
def retiredStrand (at_ : Word) (t : Strand) : Strand :=
  { t with st := StrandSt.done, pc := at_, cdone := false, remain := .none, parkid := none, waitset := none, choice := none, closing := none, heldTrap := none
           gated := [], sig := none, late := none, tickets := [] }

/-- Retire the strands of the outvoted gang: contexts, arrays and near memory are free, nothing is checkpointed (R361). -/
def retireReplica (s : State) (g : Gang) (at_ : Word) : Except XFault State :=
  let ts := (g.strands.filterMap (getStrand s)).filter fun t => t.st != .done
  let us := ts.map (retiredStrand at_)
  match devWriteAll s (gangAsid s g) (us.map fun u => (u.crec, crecBytes u (identOf s u))) with
  | .error e => .error e
  | .ok s1 =>
    let s2 := ts.foldl (fun s t => match t.closing with
      | some c => releaseRemote s t.sid c
      | none => s) s1
    let s3 := (heldArrays s2 g).foldl (fun s a => leaveArray s a.2) s2
    let s4 := ts.foldl leaveCore s3
    let mine (sid : Nat) : Bool := g.strands.contains sid
    let s5 := us.foldl (fun s u => updStrand s u.sid fun _ => { u with loc := none }) s4
    let s6 : State := { s5 with
      farLoads := s5.farLoads.filter fun l => !mine l.sid
      farAtoms := s5.farAtoms.filter fun a => a.sent || !mine a.sid
      nearOps := s5.nearOps.filter fun o => !mine o.sid
      cores := s5.cores.map fun c => { c with copies := c.copies.filter fun x => !(mine x.sid && caNear x.dst) } }
    .ok (updGang s6 g.gid fun g => { g with alloc := [], completed := true })

/-- A name of an operation of the old windward under the new one: strand and tag, as the mirror of its future says. -/
def heirOf (s : State) (h : Gang) (sid : Nat) (tag : Option Tag) : Option (Nat × Tag) :=
  match tag with
  | none => none
  | some t => (s.mirrors.find? fun m => m.1 == sid && m.2.1 == t && h.strands.contains m.2.2.1).map fun m => (m.2.2.1, m.2.2.2)

/-- Rename an operation's future from the old windward to the new one, with the mirrors that remain. -/
def rename (s : State) (h : Gang) (sid : Nat) (tag : Option Tag) : State :=
  match heirOf s h sid tag, tag with
  | some n, some t => { s with mirrors := (s.mirrors.filter fun m => !(m.1 == sid && m.2.1 == t && m.2.2.1 == n.1)).map fun m => if m.1 == sid && m.2.1 == t then (n.1, n.2, m.2.2.1, m.2.2.2) else m }
  | _, _ => s

/-- The twin of a strand in another gang. -/
def twinSid (s : State) (h : Gang) (sid : Nat) : Nat := match (getStrand s sid).bind fun t => twin s h t.lidx with
  | some u => u.sid
  | none => sid

/-- The channels and waiting receives of the old windward pass to the new one (R359, R361). -/
def passChannels (s : State) (o h : Gang) : State :=
  let recvs := o.recvs.map fun r => match heirOf s h r.sid r.tag with
    | some n => { r with sid := n.1, tag := some n.2 }
    | none => { r with sid := twinSid s h r.sid }
  let chans := o.chans.map fun c => match c with
    | .send e => Chan.send { e with ops := e.ops.map fun x => match heirOf s h x.sid x.tag with
        | some n => { x with sid := n.1, tag := some n.2 }
        | none => x }
    | c => c
  let s1 := updGang s h.gid fun h => { h with chans := chans, recvs := recvs }
  let names := o.recvs.map (fun r => (r.sid, r.tag)) ++ o.chans.toList.flatMap fun c => match c with
    | .send e => e.ops.map fun x => (x.sid, x.tag)
    | _ => []
  names.foldl (fun s n => rename s h n.1 n.2) s1

/-- A strand of the new windward goes on as a windward: at a comparison it starts its own tentative phase; agreed values of its own stand (R361). -/
def promote (s : State) (sid : Nat) : State :=
  match getStrand s sid with
  | none => s
  | some t =>
    let s1 := match t.closing with
      | some c =>
        if c.phase == .compare && !t.verdict then
          later (updStrand s sid fun t => { t with sig := none, closing := some { c with phase := .tentative } }) (.windowTentativePhase sid)
        else s
      | none => s
    (t.agreeWait.filter fun a => a.2.2.2.isSome).foldl (fun s a => match a.2.2.2 with
      | some x => sendAgreed (deliverAll (s.clock + 1) (dropAgree s sid a.2.2.1) sid a.2.2.1 x) t a.1 a.2.1 x
      | none => s) s1

/-- The new windward takes its place: index 0, the channels, its strands at their comparisons. -/
def takeOver (s : State) (o h : Gang) : State :=
  let s1 := updGang (passChannels s o h) h.gid fun h => { h with ridx := 0, reported := o.reported, succDone := o.succDone }
  h.strands.foldl promote s1

/-- Compare every strand of a set again: some may have waited for the retired replica alone (R361). -/
def compareAll (s : State) (r : RSet) (n : Nat) : State := (upto n).foldl (fun s i => after s 0 (.signatureComparison r.id (BitVec.ofNat 6 i))) s

/-- The triple rule: replica `o` is outvoted or lost; the others become a pair (R361, R362). -/
def outvote (s : State) (r : RSet) (ts : List Strand) (o : Gang) (reason : MismatchIs) : Except XFault State :=
  let wasWind := isWindward s o
  let at_ := match ts.find? (fun t => t.gid != o.gid) with
    | some t => mismatchBundle t
    | none => 0
  match retireReplica s o at_ with
  | .error e => .error e
  | .ok s1 =>
    let s2 : State := { s1 with rsets := s1.rsets.map fun x => if x.id = r.id then { x with lost := x.lost ++ [o.gid] } else x }
    let s3 := updDie s2 o.die fun d => { d with suspect := d.suspect ||| BitVec.ofNat 3 (2 ^ o.cluster) }
    let hs := ((r.gids.filter fun g => g != o.gid && !r.lost.contains g).filterMap (getGang s3))
    let s4 := hs.foldl (fun s h => updGang s h.gid fun h => { h with repl := 2 }) s3
    match hs.head? with
    | none => .ok s4
    | some h =>
      let w := (ts.find? fun t => t.gid == h.gid).getD Strand.none
      let s5 := postMismatch s4 w ts reason (some o) 2
      let s6 := if wasWind then takeOver s5 o h else s5
      let s7 := if wasWind then (h.strands.filterMap (getStrand s6)).foldl (fun s t => if t.late.isSome then after s 13000000 (.replicaLost r.id 0) else s) s6 else s6
      .ok (kickDies (compareAll s7 r o.task.nstr))

/-! ## Comparison (R356, R363) -/

/-- All replicas agree: the windward performs the release of a commit point (R356), or each replica is suspended by its trap and the windward posts one (R363). -/
def agreed_ (s : State) (ts : List Strand) : State :=
  match ts with
  | [] => s
  | w :: _ =>
    if offersTrap w then
      let s1 := updAll s ts fun t => { t with sig := none, late := none, tries := 0 }
      ts.foldl (fun s t => saveTrap s t.sid) s1
    else
      let s1 := updStrand s w.sid fun t => { t with sig := none, late := none, closing := t.closing.map fun c => { c with phase := .perform } }
      after s1 0 (.windowPerform w.sid)

/-- The gang whose signature differs from two equal ones. -/
def oddOne (ts : List Strand) : Option Strand :=
  match ts with
  | [a, b, c] => if a.sig = b.sig ∧ b.sig ≠ c.sig then some c else if a.sig = c.sig ∧ b.sig ≠ c.sig then some b else if b.sig = c.sig ∧ a.sig ≠ b.sig then some a else none
  | _ => none

/-- SIGNATURE_COMPARISON: once every live replica's signature for the ordinal is there, they are compared (R356, R360, R361, R363). -/
def execSignatureComparison (rset : Nat) (lidx : BitVec 6) (s : State) : Out State :=
  .next (
    match getRSet s rset with
    | none => s
    | some r =>
      let ts := setStrandsAt s r lidx
      if ts.isEmpty || ts.any (fun t => t.sig.isNone || t.verdict) then s
      else if ts.all (fun t => t.sig == (ts.head?.bind (·.sig))) then agreed_ s ts
      else
        match oddOne ts with
        | none => dualRule s r ts
        | some t =>
          match gangOf s t with
          | none => s
          | some g =>
            let reason : MismatchIs := if ts.any offersTrap then .trapped else .differ
            match outvote s r ts g reason with
            | .error e => holdOnce s e (asidOf s t) 7 (.signatureComparison rset lidx)
            | .ok s1 => s1)

/-- REPLICA_GO: a leeward frees its gated entries without performing them and completes the commit point (R356). -/
def execReplicaGo (sid : Nat) (s : State) : Out State :=
  .next (
    match getStrand s sid with
    | none => s
    | some t =>
      match t.closing with
      | some c => if t.verdict && c.phase == .compare then finishCommit s sid else s
      | none => s)

/-- Whether the die-to-die path from a replica's windward has failed (R362). -/
def pathGone (s : State) (g : Gang) : Bool := match (rsetOf s g).bind fun r => (liveGids r).head?.bind (getGang s) with
  | some w => s.mapped.contains (.diePath w.die g.die) || s.mapped.contains (.diePath g.die w.die)
  | none => false

/-- Whether a replica's unit, or the path to it, has failed (R362); a saved replica has no cluster. -/
def unitGone (s : State) (g : Gang) : Bool :=
  s.mapped.contains (.die g.die) || pathGone s g || (g.saved.isNone && (clusterOut s g.die g.cluster || g.alloc.any fun a => coreGone s a.1))

/-- REPLICA_LOST: a replica whose unit has failed, or that is 13,000,000 ck late, is outvoted, or makes a pair fatal (R362). -/
def execReplicaLost (rset idx : Nat) (s : State) : Out State :=
  .next (
    match getRSet s rset with
    | none => s
    | some r =>
      match ((liveGids r).filterMap (getGang s)).find? (fun g => g.ridx.toNat == idx) with
      | none => s
      | some g =>
        let mine := g.strands.filterMap (getStrand s)
        let late := mine.filter fun t => t.late.isSome
        let most := late.foldl (fun m t => max m (t.late.getD 0)) 0
        let gone := unitGone s g
        match (if gone then mine.find? fun t => t.st != .done else none).or (late.find? fun t => decide (13000000 ≤ t.late.getD 0)) with
        | none => if late.isEmpty then s else after s (13000000 - most) (.replicaLost rset idx)
        | some t =>
          let ts := setStrandsAt s r t.lidx
          if ts.length < 3 then fatalMismatch s r ts .lost
          else
            match outvote s r ts g .lost with
            | .error e => holdOnce s e (asidOf s t) 7 (.replicaLost rset idx)
            | .ok s1 => s1)

/-- AGREED_VALUE_ARRIVAL: the windward's value reaches a leeward and fills its destination under its own tag (R357). -/
def execAgreedValueArrival (sid ord n : Nat) (x : Payload) (s : State) : Out State :=
  .next (
    match getStrand s sid with
    | none => s
    | some t =>
      if t.st == .done then s
      else
        let s1 := updStrand s sid fun t => { t with agreed := t.agreed ++ [(ord, n, x)] }
        match t.agreeWait.find? (fun a => a.1 == ord && a.2.1 == n && a.2.2.2.isSome) with
        | some a => deliverAll (s.clock + 1) (dropAgree s1 sid a.2.2.1) sid a.2.2.1 x
        | none => s1)

end Sys2Proof.Machine
end

