-- ==== Sys2Proof/Machine/HostBoot.lean ====
section
/-! DEFINITION. Bring-up and the host (R416, R417, R419 to R432): units that report ready or are mapped out, boot, BAR0 and the command ring, the commands of R427, power, SPDM. -/

namespace Sys2Proof.Machine

/-! ## Units (R416, R431) -/

/-- READYMAP bit of a cluster (R26). -/
def clusterBit (d c : Nat) : Nat := 3 * d + c

/-- READYMAP bit of a stack (R26). -/
def stackBit (d : Nat) : Nat := 24 + d

/-- READYMAP bit of the host link (R26). -/
def linkBit : Nat := 48

/-- Whether firmware runs: STAGE is 3 (R419). -/
def firmware (s : State) : Bool := s.bar0.stage == 3

/-- Whether a READYMAP bit is set. -/
def readyBit (s : State) (b : Nat) : Bool := s.ready.toNat.testBit b

/-- Whether a compute die is ready: one of its clusters or its stack is (log 23). -/
def dieReady (s : State) (d : Nat) : Bool := (upto 3).any (fun c => readyBit s (clusterBit d c)) || readyBit s (stackBit d)

/-- UNIT_READY_REPORT (R416, R422): a unit that has not been mapped out sets its bit; a cluster binds its mesh (R256); a port may be enabled. -/
def execUnitReadyReport (u : HwUnit) (s : State) : Out State :=
  .next (
    match u with
    | .cluster d c =>
      if !firmware s || 8 ≤ d || 3 ≤ c || clusterOut s d c then s
      else kickDies { setReady s (clusterBit d c) true with meshes := putKey Prod.fst (3 * d + c, lostCores s d c) s.meshes }
    | .stack d => if !firmware s || 8 ≤ d || s.mapped.contains (.stack d) || s.mapped.contains (.die d) then s else setReady s (stackBit d) true
    | .port p => if firmware s && portThere s p then updPort s p fun x => { x with ready := true } else s
    | .hostLink => if s.bar0.stage = 0 then s else setReady s linkBit true
    | .core _ _ _ | .die _ | .ioDie _ | .lanes _ _ | .diePath _ _ | .line _ => s)

/-- Poison ENGINE the near loads and atomics on their way to a mapped-out core's slice (R282). -/
def engineNear (s : State) (core : Nat) : State :=
  let ls := s.nearLoads.filter fun l => l.core == core
  let s1 := dropEvents { s with nearLoads := s.nearLoads.filter fun l => l.core != core } fun e => match e with
    | .delivery sid t _ => ls.any fun l => l.sid == sid && l.tag == t
    | _ => false
  let s2 := (ls.map fun l => (l.sid, l.tag)).dedup.foldl (fun s l => deliverNow s l.1 (some l.2) (.poison .engine)) s1
  s2.nearOps.foldl (fun s o => match o.what with
    | .atomic _ _ _ t => if o.sent && nearCore o == core then deliverNow (clearFence { s with nearOps := s.nearOps.filter fun x => x.id != o.id } o.sid o.id) o.sid t (.poison .engine) else s
    | _ => s) s2

/-- Poison ENGINE what a mapped-out core still owes (R282): near accesses to its slice, array commands and copies. -/
def engineCore (s : State) (core : Nat) : State :=
  let c := getCore s core
  let s1 := c.copies.foldl (fun s x => endCopy s core x .engine) (engineNear s core)
  let s2 := c.array.cmds.foldl (fun s x => deliverNow s x.sid x.tag (.poison .engine)) s1
  updCore s2 core fun c => { c with array := { c.array with cmds := [], pipe := [] } }

/-- Poison ENGINE every SEND whose receive end stands on a gone core's gang (R282). -/
def engineSends (s : State) (gone : Gang → Bool) : State :=
  s.gangs.foldl (fun s g => (upto 64).foldl (fun s c =>
    match sendEnd s g.gid (BitVec.ofNat 6 c) with
    | none => s
    | some (_, x) =>
      match (if ownDev s x.peer.dev then findRecv s g.job x.peer else none) with
      | some (h, _) =>
        if gone h then x.ops.foldl (fun s o => deliverNow s o.sid o.tag (.poison .engine)) (putChan s g.gid (BitVec.ofNat 6 c) (.send { x with ops := [] }))
        else s
      | none => s) s) s

/-- Poison ENGINE the RECVs and RECVAs of gangs whose core is gone (R282). -/
def engineRecvs (s : State) (gone : Gang → Bool) : State :=
  (s.gangs.filter gone).foldl (fun s g => g.recvs.foldl (fun s r => deliverNow s r.sid r.tag (.poison .engine)) (updGang s g.gid fun g => { g with recvs := [] })) s

/-- Poison ENGINE the futures that gangs whose core is gone have in collectives, and every instance whose contribution can no longer be read (R282). -/
def engineColls (s : State) (gone : Gang → Bool) : State :=
  let lost (m : Member) : Bool := match (getStrand s m.sid).bind (gangOf s) with
    | some g => gone g
    | none => false
  s.colls.foldl (fun s c =>
    let s1 := answerAll s c.id lost (.poison .engine)
    if c.members.any fun m => !m.sent && !m.recv && !m.done && lost m then advanceColl (updColl s1 c.id fun c => { c with bad := c.bad.orElse fun _ => some .engine }) c.id
    else s1) s

/-- Poison ENGINE the loads and atomics whose owner is a mapped-out die (R282). -/
def engineDie (s : State) (d : Nat) : State :=
  let s1 := (s.farLoads.filter fun l => l.lanes.any fun x => !isRemote s x.1 && farDie x.1 == d).foldl (fun s l => engineLoad s l.id) s
  (s1.farAtoms.filter fun a => a.sent && !isRemote s a.va && farDie a.va == d).foldl engineAtom s1

/-- Poison ENGINE the copies that hold a translation into a mapped-out stack (R282, R431). -/
def engineStack (s : State) (d : Nat) : State :=
  s.cores.foldl (fun s k => (k.copies.filter fun c => c.xl.any fun x => x.2.2.isNone && x.2.1 / 2 ^ 36 == d).foldl (fun s c => endCopy s k.id c .engine) s) s

/-- What cores, gangs and replicas of a mapped-out unit owe is settled (R282, R362). -/
def settleLost (s : State) : State :=
  let s1 := (s.cores.filter fun c => coreGone s c.id).foldl (fun s c => engineCore s c.id) s
  let dead (g : Gang) : Bool := g.saved.isNone && (clusterOut s g.die g.cluster || g.alloc.any fun a => coreGone s a.1)
  let s2 := engineColls (engineRecvs (engineSends s1 dead) dead) dead
  (s.gangs.filter fun g => g.rset.isSome && unitGone s g).foldl (fun s g => after s 0 (.replicaLost (g.rset.getD 0) g.ridx.toNat)) s2

/-- Take a list of ports DOWN for good. -/
def closePorts (s : State) (ps : List Nat) : State :=
  ps.foldl (fun s p => downPort (updPort s p fun x => { x with enabled := false, ready := false }) p) s

/-- UNIT_MAP_OUT (R416, R431): the unit's bit stays or becomes 0 and what it owes is poisoned ENGINE. An HBM line takes an uncorrectable soft error: its readers are poisoned ENGINE (R282, R307). -/
def execUnitMapOut (u : HwUnit) (s : State) : Out State :=
  .next (
    let s1 : State := if s.mapped.contains u then s else { s with mapped := s.mapped ++ [u] }
    match u with
    | .line a => { s with spoiled := s.spoiled ++ [a] }
    | .cluster d c => settleLost (setReady s1 (clusterBit d c) false)
    | .stack d => engineStack (setReady s1 (stackBit d) false) d
    | .die d =>
      let s2 := (upto 3).foldl (fun s c => setReady s (clusterBit d c) false) (setReady s1 (stackBit d) false)
      settleLost (engineDie (engineStack s2 d) d)
    | .core _ _ _ => settleLost s1
    | .port p => closePorts s1 [p]
    | .lanes p good => if (getPort s p).st == .up && good != (getPort s p).lanes then downPort s1 p else s1
    | .ioDie n =>
      let s2 := closePorts s1 ((upto 8).map (· + 8 * n))
      if n = 0 then { setReady s2 linkBit false with bar0 := { s2.bar0 with stage := 0 } } else s2
    | .hostLink => setReady s1 linkBit false
    | .diePath _ _ => settleLost s1)

/-- HOST_LINK_DOWN (R416): bit 48 follows the link. -/
def execHostLinkDown (s : State) : Out State := .next (setReady s linkBit false)

/-! ## Boot (R419 to R421) -/

/-- POWER_UP (R421): the ROM trains the host link and waits for an image; without I/O die 0 the device does not attach (R431). -/
def execPowerUp (s : State) : Out State :=
  .next (if s.bar0.stage ≠ 0 || s.mapped.contains (.ioDie 0) then s else { setReady s linkBit true with bar0 := { s.bar0 with stage := 1 } })

/-- Bytes of the staging memory (R419). -/
def stagingSize : Nat := 2 ^ 25

/-- STAGING_WRITE (R419): accepted only while STAGE = 1; there is no byte beyond 32 MiB. -/
def execStagingWrite (off : Nat) (bytes : List Byte) (s : State) : Out State :=
  if stagingSize < off + bytes.length then .fault .noStagingByte
  else .next (if s.bar0.stage = 1 then { s with staging := s.staging.write off bytes } else s)

/-- A field of the staged image header (R420). -/
def hdrField (s : State) (off n : Nat) : Nat := leNat (s.staging.bytes off n)

/-- Bytes of the header (R420). -/
def headerSize : Nat := 0x1280

/-- Body length of the staged image (R420). -/
def bodyLen (s : State) : Nat := hdrField s 0x10 8

/-- The checks of R421 in their order; 0 is success. The length check compares GO's length with the header and the body. -/
def verifyStatus (s : State) : Nat :=
  if hdrField s 0 4 ≠ 0x4C414E49 || hdrField s 4 4 ≠ 1 then 1
  else if bodyLen s % 64 ≠ 0 || bodyLen s < 65536 || 0x1FFED80 < bodyLen s || s.bar0.go.toNat ≠ headerSize + bodyLen s then 2
  else if !Config.signatureGood (s.staging.bytes 0 0x60) (s.staging.bytes 0x60 4627) then 3
  else if Config.sha3_512 (s.staging.bytes headerSize (bodyLen s)) ≠ s.staging.bytes 0x20 64 then 4
  else 0

/-- GO (R421): a write while STAGE = 1 starts verification. -/
def startVerify (s : State) (len : Word) : State :=
  if s.bar0.stage ≠ 1 then s
  else
    let s1 : State := { s with bar0 := { s.bar0 with stage := 2, go := len } }
    if verifyStatus s1 = 0 then later s1 .imageStart else later s1 (.verificationFailure (BitVec.ofNat 8 (verifyStatus s1)))

/-- GO (R421). -/
def execGo (len : Word) (s : State) : Out State := .next (startVerify s len)

/-- VERIFICATION_FAILURE (R421): STATUS says why, the staging memory is erased, STAGE returns to 1. -/
def execVerificationFailure (status : BitVec 8) (s : State) : Out State :=
  .next (
    if s.bar0.stage ≠ 2 || verifyStatus s = 0 || status.toNat ≠ verifyStatus s then s
    else { s with bar0 := { s.bar0 with stage := 1, status := status }, staging := [] })

/-- The working dies of the package, a bit each: eight compute dies, two I/O dies (R423). -/
def workingDies (s : State) : BitVec 10 :=
  BitVec.ofNat 10 (((upto 8).map fun d => if s.mapped.contains (.die d) then 0 else 2 ^ d).sum + ((upto 2).map fun n => if s.mapped.contains (.ioDie n) then 0 else 2 ^ (8 + n)).sum)

/-- ck between power samples (R432). -/
def samplePeriod : Nat := 13000

/-- IMAGE_START (R421): the identity is derived, the measurements are taken, the firmware runs (R422, R423, R425, R432). -/
def execImageStart (s : State) : Out State :=
  .next (
    if s.bar0.stage ≠ 2 || verifyStatus s ≠ 0 then s
    else
      let image := s.staging.bytes 0 (headerSize + bodyLen s)
      let s1 : State := { s with
        bar0 := { s.bar0 with stage := 3, status := 0 }
        identity := some (Config.identityKey (workingDies s)), chain := Config.hostChain image
        measured := [Config.sha384 Config.romBytes, Config.sha384 image, s.staging.bytes 8 8]
        imageVersion := hdrField s 8 8, imageAt := some s.clock, powerCap := 2400 }
      after s1 samplePeriod .powerSample)

/-! ## The command ring (R419, R426) -/

/-- Entries of the command and completion rings. -/
def cmdRing (s : State) : Nat := 2 ^ (s.bar0.cmdlog.toNat % 32)

/-- Fetch the next entry of the ring when none is being executed (R426). -/
def pumpRing (s : State) : State :=
  if !firmware s || !s.hostCmds.isEmpty || s.bar0.cmdhead == s.bar0.cmdtail then s
  else
    let e := cmdEntryOf (s.hostMem.bytes (s.bar0.cmdbase.toNat + 64 * (s.bar0.cmdhead.toNat % cmdRing s)) 64)
    later { s with bar0 := { s.bar0 with cmdhead := s.bar0.cmdhead + 1 }, hostCmds := [{ entry := e, done := false, wait := [], moved := 0 }] } (decodeCommand e)

/-- HOST_REGISTER_WRITE (R419): the register keeps its writable bits; a write to CMDTAIL is the doorbell. -/
def execHostRegisterWrite (off : BitVec 16) (x : Word) (s : State) : Out State :=
  .next (
    if s.bar0.stage = 0 then s
    else match off.toNat with
      | 0x0008 => startVerify s x
      | 0x0100 => { s with bar0 := { s.bar0 with cmdbase := x &&& ~~~(63 : Word) } }
      | 0x0108 => { s with bar0 := { s.bar0 with cmdlog := x &&& 31 } }
      | 0x0110 => pumpRing { s with bar0 := { s.bar0 with cmdtail := x } }
      | 0x0120 => { s with bar0 := { s.bar0 with cplbase := x &&& ~~~(15 : Word) } }
      | _ => s)

/-- What a host read of BAR0 returns (R419); reading changes nothing. -/
def bar0Read (s : State) (off : BitVec 16) : Word :=
  match off.toNat with
  | 0x0000 => packWord [(s.bar0.stage, 0), (s.bar0.status.toNat, 8)]
  | 0x0100 => s.bar0.cmdbase
  | 0x0108 => s.bar0.cmdlog
  | 0x0110 => s.bar0.cmdtail
  | 0x0118 => s.bar0.cmdhead
  | 0x0120 => s.bar0.cplbase
  | 0x0128 => s.bar0.cpltail
  | _ => 0

/-- STATUS codes (R426). -/
inductive CmdStatus where
  | ok | malformed | refused | busy | rejected | nounit | fault | qfull
deriving DecidableEq, Repr

/-- Their numbers (R426). -/
def CmdStatus.code : CmdStatus → Nat
  | .ok => 0 | .malformed => 1 | .refused => 2 | .busy => 3 | .rejected => 4 | .nounit => 5 | .fault => 6 | .qfull => 7

/-- Write the completion of a command and take up the next (R426). A value that the manual does not state is free. -/
def complete (s : State) (e : CmdEntry) (st : CmdStatus) (v : Option Word) : State :=
  let w0 := packWord [(wbits e.w0 32 32, 0), (st.code, 32)]
  let w1 := v.getD (Config.freeWord s.fresh)
  let at_ := s.bar0.cplbase.toNat + 16 * (s.bar0.cpltail.toNat % cmdRing s)
  pumpRing { s with
    hostMem := s.hostMem.write at_ (wordBytes w0 ++ wordBytes w1)
    bar0 := { s.bar0 with cpltail := s.bar0.cpltail + 1, msix := s.bar0.msix + 1 }
    hostCmds := dropFirst (fun c => c.entry == e) s.hostCmds
    fresh := s.fresh + 1 }

/-- How an effect ends: with a status, or not yet; `awaits` when an access of the command brings it back. -/
inductive CmdRes where
  | done (st : CmdStatus) (v : Option Word) (s : State)
  | wait (s : State)
  | awaits (s : State)

/-- Whether a selective IDE stream is established (R424, R427). -/
def ideUp (s : State) : Bool := !s.spdm.ide.isEmpty

/-- The bits of a word outside a mask are zero. -/
def onlyBits (w : Word) (mask : Nat) : Bool := w &&& ~~~(BitVec.ofNat 64 mask) == 0

/-- Word 0 holds OP and TAG only (R426). -/
def word0Ok (e : CmdEntry) : Bool := onlyBits e.w0 0xFFFFFFFF000000FF

/-- The words from `k` on are zero. -/
def restZero (e : CmdEntry) (k : Nat) : Bool := ([e.w1, e.w2, e.w3, e.w4, e.w5, e.w6, e.w7].drop (k - 1)).all (· == 0)

/-- The first status that applies (R426): MALFORMED, REFUSED, NOUNIT, REJECTED. -/
def statusOf (s : State) (e : CmdEntry) (wellFormed secret unit names : Bool) : Option CmdStatus :=
  if !(word0Ok e && wellFormed) then some .malformed
  else if secret && !ideUp s then some .refused
  else if !unit then some .nounit
  else if !names then some .rejected
  else none

/-- Execute a command that firmware has taken up (R426): a status without effect, or its effect. `ev` is the event that comes back while it waits. -/
def runCmd (s : State) (e : CmdEntry) (ev : Instr) (st : Option CmdStatus) (run : State → CmdRes) : Out State :=
  .next (
    if !firmware s then s
    else match st with
      | some x => complete s e x none
      | none => match run s with
        | .done x v s1 => complete s1 e x v
        | .wait s1 => later s1 ev
        | .awaits s1 => s1)

/-- What a command that waits has written down: the shoot-downs it waits for, once its effect has begun. -/
def begun (s : State) (e : CmdEntry) : Option HostCmd := s.hostCmds.find? fun c => c.entry == e && c.done

/-- Note that a command's effect has begun. -/
def beginCmd (s : State) (e : CmdEntry) (wait : List (Nat × BitVec 32)) : State :=
  { s with hostCmds := { entry := e, done := true, wait := wait, moved := 0 } :: dropFirst (fun c => c.entry == e) s.hostCmds }

/-- RESERVED_OP (R426). -/
def execReservedOp (e : CmdEntry) (s : State) : Out State := runCmd s e (.reservedOp e) (some .malformed) fun s => .done .malformed none s

/-! ## Device, ports, routes -/

/-- SETDEV (R392). -/
def execSetdev (e : CmdEntry) (s : State) : Out State :=
  runCmd s e (.setdev e) (statusOf s e (onlyBits e.w1 0xFFF && restZero e 2 && wbits e.w1 0 12 != 4095) false true true) fun s =>
    if s.numset then .done .busy none s else .done .ok none { s with devnum := e.w1.setWidth 12, numset := true }

/-- Enable or disable a port (R391). -/
def enablePort (s : State) (p : Nat) (on : Bool) : State :=
  if on then
    let s1 := updPort s p fun x => { x with enabled := true, st := if x.st == .down then .training else x.st }
    { s1 with hostEvents := s.hostEvents ++ if (getPort s p).st == .down then [(p, .training)] else [] }
  else downPort (updPort s p fun x => { x with enabled := false }) p

/-- PORT (R391, R400): training starts, or the port goes DOWN. -/
def execPort (e : CmdEntry) (s : State) : Out State :=
  runCmd s e (.port e) (statusOf s e (onlyBits e.w1 0x10F && restZero e 2) false (getPort s (wbits e.w1 0 4)).ready true) fun s =>
    .done .ok none (enablePort s (wbits e.w1 0 4) (bit e.w1.toNat 8))

/-- A port code of a route entry is not reserved (R394). -/
def portCodeOk (c : Nat) : Bool := decide (c < 16) || c == 31

/-- Write a route-table entry (R394): paths that no UP port leads to any more are lost (R396); flits that waited for the old path may go (R395). -/
def writeRoute (s : State) (dev : Nat) (x : BitVec 16) : State := drainFlits (declareLost { s with routes := putKey Prod.fst (dev, x) s.routes })

/-- ROUTE (R394, R395). -/
def execRoute (e : CmdEntry) (s : State) : Out State :=
  let x := wbits e.w1 16 16
  runCmd s e (.route e) (statusOf s e (onlyBits e.w1 0xFFFF0FFF && restZero e 2 && x >>> 10 == 0 && portCodeOk (bitsOf x 0 5) && portCodeOk (bitsOf x 5 5)) false true true) fun s =>
    .done .ok none (writeRoute s (wbits e.w1 0 12) (BitVec.ofNat 16 x))

/-! ## Jobs (R428) -/

/-- A job descriptor from its 64 bytes. -/
def jobOfBytes (bs : List Byte) (key : Nat) : Job :=
  let w (i : Nat) : Word := wordAt bs (8 * i)
  { jobn := wbits (w 0) 0 16, asid := wbits (w 0) 16 12, priv := bit (w 0).toNat 28, finj := bit (w 0).toNat 29, trapq := w 1, traplog := wbits (w 2) 0 5
    wdlim := wbits (w 2) 32 32, handler := w 3, groups := w 4, save := w 5, saveSize := wbits (w 7) 0 32 * 65536, hq := wbits (w 7) 32 6, hdie := wbits (w 7) 40 3
    key := key, seq := 0, held := [], pool := [], handlerLive := false, slotImage := 0 }

/-- Whether a descriptor breaks a limit of R428. -/
def jobBad (bs : List Byte) : Bool :=
  let w (i : Nat) : Word := wordAt bs (8 * i)
  wbits (w 0) 30 34 != 0 || wbits (w 0) 16 12 == 0 || wbits (w 1) 0 6 != 0 || wbits (w 2) 5 27 != 0 || !decide (4 ≤ wbits (w 2) 0 5 ∧ wbits (w 2) 0 5 ≤ 20) ||
  wbits (w 3) 0 6 != 0 || wbits (w 5) 0 16 != 0 || wbits (w 7) 38 2 != 0 || wbits (w 7) 43 21 != 0

/-- Bytes that the firmware keeps for one page table (log 21). -/
def tableBytes : Nat := 8192

/-- The stack that holds a die's tables: its own, or another that is ready (R431, log 21). -/
def tableStack (s : State) (die : Nat) : Nat := if readyBit s (stackBit die) then die else ((upto 8).find? fun d => readyBit s (stackBit d)).getD die

/-- A new empty page table in the firmware's own memory (R427, R429, log 21): its HBM address. -/
def newTable (s : State) (die : Nat) : Nat × State :=
  let st := tableStack s die
  let base := 2 ^ 36 - (if st = die then 0 else 2 ^ 32 * (die + 1))
  let a := physAddr st (base - tableBytes * ((getDie s die).tables + 1))
  (a, hbmWrite (updDie s die fun d => { d with tables := d.tables + 1 }) 0 a (List.replicate tableBytes 0))

/-- The bits by which an entry names a table (R332, R334). -/
def tableBits (a : Nat) : Word := packWord [(1, 0), ((a % 2 ^ 36) >>> 8, 8), (a >>> 36, 36)]

/-- Set a die's ASID entry (R332). -/
def setAsid (s : State) (die asid : Nat) (w : Word) : State := updDie s die fun d => { d with asids := putKey Prod.fst (asid, w) d.asids }

/-- Enable an address space on every die, with an empty root table (R332, log 21). -/
def enableAsid (s : State) (asid : Nat) : State :=
  (upto 8).foldl (fun s d => let t := newTable s d; setAsid t.2 d asid (tableBits t.1)) s

/-- The device's copy of word 7 in the job's own space (R428); a fault leaves it unwritten (log 25). -/
def writeWord7 (s : State) (j : Job) (w7 : Word) : State :=
  match devWrite s j.asid (j.trapq - 56) (wordBytes w7) with
  | .ok s1 => s1
  | .error _ => s

/-- JOBNEW (R428, R429). -/
def execJobnew (e : CmdEntry) (s : State) : Out State :=
  let bs := s.hostMem.bytes e.w1.toNat 64
  runCmd s e (.jobnew e) (statusOf s e (restZero e 2 && !jobBad bs) true true true) fun s =>
    let i := takeId s
    let j := jobOfBytes bs i.1
    if s.jobs.any fun k => k.jobn == j.jobn || k.asid == j.asid then .done .busy none s
    else .done .ok none (writeWord7 (enableAsid { i.2 with jobs := i.2.jobs ++ [j] } j.asid) j (wordAt bs 56))

/-- Whether a task of a job is placed or queued (R427). -/
def jobInUse (s : State) (jobn : Nat) : Bool :=
  s.gangs.any (fun g => g.job == jobn) ||
  s.dies.toList.any fun d => d.queues.any fun q => q.job == jobn && (!q.onDie.isEmpty || !q.waitRing.isEmpty || q.rhead != q.rtail)

/-- JOBEND (R427, R429): EN is cleared on every die, and the job's key is gone. -/
def execJobend (e : CmdEntry) (s : State) : Out State :=
  let jobn := wbits e.w1 0 16
  runCmd s e (.jobend e) (statusOf s e (onlyBits e.w1 0xFFFF && restZero e 2) true true (getJob s jobn).isSome) fun s =>
    match getJob s jobn with
    | none => .done .rejected none s
    | some j =>
      if jobInUse s jobn then .done .busy none s
      else .done .ok none ((upto 8).foldl (fun s d => setAsid s d j.asid (asidWord s d j.asid &&& ~~~(1 : Word))) { s with jobs := s.jobs.filter fun k => k.jobn != jobn })

/-! ## Pages (R427, R341) -/

/-- Zero a range of HBM under a key (R429). -/
def zeroRange (s : State) (key a n : Nat) : State :=
  let lo := a / 64
  let cnt := n / 64
  { s with
    hbm := s.hbm.filter fun c => !decide (a ≤ c.1 ∧ c.1 < a + n)
    lineKey := s.lineKey.filter (fun l => decide (l.1 < lo)) ++ (upto cnt).map (fun k => (lo + k, key)) ++ s.lineKey.filter fun l => decide (lo + cnt ≤ l.1) }

/-- Write a leaf at its level, making the tables that are missing on the way (R427). -/
def mapLeaf (die off target : Nat) (leaf : Word) : List Nat → Nat → State → State
  | [], _, s => s
  | l :: ls, tbl, s =>
    let at_ := tbl + 8 * levelIndex l off
    if l = target then hbmWrite s 0 at_ (wordBytes leaf)
    else
      match entryIs l (readEntry s tbl l off) with
      | .table t => mapLeaf die off target leaf ls t s
      | _ => let n := newTable s die; mapLeaf die off target leaf ls n.1 (hbmWrite n.2 0 at_ (wordBytes (tableBits n.1)))

/-- Level at which a page of a size stands (R333, R427): 64 KiB, 2 MiB, 64 MiB. -/
def sizeLevel (sz : Nat) : Nat := 3 - sz

/-- Zero the page that a leaf maps, here or in another package's frame (R427, R429). -/
def zeroPage (s : State) (j : Job) (leaf : Word) (n : Nat) : State :=
  let p := leafPlace s 3 leaf 0
  match p.dev with
  | none => zeroRange s j.key p.addr n
  | some d => { s with devOut := s.devOut ++ [(d, .frameWrite 0 j.asid ((upto n).map fun k => (p.addr + k, 0)))] }

/-- MAP (R427): zero the page under the job's key, then write its leaf. -/
def execMap (e : CmdEntry) (s : State) : Out State :=
  let jobn := wbits e.w1 0 16
  let sz := wbits e.w4 0 2
  let die := farDie e.w2
  let live := bit e.w3.toNat 0
  let ok := onlyBits e.w1 0xFFFF && onlyBits e.w4 3 && restZero e 5 && sz != 3 && wbits e.w2 60 4 == 0 && !isRemote s e.w2 &&
    !(live && (!bit e.w3.toNat 1 || malformed (sizeLevel sz) e.w3))
  let stackOk := !live || (leafPlace s 3 e.w3 0).dev.isSome || readyBit s (stackBit (wbits e.w3 36 3))
  runCmd s e (.map e) (statusOf s e ok true (dieReady s die && stackOk) (getJob s jobn).isSome) fun s =>
    match getJob s jobn with
    | none => .done .rejected none s
    | some j =>
      let s1 := if live then zeroPage s j e.w3 (2 ^ pageBits (sizeLevel sz)) else s
      .done .ok none (mapLeaf die (farOff e.w2) (sizeLevel sz) e.w3 [0, 1, 2, 3] (tableAddr (asidWord s1 die j.asid)) s1)

/-- A shoot-down request of R341 has no reserved bit or code. -/
def shootOk (w0 w1 : Word) : Bool := wbits w0 45 19 == 0 && wbits w1 16 48 == 0 && wbits w1 12 2 != 3 && wbits w1 14 2 != 3

/-- UNMAP (R427, R341): it completes when the shoot-down is performed at every die it was written to. -/
def execUnmap (e : CmdEntry) (s : State) : Out State :=
  let all := bit e.w3.toNat 8
  let die := wbits e.w3 0 3
  runCmd s e (.unmap e) (if (begun s e).isSome then none else statusOf s e (shootOk e.w1 e.w2 && onlyBits e.w3 0x107 && restZero e 4) true (all || dieReady s die) true) fun s =>
    match begun s e with
    | some c =>
      if c.wait.all fun w => (getDie s w.1).shootDone.contains w.2 then
        .done .ok (some (if all then 0 else match c.wait with
          | w :: _ => w.2.setWidth 64
          | [] => 0)) s
      else .wait s
    | none =>
      let dies := if all then (upto 8).filter (dieReady s) else [die]
      let r := dies.foldl (fun (a : List (Nat × BitVec 32) × State) d => let x := acceptShoot a.2 d e.w1 e.w2; (a.1 ++ [(d, x.1)], x.2)) ([], s)
      .wait (beginCmd r.2 e r.1)

/-! ## Queues (R250, R251) -/

/-- Words 0 and 1 of a queue descriptor are within R250. -/
def queueOk (w0 w1 : Word) : Bool :=
  wbits w0 5 3 == 0 && wbits w0 32 32 == 0 && wbits w0 24 3 != 0 && decide (8 ≤ wbits w0 27 5 ∧ wbits w0 27 5 ≤ 24) && wbits w1 0 6 == 0

/-- A queue as words 0 and 1 of its descriptor say; its indices stay (R250). -/
def queueFrom (old : Option HwQueue) (num : Nat) (w0 w1 : Word) : HwQueue :=
  { num := num, prio := w0.extractLsb' 0 3, det := bit w0.toNat 3, en := bit w0.toNat 4, job := wbits w0 8 16, clmask := w0.extractLsb' 24 3, ringlog := wbits w0 27 5, ring := w1
    rhead := match old with
      | some q => q.rhead
      | none => 0
    rtail := match old with
      | some q => q.rtail
      | none => 0
    onDie := [], waitRing := [], since := none }

/-- Whether a queue may be written: it is disabled and holds no record (R250). A saved gang stands ahead of the queue and is no record in it (R377). -/
def queueIdle (q : HwQueue) : Bool := !q.en && q.onDie.isEmpty && q.waitRing.isEmpty && q.rhead == q.rtail

/-- QUEUE (R427, R250). -/
def execQueue (e : CmdEntry) (s : State) : Out State :=
  let die := wbits e.w1 0 3
  let num := wbits e.w1 8 6
  runCmd s e (.queue e) (statusOf s e (onlyBits e.w1 0x3F07 && queueOk e.w2 e.w3 && restZero e 4) true (dieReady s die) (getJob s (wbits e.w2 8 16)).isSome) fun s =>
    match getQueue s die num with
    | some q =>
      if queueIdle q then .done .ok none (kickDispatch (updQueue s die num fun q => queueFrom (some q) num e.w2 e.w3) die) else .done .busy none s
    | none => .done .ok none (updDie s die fun d => { d with queues := d.queues ++ [queueFrom none num e.w2 e.w3] })

/-- The package that holds an address, or the frame behind it. -/
def holderOf (s : State) (asid : Nat) (va : Word) : Option (BitVec 12) :=
  if isRemote s va then some (farDev va) else match translate s asid va .load with
    | .ok p => p.dev
    | .error _ => none

/-- Whether the package that holds an address cannot be reached. -/
def unreachable (s : State) (asid : Nat) (va : Word) : Bool := match holderOf s asid va with
  | some d => pathLost s d
  | none => false

/-- ENQ (R251, R252, R427): a fault on the read of the record posts no descriptor (R336). -/
def execEnq (e : CmdEntry) (s : State) : Out State :=
  let num := wbits e.w1 0 6
  let die := wbits e.w1 8 3
  let owner := (getQueue s die num).bind fun q => getJob s q.job
  runCmd s e (.enq e) (statusOf s e (onlyBits e.w1 0x73F && wbits e.w2 0 6 == 0 && restZero e 3) true true owner.isSome) fun s =>
    match getQueue s die num, owner with
    | some q, some j =>
      match devRead s j.asid e.w2 64 with
      | .error x => if !waits x.1 || unreachable s j.asid x.2 then .done .fault none s else .awaits (awaitAccess s x j.asid 6 false (0, 0) (.enq e))
      | .ok bs =>
        if rejects s die q bs then .done .rejected none s
        else
          let r := joinQueue s die num e.w2
          match r.1 with
          | .full => .done .qfull none r.2
          | _ => .done .ok none r.2
    | _, _ => .done .rejected none s

/-- Whether a pre-emption request is within R376. -/
def preemptOk (w0 w1 w2 : Word) : Bool :=
  onlyBits w0 0xFFFFFFFF07 && wbits w0 0 2 != 3 && !(wbits w0 0 2 == 1 && decide (63 < wbits w0 8 32)) && !(wbits w0 0 2 == 2 && decide (65535 < wbits w0 8 32)) &&
  wbits w1 0 6 == 0 && wbits w2 32 32 == 0

/-- Whether what a pre-emption request names exists (R426): a job, or a queue on some die. -/
def preemptNames (s : State) (w0 : Word) : Bool :=
  match wbits w0 0 2 with
  | 1 => (upto 8).any fun d => (getQueue s d (wbits w0 8 32)).isSome
  | 2 => (getJob s (wbits w0 8 32)).isSome
  | _ => true

/-- A request of a host command that has ended: its die and how many gangs were saved. -/
def endedPreempt (s : State) (e : CmdEntry) : Option (Nat × Preempt) :=
  (upto 8).findSome? fun d => ((getDie s d).preempts.find? fun p => p.cmd && p.over_ && p.w0 == e.w1 && p.report == e.w2 && p.seq == e.w3.setWidth 32).map fun p => (d, p)

/-- PREEMPT (R376, R377, R427, log 24): it completes when the report is written, with the number of gangs saved. -/
def execPreempt (e : CmdEntry) (s : State) : Out State :=
  runCmd s e (.preempt e) (if (begun s e).isSome then none else statusOf s e (preemptOk e.w1 e.w2 e.w3 && restZero e 4) true true (preemptNames s e.w1)) fun s =>
    match begun s e with
    | none => .wait (acceptOn (beginCmd s e []) ((upto 8).filter (dieReady s)) e.w1 e.w2 e.w3 true)
    | some _ =>
      match endedPreempt s e with
      | some (d, p) => .done .ok (some (BitVec.ofNat 64 p.done)) (putPreempt s d p none)
      | none => .wait s

/-- SLOT (R387, R427): the die's scheduled job and its slot image; it completes once the image has been loaded or found malformed. -/
def execSlot (e : CmdEntry) (s : State) : Out State :=
  let die := wbits e.w1 0 3
  let jobn := wbits e.w1 8 16
  runCmd s e (.slot e) (if (begun s e).isSome then none else statusOf s e (onlyBits e.w1 0xFFFF07 && restZero e 3) true (dieReady s die) (getJob s jobn).isSome) fun s =>
    match begun s e with
    | some _ => if (getDie s die).slotWant.isSome then .wait s else .done .ok none s
    | none =>
      let s1 := updDie (updJob s jobn fun j => { j with slotImage := e.w2 }) die fun d => { d with slotWant := some jobn }
      .wait (beginCmd (addTimer s1 ((s.clock / 256 + 1) * 256) (.slotImageLoad die)) e [])

/-- CLEAR (R361, R427). -/
def execClear (e : CmdEntry) (s : State) : Out State :=
  let die := wbits e.w1 0 3
  let cl := wbits e.w1 8 2
  runCmd s e (.clear e) (statusOf s e (onlyBits e.w1 0x307 && cl != 3 && restZero e 2) false (clusterReady s die cl) true) fun s =>
    .done .ok none (kickDies (updDie s die fun d => { d with suspect := d.suspect &&& ~~~(BitVec.ofNat 3 (2 ^ cl)) }))

/-! ## Moving bytes (R427) -/

/-- Bytes that a command has moved. -/
def movedBy (s : State) (e : CmdEntry) : Nat := match s.hostCmds.find? fun c => c.entry == e with
  | some c => c.moved
  | none => 0

/-- Note how many bytes a command has moved. -/
def noteMoved (s : State) (e : CmdEntry) (n : Nat) : State := { s with hostCmds := s.hostCmds.map fun c => if c.entry == e then { c with moved := n } else c }

/-- The name under which a DMA's write to another package is asked for; it is the address of no line and of no page. -/
def dmaKey (va : Word) : Word := lineOf va ||| 33

/-- The descriptor of a DMA's fault, at its owner (R336, R342). -/
def dmaDesc (s : State) (asid : Nat) (x : XFault) (acc : BitVec 4) : State :=
  let gen := match gotAnswer s asid (dmaKey x.2) with
    | some (.fault _ g) => g
    | _ => faultGen s asid x
  if isRemote s x.2 then sendPacket s (farDev x.2) 0 (.post asid x.2 x.1 acc gen (0, 0)) else postDesc s x asid acc none none []

/-- What stops a DMA: a wait for a walk or for another package, or a fault (R427). -/
def dmaStop (s : State) (asid : Nat) (x : XFault) (acc : BitVec 4) (wait : State) : CmdRes :=
  if waits x.1 then .awaits wait else .done .fault none (dmaDesc s asid x acc)

/-- Write one piece, which lies in one page: here, or at the package that holds it, whose answer must be there. -/
def dmaPut (s : State) (ev : Instr) (asid : Nat) (va : Word) (bs : List Byte) : Except XFault State :=
  if isRemote s va then match gotAnswer s asid (dmaKey va) with
    | some (.line _) => .ok s
    | some (.fault k _) => .error (k, va)
    | _ => .error (kAway, va)
  else match translate s asid va .store with
    | .error k => .error (k, va)
    | .ok p => match p.dev with
      | none => .ok (hbmWrite s (keyOf s asid) p.addr bs)
      | some d => if (frameAnswer s ev (frameKey d p.addr)).isSome then .ok s else .error (kAway, va)

/-- Send one piece to the package that holds it. -/
def dmaSend (s : State) (ev : Instr) (asid : Nat) (x : XFault) (bs : List Byte) : State :=
  if x.1 = kWalk then joinWalk s (farDie x.2) asid (farOff x.2) ev
  else if isRemote s x.2 then
    (if s.reqs.any fun r => r.what == .got ev asid (dmaKey x.2) then s
     else if pathLost s (farDev x.2) then later s ev
     else sendReq s (farDev x.2) (.got ev asid (dmaKey x.2)) fun r => .perform r asid none (bs.zipIdx.map fun b => (x.2 + BitVec.ofNat 64 b.2, b.1)) 4 false (0, 0))
  else match translate s asid x.2 .store with
    | .ok ⟨a, some d⟩ => askFrame s ev asid d (frameKey d a) true fun r => .frameWrite r asid (bs.zipIdx.map fun b => (a + b.2, b.1))
    | _ => later s ev

/-- Write pieces into a job's far space until one waits or faults; `k` bytes have been moved. -/
def dmaWrite (e : CmdEntry) (asid : Nat) : List (Word × Nat) → List Byte → Nat → State → CmdRes
  | [], _, _, s => .done .ok none s
  | (va, n) :: ps, bs, k, s =>
    match dmaPut s (.dmain e) asid va (bs.take n) with
    | .ok s1 => dmaWrite e asid ps (bs.drop n) (k + n) s1
    | .error x => dmaStop s asid x 4 (dmaSend (noteMoved s e k) (.dmain e) asid x (bs.take n))

/-- Read pieces of a job's far space into host memory until one waits or faults; `k` bytes have been moved. -/
def dmaRead (e : CmdEntry) (asid : Nat) : List (Word × Nat) → Nat → State → CmdRes
  | [], _, s => .done .ok none s
  | (va, n) :: ps, k, s =>
    match devRead s asid va n with
    | .ok bs => dmaRead e asid ps (k + n) { s with hostMem := s.hostMem.write (e.w2.toNat + k) bs }
    | .error x => dmaStop s asid x 3 (awaitAccess (noteMoved s e k) x asid 3 false (0, 0) (.dmaout e))

/-- The operands of DMAIN and DMAOUT are within R427. -/
def dmaOk (e : CmdEntry) : Bool := onlyBits e.w1 0xFFFF && restZero e 5 && e.w4.toNat % 64 == 0 && decide (0 < e.w4.toNat ∧ e.w4.toNat ≤ 2 ^ 30)

/-- DMAIN: host memory to the job's far space (R427). -/
def execDmain (e : CmdEntry) (s : State) : Out State :=
  runCmd s e (.dmain e) (statusOf s e (dmaOk e) true true (getJob s (wbits e.w1 0 16)).isSome) fun s =>
    match getJob s (wbits e.w1 0 16) with
    | none => .done .rejected none s
    | some j => let k := movedBy s e; dmaWrite e j.asid (pieces (e.w3 + BitVec.ofNat 64 k) (e.w4.toNat - k)) (s.hostMem.bytes (e.w2.toNat + k) (e.w4.toNat - k)) k s

/-- DMAOUT: the job's far space to host memory (R427). -/
def execDmaout (e : CmdEntry) (s : State) : Out State :=
  runCmd s e (.dmaout e) (statusOf s e (dmaOk e) true true (getJob s (wbits e.w1 0 16)).isSome) fun s =>
    match getJob s (wbits e.w1 0 16) with
    | none => .done .rejected none s
    | some j => let k := movedBy s e; dmaRead e j.asid (pieces (e.w3 + BitVec.ofNat 64 k) (e.w4.toNat - k)) k s

/-! ## Power (R432) -/

/-- PCAP (R432). -/
def execPcap (e : CmdEntry) (s : State) : Out State :=
  runCmd s e (.pcap e) (statusOf s e (decide (1200 ≤ e.w1.toNat ∧ e.w1.toNat ≤ 2400) && restZero e 2) false true true) fun s =>
    .done .ok none { s with powerCap := e.w1.toNat }

/-- POWER_SAMPLE (R432): the draw is measured; while it exceeds the cap, stalls go into array beats and copies. -/
def execPowerSample (s : State) : Out State :=
  .next (
    if !firmware s then s
    else
      let w := min (Config.draw s.fresh) 2400
      after { s with power := w, stallsPending := if s.powerCap < w then 1 + Config.delay (s.fresh + 1) else 0, fresh := s.fresh + 2 } samplePeriod .powerSample)

/-! ## SPDM (R423 to R425, log 16) -/

/-- Record an answer of the responder. -/
def spdmSay (s : State) (ans : List Byte) (f : Spdm → Spdm) : State :=
  let x := f s.spdm
  { s with spdm := { x with transcript := x.transcript ++ ans, answers := x.answers ++ [ans] } }

/-- The chain that slot 0 offers: the host's, if its leaf's key is the derived one (R423). -/
def offeredChain (s : State) : List Byte :=
  match s.identity with
  | some k => if Config.leafKey s.chain = k then s.chain else []
  | none => []

/-- The identity key, empty before image start. -/
def identityOf (s : State) : List Byte := s.identity.getD []

/-- Whether the negotiation is complete. -/
def negotiated (s : State) : Bool := firmware s && s.spdm.version && s.spdm.caps && s.spdm.algs

/-- GET_VERSION: versions 1.2 and 1.3; it begins a connection anew (R424). -/
def execGetVersion (s : State) : Out State :=
  .next (if firmware s then spdmSay s [0x12, 0x13] (fun x => { x with version := true, caps := false, algs := false, session := 0, transcript := [] }) else s)

/-- GET_CAPABILITIES (R424). -/
def execGetCapabilities (s : State) : Out State :=
  .next (if firmware s && s.spdm.version then spdmSay s Config.spdmCaps (fun x => { x with caps := true }) else s)

/-- The algorithms of R424: ECDSA P-384, SHA-384, ECDHE on secp384r1, AES-256-GCM, numbered as they stand there. -/
def spdmAlgs : List Nat := [0, 1, 2, 3]

/-- NEGOTIATE_ALGORITHMS (R424): it succeeds when the requester offers every algorithm of the device. -/
def execNegotiateAlgorithms (offered : List Nat) (s : State) : Out State :=
  .next (
    if firmware s && s.spdm.version && s.spdm.caps && spdmAlgs.all offered.contains then spdmSay s (spdmAlgs.map (BitVec.ofNat 8)) (fun x => { x with algs := true }) else s)

/-- GET_DIGESTS (R424): the digest of the chain in slot 0, if one is offered. -/
def execGetDigests (s : State) : Out State :=
  .next (if negotiated s then spdmSay s (if offeredChain s = [] then [] else Config.sha384 (offeredChain s)) id else s)

/-- GET_CERTIFICATE (R423): a part of the chain in slot 0; no certificate otherwise. -/
def execGetCertificate (slot offset len : Nat) (s : State) : Out State :=
  .next (if negotiated s then spdmSay s (if slot = 0 then ((offeredChain s).drop offset).take len else []) id else s)

/-- CHALLENGE (R424): a response signed by the identity key. -/
def execChallenge (slot : Nat) (nonce : List Byte) (s : State) : Out State :=
  .next (if negotiated s then spdmSay s (Config.sign (identityOf s) (s.spdm.transcript ++ BitVec.ofNat 8 slot :: nonce)) id else s)

/-- One bit per unit that has been mapped out: cores, lanes, I/O dies (R425). A lane is mapped out too while its port is UP without it (R391). -/
def mappedMask (s : State) : List Byte :=
  let core (i : Nat) : Bool := s.mapped.contains (.core (i / 216) (i / 72 % 3) (i % 72))
  let lane (i : Nat) : Bool := s.mapped.any fun u => match u with
    | .lanes p good => p == i / 8 && !bit good.toNat (i % 8)
    | _ => false
  let lane (i : Nat) : Bool := lane i || ((getPort s (i / 8)).st == .up && !bit (getPort s (i / 8)).lanes.toNat (i % 8))
  let bits := (upto 1728).map core ++ (upto 128).map lane ++ (upto 2).map fun n => s.mapped.contains (.ioDie n)
  (upto (ceilDiv bits.length 8)).map fun k => BitVec.ofNat 8 (((upto 8).map fun b => if bits.getD (8 * k + b) false then 2 ^ b else 0).sum)

/-- The measurements (R425): the last one as it stands when it is read. -/
def measurement (s : State) (index : Nat) : List Byte :=
  if index = 4 then leBytes 7 s.ready.toNat ++ mappedMask s
  else if index = 0 then [] else s.measured.getD (index - 1) []

/-- GET_MEASUREMENTS (R425). -/
def execGetMeasurements (index : Nat) (s : State) : Out State := .next (if negotiated s then spdmSay s (measurement s index) id else s)

/-- KEY_EXCHANGE (R424): a session begins; the answer is signed. -/
def execKeyExchange (exchange : List Byte) (s : State) : Out State :=
  .next (if negotiated s then spdmSay s (Config.sign (identityOf s) (s.spdm.transcript ++ exchange)) (fun x => { x with session := 1, keyEpoch := 0 }) else s)

/-- FINISH (R424): the handshake of the session is complete. -/
def execFinish (verify : List Byte) (s : State) : Out State :=
  .next (
    if negotiated s && s.spdm.session == 1 && Config.sha384 s.spdm.transcript == verify then spdmSay s [] (fun x => { x with session := 2 }) else s)

/-- KEY_UPDATE (R424). -/
def execKeyUpdate (s : State) : Out State := .next (if firmware s && s.spdm.session == 2 then spdmSay s [] (fun x => { x with keyEpoch := x.keyEpoch + 1 }) else s)

/-- END_SESSION (R424). -/
def execEndSession (s : State) : Out State := .next (if firmware s && s.spdm.session == 2 then spdmSay s [] (fun x => { x with session := 0 }) else s)

/-- IDE_KM (R424): within a secured session, keys are programmed, and with go the selective stream is established. -/
def execIdeKm (stream : Nat) (goActive : Bool) (s : State) : Out State :=
  .next (
    if firmware s && s.spdm.session == 2 then
      spdmSay s [] (fun x => if goActive && !x.ide.contains stream then { x with ide := x.ide ++ [stream] } else x)
    else s)

end Sys2Proof.Machine
end

