-- ==== Sys2Proof/Machine/Dispatch.lean ====
section
/-! DEFINITION. One arm per constructor of Instr: each instruction and event of spec/opcode_table.json has its own meaning. -/

namespace Sys2Proof.Machine

/-- The effect of an instruction or event. -/
def exec (i : Instr) (s : State) : Host.Outcome State Fault Refusal :=
  match i with
  | .bundleIssue sid => Sys2Proof.Machine.execBundleIssue sid s
  | .heldEventEntry job => Sys2Proof.Machine.execHeldEventEntry job s
  | .delivery sid t x => Sys2Proof.Machine.execDelivery sid t x s
  | .sleepEnd sid => Sys2Proof.Machine.execSleepEnd sid s
  | .semaFill sid q => Sys2Proof.Machine.execSemaFill sid q s
  | .strandDone sid => Sys2Proof.Machine.execStrandDone sid s
  | .launchAnswer sid => Sys2Proof.Machine.execLaunchAnswer sid s
  | .enqueue die q rec => Sys2Proof.Machine.execEnqueue die q rec s
  | .ringRefill die q => Sys2Proof.Machine.execRingRefill die q s
  | .dispatch die => Sys2Proof.Machine.execDispatch die s
  | .taskCompletion gid => Sys2Proof.Machine.execTaskCompletion gid s
  | .eviction sid => Sys2Proof.Machine.execEviction sid s
  | .pickUp sid core => Sys2Proof.Machine.execPickUp sid core s
  | .watchdogPreempt gid => Sys2Proof.Machine.execWatchdogPreempt gid s
  | .watchdog gid => Sys2Proof.Machine.execWatchdog gid s
  | .preemptionRequest die w0 w1 w2 => Sys2Proof.Machine.execPreemptionRequest die w0 w1 w2 s
  | .arrayClaim core => Sys2Proof.Machine.execArrayClaim core s
  | .arrayConfigApply core => Sys2Proof.Machine.execArrayConfigApply core s
  | .arrayRelease core => Sys2Proof.Machine.execArrayRelease core s
  | .arrayBeat core => Sys2Proof.Machine.execArrayBeat core s
  | .arrayCommandComplete core id => Sys2Proof.Machine.execArrayCommandComplete core id s
  | .copyCompletion core id => Sys2Proof.Machine.execCopyCompletion core id s
  | .barrierBytes sid => Sys2Proof.Machine.execBarrierBytes sid s
  | .copyStart core id => Sys2Proof.Machine.execCopyStart core id s
  | .farLoadTranslate id => Sys2Proof.Machine.execFarLoadTranslate id s
  | .faultRollback sid kind addr mask => Sys2Proof.Machine.execFaultRollback sid kind addr mask s
  | .atomicFaultRollback id => Sys2Proof.Machine.execAtomicFaultRollback id s
  | .atomicPlacement id => Sys2Proof.Machine.execAtomicPlacement id s
  | .nearAtomicApply id => Sys2Proof.Machine.execNearAtomicApply id s
  | .windowTentativePhase sid => Sys2Proof.Machine.execWindowTentativePhase sid s
  | .windowPerform sid => Sys2Proof.Machine.execWindowPerform sid s
  | .performTimeout id => Sys2Proof.Machine.execPerformTimeout id s
  | .tlbWalkComplete die id => Sys2Proof.Machine.execTlbWalkComplete die id s
  | .shootDownRequest die w0 w1 => Sys2Proof.Machine.execShootDownRequest die w0 w1 s
  | .shootDownPerformed die g => Sys2Proof.Machine.execShootDownPerformed die g s
  | .descriptorRelease die seq => Sys2Proof.Machine.execDescriptorRelease die seq s
  | .sequencerLoad sid => Sys2Proof.Machine.execSequencerLoad sid s
  | .messagePush m => Sys2Proof.Machine.execMessagePush m s
  | .recvTake gid c => Sys2Proof.Machine.execRecvTake gid c s
  | .sendTransmit gid c => Sys2Proof.Machine.execSendTransmit gid c s
  | .creditRefresh gid c => Sys2Proof.Machine.execCreditRefresh gid c s
  | .creditReceive gid c word => Sys2Proof.Machine.execCreditReceive gid c word s
  | .channelResync gid c word pushed => Sys2Proof.Machine.execChannelResync gid c word pushed s
  | .tickArrival src dst job sid t => Sys2Proof.Machine.execTickArrival src dst job sid t s
  | .ticketSkip gid c => Sys2Proof.Machine.execTicketSkip gid c s
  | .flitReceive port f good => Sys2Proof.Machine.execFlitReceive port f good s
  | .flitResend port => Sys2Proof.Machine.execFlitResend port s
  | .flitForward f => Sys2Proof.Machine.execFlitForward f s
  | .portTraining port good peerDev peerPort => Sys2Proof.Machine.execPortTraining port good peerDev peerPort s
  | .portDown port => Sys2Proof.Machine.execPortDown port s
  | .pathLost dev => Sys2Proof.Machine.execPathLost dev s
  | .requestTimeout rid => Sys2Proof.Machine.execRequestTimeout rid s
  | .linkKeyUpdate port => Sys2Proof.Machine.execLinkKeyUpdate port s
  | .slotImageLoad die => Sys2Proof.Machine.execSlotImageLoad die s
  | .switchCombine id a b => Sys2Proof.Machine.execSwitchCombine id a b s
  | .sparseIngressCheck id rank => Sys2Proof.Machine.execSparseIngressCheck id rank s
  | .sparseMerge id => Sys2Proof.Machine.execSparseMerge id s
  | .collectiveDelivery id rank => Sys2Proof.Machine.execCollectiveDelivery id rank s
  | .sparseStreamDelivery id rank => Sys2Proof.Machine.execSparseStreamDelivery id rank s
  | .collectiveLinkLoss id => Sys2Proof.Machine.execCollectiveLinkLoss id s
  | .signatureComparison rset lidx => Sys2Proof.Machine.execSignatureComparison rset lidx s
  | .replicaGo sid => Sys2Proof.Machine.execReplicaGo sid s
  | .replicaLost rset idx => Sys2Proof.Machine.execReplicaLost rset idx s
  | .agreedValueArrival sid ord n x => Sys2Proof.Machine.execAgreedValueArrival sid ord n x s
  | .unitReadyReport u => Sys2Proof.Machine.execUnitReadyReport u s
  | .unitMapOut u => Sys2Proof.Machine.execUnitMapOut u s
  | .powerUp => Sys2Proof.Machine.execPowerUp s
  | .go len => Sys2Proof.Machine.execGo len s
  | .imageStart => Sys2Proof.Machine.execImageStart s
  | .hostRegisterWrite off x => Sys2Proof.Machine.execHostRegisterWrite off x s
  | .setdev e => Sys2Proof.Machine.execSetdev e s
  | .port e => Sys2Proof.Machine.execPort e s
  | .route e => Sys2Proof.Machine.execRoute e s
  | .jobnew e => Sys2Proof.Machine.execJobnew e s
  | .jobend e => Sys2Proof.Machine.execJobend e s
  | .map e => Sys2Proof.Machine.execMap e s
  | .unmap e => Sys2Proof.Machine.execUnmap e s
  | .queue e => Sys2Proof.Machine.execQueue e s
  | .enq e => Sys2Proof.Machine.execEnq e s
  | .preempt e => Sys2Proof.Machine.execPreempt e s
  | .slot e => Sys2Proof.Machine.execSlot e s
  | .clear e => Sys2Proof.Machine.execClear e s
  | .dmain e => Sys2Proof.Machine.execDmain e s
  | .dmaout e => Sys2Proof.Machine.execDmaout e s
  | .pcap e => Sys2Proof.Machine.execPcap e s
  | .powerSample => Sys2Proof.Machine.execPowerSample s
  | .getVersion => Sys2Proof.Machine.execGetVersion s
  | .getCapabilities => Sys2Proof.Machine.execGetCapabilities s
  | .negotiateAlgorithms offered => Sys2Proof.Machine.execNegotiateAlgorithms offered s
  | .getDigests => Sys2Proof.Machine.execGetDigests s
  | .getCertificate slot offset len => Sys2Proof.Machine.execGetCertificate slot offset len s
  | .challenge slot nonce => Sys2Proof.Machine.execChallenge slot nonce s
  | .getMeasurements index => Sys2Proof.Machine.execGetMeasurements index s
  | .keyExchange exchange => Sys2Proof.Machine.execKeyExchange exchange s
  | .finish verify => Sys2Proof.Machine.execFinish verify s
  | .keyUpdate => Sys2Proof.Machine.execKeyUpdate s
  | .endSession => Sys2Proof.Machine.execEndSession s
  | .ideKm stream goActive => Sys2Proof.Machine.execIdeKm stream goActive s
  | .nop => Sys2Proof.Machine.execNop s
  | .br g o => Sys2Proof.Machine.execBr g o s
  | .brx g b => Sys2Proof.Machine.execBrx g b s
  | .call g o => Sys2Proof.Machine.execCall g o s
  | .callx g b => Sys2Proof.Machine.execCallx g b s
  | .loop g c n => Sys2Proof.Machine.execLoop g c n s
  | .loopi g c n => Sys2Proof.Machine.execLoopi g c n s
  | .looph g b => Sys2Proof.Machine.execLooph g b s
  | .lexit g => Sys2Proof.Machine.execLexit g s
  | .wait g a => Sys2Proof.Machine.execWait g a s
  | .waitany g f b a => Sys2Proof.Machine.execWaitany g f b a s
  | .state g b a => Sys2Proof.Machine.execState g b a s
  | .yield g => Sys2Proof.Machine.execYield g s
  | .sleep g b => Sys2Proof.Machine.execSleep g b s
  | .launch g b a => Sys2Proof.Machine.execLaunch g b a s
  | .exit g => Sys2Proof.Machine.execExit g s
  | .sema g q b a => Sys2Proof.Machine.execSema g q b a s
  | .semr g q b => Sys2Proof.Machine.execSemr g q b s
  | .karr g k a => Sys2Proof.Machine.execKarr g k a s
  | .kdrop g k => Sys2Proof.Machine.execKdrop g k s
  | .kinit g k b => Sys2Proof.Machine.execKinit g k b s
  | .cmt g => Sys2Proof.Machine.execCmt g s
  | .rel g f => Sys2Proof.Machine.execRel g f s
  | .acq g f => Sys2Proof.Machine.execAcq g f s
  | .nfence g => Sys2Proof.Machine.execNfence g s
  | .nest g b => Sys2Proof.Machine.execNest g b s
  | .next g a => Sys2Proof.Machine.execNext g a s
  | .gets g n a => Sys2Proof.Machine.execGets g n a s
  | .sets g n a => Sys2Proof.Machine.execSets g n a s
  | .agree g b a => Sys2Proof.Machine.execAgree g b a s
  | .trap g c => Sys2Proof.Machine.execTrap g c s
  | .plog g t b a d => Sys2Proof.Machine.execPlog g t b a d s
  | .pset g w b a => Sys2Proof.Machine.execPset g w b a s
  | .resume g b => Sys2Proof.Machine.execResume g b s
  | .add g d a b w => Sys2Proof.Machine.execAdd g d a b w s
  | .sub g d a b w => Sys2Proof.Machine.execSub g d a b w s
  | .addi g d a imm => Sys2Proof.Machine.execAddi g d a imm s
  | .mul g d a b w => Sys2Proof.Machine.execMul g d a b w s
  | .mulh g d a b f => Sys2Proof.Machine.execMulh g d a b f s
  | .div g d a b f => Sys2Proof.Machine.execDiv g d a b f s
  | .rem g d a b f => Sys2Proof.Machine.execRem g d a b f s
  | .and g d a b => Sys2Proof.Machine.execAnd g d a b s
  | .or g d a b => Sys2Proof.Machine.execOr g d a b s
  | .xor g d a b => Sys2Proof.Machine.execXor g d a b s
  | .logi g d a o v => Sys2Proof.Machine.execLogi g d a o v s
  | .shl g d a b w => Sys2Proof.Machine.execShl g d a b w s
  | .shr g d a b w => Sys2Proof.Machine.execShr g d a b w s
  | .sar g d a b w => Sys2Proof.Machine.execSar g d a b w s
  | .rot g d a b w => Sys2Proof.Machine.execRot g d a b w s
  | .shi g d a w k c => Sys2Proof.Machine.execShi g d a w k c s
  | .cmp g d a b f => Sys2Proof.Machine.execCmp g d a b f s
  | .cmpi g d a c v => Sys2Proof.Machine.execCmpi g d a c v s
  | .minmax g d a b f => Sys2Proof.Machine.execMinmax g d a b f s
  | .sel g d a b p => Sys2Proof.Machine.execSel g d a b p s
  | .bitc g d a f => Sys2Proof.Machine.execBitc g d a f s
  | .ext g d a b signed => Sys2Proof.Machine.execExt g d a b signed s
  | .ins g d a b => Sys2Proof.Machine.execIns g d a b s
  | .mov g d a => Sys2Proof.Machine.execMov g d a s
  | .movPredicate g d a => Sys2Proof.Machine.execMovPredicate g d a s
  | .movi g d imm => Sys2Proof.Machine.execMovi g d imm s
  | .movhi g d imm => Sys2Proof.Machine.execMovhi g d imm s
  | .movhiW g d x => Sys2Proof.Machine.execMovhiW g d x s
  | .lea g d a b k => Sys2Proof.Machine.execLea g d a b k s
  | .fop g d a b f => Sys2Proof.Machine.execFop g d a b f s
  | .fcmp g d a b f => Sys2Proof.Machine.execFcmp g d a b f s
  | .fcvt g d a f => Sys2Proof.Machine.execFcvt g d a f s
  | .vadd g d a b t sat => Sys2Proof.Machine.execVadd g d a b t sat s
  | .vsub g d a b t sat => Sys2Proof.Machine.execVsub g d a b t sat s
  | .vmul g d a b t hi => Sys2Proof.Machine.execVmul g d a b t hi s
  | .vfma g d a b t neg => Sys2Proof.Machine.execVfma g d a b t neg s
  | .vmin g d a b t => Sys2Proof.Machine.execVmin g d a b t s
  | .vmax g d a b t => Sys2Proof.Machine.execVmax g d a b t s
  | .vuna g d a t neg => Sys2Proof.Machine.execVuna g d a t neg s
  | .vand g d a b t => Sys2Proof.Machine.execVand g d a b t s
  | .vor g d a b t => Sys2Proof.Machine.execVor g d a b t s
  | .vxor g d a b t => Sys2Proof.Machine.execVxor g d a b t s
  | .vshl g d a b t => Sys2Proof.Machine.execVshl g d a b t s
  | .vshr g d a b t ar => Sys2Proof.Machine.execVshr g d a b t ar s
  | .vcmp g d a b t c => Sys2Proof.Machine.execVcmp g d a b t c s
  | .vsel g d a b t => Sys2Proof.Machine.execVsel g d a b t s
  | .vcvt g d a src t nan r => Sys2Proof.Machine.execVcvt g d a src t nan r s
  | .vqnt g d a b t rtz => Sys2Proof.Machine.execVqnt g d a b t rtz s
  | .vred g d a t f => Sys2Proof.Machine.execVred g d a t f s
  | .vscan g d a t f => Sys2Proof.Machine.execVscan g d a t f s
  | .vperm g d a b t => Sys2Proof.Machine.execVperm g d a b t s
  | .vbcast g d a t fromV => Sys2Proof.Machine.execVbcast g d a t fromV s
  | .vmovs g d a b t => Sys2Proof.Machine.execVmovs g d a b t s
  | .vins g d a b t => Sys2Proof.Machine.execVins g d a b t s
  | .vidx g d t => Sys2Proof.Machine.execVidx g d t s
  | .vfun g d a f => Sys2Proof.Machine.execVfun g d a f s
  | .vcx g d a b t k => Sys2Proof.Machine.execVcx g d a b t k s
  | .vpopc g d a t => Sys2Proof.Machine.execVpopc g d a t s
  | .vmatch g d a b t => Sys2Proof.Machine.execVmatch g d a b t s
  | .vbitsTest g d a b t => Sys2Proof.Machine.execVbitsTest g d a b t s
  | .vbitsSet g d a b t => Sys2Proof.Machine.execVbitsSet g d a b t s
  | .vbitsClear g d a b t => Sys2Proof.Machine.execVbitsClear g d a b t s
  | .acfg g a => Sys2Proof.Machine.execAcfg g a s
  | .aprog g x d b a => Sys2Proof.Machine.execAprog g x d b a s
  | .astat g h d a => Sys2Proof.Machine.execAstat g h d a s
  | .aswap g => Sys2Proof.Machine.execAswap g s
  | .astream g h d b a => Sys2Proof.Machine.execAstream g h d b a s
  | .awave g h d b a => Sys2Proof.Machine.execAwave g h d b a s
  | .adrain g h d a => Sys2Proof.Machine.execAdrain g h d a s
  | .aread g d b a => Sys2Proof.Machine.execAread g d b a s
  | .aclr g => Sys2Proof.Machine.execAclr g s
  | .atrace g h d a => Sys2Proof.Machine.execAtrace g h d a s
  | .adone g => Sys2Proof.Machine.execAdone g s
  | .ldn g d a o z => Sys2Proof.Machine.execLdn g d a o z s
  | .stn g d a o z => Sys2Proof.Machine.execStn g d a o z s
  | .ldnv g d a o => Sys2Proof.Machine.execLdnv g d a o s
  | .stnv g d a o => Sys2Proof.Machine.execStnv g d a o s
  | .ldng g d a t imm => Sys2Proof.Machine.execLdng g d a t imm s
  | .stns g d a o t imm => Sys2Proof.Machine.execStns g d a o t imm s
  | .atmn g z o d a b => Sys2Proof.Machine.execAtmn g z o d a b s
  | .ldnp g d a o => Sys2Proof.Machine.execLdnp g d a o s
  | .stnp g d a o => Sys2Proof.Machine.execStnp g d a o s
  | .ldnt g d a o z => Sys2Proof.Machine.execLdnt g d a o z s
  | .ldf g d a o z => Sys2Proof.Machine.execLdf g d a o z s
  | .stf g d a o z => Sys2Proof.Machine.execStf g d a o z s
  | .ldfv g d a o => Sys2Proof.Machine.execLdfv g d a o s
  | .stfv g d a o => Sys2Proof.Machine.execStfv g d a o s
  | .atmf g z o d a b => Sys2Proof.Machine.execAtmf g z o d a b s
  | .redf g z o a b => Sys2Proof.Machine.execRedf g z o a b s
  | .casf g z d a b => Sys2Proof.Machine.execCasf g z d a b s
  | .pref g a o => Sys2Proof.Machine.execPref g a o s
  | .ldfg g d a t imm => Sys2Proof.Machine.execLdfg g d a t imm s
  | .shape g h a => Sys2Proof.Machine.execShape g h a s
  | .copy g h d b a => Sys2Proof.Machine.execCopy g h d b a s
  | .copyq g h d b a => Sys2Proof.Machine.execCopyq g h d b a s
  | .gath g h d b a => Sys2Proof.Machine.execGath g h d b a s
  | .scat g h d b a => Sys2Proof.Machine.execScat g h d b a s
  | .chan g c d a => Sys2Proof.Machine.execChan g c d a s
  | .send g c d a => Sys2Proof.Machine.execSend g c d a s
  | .recv g c d a => Sys2Proof.Machine.execRecv g c d a s
  | .recva g d a => Sys2Proof.Machine.execRecva g d a s
  | .tick g c d => Sys2Proof.Machine.execTick g c d s
  | .coll g d a => Sys2Proof.Machine.execColl g d a s
  | .spsend g d a => Sys2Proof.Machine.execSpsend g d a s
  | .sprecv g d a => Sys2Proof.Machine.execSprecv g d a s
  | .xstat g x d => Sys2Proof.Machine.execXstat g x d s
  | .verificationFailure status => Sys2Proof.Machine.execVerificationFailure status s
  | .stagingWrite off bytes => Sys2Proof.Machine.execStagingWrite off bytes s
  | .hostLinkDown => Sys2Proof.Machine.execHostLinkDown s
  | .nearStorePerformed id => Sys2Proof.Machine.execNearStorePerformed id s
  | .pagerForward die seq => Sys2Proof.Machine.execPagerForward die seq s
  | .reservedOp e => Sys2Proof.Machine.execReservedOp e s

end Sys2Proof.Machine
end

