-- ==== Sys2Proof/Machine/Step.lean ====
section
/-! DEFINITION. One step of the package: the next event or bundle, or the passing of one ck. Beside it, a state in which a given word is the next bundle (log 11). -/

namespace Sys2Proof.Machine

/-- One step. -/
def step (s : State) : Host.Outcome State Fault Refusal :=
  match nextInstr s with
  | some (i, t) => exec i t
  | none => .next (tick s)

/-- The far address at which `withFetchWord` puts its bundle: own device, die 0, offset 0x1000 (R205). -/
def fetchPc : Word := 0x0FFF000000001000

/-- The 32 bytes of a bundle that holds one word in the slot its decoding names, NOP in the others (R36, R40). -/
def fetchBytes (nbits w : Nat) : List Byte :=
  let slot := match tableSlot nbits w with
    | some p => p.1
    | none => 1
  bundleBytes (encodeBundle slot (BitVec.ofNat 32 w) none)

/-- The job of the strand that `withFetchWord` places: privileged, with fault injection (R428). -/
def fetchJob : Job :=
  { jobn := 1, asid := 1, priv := true, finj := true, trapq := fetchPc + 0x40000, traplog := 4, wdlim := 0, handler := 0, groups := fetchPc + 0x60000, save := fetchPc + 0x1EF000, saveSize := 65536
    hq := 0, hdie := 0, key := 1, seq := 0, held := [], pool := [], handlerLive := false, slotImage := 0 }

/-- Its task record (R33): one strand, the whole slice. -/
def fetchTask : Task :=
  { entry := fetchPc, width := 1, height := 1, nstr := 1, repl := 1, detreq := false, split := false, intacc := false, nearsz := 256, taskno := 1, waitc := 0, nsucc := 0
    succ := 0, caddr := fetchPc + 0x50000, cid := 0, ctag := 0, ckind := false, arg0 := 0, arg1 := 0 }

/-- Its gang (R249). -/
def fetchGang : Gang :=
  { gid := 1, record := fetchPc + 0x51000, task := fetchTask, job := 1, die := 0, queue := 0, det := false, cluster := 0, strands := [2], alloc := [(0, 0)], save := fetchPc + 0x1F3000
    saveSize := 0, barriers := Vector.replicate 16 (Barrier.start 1), unsaved := [], chans := Vector.replicate 64 .unbound, recvs := [], staleTicks := [], dyn := none, seed := 0, rset := none, ridx := 0, repl := 1
    saved := none, poison := none, completed := false, reported := false, succDone := 0 }

/-- The strand that runs the word: resident on context 0 of core 0, RUNNING at the bundle; its registers stay. -/
def fetchStrand (t : Strand) : Strand :=
  { t with
    sid := 2, gid := 1, lidx := 0, loc := some (0, 0), st := .running, pc := fetchPc, npc := fetchPc, cpt := fetchPc, parkid := none, waitset := none, choice := none
    cdone := false, remain := .none, closing := none, leaving := [], farLoaded := false, frame := fetchPc + 0x1EF000, crec := fetchPc + 0x1F1000, trec := fetchPc + 0x1F1040, notBefore := 0, triedAt := 0, waitSerial := false, bankWait := none
    mark := none, heldTrap := none, nestAddr := none, sig := none, halted := false }

/-- The leaf that maps the first 64 MiB of die 0's window onto stack 0, writable and executable (R334). -/
def fetchLeaf : TlbEnt := { asid := 1, level := 1, page := 0, entry := 0x0007FF800000000F }

/-- A state whose very next step fetches and runs the word: one strand placed on core 0, its bundle in memory and in the core's instruction cache, nothing else due (log 11). -/
def State.withFetchWord (s : State) (nbits w : Nat) : State :=
  let bs := fetchBytes nbits w
  { s with
    me := fetchStrand s.me
    pool := []
    gangs := fetchGang :: s.gangs.filter fun g => g.gid != 1
    jobs := fetchJob :: s.jobs.filter fun j => j.jobn != 1 && j.asid != 1
    cores := [{ Core.reset 0 with icache := [(1, fetchPc, bs ++ List.replicate 32 0)], icJob := some 1 }]
    dies := s.dies.set 0 { s.dies[0] with asids := (1, 1) :: s.dies[0].asids.filter (fun a => a.1 != 1), tlb := [fetchLeaf] }
    hbm := s.hbm.write 0x1000 bs
    mapped := []
    meshes := []
    farLoads := []
    farAtoms := []
    nearOps := []
    nearLoads := []
    issue := none
    inbox := []
    timers := []
    nextId := s.nextId + 2 }

end Sys2Proof.Machine
end

