-- ==== Sys2Proof/Safety.lean ====
section
/-! DEFINITION. The terms that claims use: a safe step, a strand whose next bundle nothing holds back, what a result of fixed latency does to a strand, and what an instruction leaves as it was. -/

namespace Sys2Proof.Machine

/-- The step answers a next state. -/
def StepSafe (s : State) : Prop := ∃ t, step s = .next t

/-! ## A bundle that nothing holds back -/

/-- The strand at issue stands between two bundles: none is open, no loop turns (R94), no commit point (R109) or trap (R371) is under way, no fence waits (R111, R321), and the window has room for a bundle (R20, R31, R212). -/
abbrev Calm (s : State) : Prop :=
  s.issue = none ∧ s.me.loop.active = false ∧ s.me.closing = none ∧ s.me.heldTrap = none ∧ s.me.acqFence = [] ∧ s.me.nearFence = [] ∧
  s.me.serials.length ≤ 1000 ∧ undoSize s.me ≤ 1000 ∧ s.me.gated.length ≤ 60

/-- The same of a strand that a loop may be turning. -/
abbrev Still (s : State) : Prop :=
  s.issue = none ∧ s.me.closing = none ∧ s.me.heldTrap = none ∧ s.me.acqFence = [] ∧ s.me.nearFence = [] ∧
  s.me.serials.length ≤ 1000 ∧ undoSize s.me ≤ 1000 ∧ s.me.gated.length ≤ 60

/-- A register of the strand at issue is FULL (R15). -/
abbrev isFull (s : State) (r : RegId) : Prop := (s.me.regs.get r).st = .full

/-- The guard of an instruction is FULL, and enables it where a guard enables the whole instruction (R41). -/
abbrev GuardOn (s : State) (i : Instr) : Prop :=
  isFull s (.p (guardOf i)) ∧ (wholeGuard i = true → (s.me.regs.get (.p (guardOf i))).val.toNat.testBit 0 = true)

/-- An instruction whose guard is on and whose operands are all FULL (R276), next in a strand that nothing holds back. -/
abbrev Ready (s : State) (i : Instr) : Prop :=
  Calm s ∧ GuardOn s i ∧ ∀ r ∈ readsOf i ++ portOnly i ++ examinedOf i, isFull s r

/-! ## Registers of the strand at issue -/

/-- The word in an s register. -/
abbrev sVal (s : State) (i : BitVec 6) : Word := (s.me.regs.get (.s i)).val.setWidth 64

/-- The value in a v register. -/
abbrev vVal (s : State) (i : BitVec 5) : VVal := (s.me.regs.get (.v i)).val

/-- The value in a p register. -/
abbrev pVal (s : State) (i : BitVec 4) : PVal := (s.me.regs.get (.p i)).val.setWidth 128

/-- The word of a second source: a register, or the literal sign-extended (R43). -/
abbrev src2Val (s : State) : Src2 → Word
  | .reg b => sVal s b
  | .lit x => x.signExtend 64

/-! ## Results -/

/-- A register is PENDING under a tag that no obligation of the strand held, and that the strand now holds (R20). -/
def Owed (s t : State) (r : RegId) (g : Tag) : Prop :=
  t.me.regs.get r = ⟨0, .pending, g⟩ ∧ g.toNat % 1024 ∉ s.me.serials.map (·.1) ∧ g.toNat % 1024 ∈ t.me.serials.map (·.1) ∧ g.toNat / 1024 = s.me.window.toNat % 64

/-- The one event added is a delivery of `x` to the register `n` ck after the issue (R90); s0 and p0 take none (R12). -/
def DeliversIn (s t : State) (r : RegId) (n : Nat) (x : Payload) : Prop :=
  if regFixed r then t.timers = s.timers
  else ∃ g, Owed s t r g ∧ t.timers = s.timers ++ [⟨s.clock + n, .delivery s.me.sid g x⟩]

/-! ## What stays -/

/-- Every register but the listed ones is as it was. -/
def RegsKept (s t : State) (rs : List RegId) : Prop := ∀ r, r ∉ rs → t.me.regs.get r = s.me.regs.get r

/-- Of the strand at issue, only registers, the window's bookkeeping, its counters and its place in the program have changed: shapes, loop, sequencer, gated lines, window, CPT and every other part of the strand are as they were; so are the semaphores, unless one waits. -/
def StrandKept (s t : State) : Prop :=
  t.me = { s.me with
    regs := t.me.regs, log := t.me.log, serials := t.me.serials, q := t.me.q, perf := t.me.perf, pc := t.me.pc, npc := t.me.npc
    st := t.me.st, parkid := t.me.parkid, waitset := t.me.waitset, choice := t.me.choice, triedAt := t.me.triedAt, readyAt := t.me.readyAt, asleep := t.me.asleep
    waitSerial := t.me.waitSerial, bankWait := t.me.bankWait } ∧
  ((s.me.q.toList.all fun q => !q.out) = true → t.me.q = s.me.q)

/-- Outside the strand at issue, only the cores' issue bookkeeping and the list of events due have changed: memory, gangs, jobs, dies, ports and every other strand are as they were. -/
def MachineKept (s t : State) : Prop :=
  t = { s with me := t.me, cores := t.cores, timers := t.timers } ∧
  (∀ c, (getCore t c).array = (getCore s c).array ∧ (getCore t c).copies = (getCore s c).copies ∧ (getCore t c).xstat = (getCore s c).xstat) ∧
  (∀ a, t.hbm.read a = s.hbm.read a) ∧ ∀ a, t.near.read a = s.near.read a

/-- The bundle has issued: the strand runs and stands at the next bundle (R42). -/
def Advanced (s t : State) : Prop := t.me.pc = s.me.pc + 32 ∧ t.me.st = .running

/-- The frame of an instruction that writes registers only. -/
def RegFrame (s t : State) (rs : List RegId) : Prop := RegsKept s t rs ∧ StrandKept s t ∧ MachineKept s t ∧ Advanced s t

/-- The frame of an instruction whose effect, beside the listed registers, its place in the program and the events it makes due, is the difference between the state before it and `e`. -/
def Kept (e t : State) (rs : List RegId) : Prop := RegsKept e t rs ∧ StrandKept e t ∧ MachineKept e t

/-- The strand at issue parks on a register, or on no named one (R276). -/
def parkedOn (s : State) (r : Option RegId) : State :=
  { s with me := { s.me with st := .parked, parkid := r, waitset := none, triedAt := s.clock + 1, waitSerial := false, bankWait := none, parkedAt := if s.me.st = .parked then s.me.parkedAt else s.clock } }

/-- The strand at issue after an attempt that only waits. -/
def triedMe (s : State) : Strand := { s.me with triedAt := s.clock + 1, waitSerial := false, bankWait := none }

/-- A strand with a part of it replaced. -/
abbrev withMe (s : State) (t : Strand) : State := { s with me := t }

end Sys2Proof.Machine
end

