-- ==== Sys2Proof/Certificates/Slice0/Obligations.lean ====
section
/-! DEFINITION. The statements for the provers, from the numbered rules of spec/. Tables in `Sys2Proof.Claims` give, for each instruction of a family, what its rule says of it. -/

namespace Sys2Proof.Claims

end Sys2Proof.Claims

section
open Sys2Proof Sys2Proof.Machine Sys2Proof.Claims

/-! ## Scalar results -/

namespace Sys2Proof.Claims

/-- A result at a width: a 32-bit result is sign-extended (R124). -/
def atW (w : W2) (x : Word) : Word :=
  match w with
  | .w64 => x
  | .w32 => (x.setWidth 32).signExtend 64

/-- Quotient of R126 at 64 bits. -/
def quot (signed : Bool) {w : Nat} (a b : BitVec w) : BitVec w := if b = 0 then BitVec.allOnes w else if signed then a.sdiv b else a / b

/-- Remainder of R126. -/
def remd (signed : Bool) {w : Nat} (a b : BitVec w) : BitVec w := if b = 0 then a else if signed then a.srem b else a % b

/-- DIV and REM share their widths: the operation at 64 bits, or at 32 with its result sign-extended (R126). -/
def divide (f : DivF) (op : Bool → (w : Nat) → BitVec w → BitVec w → BitVec w) (a b : Word) : Word :=
  match f with
  | .s64 => op true 64 a b
  | .u64 => op false 64 a b
  | .s32 => (op true 32 (a.setWidth 32) (b.setWidth 32)).signExtend 64
  | .u32 => (op false 32 (a.setWidth 32) (b.setWidth 32)).signExtend 64

/-- Destination, latency and value of the integer arithmetic instructions (R126, R137). -/
def arithResult (s : State) : Instr → Option (BitVec 6 × Nat × Word)
  | .add _ d a b w => some (d, 1, atW w (sVal s a + src2Val s b))
  | .sub _ d a b w => some (d, 1, atW w (sVal s a - src2Val s b))
  | .addi _ d a i => some (d, 1, sVal s a + i.signExtend 64)
  | .mul _ d a b w => some (d, 3, atW w (sVal s a * src2Val s b))
  | .mulh _ d a b .signed => some (d, 4, (((sVal s a).signExtend 128 * (src2Val s b).signExtend 128) >>> 64).setWidth 64)
  | .mulh _ d a b .unsigned => some (d, 4, (((sVal s a).setWidth 128 * (src2Val s b).setWidth 128) >>> 64).setWidth 64)
  | .mulh _ d a b .mixed => some (d, 4, (((sVal s a).signExtend 128 * (src2Val s b).setWidth 128) >>> 64).setWidth 64)
  | .div _ d a b f => some (d, if f = .s32 ∨ f = .u32 then 12 else 20, divide f (fun g _ => quot g) (sVal s a) (src2Val s b))
  | .rem _ d a b f => some (d, if f = .s32 ∨ f = .u32 then 12 else 20, divide f (fun g _ => remd g) (sVal s a) (src2Val s b))
  | _ => none

/-- Whether an instruction uses the divider (R127). -/
def divides : Instr → Bool
  | .div _ _ _ _ _ | .rem _ _ _ _ _ => true
  | _ => false

/-- A shift of the kinds of R128 by a count modulo the width. -/
def shifted (k : ShiftK) {w : Nat} (x : BitVec w) (n : Nat) : BitVec w :=
  match k with
  | .shl => x <<< (n % w)
  | .shr => x >>> (n % w)
  | .sar => x.sshiftRight (n % w)
  | .rot => x.rotateRight (n % w)

/-- A shift at a width (R124, R128). -/
def shiftAt (k : ShiftK) (w : W2) (x : Word) (n : Nat) : Word :=
  match w with
  | .w64 => shifted k x n
  | .w32 => (shifted k (x.setWidth 32) n).signExtend 64

/-- Destination and value of the logic instructions and shifts (R128); their latency is 1 (R137). -/
def logicResult (s : State) : Instr → Option (BitVec 6 × Word)
  | .and _ d a b => some (d, sVal s a &&& src2Val s b)
  | .or _ d a b => some (d, sVal s a ||| src2Val s b)
  | .xor _ d a b => some (d, sVal s a ^^^ src2Val s b)
  | .logi _ d a .and v => some (d, sVal s a &&& v.setWidth 64)
  | .logi _ d a .or v => some (d, sVal s a ||| v.setWidth 64)
  | .logi _ d a .xor v => some (d, sVal s a ^^^ v.setWidth 64)
  | .shl _ d a b w => some (d, shiftAt .shl w (sVal s a) (src2Val s b).toNat)
  | .shr _ d a b w => some (d, shiftAt .shr w (sVal s a) (src2Val s b).toNat)
  | .sar _ d a b w => some (d, shiftAt .sar w (sVal s a) (src2Val s b).toNat)
  | .rot _ d a b w => some (d, shiftAt .rot w (sVal s a) (src2Val s b).toNat)
  | .shi _ d a w k c => some (d, shiftAt k w (sVal s a) c.toNat)
  | _ => none

/-- A condition of CMP and CMPI on two 64-bit values (R129). -/
def condition (f : CmpC) (a b : Word) : Prop :=
  match f with
  | .eq => a = b
  | .ne => a ≠ b
  | .lt => a.toInt < b.toInt
  | .le => a.toInt ≤ b.toInt
  | .ltu => a.toNat < b.toNat
  | .leu => a.toNat ≤ b.toNat

/-- Destination and condition of the compares (R129). -/
def compared (s : State) : Instr → Option (BitVec 4 × Prop)
  | .cmp _ d a b f => some (d, condition f (sVal s a) (src2Val s b))
  | .cmpi _ d a c v => some (d, condition c (sVal s a) (v.signExtend 64))
  | _ => none

/-- The field that a position word names: its first bit, and the bit after its last (R131). -/
def field (w : Word) : Nat × Nat := (w.toNat % 64, min (w.toNat % 64 + min (w.toNat / 64 % 128) 64) 64)

/-- Destination and value of selection, counts and fields (R130, R131); their latency is 1 (R137). -/
def fieldResult (s : State) : Instr → Option (BitVec 6 × Word)
  | .minmax _ d a b .min => some (d, if (sVal s a).toInt ≤ (src2Val s b).toInt then sVal s a else src2Val s b)
  | .minmax _ d a b .max => some (d, if (sVal s a).toInt ≤ (src2Val s b).toInt then src2Val s b else sVal s a)
  | .minmax _ d a b .minu => some (d, if (sVal s a).toNat ≤ (src2Val s b).toNat then sVal s a else src2Val s b)
  | .minmax _ d a b .maxu => some (d, if (sVal s a).toNat ≤ (src2Val s b).toNat then src2Val s b else sVal s a)
  | .sel _ d a b p => some (d, if (pVal s p).getLsbD 0 then sVal s a else src2Val s b)
  | .bitc _ d a .clz => some (d, BitVec.ofNat 64 ((List.range 64).takeWhile fun k => !(sVal s a).getLsbD (63 - k)).length)
  | .bitc _ d a .ctz => some (d, BitVec.ofNat 64 ((List.range 64).takeWhile fun k => !(sVal s a).getLsbD k).length)
  | .bitc _ d a .popc => some (d, BitVec.ofNat 64 ((List.range 64).countP fun k => (sVal s a).getLsbD k))
  | .ext _ d a b signed =>
    let f := field (src2Val s b)
    let x := BitVec.ofNat (f.2 - f.1) ((sVal s a).toNat / 2 ^ f.1)
    some (d, if signed then x.signExtend 64 else x.setWidth 64)
  | .ins _ d a b =>
    let f := field (src2Val s b)
    let m : Word := BitVec.ofNat 64 ((2 ^ (f.2 - f.1) - 1) * 2 ^ f.1)
    some (d, (sVal s d &&& ~~~m) ||| ((sVal s a <<< f.1) &&& m))
  | _ => none

/-- Destination and value of constants and addresses (R133); their latency is 1 (R137). -/
def constResult (s : State) : Instr → Option (BitVec 6 × Word)
  | .movi _ d (.imm16 i) => some (d, i.signExtend 64)
  | .movi _ d (.lit x) => some (d, x.signExtend 64)
  | .movhi _ d i => some (d, (i ++ (sVal s d).setWidth 16 : BitVec 32).signExtend 64)
  | .movhiW _ d x => some (d, x ++ (sVal s d).setWidth 32)
  | .lea _ d a b k => some (d, sVal s a + src2Val s b <<< k.toNat)
  | _ => none

/-- The f32 bits of an operand (R134). -/
def single (x : Word) : Nat := x.toNat % 2 ^ 32

/-- Destination, latency and 32 result bits of FOP and FCVT to f32 (R134, R136), and the 64-bit results of FCVT to i64 and n64. -/
def floatResult (s : State) : Instr → Option (BitVec 6 × Nat × Nat)
  | .fop _ d a b .fadd => some (d, 3, faddB fmtF32 (single (sVal s a)) (single (src2Val s b)))
  | .fop _ d a b .fsub => some (d, 3, fsubB fmtF32 (single (sVal s a)) (single (src2Val s b)))
  | .fop _ d a b .fmul => some (d, 3, fmulB fmtF32 (single (sVal s a)) (single (src2Val s b)))
  | .fop _ d a b .fma => some (d, 4, fmaB fmtF32 false (single (sVal s a)) (single (src2Val s b)) (single (sVal s d)))
  | .fop _ d a b .fmin => some (d, 3, fminB fmtF32 (single (sVal s a)) (single (src2Val s b)))
  | .fop _ d a b .fmax => some (d, 3, fmaxB fmtF32 (single (sVal s a)) (single (src2Val s b)))
  | .fcvt _ d a .i2f => some (d, 3, convert (sVal s a).toNat .i64 .f32 .rne false 0)
  | .fcvt _ d a .n2f => some (d, 3, narrowF fmtF32 (Dy.ofInt (sVal s a).toNat) .rne false 0)
  | .fcvt _ d a .f2i => some (d, 3, convert (single (sVal s a)) .f32 .i64 .rne false 0)
  | .fcvt _ d a .f2iRtz => some (d, 3, convert (single (sVal s a)) .f32 .i64 .rtz false 0)
  | .fcvt _ d a .f2n => some (d, 3, match decodeF fmtF32 (single (sVal s a)) with
    | .nan => 0
    | .inf neg => if neg then 0 else 2 ^ 64 - 1
    | .fin x => (max 0 (min (2 ^ 64 - 1) (rndI x .rne 0))).toNat)
  | .fcvt _ d a .f2nRtz => some (d, 3, match decodeF fmtF32 (single (sVal s a)) with
    | .nan => 0
    | .inf neg => if neg then 0 else 2 ^ 64 - 1
    | .fin x => (max 0 (min (2 ^ 64 - 1) (rndI x .rtz 0))).toNat)
  | _ => none

/-- The relation of FCMP between two f32 values (R135). -/
def related (f : FcmpF) (x y : FVal) : Bool :=
  match f with
  | .eq => !x.isNan && !y.isNan && x.eqv y
  | .lt => !x.isNan && !y.isNan && x.lt y
  | .le => !x.isNan && !y.isNan && (x.lt y || x.eqv y)
  | .un => x.isNan || y.isNan

end Sys2Proof.Claims

/-- R126, R137: ADD, SUB, ADDI, MUL, MULH, DIV and REM complete. The destination is owed the stated value after the stated latency; no other register, flag or byte of memory changes. DIV and REM need an idle divider (R127). -/
def Sys2Proof.Claims.ScalarArithmetic : Prop := ∀ (s : State) (i : Instr) (d : BitVec 6) (n : Nat) (x : Word),
  arithResult s i = some (d, n, x) → Ready s i → (divides i = true → (getCore s (coreOf s.me)).divBusy ≤ s.clock) →
  ∃ t, exec i s = .next t ∧ DeliversIn s t (.s d) n (.value (x.setWidth 1024)) ∧ RegFrame s t [.s d]

/-- R127: DIV and REM occupy the divider of their core until the destination is FULL, and wait at issue while it is busy: the bundle has no effect but to be tried again. -/
def Sys2Proof.Claims.DividerBusy : Prop := ∀ (s : State) (i : Instr) (d : BitVec 6) (n : Nat) (x : Word),
  arithResult s i = some (d, n, x) → Ready s i → divides i = true → s.gangs.any (fun g => g.gid == s.me.gid) = true →
  ((getCore s (coreOf s.me)).divBusy ≤ s.clock → ∃ t, exec i s = .next t ∧ (getCore t (coreOf s.me)).divBusy = s.clock + n) ∧
  (s.clock < (getCore s (coreOf s.me)).divBusy → exec i s = .next (withMe s (triedMe s)))

/-- The statements Claims.ScalarArithmetic, Claims.DividerBusy together. -/
def Obligations.ArithmeticAndDivider : Prop := Sys2Proof.Claims.ScalarArithmetic ∧ Sys2Proof.Claims.DividerBusy

/-- R128: AND, OR, XOR, LOGI, SHL, SHR, SAR, ROT and SHI complete with the stated value after 1 ck; nothing else changes. -/
def Sys2Proof.Claims.LogicAndShifts : Prop := ∀ (s : State) (i : Instr) (d : BitVec 6) (x : Word),
  logicResult s i = some (d, x) → Ready s i →
  ∃ t, exec i s = .next t ∧ DeliversIn s t (.s d) 1 (.value (x.setWidth 1024)) ∧ RegFrame s t [.s d]

/-- R129: CMP and CMPI write all ones where the condition holds and all zeros where it does not, after 1 ck; nothing else changes. -/
def Sys2Proof.Claims.Compares : Prop := ∀ (s : State) (i : Instr) (d : BitVec 4) (c : Prop),
  compared s i = some (d, c) → Ready s i →
  ∃ t x, exec i s = .next t ∧ DeliversIn s t (.p d) 1 (.value (BitVec.setWidth 1024 (x : PVal))) ∧ (c → x = BitVec.allOnes 128) ∧ (¬ c → x = 0) ∧ RegFrame s t [.p d]

/-- R130, R131: MINMAX, SEL, BITC, EXT and INS complete with the stated value after 1 ck; nothing else changes. -/
def Sys2Proof.Claims.SelectionAndFields : Prop := ∀ (s : State) (i : Instr) (d : BitVec 6) (x : Word),
  fieldResult s i = some (d, x) → Ready s i →
  ∃ t, exec i s = .next t ∧ DeliversIn s t (.s d) 1 (.value (x.setWidth 1024)) ∧ RegFrame s t [.s d]

/-- The statements Claims.LogicAndShifts, Claims.Compares, Claims.SelectionAndFields together. -/
def Obligations.BitsComparesAndFields : Prop := Sys2Proof.Claims.LogicAndShifts ∧ Sys2Proof.Claims.Compares ∧ Sys2Proof.Claims.SelectionAndFields

/-- R133: MOVI, MOVHI, MOVHI.W and LEA complete with the stated value after 1 ck; nothing else changes. -/
def Obligations.ConstantsAndAddresses : Prop := ∀ (s : State) (i : Instr) (d : BitVec 6) (x : Word),
  constResult s i = some (d, x) → Ready s i →
  ∃ t, exec i s = .next t ∧ DeliversIn s t (.s d) 1 (.value (x.setWidth 1024)) ∧ RegFrame s t [.s d]

/-- R134, R136: FOP and FCVT complete with the stated bits after their latency (R137); the bits above an f32 result are zero; nothing else changes. -/
def Obligations.FloatResults : Prop := ∀ (s : State) (i : Instr) (d : BitVec 6) (n b : Nat),
  floatResult s i = some (d, n, b) → Ready s i →
  ∃ t, exec i s = .next t ∧ DeliversIn s t (.s d) n (.value ((BitVec.ofNat 64 b).setWidth 1024)) ∧ RegFrame s t [.s d]

/-- R135: FCMP writes all ones where the relation holds of the two f32 values and all zeros where it does not, after 2 ck; nothing else changes. -/
def Obligations.FloatCompares : Prop := ∀ (s : State) (g d : BitVec 4) (a : BitVec 6) (b : Src2) (f : FcmpF),
  Ready s (.fcmp g d a b f) →
  ∃ t, exec (.fcmp g d a b f) s = .next t ∧ RegFrame s t [.p d] ∧
    DeliversIn s t (.p d) 2 (.value (if related f (decodeF fmtF32 (single (sVal s a))) (decodeF fmtF32 (single (src2Val s b))) then (BitVec.allOnes 128).setWidth 1024 else 0))

/-- R132: MOV of a FULL register copies it after 1 ck. MOV of a PENDING register into another leaves the source POISONED with MOVED and the destination PENDING under the source's tag (s0 and p0 take none); into itself it changes no register. MOV does not wait for its source. -/
def Obligations.MovesFutures : Prop := ∀ (s : State) (g : BitVec 4) (i : Instr) (d a : RegId),
  ((∃ x y, i = .mov g x y ∧ d = .s x ∧ a = .s y) ∨ ∃ x y, i = .movPredicate g x y ∧ d = .p x ∧ a = .p y) → Calm s → GuardOn s i →
  ((s.me.regs.get a).st = .full → ∃ t, exec i s = .next t ∧ DeliversIn s t d 1 (.value (s.me.regs.get a).val) ∧ RegFrame s t [d]) ∧
  ((s.me.regs.get a).st = .pending → regFixed a = false → ∃ t, exec i s = .next t ∧ t.timers = s.timers ∧ RegFrame s t [d, a] ∧
    (d = a → t.me.regs.get a = s.me.regs.get a) ∧
    (d ≠ a → (t.me.regs.get a).st = .poisoned ∧ (t.me.regs.get a).val = 7 ∧ (regFixed d = false → (t.me.regs.get d).st = .pending ∧ (t.me.regs.get d).tag = (s.me.regs.get a).tag) ∧
      (regFixed d = true → t.me.regs.get d = s.me.regs.get d)))


/-! ## Vector results -/

namespace Sys2Proof.Claims

/-- Element `e` of width `w` (R13). -/
def el (w : Nat) (x : VVal) (e : Nat) : Nat := x.toNat / 2 ^ (w * e) % 2 ^ w

/-- Element `e` of width `w` is enabled: the guard is p0, or the bit of the element's lowest byte is set (R35, R141). -/
abbrev on (s : State) (g : BitVec 4) (w e : Nat) : Prop := g = 0 ∨ (pVal s g).getLsbD (e * w / 8) = true

/-- An element read as a number of its type: i types signed, n types unsigned (R144). -/
def num (t : Ty) (x : Nat) : Int := if t.isSigned then (x : Int).bmod (2 ^ t.width) else (x : Int)

/-- The bits of an integer at a type (R65, wrap). -/
def wrapT (t : Ty) (r : Int) : Nat := (r % 2 ^ t.width).toNat

/-- The bits of an integer clamped to the range of a type (R65, sat). -/
def satT (t : Ty) (r : Int) : Nat :=
  wrapT t (if t.isSigned then max (-(2 ^ (t.width - 1))) (min (2 ^ (t.width - 1) - 1) r) else max 0 (min (2 ^ t.width - 1) r))

/-- An instruction's element result: for a float type with its format, for an integer type on numbers. -/
def byType (t : Ty) (flt : FFmt → Nat) (int : Nat) : Nat :=
  match fmtOf t with
  | some m => flt m
  | none => int

/-- The merging element-wise instructions (R144, R145, R152, R153, R157): guard, destination, type, latency, and the result of an enabled element. -/
def vecMerge (s : State) : Instr → Option (BitVec 4 × BitVec 5 × Ty × Nat × (Nat → Nat))
  | .vadd g d a b t sat => some (g, d, t, if isFloatTy t then 4 else 2, fun e => byType t (fun m => faddB m (el t.width (vVal s a) e) (el t.width (vVal s b) e))
      ((if sat then satT else wrapT) t (num t (el t.width (vVal s a) e) + num t (el t.width (vVal s b) e))))
  | .vsub g d a b t sat => some (g, d, t, if isFloatTy t then 4 else 2, fun e => byType t (fun m => fsubB m (el t.width (vVal s a) e) (el t.width (vVal s b) e))
      ((if sat then satT else wrapT) t (num t (el t.width (vVal s a) e) - num t (el t.width (vVal s b) e))))
  | .vmul g d a b t hi => some (g, d, t, if isFloatTy t then 4 else 3, fun e => byType t (fun m => fmulB m (el t.width (vVal s a) e) (el t.width (vVal s b) e))
      (wrapT t (num t (el t.width (vVal s a) e) * num t (el t.width (vVal s b) e) / (if hi then 2 ^ t.width else 1))))
  | .vfma g d a b t neg => some (g, d, t, if isFloatTy t then 4 else 3, fun e => byType t (fun m => fmaB m neg (el t.width (vVal s a) e) (el t.width (vVal s b) e) (el t.width (vVal s d) e))
      (wrapT t ((if neg then -1 else 1) * (num t (el t.width (vVal s a) e) * num t (el t.width (vVal s b) e)) + num t (el t.width (vVal s d) e))))
  | .vmin g d a b t => some (g, d, t, if isFloatTy t then 4 else 2, fun e => byType t (fun m => fminB m (el t.width (vVal s a) e) (el t.width (vVal s b) e))
      (wrapT t (min (num t (el t.width (vVal s a) e)) (num t (el t.width (vVal s b) e)))))
  | .vmax g d a b t => some (g, d, t, if isFloatTy t then 4 else 2, fun e => byType t (fun m => fmaxB m (el t.width (vVal s a) e) (el t.width (vVal s b) e))
      (wrapT t (max (num t (el t.width (vVal s a) e)) (num t (el t.width (vVal s b) e)))))
  | .vuna g d a t neg => some (g, d, t, if isFloatTy t then 4 else 2, fun e => byType t
      (fun m => if (decodeF m (el t.width (vVal s a) e)).isNan then qnanBits m
        else if neg then (el t.width (vVal s a) e) ^^^ 2 ^ (t.width - 1) else (el t.width (vVal s a) e) % 2 ^ (t.width - 1))
      (wrapT t (if neg then -num t (el t.width (vVal s a) e) else |num t (el t.width (vVal s a) e)|)))
  | .vand g d a b t => some (g, d, t, 2, fun e => el t.width (vVal s a &&& vVal s b) e)
  | .vor g d a b t => some (g, d, t, 2, fun e => el t.width (vVal s a ||| vVal s b) e)
  | .vxor g d a b t => some (g, d, t, 2, fun e => el t.width (vVal s a ^^^ vVal s b) e)
  | .vshl g d a b t => some (g, d, t, 2, fun e => (BitVec.ofNat t.width (el t.width (vVal s a) e) <<< (el t.width (vVal s b) e % t.width)).toNat)
  | .vshr g d a b t ar => some (g, d, t, 2, fun e => if ar
      then ((BitVec.ofNat t.width (el t.width (vVal s a) e)).sshiftRight (el t.width (vVal s b) e % t.width)).toNat
      else (BitVec.ofNat t.width (el t.width (vVal s a) e) >>> (el t.width (vVal s b) e % t.width)).toNat)
  | .vperm g d a b t => some (g, d, t, 3, fun e => if el t.width (vVal s b) e < 1024 / t.width then el t.width (vVal s a) (el t.width (vVal s b) e) else 0)
  | .vbcast g d a t fromV => some (g, d, t, 2, fun _ => if fromV then el t.width (vVal s a) 0 else (sVal s (a.setWidth 6)).toNat % 2 ^ t.width)
  | .vidx g d t => some (g, d, t, 2, fun e => wrapT t e)
  | .vfun g d a f => some (g, d, .f32, 12, fun e => vfunBits f (el 32 (vVal s a) e))
  | .vpopc g d a t => some (g, d, t, 2, fun e => (List.range t.width).countP fun k => (el t.width (vVal s a) e).testBit k)
  | _ => none

/-- A relation of VCMP between two values (R146). -/
def vrel (c : VcmpC) (x y : FVal) : Bool :=
  match c with
  | .eq => !x.isNan && !y.isNan && x.eqv y
  | .ne => x.isNan || y.isNan || !x.eqv y
  | .lt => !x.isNan && !y.isNan && x.lt y
  | .le => !x.isNan && !y.isNan && (x.lt y || x.eqv y)
  | .gt => !x.isNan && !y.isNan && y.lt x
  | .ge => !x.isNan && !y.isNan && (y.lt x || x.eqv y)
  | .un => x.isNan || y.isNan

/-- The merging tests (R146, R155, R156): guard, destination, type, and the result of an enabled element. Their latency is 3 (R157). -/
def vecTest (s : State) : Instr → Option (BitVec 4 × BitVec 4 × Ty × (Nat → Prop))
  | .vcmp g d a b t c => some (g, d, t, fun e => vrel c (valueOf t (el t.width (vVal s a) e)) (valueOf t (el t.width (vVal s b) e)) = true)
  | .vmatch g d a b t => some (g, d, t, fun e =>
      let n := 1024 / t.width
      let m := el t.width (vVal s b) (n - 1)
      1 ≤ m ∧ m ≤ n - 1 ∧ ∀ k, k < m → e + k < n → el t.width (vVal s a) (e + k) = el t.width (vVal s b) k)
  | .vbitsTest g d a b t => some (g, d, t, fun e => (vVal s b).getLsbD (el t.width (vVal s a) e % 1024) = true)
  | _ => none

/-- A combination of VRED and VSCAN (R151). -/
def comb2 (t : Ty) (f : RedF) (a b : Nat) : Nat :=
  match f with
  | .add => byType t (fun m => faddB m a b) (wrapT t (num t a + num t b))
  | .min => byType t (fun m => fminB m a b) (wrapT t (min (num t a) (num t b)))
  | .max => byType t (fun m => fmaxB m a b) (wrapT t (max (num t a) (num t b)))
  | .and => a &&& b
  | .or => a ||| b
  | .xor => a ^^^ b

/-- The identity of a combination (R151). -/
def ident (t : Ty) (f : RedF) : Nat :=
  match f with
  | .add => byType t (fun _ => 2 ^ (t.width - 1)) 0
  | .min => byType t (fun m => infBits m false) (wrapT t (if t.isSigned then 2 ^ (t.width - 1) - 1 else 2 ^ t.width - 1))
  | .max => byType t (fun m => infBits m true) (wrapT t (if t.isSigned then -(2 ^ (t.width - 1)) else 0))
  | .and => 2 ^ t.width - 1
  | .or | .xor => 0

/-- What VRED and VSCAN start from: the element, or the identity where it is disabled. -/
def redIn (s : State) (g : BitVec 4) (a : BitVec 5) (t : Ty) (f : RedF) (e : Nat) : Nat :=
  if on s g t.width e then el t.width (vVal s a) e else ident t f

/-- The tree of VRED over 2^k elements: neighbours combine (R151). -/
def tree (c : Nat → Nat → Nat) : Nat → (Nat → Nat) → Nat
  | 0, x => x 0
  | k + 1, x => tree c k fun j => c (x (2 * j)) (x (2 * j + 1))

/-- The steps of VSCAN at distances d, 2d, ... (R151). -/
def scan (c : Nat → Nat → Nat) : Nat → Nat → (Nat → Nat) → Nat → Nat
  | 0, _, x => x
  | k + 1, d, x => scan c k (2 * d) fun i => if d ≤ i then c (x (i - d)) (x i) else x i

/-- Whether two keys of VCX stand in the wrong order: `up` for rising (R154). -/
def keyAbove (t : Ty) (x y : Nat) : Bool :=
  match fmtOf t with
  | some m => if (decodeF m y).isNan then false else if (decodeF m x).isNan then true else (decodeF m y).below (decodeF m x)
  | none => decide (num t y < num t x)

/-- VCX: which element of the payload element `e` receives (R154). -/
def vcxFrom (s : State) (g : BitVec 4) (a : BitVec 5) (t : Ty) (k e : Nat) : Nat :=
  let lo := if e / 2 ^ k % 2 = 1 then e - 2 ^ k else e
  let hi := lo + 2 ^ k
  let swap := if on s g t.width lo then keyAbove t (el t.width (vVal s a) lo) (el t.width (vVal s a) hi) else keyAbove t (el t.width (vVal s a) hi) (el t.width (vVal s a) lo)
  if swap then (if e = lo then hi else lo) else e

/-- A source element of VCVT: an mx8 element takes the scale of its block of 32 and the kind from the next register (R74, R149). -/
def source (s : State) (a : BitVec 5) (f : Ty) (e : Nat) : FVal :=
  if f = .mx8 then mxValue ((vVal s (a + 1)).getLsbD 32) (el 8 (vVal s (a + 1)) (e / 32)) (el 8 (vVal s a) e) else valueOf f (el f.width (vVal s a) e)

/-- Argument r of a conversion outside a loop (R78). -/
def chance (s : State) (e x : Nat) : Nat := rand32 (seedOf s s.me) s.me.pc.toNat s.me.lidx.toNat 0 e x

/-- The part of VD that VQNT writes (R150). -/
def part (s : State) (b : BitVec 5) (t : Ty) : Nat := (vVal s b).toNat / 2 ^ 6 % (32 / t.width)

/-- A lane of VQNT before its offset: the accumulator divided by 2^SH and rounded (R150). -/
def lane (s : State) (a b : BitVec 5) (rtz : Bool) (i : Nat) : Int :=
  let x := num .i32 (el 32 (vVal s a) i)
  rndI ⟨decide (x < 0), x.natAbs, -((el 32 (vVal s b) i % 2 ^ 6 : Nat) : Int)⟩ (if rtz then .rtz else .rne) 0

end Sys2Proof.Claims

/-- R141, R144, R145, R152, R153: the merging element-wise instructions complete. Each enabled element of the destination will hold the stated result and every other its old value; nothing else changes. -/
def Sys2Proof.Claims.VectorElementwise : Prop := ∀ (s : State) (i : Instr) (g : BitVec 4) (d : BitVec 5) (t : Ty) (n : Nat) (f : Nat → Nat),
  vecMerge s i = some (g, d, t, n, f) → wellFormed i = true → Ready s i →
  ∃ u x, exec i s = .next u ∧ DeliversIn s u (.v d) n (.value x) ∧ RegFrame s u [.v d] ∧
    ∀ e, e < 1024 / t.width → (on s g t.width e → el t.width x e = f e % 2 ^ t.width) ∧ (¬ on s g t.width e → el t.width x e = el t.width (vVal s d) e)

/-- R13, R146, R155, R156: VCMP, VMATCH and VBITS test complete. Every bit of the byte group of an enabled element will hold the result, every other bit its old value; nothing else changes. -/
def Sys2Proof.Claims.VectorTests : Prop := ∀ (s : State) (i : Instr) (g d : BitVec 4) (t : Ty) (f : Nat → Prop),
  vecTest s i = some (g, d, t, f) → wellFormed i = true → Ready s i →
  ∃ u, ∃ x : PVal, exec i s = .next u ∧ DeliversIn s u (.p d) 3 (.value (BitVec.setWidth 1024 x)) ∧ RegFrame s u [.p d] ∧
    ∀ k, k < 128 → (on s g t.width (k / (t.width / 8)) → (x.getLsbD k = true ↔ f (k / (t.width / 8)))) ∧
      (¬ on s g t.width (k / (t.width / 8)) → x.getLsbD k = (pVal s d).getLsbD k)

/-- The statements Claims.VectorElementwise, Claims.VectorTests together. -/
def Obligations.VectorElementsAndTests : Prop := Sys2Proof.Claims.VectorElementwise ∧ Sys2Proof.Claims.VectorTests

/-- R151: VRED leaves the tree's result in element 0 and zero in the others; VSCAN leaves the prefix combinations; a disabled element enters as the identity; nothing else changes. -/
def Sys2Proof.Claims.VectorReductions : Prop := ∀ (s : State) (g : BitVec 4) (d a : BitVec 5) (t : Ty) (f : RedF),
  (wellFormed (.vred g d a t f) = true → Ready s (.vred g d a t f) →
    ∃ u x, exec (.vred g d a t f) s = .next u ∧ DeliversIn s u (.v d) (if isFloatTy t then 10 else 6) (.value x) ∧ RegFrame s u [.v d] ∧
      el t.width x 0 = tree (comb2 t f) (Nat.log2 (1024 / t.width)) (redIn s g a t f) % 2 ^ t.width ∧ ∀ e, 0 < e → e < 1024 / t.width → el t.width x e = 0) ∧
  (wellFormed (.vscan g d a t f) = true → Ready s (.vscan g d a t f) →
    ∃ u x, exec (.vscan g d a t f) s = .next u ∧ DeliversIn s u (.v d) (if isFloatTy t then 10 else 6) (.value x) ∧ RegFrame s u [.v d] ∧
      ∀ e, e < 1024 / t.width → el t.width x e = scan (comb2 t f) (Nat.log2 (1024 / t.width)) 1 (redIn s g a t f) e % 2 ^ t.width)

/-- R147, R152, R154: VSEL, VMOVS, VINS and VCX complete with the stated elements; nothing else changes. -/
def Sys2Proof.Claims.VectorMoves : Prop := ∀ (s : State) (g : BitVec 4) (d a b : BitVec 5) (t : Ty) (k : BitVec 3),
  (wellFormed (.vsel g d a b t) = true → Ready s (.vsel g d a b t) →
    ∃ u x, exec (.vsel g d a b t) s = .next u ∧ DeliversIn s u (.v d) 2 (.value x) ∧ RegFrame s u [.v d] ∧
      ∀ e, e < 1024 / t.width → ((pVal s g).getLsbD (e * t.width / 8) = true → el t.width x e = el t.width (vVal s a) e) ∧
        ((pVal s g).getLsbD (e * t.width / 8) = false → el t.width x e = el t.width (vVal s b) e)) ∧
  (wellFormed (.vmovs g d a b t) = true → Ready s (.vmovs g d a b t) →
    let j := (sVal s (b.setWidth 6)).toNat
    ∃ u, exec (.vmovs g d a b t) s = .next u ∧ RegFrame s u [.s (d.setWidth 6)] ∧ DeliversIn s u (.s (d.setWidth 6)) 2 (.value (BitVec.setWidth 1024 (
      if 1024 / t.width ≤ j then (0 : Word) else BitVec.ofInt 64 (num t (el t.width (vVal s a) j)))))) ∧
  (wellFormed (.vins g d a b t) = true → Ready s (.vins g d a b t) →
    ∃ u x, exec (.vins g d a b t) s = .next u ∧ DeliversIn s u (.v d) 2 (.value x) ∧ RegFrame s u [.v d] ∧
      ∀ e, e < 1024 / t.width → el t.width x e = if e = (sVal s (b.setWidth 6)).toNat then (sVal s (a.setWidth 6)).toNat % 2 ^ t.width else el t.width (vVal s d) e) ∧
  (wellFormed (.vcx g d a b t k) = true → Ready s (.vcx g d a b t k) →
    ∃ u x, exec (.vcx g d a b t k) s = .next u ∧ DeliversIn s u (.v d) 2 (.value x) ∧ RegFrame s u [.v d] ∧
      ∀ e, e < 1024 / t.width → el t.width x e = el t.width (vVal s b) (vcxFrom s g a t k.toNat e))

/-- The statements Claims.VectorReductions, Claims.VectorMoves together. -/
def Obligations.VectorReductionsAndMoves : Prop := Sys2Proof.Claims.VectorReductions ∧ Sys2Proof.Claims.VectorMoves

/-- R148, R150, R156: VCVT to a type other than mx8 converts each enabled element and zeroes those past the conversion; VQNT writes the enabled lanes of the part that lane 0 names; VBITS set and clear change the bits that enabled elements name. Nothing else changes. -/
def Sys2Proof.Claims.VectorConversions : Prop := ∀ (s : State) (g : BitVec 4) (d a b : BitVec 5) (t f : Ty) (nan rtz : Bool) (r : Rm),
  (wellFormed (.vcvt g d a f t nan r) = true → t ≠ .mx8 → Ready s (.vcvt g d a f t nan r) →
    ∃ u x, exec (.vcvt g d a f t nan r) s = .next u ∧ DeliversIn s u (.v d) 4 (.value x) ∧ RegFrame s u [.v d] ∧
      ∀ e, e < 1024 / t.width →
        (1024 / max f.width t.width ≤ e → el t.width x e = 0) ∧
        (e < 1024 / max f.width t.width → on s g t.width e → el t.width x e = convertV (source s a f e) f.isInt t (rmodeOf r) nan (chance s e (el f.width (vVal s a) e)) % 2 ^ t.width) ∧
        (e < 1024 / max f.width t.width → ¬ on s g t.width e → el t.width x e = el t.width (vVal s d) e)) ∧
  (wellFormed (.vqnt g d a b t rtz) = true → Ready s (.vqnt g d a b t rtz) →
    ∃ u x, exec (.vqnt g d a b t rtz) s = .next u ∧ DeliversIn s u (.v d) 3 (.value x) ∧ RegFrame s u [.v d] ∧
      ∀ e, e < 1024 / t.width →
        (part s b t = e / 32 → on s g 32 (e % 32) → el t.width x e = satT t (lane s a b rtz (e % 32) + num .i16 (el 32 (vVal s b) (e % 32) / 2 ^ 8 % 2 ^ 16))) ∧
        (¬ (part s b t = e / 32 ∧ on s g 32 (e % 32)) → el t.width x e = el t.width (vVal s d) e)) ∧
  (wellFormed (.vbitsSet g d a b t) = true → Ready s (.vbitsSet g d a b t) →
    ∃ u x, exec (.vbitsSet g d a b t) s = .next u ∧ DeliversIn s u (.v d) 3 (.value x) ∧ RegFrame s u [.v d] ∧
      ∀ k, k < 1024 → (x.getLsbD k = true ↔ ((vVal s b).getLsbD k = true ∨ ∃ e, e < 1024 / t.width ∧ on s g t.width e ∧ el t.width (vVal s a) e % 1024 = k))) ∧
  (wellFormed (.vbitsClear g d a b t) = true → Ready s (.vbitsClear g d a b t) →
    ∃ u x, exec (.vbitsClear g d a b t) s = .next u ∧ DeliversIn s u (.v d) 3 (.value x) ∧ RegFrame s u [.v d] ∧
      ∀ k, k < 1024 → (x.getLsbD k = true ↔ ((vVal s b).getLsbD k = true ∧ ¬ ∃ e, e < 1024 / t.width ∧ on s g t.width e ∧ el t.width (vVal s a) e % 1024 = k)))

/-- R149: VCVT to mx8 leaves, 6 ck later, the codes of each block of 32 source elements in VD and the block scales with the kind in VD + 1, and zero in the rest of both; nothing else changes. Of the 16 elements that an i64 source gives, half a block, the codes and the scale are free (log 26). -/
def Sys2Proof.Claims.VectorScaledConversion : Prop := ∀ (s : State) (g : BitVec 4) (d a : BitVec 5) (f : Ty) (nan : Bool) (r : Rm),
  wellFormed (.vcvt g d a f .mx8 nan r) = true → Ready s (.vcvt g d a f .mx8 nan r) →
  let n := 1024 / max f.width 8
  let k := (vVal s (d + 1)).getLsbD 32
  let block := fun j => toMx ((List.range 32).map fun e => source s a f (32 * j + e)) k (rmodeOf r) nan
    ((List.range 32).map fun e => chance s (32 * j + e) (el f.width (vVal s a) (32 * j + e)))
  ∃ u x y p q, exec (.vcvt g d a f .mx8 nan r) s = .next u ∧ RegFrame s u [.v d, .v (d + 1)] ∧ p ≠ q ∧
    u.me.regs.get (.v d) = ⟨0, .pending, p⟩ ∧ u.me.regs.get (.v (d + 1)) = ⟨0, .pending, q⟩ ∧
    u.timers = s.timers ++ [⟨s.clock + 6, .delivery s.me.sid p (.value x)⟩, ⟨s.clock + 6, .delivery s.me.sid q (.value y)⟩] ∧
    (∀ e, e < 128 → n ≤ e → el 8 x e = 0) ∧ (f ≠ .i64 → ∀ e, e < n → el 8 x e = (block (e / 32)).1.getD (e % 32) 0 % 2 ^ 8) ∧
    el 8 y 4 = k.toNat ∧ (∀ j, j < 128 → n / 32 ≤ j → j ≠ 0 → j ≠ 4 → el 8 y j = 0) ∧ (f ≠ .i64 → ∀ j, j < n / 32 → el 8 y j = (block j).2 % 2 ^ 8)


/-- The statements Claims.VectorConversions, Claims.VectorScaledConversion together. -/
def Obligations.VectorConversionsAll : Prop := Sys2Proof.Claims.VectorConversions ∧ Sys2Proof.Claims.VectorScaledConversion

/-! ## Slot 0: branches, loops, waiting -/

namespace Sys2Proof.Claims

/-- Target of a branch or call, and whether it saves a return address (R45, R91). -/
def branch (s : State) : Instr → Option (Word × Bool)
  | .br _ o => some (s.me.pc + BitVec.ofInt 64 (32 * o.toInt), false)
  | .call _ o => some (s.me.pc + BitVec.ofInt 64 (32 * o.toInt), true)
  | .brx _ b => some (sVal s b &&& ~~~(31 : Word), false)
  | .callx _ b => some (sVal s b &&& ~~~(31 : Word), true)
  | _ => none

/-- The count of a loop instruction, and its BLEN (R94). -/
def looping (s : State) : Instr → Option (Word × BitVec 6)
  | .loop _ c n => some (sVal s c, n)
  | .loopi _ c n => some (c.setWidth 64, n)
  | _ => none

/-- The address of the last bundle of a loop's body (R94). -/
def lastOf (l : LoopSt) : Word := l.first + BitVec.ofNat 64 (32 * l.blen.toNat)

/-- Registers in a file (R11). -/
def fileLen : RFile → Nat
  | .s => 64
  | .v => 32
  | .p => 16

/-- A register of a file. -/
def member (f : RFile) (k : Nat) : RegId :=
  match f with
  | .s => .s (BitVec.ofNat 6 k)
  | .v => .v (BitVec.ofNat 5 k)
  | .p => .p (BitVec.ofNat 4 k)

/-- What STATE writes of a register (R100). -/
def stateBits (y : RegVal) : Nat :=
  match y.st with
  | .full => 0
  | .pending => 1
  | .poisoned => 2 + 2 ^ 16 * (y.val.toNat % 2 ^ 16)

end Sys2Proof.Claims

/-- R40, R42, R91, R92: NOP completes and changes nothing but the place in the program; BR, BRX, CALL and CALLX go to their target and leave the context not ready for 2 ck more; the calls fill s47 with the return address after 1 ck. -/
def Obligations.Branches : Prop := ∀ (s : State),
  (Ready s .nop → ∃ t, exec .nop s = .next t ∧ t.timers = s.timers ∧ RegFrame s t []) ∧
  ∀ (i : Instr) (a : Word) (link : Bool), branch s i = some (a, link) → Ready s i →
    ∃ t, exec i s = .next t ∧ Kept (withMe s { s.me with notBefore := s.clock + 3 }) t (if link then [.s 47] else []) ∧ t.me.pc = a ∧ t.me.st = .running ∧
      if link then DeliversIn s t (.s 47) 1 (.value ((s.me.pc + 32).setWidth 1024)) else t.timers = s.timers

/-- R93, R94: LOOP and LOOPI with a count start the loop at the next bundle; with a count of zero they branch past the body; LOOPH sets the rings, or traps LOOP_BODY where bits 24 to 63 are not zero. Nothing else changes. -/
def Sys2Proof.Claims.Loops : Prop := ∀ (s : State),
  (∀ (i : Instr) (c : Word) (n : BitVec 6), looping s i = some (c, n) → Ready s i →
    (c ≠ 0 → ∃ t, exec i s = .next t ∧ t.timers = s.timers ∧ Advanced s t ∧
      Kept (withMe s { s.me with loop := { s.me.loop with iter := 0, count := c, first := s.me.pc + 32, blen := n, active := true } }) t []) ∧
    (c = 0 → ∃ t, exec i s = .next t ∧ t.timers = s.timers ∧ t.me.pc = s.me.pc + BitVec.ofNat 64 (32 * (n.toNat + 2)) ∧ t.me.st = .running ∧
      Kept (withMe s { s.me with notBefore := s.clock + 3 }) t [])) ∧
  ∀ (g : BitVec 4) (b : BitVec 6), Ready s (.looph g b) →
    ((sVal s b).toNat < 2 ^ 24 → ∃ t, exec (.looph g b) s = .next t ∧ t.timers = s.timers ∧ Advanced s t ∧
      Kept (withMe s { s.me with loop := { s.me.loop with rings := (sVal s b).setWidth 24 } }) t []) ∧
    (2 ^ 24 ≤ (sVal s b).toNat → exec (.looph g b) s = .next (takeTrap s .loopBody 1 0 0))

/-- R94, R95, R97: the last bundle of a loop's body goes back to the first with the iteration counted, or ends the loop with the last iteration; LEXIT ends it, as a taken branch to the bundle after the last. LEXIT outside a loop and LOOP inside one trap LOOP_BODY. -/
def Sys2Proof.Claims.LoopTurns : Prop := ∀ (s : State) (g : BitVec 4), Still s →
  (s.me.loop.active = true → s.me.pc = lastOf s.me.loop → GuardOn s .nop →
    ∃ t, exec .nop s = .next t ∧ t.timers = s.timers ∧ t.me.st = .running ∧
      Kept (withMe s { s.me with loop := { s.me.loop with iter := s.me.loop.iter + 1, active := decide (s.me.loop.iter + 1 ≠ s.me.loop.count) } }) t [] ∧
      t.me.pc = if s.me.loop.iter + 1 = s.me.loop.count then s.me.pc + 32 else s.me.loop.first) ∧
  (s.me.loop.active = true → GuardOn s (.lexit g) →
    ∃ t, exec (.lexit g) s = .next t ∧ t.timers = s.timers ∧ t.me.st = .running ∧ t.me.pc = lastOf s.me.loop + 32 ∧
      Kept (withMe s { s.me with loop := { s.me.loop with active := false }, notBefore := s.clock + 3 }) t []) ∧
  (s.me.loop.active = false → GuardOn s (.lexit g) → exec (.lexit g) s = .next (takeTrap s .loopBody 1 0 0)) ∧
  ∀ (i : Instr) (c : Word) (n : BitVec 6), looping s i = some (c, n) → s.me.loop.active = true → isFull s (.p (guardOf i)) → (pVal s (guardOf i)).getLsbD 0 = true →
    exec i s = .next (takeTrap s .loopBody 1 0 0)

/-- The statements Claims.Loops, Claims.LoopTurns together. -/
def Obligations.LoopsAndTheirTurns : Prop := Sys2Proof.Claims.Loops ∧ Sys2Proof.Claims.LoopTurns

/-- R98, R276: WAIT of a register that is not PENDING does nothing more; of one that is PENDING it parks the strand on it. -/
def Sys2Proof.Claims.Waiting : Prop := ∀ (s : State) (g : BitVec 4) (a : RegId), Calm s → GuardOn s (.wait g a) →
  ((s.me.regs.get a).st ≠ .pending → ∃ t, exec (.wait g a) s = .next t ∧ t.timers = s.timers ∧ RegFrame s t []) ∧
  ((s.me.regs.get a).st = .pending → exec (.wait g a) s = .next (parkedOn s (some a)))

/-- R99, R100: WAITANY fills A with 64 for an empty set, else with the least member that is not PENDING, else parks on the set; STATE fills A with a register's state and code. Unreplicated, with no choice made by a wake. -/
def Sys2Proof.Claims.WaitingOnSets : Prop := ∀ (s : State) (g : BitVec 4) (f : RFile) (b a : BitVec 6) (r : RegId),
  (Ready s (.waitany g f b a) → replicated s s.me = false → s.me.choice = none →
    ((∀ k, k < fileLen f → (sVal s b).getLsbD k = false) → ∃ t, exec (.waitany g f b a) s = .next t ∧ RegFrame s t [.s a] ∧ DeliversIn s t (.s a) 1 (.value 64)) ∧
    (∀ k, k < fileLen f → (sVal s b).getLsbD k = true → (s.me.regs.get (member f k)).st ≠ .pending →
      (∀ j, j < k → (sVal s b).getLsbD j = true → (s.me.regs.get (member f j)).st = .pending) →
      ∃ t, exec (.waitany g f b a) s = .next t ∧ RegFrame s t [.s a] ∧ DeliversIn s t (.s a) 1 (.value (BitVec.ofNat 1024 k))) ∧
    ((∃ k, k < fileLen f ∧ (sVal s b).getLsbD k = true) → (∀ k, k < fileLen f → (sVal s b).getLsbD k = true → (s.me.regs.get (member f k)).st = .pending) →
      exec (.waitany g f b a) s = .next (withMe s { (parkedOn s none).me with waitset := some (f, sVal s b) }))) ∧
  (Calm s → GuardOn s (.state g r a) → ∃ t, exec (.state g r a) s = .next t ∧ RegFrame s t [.s a] ∧ DeliversIn s t (.s a) 1 (.value (BitVec.ofNat 1024 (stateBits (s.me.regs.get r)))))

/-- The statements Claims.Waiting, Claims.WaitingOnSets together. -/
def Obligations.WaitingOnRegisters : Prop := Sys2Proof.Claims.Waiting ∧ Sys2Proof.Claims.WaitingOnSets

/-- R101: YIELD makes the context ready in the next ck for the selection; SLEEP of n ck keeps it from issuing until n ck after the next, and of 0 ck does nothing. -/
def Sys2Proof.Claims.YieldAndSleep : Prop := ∀ (s : State) (g : BitVec 4) (b : BitVec 6),
  (Ready s (.yield g) → ∃ t, exec (.yield g) s = .next t ∧ t.timers = s.timers ∧ RegFrame s t [] ∧ t.me.readyAt = s.clock + 1) ∧
  (Ready s (.sleep g b) → (sVal s b).toNat % 2 ^ 32 = 0 → ∃ t, exec (.sleep g b) s = .next t ∧ t.timers = s.timers ∧ RegFrame s t []) ∧
  (Ready s (.sleep g b) → (sVal s b).toNat % 2 ^ 32 ≠ 0 → ∃ t, exec (.sleep g b) s = .next t ∧ Advanced s t ∧ t.me.asleep = true ∧
    t.timers = s.timers ++ [⟨s.clock + ((sVal s b).toNat % 2 ^ 32 + 1), .sleepEnd s.me.sid⟩] ∧
    Kept (withMe s { s.me with notBefore := s.clock + 1 + (sVal s b).toNat % 2 ^ 32 }) t [])


/-! ## Slot 0: semaphores, barriers, fences, tiles, system registers, predicates -/

namespace Sys2Proof.Claims

/-- The sum that a semaphore's count takes: it stops at 2^32 - 1 (R105). -/
def countSum (c n : BitVec 32) : BitVec 32 := BitVec.ofNat 32 (min (c.toNat + n.toNat) (2 ^ 32 - 1))

/-- A state with barrier k of the gang of the strand at issue replaced. -/
def withBarrier (s : State) (k : BitVec 4) (x : Barrier) : State :=
  updGang s s.me.gid fun g => { g with barriers := g.barriers.set k.toNat x (by omega) }

/-- The strand at issue once it has performed the first replayed instruction of its window (R328). -/
def replayOnce (s : State) : Strand := { s.me with replay := some ⟨s.me.log.length, 1, 1⟩ }

/-- A phase completes when its arrivals and bytes are there (R107). -/
abbrev phaseDone (x : Barrier) : Prop := x.expa ≠ 0 ∧ x.arrived = x.expa ∧ x.expb.toNat ≤ x.bytes

/-- A barrier after its phase has completed (R107). -/
def nextPhase (x : Barrier) : Barrier := { x with phase := x.phase + 1, arrived := 0, bytes := 0, expa := x.expa - x.drops, drops := 0, waiters := [] }

/-- A barrier that KINIT has set from a counts word (R106). -/
def freshBarrier (w : Word) : Barrier :=
  { expa := w.setWidth 7, expb := (w >>> 32).setWidth 32, arrived := 0, drops := 0, bytes := 0, phase := 0
    bad := decide (w.toNat % 2 ^ 7 = 0 ∨ 64 < w.toNat % 2 ^ 7 ∨ w.toNat / 2 ^ 7 % 2 ^ 25 ≠ 0), waiters := [] }

/-- The tile count of a dimension (R112, R115). -/
def tiles (counts : Word) (d : Nat) : Nat := counts.toNat / 2 ^ (16 * d) % 2 ^ 16

/-- The index of tile t in dimension d of a nest of n + 1 dimensions: the last dimension varies fastest (R112). -/
def tileIndex (counts : Word) (n t d : Nat) : Nat :=
  if n < d then 0 else t / (((List.range (n + 1)).filter fun e => d < e).map (tiles counts)).prod % tiles counts d

/-- The value of a system register that a strand of gang `g` and job `j` reads (R26). -/
def sysBits (s : State) (g : Gang) (j : Job) : SysReg → Word
  | .strand => s.me.lidx.setWidth 64
  | .nstrand => BitVec.ofNat 64 g.task.nstr
  | .gang => BitVec.ofNat 64 (g.task.width + 2 ^ 4 * g.task.height + 2 ^ 8 * g.cluster)
  | .task => g.task.taskno.setWidth 64
  | .job => BitVec.ofNat 64 (g.job + 2 ^ 16 * j.asid + 2 ^ 28 * j.priv.toNat)
  | .die => BitVec.ofNat 64 (coreOf s.me / 192)
  | .device => BitVec.ofNat 64 (if s.numset then s.devnum.toNat + 2 ^ 12 else 0)
  | .repl => BitVec.ofNat 64 (max g.repl.toNat 1 + 2 ^ 2 * g.ridx.toNat)
  | .context => BitVec.setWidth 64 ((s.me.loc.map Prod.snd).getD 0)
  | .clock => BitVec.ofNat 64 s.clock
  | .window => BitVec.ofNat 64 (s.me.window.toNat + 2 ^ 32 * s.me.gated.length)
  | .nearstall => s.me.nearstall
  | .traprec => s.me.trec
  | .arg0 => g.task.arg0
  | .arg1 => g.task.arg1
  | .readymap => s.ready.setWidth 64
  | .faultinj => s.me.faultinj
  | .perf i => s.me.perf[i.toNat]'(by omega)
  | .perfsel i => (s.me.perfsel[i.toNat]'(by omega)).setWidth 64

/-- The strand after SETS (R26): fields that the register does not list ignore the write. -/
def sysSet (t : Strand) (x : Word) : SysReg → Strand
  | .nearstall => { t with nearstall := x }
  | .faultinj => { t with faultinj := (x.setWidth 38).setWidth 64, storeCount := 0 }
  | .perf i => { t with perf := t.perf.set i.toNat x (by omega) }
  | .perfsel i => { t with perfsel := t.perfsel.set i.toNat (x.setWidth 8) (by omega) }
  | _ => t

end Sys2Proof.Claims

/-- R105: SEMA obligates A and becomes outstanding with its n, or waits at issue while one is outstanding; SEMR adds its n, stopping at 2^32 - 1; a SEMA whose n the count has reached takes it and delivers the old count. Unreplicated. -/
def Sys2Proof.Claims.Semaphores : Prop := ∀ (s : State) (g q : BitVec 4) (b a : BitVec 6),
  (Ready s (.sema g q b a) → replicated s s.me = false → (gangOf s s.me).isSome = true →
    ((getSema s.me q).out = true → exec (.sema g q b a) s = .next (withMe s (triedMe s))) ∧
    ((getSema s.me q).out = false → ∃ t o, exec (.sema g q b a) s = .next t ∧ Advanced s t ∧ t.timers = s.timers ++ [⟨s.clock + 1, .semaFill s.me.sid q⟩] ∧
      getSema t.me q = ⟨(getSema s.me q).count, (sVal s b).setWidth 32, true, .s a, o⟩ ∧ (a = 0 → o = none) ∧ (a ≠ 0 → ∃ g, o = some g ∧ Owed s t (.s a) g) ∧
      ((s.me.q.toList.all fun q => !q.out) = true → ∀ k, k ≠ q → getSema t.me k = getSema s.me k) ∧
      Kept (withMe s { s.me with q := s.me.q.set q.toNat ⟨(getSema s.me q).count, (sVal s b).setWidth 32, true, .s a, o⟩ (by omega) }) t [.s a])) ∧
  (Ready s (.semr g q b) → s.me.replay = none → s.me.loc.isSome = true → ∃ t, exec (.semr g q b) s = .next t ∧ Advanced s t ∧
    t.timers = s.timers ++ [⟨s.clock, .semaFill s.me.sid q⟩] ∧
    t.me.q = s.me.q.set q.toNat { getSema s.me q with count := countSum (getSema s.me q).count ((sVal s b).setWidth 32) } (by omega) ∧
    Kept (withMe s { replayOnce s with q := t.me.q }) t []) ∧
  ∀ (sid : Nat) (t : Strand), getStrand s sid = some t → resident t = true → (getSema t q).out = true → (getSema t q).await ≤ (getSema t q).count →
    exec (.semaFill sid q) s = .next (deliverNow (updStrand s sid fun u => { u with q := u.q.set q.toNat ⟨(getSema t q).count - (getSema t q).await, 0, false, .s 0, none⟩ (by omega) })
      sid (getSema t q).tag (.value ((getSema t q).count.setWidth 1024)))

/-- R106, R107: KARR arrives and waits for the phase, or poisons A with BARRIER where the barrier is BAD; KDROP arrives and lowers later phases; the arrival that completes a phase with no earlier waiter delivers PHASE to its own future (after 1 ck, the model's choice of log 51) and begins the next phase; an arrival beyond EXPA traps BARRIER_OVERARRIVAL. KINIT sets a barrier on which nobody waits. The gang is not saved, and the window has replayed nothing. -/
def Sys2Proof.Claims.Barriers : Prop := ∀ (s : State) (g k : BitVec 4) (a b : BitVec 6) (h : Gang) (x : Barrier),
  gangOf s s.me = some h → h.barriers[k.toNat]'(by omega) = x → h.saved = none → s.me.replay = none →
  (Ready s (.karr g k a) → x.bad = false → x.arrived ≠ x.expa → ¬ phaseDone { x with arrived := x.arrived + 1 } →
    ∃ t o, exec (.karr g k a) s = .next t ∧ Advanced s t ∧ t.timers = s.timers ∧ (a = 0 → o = none) ∧ (a ≠ 0 → ∃ g, o = some g ∧ Owed s t (.s a) g) ∧
      Kept (withMe (withBarrier s k { x with arrived := x.arrived + 1, waiters := x.waiters ++ [(s.me.sid, o)] }) (replayOnce s)) t [.s a]) ∧
  (Ready s (.karr g k a) → x.bad = false → x.arrived ≠ x.expa → phaseDone { x with arrived := x.arrived + 1 } → x.waiters = [] →
    ∃ t, exec (.karr g k a) s = .next t ∧ Advanced s t ∧ DeliversIn s t (.s a) 1 (.value (x.phase.setWidth 1024)) ∧
      Kept (withMe (withBarrier s k (nextPhase { x with arrived := x.arrived + 1 })) (replayOnce s)) t [.s a]) ∧
  (Ready s (.karr g k a) → x.bad = true → a ≠ 0 → ∃ t, exec (.karr g k a) s = .next t ∧ Advanced s t ∧ t.timers = s.timers ∧
    (t.me.regs.get (.s a)).st = .poisoned ∧ (t.me.regs.get (.s a)).val = 5 ∧ Kept (withMe s (replayOnce s)) t [.s a]) ∧
  (Ready s (.kdrop g k) → x.bad = false → x.arrived ≠ x.expa →
    let y := { x with arrived := x.arrived + 1, drops := x.drops + 1 }
    (phaseDone y → x.waiters = []) →
    ∃ t, exec (.kdrop g k) s = .next t ∧ Advanced s t ∧ t.timers = s.timers ∧ Kept (withMe (withBarrier s k (if phaseDone y then nextPhase y else y)) (replayOnce s)) t []) ∧
  (x.bad = false → x.arrived = x.expa → (Ready s (.karr g k a) → exec (.karr g k a) s = .next (takeTrap s .barrierOverarrival 1 0 0)) ∧
    (Ready s (.kdrop g k) → exec (.kdrop g k) s = .next (takeTrap s .barrierOverarrival 1 0 0))) ∧
  (Ready s (.kinit g k b) → x.waiters = [] → ∃ t, exec (.kinit g k b) s = .next t ∧ Advanced s t ∧ t.timers = s.timers ∧
    Kept (withMe (withBarrier s k (freshBarrier (sVal s b))) (replayOnce s)) t [])

/-- The statements Claims.Semaphores, Claims.Barriers together. -/
def Obligations.SemaphoresAndBarriers : Prop := Sys2Proof.Claims.Semaphores ∧ Sys2Proof.Claims.Barriers

/-- R110, R111, R321: ACQ of a scope wider than the context makes the far loads and atomics outstanding the ones that later accesses wait for; NFENCE does so with the near accesses outstanding. Nothing else changes. -/
def Obligations.Fences : Prop := ∀ (s : State) (g : BitVec 4) (f : Scope),
  (Ready s (.acq g f) → ∃ t, exec (.acq g f) s = .next t ∧ Advanced s t ∧ t.timers = s.timers ∧ Kept (withMe s { s.me with acqFence := t.me.acqFence }) t [] ∧
    ∀ id, id ∈ t.me.acqFence ↔ f ≠ .context ∧ ((∃ l ∈ s.farLoads, l.id = id ∧ l.sid = s.me.sid ∧ l.done = false) ∨ ∃ x ∈ s.farAtoms, x.id = id ∧ x.sid = s.me.sid)) ∧
  (Ready s (.nfence g) → ∃ t, exec (.nfence g) s = .next t ∧ Advanced s t ∧ t.timers = s.timers ∧ Kept (withMe s { s.me with nearFence := t.me.nearFence }) t [] ∧
    ∀ id, id ∈ t.me.nearFence ↔ ∃ o ∈ s.nearOps, o.id = id ∧ o.sid = s.me.sid)

/-- R112, R113, R114: NEST parks until the sequencer has read its record, and then gives the strand its static slice or joins the gang's shared counter, reloading it where the nest is another or has run out; NEXT delivers the next tile of the slice after 2 ck, or of the shared counter, and all ones when none remains. A misaligned record traps SHAPE. -/
def Sys2Proof.Claims.TileLoops : Prop := ∀ (s : State) (g : BitVec 4) (a b : BitVec 6) (h : Gang), gangOf s s.me = some h →
  (Ready s (.nest g b) → (sVal s b).toNat % 64 ≠ 0 → exec (.nest g b) s = .next (takeTrap s .shape 1 0 (sVal s b))) ∧
  (Ready s (.nest g b) → (sVal s b).toNat % 64 = 0 → (staticSlices s h s.me = true ∨ nestBusy h (sVal s b) = false) → s.me.nestAddr ≠ some (sVal s b) →
    exec (.nest g b) s = .next (later (withMe s { (parkedOn s none).me with nestAddr := some (sVal s b) }) (.sequencerLoad s.me.sid))) ∧
  (Ready s (.nest g b) → (sVal s b).toNat % 64 = 0 → s.me.nestAddr = some (sVal s b) → staticSlices s h s.me = true →
    ∃ t, exec (.nest g b) s = .next t ∧ Advanced s t ∧ t.timers = s.timers ∧ Kept (withMe s { s.me with nestAddr := none, seq := { s.me.seq with
      nextT := BitVec.ofNat 32 (s.me.lidx.toNat * s.me.seq.endT.toNat / max h.task.nstr 1), endT := BitVec.ofNat 32 ((s.me.lidx.toNat + 1) * s.me.seq.endT.toNat / max h.task.nstr 1)
      mode := 1 } }) t []) ∧
  (Ready s (.nest g b) → (sVal s b).toNat % 64 = 0 → s.me.nestAddr = some (sVal s b) → staticSlices s h s.me = false → nestBusy h (sVal s b) = false →
    ∃ t, exec (.nest g b) s = .next t ∧ Advanced s t ∧ t.timers = s.timers ∧ (gangOf t t.me).bind (·.dyn) = (match h.dyn with
        | some d => if d.addr = sVal s b ∧ d.next < d.total then some d else some ⟨sVal s b, 0, s.me.seq.endT.toNat, s.me.seq.counts, s.me.seq.ndim⟩
        | none => some ⟨sVal s b, 0, s.me.seq.endT.toNat, s.me.seq.counts, s.me.seq.ndim⟩) ∧
      Kept (withMe { s with gangs := t.gangs } { s.me with nestAddr := none, seq := { s.me.seq with nextT := 0, endT := 0, mode := 2 } }) t []) ∧
  (Ready s (.next g a) → s.me.seq.mode = 1 → s.me.seq.nextT < s.me.seq.endT → (∀ d, d ≤ s.me.seq.ndim.toNat → 0 < tiles s.me.seq.counts d) →
    ∃ t x, exec (.next g a) s = .next t ∧ Advanced s t ∧ DeliversIn s t (.s a) 2 (.value (BitVec.setWidth 1024 (x : Word))) ∧
      (∀ d, d < 4 → x.toNat / 2 ^ (16 * d) % 2 ^ 16 = tileIndex s.me.seq.counts s.me.seq.ndim.toNat s.me.seq.nextT.toNat d) ∧
      Kept (withMe s { s.me with seq := { s.me.seq with nextT := s.me.seq.nextT + 1 } }) t [.s a]) ∧
  (Ready s (.next g a) → (s.me.seq.mode = 0 ∨ s.me.seq.mode = 1 ∧ s.me.seq.endT ≤ s.me.seq.nextT) →
    ∃ t, exec (.next g a) s = .next t ∧ RegFrame s t [.s a] ∧ DeliversIn s t (.s a) 2 (.value ((BitVec.allOnes 64).setWidth 1024)))

/-- R114: in a nest that the gang's dynamic sequencer serves, NEXT takes the shared counter and delivers its tile within 40 ck. -/
def Sys2Proof.Claims.SharedTiles : Prop := ∀ (s : State) (g : BitVec 4) (a : BitVec 6) (h : Gang) (d : DynSeq), gangOf s s.me = some h → h.dyn = some d → s.me.seq.mode = 2 →
  Ready s (.next g a) → ∃ t n x, exec (.next g a) s = .next t ∧ Advanced s t ∧ 1 ≤ n ∧ n ≤ 40 ∧ DeliversIn s t (.s a) n (.value (BitVec.setWidth 1024 (x : Word))) ∧
    Kept { s with gangs := t.gangs, fresh := s.fresh + 1 } t [.s a] ∧
    (d.next < d.total → (∀ e, e ≤ d.ndim.toNat → 0 < tiles d.counts e) → t.gangs = (updGang s h.gid fun g => { g with dyn := some { d with next := d.next + 1 } }).gangs ∧
      ∀ e, e < 4 → x.toNat / 2 ^ (16 * e) % 2 ^ 16 = tileIndex d.counts d.ndim.toNat d.next e) ∧
    (d.total ≤ d.next → t.gangs = s.gangs ∧ x = BitVec.allOnes 64)

/-- The statements Claims.TileLoops, Claims.SharedTiles together. -/
def Obligations.TileLoopsAll : Prop := Sys2Proof.Claims.TileLoops ∧ Sys2Proof.Claims.SharedTiles

/-- R25, R26, R116, R117: GETS delivers a system register's value after 2 ck; SETS writes it, and FAULTINJ only where the job may inject faults, else it traps PRIVILEGE; AGREE delivers its source after 1 ck in a task that is not replicated. A counter that counts bundles is left out. -/
def Sys2Proof.Claims.SystemRegisters : Prop := ∀ (s : State) (g : BitVec 4) (n : SysReg) (a b : BitVec 6) (h : Gang) (j : Job), gangOf s s.me = some h → getJob s h.job = some j →
  (Ready s (.gets g n a) → (replicated s s.me = false ∨ n ≠ .clock) → (∀ i, n = .perf i → s.me.perfsel[i.toNat]'(by omega) ≠ 1) →
    ∃ t, exec (.gets g n a) s = .next t ∧ RegFrame s t [.s a] ∧ DeliversIn s t (.s a) 2 (.value ((sysBits s h j n).setWidth 1024))) ∧
  (Ready s (.sets g n a) → wellFormed (.sets g n a) = true → (n = .faultinj → j.finj = true) →
    ∃ t, exec (.sets g n a) s = .next t ∧ Advanced s t ∧ t.timers = s.timers ∧ (∀ i, n = .perf i → t.me.perf[i.toNat]'(by omega) = sVal s a) ∧ Kept (withMe s (sysSet s.me (sVal s a) n)) t []) ∧
  (Ready s (.sets g .faultinj a) → j.finj = false → exec (.sets g .faultinj a) s = .next (takeTrap s .privilege 1 0x21 0)) ∧
  (Ready s (.agree g b a) → replicated s s.me = false → ∃ t, exec (.agree g b a) s = .next t ∧ RegFrame s t [.s a] ∧ DeliversIn s t (.s a) 1 (.value ((sVal s b).setWidth 1024)))

/-- The statements Claims.YieldAndSleep, Claims.SystemRegisters together. -/
def Obligations.SystemRegistersAndPauses : Prop := Sys2Proof.Claims.YieldAndSleep ∧ Sys2Proof.Claims.SystemRegisters

/-- R120, R121: PLOG writes the truth table's value of each pair of bits, and PSET the byte groups of the elements below src(B), after 1 ck; nothing else changes. -/
def Obligations.Predicates : Prop := ∀ (s : State) (g t b a d : BitVec 4) (w : Sz) (c : BitVec 6),
  (Ready s (.plog g t b a d) → ∃ u, ∃ x : PVal, exec (.plog g t b a d) s = .next u ∧ RegFrame s u [.p d] ∧ DeliversIn s u (.p d) 1 (.value (BitVec.setWidth 1024 x)) ∧
    ∀ k, k < 128 → x.getLsbD k = t.getLsbD (2 * ((pVal s a).getLsbD k).toNat + ((pVal s b).getLsbD k).toNat)) ∧
  (Ready s (.pset g w c a) → ∃ u, ∃ x : PVal, exec (.pset g w c a) s = .next u ∧ RegFrame s u [.p a] ∧ DeliversIn s u (.p a) 1 (.value (BitVec.setWidth 1024 x)) ∧
    ∀ k, k < 128 → x.getLsbD k = decide (k / szBytes w < (sVal s c).toNat))

/-! ## Issue: guards, parking, commit points, traps -/

namespace Sys2Proof.Claims

/-- The slot of a slot instruction (R36, R47 to R52); scalar instructions are placed in slot 1. -/
def slotIndex : Instr → Option Nat
  | .nop | .br .. | .brx .. | .call .. | .callx .. | .loop .. | .loopi .. | .looph .. | .lexit .. | .wait .. | .waitany .. | .state .. | .yield .. | .sleep .. | .launch .. | .exit ..
  | .sema .. | .semr .. | .karr .. | .kdrop .. | .kinit .. | .cmt .. | .rel .. | .acq .. | .nfence .. | .nest .. | .next .. | .gets .. | .sets .. | .agree .. | .trap .. | .plog .. | .pset ..
  | .resume .. => some 0
  | .add .. | .sub .. | .addi .. | .mul .. | .mulh .. | .div .. | .rem .. | .and .. | .or .. | .xor .. | .logi .. | .shl .. | .shr .. | .sar .. | .rot .. | .shi .. | .cmp .. | .cmpi ..
  | .minmax .. | .sel .. | .bitc .. | .ext .. | .ins .. | .mov .. | .movPredicate .. | .movi .. | .movhi .. | .movhiW .. | .lea .. | .fop .. | .fcmp .. | .fcvt .. => some 1
  | .vadd .. | .vsub .. | .vmul .. | .vfma .. | .vmin .. | .vmax .. | .vuna .. | .vand .. | .vor .. | .vxor .. | .vshl .. | .vshr .. | .vcmp .. | .vsel .. | .vcvt .. | .vqnt .. | .vred ..
  | .vscan .. | .vperm .. | .vbcast .. | .vmovs .. | .vins .. | .vidx .. | .vfun .. | .vcx .. | .vpopc .. | .vmatch .. | .vbitsTest .. | .vbitsSet .. | .vbitsClear .. => some 3
  | .acfg .. | .aprog .. | .astat .. | .aswap .. | .astream .. | .awave .. | .adrain .. | .aread .. | .aclr .. | .atrace .. | .adone .. => some 4
  | .ldn .. | .stn .. | .ldnv .. | .stnv .. | .ldng .. | .stns .. | .atmn .. | .ldnp .. | .stnp .. | .ldnt .. => some 5
  | .ldf .. | .stf .. | .ldfv .. | .stfv .. | .atmf .. | .redf .. | .casf .. | .pref .. | .ldfg .. => some 6
  | .shape .. | .copy .. | .copyq .. | .gath .. | .scat .. | .chan .. | .send .. | .recv .. | .recva .. | .tick .. | .coll .. | .spsend .. | .sprecv .. | .xstat .. => some 7
  | _ => none

/-- The open window of the strand at issue holds nothing, and nothing of it is still on its way (R109). -/
def windowEmpty (s : State) : Prop :=
  s.me.log = [] ∧ s.me.gated = [] ∧ (∀ l ∈ s.farLoads, l.sid ≠ s.me.sid) ∧ (∀ a ∈ s.farAtoms, a.sid ≠ s.me.sid) ∧ ∀ k ∈ s.cores, ∀ c ∈ k.copies, c.sid ≠ s.me.sid

/-- The strand at issue after its window has closed at a commit point whose CPT is the next bundle (R22, R96, R109, R115). What replication keeps of the window (R353 to R357) is left open: no signature is compared without it. -/
def closedMe (s : State) (t : Strand) : Strand :=
  { s.me with
    window := s.me.window + 1, cpt := s.me.pc + 32, log := [], replay := none, gated := [], farLoaded := false, loopC := s.me.loop, seqC := s.me.seq
    eddyC := t.eddyC, agreeC := t.agreeC, agreed := t.agreed, sig := none, verdict := false }

/-- An access of the strand at issue that has not been performed (R110). -/
def accessPending (s : State) : Prop :=
  (∃ o ∈ s.nearOps, o.sid = s.me.sid) ∨ (∃ l ∈ s.farLoads, l.sid = s.me.sid ∧ l.done = false) ∨ ∃ a ∈ s.farAtoms, a.sid = s.me.sid

/-- What a bundle of one slot that is a commit point asks for (R109, R318): slot 0, CPT and NEXT after the bundle. -/
def askedAt (s : State) (c : Closing) : Prop := c.phase = .tentative ∧ c.mask = 1 ∧ c.cpt = s.me.pc + 32 ∧ c.next = s.me.pc + 32 ∧ c.keep = false

/-- The strand at issue parked in the tentative phase of a commit point (R318). -/
def waitingMe (s t : State) : Strand := { s.me with closing := t.me.closing, parkedAt := s.clock }

/-- A strand that has taken a trap: FAULTED, NEXT as given, its window kept (R370, R371). -/
def faultedMe (t : Strand) (next : Word) : Strand :=
  { t with pc := next, st := .faulted, heldTrap := none, parkid := none, waitset := none, choice := none, closing := none, asleep := false, waitSerial := false, bankWait := none }

/-- A strand that waits with a trap whose records are not yet written. -/
def trapHeld (s : State) (r : TrapRec) (next : Word) : State := withMe s { s.me with pc := next, heldTrap := some r, waitSerial := false, bankWait := none }

/-- What the bundle at issue has found, which QUEUE brings back (R102). -/
def foundBy (s : State) : Before :=
  { log := owedRegs.map fun r => ⟨r, (s.me.regs.get r).val, (s.me.regs.get r).st, (s.me.regs.get r).tag⟩
    h := s.me.h, loop := s.me.loop, seq := s.me.seq, gated := s.me.gated, inj := (s.me.faultinj, s.me.storeCount), firstId := s.nextId }

/-- The order in which the events of a job are entered (R372): by the ck of the trap, then by die, core and context. -/
def earlierEvent (a b : HeldEvent) : Prop := a.ck < b.ck ∨ (a.ck = b.ck ∧ a.place ≤ b.place)

/-- What a trap of the strand at issue writes, of a cause other than REPLICA_MISMATCH: its frame, its continuation record, its trap record, with QUEUED 0 until its event is entered (R28, R29, R369). -/
def trapWrites (s : State) (r : TrapRec) (next : Word) : List (Word × List Byte) :=
  let u := faultedMe s.me next
  [(u.frame, frameBytes u), (u.crec, crecBytes u (identOf s u)), (u.trec, trapBytes r u (identOf s u))]

end Sys2Proof.Claims

/-- R41, R276, R283: a slot instruction examines its guard first, then its operands in order: the first that is PENDING parks the strand on it, the first that is POISONED traps POISON_USE with its code; nothing else happens. -/
def Obligations.OperandsNotReady : Prop := ∀ (s : State) (i : Instr) (n : Nat) (pre post : List RegId) (r : RegId), slotIndex i = some n → Calm s →
  let stops := ((s.me.regs.get r).st = .pending → exec i s = .next (parkedOn s (some r))) ∧
    ((s.me.regs.get r).st = .poisoned → exec i s = .next (takeTrap s .poisonUse (BitVec.ofNat 8 (2 ^ n)) ((s.me.regs.get r).val.setWidth 16) ((regIdCode r).setWidth 64)))
  (r = .p (guardOf i) → stops) ∧
  (GuardOn s i → beforeSources s i = none → afterSources s n i = none → readsOf i ++ examinedOf i = pre ++ r :: post → (∀ z ∈ pre, isFull s z) → stops)

/-- R41: a slot instruction whose guard suppresses it has no effect: its bundle issues, and registers, memory and everything else stay, whatever its operands hold. -/
def Obligations.GuardsOff : Prop := ∀ (s : State) (i : Instr), (slotIndex i).isSome = true → Calm s → isFull s (.p (guardOf i)) → wholeGuard i = true → (pVal s (guardOf i)).getLsbD 0 = false →
  ∃ t, exec i s = .next t ∧ t.timers = s.timers ∧ RegFrame s t []

/-- R22, R96, R109, R110, R320: CMT with nothing in its window completes at once: the window is numbered on, the commit point is the next bundle, loop and sequencer are kept for a rollback. REL does the same, and then parks, CDONE set, while an access of the strand is outstanding and its scope is wider than the context. -/
def Sys2Proof.Claims.EmptyCommits : Prop := ∀ (s : State) (g : BitVec 4) (f : Scope), replicated s s.me = false → windowEmpty s → s.me.mark = none → s.me.loc.isSome = true →
  (Ready s (.cmt g) → ∃ t, exec (.cmt g) s = .next t ∧ t.timers = s.timers ∧ Advanced s t ∧ Kept (withMe s { closedMe s t.me with cdone := false, remain := .none }) t []) ∧
  (Ready s (.rel g f) → (f = .context ∨ ¬ accessPending s) → ∃ t, exec (.rel g f) s = .next t ∧ t.timers = s.timers ∧ Advanced s t ∧
    Kept (withMe s { closedMe s t.me with cdone := false, remain := .none }) t []) ∧
  (Ready s (.rel g f) → f ≠ .context → accessPending s → ∃ t, exec (.rel g f) s = .next t ∧ t.timers = s.timers ∧ t.me.st = .parked ∧ t.me.pc = s.me.pc ∧
    Kept (withMe s { closedMe s t.me with cdone := true, remain := .rel f, parkedAt := s.clock }) t [])

/-- R103, R109: EXIT with nothing in its window closes it, parks with CDONE set, and ends the strand once what it awaits is over. -/
def Sys2Proof.Claims.Exits : Prop := ∀ (s : State) (g : BitVec 4), replicated s s.me = false → windowEmpty s → s.me.mark = none → s.me.loc.isSome = true → Ready s (.exit g) →
  ∃ t, exec (.exit g) s = .next t ∧ t.timers = s.timers ++ [⟨s.clock, .strandDone s.me.sid⟩] ∧ t.me.st = .parked ∧ t.me.pc = s.me.pc ∧
    Kept (withMe s { closedMe s t.me with cdone := true, remain := .exit, parkedAt := s.clock }) t []

/-- The statements Claims.EmptyCommits, Claims.Exits together. -/
def Obligations.EmptyCommitsAndExits : Prop := Sys2Proof.Claims.EmptyCommits ∧ Sys2Proof.Claims.Exits

/-- R102, R109, R318: a commit point whose window is not empty, and every LAUNCH of an aligned record, parks in the tentative phase, with CPT and NEXT after the bundle to come; LAUNCH holds a tag for its destination until Gust answers. A misaligned LAUNCH with an empty window closes it and poisons its destination with ALIGN. -/
def Obligations.CommitsWait : Prop := ∀ (s : State) (g : BitVec 4) (f : Scope) (a b : BitVec 6), replicated s s.me = false → s.me.loc.isSome = true →
  (∀ i, i = .cmt g ∨ i = .rel g f ∨ i = .exit g → Ready s i → s.me.log ≠ [] ∨ s.me.gated ≠ [] →
    ∃ t c, exec i s = .next t ∧ t.timers = s.timers ++ [⟨s.clock + 1 + Config.delay s.fresh, .windowTentativePhase s.me.sid⟩] ∧ t.me.st = .parked ∧ t.me.pc = s.me.pc ∧
      t.me.closing = some c ∧ askedAt s c ∧ Kept { withMe s (waitingMe s t) with fresh := s.fresh + 1 } t []) ∧
  (Ready s (.launch g b a) → (sVal s b).toNat % 64 = 0 →
    ∃ t c o, exec (.launch g b a) s = .next t ∧ t.timers = s.timers ++ [⟨s.clock + 1 + Config.delay s.fresh, .windowTentativePhase s.me.sid⟩] ∧ t.me.st = .parked ∧ t.me.pc = s.me.pc ∧
      t.me.closing = some c ∧ askedAt s c ∧ c.post = [.launch (.s a) o (sVal s b)] ∧ c.before = some (foundBy s) ∧ (a = 0 → o = none) ∧
      (a ≠ 0 → ∃ k, o = some k ∧ k.toNat % 1024 ∉ s.me.serials.map (·.1) ∧ t.me.serials = s.me.serials ++ [(k.toNat % 1024, false)]) ∧
      Kept { withMe s (waitingMe s t) with fresh := s.fresh + 1 } t []) ∧
  (Ready s (.launch g b a) → (sVal s b).toNat % 64 ≠ 0 → windowEmpty s → s.me.mark = none → a ≠ 0 →
    ∃ t, exec (.launch g b a) s = .next t ∧ t.timers = s.timers ∧ Advanced s t ∧ (t.me.regs.get (.s a)).st = .poisoned ∧ (t.me.regs.get (.s a)).val = 12 ∧
      Kept (withMe s { closedMe s t.me with cdone := false, remain := .none }) t [.s a])

/-- R118, R369, R370: TRAP lets its bundle commit and then takes the trap TRAP with its code, NEXT and the recorded bundle being the one after it; nothing else changes before the trap is taken. -/
def Sys2Proof.Claims.SoftwareTraps : Prop := ∀ (s : State) (g : BitVec 4) (c : BitVec 8), Ready s (.trap g c) →
  ∃ m, exec (.trap g c) s = .next (takeTrapOn m s.me.sid ⟨.trap, 1, c.setWidth 16, s.me.pc + 32, s.me.window, 0⟩ (s.me.pc + 32)) ∧ m.timers = s.timers ∧ m.me.st = .running ∧ m.me.pc = s.me.pc ∧ Kept s m []

/-- R369, R370, R371: a trap of a strand that is not replicated leaves it FAULTED at the given NEXT with its window, registers and commit point as they are, once its frame, continuation record and trap record are written; a far fault posts no event, any other cause posts one to its job's trap queue. While a record cannot be written, the strand keeps the trap. The events of a job that are not entered stand in the order of the ck of their traps, and within one ck of die, core and context (R372). -/
def Sys2Proof.Claims.TrapEntry : Prop := (∀ (e : HeldEvent) (hs : List HeldEvent), hs.Pairwise earlierEvent → (holdTrap e hs).Pairwise earlierEvent ∧ (holdTrap e hs).Perm (e :: hs)) ∧
  ∀ (s : State) (r : TrapRec) (next : Word), replicated s s.me = false → s.me.sig = none → s.me.closing = none → r.cause ≠ .replicaMismatch →
  (∀ m, devWriteAll (trapHeld s r next) (asidOf s s.me) (trapWrites s r next) = .ok m →
    (r.cause = .farFault → takeTrapOn s s.me.sid r next = withMe m (faultedMe s.me next)) ∧
    (r.cause ≠ .farFault → takeTrapOn s s.me.sid r next = postEvent (withMe m (faultedMe s.me next)) (jobNum s s.me) (trapPlace s s.me) [s.me.trec] (trapBytes r (faultedMe s.me next) (identOf s (faultedMe s.me next))) ∧
      (takeTrapOn s s.me.sid r next).me = faultedMe s.me next)) ∧
  ∀ e, devWriteAll (trapHeld s r next) (asidOf s s.me) (trapWrites s r next) = .error e → (takeTrapOn s s.me.sid r next).me = (trapHeld s r next).me

/-- The statements Claims.SoftwareTraps, Claims.TrapEntry together. -/
def Obligations.TrapsAndTheirEntry : Prop := Sys2Proof.Claims.SoftwareTraps ∧ Sys2Proof.Claims.TrapEntry

/-- R25, R119, R375: RESUME traps PRIVILEGE where the job is not privileged. Of a FAULTED strand in the pool that holds no atomic unplaced, its records readable and writable, it makes the strand READY at its recorded NEXT, with the records as they were but for that; where the address names no strand it does nothing. -/
def Obligations.Resumes : Prop := ∀ (s : State) (g : BitVec 4) (b : BitVec 6) (h : Gang) (j : Job), gangOf s s.me = some h → getJob s h.job = some j → Ready s (.resume g b) →
  (j.priv = false → exec (.resume g b) s = .next (takeTrap s .privilege 1 0 0)) ∧
  (j.priv = true → replicated s s.me = false → isRemote s (sVal s b &&& ~~~(63 : Word)) = false →
    (∀ p, translateNow s j.asid (sVal s b &&& ~~~(63 : Word)) .load = .ok p → strandAt s j.asid (sVal s b &&& ~~~(63 : Word)) = none →
      ∃ t, exec (.resume g b) s = .next t ∧ t.timers = s.timers ∧ RegFrame s t []) ∧
    ∀ p (u v : Strand) (m : State), translateNow s j.asid (sVal s b &&& ~~~(63 : Word)) .load = .ok p → strandAt s j.asid (sVal s b &&& ~~~(63 : Word)) = some u → getStrand s u.sid = some u → u.sid ≠ s.me.sid →
      u.st = .faulted → holdsAtomic s u.sid = false → readRecords s u = .ok v → replicated s u = false → u.loc.isSome = true →
      devWriteAll s (asidOf s u) (recordWrites s { v with st := .ready, readyAt := s.clock + 1, resuming := false }) = .ok m →
      ∃ t, exec (.resume g b) s = .next t ∧ t.hbm = m.hbm ∧ (∀ c, u.loc = some c → ⟨s.clock + 1, .pickUp u.sid c.1⟩ ∈ t.timers) ∧ getStrand t u.sid = some { v with st := .ready, readyAt := s.clock + 1, resuming := false } ∧ Advanced s t ∧
        RegsKept s t [])

/-! ## Slot 4: the array -/

namespace Sys2Proof.Claims

/-- The array of the core of the strand at issue. -/
abbrev myArray (s : State) : Array := (getCore s (coreOf s.me)).array

/-- The strand at issue holds the array of its core (R184). -/
abbrev Holds (s : State) : Prop := (myArray s).holder = some s.me.sid

/-- What an array command captures (R187 to R194): kind, address, second operand, shape, slot of the microcode, and its destination. -/
def arrayCmd (s : State) : Instr → Option (ArrKind × Word × Word × Option Shape × BitVec 2 × Option (BitVec 6))
  | .aprog _ x d b a => some (.prog, sVal s a, sVal s b, none, x, some d)
  | .astat _ h d a => some (.stat, sVal s a, 0, some (s.me.h[h.toNat]'(by omega)), 0, some d)
  | .aswap _ => some (.swap, 0, 0, none, 0, none)
  | .astream _ h d b a => some (.stream, sVal s a, sVal s b, some (s.me.h[h.toNat]'(by omega)), 0, some d)
  | .awave _ h d b a => some (.wave, sVal s a, sVal s b, some (s.me.h[h.toNat]'(by omega)), 0, some d)
  | .adrain _ h d a => some (.drain, sVal s a, 0, some (s.me.h[h.toNat]'(by omega)), 0, some d)
  | .aclr _ => some (.clr, 0, 0, none, 0, none)
  | .atrace _ h d a => some (.trace, sVal s a, 0, some (s.me.h[h.toNat]'(by omega)), 0, some d)
  | _ => none

/-- The registers that a destination names. -/
def destReg (d : Option (BitVec 6)) : List RegId := d.toList.map RegId.s

/-- The future of a command: no tag for no destination or s0, a new tag that the destination is owed under otherwise (R12, R20). -/
def FutureOf (s t : State) (d : Option (BitVec 6)) (o : Option Tag) : Prop :=
  match d with
  | none => o = none
  | some r => (r = 0 → o = none) ∧ (r ≠ 0 → ∃ g, o = some g ∧ Owed s t (.s r) g)

/-- The events that fill or poison a future after `n` ck. -/
def fills (s : State) (o : Option Tag) (n : Nat) (x : Payload) : List Timer := o.toList.map fun g => ⟨s.clock + n, .delivery s.me.sid g x⟩

/-- No near operation of the strand at issue is on its way. -/
def nearIdle (s : State) : Prop := ∀ o ∈ s.nearOps, o.sid ≠ s.me.sid

/-- The strand at issue after an empty window has closed at a commit point that sent its command: it stands at the next bundle. -/
def sentMe (s t : State) : Strand := { closedMe s t.me with cdone := false, remain := .none }

/-- The same where the command's own destination is logged in the window: the strand waits at the commit point (R109). -/
def commandMe (s t : State) (o : Option Tag) : Strand := if o.isNone then sentMe s t else waitingMe s t

/-- What the bundle of a commit point of a slot asks for once parked: tentative, CPT and NEXT after the bundle, and what is still to be sent. -/
def askedFor (s : State) (c : Closing) (slot : Nat) (ps : List Post) : Prop :=
  c.phase = .tentative ∧ c.mask = BitVec.ofNat 8 (2 ^ slot) ∧ c.cpt = s.me.pc + 32 ∧ c.next = s.me.pc + 32 ∧ c.post = ps ∧ c.keep = false

/-- The strand at issue is parked in the tentative phase of the commit point of a slot, with `ps` to be sent when the window is performed. -/
def WaitsAt (s e t : State) (slot : Nat) (ps : List Post) (rs : List RegId) : Prop :=
  t.me.st = .parked ∧ t.me.pc = s.me.pc ∧ (∃ c, t.me.closing = some c ∧ askedFor s c slot ps) ∧
  t.timers = e.timers ++ [⟨s.clock + 1 + Config.delay e.fresh, .windowTentativePhase s.me.sid⟩] ∧ Kept { e with fresh := e.fresh + 1 } t rs

/-- A command has left at issue with the effect `e`: without a tag its commit point is complete; a destination that it logged keeps the commit point open (R109, R186). -/
def LeftAtIssue (s e t : State) (slot : Nat) (o : Option Tag) (rs : List RegId) : Prop :=
  match o with
  | none => Advanced s t ∧ t.timers = e.timers ∧ Kept e t rs
  | some _ => WaitsAt s e t slot [] rs

/-- The array after ACFG claims or keeps it and records a configuration under a number (R184). -/
def configured (s : State) (job id : Nat) (w : Word) (a : Array) : Array :=
  let b : Array := if a.holder = some s.me.sid then a
    else { (if a.lastJob.isSome ∧ a.lastJob ≠ some job then { clearArray a with freeAt := s.clock + 32 } else a) with
      holder := some s.me.sid, lastJob := some job, waiting := a.waiting.filter fun x => x.1 != s.me.sid }
  { b with nextCfg := b.nextCfg ++ [(id, w)], releasing := none }

/-- L1 of row r as it stands: zero beyond the active cells (R195). -/
def l1Row (a : Array) (r : Nat) : List Nat :=
  (List.range 32).map fun j => if cfgRows a.cfg ≤ r ∨ cfgCols a.cfg ≤ j then 0 else (a.cells[(32 * r + j) % 1024]'(by omega)).l1.toNat

end Sys2Proof.Claims

/-- R184, R185: ACFG claims an array that no context holds or waits for, clearing it where the last holder was of another job, and records its configuration; a holder's ACFG records only; while another context holds the array it waits. ADONE releases it, once the commands before it are over, and of a non-holder does nothing. -/
def Sys2Proof.Claims.ArrayHolding : Prop := ∀ (s : State) (g : BitVec 4) (a : BitVec 6) (h : Gang), gangOf s s.me = some h →
  (Ready s (.acfg g a) → (Holds s ∨ (myArray s).holder = none ∧ (myArray s).waiting = []) →
    ∃ t, exec (.acfg g a) s = .next t ∧ Advanced s t ∧ t.timers = s.timers ++ [⟨s.clock, .arrayConfigApply (coreOf s.me)⟩] ∧
      Kept (updArray { s with nextId := s.nextId + 1 } (coreOf s.me) (configured s h.job s.nextId (sVal s a))) t []) ∧
  (Ready s (.acfg g a) → ∀ k, (myArray s).holder = some k → k ≠ s.me.sid → (∀ w ∈ (myArray s).waiting, w.1 ≠ s.me.sid) →
    exec (.acfg g a) s = .next (updArray (withMe s (triedMe s)) (coreOf s.me) fun x => { x with waiting := x.waiting.filter (stillWaits s) ++ [(s.me.sid, s.clock)] })) ∧
  (Ready s (.adone g) → Holds s → ∃ t, exec (.adone g) s = .next t ∧ Advanced s t ∧ t.timers = s.timers ++ [⟨s.clock, .arrayRelease (coreOf s.me)⟩] ∧
    Kept (updArray { s with nextId := s.nextId + 1 } (coreOf s.me) fun x => { x with releasing := some s.nextId }) t []) ∧
  (Ready s (.adone g) → ¬ Holds s → ∃ t, exec (.adone g) s = .next t ∧ t.timers = s.timers ∧ RegFrame s t [])

/-- R186, R187, R189 to R194: APROG, ASTAT, ASWAP, ASTREAM, AWAVE, ADRAIN, ACLR and ATRACE of the holder, admitted and with nothing in their window, close the window and send the captured command to its lane at issue; a non-holder's destination is poisoned with ENGINE, a misaligned one with ALIGN. A destination is logged in the window, and the strand waits at the commit point for that (R109; log 27). With stores in the window the command itself waits. -/
def Obligations.ArrayCommands : Prop := ∀ (s : State) (i : Instr) (h : Gang) (k : ArrKind) (a b : Word) (sh : Option Shape) (x : BitVec 2) (d : Option (BitVec 6)),
  arrayCmd s i = some (k, a, b, sh, x, d) → Ready s i → gangOf s s.me = some h → replicated s s.me = false → s.me.loc.isSome = true → s.me.mark = none → nearIdle s →
  let cmd (o : Option Tag) : ArrCmd := { id := s.nextId, sid := s.me.sid, tag := o, kind := k, a := a, b := b, h := sh.getD 0, x := x, cfg := cfgNow (myArray s), entered := 0, complete := 0, started := false, beat0 := 0, bad := false }
  let free := (myArray s).cmds.length < 8 ∧ (isStream k = true → ∀ c ∈ (myArray s).cmds, c.kind ≠ .prog)
  let poisons (t : State) (o : Option Tag) (c : PoisonCode) : State :=
    { withMe s (commandMe s t o) with fresh := s.fresh + o.toList.length, timers := s.timers ++ fills s o (1 + Config.delay s.fresh) (.poison c) }
  (¬ Holds s → windowEmpty s → ∃ t o, exec i s = .next t ∧ FutureOf s t d o ∧ LeftAtIssue s (poisons t o .engine) t 4 o (destReg d)) ∧
  (Holds s → free → arrayEngine s k sh = false → arrayAligned s k a sh = false → windowEmpty s → ∃ t o, exec i s = .next t ∧ FutureOf s t d o ∧ LeftAtIssue s (poisons t o .align) t 4 o (destReg d)) ∧
  (Holds s → free → arrayEngine s k sh = false → arrayAligned s k a sh = true → arrayTrap s h i = none → windowEmpty s → ∃ t o, exec i s = .next t ∧ FutureOf s t d o ∧
    LeftAtIssue s (sendArray { withMe s (commandMe s t o) with nextId := s.nextId + 1 } (coreOf s.me) (cmd o)) t 4 o (destReg d)) ∧
  (Holds s → free → arrayEngine s k sh = false → arrayAligned s k a sh = true → arrayTrap s h i = none → s.me.gated ≠ [] → ∃ t o, exec i s = .next t ∧ FutureOf s t d o ∧
    WaitsAt s { withMe s (waitingMe s t) with nextId := s.nextId + 1 } t 4 [.array (coreOf s.me) (cmd o)] (destReg d))

/-- R185, R195: AREAD fills, after 4 ck, vB with row r of L1, bits 0 to 4 of src(A), and sD with the count of complete steps; with no step of a current command complete the row is L1 as it stands. A non-holder's destinations are poisoned with ENGINE. Unreplicated. -/
def Sys2Proof.Claims.ArrayReading : Prop := ∀ (s : State) (g : BitVec 4) (d : BitVec 6) (b : BitVec 5) (a : BitVec 6), Ready s (.aread g d b a) → replicated s s.me = false →
  ∃ t x y g1, exec (.aread g d b a) s = .next t ∧ RegFrame s t [.s d, .v b] ∧ Owed s t (.v b) g1 ∧
    (d = 0 → t.timers = s.timers ++ [⟨s.clock + 4, .delivery s.me.sid g1 x⟩]) ∧
    (d ≠ 0 → ∃ g2, g2 ≠ g1 ∧ Owed s t (.s d) g2 ∧ t.timers = s.timers ++ [⟨s.clock + 4, .delivery s.me.sid g1 x⟩, ⟨s.clock + 4, .delivery s.me.sid g2 y⟩]) ∧
    (¬ Holds s → x = .poison .engine ∧ y = .poison .engine) ∧
    (Holds s → y = .value (BitVec.ofNat 1024 (if (myArray s).current.isSome then (myArray s).curDonePrev else 0)) ∧
      ((myArray s).current = none ∨ (myArray s).curDonePrev = 0 → x = .value (ofElems 32 (l1Row (myArray s) ((sVal s a).toNat % 32)))))

/-- The statements Claims.ArrayHolding, Claims.ArrayReading together. -/
def Obligations.ArrayHoldingAndReading : Prop := Sys2Proof.Claims.ArrayHolding ∧ Sys2Proof.Claims.ArrayReading

/-! ## Slot 5: near memory -/

namespace Sys2Proof.Claims

/-- A near byte as a gang of `job` reads it: zero in a unit that another job wrote last (R303). -/
def nearByte (s : State) (job a : Nat) : Byte := if unitIs s job a then s.near.read a else 0

/-- The effective address of format M (R203). -/
def ea (s : State) (a : BitVec 6) (o : BitVec 8) (unit : Nat) : Word := sVal s a + o.signExtend 64 * BitVec.ofNat 64 unit

/-- The effective address of lane `e` of format G (R203). -/
def eaLane (s : State) (a : BitVec 6) (iv : BitVec 5) (t : Ty) (e : Nat) : Word := sVal s a + BitVec.ofNat 64 (el 32 (vVal s iv) e * (t.width / 8))

/-- Lanes of a gather or scatter (R203). -/
def laneCount (t : Ty) : Nat := if t.width = 64 then 16 else 32

/-- The slice that a near address names (R204). -/
def sliceOf (t : Strand) (a : Word) : Nat := if a.getLsbD 26 then t.lidx.toNat else (a.extractLsb' 20 6).toNat

/-- The slice of a near address is the strand's own (R207). -/
abbrev ownSlice (s : State) (a : Word) : Prop := sliceOf s.me a = s.me.lidx.toNat

/-- The bounds of R204 for `n` bytes at an address. -/
def InBounds (h : Gang) (t : Strand) (a : Word) (n : Nat) : Prop :=
  a.toNat < 2 ^ 27 ∧ (a.getLsbD 26 = true ∨ sliceOf t a < h.task.nstr) ∧ (a.extractLsb' 0 20).toNat + n ≤ h.task.nearsz * 4096

/-- The NEAR access of slot 5 finds its banks free, or has waited 4 ck for them (R206). -/
abbrev BanksFree (s : State) (i : Instr) : Prop := bankStop s (5, i) = none

/-- A NEAR access that loses its banks waits at issue, and keeps how long it has waited (R206). -/
def WaitsForBanks (s : State) (i : Instr) : Prop :=
  ∀ w, bankStop s (5, i) = some (.holdBank w) → exec i s = .next (withMe s { triedMe s with bankWait := some ((s.me.bankWait.map (·.1)).getD 0, w) })

/-- The group of R208 that LDNT transposes, in bytes. -/
def group : Sz → Nat
  | .b8 => 8
  | _ => 4

/-- The near loads of consecutive bytes (R203, R204, R208): destination, address, bytes, alignment. -/
def nearLoadOf (s : State) : Instr → Option (RegId × Word × Nat × Nat)
  | .ldn _ d a o z => some (.s d, ea s a o (szBytes z), szBytes z, szBytes z)
  | .ldnv _ d a o => some (.v d, ea s a o 128, 128, 128)
  | .ldnp _ d a o => some (.p d, ea s a o 16, 16, 16)
  | .ldnt _ d a o z => some (.v d, ea s a o 128, 64 * (128 / group z - 1) + group z, group z)
  | _ => none

/-- Byte `k` of a value. -/
abbrev byteOf (x : VVal) (k : Nat) : Byte := x.extractLsb' (8 * k) 8

/-- The value that a near load of `n` bytes delivers (R208): the bytes in order and zeros above; for LDNT the bytes of element c of row r at element c * nr + r. -/
def LoadedAs (i : Instr) (x : VVal) (n : Nat) (f : Nat → Byte) : Prop :=
  match i with
  | .ldnt _ _ _ _ z => ∀ r c j, r < 128 / group z → c < group z / szBytes z → j < szBytes z → byteOf x (szBytes z * (c * (128 / group z) + r) + j) = f (64 * r + szBytes z * c + j)
  | _ => ∀ k, k < 128 → byteOf x k = if k < n then f k else 0

/-- The lanes of a gather or scatter that are enabled. -/
def lanesOn (s : State) (g : BitVec 4) (t : Ty) : List Nat := (List.range (laneCount t)).filter fun e => decide (on s g t.width e)

/-- The rows that a list of near addresses touches in a bank (R206). -/
def rowsIn (as : List Word) (bank : Nat) : List Nat := ((as.filter fun a => (a.extractLsb' 6 5).toNat == bank).map fun a => (a.extractLsb' 11 9).toNat).dedup

/-- The greatest number of distinct rows in one bank, 1 with no lane (R207). -/
def conflicts (as : List Word) : Nat := ((List.range 32).map fun b => (rowsIn as b).length).foldl max 1

/-- The near stores of consecutive bytes (R203, R204, R209): address, bytes, value. -/
def nearStoreOf (s : State) : Instr → Option (Word × Nat × VVal)
  | .stn _ d a o z => some (ea s a o (szBytes z), szBytes z, (sVal s d).setWidth 1024)
  | .stnv _ d a o => some (ea s a o 128, 128, vVal s d)
  | .stnp _ d a o => some (ea s a o 16, 16, (pVal s d).setWidth 1024)
  | _ => none

/-- What a scatter leaves in an element that holds `old`, for a lane's `d` (R209). -/
def combined (o : ScatF) (t : Ty) (old d : Nat) : Nat :=
  match o with
  | .plain => d
  | .add => byType t (fun m => faddB m old d) (wrapT t (num t old + num t d))
  | .min => byType t (fun m => fminB m old d) (wrapT t (min (num t old) (num t d)))
  | .max => byType t (fun m => fmaxB m old d) (wrapT t (max (num t old) (num t d)))

/-- The bytes that a list of bytes, in order, makes as a number. -/
def little : List Byte → Nat
  | [] => 0
  | b :: bs => b.toNat + 256 * little bs

/-- The element of `k` bytes at a physical near address. -/
def elementAt (s : State) (job loc k : Nat) : Nat := little ((List.range k).map fun j => nearByte s job (loc + j))

/-- What an element holds after the lanes of a list, each (physical address, value), have acted in turn (R209). -/
def afterLanes (o : ScatF) (t : Ty) (loc old : Nat) (ls : List (Nat × Nat)) : Nat := ls.foldl (fun x l => if l.1 = loc then combined o t x l.2 else x) old

end Sys2Proof.Claims

/-- R203, R204, R207, R208: LDN, LDNV, LDNP and LDNT within bounds and aligned, not held by a copy or the array, deliver the bytes as they stand in the gang's near space: after 6 ck from the strand's own slice, within 40 ck from another, and 1 for each access queued ahead; one that loses its banks waits at issue (R206). Out of bounds they trap NEAR_BOUNDS, else misaligned ALIGN, with the address. No near store of the strand is on its way. -/
def Sys2Proof.Claims.NearLoads : Prop := ∀ (s : State) (i : Instr) (h : Gang) (r : RegId) (a : Word) (n u : Nat),
  gangOf s s.me = some h → nearLoadOf s i = some (r, a, n, u) → Ready s i → nearIdle s → s.near.wf = true →
  (InBounds h s.me a n → a.toNat % u = 0 → nearHeld s h i = false → WaitsForBanks s i) ∧
  (InBounds h s.me a n → a.toNat % u = 0 → nearHeld s h i = false → BanksFree s i → ∃ t x m, exec i s = .next t ∧ Advanced s t ∧
    LoadedAs i x n (fun k => nearByte s h.job (nearPhys h s.me a.toNat + k)) ∧ DeliversIn s t r m (.value x) ∧
    (ownSlice s a → m = 6 ∧ Kept s t [r]) ∧ (¬ ownSlice s a → 1 ≤ m ∧ m ≤ nearLimitCk s [nearPhys h s.me a.toNat] ∧ (∃ ls, t.nearLoads = s.nearLoads ++ ls ∧ ∀ l ∈ ls, l.sid = s.me.sid) ∧
      Kept { s with fresh := s.fresh + 1, nearLoads := t.nearLoads } t [r])) ∧
  (¬ InBounds h s.me a n → exec i s = .next (takeTrap s .nearBounds 32 0 a)) ∧
  (InBounds h s.me a n → a.toNat % u ≠ 0 → exec i s = .next (takeTrap s .align 32 0 a))

/-- R202, R203, R207, R208: LDNG gathers the enabled lanes from the gang's near space and keeps the old elements of the others; elements past the lanes are zero. From the strand's own slice it takes 5 + m ck, m the most distinct rows in one bank, and NEARSTALL gains m - 1. The lowest failing lane's address is trapped. -/
def Sys2Proof.Claims.NearGathers : Prop := ∀ (s : State) (g : BitVec 4) (d : BitVec 5) (a : BitVec 6) (t : Ty) (v : BitVec 5) (h : Gang),
  gangOf s s.me = some h → t ≠ .bit → Ready s (.ldng g d a t v) → nearIdle s → s.near.wf = true →
  let bytes := t.width / 8
  let ads := (lanesOn s g t).map (eaLane s a v t)
  let m := conflicts ads
  ((∀ x ∈ ads, InBounds h s.me x bytes ∧ x.toNat % bytes = 0) → nearHeld s h (.ldng g d a t v) = false → BanksFree s (.ldng g d a t v) → ∃ u x n, exec (.ldng g d a t v) s = .next u ∧ Advanced s u ∧ DeliversIn s u (.v d) n (.value x) ∧
    (∀ e, e < 1024 / t.width → el t.width x e = if laneCount t ≤ e then 0 else if on s g t.width e then elementAt s h.job (nearPhys h s.me (eaLane s a v t e).toNat) bytes else el t.width (vVal s d) e) ∧
    ((∀ x ∈ ads, ownSlice s x) → n = 5 + m ∧ Kept (withMe s { s.me with nearstall := s.me.nearstall + BitVec.ofNat 64 (m - 1) }) u [.v d]) ∧
    (¬ (∀ x ∈ ads, ownSlice s x) → 1 ≤ n ∧ n ≤ nearLimitCk s ((ads.filter fun x => sliceOf s.me x != s.me.lidx.toNat).map fun x => nearPhys h s.me x.toNat) ∧
      (∃ ls, u.nearLoads = s.nearLoads ++ ls ∧ ∀ l ∈ ls, l.sid = s.me.sid) ∧ Kept { s with fresh := s.fresh + 1, nearLoads := u.nearLoads } u [.v d])) ∧
  (∀ pre x post, ads = pre ++ x :: post → (∀ y ∈ pre, InBounds h s.me y bytes) → ¬ InBounds h s.me x bytes → exec (.ldng g d a t v) s = .next (takeTrap s .nearBounds 32 0 x)) ∧
  (∀ pre x post, ads = pre ++ x :: post → (∀ y ∈ ads, InBounds h s.me y bytes) → (∀ y ∈ pre, y.toNat % bytes = 0) → x.toNat % bytes ≠ 0 → exec (.ldng g d a t v) s = .next (takeTrap s .align 32 0 x))

/-- The statements Claims.NearLoads, Claims.NearGathers together. -/
def Obligations.NearLoadsAndGathers : Prop := Sys2Proof.Claims.NearLoads ∧ Sys2Proof.Claims.NearGathers

/-- R203, R204, R209, R210, R303: STN, STNV and STNP within bounds and aligned leave the bytes of their register in the strand's own slice at once, every other near byte reading as before for the gang's job; for another slice the store is sent, and performed there later. NEAR_BOUNDS and ALIGN as for loads. -/
def Sys2Proof.Claims.NearStores : Prop := ∀ (s : State) (i : Instr) (h : Gang) (a : Word) (n : Nat) (x : VVal),
  gangOf s s.me = some h → nearStoreOf s i = some (a, n, x) → Ready s i → nearIdle s → s.near.wf = true →
  let loc := nearPhys h s.me a.toNat
  (InBounds h s.me a n → a.toNat % n = 0 → nearHeld s h i = false → BanksFree s i → ∃ t, exec i s = .next t ∧ Advanced s t ∧
    (ownSlice s a → t.timers = s.timers ∧ (∀ b, nearByte t h.job b = if loc ≤ b ∧ b < loc + n then byteOf x (b - loc) else nearByte s h.job b) ∧
      (∀ b, b / 4096 ≠ loc / 4096 → b / 4096 ≠ (loc + n - 1) / 4096 → t.near.read b = s.near.read b) ∧ Kept { s with near := t.near, unitJob := t.unitJob } t []) ∧
    (¬ ownSlice s a → t.timers = s.timers ++ [⟨s.clock + 1 + Config.delay s.fresh, .nearStorePerformed s.nextId⟩] ∧
      Kept { s with
        nearOps := s.nearOps ++ [⟨s.nextId, s.me.sid, s.me.gid, sliceOf s.me a, loc, .store ((List.range n).map fun k => (loc + k, byteOf x k)), true⟩]
        nextId := s.nextId + 1, fresh := s.fresh + 1 } t [])) ∧
  (¬ InBounds h s.me a n → exec i s = .next (takeTrap s .nearBounds 32 0 a)) ∧
  (InBounds h s.me a n → a.toNat % n ≠ 0 → exec i s = .next (takeTrap s .align 32 0 a))

/-- R202, R203, R209, R210: STNS takes every enabled lane in ascending order and combines its element into the one at its address; the lanes of the strand's own slice stand at once, no other near byte changing for the gang's job, and the lanes of each other slice are sent to it in order. The lowest failing lane's address is trapped. -/
def Sys2Proof.Claims.NearScatters : Prop := ∀ (s : State) (g : BitVec 4) (d : BitVec 5) (a : BitVec 6) (o : ScatF) (t : Ty) (v : BitVec 5) (h : Gang),
  gangOf s s.me = some h → t ≠ .bit → (o ≠ .plain → isFloatTy t = true → t = .f32) → (o ≠ .plain → t ≠ .mx8) → Ready s (.stns g d a o t v) → nearIdle s → s.near.wf = true →
  let bytes := t.width / 8
  let ads := (lanesOn s g t).map (eaLane s a v t)
  let at_ (k : Nat) := ((lanesOn s g t).filter fun e => sliceOf s.me (eaLane s a v t e) == k).map fun e => (nearPhys h s.me (eaLane s a v t e).toNat, el t.width (vVal s d) e)
  let own := s.me.lidx.toNat
  ((∀ x ∈ ads, InBounds h s.me x bytes ∧ x.toNat % bytes = 0) → nearHeld s h (.stns g d a o t v) = false → BanksFree s (.stns g d a o t v) → (∀ p ∈ h.alloc, p.2 % 4096 = 0) →
    ∃ u ops, exec (.stns g d a o t v) s = .next u ∧ Advanced s u ∧ u.nearOps = s.nearOps ++ ops ∧ u.timers.take s.timers.length = s.timers ∧ u.timers.length = s.timers.length + ops.length ∧
      Kept { s with near := u.near, unitJob := u.unitJob, nearOps := u.nearOps, nextId := u.nextId, fresh := u.fresh } u [] ∧
      (∀ l ∈ at_ own, elementAt u h.job l.1 bytes = afterLanes o t l.1 (elementAt s h.job l.1 bytes) (at_ own)) ∧
      (∀ b, (∀ l ∈ at_ own, ¬ (l.1 ≤ b ∧ b < l.1 + bytes)) → nearByte u h.job b = nearByte s h.job b) ∧
      (ops.map (·.slice)).Nodup ∧ (∀ k, k ≠ own → at_ k ≠ [] → ∃ p ∈ ops, p.slice = k) ∧
      ∀ p ∈ ops, p.slice ≠ own ∧ p.sid = s.me.sid ∧ p.sent = true ∧ p.what = .scatter o t (at_ p.slice) ∧ ∃ n, ⟨s.clock + 1 + n, .nearStorePerformed p.id⟩ ∈ u.timers) ∧
  (∀ pre x post, ads = pre ++ x :: post → (∀ y ∈ pre, InBounds h s.me y bytes) → ¬ InBounds h s.me x bytes → exec (.stns g d a o t v) s = .next (takeTrap s .nearBounds 32 0 x)) ∧
  (∀ pre x post, ads = pre ++ x :: post → (∀ y ∈ ads, InBounds h s.me y bytes) → (∀ y ∈ pre, y.toNat % bytes = 0) → x.toNat % bytes ≠ 0 → exec (.stns g d a o t v) s = .next (takeTrap s .align 32 0 x))

/-- The statements Claims.NearStores, Claims.NearScatters together. -/
def Obligations.NearStoresAndScatters : Prop := Sys2Proof.Claims.NearStores ∧ Sys2Proof.Claims.NearScatters

/-! ## Slot 6: far memory, and atomics -/

namespace Sys2Proof.Claims

/-- The future of a register: no tag where it discards writes, else a new tag that the register is owed under (R12, R20). -/
def FutureReg (s t : State) (r : RegId) (o : Option Tag) : Prop := (regFixed r = true → o = none) ∧ (regFixed r = false → ∃ g, o = some g ∧ Owed s t r g)

/-- The far loads (R205, R208, R213): destination, address checked, its alignment, what is made of the bytes, and each access with its size. -/
def farLoadOf (s : State) : Instr → Option (RegId × Word × Nat × LoadKind × List (Word × Nat))
  | .ldf _ d a o z => some (.s d, ea s a o (szBytes z), szBytes z, .s z, [(ea s a o (szBytes z), szBytes z)])
  | .ldfv _ d a o => some (.v d, ea s a o 128, 128, .v, [(ea s a o 128, 128)])
  | .ldfg g d a t v => some (.v d, sVal s a, t.width / 8, .g t ((List.range (laneCount t)).map fun e => decide (on s g t.width e)) (vVal s d), (lanesOn s g t).map fun e => (eaLane s a v t e, t.width / 8))
  | _ => none

/-- The far stores (R205, R209, R212): address, bytes, value. -/
def farStoreOf (s : State) : Instr → Option (Word × Nat × VVal)
  | .stf _ d a o z => some (ea s a o (szBytes z), szBytes z, (sVal s d).setWidth 1024)
  | .stfv _ d a o => some (ea s a o 128, 128, vVal s d)
  | _ => none

/-- A far address in one spelling: 0xFFF and the device's own number name the same bytes (R306). -/
def samePlace (s : State) (a : Word) : Word := if a.extractLsb' 48 12 = 0xFFF ∨ (s.numset = true ∧ a.extractLsb' 48 12 = s.devnum) then a ||| 0x0FFF000000000000 else a

/-- The ordinal field of FAULTINJ (R346). -/
def ordinalOf (f : Word) : Nat := (f.extractLsb' 2 30).toNat

/-- FAULTINJ fires at the store that the strand at issue makes (R346). -/
def fires (s : State) : Prop := ordinalOf s.me.faultinj ≠ 0 ∧ s.me.storeCount + 1 = ordinalOf s.me.faultinj

/-- The data that a far store of `n` bytes gates (R346). -/
def injected (s : State) (h : Gang) (n : Nat) (x : VVal) : VVal :=
  if ordinalOf s.me.faultinj ≠ 0 ∧ s.me.storeCount + 1 = ordinalOf s.me.faultinj ∧ h.ridx.toNat = (s.me.faultinj.extractLsb' 0 2).toNat
  then x ^^^ BitVec.ofNat 1024 (2 ^ ((s.me.faultinj.extractLsb' 32 6).toNat % (8 * min n 8))) else x

/-- The atomics of slots 5 and 6: destination, address, width, operation (R215, R216). -/
def atomicOf (s : State) : Instr → Option (Option (BitVec 6) × Word × W2 × AtomOp)
  | .atmf _ z o d a b => some (some d, sVal s a, z, .rmw o (sVal s b))
  | .redf _ z o a b => some (none, sVal s a, z, .rmw o (sVal s b))
  | .casf _ z d a b => some (some d, sVal s a, z, .cas ((s.me.regs.get (pairS b 0)).val.setWidth 64) ((s.me.regs.get (pairS b 1)).val.setWidth 64))
  | _ => none

/-- The window of the strand at issue is empty but for reductions that stream (R217). -/
def windowStreams (s : State) : Prop :=
  s.me.log = [] ∧ s.me.gated = [] ∧ s.me.farLoaded = false ∧ (∀ l ∈ s.farLoads, l.sid ≠ s.me.sid) ∧ (∀ a ∈ s.farAtoms, a.sid = s.me.sid → a.tag = none) ∧ ∀ k ∈ s.cores, ∀ c ∈ k.copies, c.sid ≠ s.me.sid

end Sys2Proof.Claims

/-- R205, R213: LDF, LDFV and LDFG owe their destination and send the access to the owner, with the strand's own gated bytes; a misaligned address (the base, for LDFG) poisons the destination with ALIGN and accesses nothing; a gather without an enabled lane delivers its old elements. PREF changes nothing. -/
def Obligations.FarLoads : Prop := ∀ (s : State) (i : Instr) (r : RegId) (a : Word) (u : Nat) (k : LoadKind) (ls : List (Word × Nat)), Ready s i → nearIdle s →
  (farLoadOf s i = some (r, a, u, k, ls) → (∀ g d b t v, i = .ldfg g d b t v → t ≠ .bit) →
    (a.toNat % u = 0 → ls ≠ [] → ∃ t o gs, exec i s = .next t ∧ Advanced s t ∧ FutureReg s t r o ∧ t.timers = s.timers ++ [⟨s.clock + 1 + Config.delay s.fresh, .farLoadTranslate s.nextId⟩] ∧
      (∀ l ∈ ls, ∀ j, j < l.2 → (gs.find? fun b => b.1 == l.1 + BitVec.ofNat 64 j).map (·.2) = gatedByte s s.me (l.1 + BitVec.ofNat 64 j)) ∧
      Kept { s with
        me := { s.me with farLoaded := true }
        farLoads := s.farLoads ++ [{ id := s.nextId, sid := s.me.sid, tag := o, window := s.me.window, kind := k, lanes := ls, gated := gs, bound := [], remote := false, done := false, fault := none }]
        nextId := s.nextId + 1, fresh := s.fresh + 1 } t [r]) ∧
    (a.toNat % u = 0 → ls = [] → ∃ t o x, exec i s = .next t ∧ Advanced s t ∧ FutureReg s t r o ∧ t.timers = s.timers ++ fills s o (1 + Config.delay s.fresh) (.value x) ∧
      (∀ g d b ty v, i = .ldfg g d b ty v → ∀ e, e < 1024 / ty.width → el ty.width x e = if e < laneCount ty then el ty.width (vVal s d) e else 0) ∧ Kept { s with fresh := s.fresh + o.toList.length } t [r]) ∧
    (a.toNat % u ≠ 0 → ∃ t o, exec i s = .next t ∧ Advanced s t ∧ FutureReg s t r o ∧ t.timers = s.timers ++ fills s o (1 + Config.delay s.fresh) (.poison .align) ∧
      Kept { s with fresh := s.fresh + o.toList.length } t [r])) ∧
  (∀ g b o, i = .pref g b o → ∃ t, exec i s = .next t ∧ t.timers = s.timers ∧ RegFrame s t [])

/-- R205, R212, R346: STF and STFV gate the bytes of their register in the strand's open window, with the bit that FAULTINJ inverts: the strand then sees them at their addresses, by either name of its own device (R306), every other gated byte stays, and no memory changes. The store is counted; the ordinal becomes 0 at the store it names. A misaligned address traps ALIGN. Unreplicated. -/
def Obligations.FarStores : Prop := ∀ (s : State) (i : Instr) (h : Gang) (a : Word) (n : Nat) (x : VVal), gangOf s s.me = some h → farStoreOf s i = some (a, n, x) → Ready s i → replicated s s.me = false →
  (a.toNat % n = 0 → ∃ t, exec i s = .next t ∧ Advanced s t ∧ t.timers = s.timers ∧
    (∀ b, gatedByte t t.me b = if (samePlace s b - samePlace s a).toNat < n then some (byteOf (injected s h n x) (samePlace s b - samePlace s a).toNat) else gatedByte s s.me b) ∧
    (fires s → t.me.faultinj = s.me.faultinj &&& 0xFFFFFFFF00000003) ∧ (¬ fires s → t.me.faultinj = s.me.faultinj) ∧
    Kept (withMe s { s.me with gated := t.me.gated, storeCount := s.me.storeCount + 1, faultinj := t.me.faultinj }) t []) ∧
  (a.toNat % n ≠ 0 → exec i s = .next (takeTrap s .align 64 0 a))

/-- R205, R215 to R217: ATMF, REDF and CASF are commit points. Without a destination, and with nothing but streaming reductions before them, the window closes and the atomic leaves for its owner at once; a destination is owed and logged in the window, so the strand waits there and the atomic with it. Misaligned, REDF traps ALIGN; the others poison their destination with ALIGN, and the commit point stands. Unreplicated, with fewer than 16 atomics unplaced. -/
def Sys2Proof.Claims.FarAtomics : Prop := ∀ (s : State) (i : Instr) (d : Option (BitVec 6)) (a : Word) (z : W2) (op : AtomOp), atomicOf s i = some (d, a, z, op) → Ready s i →
  replicated s s.me = false → s.me.loc.isSome = true → s.me.mark = none → nearIdle s → windowStreams s → (s.farAtoms.filter fun x => x.sid == s.me.sid).length < 16 →
  let atom (o : Option Tag) (sent : Bool) (cpt : Word) : FarAtom :=
    { id := s.nextId, sid := s.me.sid, tag := o, window := s.me.window, va := a, w := z, op := op, sent := sent, cpt := cpt, held := none, fkind := 0, remote := false }
  (a.toNat % w2Bytes z = 0 → d = none ∨ d = some 0 → ∃ t, exec i s = .next t ∧ Advanced s t ∧ t.timers = s.timers ++ [⟨s.clock + 1 + Config.delay s.fresh, .atomicPlacement s.nextId⟩] ∧
    Kept { withMe s (sentMe s t) with farAtoms := s.farAtoms ++ [atom none true (s.me.pc + 32)], nextId := s.nextId + 1, fresh := s.fresh + 1 } t []) ∧
  (∀ r, a.toNat % w2Bytes z = 0 → d = some r → r ≠ 0 → ∃ t g, exec i s = .next t ∧ Owed s t (.s r) g ∧
    WaitsAt s { withMe s (waitingMe s t) with farAtoms := s.farAtoms ++ [atom (some g) false 0], nextId := s.nextId + 1 } t 6 [.farAtom s.nextId] [.s r]) ∧
  (a.toNat % w2Bytes z ≠ 0 → d = none → exec i s = .next (takeTrap s .align 64 0 a)) ∧
  (a.toNat % w2Bytes z ≠ 0 → d = some 0 → ∃ t, exec i s = .next t ∧ Advanced s t ∧ t.timers = s.timers ∧ Kept (withMe s (sentMe s t)) t []) ∧
  (∀ r, a.toNat % w2Bytes z ≠ 0 → d = some r → r ≠ 0 → ∃ t g, exec i s = .next t ∧ Owed s t (.s r) g ∧
    WaitsAt s { withMe s (waitingMe s t) with fresh := s.fresh + 1, timers := s.timers ++ [⟨s.clock + 1 + Config.delay s.fresh, .delivery s.me.sid g (.poison .align)⟩] } t 6 [] [.s r])

/-- R204, R207, R219: ATMN is a commit point that never faults; out of bounds it traps NEAR_BOUNDS, misaligned ALIGN. With D = s0 and an empty window the command reaches the strand's own slice at once and is applied 7 ck later, another slice so that its answer is there within the limit of R207; a destination is owed and logged, and the command waits for the commit point. Unreplicated. -/
def Sys2Proof.Claims.NearAtomics : Prop := ∀ (s : State) (g : BitVec 4) (z : W2) (o : AtomF) (d a b : BitVec 6) (h : Gang), gangOf s s.me = some h → Ready s (.atmn g z o d a b) →
  replicated s s.me = false → s.me.loc.isSome = true → s.me.mark = none → nearIdle s → windowEmpty s →
  let ad := sVal s a
  let opr (k : Option Tag) (sent : Bool) : NearOp := { id := s.nextId, sid := s.me.sid, gid := s.me.gid, slice := sliceOf s.me ad, loc := nearPhys h s.me ad.toNat, what := .atomic z o (sVal s b) k, sent := sent }
  (¬ InBounds h s.me ad (w2Bytes z) → exec (.atmn g z o d a b) s = .next (takeTrap s .nearBounds 32 0 ad)) ∧
  (InBounds h s.me ad (w2Bytes z) → ad.toNat % w2Bytes z ≠ 0 → exec (.atmn g z o d a b) s = .next (takeTrap s .align 32 0 ad)) ∧
  (InBounds h s.me ad (w2Bytes z) → ad.toNat % w2Bytes z = 0 → nearHeld s h (.atmn g z o d a b) = false →
    (d = 0 → ∃ t, exec (.atmn g z o d a b) s = .next t ∧ Advanced s t ∧
      (ownSlice s ad → t.timers = s.timers ++ [⟨s.clock + 7, .nearAtomicApply s.nextId⟩] ∧ Kept { withMe s (sentMe s t) with nearOps := s.nearOps ++ [opr none true], nextId := s.nextId + 1 } t []) ∧
      (¬ ownSlice s ad → t.timers = s.timers ++ [⟨s.clock + 1 + Config.delay s.fresh % (nearLimitCk s [nearPhys h s.me ad.toNat] - 1), .nearAtomicApply s.nextId⟩] ∧
        Kept { withMe s (sentMe s t) with nearOps := s.nearOps ++ [opr none true], nextId := s.nextId + 1, fresh := s.fresh + 1 } t [])) ∧
    (d ≠ 0 → ∃ t k, exec (.atmn g z o d a b) s = .next t ∧ Owed s t (.s d) k ∧
      WaitsAt s { withMe s (waitingMe s t) with nearOps := s.nearOps ++ [opr (some k) false], nextId := s.nextId + 1 } t 5 [.nearAtom s.nextId] [.s d]))

/-- The statements Claims.FarAtomics, Claims.NearAtomics together. -/
def Obligations.AtomicsFarAndNear : Prop := Sys2Proof.Claims.FarAtomics ∧ Sys2Proof.Claims.NearAtomics

/-! ## Slot 7: shapes, copies, channels, collectives -/

namespace Sys2Proof.Claims

/-- The four words of a SHAPE's operands as one record, words 0 to 3 low first (R223). -/
def shapeWords (s : State) (a : BitVec 4) : Shape :=
  let w (k : Nat) : Word := sVal s (BitVec.ofNat 6 (4 * a.toNat + k))
  w 3 ++ w 2 ++ w 1 ++ w 0

/-- The checks of SHAPE (R224): the reserved fields and bit 63 zero, TYPE at most 13, N0, N1 and N2 at least 1, N0 a multiple of 8 for bit and of 32 for mx8, P and PP multiples of the width in bytes. -/
def ShapeGood (h : Shape) : Prop :=
  h.extractLsb' 4 4 = 0 ∧ h.extractLsb' 56 8 = 0 ∧ h.extractLsb' 8 16 ≠ 0 ∧ h.extractLsb' 24 16 ≠ 0 ∧ h.extractLsb' 40 16 ≠ 0 ∧
  ∃ t : Ty, t.code = h.extractLsb' 0 4 ∧ (t = .bit → (h.extractLsb' 8 16).toNat % 8 = 0) ∧ (t = .mx8 → (h.extractLsb' 8 16).toNat % 32 = 0) ∧
    (h.extractLsb' 64 32).toNat % max 1 (t.width / 8) = 0 ∧ (h.extractLsb' 192 32).toNat % max 1 (t.width / 8) = 0

/-- The operands of a copy (R225 to R228): kind, source, destination, command word, shape, destination register. -/
def copyArgs (s : State) : Instr → Option (CopyKind × Word × Word × Word × Shape × BitVec 6)
  | .copy _ h d b a => some (.copy, sVal s a, sVal s b, 0, s.me.h[h.toNat]'(by omega), d)
  | .copyq _ h d b a => some (.copy, (s.me.regs.get (pairS a 0)).val.setWidth 64, (s.me.regs.get (pairS a 1)).val.setWidth 64, sVal s b, s.me.h[h.toNat]'(by omega), d)
  | .gath _ h d b a => some (.gath, sVal s a, sVal s b, 0, s.me.h[h.toNat]'(by omega), d)
  | .scat _ h d b a => some (.scat, sVal s a, sVal s b, 0, s.me.h[h.toNat]'(by omega), d)
  | _ => none

/-- A copy as it is captured at issue under a name and a tag; the index list of GATH and SCAT gives its destination ranges (R231). -/
def captured (s : State) (g : Gang) (x : CopyKind × Word × Word × Word × Shape × BitVec 6) (id : Nat) (o : Option Tag) : CopyOp :=
  { id := id, sid := s.me.sid, tag := o, kind := x.1, src := x.2.1, dst := x.2.2.1, cmd := x.2.2.2.1, h := x.2.2.2.2.1
    idx := if x.1 = .copy then [] else (List.range (shN1 x.2.2.2.2.1)).map fun k => elementAt s g.job (nearPhys g s.me (shO3 x.2.2.2.2.1) + 4 * k) 4
    window := s.me.window, xl := [], xlated := false, kept := [], started := false, writes := [], result := .value 0, count := 0, fault := none, cache := [], asked := false, open_ := 0, lee := [] }

/-- What R229 poisons a copy with at issue. -/
def copyCode (s : State) (g : Gang) (c : CopyOp) : Option PoisonCode :=
  if copyEngine c then some .engine else if copyMisaligned c then some .align else if copyOverlaps s g s.me c then some .overlap else none

/-- The near address and the byte count of SEND and RECV (R236, R237). -/
def spanOf (x : Word) : Nat × Nat := ((x.extractLsb' 0 32).toNat, (x.extractLsb' 32 20).toNat)

/-- `n` near bytes from a near address, as the gang's job reads them. -/
def nearRun (s : State) (g : Gang) (a n : Nat) : List Byte := (List.range n).map fun k => nearByte s g.job (nearPhys g s.me a + k)

/-- ALIGN for a near address that is not a multiple of `n`. -/
def alignCode (a n : Nat) : Option PoisonCode := if a % n = 0 then none else some .align

/-- The channel commands (R234 to R238): destination, and what is sent under a tag, the command's name being the next one where it takes one. -/
def chanCmd (s : State) (g : Gang) : Instr → Option (BitVec 6 × Bool × (Option Tag → Post))
  | .chan _ c d a => some (d, false, fun o => .chan c o (nearRun s g (sVal s a).toNat 64) (alignCode (sVal s a).toNat 64))
  | .send _ c d a => some (d, false, fun o =>
      let e := spanOf (sVal s a)
      .send c { sid := s.me.sid, tag := o, bytes := nearRun s g e.1 e.2, num := oldestTicket s g c, left := false, count := 0, since := 0 } (alignCode e.1 8))
  | .recv _ c d a => some (d, true, fun o =>
      let e := spanOf (sVal s a)
      .recv { id := s.nextId, sid := s.me.sid, tag := o, addr := BitVec.ofNat 64 e.1, size := e.2, mask := BitVec.ofNat 64 (2 ^ c.toNat) } (alignCode e.1 8))
  | .recva _ d a => some (d, true, fun o =>
      let e := spanOf ((s.me.regs.get (pairS a 0)).val.setWidth 64)
      .recv { id := s.nextId, sid := s.me.sid, tag := o, addr := BitVec.ofNat 64 e.1, size := e.2, mask := (s.me.regs.get (pairS a 1)).val.setWidth 64 } (alignCode e.1 8))
  | .tick _ c d => some (d, false, fun o => .tick c o)
  | _ => none

/-- The effect of a channel command that leaves at issue. -/
def chanLeaves (s : State) (g : Gang) : Post → State
  | .chan c o bs none => bindChan s g.gid s.me.sid c o bs
  | .send c o none => postSend (useTicket s s.me.sid c o.num) g.gid c o
  | .recv o none => postRecv s g.gid o
  | .tick c o => postTick s g.gid s.me.sid c o
  | _ => s

/-- What SEND, RECV, RECVA and TICK require of their channels (R236 to R238): the channel that fails. -/
def chanFails (s : State) (g : Gang) : Instr → Option Nat
  | .send _ c _ _ => match chanOf g c with
    | .send e => if e.tkt && s.me.tickets.all (fun k => k.1 != c) then some c.toNat else none
    | _ => some c.toNat
  | .recv _ c _ _ => match chanOf g c with
    | .recv _ => none
    | _ => some c.toNat
  | .recva _ _ a => (List.range 64).find? fun c => ((s.me.regs.get (pairS a 1)).val.setWidth 64 : Word).getLsbD c && match chanOf g (BitVec.ofNat 6 c) with
    | .recv _ => false
    | _ => true
  | .tick _ c _ => match chanOf g c with
    | .send e => if e.tkt then none else some c.toNat
    | _ => some c.toNat
  | _ => none

/-- The near bytes that a channel command names (R235 to R237). -/
def chanRange (s : State) : Instr → Option (Nat × Nat)
  | .chan _ _ _ a => some ((sVal s a).toNat, 64)
  | .send _ _ _ a | .recv _ _ _ a => some (spanOf (sVal s a))
  | .recva _ _ a => some (spanOf ((s.me.regs.get (pairS a 0)).val.setWidth 64))
  | _ => none

/-- Every byte of a range of near addresses passes R204. -/
def RangeIn (g : Gang) (t : Strand) (a n : Nat) : Prop := n = 0 ∨ InBounds g t (BitVec.ofNat 64 a) n

/-- The collective commands (R240, R242): destination, descriptor address, and what is sent for the descriptor's bytes. -/
def collCmd (s : State) : Instr → Option (BitVec 6 × Word × (Option Tag → List Byte → Post))
  | .coll _ d a => some (d, sVal s a, fun o bs => .coll o ((sVal s a).toNat % 64 == 0) bs none)
  | .spsend _ d a => some (d, sVal s a, fun o bs => .spsend o ((sVal s a).toNat % 64 == 0) bs none)
  | .sprecv _ d a => some (d, sVal s a, fun o bs => .sprecv o ((sVal s a).toNat % 64 == 0) bs none)
  | _ => none

end Sys2Proof.Claims

/-- R223, R224, R243: SHAPE builds the record of its four words with VALID set, and traps SHAPE with word 0 where they fail its checks; no register changes. XSTAT writes the copies outstanding on a queue, or on all, at the end of the last ck. -/
def Sys2Proof.Claims.Shapes : Prop := ∀ (s : State) (g h a x : BitVec 4) (d : BitVec 6),
  (Ready s (.shape g h a) → (ShapeGood (shapeWords s a) → ∃ t, exec (.shape g h a) s = .next t ∧ Advanced s t ∧ t.timers = s.timers ∧
      Kept (withMe s { s.me with h := s.me.h.set h.toNat (shapeWords s a ||| BitVec.ofNat 256 (2 ^ 63)) (by omega) }) t []) ∧
    ((gangOf s s.me).isSome = true → ¬ ShapeGood (shapeWords s a) → exec (.shape g h a) s = .next (takeTrap s .shape 128 0 ((shapeWords s a).extractLsb' 0 64)))) ∧
  (Ready s (.xstat g x d) → replicated s s.me = false → ∃ t, exec (.xstat g x d) s = .next t ∧ DeliversIn s t (.s d) 1 (.value (BitVec.ofNat 1024 ((getCore s (coreOf s.me)).xstat.getD x.toNat 0))) ∧ RegFrame s t [.s d])

/-- R225 to R233: COPY, COPYQ, GATH and SCAT within near bounds, with fewer than 16 copies outstanding. A near-bound copy goes to its queue with what it captured, and the bundle issues; a far-bound one is a commit point and waits there. A malformed, misaligned or overlapping copy poisons its destination instead. A near byte out of bounds traps NEAR_BOUNDS. Unreplicated. -/
def Sys2Proof.Claims.Copies : Prop := ∀ (s : State) (i : Instr) (g : Gang) (x : CopyKind × Word × Word × Word × Shape × BitVec 6), copyArgs s i = some x → gangOf s s.me = some g → Ready s i →
  replicated s s.me = false → s.me.loc.isSome = true → s.me.mark = none → nearIdle s → s.near.wf = true →
  let d := x.2.2.2.2.2
  let c := captured s g x
  let far := x.2.2.1.getLsbD 63 = false
  (∀ b, copyBad g s.me (c 0 none) = some b → copiesOut s (coreOf s.me) < 16 → exec i s = .next (takeTrap s .nearBounds 128 0 b)) ∧
  (copyBad g s.me (c 0 none) = none → copiesOut s (coreOf s.me) < 16 →
    (∀ p, copyCode s g (c 0 none) = some p → ¬ far → ∃ t o, exec i s = .next t ∧ Advanced s t ∧ FutureReg s t (.s d) o ∧ t.timers = s.timers ++ fills s o (1 + Config.delay s.fresh) (.poison p) ∧
      Kept { s with fresh := s.fresh + o.toList.length } t [.s d]) ∧
    (copyCode s g (c 0 none) = none → ¬ far → ∃ t o, exec i s = .next t ∧ Advanced s t ∧ FutureReg s t (.s d) o ∧
      let e := placeCopy { s with nextId := s.nextId + 1 } (coreOf s.me) (c s.nextId o)
      t.timers = e.timers ∧ Kept e t [.s d]) ∧
    (∀ p, copyCode s g (c 0 none) = some p → far → d ≠ 0 → ∃ t o, exec i s = .next t ∧ FutureReg s t (.s d) o ∧ WaitsAt s (withMe s (waitingMe s t)) t 7 [.copyPoison o p] [.s d]) ∧
    (∀ p, copyCode s g (c 0 none) = some p → far → d = 0 → windowEmpty s → ∃ t, exec i s = .next t ∧ Advanced s t ∧ t.timers = s.timers ∧ Kept (withMe s (sentMe s t)) t []) ∧
    (copyCode s g (c 0 none) = none → far → ∃ t o, exec i s = .next t ∧ FutureReg s t (.s d) o ∧
      WaitsAt s { withMe s (waitingMe s t) with nextId := s.nextId + 1 } t 7 [.copy (c s.nextId o)] [.s d]))

/-- The statements Claims.Shapes, Claims.Copies together. -/
def Obligations.ShapesAndCopies : Prop := Sys2Proof.Claims.Shapes ∧ Sys2Proof.Claims.Copies

/-- R204, R232, R234 to R238: CHAN, SEND, RECV, RECVA and TICK are commit points. With D = s0 and an empty window the command leaves in the ck of issue with what it read; a destination is owed and logged, and the command waits for the commit point. A channel that is not bound as the command needs, or a ticketed SEND without a ticket, traps CHANNEL with its number; near bytes out of bounds trap NEAR_BOUNDS. Unreplicated. -/
def Sys2Proof.Claims.ChannelCommands : Prop := ∀ (s : State) (i : Instr) (g : Gang) (d : BitVec 6) (k : Bool) (p : Option Tag → Post), chanCmd s g i = some (d, k, p) → gangOf s s.me = some g → Ready s i →
  replicated s s.me = false → s.me.loc.isSome = true → s.me.mark = none → nearIdle s → s.near.wf = true →
  let ids := if k then 1 else 0
  (chanFails s g i = none → (∀ r, chanRange s i = some r → RangeIn g s.me r.1 r.2) →
    (d = 0 → windowEmpty s → ∃ t, exec i s = .next t ∧ Advanced s t ∧
      let e := chanLeaves { withMe s (sentMe s t) with nextId := s.nextId + ids } g (p none)
      t.timers = e.timers ∧ Kept e t []) ∧
    (d ≠ 0 → ∃ t o, exec i s = .next t ∧ Owed s t (.s d) o ∧ WaitsAt s { withMe s (waitingMe s t) with nextId := s.nextId + ids } t 7 [p (some o)] [.s d])) ∧
  (∀ c, chanFails s g i = some c → exec i s = .next (takeTrap s .channel 128 (BitVec.ofNat 16 c) 0)) ∧
  (chanFails s g i = none → ∀ r, chanRange s i = some r → ¬ RangeIn g s.me r.1 r.2 → ∃ b, exec i s = .next (takeTrap s .nearBounds 128 0 b))

/-- R204, R232, R240, R242: COLL, SPSEND and SPRECV are commit points that wait for their tentative phase, with the descriptor they read and a tag for their destination. A descriptor out of bounds traps NEAR_BOUNDS. Unreplicated. -/
def Sys2Proof.Claims.CollectiveCommands : Prop := ∀ (s : State) (i : Instr) (g : Gang) (d : BitVec 6) (a : Word) (p : Option Tag → List Byte → Post), collCmd s i = some (d, a, p) → gangOf s s.me = some g →
  Ready s i → replicated s s.me = false → s.me.loc.isSome = true → s.me.mark = none → nearIdle s → s.near.wf = true →
  (xferTrap s g i = none → InBounds g s.me a 64 ∧ ∃ t o, exec i s = .next t ∧ FutureReg s t (.s d) o ∧
    WaitsAt s (withMe s (waitingMe s t)) t 7 [p o (nearRun s g a.toNat 64)] [.s d]) ∧
  (¬ InBounds g s.me a 64 → ∃ b, exec i s = .next (takeTrap s .nearBounds 128 0 b))

/-- The statements Claims.ChannelCommands, Claims.CollectiveCommands together. -/
def Obligations.ChannelsAndCollectives : Prop := Sys2Proof.Claims.ChannelCommands ∧ Sys2Proof.Claims.CollectiveCommands

/-! ## Events of strands, near and far memory, and windows -/

namespace Sys2Proof.Claims

/-- What a register of a file keeps of a value. -/
def fit (r : RegId) (v : VVal) : VVal :=
  match r with
  | .s _ => (v.setWidth 64).setWidth 1024
  | .v _ => v
  | .p _ => (v.setWidth 128).setWidth 1024

/-- A register holds what was delivered to it (R17, R21). -/
def Landed (y : RegVal) (r : RegId) (x : Payload) : Prop :=
  match x with
  | .value v => y.st = .full ∧ y.val = fit r v
  | .poison c => y.st = .poisoned ∧ y.val = BitVec.ofNat 1024 (poisonCode c)

/-- No register of the strand at issue but those listed, and no entry of its undo log, is PENDING under a tag. -/
def OnlyOwed (s : State) (g : Tag) (rs : List RegId) : Prop :=
  (∀ q, q ∉ rs → ¬ ((s.me.regs.get q).st = .pending ∧ (s.me.regs.get q).tag = g)) ∧ ∀ e ∈ s.me.log, ¬ (e.st = .pending ∧ e.tag = g)

/-- A counter that selects an event of a code has gained `n` (R27). -/
def Counted (s t : State) (code : Byte) (n : Nat) : Prop :=
  ∀ k (h : k < 8), t.me.perf[k] = if s.me.perfsel[k] = code then s.me.perf[k] + BitVec.ofNat 64 n else s.me.perf[k]

/-- The events that fill or poison a future of a strand after `n` ck. -/
def fillsTo (s : State) (sid : Nat) (o : Option Tag) (n : Nat) (x : Payload) : List Timer := o.toList.map fun g => ⟨s.clock + n, .delivery sid g x⟩

/-- The value that an atomic leaves in an element of `k` bytes that held `old` (R215). -/
def updated (z : W2) (op : AtomOp) (old : Nat) : Nat :=
  let n := 8 * w2Bytes z
  match op with
  | .rmw .add b => (old + b.toNat) % 2 ^ n
  | .rmw .and b => old &&& b.toNat % 2 ^ n
  | .rmw .or b => old ||| b.toNat % 2 ^ n
  | .rmw .xor b => old ^^^ b.toNat % 2 ^ n
  | .rmw .min b => if (BitVec.ofNat n b.toNat).toInt < (BitVec.ofNat n old).toInt then b.toNat % 2 ^ n else old
  | .rmw .max b => if (BitVec.ofNat n old).toInt < (BitVec.ofNat n b.toNat).toInt then b.toNat % 2 ^ n else old
  | .rmw .swap b => b.toNat % 2 ^ n
  | .rmw .fadd b => faddB fmtF32 old (b.toNat % 2 ^ n)
  | .cas c v => if old = c.toNat % 2 ^ n then v.toNat % 2 ^ n else old

/-- The old value as an atomic returns it: an integer of 32 bits sign-extended, an f32 sum's bits as they are (R215). -/
def returned (z : W2) (op : AtomOp) (old : Nat) : Word :=
  match z, op with
  | .w32, .rmw .fadd _ => BitVec.ofNat 64 old
  | .w32, _ => (BitVec.ofNat 32 old).signExtend 64
  | .w64, _ => BitVec.ofNat 64 old

/-- A byte of HBM as an address space reads it (R429). -/
def hbmByte (s : State) (asid a : Nat) : Byte := (hbmRead s (keyOf s asid) a 1).headD 0

/-- The element of `k` bytes at an HBM address. -/
def hbmElement (s : State) (asid a k : Nat) : Nat := little ((List.range k).map fun j => hbmByte s asid (a + j))

/-- A translation that an owner of this package makes of an address, the frame being here, its stack present and no byte of HBM spoiled. -/
def Placed (s : State) (asid : Nat) (va : Word) (acc : AccKind) (p : Nat) : Prop :=
  isRemote s va = false ∧ translate s asid va acc = .ok ⟨p, none⟩ ∧ stackGone s p = false ∧ s.spoiled = []

/-- The strand at issue after its window has been discarded for a fault that sent it to `cpt` (R286, R337): FAULTED there or with its trap still held, logged registers restored, the gated lines gone, loop and sequencer back; the counters of event 8 gain one, those of event 7 the answers that are dropped (R27). -/
def RolledBack (s t : State) (cpt : Word) (drops : Nat) : Prop :=
  t.me.pc = cpt ∧ (t.me.st = .faulted ∨ t.me.heldTrap.isSome = true) ∧ t.me.window = s.me.window + 1 ∧ t.me.log = [] ∧ t.me.gated = [] ∧ t.me.loop = s.me.loopC ∧ t.me.seq = s.me.seqC ∧
  (∀ k (h : k < 8), t.me.perf[k] = s.me.perf[k] + (if s.me.perfsel[k] = 8 then 1 else if s.me.perfsel[k] = 7 then BitVec.ofNat 64 drops else 0)) ∧ t.near = s.near ∧ t.me.h = s.me.h ∧
  (∀ r, (∀ e ∈ s.me.log, e.reg ≠ r) → t.me.regs.get r = s.me.regs.get r) ∧
  ((s.me.log.map (·.reg)).Nodup → ∀ e ∈ s.me.log, regFixed e.reg = false → t.me.regs.get e.reg = ⟨fit e.reg e.val, e.st, e.tag⟩)

/-- The strand at issue may issue, nothing of an earlier bundle is left, and the 32 bytes at NEXT are there. -/
def NextBundle (s : State) (bs : List Byte) : Prop :=
  mayIssue s s.me = true ∧ s.issue = none ∧ s.me.mark = none ∧ s.me.cdone = false ∧ s.me.loop.active = false ∧ s.me.closing = none ∧ fetchBundle s = .bytes bs

end Sys2Proof.Claims

/-- R21, R22, R90, R98, R273: a delivery fills or poisons the one register that is PENDING under its tag, and wakes the strand parked on it in the same ck; nothing else changes. One that no register or log entry awaits is dropped and counted by event 7. The strand is resident and awaits no agreed value. -/
def Obligations.Deliveries : Prop := ∀ (s : State) (g : Tag) (x : Payload) (r : RegId), s.me.loc.isSome = true → s.me.agreeWait = [] → s.mirrors = [] → s.me.waitset = none →
  (s.me.st = .running → (s.me.regs.get r).st = .pending → (s.me.regs.get r).tag = g → OnlyOwed s g [r] →
    ∃ t, exec (.delivery s.me.sid g x) s = .next t ∧ t.timers = s.timers ∧ t.me.st = .running ∧ t.me.pc = s.me.pc ∧ Landed (t.me.regs.get r) r x ∧ Kept s t [r]) ∧
  (s.me.st = .parked → s.me.parkid = some r → (s.me.regs.get r).st = .pending → (s.me.regs.get r).tag = g → OnlyOwed s g [r] →
    ∃ t, exec (.delivery s.me.sid g x) s = .next t ∧ t.timers = s.timers ∧ t.me.st = .running ∧ t.me.readyAt = s.clock ∧ t.me.pc = s.me.pc ∧ Landed (t.me.regs.get r) r x ∧
      Kept (withMe s { s.me with notBefore := s.clock }) t [r]) ∧
  (s.me.st = .running ∨ s.me.st = .parked → OnlyOwed s g [] →
    ∃ t, exec (.delivery s.me.sid g x) s = .next t ∧ t.timers = s.timers ∧ t.me.st = s.me.st ∧ Counted s t 7 1 ∧ Kept s t [])

/-- R101, R103, R113, R289: SLEEP_END makes a sleeper whose ck has come ready. STRAND_DONE ends a strand that waits in EXIT for nothing any more: DONE, its context free. A strand marked by a barrier overrun traps BARRIER_BYTES. SEQUENCER_LOAD gives a waiting NEST its record, or traps SHAPE where the record is malformed. -/
def Obligations.StrandEvents : Prop := ∀ (s : State) (sid : Nat),
  (∀ t, getStrand s sid = some t → t.asleep = true → t.notBefore ≤ s.clock → exec (.sleepEnd sid) s = .next (updStrand s sid fun u => { u with asleep := false })) ∧
  (sid = s.me.sid → s.me.cdone = true → s.me.remain = .exit → awaitedOut s s.me = false → s.me.st = .parked → s.me.heldTrap = none → s.me.mark = none → s.me.tickets = [] → ∀ m,
    devWriteAll s (asidOf s s.me) [(s.me.crec, crecBytes { s.me with st := .done, cdone := false, remain := .none, parkid := none, waitset := none } (identOf s s.me))] = .ok m →
    ∃ t, exec (.strandDone sid) s = .next t ∧ t.me.st = .done ∧ t.me.loc = none ∧ t.me.cdone = false ∧ t.me.regs = s.me.regs ∧ t.hbm = m.hbm ∧ t.near = s.near ∧ (getArray t (coreOf s.me)).holder ≠ some sid) ∧
  (∀ (b : BitVec 4) (v : Word), sid = s.me.sid → s.me.mark = some (b, v) → s.me.closing = none → resident s.me = true →
    exec (.barrierBytes sid) s = .next (takeTrapOn (withMe s { s.me with mark := none }) sid ⟨.barrierBytes, 0, b.setWidth 16, s.me.pc, s.me.window, v⟩ s.me.pc)) ∧
  (∀ a bs, sid = s.me.sid → s.me.nestAddr = some a → s.me.st = .parked → s.me.loc.isSome = true → devRead s (asidOf s s.me) a 64 = .ok bs →
    (nestOf bs = none → exec (.sequencerLoad sid) s = .next (takeTrapOn (withMe s { s.me with nestAddr := none }) sid ⟨.shape, 1, 0, s.me.pc, s.me.window, a⟩ s.me.pc)) ∧
    (∀ d c n, nestOf bs = some (d, c, n) → exec (.sequencerLoad sid) s = .next (withMe s { s.me with
      st := .running, readyAt := s.clock + 1, notBefore := s.clock + 1, seq := { nextT := 0, endT := BitVec.ofNat 32 n, counts := c, mode := 2, ndim := d } })))

/-- R209, R210, R215, R219: the oldest near operation of a strand to a slice is performed there: a store leaves its bytes, an atomic its new value, and the old one is delivered in the next ck; every other near byte of the job stays. -/
def Obligations.NearOperations : Prop := ∀ (s : State) (o : NearOp) (h : Gang), o ∈ s.nearOps → o.sent = true → (∀ p ∈ s.nearOps, p.id = o.id → p = o) →
  (∀ p ∈ s.nearOps, p.sid = o.sid → p.slice = o.slice → p.sent = true → p.id ≤ o.id → p = o) → (s.nearOps.map (·.id)).Nodup → getGang s o.gid = some h → s.near.wf = true →
  (∀ bs, o.what = .store bs → (bs.map (·.1)).Nodup → ∃ t, exec (.nearStorePerformed o.id) s = .next t ∧ t.timers = s.timers ∧ t.nearOps = s.nearOps.filter (fun p => p.id != o.id) ∧ t.hbm = s.hbm ∧ t.clock = s.clock ∧
    (∀ b ∈ bs, nearByte t h.job b.1 = b.2) ∧ ∀ a, (∀ b ∈ bs, b.1 ≠ a) → nearByte t h.job a = nearByte s h.job a) ∧
  (∀ z f b g, o.what = .atomic z f b g → o.loc % w2Bytes z = 0 → (∀ x ∈ s.timers, x.ev = .nearAtomicApply o.id → x.due ≤ s.clock) → ∃ t, exec (.nearAtomicApply o.id) s = .next t ∧ t.nearOps = s.nearOps.filter (fun p => p.id != o.id) ∧ t.hbm = s.hbm ∧
    t.timers = s.timers ++ fillsTo s o.sid g 1 (.value ((returned z (.rmw f b) (elementAt s h.job o.loc (w2Bytes z))).setWidth 1024)) ∧
    elementAt t h.job o.loc (w2Bytes z) = updated z (.rmw f b) (elementAt s h.job o.loc (w2Bytes z)) ∧
    ∀ a, ¬ (o.loc ≤ a ∧ a < o.loc + w2Bytes z) → nearByte t h.job a = nearByte s h.job a)

/-- R208, R213, R214, R337: a far load whose pages its owner here translates binds its bytes, the strand's own gated byte before memory's, and they are delivered; a page that misses joins the walk for it; a page that the owner cannot give sends back a fault with its generation, and the fault of a load of the open window rolls the strand back to CPT. -/
def Sys2Proof.Claims.FarLoadEvents : Prop := ∀ (s : State) (l : FarLoad) (u : Strand), s.farLoads.find? (fun x => x.id == l.id) = some l → getStrand s l.sid = some u →
  (∀ va n p, l.done = false → loadBlocked s l = false → l.bound = [] → (l.kind = .v ∨ ∃ z, l.kind = .s z) → l.lanes = [(va, n)] → 0 < n → n ≤ 128 → va.toNat % n = 0 → Placed s (asidOf s u) va .load p →
    ∃ t x, exec (.farLoadTranslate l.id) s = .next t ∧ t.farLoads.find? (fun x => x.id == l.id) = none ∧ t.hbm = s.hbm ∧ t.timers = s.timers ++ fillsTo s l.sid l.tag (1 + Config.delay s.fresh) (.value x) ∧
      ∀ k, k < 128 → byteOf x k = if n ≤ k then 0 else match l.gated.find? (fun b => b.1 == va + BitVec.ofNat 64 k) with
        | some b => b.2
        | none => hbmByte s (asidOf s u) (p + k)) ∧
  (∀ va n k, l.done = false → loadBlocked s l = false → l.lanes = [(va, n)] → isRemote s va = false → translate s (asidOf s u) va .load = .error k → waits k = false →
    ∃ t, exec (.farLoadTranslate l.id) s = .next t ∧ t.timers = s.timers ++ [⟨s.clock + 1 + Config.delay s.fresh, .faultRollback l.sid k va 64⟩] ∧
      t.farLoads.find? (fun x => x.id == l.id) = some { l with done := true, fault := some (k, va, faultGen s (asidOf s u) (k, va)), remote := true }) ∧
  (∀ va n, l.done = false → loadBlocked s l = false → l.lanes = [(va, n)] → isRemote s va = false → translate s (asidOf s u) va .load = .error kWalk → farDie va < 8 →
    ∃ t, exec (.farLoadTranslate l.id) s = .next t ∧ t.hbm = s.hbm ∧ ∃ w ∈ (getDie t (farDie va)).walks ++ (getDie t (farDie va)).walkQ, w.asid = asidOf s u ∧ w.off / 65536 = farOff va / 65536 ∧ .farLoadTranslate l.id ∈ w.joined) ∧
  (∀ k va n, l.done = true → replicated s s.me = false → s.me.sig = none → l.sid = s.me.sid → l.tag = none → l.window = s.me.window → resident s.me = true → isRemote s va = false →
    (∀ x ∈ s.farLoads, x.sid = l.sid → x.fault.map (fun f => (f.1, f.2.1)) = some (k, va) → x = l) → l.fault = some (k, va, n) →
    ∃ t, exec (.faultRollback l.sid k va 64) s = .next t ∧ RolledBack s t s.me.cpt 0)

/-- R215 to R218: a far atomic that has left is placed by its owner here once every earlier one of the strand is: the bytes are updated, no other changes for the job, and the old value is delivered. One that faults is held unplaced; its strand rolls back to the atomic's commit point, and the later atomics answer NOTDONE. -/
def Sys2Proof.Claims.FarAtomicEvents : Prop := ∀ (s : State) (a : FarAtom) (u : Strand), s.farAtoms.find? (fun x => x.id == a.id) = some a → getStrand s a.sid = some u → a.sent = true → a.remote = false →
  (∀ p, a.held = none → atomFirst s a = true → atomBlocked s a = false → Placed s (asidOf s u) a.va .store p → a.va.toNat % w2Bytes a.w = 0 → p % w2Bytes a.w = 0 → s.hbm.wf = true →
    let asid := asidOf s u
    ∃ t, exec (.atomicPlacement a.id) s = .next t ∧ t.farAtoms = s.farAtoms.filter (fun x => x.id != a.id) ∧ t.near = s.near ∧
      t.timers = s.timers ++ fillsTo s a.sid a.tag (1 + Config.delay s.fresh) (.value ((returned a.w a.op (hbmElement s asid p (w2Bytes a.w))).setWidth 1024)) ∧
      hbmElement t asid p (w2Bytes a.w) = updated a.w a.op (hbmElement s asid p (w2Bytes a.w)) ∧
      ∀ b, ¬ (p ≤ b ∧ b < p + w2Bytes a.w) → hbmByte t asid b = hbmByte s asid b) ∧
  (∀ k, a.held = none → atomFirst s a = true → atomBlocked s a = false → isRemote s a.va = false → translate s (asidOf s u) a.va .store = .error k → waits k = false →
    ∃ t, exec (.atomicPlacement a.id) s = .next t ∧ t.hbm = s.hbm ∧ t.timers = s.timers ++ [⟨s.clock + 1 + Config.delay s.fresh, .atomicFaultRollback a.id⟩] ∧
      (t.farAtoms.find? fun x => x.id == a.id) = some { a with held := some (getDie s (farDie a.va)).nextSeq, fkind := k } ∧ (getDie t (farDie a.va)).descs.length = (getDie s (farDie a.va)).descs.length + 1) ∧
  (replicated s s.me = false → s.me.sig = none → a.sid = s.me.sid → resident s.me = true → (∀ x ∈ s.farAtoms, x.sid = a.sid → x.sent = true ∧ (a.id < x.id → x.tag = none)) →
    ∃ t, exec (.atomicFaultRollback a.id) s = .next t ∧ RolledBack s t a.cpt (s.farAtoms.filter fun x => x.sid == a.sid && decide (a.id < x.id)).length ∧ t.me.cpt = a.cpt ∧ ∀ x ∈ t.farAtoms, x.sid = a.sid → x.id ≤ a.id)

/-- The statements Claims.FarLoadEvents, Claims.FarAtomicEvents together. -/
def Obligations.FarLoadAndAtomicEvents : Prop := Sys2Proof.Claims.FarLoadEvents ∧ Sys2Proof.Claims.FarAtomicEvents

/-- R102, R109, R315, R318, R337, R396: the tentative phase reserves the lines that the owners here accept, or rolls the strand back for a page they cannot give; the perform phase applies every gated byte, and the commit point completes: the window is numbered on, CPT and NEXT as it asked. A reservation that no one performs is performed by its owner. LAUNCH's strand traps QUEUE where Gust has rejected the record or its queue is not there. -/
def Sys2Proof.Claims.CommitPhases : Prop := ∀ (s : State) (c : Closing) (h : Gang), s.me.closing = some c → gangOf s s.me = some h → replicated s s.me = false → c.compare = false →
  let asid := asidOf s s.me
  (c.phase = .tentative → c.post = [] → loadsOpen s s.me = false → waitsAtoms s s.me = false → copiesOpen s s.me = [] → ∀ ps : List Nat, List.Forall₂ (fun l p => Placed s asid l.line .store p) s.me.gated ps →
    ∃ t d, exec (.windowTentativePhase s.me.sid) s = .next t ∧ t.me.closing = some d ∧ d.phase = .perform ∧ d.lines = (s.me.gated.zip ps).map (fun l => (l.1, l.2, none)) ∧ d.rids = [] ∧ d.open_ = 0 ∧
      t.timers = s.timers ++ [⟨s.clock, .windowPerform s.me.sid⟩] ∧ t.hbm = s.hbm) ∧
  (c.phase = .tentative → c.post = [] → loadsOpen s s.me = false → waitsAtoms s s.me = false → copiesOpen s s.me = [] → s.me.sig = none → ∀ l k, s.me.gated = [l] → isRemote s l.line = false →
    translate s asid l.line .store = .error k → waits k = false → ∃ t, exec (.windowTentativePhase s.me.sid) s = .next t ∧ RolledBack s t s.me.cpt 0 ∧ t.me.closing = none) ∧
  (c.phase = .perform → c.open_ = 0 → c.rids = [] → c.post = [] → s.me.leaving = [] → c.keep = false → s.me.st = .parked → s.me.heldTrap = none → s.me.mark = none → (∀ l ∈ c.lines, l.2.2 = none ∧ l.2.1 % 64 = 0) →
    (c.lines.map (·.2.1)).Nodup → s.hbm.wf = true →
    ∃ t, exec (.windowPerform s.me.sid) s = .next t ∧ t.me.st = .running ∧ t.me.pc = c.next ∧ t.me.cpt = c.cpt ∧ t.me.window = s.me.window + 1 ∧ t.me.gated = [] ∧ t.me.log = [] ∧ t.me.closing = none ∧
      t.me.regs = s.me.regs ∧ t.me.loopC = s.me.loop ∧ t.timers = s.timers ∧
      (∀ l ∈ c.lines, ∀ j, j < 64 → hbmByte t asid (l.2.1 + j) = if l.1.mask.getLsbD j then l.1.data.extractLsb' (8 * j) 8 else hbmByte s asid (l.2.1 + j)) ∧
      ∀ a, (∀ l ∈ c.lines, ¬ (l.2.1 ≤ a ∧ a < l.2.1 + 64)) → hbmByte t asid a = hbmByte s asid a) ∧
  (∀ r, s.resvs.find? (fun x => x.id == r.id) = some r → (∀ b ∈ r.bytes, b.1 = none) → (r.bytes.map (·.2.1)).Nodup → s.hbm.wf = true →
    ∃ t, exec (.performTimeout r.id) s = .next t ∧ t.resvs = s.resvs.filter (fun x => x.id != r.id) ∧ (∀ b ∈ r.bytes, hbmByte t r.asid b.2.1 = b.2.2) ∧ t.timers = s.timers) ∧
  (∀ a o rec, c.phase = .answer → c.post = [.launch a o rec] → c.kept = [] → c.reject = true ∨ getQueue s h.die h.queue = none → exec (.launchAnswer s.me.sid) s = .next (queueTrap s s.me.sid rec))

/-- R42, R109, R318, R396: the events that carry a bundle and its commit point run. A bundle of eight NOPs issues and the strand stands after it; a bundle of one scalar operation delivers its result. A commit point with no gated line goes from its tentative phase to its perform phase, and from there to the next bundle, the window closed. An owner whose reservation nobody performs performs it; a commit point whose owner does not answer in time goes on. Unreplicated. -/
def Sys2Proof.Claims.IssueAndCommitEvents : Prop := ∀ (s : State),
  ((∀ bs, NextBundle s bs → bs = List.replicate 32 0 → ∃ t, exec (.bundleIssue s.me.sid) s = .next t ∧ t.timers = s.timers ∧ RegFrame s t []) ∧
    ∀ i n w x d v, NextBundle s (bundleBytes (encodeBundle n w x)) → encode i = some (n, w, x) → logicResult s i = some (d, v) → Ready s i →
      ∃ t, exec (.bundleIssue s.me.sid) s = .next t ∧ DeliversIn s t (.s d) 1 (.value (v.setWidth 1024)) ∧ RegFrame s t [.s d]) ∧
  (∀ c h, s.me.closing = some c → gangOf s s.me = some h → replicated s s.me = false → c.compare = false → c.post = [] → s.me.gated = [] →
    (c.phase = .tentative → loadsOpen s s.me = false → waitsAtoms s s.me = false → copiesOpen s s.me = [] →
      ∃ t d, exec (.windowTentativePhase s.me.sid) s = .next t ∧ t.me.closing = some d ∧ d.phase = .perform ∧ d.lines = [] ∧ t.timers = s.timers ++ [⟨s.clock, .windowPerform s.me.sid⟩] ∧
        t.me.regs = s.me.regs ∧ t.me.pc = s.me.pc ∧ t.hbm = s.hbm ∧ t.near = s.near) ∧
    (c.phase = .perform → c.open_ = 0 → c.lines = [] → c.rids = [] → s.me.leaving = [] → c.keep = false → s.me.st = .parked → s.me.heldTrap = none → s.me.mark = none →
      ∃ t, exec (.windowPerform s.me.sid) s = .next t ∧ t.me.st = .running ∧ t.me.pc = c.next ∧ t.me.cpt = c.cpt ∧ t.me.window = s.me.window + 1 ∧ t.me.log = [] ∧ t.me.closing = none ∧
        t.me.regs = s.me.regs ∧ t.timers = s.timers ∧ t.hbm = s.hbm ∧ t.near = s.near) ∧
    (c.phase = .perform → c.open_ = 2 → ∀ q, s.resvs = [] → s.reqs = [q] → q.what = .perform s.me.sid →
      ∃ t, exec (.performTimeout q.rid) s = .next t ∧ t.reqs = [] ∧ t.me.closing = some { c with open_ := 1 } ∧ t.timers = s.timers ∧ t.hbm = s.hbm)) ∧
  ∀ r p x, s.resvs = [r] → r.bytes = [(none, p, x)] → s.hbm.wf = true →
    ∃ t, exec (.performTimeout r.id) s = .next t ∧ t.resvs = [] ∧ hbmByte t r.asid p = x ∧ (∀ a, a ≠ p → hbmByte t r.asid a = hbmByte s r.asid a) ∧ t.timers = s.timers

/-- The statements Claims.CommitPhases, Claims.IssueAndCommitEvents together. -/
def Obligations.WindowPhases : Prop := Sys2Proof.Claims.CommitPhases ∧ Sys2Proof.Claims.IssueAndCommitEvents

/-! ## Queues, tasks and gangs -/

namespace Sys2Proof.Claims

/-- Of all the queues, only the one named has changed; of the dies, nothing but their queues. -/
def QueueOnly (s t : State) (die q : Nat) (x y : HwQueue) : Prop :=
  getQueue s die q = some x ∧ getQueue t die q = some y ∧ (∀ n, n ≠ q → getQueue t die n = getQueue s die n) ∧ (∀ d, d % 8 ≠ die % 8 → getDie t d = getDie s d) ∧
  getDie t die = { getDie s die with queues := (getDie t die).queues }

/-- The queue takes another record on die: nothing stands in its ring, and it has room (R251). -/
def HasRoom (x : HwQueue) : Prop := x.rhead = x.rtail ∧ x.waitRing = [] ∧ x.onDie.length < 16

/-- A record that R252 rejects whatever its queue and the clusters are. -/
def NeverTask (k : Task) : Prop :=
  k.repl = 0 ∨ k.entry.toNat % 32 ≠ 0 ∨ k.width * k.height < k.nstr ∨ 256 < k.nearsz ∨ (0 < k.nsucc ∧ (k.succ = 0 ∨ k.succ.toNat % 8 ≠ 0))

/-- A strand of a gang as Gust starts it (R18, R258): RUNNING at the task's entry, its registers at their first values. -/
def Started (u : Strand) (k : Task) (i : Nat) (l : Nat × BitVec 2 × Nat) : Prop :=
  u.st = .running ∧ u.pc = k.entry ∧ u.cpt = k.entry ∧ u.loc = some (l.1, l.2.1) ∧ u.lidx.toNat = i ∧ u.regs = RegFile.start ∧ u.window = 0 ∧ u.h = Vector.replicate 16 0 ∧ u.loop = LoopSt.zero

/-- Every name in use is below the next one. -/
def NamesFresh (s : State) : Prop := (∀ u ∈ allStrands s, u.sid < s.nextId) ∧ (∀ g ∈ s.gangs, g.gid < s.nextId) ∧ s.me.sid < s.nextId

end Sys2Proof.Claims

/-- R102, R251, R252, R255: an enqueue appends an accepted record to its queue and offers placement; a record that Gust rejects changes nothing. A refill moves the oldest ring entry to the die, an entry of 0 to nowhere. LAUNCH's answer appends its record too, once Gust has read and not rejected it: the strand goes on past the bundle, its destination PENDING under the tag that the record's completion then names. -/
def Obligations.QueueEvents : Prop := ∀ (s : State) (die q : Nat) (rec : Word) (x : HwQueue), getQueue s die q = some x →
  (∀ j bs, getJob s x.job = some j → (∀ k ∈ s.jobs, k.handler ≠ rec) → devRead s j.asid rec 64 = .ok bs →
    (rejects s die x bs = false → HasRoom x → ∃ t, exec (.enqueue die q rec) s = .next t ∧ t = { s with dies := t.dies, timers := s.timers ++ [⟨s.clock, .dispatch die⟩] } ∧
      QueueOnly s t die q x { x with onDie := x.onDie ++ [rec] }) ∧
    (NeverTask (taskOf bs) → exec (.enqueue die q rec) s = .next s)) ∧
  (∀ bs, x.waitRing = [] → x.onDie.length < 16 → x.rtail = x.rhead + 1 → devRead s (queueAsid s x) (x.ring + BitVec.ofNat 64 (8 * (x.rhead.toNat % 2 ^ x.ringlog))) 8 = .ok bs →
    ∃ t, exec (.ringRefill die q) s = .next t ∧ t = { s with dies := t.dies, timers := s.timers ++ [⟨s.clock, .dispatch die⟩] } ∧
      QueueOnly s t die q x { x with rhead := x.rtail, onDie := x.onDie ++ if wordAt bs 0 = 0 then [] else [wordAt bs 0] }) ∧
  (∀ c a o p g, s.me.closing = some c → gangOf s s.me = some g → g.die = die → g.queue = q → replicated s s.me = false → c.phase = .answer → c.post = [.launch a o rec] → c.record = some (p, none) → c.kept = [] → c.reject = false →
    (∀ r, o = some r → regFixed a = false) → x.det = false → HasRoom x → s.hbm.wf = true →
    ∃ t, exec (.launchAnswer s.me.sid) s = .next t ∧ t.me.st = .running ∧ t.me.pc = c.next ∧ t.me.closing = none ∧ t.timers = s.timers ++ [⟨s.clock, .dispatch die⟩] ∧
      QueueOnly s t die q x { x with onDie := x.onDie ++ [rec] } ∧
      (o = none → t.me.regs = s.me.regs ∧ t.hbm = s.hbm) ∧
      (∀ r, o = some r → t.me.regs.get a = ⟨0, .pending, r⟩ ∧ (∀ n, n ≠ a → t.me.regs.get n = s.me.regs.get n) ∧
        (∀ k, k < 8 → hbmByte t (asidOf s s.me) (p + 32 + k) = s.me.crec.extractLsb' (8 * k) 8) ∧
        hbmElement t (asidOf s s.me) (p + 40) 8 = (regIdCode a).toNat + 2 ^ 8 * r.toNat + 2 ^ 24 ∧
        ∀ b, ¬ (p + 32 ≤ b ∧ b < p + 48) → hbmByte t (asidOf s s.me) b = hbmByte s (asidOf s s.me) b))

/-- R18, R103, R253, R254, R257, R258, R259: Gust dispatches the one queue of a die: its record is taken, and a gang stands at the place found, every strand RUNNING at the entry. A task that has ended is reported by its completion word; once its successors are counted it is gone. -/
def Obligations.TaskEvents : Prop := ∀ (s : State),
  (∀ die q j k a cl ls off m, (getDie s die).queues = [q] → q.num < 64 → getJob s q.job = some j → q.en = true → q.since.isSome = true → q.onDie = [a] → q.rhead = q.rtail → q.waitRing = [] →
    recordAt s q a = .ok k → k.waitc = 0 → k.repl = 1 → (∀ g ∈ s.gangs, g.saved = none) →
    couldPlace s die cl k.width k.height k.nstr = true → cl ∈ clustersOf q.clmask → findPlace s die (clustersOf q.clmask) k.width k.height k.nstr k.nearsz [] = some (cl, ls) →
    poolFit j (poolBytes k.nstr k.nearsz) = some off → NamesFresh s → k.nstr = ls.length → k.nstr ≤ 64 →
    bindGang s j a k die q.num cl q.det (taskSeed s q.det k) none 0 ls = .ok m →
    ∃ t, exec (.dispatch die) s = .next t ∧ t.timers = s.timers ++ [⟨s.clock, .ringRefill die q.num⟩, ⟨s.clock, .dispatch die⟩] ∧ t.hbm = m.hbm ∧
      getQueue t die q.num = some { q with onDie := [], since := none } ∧
      (∃ g, getGang t s.nextId = some g ∧ g.record = a ∧ g.task = k ∧ g.job = j.jobn ∧ g.die = die ∧ g.cluster = cl ∧ g.alloc = ls.map (fun l => (l.1, l.2.2)) ∧
        g.barriers = Vector.replicate 16 (Barrier.start k.nstr) ∧ g.strands.length = k.nstr) ∧
      ∀ i (h : i < ls.length), ∃ u, getStrand t (s.nextId + 1 + i) = some u ∧ Started u k i ls[i]) ∧
  (∀ die p, pickable s die = some p → (∀ j ∈ s.jobs, ∀ u ∈ gustLinks (gustQueue s die j.jobn), u.1.link = u.2) → exec (.dispatch die) s = .next { s with timers := s.timers ++ [⟨s.clock, .pickUp p.1 p.2⟩, ⟨s.clock, .dispatch die⟩] }) ∧
  (∀ g j m, getGang s g.gid = some g → g.rset = none → (∀ u ∈ g.strands.filterMap (getStrand s), u.st = .done) → getJob s g.job = some j → g.reported = false → g.task.ckind = false →
    devWrite s j.asid g.task.caddr (leBytes 8 (match g.poison with
      | some c => poisonCode c
      | none => 0)) = .ok m →
    ∃ t, exec (.taskCompletion g.gid) s = .next t ∧ t.hbm = m.hbm ∧ getGang t g.gid = some { g with completed := true, reported := true } ∧ t.timers = s.timers ++ [⟨s.clock, .taskCompletion g.gid⟩]) ∧
  (∀ g, getGang s g.gid = some g → g.rset = none → (∀ u ∈ g.strands.filterMap (getStrand s), u.st = .done) → g.reported = true → g.task.nsucc ≤ g.succDone →
    ∃ t, exec (.taskCompletion g.gid) s = .next t ∧ getGang t g.gid = none ∧ (∀ u ∈ allStrands t, u.gid ≠ g.gid) ∧ ∀ n, n ≠ g.gid → ((getGang t n).map Gang.gid) = (getGang s n).map Gang.gid)

/-- R259, R261, R263, R264, R284, R365, R372 to R377: a held context takes up a READY strand as its records stand. A strand that has been parked long enough for another's room commits and halts. The watchdog stops every strand of the gang it chooses, and traps each once its limit has run out. A request stops its target, clears EN where it says so, and keeps its report for the end. A held trap event takes the job's next number in the ring and in its trap records, and wakes the handler of an empty ring. -/
def Obligations.GangEvents : Prop := ∀ (s : State),
  (∀ sid core u w m, getStrand s sid = some u → u.st = .ready → u.loc.isSome = true → readRecords s u = .ok w → w.st = .ready → w.cdone = false →
    devWriteAll s (asidOf s u) [(u.crec, crecBytes { pickedUp s 0 w with halted := u.halted } (identOf s { pickedUp s 0 w with halted := u.halted }))] = .ok m →
    ∃ t v, exec (.pickUp sid core) s = .next t ∧ getStrand t sid = some v ∧ v.st = .running ∧ v.pc = w.pc ∧ v.cpt = w.cpt ∧ v.regs = w.regs ∧ v.loc = u.loc ∧ v.link = 0 ∧ v.notBefore = s.clock + 1 + Config.delay s.fresh % 128 ∧
      t.hbm = m.hbm ∧ t.timers = s.timers) ∧
  (replicated s s.me = false → evictable s s.me = true → s.me.closing = none → (allNeeds s).any (fun x => x.die == coreDie (coreOf s.me) && wantsRoom s x) = true → s.me.gated = [] → s.me.log = [] → loadsOpen s s.me = false →
    waitsAtoms s s.me = false → s.me.mark = none →
    ∃ t, exec (.eviction s.me.sid) s = .next t ∧ t.me.halted = true ∧ t.me.st = .parked ∧ t.me.pc = s.me.pc ∧ t.me.window = s.me.window + 1 ∧ (s.me.cdone = false → t.me.cpt = s.me.pc) ∧ t.me.closing = none ∧
      t.me.regs = s.me.regs ∧ Counted s t 5 1 ∧ t.timers = s.timers ++ [⟨s.clock + 1 + Config.delay s.fresh, .eviction s.me.sid⟩] ∧ t.hbm = s.hbm) ∧
  (∀ g, getGang s g.gid = some g → g.completed = false → g.saved = none → g.rset = none → underRequest s g.gid = false → (∀ h ∈ s.gangs, dogHalts s h = false) → dogChoice s = some g → evictsFirst s g.die = false →
    ∃ t, exec (.watchdogPreempt g.gid) s = .next t ∧ t.timers = s.timers ++ [⟨s.clock + 1, .watchdogPreempt g.gid⟩] ∧ t.hbm = s.hbm ∧
      ∀ sid u, getStrand s sid = some u → getStrand t sid = some (if sid ∈ g.strands then { u with halted := u.st != .done } else u)) ∧
  (∀ g j v s0 s1, getGang s g.gid = some g → g.rset = none → getJob s g.job = some j → g.saved = some v → v.reason = 2 → 0 < j.wdlim → v.since + j.wdlim * 1300 ≤ s.clock → g.strands.Nodup →
    (∀ u ∈ g.strands.filterMap (getStrand s), u.st = .evicted ∨ u.st = .faulted ∨ u.st = .done) → loadSaved s (g.strands.filterMap (getStrand s)) = .ok s0 → dogTraps [g] s0 = .ok s1 →
    ∃ t, exec (.watchdog g.gid) s = .next t ∧ t = s1 ∧ ∀ u ∈ g.strands.filterMap (getStrand t), u.st = .faulted ∨ u.st = .done) ∧
  (∀ die g w0 w1 w2, getGang s g.gid = some g → g.rset = none → g.die = die → die < 8 → wbits w0 0 2 = 0 → g.task.taskno.toNat = wbits w0 8 32 → s.gangs.filter (isTarget s die 0 (wbits w0 8 32)) = [g] →
    (getDie s die).preempts = [] →
    ∃ t p, exec (.preemptionRequest die w0 w1 w2) s = .next t ∧ t.timers = s.timers ++ [⟨s.clock + 1, .watchdogPreempt g.gid⟩] ∧ (getDie t die).preempts = [p] ∧ p.gangs = [g.gid] ∧ p.report = w1 ∧ p.seq = w2.setWidth 32 ∧ p.done = 0 ∧
      (∀ x, getQueue s die g.queue = some x → getQueue t die g.queue = some { x with en := x.en && !w0.getLsbD 2 }) ∧ t.hbm = s.hbm ∧
      ∀ sid u, getStrand s sid = some u → getStrand t sid = some (if sid ∈ g.strands then { u with halted := u.st != .done } else u)) ∧
  (∀ j k n as b p c m, getJob s j.jobn = some j → (∀ u ∈ allStrands s, u.heldTrap = none ∧ u.resuming = false) → (∀ g ∈ s.gangs, g.unsaved = []) → j.held = [⟨k, n, as, b⟩] → ringIndices s j = .ok (p, c) → (p + 2 ^ 32 - c) % 2 ^ 32 ≠ 2 ^ j.traplog →
    let queued := wordBytes (packWord [(j.seq.toNat, 0), (1, 32)])
    let entry := if b.head? = some 9 then b.take 56 ++ leBytes 4 j.seq.toNat ++ b.drop 60 else b.take 48 ++ queued ++ b.drop 56
    devWriteAll s j.asid (as.map (fun a => (a + 48, queued)) ++ [(j.trapq + BitVec.ofNat 64 (64 * (p % 2 ^ j.traplog)), entry), (j.trapq - 64, leBytes 4 (p + 1))]) = .ok m →
    ∃ t, exec (.heldEventEntry j.jobn) s = .next t ∧ t.hbm = m.hbm ∧ getJob t j.jobn = some { j with held := [], seq := j.seq + 1 } ∧
      t.timers = s.timers ++ if p = c ∧ j.handler ≠ 0 ∧ j.handlerLive = false then [⟨s.clock + 1, .enqueue j.hdie j.hq j.handler⟩] else [])

/-! ## The array, the copy engine, translation -/

namespace Sys2Proof.Claims

/-- Of the cores, only one has changed; of the machine beside them, nothing but the list of events due. -/
def CoreOnly (s t : State) (core : Nat) : Prop := t = { s with cores := t.cores, timers := t.timers } ∧ ∀ c, c ≠ core → getCore t c = getCore s c

/-- The sum of an i8 DOT in weight-stationary flow (R161, R169): the addend from the north, and eight products of the west's lanes with those of L0. -/
def dotI8 (w n l0 : BitVec 72) : BitVec 32 :=
  BitVec.ofInt 32 ((n.extractLsb' 0 32).toInt + ((List.range 8).map fun m => (w.extractLsb' (8 * m) 8).toInt * (l0.extractLsb' (8 * m) 8).toInt).sum)

/-- A program slot whose every cell runs one DOT into the result home, with END (R166 to R168, R190). -/
def DotSlot (p : ProgSlot) : Prop := p.image.extractLsb' 0 32 = 0x80000001 ∧ p.rows = BitVec.allOnes 32 ∧ p.cols = BitVec.allOnes 32

/-- A configuration: weight stationary, i8 by i8 into i32, no addend from the north, not preskewed (R182, R183). -/
def WsI8 (c : Word) : Prop := c.extractLsb' 0 4 = 0 ∧ c.extractLsb' 16 16 = 0x0200

/-- The strand at issue takes a delivery under a tag into a register now: it runs on its context, and nothing else is PENDING under the tag. -/
def Takes (s : State) (g : Tag) (r : RegId) : Prop :=
  s.me.loc.isSome = true ∧ s.me.st = .running ∧ s.me.agreeWait = [] ∧ s.mirrors = [] ∧ (s.me.regs.get r).st = .pending ∧ (s.me.regs.get r).tag = g ∧ OnlyOwed s g [r]

/-- The result of an array command that has completed (R187, R190 to R194). -/
def commandResult (c : ArrCmd) : Payload :=
  if c.bad then .poison .engine
  else match c.kind with
    | .stream | .wave => .value (BitVec.ofNat 1024 (c.b.toNat % 2 ^ 32))
    | .trace => .value (BitVec.ofNat 1024 c.entered)
    | _ => .value 0

/-- A copy of one row of bytes from near memory to near memory, as they are (R225 to R227). -/
def PlainCopy (c : CopyOp) : Prop :=
  c.kind = .copy ∧ c.src.getLsbD 63 = true ∧ c.dst.getLsbD 63 = true ∧ c.cmd.getLsbD 2 = false ∧ c.cmd.getLsbD 10 = false ∧ c.h.extractLsb' 0 4 = 0 ∧ c.h.extractLsb' 24 16 = 1 ∧ c.h.extractLsb' 40 16 = 1

/-- Where a near byte of a copy's destination lies (R225, R302). -/
def copyLoc (h : Gang) (u : Strand) (c : CopyOp) (a : Word) : Nat := nearPhys h u (c.dst.toNat % 2 ^ 63) + (a - c.dst).toNat

end Sys2Proof.Claims

/-- R161 to R169, R184, R185, R190 to R195: the first context that waits claims a free array, cleared if another job had it. A recorded configuration takes effect once the commands before it have completed. A release waits for the commands before it, and leaves cells and programs. One beat of an i8 weight-stationary DOT: each cell on the diagonal of a step adds its products to what came from the north, passes the west's word east and its sum south. A command that completes leaves, and its future fills. -/
def Obligations.ArrayEvents : Prop := ∀ (s : State) (core : Nat), let a := getArray s core
  (∀ sid n u, a.holder = none → a.waiting = [(sid, n)] → getStrand s sid = some u → u.loc.isSome = true → u.st = .running → u.readyAt ≤ n →
    ∃ t, exec (.arrayClaim core) s = .next t ∧ CoreOnly s t core ∧ t.timers = s.timers ∧ (getArray t core).holder = some sid ∧ (getArray t core).lastJob = some (jobNum s u) ∧ (getArray t core).waiting = [] ∧
      (getArray t core).cfg = a.cfg ∧
      if a.lastJob = none ∨ a.lastJob = some (jobNum s u) then (getArray t core).cells = a.cells ∧ (getArray t core).progs = a.progs ∧ (getArray t core).freeAt = a.freeAt
      else (getArray t core).cells = Vector.replicate 1024 Cell.zero ∧ (getArray t core).progs = Vector.replicate 4 ⟨0, 0, 0⟩ ∧ (getArray t core).images = [] ∧ (getArray t core).freeAt = s.clock + 32) ∧
  (∀ n w, a.nextCfg = [(n, w)] →
    ((∀ c ∈ a.cmds, n ≤ c.id) → ∃ t, exec (.arrayConfigApply core) s = .next t ∧ CoreOnly s t core ∧ getArray t core = { a with cfg := w, nextCfg := [] }) ∧
    ((∃ c ∈ a.cmds, c.id < n) → exec (.arrayConfigApply core) s = .next s)) ∧
  (∀ n, a.releasing = some n →
    ((∀ c ∈ a.cmds, n ≤ c.id) → a.nextCfg = [] → ∃ t, exec (.arrayRelease core) s = .next t ∧ CoreOnly s t core ∧ getArray t core = { a with holder := none, releasing := none } ∧
      t.timers = s.timers ++ if a.waiting = [] then [] else [⟨s.clock, .arrayClaim core⟩]) ∧
    ((∃ c ∈ a.cmds, c.id < n) → exec (.arrayRelease core) s = .next s)) ∧
  (∀ w h, gangOf s s.me = some h → a.freeAt ≤ s.clock → frozen s a = false → (∀ c ∈ a.cmds, c.started = true) → a.swaps = 0 → (getCore s core).copies = [] → a.images.length < 64 → s.stallsPending = 0 → a.operands = none → (∀ u ∈ allStrands s, u.bankWait = none) →
    let pipe := shiftPipe a (entering s a)
    pipe.any Option.isSome = true → beatElsewhere s core pipe = false → WsI8 w → (∀ p ∈ a.progs.toList, DotSlot p) → (∀ r, some r ∈ pipe → r.cfg = w ∧ r.swap = false ∧ r.sid = s.me.sid ∧ r.kind = .stream) →
    ∃ t, exec (.arrayBeat core) s = .next t ∧ ⟨s.clock + 1, .arrayBeat core⟩ ∈ t.timers ∧ (getArray t core).pipe = pipe ∧
      ∀ i j (hi : i < 32) (hj : j < 32), let c := a.cells[32 * i + j]'(by omega); let d := (getArray t core).cells[32 * i + j]'(by omega)
        match pipe.getD (i + j) none with
        | none => d = c
        | some r =>
          let west := if j = 0 then BitVec.ofNat 72 (elementAt s h.job (nearPhys h s.me (r.a.toNat + r.step * shP r.h + 8 * i)) 8) else (a.cells[32 * i + j - 1]'(by omega)).e
          let north := if i = 0 then (w.extractLsb' 32 32).setWidth 72 else (a.cells[32 * (i - 1) + j]'(by omega)).s
          if i ≤ (w.extractLsb' 4 5).toNat ∧ j ≤ (w.extractLsb' 9 5).toNat then
            d.l0 = c.l0 ∧ d.shadow = c.shadow ∧ d.e = west ∧ d.s = (dotI8 west north c.l0).setWidth 72 ∧ d.l1 = dotI8 west north c.l0
          else d = c) ∧
  (∀ c g r, a.cmds = [c] → c.started = true → a.nextCfg = [] → a.releasing = none → c.sid = s.me.sid → c.tag = some g → Takes s g r →
    (c.kind ≠ .drain → c.kind ≠ .trace → ∃ t, exec (.arrayCommandComplete core c.id) s = .next t ∧ Landed (t.me.regs.get r) r (commandResult c) ∧ RegsKept s t [r] ∧ t.timers = s.timers ∧ t.near = s.near ∧ t.hbm = s.hbm ∧
      getArray t core = { a with cmds := [] } ∧ ∀ k, k ≠ core → getCore t k = getCore s k) ∧
    (∀ h, c.kind = .drain → gangOf s s.me = some h → s.near.wf = true →
      let loc (p : Nat × Nat) : Nat := nearPhys h s.me (c.a.toNat + p.1 * shP c.h + 4 * p.2)
      ((activeCells c.cfg).Pairwise fun p q => loc p + 4 ≤ loc q) → ∃ t, exec (.arrayCommandComplete core c.id) s = .next t ∧ Landed (t.me.regs.get r) r (commandResult c) ∧ RegsKept s t [r] ∧ t.hbm = s.hbm ∧
        getArray t core = { a with cmds := [] } ∧
        (∀ i j (hi : i < 32) (hj : j < 32), i ≤ (c.cfg.extractLsb' 4 5).toNat → j ≤ (c.cfg.extractLsb' 9 5).toNat → elementAt t h.job (loc (i, j)) 4 = (a.cells[32 * i + j]'(by omega)).l1.toNat) ∧
        ∀ x, (∀ p ∈ activeCells c.cfg, ¬ (loc p ≤ x ∧ x < loc p + 4)) → nearByte t h.job x = nearByte s h.job x))

/-- R225 to R230, R288: a copy that stands first on its queue reads its source and will complete; one that completes has stored its bytes, and then its barrier has their number, its semaphore counts one more, and its future fills. -/
def Obligations.CopyEvents : Prop := ∀ (s : State) (core : Nat) (c : CopyOp) (h : Gang), (getCore s core).copies = [c] → c.sid = s.me.sid → gangOf s s.me = some h → h.saved = none → c.open_ = 0 →
  (c.started = false → PlainCopy c → let n := (c.h.extractLsb' 8 16).toNat
    ∃ t d, exec (.copyStart core c.id) s = .next t ∧ (getCore t core).copies = [d] ∧ d.started = true ∧ d.id = c.id ∧ d.result = .value (BitVec.ofNat 1024 n) ∧ d.writes.length = n ∧
      (∀ k, k < n → d.writes[k]? = some (c.dst + BitVec.ofNat 64 k, nearByte s h.job (nearPhys h s.me (c.src.toNat % 2 ^ 63) + k))) ∧
      t.timers = s.timers ++ [⟨s.clock + 1 + Config.delay s.fresh, .copyCompletion core c.id⟩] ∧ t.near = s.near ∧ t.hbm = s.hbm ∧ t.me = s.me) ∧
  (∀ g r b x, c.started = true → c.lee = [] → c.kept = [] → (∀ w ∈ c.writes, w.1.getLsbD 63 = true) → (c.writes.map (·.1)).Nodup → c.tag = some g → Takes s g r → s.near.wf = true →
    getBarrier s h.gid (c.cmd.extractLsb' 16 4) = some b → s.me.q[(c.cmd.extractLsb' 21 4).toNat]? = some x → b.bad = false → b.bytes + copyCount c ≤ b.expb.toNat → b.arrived ≠ b.expa → x.count.toNat + 1 < 2 ^ 32 →
    let ok : Bool := match c.result with
      | .value _ => true
      | .poison _ => false
    ∃ t, exec (.copyCompletion core c.id) s = .next t ∧ Landed (t.me.regs.get r) r c.result ∧ RegsKept s t [r] ∧ (getCore t core).copies = [] ∧ t.hbm = s.hbm ∧
      (∀ w ∈ c.writes, nearByte t h.job (copyLoc h s.me c w.1) = w.2) ∧ (∀ a, (∀ w ∈ c.writes, copyLoc h s.me c w.1 ≠ a) → nearByte t h.job a = nearByte s h.job a) ∧
      getBarrier t h.gid (c.cmd.extractLsb' 16 4) = some { b with bytes := b.bytes + if ok && c.cmd.getLsbD 20 then copyCount c else 0 } ∧
      t.me.q[(c.cmd.extractLsb' 21 4).toNat]? = some { x with count := if ok && c.cmd.getLsbD 25 then x.count + 1 else x.count } ∧
      t.timers = s.timers ++ if ok && c.cmd.getLsbD 25 then [⟨s.clock, .semaFill s.me.sid (c.cmd.extractLsb' 21 4)⟩] else [])

/-- R338 to R343, R372: a walk that no shoot-down has crossed fills the TLB with its leaf and answers every request that joined it, any other starts again. A shoot-down raises G and removes the entries it covers; once it is the oldest and nothing holds it back, its G is reported. A release makes what waited again, and reports its number once all of it has been placed or has faulted again. An event that the pager passes on is posted to the job's trap queue. -/
def Obligations.TranslationEvents : Prop := ∀ (s : State) (die : Nat), let d := getDie s die
  (∀ w, d.walks = [w] → d.walkQ = [] →
    (∀ lv e, w.gen = d.gen → walkLevels s w.off [0, 1, 2, 3] (tableAddr (asidWord s die w.asid)) = .ok (lv, e) → e.getLsbD 4 = false → d.tlb.length < 32768 →
      ∃ t, exec (.tlbWalkComplete die w.id) s = .next t ∧ t = { s with dies := t.dies, got := t.got, timers := t.timers } ∧
        t.got = s.got ++ w.joined.map (fun ev => ⟨ev, w.asid, BitVec.ofNat 64 w.off, .leaf die lv e⟩) ∧ (∀ ev ∈ w.joined, (∀ sid, ev ≠ .bundleIssue sid) → ∃ x ∈ t.timers, x.ev = ev ∧ x.due ≤ s.clock) ∧ getDie t die = { d with walks := [], tlb := d.tlb ++ [⟨w.asid, lv, w.off / 2 ^ pageBits lv, e⟩] }) ∧
    (w.gen ≠ d.gen → ∃ t, exec (.tlbWalkComplete die w.id) s = .next t ∧ getDie t die = { d with walks := [{ w with gen := d.gen }] } ∧
      t.timers = s.timers ++ [⟨s.clock + 1 + Config.delay s.fresh, .tlbWalkComplete die w.id⟩])) ∧
  (∀ w0 w1, ∃ t, exec (.shootDownRequest die w0 w1) s = .next t ∧ t = { s with dies := t.dies, fresh := s.fresh + 1, timers := t.timers, got := t.got } ∧ (∀ g, g ∈ t.got ↔ g ∈ s.got ∧ shootHits s die w0 w1 g.asid g.va = false) ∧
      t.timers = s.timers ++ [⟨s.clock + 1 + Config.delay s.fresh, .shootDownPerformed die (d.gen + 1)⟩] ∧
      (getDie t die).gen = d.gen + 1 ∧ (getDie t die).shoots = d.shoots ++ [⟨d.gen + 1, w0, w1⟩] ∧ getDie t die = { d with gen := d.gen + 1, tlb := (getDie t die).tlb, shoots := d.shoots ++ [⟨d.gen + 1, w0, w1⟩] } ∧
      (w1.extractLsb' 12 2 = 1 → (getDie t die).tlb = d.tlb.filter fun e => e.asid != (w1.extractLsb' 0 12).toNat) ∧
      (w1.extractLsb' 12 2 = 2 → (getDie t die).tlb = []) ∧
      (w1.extractLsb' 12 4 = 0 → (getDie t die).tlb = d.tlb.filter fun e => !(e.asid == (w1.extractLsb' 0 12).toNat && e.level == 3 && e.page == (w0.extractLsb' 16 29).toNat))) ∧
  (∀ x, d.shoots = [x] → shootReady s die x = true → ∃ t, exec (.shootDownPerformed die x.gen) s = .next t ∧ getDie t die = { d with shoots := [], shootDone := d.shootDone ++ [x.gen] } ∧ t.timers = s.timers ∧ t.me = s.me ∧ t.hbm = s.hbm ∧
      ∀ c ∈ t.cores, ∀ l ∈ c.icache, shootHits s die x.w0 x.w1 l.1 l.2.1 = false) ∧
  (∀ x i, d.descs = [x] → x.held = [.event i] → x.releasing = false →
      ∃ t, exec (.descriptorRelease die x.seq) s = .next t ∧ t = { s with dies := t.dies, timers := s.timers ++ [⟨s.clock, i⟩, ⟨s.clock, .descriptorRelease die x.seq⟩] } ∧ getDie t die = { d with descs := [{ x with releasing := true }] }) ∧
  (∀ x, d.descs = [x] → x.releasing = true →
      ((∀ h ∈ x.held, stillOut s h = false) → ∃ t, exec (.descriptorRelease die x.seq) s = .next t ∧ t = { s with dies := t.dies } ∧ getDie t die = { d with descs := [], released := d.released ++ [x.seq] }) ∧
      ((∃ h ∈ x.held, stillOut s h = true) → exec (.descriptorRelease die x.seq) s = .next { s with timers := s.timers ++ [⟨s.clock + 1, .descriptorRelease die x.seq⟩] })) ∧
  (∀ seq, (∀ x ∈ d.descs, x.seq ≠ seq) → ∃ t, exec (.descriptorRelease die seq) s = .next t ∧ t = { s with dies := t.dies } ∧ getDie t die = { d with released := d.released ++ [seq] }) ∧
  (∀ x r j, d.descs = [x] → x.away = none → x.trap = some r → x.sid = some s.me.sid → getJob s (jobNum s s.me) = some j → j.held = [] → (∀ e ∈ s.timers, e.ev = .heldEventEntry j.jobn → s.clock < e.due) →
    ∃ t, exec (.pagerForward die x.seq) s = .next t ∧ t = { s with dies := t.dies, jobs := t.jobs, timers := s.timers ++ [⟨s.clock, .heldEventEntry j.jobn⟩] } ∧ getDie t die = { d with descs := [{ x with trap := none }] } ∧
      getJob t j.jobn = some { j with held := [⟨s.clock, trapPlace s s.me, [s.me.trec], trapBytes r s.me (identOf s s.me)⟩] })

/-! ## Channels -/

namespace Sys2Proof.Claims

/-- The send end that a channel of a gang is bound to. -/
def sends (s : State) (gid : Nat) (c : BitVec 6) : Option SendEnd := (sendEnd s gid c).map (·.2)

/-- The receive end that a channel of a gang is bound to. -/
def receives (s : State) (gid : Nat) (c : BitVec 6) : Option RecvEnd := (recvEnd s gid c).map (·.2)

/-- A gang that is placed and runs without replication. -/
def Simple (s : State) (g : Gang) : Prop := getGang s g.gid = some g ∧ g.rset = none ∧ g.saved = none ∧ g.completed = false

/-- Elements of 64 bytes that a message takes, at least one (R236). -/
def elements (n : Nat) : Nat := max 1 ((n + 63) / 64)

/-- Where byte `k` from element `start` of a ring lies, if the message does not run around its end (R294). -/
def ringByte (g : Gang) (e : RecvEnd) (start k : Nat) : Nat := slicePhys g e.owner (e.ring.toNat + 64 * (start % e.depth.toNat)) + k

end Sys2Proof.Claims

/-- R236, R294 to R297: a SEND that its credits cover leaves, numbered, and counts against them; one longer than the peer's ring is poisoned ENGINE. A message that fits is stored in the ring, and its SEND fills with its length; one that does not fit waits at the port; one that left for an earlier binding of the channel is dropped, its SEND poisoned LINK. A credit word of a sound ring is taken, any other makes the end resynchronise; after that what was not pushed is poisoned LINK. -/
def Obligations.SendingEvents : Prop := ∀ (s : State) (g : Gang) (c : BitVec 6), Simple s g →
  (∀ x o d q r, sends s g.gid c = some x → x.ops = [o] → o.left = false → x.resync = false → x.tkt = false → x.depth = some d → ownDev s x.peer.dev = true → o.sid = s.me.sid → o.tag = some q → Takes s q r →
    let n := elements o.bytes.length
    (n ≤ d.toNat → n + (x.sent - x.rcvd).toNat ≤ x.free.toNat →
      let m : Msg := { src := addrOf s g c (BitVec.ofNat 2 g.cluster), dst := x.peer, job := g.job, bytes := o.bytes, count := x.msgs, ticket := o.num, bind := (findRecv s g.job x.peer).elim 0 (·.2.bind), sid := o.sid, tag := o.tag }
      ∃ t, exec (.sendTransmit g.gid c) s = .next t ∧ t.timers = s.timers ++ [⟨s.clock + 1 + Config.delay s.fresh, .messagePush m⟩, ⟨s.clock, .sendTransmit g.gid c⟩] ∧ t.me = s.me ∧ t.near = s.near ∧
        sends t g.gid c = some { x with ops := [{ o with left := true, count := x.msgs, since := s.clock }], msgs := x.msgs + 1, sent := x.sent + BitVec.ofNat 32 n }) ∧
    (d.toNat < n → o.num = none → ∃ t, exec (.sendTransmit g.gid c) s = .next t ∧ Landed (t.me.regs.get r) r (.poison .engine) ∧ RegsKept s t [r] ∧ sends t g.gid c = some { x with ops := [] } ∧ t.near = s.near)) ∧
  (∀ e m q r, findRecv s m.job m.dst = some (g, e) → m.dst.ch = c → e.tkt = false → m.ticket = none → e.held = [] → earlierOut s m = false → ownDev s m.src.dev = true → m.sid = s.me.sid → m.tag = some q → Takes s q r → s.near.wf = true →
    (∀ h y, findSend s m.job m.src = some (h, y) → h.gid ≠ g.gid) →
    let n := elements m.bytes.length
    let at_ := ringByte g e e.tail
    (m.bind = e.bind → ringUsed e + n ≤ e.depth.toNat → 64 * (e.tail % e.depth.toNat) + m.bytes.length ≤ 64 * e.depth.toNat → (∀ p, e.expects.find? (fun x => x.1 == m.src) = some p → p.2 = m.count) → (e.expects.find? (fun x => x.1 == m.src) = none → m.count = 0) →
      ∃ t, exec (.messagePush m) s = .next t ∧ Landed (t.me.regs.get r) r (.value (BitVec.ofNat 1024 m.bytes.length)) ∧ RegsKept s t [r] ∧
        (receives t g.gid c).map (fun y => (y.msgs, y.tail, y.pushed, y.pushedMsgs)) =
          some (e.msgs ++ [{ start := e.tail, elems := n, len := m.bytes.length, gap := false, pushedAt := s.clock }], e.tail + n, e.pushed + BitVec.ofNat 32 n, e.pushedMsgs + 1) ∧
        (∀ k, k < m.bytes.length → some (nearByte t g.job (at_ k)) = m.bytes[k]?) ∧ ∀ a, (∀ k, k < m.bytes.length → at_ k ≠ a) → nearByte t g.job a = nearByte s g.job a) ∧
    (m.bind ≠ e.bind → ∃ t, exec (.messagePush m) s = .next t ∧ Landed (t.me.regs.get r) r (.poison .link) ∧ RegsKept s t [r] ∧ receives t g.gid c = some e ∧ t.near = s.near) ∧
    (m.bind = e.bind → e.depth.toNat < ringUsed e + n → ∃ t, exec (.messagePush m) s = .next t ∧ t = { s with gangs := t.gangs } ∧ receives t g.gid c = some { e with held := [m] })) ∧
  (∀ m q r, findRecv s m.job m.dst = none → findSend s m.job m.src = none → earlierOut s m = false → ownDev s m.src.dev = true → m.sid = s.me.sid → m.tag = some q → Takes s q r →
    ∃ t, exec (.messagePush m) s = .next t ∧ Landed (t.me.regs.get r) r (.poison .link) ∧ RegsKept s t [r] ∧ t.gangs = s.gangs ∧ t.near = s.near) ∧
  (∀ x d word, sends s g.gid c = some x → x.resync = false → x.depth = some d →
    (word.extractLsb' 0 15 ≤ d → (x.sent - word.extractLsb' 16 32).toNat ≤ d.toNat → ∃ t, exec (.creditReceive g.gid c word) s = .next t ∧ t.timers = s.timers ++ [⟨s.clock, .sendTransmit g.gid c⟩] ∧
      t = { s with gangs := t.gangs, timers := t.timers } ∧ sends t g.gid c = some { x with free := word.extractLsb' 0 15, rcvd := word.extractLsb' 16 32 }) ∧
    (d < word.extractLsb' 0 15 → ownDev s x.peer.dev = true → ∀ h e, findRecv s g.job x.peer = some (h, e) → ∃ t, exec (.creditReceive g.gid c word) s = .next t ∧ sends t g.gid c = some { x with resync := true } ∧ t.me = s.me ∧
      t.timers = (s.timers.filter fun y => y.ev != .creditRefresh h.gid x.peer.ch) ++
        [⟨s.clock + 2600, .creditRefresh h.gid x.peer.ch⟩, ⟨s.clock + 1 + Config.delay s.fresh, .channelResync g.gid c (creditWord e) (expectOf e (addrOf s g c (BitVec.ofNat 2 g.cluster)))⟩])) ∧
  (∀ x o q r word pushed, sends s g.gid c = some x → x.ops = [o] → o.left = true → o.num = none → (o.count - pushed).msb = false → o.sid = s.me.sid → o.tag = some q → Takes s q r →
    ∃ t, exec (.channelResync g.gid c word pushed) s = .next t ∧ Landed (t.me.regs.get r) r (.poison .link) ∧ RegsKept s t [r] ∧ t.timers = s.timers ++ [⟨s.clock, .sendTransmit g.gid c⟩] ∧
      sends t g.gid c = some { x with resync := false, free := word.extractLsb' 0 15, rcvd := word.extractLsb' 16 32, sent := word.extractLsb' 16 32, ops := [] })

/-- R237, R238, R294 to R298: a receive takes the oldest message of its channel: as many bytes as it has room for, and the result word says how many, how long the message was and on which channel; a gap poisons it LINK and is gone. A receive end that has freed 16 elements, or has been silent, sends its credit word again. A ticket request takes the next number, and its strand holds the ticket; a skipped ticket is passed. -/
def Obligations.ReceivingEvents : Prop := ∀ (s : State) (g : Gang) (c : BitVec 6), Simple s g →
  (∀ e o m q r, receives s g.gid c = some e → g.recvs = [o] → o.mask = BitVec.ofNat 64 (2 ^ c.toNat) → e.msgs = [m] → m.pushedAt < s.clock → e.held = [] → o.sid = s.me.sid → o.tag = some q → Takes s q r → s.near.wf = true →
    (m.gap = true → ∃ t, exec (.recvTake g.gid c) s = .next t ∧ Landed (t.me.regs.get r) r (.poison .link) ∧ RegsKept s t [r] ∧ receives t g.gid c = some { e with msgs := [{ m with gap := false }] } ∧
      ((getGang t g.gid).map (·.recvs)) = some [] ∧ t.near = s.near) ∧
    (m.gap = false → m.len < 2 ^ 24 → e.freed + m.elems < 16 → 64 * (m.start % e.depth.toNat) + m.len ≤ 64 * e.depth.toNat →
      let n := min m.len o.size
      let to_ (k : Nat) : Nat := slicePhys g (nearSlice s.me o.addr.toNat) (nearOff o.addr.toNat) + k
      ∃ t, exec (.recvTake g.gid c) s = .next t ∧ Landed (t.me.regs.get r) r (.value (BitVec.ofNat 1024 (n + 2 ^ 32 * m.len + 2 ^ 56 * c.toNat))) ∧ RegsKept s t [r] ∧
        receives t g.gid c = some { e with msgs := [], freed := e.freed + m.elems, lastTraffic := s.clock } ∧ ((getGang t g.gid).map (·.recvs)) = some [] ∧
        (∀ k, k < n → nearByte t g.job (to_ k) = nearByte s g.job (ringByte g e m.start k)) ∧ ∀ a, (∀ k, k < n → to_ k ≠ a) → nearByte t g.job a = nearByte s g.job a)) ∧
  (∀ e h y, receives s g.gid c = some e → e.tkt = false → ownDev s e.peer.dev = true → findSend s g.job e.peer = some (h, y) → getGang s h.gid = some h → h.gid ≠ g.gid →
    (16 ≤ e.freed ∨ max e.lastCredit e.lastTraffic + 2600 ≤ s.clock → ∃ t, exec (.creditRefresh g.gid c) s = .next t ∧ receives t g.gid c = some { e with freed := 0, lastCredit := s.clock } ∧ sends t h.gid e.peer.ch = some { y with depth := some e.depth, peerBind := e.bind } ∧
      t.timers = (s.timers.filter fun x => x.ev != .creditRefresh g.gid c) ++ [⟨s.clock + 2600, .creditRefresh g.gid c⟩, ⟨s.clock + 1 + Config.delay s.fresh, .creditReceive h.gid e.peer.ch (creditWord e)⟩]) ∧
    (e.freed < 16 → s.clock < max e.lastCredit e.lastTraffic + 2600 → exec (.creditRefresh g.gid c) s = .next { s with timers := s.timers ++ [⟨max e.lastCredit e.lastTraffic + 2600, .creditRefresh g.gid c⟩] })) ∧
  (∀ src dst q r, lowerTick s src dst g.job = false → ownDev s src.dev = true → dst.ch = c → Takes s q r → replicated s s.me = false → (∃ h, gangOf s s.me = some h ∧ h.staleTicks = []) →
    (∀ e k, findRecv s g.job dst = some (g, e) → e.tkt = true → e.issued.find? (fun x => x.num == e.call) = some k → k.skipped = false → k.called.isSome = true →
      ∃ t, exec (.tickArrival src dst g.job s.me.sid (some q)) s = .next t ∧ Landed (t.me.regs.get r) r (.value (e.nextnum.setWidth 1024)) ∧ RegsKept s t [r] ∧ t.me.tickets = s.me.tickets ++ [(src.ch, e.nextnum)] ∧
        receives t g.gid c = some { e with nextnum := e.nextnum + 1, issued := e.issued ++ [⟨e.nextnum, src, s.me.sid, some q, false, none⟩] }) ∧
    (findRecv s g.job dst = none → ∃ t, exec (.tickArrival src dst g.job s.me.sid (some q)) s = .next t ∧ Landed (t.me.regs.get r) r (.poison .link) ∧ RegsKept s t [r] ∧ t.me.tickets = s.me.tickets ∧ t.gangs = s.gangs)) ∧
  (∀ e k, receives s g.gid c = some e → e.issued = [k] → k.num = e.call → k.skipped = true →
    ∃ t, exec (.ticketSkip g.gid c) s = .next t ∧ t = { s with gangs := t.gangs } ∧ receives t g.gid c = some { e with call := e.call + 1, issued := [] })

/-! ## Ports and the switch -/

namespace Sys2Proof.Claims

/-- Of the ports, only one has changed, and it is now `y`. -/
def PortIs (t s : State) (p : Nat) (y : Port) : Prop := getPort t p = y ∧ ∀ n, n % 16 ≠ p % 16 → getPort t n = getPort s n

/-- Nothing of this package waits for another, or has anything on its way there. -/
def Quiet (s : State) : Prop := s.reqs = [] ∧ s.resvs = [] ∧ s.colls = [] ∧ s.waitFlits = []

/-- A flit leaves by a port: it takes the port's next LSEQ, and is kept there until it is acknowledged (R389, R390). -/
def Leaves (s t : State) (p : Nat) (f : Flit) (hops : BitVec 6) : Prop := ∃ g : Flit, t.outFlits = s.outFlits ++ [(p, g)] ∧ g.dst = f.dst ∧ g.src = f.src ∧ g.cls = f.cls ∧ g.body = f.body ∧ g.hops = hops ∧ g.lseq = (getPort s p).nextSeq ∧
  (getPort t p).nextSeq = (getPort s p).nextSeq + 1 ∧ (getPort t p).unacked = (getPort s p).unacked ++ [g] ∧ ∀ n, n % 16 ≠ p % 16 → getPort t n = getPort s n

/-- The way to a device is one UP port, and nothing for that device waits for a path change. -/
def WayTo (s : State) (d : BitVec 12) (p : Nat) : Prop := s.numset = true ∧ portFor s d = some p ∧ (∀ x ∈ s.pathWait, x.1 ≠ d) ∧ (∀ f ∈ s.waitFlits, f.dst ≠ d)

/-- Terms of an instance's contributions whose sum is carried as an integer. -/
def Sums (ps qs rs : List (Carry × Nat)) : Prop :=
  rs.length = min ps.length qs.length ∧ ∀ (k : Nat) (x y : Int), ps[k]? = some (Carry.int x false, 0) → qs[k]? = some (Carry.int y false, 0) → -(2 ^ 63) ≤ x + y → x + y < 2 ^ 63 → rs[k]? = some (Carry.int (x + y) false, 0)

end Sys2Proof.Claims

/-- R388 to R395, R430: a port takes the flits of its peer in LSEQ order, acknowledges each and passes it on; one that fails its check makes the port discard until the resend, one out of order is not taken. A resend sends every unacknowledged flit again in order; the ninth failure, as a loss of lock, takes the port DOWN. A port that trains on two lanes or more comes UP with new numbers and keys. A flit is forwarded by the route table, and is dropped after 63 switches; one for this device is answered here. -/
def Sys2Proof.Claims.PortEvents : Prop := ∀ (s : State) (p : Nat), p < 16 → let x := getPort s p
  (∀ f, x.st = .up → s.waitFlits = [] → s.numset = true → f.dst ≠ s.devnum → f.body ≠ .linkControl →
    (f.epoch = x.rxEpoch → f.lseq = x.expect → ∃ t a, exec (.flitReceive p f true) s = .next t ∧ t.timers = s.timers ++ [⟨s.clock, .flitForward f⟩] ∧ t.outFlits = s.outFlits ++ [(p, a)] ∧ a.body = .linkControl ∧ a.ack = f.lseq ∧
      (getPort t p).expect = x.expect + 1 ∧ (getPort t p).discarding = false ∧ (getPort t p).unacked = x.unacked.filter (fun g => (f.ack - g.lseq).msb) ∧ ∀ n, n % 16 ≠ p % 16 → getPort t n = getPort s n) ∧
    (f.epoch = x.rxEpoch → f.lseq ≠ x.expect → exec (.flitReceive p f true) s = .next s) ∧
    (∃ t a, exec (.flitReceive p f false) s = .next t ∧ t.timers = s.timers ∧ t.outFlits = s.outFlits ++ [(p, a)] ∧ a.body = .linkControl ∧ a.ack = x.expect - 1 ∧ (getPort t p).expect = x.expect ∧ (getPort t p).discarding = true)) ∧
  (x.st = .up → x.unacked ≠ [] → x.failures < 8 → ∃ t, exec (.flitResend p) s = .next t ∧ t.outFlits = s.outFlits ++ (getPort t p).unacked.map (fun g => (p, g)) ∧ (getPort t p).failures = x.failures + 1 ∧
    (getPort t p).retry.toNat = min 65535 (x.retry.toNat + x.unacked.length) ∧ (getPort t p).unacked.map (fun g => (g.lseq, g.dst, g.src, g.cls, g.body)) = x.unacked.map (fun g => (g.lseq, g.dst, g.src, g.cls, g.body))) ∧
  (∀ i, i = .portDown p ∨ (i = .flitResend p ∧ x.unacked ≠ [] ∧ 8 ≤ x.failures) → x.st = .up → Quiet s → (∀ g ∈ x.unacked, ∀ m, g.body ≠ .message m) →
    ∃ t, exec i s = .next t ∧ PortIs t s p { x with st := if x.enabled then .training else .down, downs := BitVec.ofNat 16 (min 65535 (x.downs.toNat + 1)), unacked := [], discarding := false, failures := 0 } ∧
      t.hostEvents = s.hostEvents ++ (p, .down) :: (if x.enabled then [(p, .training)] else []) ∧ (∀ b, b < 49 → t.ready.getLsbD b = if b = 32 + p then false else s.ready.getLsbD b)) ∧
  (∀ good dev port, x.st = .training → portThere s p = true → s.waitFlits = [] →
    (popcount 8 good.toNat < 2 → ∃ t, exec (.portTraining p good dev port) s = .next t ∧ PortIs t s p { x with lanes := good } ∧ t.ready = s.ready ∧ t.hostEvents = s.hostEvents) ∧
    (2 ≤ popcount 8 good.toNat → ∃ t, exec (.portTraining p good dev port) s = .next t ∧ t.hostEvents = s.hostEvents ++ [(p, .up)] ∧ (∀ b, b < 49 → t.ready.getLsbD b = if b = 32 + p then true else s.ready.getLsbD b) ∧
      PortIs t s p { x with st := .up, lanes := good, peerDev := dev, peerPort := port, nextSeq := 0, unacked := [], expect := 0, discarding := false, failures := 0, counter := 0, epoch := 0, rxCounter := 0, rxEpoch := 0, rxOld := false })) ∧
  (x.st = .up → ∃ t, exec (.linkKeyUpdate p) s = .next t ∧ PortIs t s p { x with epoch := x.epoch + 1, counter := 0 } ∧ t = { s with ports := t.ports }) ∧
  (∀ f, s.numset = true → f.dst ≠ s.devnum →
    (WayTo s f.dst p → f.hops ≠ 63 → ∃ t, exec (.flitForward f) s = .next t ∧ Leaves s t p f (f.hops + 1) ∧ t.timers = s.timers) ∧
    (f.hops = 63 → exec (.flitForward f) s = .next s)) ∧
  (∀ f rid asid va n acc hold who a, WayTo s f.src p → f.dst = s.devnum → f.body = .read rid asid va n acc hold who → 0 < n → va.toNat % 65536 + n ≤ 65536 → Placed s asid va .load a →
    ∃ t bs, exec (.flitForward f) s = .next t ∧ Leaves s t p { f with dst := f.src, src := s.devnum, cls := 1, body := .readAns rid bs false } 1 ∧ bs.length = n ∧ (∀ k, k < n → bs[k]? = some (hbmByte s asid (a + k))) ∧ t.hbm = s.hbm)

/-- R387, R396: what this package still awaits from a device whose path is lost, or an answer that has not come within 1 ms, is LINK. A die's routers take the image of its job in a ck that 256 divides; a job without one clears every RSV bit. -/
def Sys2Proof.Claims.LossEvents : Prop := ∀ (s : State),
  (∀ (l : FarLoad) (q : Tag) (r : RegId) (x : Req), s.farLoads = [l] → s.reqs = [x] → (∃ va n, x.what = .load l.id va n) → l.sid = s.me.sid → l.tag = some q → Takes s q r →
    (pathLost s x.dev = true → s.colls = [] → s.resvs = [] → ∃ t, exec (.pathLost x.dev) s = .next t ∧ Landed (t.me.regs.get r) r (.poison .link) ∧ RegsKept s t [r] ∧ t.reqs = [] ∧ t.farLoads = [] ∧ t.timers = s.timers) ∧
    (x.since + 1300000 ≤ s.clock → ∃ t, exec (.requestTimeout x.rid) s = .next t ∧ Landed (t.me.regs.get r) r (.poison .link) ∧ RegsKept s t [r] ∧ t.reqs = [] ∧ t.farLoads = [] ∧ t.timers = s.timers) ∧
    (s.clock < x.since + 1300000 → exec (.requestTimeout x.rid) s = .next s)) ∧
  (∀ dev, pathLost s dev = false → exec (.pathLost dev) s = .next s) ∧
  (∀ die jn j, let d := getDie s die
    d.slotWant = some jn → getJob s jn = some j →
    (s.clock % 256 ≠ 0 → exec (.slotImageLoad die) s = .next { s with timers := s.timers ++ [⟨(s.clock / 256 + 1) * 256, .slotImageLoad die⟩] }) ∧
    (s.clock % 256 = 0 → j.slotImage = 0 → ∃ t, exec (.slotImageLoad die) s = .next t ∧ t = { s with dies := t.dies } ∧ (∀ n, n % 8 ≠ die % 8 → getDie t n = getDie s n) ∧
      getDie t die = { d with slotJob := some jn, slotWant := none, slotTable := d.slotTable.map fun x => x.map fun b => b &&& 0x77 }) ∧
    (∀ bs, s.clock % 256 = 0 → j.slotImage ≠ 0 → devRead s j.asid j.slotImage 0x30400 = .ok bs → imageMalformed (slotTables bs) = false →
      ∃ t, exec (.slotImageLoad die) s = .next t ∧ t = { s with dies := t.dies } ∧ getDie t die = { d with slotJob := some jn, slotWant := none, slotTable := (List.range 193).map fun k => (bs.drop (1024 * k)).take 1024 }))

/-- The statements Claims.PortEvents, Claims.LossEvents together. -/
def Obligations.FlitsPortsAndLosses : Prop := Sys2Proof.Claims.PortEvents ∧ Sys2Proof.Claims.LossEvents

/-- R240 to R242, R401 to R414: two partial sums of an instance become one. A stream that passes its check joins the merge and its sender's future fills with 0; one that fails poisons it. The merge lists every block number that any member listed, once, in rising order. A broadcast writes the root's elements at a member and its future holds their number; a merged block is written with its header, or not at all where it does not fit. A lost path poisons every member. -/
def Obligations.SwitchEvents : Prop := ∀ (s : State) (c : Coll), getColl s c.id = some c →
  (∀ p q a b, c.parts = [p, q] → p.ranks.head? = some a → q.ranks.head? = some b → a ≠ b → c.raw.length < c.size → c.op = 0 → (c.fixed = false ∨ siblings c.size p.ranks q.ranks = true) →
    ∃ t es, exec (.switchCombine c.id a b) s = .next t ∧ t = { s with colls := t.colls } ∧ getColl t c.id = some { c with parts := [⟨p.ranks ++ q.ranks, es⟩] } ∧ Sums p.elems q.elems es) ∧
  (c.sparts.length = c.size → c.result = none → c.bad = none → ∃ t bs, exec (.sparseMerge c.id) s = .next t ∧ getColl t c.id = some { c with result := some bs } ∧ (bs.map (·.block)).Pairwise (· < ·) ∧
    (∀ n, n ∈ bs.map (·.block) ↔ ∃ p ∈ c.sparts, ∃ x ∈ p.blocks, x.block = n) ∧ t.me = s.me ∧ t.hbm = s.hbm ∧ t.near = s.near) ∧
  (∀ m q r, c.members = [m] → m.done = false → (m.recv = true ∨ m.sent = true) → m.sid = s.me.sid → m.tag = some q → Takes s q r →
    (c.bad = none → c.sparts = [] → m.recv = false → c.raw = [(m.rank, rawOf c m.rank)] → 1 < c.size →
      (∀ bs, ingress c.op c.ty m.rank ((rawOf c m.rank).length / 8 + 1) (rawOf c m.rank) none = .ok bs →
        ∃ t, exec (.sparseIngressCheck c.id m.rank) s = .next t ∧ Landed (t.me.regs.get r) r (.value 0) ∧ RegsKept s t [r] ∧ getColl t c.id = some { c with sparts := [⟨m.rank, bs⟩], members := [{ m with done := true }] }) ∧
      ((rawOf c m.rank).length < 8 → ∃ t, exec (.sparseIngressCheck c.id m.rank) s = .next t ∧ Landed (t.me.regs.get r) r (.poison .engine) ∧ RegsKept s t [r])) ∧
    (∀ h, gangOf s s.me = some h → h.rset = none → h.saved = none → s.near.wf = true → m.dst.getLsbD 63 = true → 
      let to_ (k : Nat) : Nat := slicePhys h (nearSlice s.me (m.dst.toNat % 2 ^ 63)) (nearOff (m.dst.toNat % 2 ^ 63)) + k
      (c.kind = 2 → c.raw.length = c.size → c.bad = none → c.ty = .i8 → c.dty = .i8 → c.count ≤ (rawOf c c.root).length →
        ∃ t, exec (.collectiveDelivery c.id m.rank) s = .next t ∧ Landed (t.me.regs.get r) r (.value (BitVec.ofNat 1024 c.count)) ∧ RegsKept s t [r] ∧ t.hbm = s.hbm ∧
          (∀ k, k < c.count → some (nearByte t h.job (to_ k)) = (rawOf c c.root)[k]?) ∧ ∀ a, (∀ k, k < c.count → to_ k ≠ a) → nearByte t h.job a = nearByte s h.job a) ∧
      (∀ b i x, c.result = some [b] → b.dense = false → b.entries = [(i, [(0, .int x false, 0)])] → b.block < 2 ^ 20 → i < 2 ^ 32 → 0 < c.size → c.op = 0 → c.dty = .i32 → -(2 ^ 31) ≤ x → x < 2 ^ 31 → m.recv = true → 0 < c.thresh →
        let out : List Byte := wordBytes (BitVec.ofNat 64 (b.block + 2 ^ 21 + 2 ^ 63)) ++ wordBytes (BitVec.ofNat 64 i) ++ wordBytes ((BitVec.ofInt 32 x).setWidth 64)
        ∃ t, exec (.sparseStreamDelivery c.id m.rank) s = .next t ∧ RegsKept s t [r] ∧ t.hbm = s.hbm ∧
          if m.cap < 24 then Landed (t.me.regs.get r) r (.value (BitVec.ofNat 1024 (2 ^ 35))) ∧ ∀ a, nearByte t h.job a = nearByte s h.job a
          else Landed (t.me.regs.get r) r (.value 24) ∧ (∀ k, k < 24 → some (nearByte t h.job (to_ k)) = out[k]?) ∧ ∀ a, (∀ k, k < 24 → to_ k ≠ a) → nearByte t h.job a = nearByte s h.job a)) ∧
    ∃ t, exec (.collectiveLinkLoss c.id) s = .next t ∧ Landed (t.me.regs.get r) r (.poison .link) ∧ RegsKept s t [r] ∧ t.hbm = s.hbm ∧ ∀ x ∈ t.colls, x.id ≠ c.id)

/-! ## Bring-up, the host and SPDM -/

namespace Sys2Proof.Claims

/-- Bytes of a memory as one number. -/
def laid (m : Memory) (a n : Nat) : Nat := little ((List.range n).map fun k => m.read (a + k))

/-- Firmware executes the command: it is the one that has been taken up, the ring holds no other, and word 0 holds OP and TAG only (R426). -/
def Turn (s : State) (e : CmdEntry) : Prop := s.bar0.stage = 3 ∧ s.hostCmds = [⟨e, false, [], 0⟩] ∧ s.bar0.cmdhead = s.bar0.cmdtail ∧ s.hostMem.wf = true ∧ e.w0.extractLsb' 8 24 = 0

/-- The same of a command whose effect has begun and that waits for its end. -/
def Awaits (s : State) (e : CmdEntry) (ws : List (Nat × BitVec 32)) : Prop := s.bar0.stage = 3 ∧ s.hostCmds = [⟨e, true, ws, 0⟩] ∧ s.bar0.cmdhead = s.bar0.cmdtail ∧ s.hostMem.wf = true

/-- The command is complete (R426): `u` with its completion entry: the TAG, the status, and a value where one is stated. -/
def Answers (u t : State) (e : CmdEntry) (st : Nat) (v : Option Word) : Prop :=
  let at_ := u.bar0.cplbase.toNat + 16 * (u.bar0.cpltail.toNat % 2 ^ (u.bar0.cmdlog.toNat % 32))
  t = { u with hostMem := t.hostMem, hostCmds := [], fresh := u.fresh + 1, bar0 := { u.bar0 with cpltail := u.bar0.cpltail + 1, msix := u.bar0.msix + 1 } } ∧
  laid t.hostMem at_ 8 = (e.w0.extractLsb' 32 32).toNat + 2 ^ 32 * st ∧ (∀ x, v = some x → laid t.hostMem (at_ + 8) 8 = x.toNat) ∧ ∀ a, ¬ (at_ ≤ a ∧ a < at_ + 16) → t.hostMem.read a = u.hostMem.read a

/-- The words from `k` on are zero. -/
def ZeroFrom (e : CmdEntry) (k : Nat) : Prop := ∀ j x, k ≤ j → [e.w0, e.w1, e.w2, e.w3, e.w4, e.w5, e.w6, e.w7][j]? = some x → x = 0

/-- A selective IDE stream is up (R424, R427). -/
def Private (s : State) : Prop := s.spdm.ide ≠ []

/-- Exec answers a state in which the command is complete, over the effect `u`. -/
def Ends (i : Instr) (s u : State) (e : CmdEntry) (st : Nat) (v : Option Word) : Prop := ∃ t, exec i s = .next t ∧ Answers u t e st v

/-- Exec answers a state in which the command has begun and comes back later. -/
def Begins (i : Instr) (s u : State) (e : CmdEntry) (ws : List (Nat × BitVec 32)) : Prop :=
  exec i s = .next { u with hostCmds := [⟨e, true, ws, 0⟩], fresh := u.fresh + 1, timers := u.timers ++ [⟨u.clock + 1 + Config.delay u.fresh, i⟩] }

/-- READYMAP but for one bit. -/
def BitIs (s t : State) (b : Nat) (v : Bool) : Prop := ∀ n, n < 49 → t.ready.getLsbD n = if n = b then v else s.ready.getLsbD n

end Sys2Proof.Claims

/-- R416, R419 to R422, R431, R432: the ROM trains the host link and waits; what is staged is stored while it waits, and nothing beyond 32 MiB exists. GO verifies: an image that passes starts the firmware, one that fails says why and is erased. The registers keep their writable bits; the doorbell takes a command up. Units set and clear their bits of READYMAP. The draw is sampled every 10 µs. -/
def Obligations.BringUp : Prop := ∀ (s : State),
  (s.bar0.stage = 0 → (HwUnit.ioDie 0) ∉ s.mapped → ∃ t, exec .powerUp s = .next t ∧ t = { s with ready := t.ready, bar0 := { s.bar0 with stage := 1 } } ∧ BitIs s t 48 true) ∧
  (∀ off bs, s.staging.wf = true →
    (2 ^ 25 < off + bs.length → exec (.stagingWrite off bs) s = .fault .noStagingByte) ∧
    (off + bs.length ≤ 2 ^ 25 → s.bar0.stage ≠ 1 → exec (.stagingWrite off bs) s = .next s) ∧
    (off + bs.length ≤ 2 ^ 25 → s.bar0.stage = 1 → ∃ t, exec (.stagingWrite off bs) s = .next t ∧ t = { s with staging := t.staging } ∧ (∀ k (h : k < bs.length), t.staging.read (off + k) = bs[k]) ∧
      ∀ a, ¬ (off ≤ a ∧ a < off + bs.length) → t.staging.read a = s.staging.read a)) ∧
  (∀ len, s.bar0.stage = 1 → let u : State := { s with bar0 := { s.bar0 with stage := 2, go := len } };
    ∃ t i, exec (.go len) s = .next t ∧ t = { u with fresh := s.fresh + 1, timers := s.timers ++ [⟨s.clock + 1 + Config.delay s.fresh, i⟩] } ∧ (verifyStatus u = 0 → i = .imageStart) ∧
      (laid s.staging 0 4 ≠ 0x4C414E49 ∨ laid s.staging 4 4 ≠ 1 → i = .verificationFailure 1)) ∧
  (s.bar0.stage = 2 → verifyStatus s = 0 → ∃ t, exec .imageStart s = .next t ∧ t.bar0 = { s.bar0 with stage := 3, status := 0 } ∧ t.powerCap = 2400 ∧ t.identity.isSome = true ∧ t.measured.length = 3 ∧
    t.imageVersion = laid s.staging 8 8 ∧ t.timers = s.timers ++ [⟨s.clock + 13000, .powerSample⟩] ∧ t.staging = s.staging ∧ t.hbm = s.hbm ∧ t.ready = s.ready) ∧
  (s.bar0.stage = 2 → verifyStatus s ≠ 0 → exec (.verificationFailure (BitVec.ofNat 8 (verifyStatus s))) s = .next { s with bar0 := { s.bar0 with stage := 1, status := BitVec.ofNat 8 (verifyStatus s) }, staging := [] }) ∧
  (s.bar0.stage = 3 → ∀ x,
    exec (.hostRegisterWrite 0x100 x) s = .next { s with bar0 := { s.bar0 with cmdbase := x &&& 0xFFFFFFFFFFFFFFC0 } } ∧ exec (.hostRegisterWrite 0x120 x) s = .next { s with bar0 := { s.bar0 with cplbase := x &&& 0xFFFFFFFFFFFFFFF0 } } ∧
    exec (.hostRegisterWrite 0x108 x) s = .next { s with bar0 := { s.bar0 with cmdlog := x &&& 31 } } ∧ exec (.hostRegisterWrite 0x118 x) s = .next s ∧ exec (.hostRegisterWrite 0x128 x) s = .next s ∧
    (s.hostCmds = [] → x ≠ s.bar0.cmdhead → ∃ t e, exec (.hostRegisterWrite 0x110 x) s = .next t ∧ t.bar0 = { s.bar0 with cmdtail := x, cmdhead := s.bar0.cmdhead + 1 } ∧ t.hostCmds = [⟨e, false, [], 0⟩] ∧
      t.timers = s.timers ++ [⟨s.clock + 1 + Config.delay s.fresh, decodeCommand e⟩] ∧
      ∀ j, j < 8 → ([e.w0, e.w1, e.w2, e.w3, e.w4, e.w5, e.w6, e.w7].getD j 0).toNat = laid s.hostMem (s.bar0.cmdbase.toNat + 64 * (s.bar0.cmdhead.toNat % 2 ^ (s.bar0.cmdlog.toNat % 32)) + 8 * j) 8)) ∧
  (∀ d c, d < 8 → c < 3 → s.bar0.stage = 3 →
    (HwUnit.cluster d c ∉ s.mapped → HwUnit.die d ∉ s.mapped → ∃ t, exec (.unitReadyReport (.cluster d c)) s = .next t ∧ BitIs s t (3 * d + c) true ∧ t.me = s.me ∧ t.hbm = s.hbm) ∧
    (HwUnit.cluster d c ∈ s.mapped → exec (.unitReadyReport (.cluster d c)) s = .next s) ∧
    (s.cores = [] → s.gangs = [] → ∃ t, exec (.unitMapOut (.cluster d c)) s = .next t ∧ BitIs s t (3 * d + c) false ∧ HwUnit.cluster d c ∈ t.mapped ∧ t.hbm = s.hbm) ∧
    (s.cores = [] → ∃ t, exec (.unitMapOut (.stack d)) s = .next t ∧ BitIs s t (24 + d) false ∧ HwUnit.stack d ∈ t.mapped ∧ t.hbm = s.hbm)) ∧
  (∃ t, exec .hostLinkDown s = .next t ∧ t = { s with ready := t.ready } ∧ BitIs s t 48 false) ∧
  (s.bar0.stage = 3 → ∃ t, exec .powerSample s = .next t ∧ t.power = min (Config.draw s.fresh) 2400 ∧ t.timers = s.timers ++ [⟨s.clock + 13000, .powerSample⟩] ∧ (t.power ≤ s.powerCap → t.stallsPending = 0) ∧
    (s.powerCap < t.power → 0 < t.stallsPending) ∧ t.me = s.me ∧ t.hbm = s.hbm)

/-- R361, R391 to R395, R426, R427, R432: commands to the device itself: its number is set once; a port that is there trains; an entry of the route table is written; a suspect cluster is cleared; the power cap is set. Each completes with its status; an operand out of range is MALFORMED, and so is every reserved OP. -/
def Obligations.DeviceCommands : Prop := ∀ (s : State) (e : CmdEntry), Turn s e →
  (ZeroFrom e 2 → e.w1.extractLsb' 12 52 = 0 →
    (e.w1 ≠ 4095 → s.numset = false → Ends (.setdev e) s { s with devnum := e.w1.setWidth 12, numset := true } e 0 none) ∧ (e.w1 ≠ 4095 → s.numset = true → Ends (.setdev e) s s e 3 none) ∧
    (e.w1 = 4095 → Ends (.setdev e) s s e 1 none)) ∧
  (ZeroFrom e 2 → e.w1.extractLsb' 4 4 = 0 → e.w1.extractLsb' 9 55 = 0 → let p := (e.w1.extractLsb' 0 4).toNat; let x := getPort s p;
    ((getPort s p).ready = false → Ends (.port e) s s e 5 none) ∧
    (e.w1.getLsbD 8 = true → x.ready = true → ∃ u, Ends (.port e) s u e 0 none ∧ u = { s with ports := u.ports } ∧ PortIs u s p { x with enabled := true, st := if x.st = .down then .training else x.st })) ∧
  (ZeroFrom e 2 → e.w1.extractLsb' 12 4 = 0 → e.w1.extractLsb' 26 38 = 0 → (e.w1.extractLsb' 16 5).toNat < 16 ∨ e.w1.extractLsb' 16 5 = 31 → (e.w1.extractLsb' 21 5).toNat < 16 ∨ e.w1.extractLsb' 21 5 = 31 → Quiet s →
    ∃ u, Ends (.route e) s u e 0 none ∧ u = { s with routes := u.routes } ∧ routeOf u (e.w1.extractLsb' 0 12) = e.w1.extractLsb' 16 16 ∧ ∀ d, d ≠ e.w1.extractLsb' 0 12 → routeOf u d = routeOf s d) ∧
  (ZeroFrom e 2 → e.w1.extractLsb' 3 5 = 0 → e.w1.extractLsb' 10 54 = 0 → e.w1.extractLsb' 8 2 ≠ 3 → let die := (e.w1.extractLsb' 0 3).toNat; let cl := (e.w1.extractLsb' 8 2).toNat;
    (s.ready.getLsbD (3 * die + cl) = false → Ends (.clear e) s s e 5 none) ∧
    (s.ready.getLsbD (3 * die + cl) = true → ∃ u, Ends (.clear e) s u e 0 none ∧ u = { s with dies := u.dies, timers := u.timers } ∧ (∀ c, c < 3 → (getDie u die).suspect.getLsbD c = if c = cl then false else (getDie s die).suspect.getLsbD c) ∧
      ∀ d, d < 8 → d ≠ die → getDie u d = getDie s d)) ∧
  (ZeroFrom e 2 → (1200 ≤ e.w1.toNat → e.w1.toNat ≤ 2400 → Ends (.pcap e) s { s with powerCap := e.w1.toNat } e 0 none) ∧ (e.w1.toNat < 1200 ∨ 2400 < e.w1.toNat → Ends (.pcap e) s s e 1 none)) ∧
  Ends (.reservedOp e) s s e 1 none

/-- R332, R426 to R429: commands to jobs: a job exists from JOBNEW to JOBEND, its address space valid on every die; MAP zeroes the page and writes its leaf; DMAIN and DMAOUT move bytes. Without a private stream JOBNEW is REFUSED. -/
def Obligations.JobCommands : Prop := ∀ (s : State) (e : CmdEntry), Turn s e →
  (ZeroFrom e 2 → (Private s → jobBad (s.hostMem.bytes e.w1.toNat 64) = false →
      let j := jobOfBytes (s.hostMem.bytes e.w1.toNat 64) s.nextId;
      ((∀ k ∈ s.jobs, k.jobn ≠ j.jobn ∧ k.asid ≠ j.asid) → ∃ u, Ends (.jobnew e) s u e 0 none ∧ u.jobs = s.jobs ++ [j] ∧ (∀ d, d < 8 → (asidWord u d j.asid).getLsbD 0 = true ∧ ∀ a, a ≠ j.asid → asidWord u d a = asidWord s d a) ∧ u.hostMem = s.hostMem ∧ u.me = s.me) ∧
      ((∃ k ∈ s.jobs, k.jobn = j.jobn ∨ k.asid = j.asid) → Ends (.jobnew e) s s e 3 none)) ∧
    (¬ Private s → jobBad (s.hostMem.bytes e.w1.toNat 64) = false → Ends (.jobnew e) s s e 2 none) ∧ (jobBad (s.hostMem.bytes e.w1.toNat 64) = true → Ends (.jobnew e) s s e 1 none)) ∧
  (ZeroFrom e 2 → e.w1.extractLsb' 16 48 = 0 → Private s → let n := e.w1.toNat;
    (getJob s n = none → Ends (.jobend e) s s e 4 none) ∧
    (∀ j, getJob s n = some j → jobInUse s n = true → Ends (.jobend e) s s e 3 none) ∧
    (∀ j, getJob s n = some j → jobInUse s n = false → ∃ u, Ends (.jobend e) s u e 0 none ∧ u = { s with jobs := s.jobs.filter (fun k => k.jobn != n), dies := u.dies } ∧ ∀ d, d < 8 → (asidWord u d j.asid).getLsbD 0 = false)) ∧
  (∀ j tbl, ZeroFrom e 5 → e.w1.extractLsb' 16 48 = 0 → e.w4 = 2 → e.w2.extractLsb' 60 4 = 0 → isRemote s e.w2 = false → Private s → getJob s e.w1.toNat = some j → keyOf s j.asid = j.key →
    let die := (e.w2.extractLsb' 45 3).toNat; let page := physAddr (e.w3.extractLsb' 36 3).toNat (65536 * (e.w3.extractLsb' 16 20).toNat);
    dieReady s die = true → e.w3.getLsbD 0 = true → e.w3.getLsbD 1 = true → malformed 1 e.w3 = false → ownDev s (e.w3.extractLsb' 39 12) = true → s.ready.getLsbD (24 + (e.w3.extractLsb' 36 3).toNat) = true →
    entryIs 0 (readEntry s (tableAddr (asidWord s die j.asid)) 0 (farOff e.w2)) = .table tbl →
    (∀ x, (tableAddr (asidWord s die j.asid) ≤ x ∧ x < tableAddr (asidWord s die j.asid) + 8192) ∨ (tbl ≤ x ∧ x < tbl + 4096) → ¬ (page ≤ x ∧ x < page + 2 ^ 26)) → s.hbm.wf = true →
    ∃ u, Ends (.map e) s u e 0 none ∧ hbmRead u 0 (tbl + 8 * (e.w2.extractLsb' 26 9).toNat) 8 = wordBytes e.w3 ∧ (∀ x, page ≤ x → x < page + 2 ^ 26 → hbmByte u j.asid x = 0) ∧ u.me = s.me ∧ u.jobs = s.jobs) ∧
  (∀ j p, ZeroFrom e 5 → e.w1.extractLsb' 16 48 = 0 → 0 < e.w4.toNat → e.w4.toNat % 64 = 0 → e.w3.toNat % 65536 + e.w4.toNat ≤ 65536 → Private s → getJob s e.w1.toNat = some j → isRemote s e.w3 = false → s.hbm.wf = true →
    (translate s j.asid e.w3 .store = .ok ⟨p, none⟩ → ∃ u, Ends (.dmain e) s u e 0 none ∧ (∀ k, k < e.w4.toNat → hbmByte u j.asid (p + k) = s.hostMem.read (e.w2.toNat + k)) ∧
      (∀ a, ¬ (p ≤ a ∧ a < p + e.w4.toNat) → hbmByte u j.asid a = hbmByte s j.asid a) ∧ u.hostMem = s.hostMem) ∧
    (translate s j.asid e.w3 .load = .ok ⟨p, none⟩ → ∃ u, Ends (.dmaout e) s u e 0 none ∧ (∀ k, k < e.w4.toNat → u.hostMem.read (e.w2.toNat + k) = hbmByte s j.asid (p + k)) ∧
      (∀ a, ¬ (e.w2.toNat ≤ a ∧ a < e.w2.toNat + e.w4.toNat) → u.hostMem.read a = s.hostMem.read a) ∧ u.hbm = s.hbm))

/-- R250 to R252, R341, R376, R377, R387, R426, R427: commands to a die: a queue is written while it is idle; ENQ appends a record that Gust accepts; UNMAP, PREEMPT and SLOT begin, and complete once the shoot-down is performed, the report written, the slot image loaded. -/
def Obligations.DieCommands : Prop := ∀ (s : State) (e : CmdEntry), Private s →
  (Turn s e → ZeroFrom e 4 → e.w1.extractLsb' 3 5 = 0 → e.w1.extractLsb' 14 50 = 0 → queueOk e.w2 e.w3 = true → let die := (e.w1.extractLsb' 0 3).toNat; let num := (e.w1.extractLsb' 8 6).toNat;
    dieReady s die = true → ∀ j, getJob s (e.w2.extractLsb' 8 16).toNat = some j →
    (getQueue s die num = none → ∃ u x, Ends (.queue e) s u e 0 none ∧ getQueue u die num = some x ∧ x.prio = e.w2.extractLsb' 0 3 ∧ x.det = e.w2.getLsbD 3 ∧ x.en = e.w2.getLsbD 4 ∧ x.job = j.jobn ∧ x.clmask = e.w2.extractLsb' 24 3 ∧
      x.ringlog = (e.w2.extractLsb' 27 5).toNat ∧ x.ring = e.w3 ∧ x.rhead = 0 ∧ x.rtail = 0 ∧ x.onDie = [] ∧ u = { s with dies := u.dies } ∧ ∀ n, n ≠ num → getQueue u die n = getQueue s die n) ∧
    (∀ x, getQueue s die num = some x → x.en = true → Ends (.queue e) s s e 3 none)) ∧
  (Turn s e → ZeroFrom e 3 → e.w1.extractLsb' 6 2 = 0 → e.w1.extractLsb' 11 53 = 0 → e.w2.extractLsb' 0 6 = 0 → let num := (e.w1.extractLsb' 0 6).toNat; let die := (e.w1.extractLsb' 8 3).toNat;
    ∀ x j bs, getQueue s die num = some x → getJob s x.job = some j → devRead s j.asid e.w2 64 = .ok bs →
    (rejects s die x bs = false → HasRoom x → ∃ u, Ends (.enq e) s u e 0 none ∧ u = { s with dies := u.dies, timers := s.timers ++ [⟨s.clock, .dispatch die⟩] } ∧ QueueOnly s u die num x { x with onDie := x.onDie ++ [e.w2] }) ∧
    (rejects s die x bs = true → Ends (.enq e) s s e 4 none)) ∧
  (let die := (e.w3.extractLsb' 0 3).toNat;
    (Turn s e → ZeroFrom e 4 → e.w3.extractLsb' 3 61 = 0 → shootOk e.w1 e.w2 = true → dieReady s die = true →
      ∃ u, Begins (.unmap e) s u e [(die, (getDie s die).gen + 1)] ∧ exec (.shootDownRequest die e.w1 e.w2) s = .next u) ∧
    (∀ g, Awaits s e [(die, g)] → e.w3.getLsbD 8 = false → ((getDie s die).shootDone.contains g = true → Ends (.unmap e) s s e 0 (some (g.setWidth 64))) ∧ ((getDie s die).shootDone.contains g = false → Begins (.unmap e) s s e [(die, g)]))) ∧
  (Turn s e → ZeroFrom e 4 → preemptOk e.w1 e.w2 e.w3 = true → e.w1.extractLsb' 0 2 = 2 → ∀ j d g, getJob s (e.w1.extractLsb' 8 32).toNat = some j → getGang s g.gid = some g → s.gangs = [g] → g.job = j.jobn →
    g.die = d → g.saved = none → g.completed = false → g.rset = none → d < 8 → (∀ k, k < 8 → dieReady s k = true ↔ k = d) → (getDie s d).preempts = [] →
    ∃ u p, Begins (.preempt e) s u e [] ∧ u.timers = s.timers ++ [⟨s.clock + 1, .watchdogPreempt g.gid⟩] ∧ (getDie u d).preempts = [p] ∧ p.gangs = [g.gid] ∧ p.report = e.w2 ∧ p.seq = e.w3.setWidth 32 ∧ p.asid = some j.asid ∧ u.hbm = s.hbm ∧
      ∀ sid x, getStrand s sid = some x → getStrand u sid = some (if sid ∈ g.strands then { x with halted := x.st != .done } else x)) ∧
  (∀ d p, Awaits s e [] → endedPreempt s e = some (d, p) → ∃ u, Ends (.preempt e) s u e 0 (some (BitVec.ofNat 64 p.done)) ∧ u = { s with dies := u.dies } ∧ p ∉ (getDie u d).preempts) ∧
  (Awaits s e [] → endedPreempt s e = none → Begins (.preempt e) s s e []) ∧
  (Turn s e → ZeroFrom e 3 → e.w1.extractLsb' 3 5 = 0 → e.w1.extractLsb' 24 40 = 0 → let die := (e.w1.extractLsb' 0 3).toNat; let n := (e.w1.extractLsb' 8 16).toNat;
    dieReady s die = true → ∀ j, getJob s n = some j → ∃ u, Begins (.slot e) s u e [] ∧ (getDie u die).slotWant = some n ∧ getJob u n = some { j with slotImage := e.w2 } ∧
      u.timers = s.timers ++ [⟨(s.clock / 256 + 1) * 256, .slotImageLoad die⟩]) ∧
  (Awaits s e [] → (getDie s (e.w1.extractLsb' 0 3).toNat).slotWant = none → Ends (.slot e) s s e 0 none)


/-! ## SPDM and replica sets -/

namespace Sys2Proof.Claims

/-- The responder has answered: the answer is kept and stands at the end of the transcript; the connection is in state `x` otherwise. -/
def Said (s t : State) (ans : List Byte) (x : Spdm) : Prop := t = { s with spdm := { x with transcript := x.transcript ++ ans, answers := s.spdm.answers ++ [ans] } }

/-- Version, capabilities and algorithms are agreed on, and firmware runs. -/
def Connected (s : State) : Prop := s.bar0.stage = 3 ∧ s.spdm.version = true ∧ s.spdm.caps = true ∧ s.spdm.algs = true

/-- Every strand but the listed ones is as it was. -/
def OthersAre (s t : State) (ids : List Nat) : Prop := ∀ i, i ∉ ids → getStrand t i = getStrand s i

end Sys2Proof.Claims

/-- R423 to R425: the responder answers the messages of SPDM: versions, capabilities, algorithms in turn; then digests, certificates, a signed challenge, measurements, and a session that a KEY_EXCHANGE opens and a FINISH completes. Within a session keys are updated and programmed, the stream is established, and the session ends. What a message needs and does not find leaves the responder as it was. The bytes of signatures, digests and keys are free (log 16). -/
def Obligations.SpdmMessages : Prop := ∀ (s : State),
  (s.bar0.stage = 3 → ∃ t, exec .getVersion s = .next t ∧ Said s t [0x12, 0x13] { s.spdm with version := true, caps := false, algs := false, session := 0, transcript := [] }) ∧
  (s.bar0.stage = 3 → s.spdm.version = true → ∃ t ans, exec .getCapabilities s = .next t ∧ Said s t ans { s.spdm with caps := true }) ∧
  (∀ offered : List Nat, s.bar0.stage = 3 → s.spdm.version = true → s.spdm.caps = true →
    ((∀ n, n < 4 → n ∈ offered) → ∃ t ans, exec (.negotiateAlgorithms offered) s = .next t ∧ Said s t ans { s.spdm with algs := true }) ∧
    (∀ n, n < 4 → n ∉ offered → exec (.negotiateAlgorithms offered) s = .next s)) ∧
  (Connected s → ∀ k, s.identity = some k →
    (∃ t ans, exec .getDigests s = .next t ∧ Said s t ans s.spdm ∧ (Config.leafKey s.chain = k → s.chain ≠ [] → ans = Config.sha384 s.chain) ∧ (Config.leafKey s.chain ≠ k → ans = [])) ∧
    (∀ slot off len, ∃ t ans, exec (.getCertificate slot off len) s = .next t ∧ Said s t ans s.spdm ∧ (slot = 0 → Config.leafKey s.chain = k → ans = (s.chain.drop off).take len) ∧ (slot ≠ 0 → ans = [])) ∧
    (∀ slot nonce, ∃ t, exec (.challenge slot nonce) s = .next t ∧ Said s t (Config.sign k (s.spdm.transcript ++ BitVec.ofNat 8 slot :: nonce)) s.spdm) ∧
    (∀ i x, s.measured[i]? = some x → i < 3 → ∃ t, exec (.getMeasurements (i + 1)) s = .next t ∧ Said s t x s.spdm) ∧
    (∃ t ans, exec (.getMeasurements 4) s = .next t ∧ Said s t ans s.spdm ∧ little (ans.take 7) = s.ready.toNat) ∧
    (∀ exchange, ∃ t, exec (.keyExchange exchange) s = .next t ∧ Said s t (Config.sign k (s.spdm.transcript ++ exchange)) { s.spdm with session := 1, keyEpoch := 0 })) ∧
  (∀ verify, Connected s → s.spdm.session = 1 → (Config.sha384 s.spdm.transcript = verify → ∃ t, exec (.finish verify) s = .next t ∧ Said s t [] { s.spdm with session := 2 }) ∧
    (Config.sha384 s.spdm.transcript ≠ verify → exec (.finish verify) s = .next s)) ∧
  (s.bar0.stage = 3 → s.spdm.session = 2 →
    (∃ t, exec .keyUpdate s = .next t ∧ Said s t [] { s.spdm with keyEpoch := s.spdm.keyEpoch + 1 }) ∧ (∃ t, exec .endSession s = .next t ∧ Said s t [] { s.spdm with session := 0 }) ∧
    (∀ n, n ∉ s.spdm.ide → (∃ t, exec (.ideKm n true) s = .next t ∧ Said s t [] { s.spdm with ide := s.spdm.ide ++ [n] }) ∧ ∃ t, exec (.ideKm n false) s = .next t ∧ Said s t [] s.spdm)) ∧
  (∀ n go, s.spdm.session ≠ 2 → exec (.ideKm n go) s = .next s ∧ exec .keyUpdate s = .next s ∧ exec .endSession s = .next s)

/-- R355 to R357, R360, R362: a pair at a comparison point: equal signatures let the windward perform the release; different ones send every replica back to CPT for one more try. A leeward that is told to go completes without performing what it had gated. The windward's value fills a leeward's future. A pair of which a replica is late by 13,000,000 ck is poisoned MISMATCH; one that is not so late yet is looked at again. -/
def Obligations.Replicas : Prop := ∀ (s : State),
  (∀ r w l lidx a b, getRSet s r.id = some r → setStrandsAt s r lidx = [w, l] → w.sid ≠ l.sid → getStrand s w.sid = some w → getStrand s l.sid = some l → w.sig = some a → l.sig = some b → w.verdict = false → l.verdict = false → w.heldTrap = none → l.heldTrap = none →
    (a = b → ∀ c, w.closing = some c → ∃ t, exec (.signatureComparison r.id lidx) s = .next t ∧ getStrand t w.sid = some { w with sig := none, late := none, closing := some { c with phase := .perform } } ∧ OthersAre s t [w.sid] ∧
      t.timers = s.timers ++ [⟨s.clock, .windowPerform w.sid⟩] ∧ t.hbm = s.hbm) ∧
    (a ≠ b → w.tries = 0 → l.tries = 0 → ∃ t, exec (.signatureComparison r.id lidx) s = .next t ∧ OthersAre s t [w.sid, l.sid] ∧ t.hbm = s.hbm ∧
      ∀ x ∈ [w, l], ∃ u, getStrand t x.sid = some u ∧ u.pc = x.cpt ∧ u.cpt = x.cpt ∧ u.st = .running ∧ u.tries = 1 ∧ u.window = x.window + 1 ∧ u.ordinal = x.ordinal ∧ u.gated = [] ∧ u.log = [] ∧ u.closing = none ∧ u.sig = none)) ∧
  (∀ c, s.me.closing = some c → s.me.verdict = true → c.phase = .compare → c.compare = true → c.post = [] → c.keep = false → s.me.st = .parked → s.me.heldTrap = none → s.me.mark = none →
    ∃ t, exec (.replicaGo s.me.sid) s = .next t ∧ t.me.st = .running ∧ t.me.pc = c.next ∧ t.me.cpt = c.cpt ∧ t.me.window = s.me.window + 1 ∧ t.me.ordinal = s.me.ordinal + 1 ∧ t.me.gated = [] ∧ t.me.log = [] ∧ t.me.tries = 0 ∧ t.me.closing = none ∧
      t.me.regs = s.me.regs ∧ t.hbm = s.hbm ∧ t.near = s.near ∧ t.timers = s.timers) ∧
  (∀ ord n x g y r, s.me.st = .parked → s.me.parkid = some r → s.me.waitset = none → s.me.loc.isSome = true → s.mirrors = [] → s.me.agreeWait = [(ord, n, g, some y)] → (s.me.regs.get r).st = .pending → (s.me.regs.get r).tag = g → OnlyOwed s g [r] →
    ∃ t, exec (.agreedValueArrival s.me.sid ord n x) s = .next t ∧ Landed (t.me.regs.get r) r x ∧ RegsKept s t [r] ∧ t.me.st = .running ∧ t.me.agreed = s.me.agreed ++ [(ord, n, x)] ∧ t.me.agreeWait = [] ∧ t.timers = s.timers ∧ t.hbm = s.hbm) ∧
  (∀ r (a b : Gang) idx (u : Strand) n, getRSet s r.id = some r → (liveGids r).filterMap (getGang s) = [a, b] → a.ridx.toNat ≠ idx → b.ridx.toNat = idx → unitGone s b = false → b.strands.filterMap (getStrand s) = [u] → u.late = some n →
    (n < 13000000 → exec (.replicaLost r.id idx) s = .next { s with timers := s.timers ++ [⟨s.clock + (13000000 - n), .replicaLost r.id idx⟩] }) ∧
    (13000000 ≤ n → getGang s a.gid = some a → getGang s b.gid = some b → (setStrandsAt s r u.lidx).length = 2 →
      ∃ t, exec (.replicaLost r.id idx) s = .next t ∧ ∀ g ∈ [a, b], ∃ h, getGang t g.gid = some h ∧ h.poison = some .mismatch))


/-! ## The machine as a whole -/

namespace Sys2Proof.Claims

/-- The 32 bytes at NEXT are those of the bundle that holds one instruction, and the strand at issue is the one whose turn it is: nothing waits outside, nothing is due. -/
def OneAtNext (s : State) (n : Nat) (w : Half) (x : Option Half) : Prop :=
  s.inbox = [] ∧ (∀ e ∈ s.timers, s.clock < e.due ∨ endOfCk e.ev = true) ∧ pickIssue s = some s.me.sid ∧ mayIssue s s.me = true ∧ s.issue = none ∧ s.me.mark = none ∧ s.me.cdone = false ∧ s.me.loop.active = false ∧
  fetchBundle s = .bytes (bundleBytes (encodeBundle n w x))

/-- Every memory is in its canonical form, and so is the table of the lines' keys. -/
def MemoriesOk (s : State) : Prop :=
  s.hbm.wf = true ∧ s.near.wf = true ∧ s.staging.wf = true ∧ s.hostMem.wf = true ∧ s.lineKey.Pairwise fun a b => a.1 < b.1

/-- In a register file, s0 reads as zero and p0 as all ones, and both are FULL (R11). -/
def ConstantsRead (r : RegFile) : Prop := r.get (.s 0) = ⟨0, .full, 0⟩ ∧ r.get (.p 0) = ⟨(BitVec.allOnes 128).setWidth 1024, .full, 0⟩

/-- So they do in every strand, and in what the bundle at issue reads. -/
def ConstantsOk (s : State) : Prop :=
  (∀ t, t = s.me ∨ t ∈ s.pool → ConstantsRead t.regs) ∧ ∀ x, s.issue = some x → ConstantsRead x.regs

end Sys2Proof.Claims

/-- R42, R434 and the step of this model (log 7): an event from outside, else the first event due, is executed; else the strand whose turn it is issues its bundle, every slot of it; a bundle that holds one instruction is that instruction; else the first event that belongs to the end of its ck (R105, R107, R295); else one ck passes. -/
def Obligations.StepRunsWhatIsNext : Prop := ∀ (s : State),
  (∀ i is, s.inbox = i :: is → step s = exec i { s with inbox := is }) ∧
  (∀ pre e ts, s.inbox = [] → s.timers = pre ++ e :: ts → (∀ x ∈ pre, s.clock < x.due ∨ endOfCk x.ev = true) → e.due ≤ s.clock → endOfCk e.ev = false → step s = exec e.ev { s with timers := pre ++ ts }) ∧
  (∀ sid, s.inbox = [] → (∀ e ∈ s.timers, s.clock < e.due ∨ endOfCk e.ev = true) → pickIssue s = some sid → step s = exec (.bundleIssue sid) s) ∧
  (∀ pre e ts, s.inbox = [] → pickIssue s = none → s.timers = pre ++ e :: ts → (∀ x ∈ ts, s.clock < x.due ∨ endOfCk x.ev = true) → (∀ x ∈ pre, s.clock < x.due) → e.due ≤ s.clock → endOfCk e.ev = true →
    step s = exec e.ev { s with timers := pre ++ ts }) ∧
  (∀ i n w x, OneAtNext s n w x → encode i = some (n, w, x) → wellFormed i = true → i ≠ .nop → step s = exec i s) ∧
  (s.inbox = [] → (∀ e ∈ s.timers, s.clock < e.due) → pickIssue s = none → ∃ t, step s = .next t ∧ t.clock = s.clock + 1 ∧ (s.devOut = [] → t.me.regs = s.me.regs ∧ t.hbm = s.hbm ∧ t.near = s.near ∧ t.me.pc = s.me.pc)) ∧
  (∀ i n w x bs, OneAtNext s n w x → encode i = some (n, w, x) → wellFormed i = true → i ≠ .nop → bs = bundleBytes (encodeBundle n w x) → illegalMask (bundleOf bs) = 0 ∧ exec (.bundleIssue s.me.sid) s = exec i s)

/-- R36, R38 to R54: words that the spec itself writes out decode to the instructions it names. -/
def Obligations.WordsOfTheSpec : Prop :=
  decodeSlot 0 none 0x012FFFFD = .ok (.br 2 (-3)) ∧
  decodeSlot 1 none 0x04031000 = .ok (.add 0 3 4 (.reg 0) .w64) ∧
  decodeSlot 1 none 0x64030009 = .ok (.movi 0 3 (.imm16 9)) ∧
  decodeSlot 1 none 0x50113C05 = .ok (.sel 0 17 15 (.reg 0) 5) ∧
  decodeSlot 2 none 0x08CD0050 = .ok (.sub 3 13 0 (.reg 5) .w64) ∧
  decodeSlot 3 none 0x04445308 = .ok (.vadd 1 2 5 6 .i16 false) ∧
  decodeSlot 4 none 0x20009144 = .ok (.aread 0 9 5 4) ∧
  decodeSlot 5 none 0x28040809 = .ok (.ldnt 0 4 2 2 .b2) ∧
  decodeSlot 6 none 0x04092823 = .ok (.ldf 0 9 10 8 .b8) ∧
  decodeSlot 6 none 0x14203284 = .ok (.atmf 0 .w64 .add 3 10 4) ∧
  decodeSlot 7 none 0x0804734C = .ok (.copy 0 1 7 13 12)

/-- R36, R38 to R54: every well-formed instruction of a slot, with every operand the encoding admits, is read back from the bundle that encodes it, from its words and from its bytes; and every word that a slot accepts is the encoding of what it decodes to, so no word has two readings and no reserved bit is dropped. -/
def Obligations.EncodeDecode : Prop :=
  (∀ i n w x, wellFormed i = true → encode i = some (n, w, x) → n < 8 ∧ decodeSlot n x w = .ok i ∧ (∀ k, k < 8 → (decodeBundle (encodeBundle n w x))[k]? = some (.ok (if k = n then i else .nop))) ∧
    bundleWords (bundleBytes (encodeBundle n w x)) = encodeBundle n w x) ∧
  (∀ n (w : Half) i, n < 8 → decodeSlot n none w = .ok i → i ≠ .nop → wellFormed i = true ∧ encode i = some (if n = 2 then 1 else n, w, none)) ∧
  (∀ (w x : Half) i, decodeSlot 1 (some x) w = .ok i → i ≠ .nop → wellFormed i = true ∧ ∃ l, encode i = some (1, w, l) ∧ (l = none ∨ l = some x)) ∧
  (∀ n (w : Half), n < 8 → (decodeSlot n none w = .ok .nop ↔ w = 0))

/-- R302, R307, R313, R419: memory is one byte per address: a write puts its bytes there, touches no other byte and keeps the canonical form. What HBM holds under a key is read back under that key (R429). -/
def Obligations.MemoryReadsAndWrites : Prop := ∀ (s : State) (m : Memory) (a key : Nat) (bs : List Byte), m.wf = true → s.hbm.wf = true →
  (m.write a bs).wf = true ∧ (∀ k (h : k < bs.length), (m.write a bs).read (a + k) = bs[k]) ∧ (∀ b, ¬ (a ≤ b ∧ b < a + bs.length) → (m.write a bs).read b = m.read b) ∧
  (∀ n, m.bytes a n = (List.range n).map fun k => m.read (a + k)) ∧
  hbmRead (hbmWrite s key a bs) key a bs.length = bs ∧ (∀ b n, b + n ≤ a ∨ a + bs.length ≤ b → hbmRead (hbmWrite s key a bs) key b n = hbmRead s key b n)

/-- Every step that is neither a fault nor a refusal keeps every memory of the package, and the table of the lines' keys, in canonical form. -/
def Obligations.StepsKeepMemoriesCanonical : Prop := ∀ (s t : State), MemoriesOk s → step s = .next t → MemoriesOk t

/-- R11, R12: every step that is neither a fault nor a refusal leaves s0 zero and p0 all ones, both FULL, in every strand. -/
def Obligations.StepsKeepConstantRegisters : Prop := ∀ (s t : State), ConstantsOk s → step s = .next t → ConstantsOk t

/-- R26, R160, R303, R392, R419: the package right after reset: CLOCK is 0, no device number is set, STAGE is 0, every cell holds zero, near memory reads zero; no strand, gang, job or command exists. The memories are in canonical form; s0 and p0 read as they must. -/
def Obligations.ResetState : Prop :=
  State.reset.clock = 0 ∧ State.reset.numset = false ∧ State.reset.bar0.stage = 0 ∧ State.reset.ready = 0 ∧ (∀ c, (getCore State.reset c).array = Array.reset) ∧ (∀ a job, nearBytes State.reset job a 1 = [0]) ∧
  State.reset.gangs = [] ∧ State.reset.jobs = [] ∧ State.reset.pool = [] ∧ State.reset.me.loc = none ∧ State.reset.hostCmds = [] ∧ State.reset.timers = [] ∧ MemoriesOk State.reset ∧ ConstantsOk State.reset

end
end

