-- ==== Sys2Proof/Laws/Lists.lean ====
section
/-! SUPPORT. The list helpers of the model: keyed replacement, first-match update, free serials (R20). -/

namespace Sys2Proof.Machine

theorem find_putKey_same {α : Type} (key : α → Nat) (x : α) (l : List α) : (putKey key x l).find? (fun y => key y == key x) = some x := by
  induction l with
  | nil => simp [putKey]
  | cons y ys ih => by_cases h : key y = key x <;> simp [putKey, h, ih]

theorem find_putKey_other {α : Type} (key : α → Nat) (x : α) (l : List α) {k : Nat} (hk : k ≠ key x) :
    (putKey key x l).find? (fun y => key y == k) = l.find? (fun y => key y == k) := by
  induction l with
  | nil => simp [putKey, hk.symm]
  | cons y ys ih =>
    by_cases h : key y = key x
    · simp [putKey, h, hk.symm]
    · simp [putKey, h, List.find?_cons, ih]

theorem getCore_putCore_same (s : State) (c : Core) : getCore (putCore s c) c.id = c := by
  simp [getCore, putCore, find_putKey_same]

theorem getCore_putCore_other (s : State) (c : Core) {k : Nat} (h : k ≠ c.id) : getCore (putCore s c) k = getCore s k := by
  simp [getCore, putCore, find_putKey_other Core.id c s.cores h]

theorem getCore_id (s : State) (k : Nat) : (getCore s k).id = k := by
  unfold getCore
  cases h : s.cores.find? fun x => x.id == k with
  | none => simp [Core.reset]
  | some c => simpa using List.find?_some h

theorem getCore_updCore_same (s : State) (k : Nat) (f : Core → Core) (hf : (f (getCore s k)).id = k) : getCore (updCore s k f) k = f (getCore s k) := by
  have h := getCore_putCore_same s (f (getCore s k))
  rw [hf] at h; exact h

theorem getCore_updCore_other (s : State) {k j : Nat} (f : Core → Core) (hf : (f (getCore s k)).id = k) (h : j ≠ k) : getCore (updCore s k f) j = getCore s j :=
  getCore_putCore_other s _ (by rw [hf]; exact h)

/-- The lowest serial at or above `k` that is not held, while the search is long enough to meet one. -/
theorem freeSerial_or (held : List (Nat × Bool)) : ∀ f k,
    (freeSerial held f k ∉ held.map (·.1) ∧ k ≤ freeSerial held f k ∧ freeSerial held f k < k + f) ∨
    (freeSerial held f k = k + f ∧ ∀ j, k ≤ j → j < k + f → j ∈ held.map (·.1)) := by
  intro f
  induction f with
  | zero => intro k; right; exact ⟨rfl, fun j h1 h2 => by omega⟩
  | succ f ih =>
    intro k
    simp only [freeSerial]
    split
    · rename_i hk
      have hk' : k ∈ held.map (·.1) := by
        obtain ⟨p, hp, e⟩ := List.any_eq_true.mp hk
        exact List.mem_map.mpr ⟨p, hp, by simpa using e⟩
      rcases ih (k + 1) with ⟨h1, h2, h3⟩ | ⟨h1, h2⟩
      · exact .inl ⟨h1, by omega, by omega⟩
      · refine .inr ⟨by omega, fun j a b => ?_⟩
        by_cases hj : j = k
        · subst hj; exact hk'
        · exact h2 j (by omega) (by omega)
    · rename_i hk
      refine .inl ⟨fun hm => hk ?_, by omega, by omega⟩
      obtain ⟨p, hp, e⟩ := List.mem_map.mp hm
      exact List.any_eq_true.mpr ⟨p, hp, by simpa using e⟩

/-- A strand that holds fewer than 1,024 serials gets one that it does not hold (R20). -/
theorem freeSerial_free (held : List (Nat × Bool)) (h : held.length < 1024) : freeSerial held 1024 0 ∉ held.map (·.1) ∧ freeSerial held 1024 0 < 1024 := by
  rcases freeSerial_or held 1024 0 with ⟨h1, -, h3⟩ | ⟨-, h2⟩
  · exact ⟨h1, by omega⟩
  · exfalso
    have hsub : List.range 1024 ⊆ held.map (·.1) := fun j hj => h2 j (by omega) (by simpa using hj)
    have := (List.nodup_range (n := 1024)).length_le_of_subset hsub
    simp at this; omega

/-- A tag names its serial and its window (R19). -/
theorem tagOf_serial (k : Nat) (w : BitVec 32) (h : k < 1024) : (tagOf k w).toNat % 1024 = k ∧ (tagOf k w).toNat / 1024 = w.toNat % 64 := by
  unfold tagOf
  simp only [BitVec.toNat_ofNat]
  constructor <;> omega

end Sys2Proof.Machine
end

