-- ==== Sys2Proof/Laws/Regs.lean ====
section
/-! SUPPORT. Reading a register file after writing it: the one place that knows s0 and p0 (R12) and the widths of the files (R11). -/

namespace Sys2Proof.Machine

theorem RegFile.put_fixed (r : RegFile) {x : RegId} (y : RegVal) (h : regFixed x = true) : r.put x y = r := by
  simp [RegFile.put, h]

theorem RegFile.get_put_same (r : RegFile) {x : RegId} (y : RegVal) (h : regFixed x = false) : (r.put x y).get x = ⟨fitReg x y.val, y.st, y.tag⟩ := by
  cases x <;> simp [RegFile.put, RegFile.get, h, fitReg]

theorem RegFile.get_put_other (r : RegFile) {x z : RegId} (y : RegVal) (h : z ≠ x) : (r.put x y).get z = r.get z := by
  cases hx : regFixed x with
  | true => rw [RegFile.put_fixed r y hx]
  | false =>
    cases x <;> cases z <;> simp [RegFile.put, RegFile.get, hx]
    all_goals
      rename_i a b
      have hn : a.toNat ≠ b.toNat := by
        intro e; apply h; rw [BitVec.eq_of_toNat_eq e]
      simp [hn]

theorem RegFile.get_put_pending (r : RegFile) {x : RegId} (t : Tag) (h : regFixed x = false) : (r.put x ⟨0, .pending, t⟩).get x = ⟨0, .pending, t⟩ := by
  rw [RegFile.get_put_same r _ h]; cases x <;> simp [fitReg]

end Sys2Proof.Machine
end

