-- ==== Sys2Proof/Laws/Issue.lean ====
section
/-! SUPPORT. What the issue of a bundle of one slot does: the state its slot sees, and the closed form of the whole issue (R23, R42, R94). -/

namespace Sys2Proof.Machine

/-- The state that slot `n` of a bundle sees when it is the first to act. -/
def inSlot (s : State) (n : Nat) : State := { openIssue s with issue := some ⟨s.me.regs, s.me.h, s.me.loop, n⟩ }

/-- One operation alone is in turn. -/
@[simp] theorem inTurn_single (o : SlotOp) : inTurn [o] = [o] := by
  cases h : actsLast o.instr <;> simp [inTurn, h]

theorem slotOp_issue (s : State) (n : Nat) (i : Instr) (eff : State → State) (h : s.issue = none) (hs : stopOf s [(n, i)] = none) :
    slotOp n i eff s = .next (closeIssue (if suppressedBy (inSlot s n) i then inSlot s n else eff (inSlot s n))) := by
  simp only [slotOp, h, issueOps, inTurn_single, List.map_cons, List.map_nil, hs, Option.isSome_none, Bool.false_eq_true, if_false, List.foldl_cons, List.foldl_nil, runSlot]
  rfl

@[simp] theorem inSlot_view (s : State) (n : Nat) : view (inSlot s n) = s.me.regs := rfl
@[simp] theorem inSlot_slotNo (s : State) (n : Nat) : slotNo (inSlot s n) = n := rfl
@[simp] theorem inSlot_viewLoop (s : State) (n : Nat) : viewLoop (inSlot s n) = s.me.loop := rfl
@[simp] theorem inSlot_rdH (s : State) (n : Nat) (x : BitVec 4) : rdH (inSlot s n) x = s.me.h[x.toNat]'(by omega) := rfl
@[simp] theorem inSlot_clock (s : State) (n : Nat) : (inSlot s n).clock = s.clock := rfl
@[simp] theorem inSlot_timers (s : State) (n : Nat) : (inSlot s n).timers = s.timers := rfl

theorem rotReg_idle (l : LoopSt) (r : RegId) (h : l.active = false) : rotReg l r = r := by simp [rotReg, h]

theorem look_inSlot (s : State) (n : Nat) (r : RegId) (h : s.me.loop.active = false) : look (inSlot s n) r = s.me.regs.get r := by
  simp [look, rot, rotReg_idle _ _ h]

theorem rdS_inSlot (s : State) (n : Nat) (i : BitVec 6) (h : s.me.loop.active = false) : rdS (inSlot s n) i = sVal s i := by
  simp [rdS, look_inSlot _ _ _ h]

theorem rdV_inSlot (s : State) (n : Nat) (i : BitVec 5) (h : s.me.loop.active = false) : rdV (inSlot s n) i = vVal s i := by
  simp [rdV, look_inSlot _ _ _ h]

theorem rdP_inSlot (s : State) (n : Nat) (i : BitVec 4) (h : s.me.loop.active = false) : rdP (inSlot s n) i = pVal s i := by
  simp [rdP, look_inSlot _ _ _ h]

theorem rdSrc2_inSlot (s : State) (n : Nat) (b : Src2) (h : s.me.loop.active = false) : rdSrc2 (inSlot s n) b = src2Val s b := by
  cases b <;> simp [rdSrc2, rdS_inSlot _ _ _ h]

theorem rot_inSlot (s : State) (n : Nat) (r : RegId) (h : s.me.loop.active = false) : rot (inSlot s n) r = r := by
  simp [rot, rotReg_idle _ _ h]

/-- Before the bundle opens the same registers are seen, when no bundle is open. -/
theorem look_closed (s : State) (r : RegId) (hi : s.issue = none) (h : s.me.loop.active = false) : look s r = s.me.regs.get r := by
  simp [look, rot, view, viewLoop, hi, rotReg_idle _ _ h]

theorem suppressed_off (s : State) (n : Nat) (i : Instr) (h : s.me.loop.active = false)
    (hg : wholeGuard i = true → (s.me.regs.get (.p (guardOf i))).val.toNat.testBit 0 = true) : suppressedBy (inSlot s n) i = false := by
  unfold suppressedBy
  cases hw : wholeGuard i with
  | false => rfl
  | true =>
    have := hg hw
    simp only [rdP_inSlot _ _ _ h, pVal, BitVec.toNat_setWidth, Nat.testBit_mod_two_pow, this]
    decide

/-- A bundle whose effect leaves no loop, commit point or trap closes at the next bundle. -/
theorem closeIssue_plain (s : State) (b : Issue) (hi : s.issue = some b) (hl : b.loop.active = false) (hc : s.me.closing = none) (ht : s.me.heldTrap = none) :
    closeIssue s = { s with issue := none, me := { s.me with choice := none, waitset := none, pc := s.me.npc } } := by
  simp [closeIssue, hi, loopStep, hl, hc, ht, setMe]

/-- Storing a core that agrees with the one stored leaves array, copies and counts of every core. -/
theorem putCore_kept (s : State) (k : Core) (h : k.array = (getCore s k.id).array ∧ k.copies = (getCore s k.id).copies ∧ k.xstat = (getCore s k.id).xstat) (c : Nat) :
    (getCore (putCore s k) c).array = (getCore s c).array ∧ (getCore (putCore s k) c).copies = (getCore s c).copies ∧ (getCore (putCore s k) c).xstat = (getCore s c).xstat := by
  by_cases e : c = k.id
  · subst e; rw [getCore_putCore_same]; exact h
  · rw [getCore_putCore_other _ _ e]; exact ⟨rfl, rfl, rfl⟩

/-- The opening of a bundle stores a core in which only the issue bookkeeping changes (R260). -/
theorem openIssue_cores (s : State) :
    ∃ k, (k.array = (getCore s k.id).array ∧ k.copies = (getCore s k.id).copies ∧ k.xstat = (getCore s k.id).xstat) ∧ (openIssue s).cores = (putCore s k).cores := by
  refine ⟨{ getCore s (myCore s) with
      lastIssue := s.clock + 1, lastCtx := s.me.loc.map (·.2)
      streak := if (getCore s (myCore s)).lastCtx == s.me.loc.map (·.2) && (getCore s (myCore s)).lastCtx.isSome && decide ((getCore s (myCore s)).streak < 64) then (getCore s (myCore s)).streak + 1 else 1 }, ?_, rfl⟩
  simp [getCore_id]

theorem openIssue_core (s : State) (c : Nat) :
    (getCore (openIssue s) c).array = (getCore s c).array ∧ (getCore (openIssue s) c).copies = (getCore s c).copies ∧ (getCore (openIssue s) c).xstat = (getCore s c).xstat := by
  obtain ⟨k, hk, e⟩ := openIssue_cores s
  have e' : getCore (openIssue s) c = getCore (putCore s k) c := by simp [getCore, e]
  rw [e']; exact putCore_kept s k hk c

/-- What the opening of a bundle changes of the strand. -/
theorem openIssue_me (s : State) : ∃ p r, (openIssue s).me = { s.me with perf := p, readyAt := r, st := .running, parkid := none, triedAt := s.clock + 1, npc := s.me.pc + 32, asleep := false, waitSerial := false, bankWait := none } := by
  unfold openIssue countEv
  simp only
  split_ifs <;> exact ⟨_, _, rfl⟩

/-- Everything that the opening of a bundle of one slot changes. -/
theorem inSlot_shape (s : State) (n : Nat) : ∃ p r cs,
    inSlot s n = { s with
      me := { s.me with perf := p, readyAt := r, st := .running, parkid := none, triedAt := s.clock + 1, npc := s.me.pc + 32, asleep := false, waitSerial := false, bankWait := none }
      cores := cs, issue := some ⟨s.me.regs, s.me.h, s.me.loop, n⟩ } ∧
    ∀ t : State, t.cores = cs → ∀ c, (getCore t c).array = (getCore s c).array ∧ (getCore t c).copies = (getCore s c).copies ∧ (getCore t c).xstat = (getCore s c).xstat := by
  obtain ⟨p, r, h⟩ := openIssue_me s
  refine ⟨p, r, (openIssue s).cores, ?_, ?_⟩
  · unfold inSlot; rw [← h]; rfl
  · intro t ht c
    have e : getCore t c = getCore (openIssue s) c := by simp [getCore, ht]
    rw [e]; exact openIssue_core s c

end Sys2Proof.Machine
end

