-- ==== Sys2Proof/Laws/Results.lean ====
section
/-! SUPPORT. Obligations and results of fixed latency (R20, R31, R90): what writing a register, obligating one, and a bundle that does only that leave. -/

namespace Sys2Proof.Machine

/-- Logging a register's first write changes the log alone (R31). -/
theorem logFirst_eq (t : Strand) (r : RegId) : logFirst t r = { t with log := (logFirst t r).log } := by
  unfold logFirst; split <;> rfl

/-- Withdrawing a SEMA changes semaphores and serials alone, and nothing where none waits (R105). -/
theorem withdrawSema_eq (t : Strand) (r : RegId) : withdrawSema t r = { t with q := (withdrawSema t r).q, serials := (withdrawSema t r).serials } := by
  unfold withdrawSema; simp only; split <;> rfl

theorem withdrawSema_quiet (t : Strand) (r : RegId) (h : (t.q.toList.all fun q => !q.out) = true) : withdrawSema t r = t := by
  unfold withdrawSema
  simp only
  split
  · rename_i hc
    simp only [Bool.and_eq_true, List.any_eq_true] at hc
    obtain ⟨q, hq, ho⟩ := hc.2
    have := List.all_eq_true.mp h q hq
    simp_all
  · rfl

/-- Writing a register changes registers, log, semaphores and serials alone (R31). -/
theorem writeReg_eq (t : Strand) (r : RegId) (y : RegVal) :
    writeReg t r y = { t with regs := t.regs.put r y, log := (writeReg t r y).log, q := (writeReg t r y).q, serials := (writeReg t r y).serials } := by
  unfold writeReg
  split
  · rename_i h; rw [RegFile.put_fixed _ _ h]
  · simp only
    rw [withdrawSema_eq, logFirst_eq]

theorem writeReg_quiet (t : Strand) (r : RegId) (y : RegVal) (h : (t.q.toList.all fun q => !q.out) = true) :
    (writeReg t r y).q = t.q ∧ (writeReg t r y).serials = t.serials := by
  unfold writeReg
  split
  · exact ⟨rfl, rfl⟩
  · have hq : ((logFirst t r).q.toList.all fun q => !q.out) = true := by rw [logFirst_eq]; exact h
    simp only [withdrawSema_quiet _ _ hq]
    rw [logFirst_eq]; exact ⟨rfl, rfl⟩

theorem logFirst_ex (t : Strand) (r : RegId) : ∃ lg, logFirst t r = { t with log := lg } := ⟨_, logFirst_eq t r⟩

/-- Everything that writing a register does: registers, log, and semaphores and serials where a SEMA waited (R31, R105). -/
theorem writeReg_ex (t : Strand) (r : RegId) (y : RegVal) : ∃ lg qq sr, writeReg t r y = { t with regs := t.regs.put r y, log := lg, q := qq, serials := sr } ∧
    ((t.q.toList.all fun q => !q.out) = true → qq = t.q ∧ sr = t.serials) :=
  ⟨_, _, _, writeReg_eq t r y, fun h => writeReg_quiet t r y h⟩

/-- Everything that obligating a register does (R20): s0 and p0 take no obligation; another register is PENDING under a fresh tag. -/
theorem obligateT_eq (t : Strand) (r : RegId) (aw : Bool) :
    (obligateT t r aw).1 = { t with
      regs := t.regs.put r ⟨0, .pending, tagOf (freeSerial t.serials 1024 0) t.window⟩, log := (obligateT t r aw).1.log, q := (obligateT t r aw).1.q, serials := (obligateT t r aw).1.serials } ∧
    ((t.q.toList.all fun q => !q.out) = true → (obligateT t r aw).1.q = t.q) ∧
    (obligateT t r aw).2 = (if regFixed r then none else some (tagOf (freeSerial t.serials 1024 0) t.window)) ∧
    (regFixed r = false → (freeSerial t.serials 1024 0, aw) ∈ (obligateT t r aw).1.serials) := by
  unfold obligateT
  split
  · rename_i h; rw [RegFile.put_fixed _ _ h]; simp [h]
  · rename_i h
    have h' : regFixed r = false := by simpa using h
    refine ⟨?_, ?_, by simp, by simp⟩
    · simp only; rw [writeReg_eq]
    · intro hq; exact (writeReg_quiet t r _ hq).1

/-- A register obligated in a strand with room for serials is owed under a fresh tag. -/
theorem obligateT_owed (t : Strand) (r : RegId) (aw : Bool) (hl : t.serials.length ≤ 1000) (hr : regFixed r = false) :
    (obligateT t r aw).1.regs.get r = ⟨0, .pending, tagOf (freeSerial t.serials 1024 0) t.window⟩ ∧
    (tagOf (freeSerial t.serials 1024 0) t.window).toNat % 1024 ∉ t.serials.map (·.1) ∧
    (tagOf (freeSerial t.serials 1024 0) t.window).toNat % 1024 ∈ (obligateT t r aw).1.serials.map (·.1) ∧
    (tagOf (freeSerial t.serials 1024 0) t.window).toNat / 1024 = t.window.toNat % 64 := by
  obtain ⟨h1, -, -, h4⟩ := obligateT_eq t r aw
  obtain ⟨f1, f2⟩ := freeSerial_free t.serials (by omega)
  obtain ⟨g1, g2⟩ := tagOf_serial (freeSerial t.serials 1024 0) t.window f2
  refine ⟨?_, by rw [g1]; exact f1, ?_, g2⟩
  · rw [h1]; exact RegFile.get_put_pending _ _ hr
  · rw [g1]; exact List.mem_map.mpr ⟨_, h4 hr, rfl⟩

/-- Obligating in the first slot of a bundle, with everything it changes (R20, R31). -/
theorem obligate_inSlot (s : State) (n : Nat) (r : RegId) (aw : Bool) (hl : s.me.loop.active = false) (hs : s.me.serials.length ≤ 1000) : ∃ p rd cs rg lg qq sr g,
    obligate (inSlot s n) r aw = ({ s with
      me := { s.me with perf := p, readyAt := rd, st := .running, parkid := none, triedAt := s.clock + 1, npc := s.me.pc + 32, asleep := false, waitSerial := false, bankWait := none, regs := rg, log := lg, q := qq, serials := sr }
      cores := cs, issue := some ⟨s.me.regs, s.me.h, s.me.loop, n⟩ }, g) ∧
    (∀ t : State, t.cores = cs → ∀ c, (getCore t c).array = (getCore s c).array ∧ (getCore t c).copies = (getCore s c).copies ∧ (getCore t c).xstat = (getCore s c).xstat) ∧
    ((s.me.q.toList.all fun q => !q.out) = true → qq = s.me.q) ∧ (∀ z, z ≠ r → rg.get z = s.me.regs.get z) ∧
    (regFixed r = true → g = none ∧ rg = s.me.regs) ∧
    (regFixed r = false → ∃ t, g = some t ∧ rg.get r = ⟨0, .pending, t⟩ ∧ t.toNat % 1024 ∉ s.me.serials.map (·.1) ∧ t.toNat % 1024 ∈ sr.map (·.1) ∧ t.toNat / 1024 = s.me.window.toNat % 64) := by
  obtain ⟨p, rd, cs, e, hcs⟩ := inSlot_shape s n
  have hrot : rot (inSlot s n) r = r := rot_inSlot s n r hl
  obtain ⟨o1, o2, o3, -⟩ := obligateT_eq (inSlot s n).me r aw
  have o4 := obligateT_owed (inSlot s n).me r aw (by rw [e]; exact hs)
  have hser : (inSlot s n).me.serials = s.me.serials := by rw [e]
  have hwin : (inSlot s n).me.window = s.me.window := by rw [e]
  have hreg : (inSlot s n).me.regs = s.me.regs := by rw [e]
  have hq : (inSlot s n).me.q = s.me.q := by rw [e]
  rw [hser, hwin, hreg] at o1
  rw [hq] at o2
  rw [hser, hwin] at o3 o4
  refine ⟨p, rd, cs, s.me.regs.put r ⟨0, .pending, tagOf (freeSerial s.me.serials 1024 0) s.me.window⟩, (obligateT (inSlot s n).me r aw).1.log,
    (obligateT (inSlot s n).me r aw).1.q, (obligateT (inSlot s n).me r aw).1.serials,
    if regFixed r then none else some (tagOf (freeSerial s.me.serials 1024 0) s.me.window), ?_, hcs, o2, ?_, ?_, ?_⟩
  · unfold obligate
    rw [hrot]
    simp only [o3]
    rw [o1, e]
  · intro z hz; exact RegFile.get_put_other _ _ hz
  · intro h; simp [h, RegFile.put_fixed]
  · intro h
    obtain ⟨h1, h2, h3, h4⟩ := o4 h
    refine ⟨_, by rw [h]; rfl, ?_, h2, h3, h4⟩
    rw [o1] at h1; exact h1

/-- A bundle of one result: the register is PENDING, its delivery is due, everything else is as it was. -/
theorem produce_closed (s : State) (n : Nat) (r : RegId) (lat : Nat) (x : Payload) (hc : Calm s) :
    DeliversIn s (closeIssue (produce (inSlot s n) r lat x)) r lat x ∧ RegFrame s (closeIssue (produce (inSlot s n) r lat x)) [r] := by
  obtain ⟨hi, hl, hcl, ht, -, -, hs, -, -⟩ := hc
  obtain ⟨p, rd, cs, rg, lg, qq, sr, g, e, hcs, hq, hz, hf, hn⟩ := obligate_inSlot s n r false hl hs
  have hsid : (inSlot s n).me.sid = s.me.sid := by obtain ⟨_, _, _, e', _⟩ := inSlot_shape s n; rw [e']
  unfold produce
  simp only [e, hsid]
  have key : closeIssue (deliverIn { s with
      me := { s.me with perf := p, readyAt := rd, st := .running, parkid := none, triedAt := s.clock + 1, npc := s.me.pc + 32, asleep := false, waitSerial := false, bankWait := none, regs := rg, log := lg, q := qq, serials := sr }
      cores := cs, issue := some ⟨s.me.regs, s.me.h, s.me.loop, n⟩ } lat s.me.sid g x) = { s with
      me := { s.me with perf := p, readyAt := rd, st := .running, parkid := none, triedAt := s.clock + 1, npc := s.me.pc + 32, pc := s.me.pc + 32, asleep := false, waitSerial := false, bankWait := none, regs := rg, log := lg, q := qq, serials := sr, choice := none, waitset := none }
      cores := cs, issue := none, timers := g.elim s.timers fun t => s.timers ++ [⟨s.clock + lat, .delivery s.me.sid t x⟩] } := by
    cases g <;> (refine (closeIssue_plain _ ⟨s.me.regs, s.me.h, s.me.loop, n⟩ ?_ ?_ ?_ ?_).trans ?_ <;> first | exact hl | exact hcl | exact ht | rfl)
  rw [key]
  refine ⟨?_, ?_, ⟨rfl, hq⟩, ⟨by rw [hi], hcs _ rfl, fun _ => rfl, fun _ => rfl⟩, rfl, rfl⟩
  · unfold DeliversIn
    split
    · rename_i h; simp [(hf h).1]
    · rename_i h
      obtain ⟨t, rfl, h1, h2, h3, h4⟩ := hn (by simpa using h)
      exact ⟨t, ⟨h1, h2, h3, h4⟩, rfl⟩
  · intro z hz'; exact hz z (by simpa using hz')

end Sys2Proof.Machine
end

