-- ==== Sys2Proof/Laws/Obligate.lean ====
section
/-! SUPPORT. Obligating several registers in one bundle (R20): the state that an obligation leaves, and that its serial is a new one. -/

namespace Sys2Proof.Machine

theorem dropFirst_length {α : Type} (p : α → Bool) (l : List α) : (dropFirst p l).length ≤ l.length := by
  induction l with
  | nil => simp [dropFirst]
  | cons x xs ih => unfold dropFirst; split
                    · simp
                    · simp; omega

theorem writeReg_serials (t : Strand) (r : RegId) (y : RegVal) : (writeReg t r y).serials.length ≤ t.serials.length := by
  unfold writeReg
  split
  · exact le_refl _
  · simp only
    have h : (logFirst t r).serials = t.serials := by rw [logFirst_eq]
    unfold withdrawSema
    simp only
    split
    · simp only; rw [h]; exact dropFirst_length _ _
    · rw [h]

theorem obligateT_length (t : Strand) (r : RegId) (aw : Bool) : (obligateT t r aw).1.serials.length ≤ t.serials.length + 1 := by
  unfold obligateT
  split
  · simp
  · have := writeReg_serials t r ⟨0, .pending, tagOf (freeSerial t.serials 1024 0) t.window⟩
    simp

/-- Obligating in the middle of a bundle a register that its fields name plainly (R20): PENDING under the lowest free serial, which is then held. -/
theorem obligate_open (s : State) (r : RegId) (aw : Bool) (hr : rot s r = r) (hf : regFixed r = false) : ∃ lg qq sr,
    obligate s r aw = ({ s with me := { s.me with
      regs := s.me.regs.put r ⟨0, .pending, tagOf (freeSerial s.me.serials 1024 0) s.me.window⟩, log := lg, q := qq, serials := sr } },
      some (tagOf (freeSerial s.me.serials 1024 0) s.me.window)) ∧
    (freeSerial s.me.serials 1024 0, aw) ∈ sr ∧ sr.length ≤ s.me.serials.length + 1 ∧ ((s.me.q.toList.all fun q => !q.out) = true → qq = s.me.q) := by
  obtain ⟨h1, h2, h3, h4⟩ := obligateT_eq s.me r aw
  refine ⟨(obligateT s.me r aw).1.log, (obligateT s.me r aw).1.q, (obligateT s.me r aw).1.serials, ?_, h4 hf, obligateT_length s.me r aw, h2⟩
  unfold obligate
  simp only [hr]
  simp only [h3, hf, ← h1, Bool.false_eq_true, if_false]

/-- s0 and p0 take no obligation (R12). -/
theorem obligate_fixed (s : State) (r : RegId) (aw : Bool) (hr : rot s r = r) (hf : regFixed r = true) : obligate s r aw = (s, none) := by
  unfold obligate obligateT
  simp [hr, hf]

/-- Everything that obligating a register that no loop rotates does to any state (R12, R20): the registers, the log, the semaphores and the serials of the strand, and the tag. -/
theorem obligate_ex (s : State) (r : RegId) (aw : Bool) (hr : rot s r = r) (hs : s.me.serials.length ≤ 1000) : ∃ lg qq sr rg o,
    obligate s r aw = ({ s with me := { s.me with regs := rg, log := lg, q := qq, serials := sr } }, o) ∧ (∀ z, z ≠ r → rg.get z = s.me.regs.get z) ∧
    (regFixed r = true → o = none ∧ rg = s.me.regs) ∧
    (regFixed r = false → ∃ g, o = some g ∧ rg.get r = ⟨0, .pending, g⟩ ∧ g.toNat % 1024 ∉ s.me.serials.map (·.1) ∧ g.toNat % 1024 ∈ sr.map (·.1) ∧ g.toNat / 1024 = s.me.window.toNat % 64) ∧
    ((s.me.q.toList.all fun q => !q.out) = true → qq = s.me.q) := by
  cases hf : regFixed r with
  | true => exact ⟨s.me.log, s.me.q, s.me.serials, s.me.regs, none, by rw [obligate_fixed s r aw hr hf], fun _ _ => rfl, fun _ => ⟨rfl, rfl⟩, by simp, fun _ => rfl⟩
  | false =>
    obtain ⟨lg, qq, sr, o1, o2, o3, o4⟩ := obligate_open s r aw hr hf
    have f2 := freeSerial_free s.me.serials (by omega)
    obtain ⟨g1, g2⟩ := tagOf_serial (freeSerial s.me.serials 1024 0) s.me.window f2.2
    refine ⟨lg, qq, sr, _, _, o1, fun z hz => RegFile.get_put_other _ _ hz, by simp, fun _ => ⟨_, rfl, RegFile.get_put_pending _ _ hf, ?_, ?_, g2⟩, o4⟩
    · rw [g1]; exact f2.1
    · rw [g1]; exact List.mem_map.mpr ⟨_, o2, rfl⟩

end Sys2Proof.Machine
end

