-- ==== Sys2Proof/Laws/Stops.lean ====
section
/-! SUPPORT. When nothing stops a bundle of one slot (R20, R31, R56, R212, R276): the conditions that every instruction shares, said once. -/

namespace Sys2Proof.Machine

theorem destsOf_length (i : Instr) : (destsOf i).length ≤ 2 := by
  cases i <;> simp [destsOf]
  split <;> simp

theorem loggedDests_length (s : State) (i : Instr) : (loggedDests s i).length ≤ 2 := by
  unfold loggedDests
  split
  · simp
  · split
    · simp
    · exact destsOf_length _
  · exact destsOf_length i

/-- An instruction takes at most two serials (R20). -/
theorem serialsOf_le (s : State) (i : Instr) : serialsOf s i ≤ 2 := by
  have h : (writePorts i).length ≤ 2 := le_trans (List.length_filter_le _ _) (destsOf_length i)
  unfold serialsOf
  simp only
  split <;> (try split) <;> omega

/-- An instruction that wants no bank does not wait for one (R206). -/
theorem bankStop_none (s : State) (n : Nat) (i : Instr) (h : ∀ g, banksWanted s g i = []) : bankStop s (n, i) = none := by
  unfold bankStop
  split
  · rfl
  · simp [h, banksLost, banksClash]

theorem regSize_le (r : RegId) : regSize r ≤ 128 := by cases r <;> simp [regSize]

theorem sum_le_of_forall (l : List Nat) (n : Nat) (h : ∀ x ∈ l, x ≤ n) : l.sum ≤ n * l.length := by
  induction l with
  | nil => simp
  | cons x xs ih =>
    have h1 := h x (by simp)
    have h2 := ih fun y hy => h y (by simp [hy])
    simp only [List.sum_cons, List.length_cons, Nat.mul_add]; omega

/-- A window with room takes the log entries of one instruction (R31). -/
theorem logFull_one (s : State) (n : Nat) (i : Instr) (h : undoSize s.me ≤ 1000) : logFull s [(n, i)] = false := by
  unfold logFull
  simp only [decide_eq_false_iff_not, Nat.not_lt]
  have hlen : (newlyLogged s [(n, i)]).length ≤ 3 := by
    unfold newlyLogged
    refine le_trans (List.Sublist.length_le (List.dedup_sublist _)) (le_trans (List.length_filter_le _ _) ?_)
    simp only [List.flatMap_cons, List.flatMap_nil, List.append_nil, List.length_map, List.length_append]
    have hd := loggedDests_length s i
    have hm : (match i with
      | .mov _ d a => if (look s (.s a)).st == RegState.pending && a != d then [RegId.s a] else []
      | .movPredicate _ d a => if (look s (.p a)).st == RegState.pending && a != d then [RegId.p a] else []
      | _ => []).length ≤ 1 := by
      split <;> (try split) <;> simp
    exact Nat.add_le_add hd hm
  have hsum := sum_le_of_forall ((newlyLogged s [(n, i)]).map fun r => 8 + regSize r) 136 (by
    intro x hx
    obtain ⟨r, -, rfl⟩ := List.mem_map.mp hx
    have := regSize_le r; omega)
  simp only [List.length_map] at hsum
  have : (136 * (newlyLogged s [(n, i)]).length) ≤ 408 := by omega
  split <;> omega

/-- The first turns of a bundle of one enabled slot whose examined operands are FULL: none stops it but the instruction's own checks. -/
theorem turn_sources (s : State) (n : Nat) (i : Instr) (hc : Calm s) (hg0 : GuardOn s i) (hsrc : ∀ r ∈ readsOf i ++ examinedOf i, isFull s r) (hb : beforeSources s i = none)
    (ha : afterSources s n i = none) :
    bodyTrap s [(n, i)] = none ∧ examine s n (.p (guardOf i)) = none ∧ suppressedBy s i = false ∧ slotTurn s (n, i) = none := by
  obtain ⟨hi, hl, -, -, -, -, -, -, -⟩ := hc
  obtain ⟨hg1, hg2⟩ := hg0
  have hlook : ∀ r, look s r = s.me.regs.get r := fun r => look_closed s r hi hl
  have hex : ∀ r ∈ readsOf i ++ examinedOf i, examine s n r = none := by
    intro r hr; simp only [examine, hlook, hsrc r hr]
  have hgd : examine s n (.p (guardOf i)) = none := by simp only [examine, hlook, hg1]
  have hbody : bodyTrap s [(n, i)] = none := by simp [bodyTrap, viewLoop, hi, hl]
  have hsup : suppressedBy s i = false := by
    unfold suppressedBy
    cases hw : wholeGuard i with
    | false => rfl
    | true =>
      have := hg2 hw
      simpa [rdP, hlook] using this
  have hturn : slotTurn s (n, i) = none := by
    unfold slotTurn
    have h1 : (readsOf i).findSome? (examine s n) = none := List.findSome?_eq_none_iff.mpr fun r hr => hex r (by simp [hr])
    have h2 : (examinedOf i).findSome? (examine s n) = none := List.findSome?_eq_none_iff.mpr fun r hr => hex r (by simp [hr])
    simp [hb, h1, ha, h2]
  exact ⟨hbody, hgd, hsup, hturn⟩

/-- What stops a bundle of one enabled slot whose examined operands are FULL, when its strand has room: only the instruction's own turn, its access, its wait, NEST's record, or its banks. -/
theorem stop_sources (s : State) (n : Nat) (i : Instr) (hc : Calm s) (hg0 : GuardOn s i) (hsrc : ∀ r ∈ readsOf i ++ examinedOf i, isFull s r) (hb : beforeSources s i = none)
    (ha : afterSources s n i = none) (hacc : accessTrap s (n, i) = none) (hh : slotHold s (n, i) = none) (hline : linesNeeded s i ≤ 4) (hn : nestStop s (n, i) = none)
    (hk : bankStop s (n, i) = none) : stopOf s [(n, i)] = none := by
  obtain ⟨hbody, hgd, hsup, hturn⟩ := turn_sources s n i hc hg0 hsrc hb ha
  obtain ⟨-, -, -, -, -, -, hs, hu, hg⟩ := hc
  have hlog := logFull_one s n i hu
  have hser := serialsOf_le s i
  unfold stopOf
  simp only [hbody, List.findSome?_cons, hgd, List.findSome?_nil, Option.or_none, List.filter_cons, hsup, Bool.not_false, ↓reduceIte, List.filter_nil,
    hturn, hacc, hh, hn, hk, needsImplicit, hlog, serialsNeeded, List.map_cons, List.map_nil, List.sum_cons, List.sum_nil]
  rw [if_neg (by omega)]
  simp; omega

/-- The instruction's access stops it (R370). -/
theorem stop_access (s : State) (n : Nat) (i : Instr) (x : Stop) (hc : Calm s) (hg0 : GuardOn s i) (hsrc : ∀ r ∈ readsOf i ++ examinedOf i, isFull s r) (hb : beforeSources s i = none)
    (ha : afterSources s n i = none) (hacc : accessTrap s (n, i) = some x) : stopOf s [(n, i)] = some x := by
  obtain ⟨hbody, hgd, hsup, hturn⟩ := turn_sources s n i hc hg0 hsrc hb ha
  unfold stopOf
  simp [hbody, hgd, hsup, hturn, hacc]

/-- The instruction waits at issue. -/
theorem stop_wait (s : State) (n : Nat) (i : Instr) (x : Stop) (hc : Calm s) (hg0 : GuardOn s i) (hsrc : ∀ r ∈ readsOf i ++ examinedOf i, isFull s r) (hb : beforeSources s i = none)
    (ha : afterSources s n i = none) (hacc : accessTrap s (n, i) = none) (hh : slotHold s (n, i) = some x) : stopOf s [(n, i)] = some x := by
  obtain ⟨hbody, hgd, hsup, hturn⟩ := turn_sources s n i hc hg0 hsrc hb ha
  unfold stopOf
  simp [hbody, hgd, hsup, hturn, hacc, hh]

/-- A bundle that something stops does that alone. -/
theorem slotOp_stop (s : State) (n : Nat) (i : Instr) (eff : State → State) (x : Stop) (h : s.issue = none) (hs : stopOf s [(n, i)] = some x) :
    slotOp n i eff s = .next (stopIssue s x) := by
  simp [slotOp, h, issueOps, hs]

theorem stop_ready (s : State) (n : Nat) (i : Instr) (hr : Ready s i) (hb : beforeSources s i = none) (ha : afterSources s n i = none)
    (hacc : accessTrap s (n, i) = none) (hh : slotHold s (n, i) = none) (hline : linesNeeded s i ≤ 4) (hn : nestStop s (n, i) = none)
    (hk : bankStop s (n, i) = none) : stopOf s [(n, i)] = none :=
  stop_sources s n i hr.1 hr.2.1 (fun r h => hr.2.2 r (by simp only [List.mem_append] at h ⊢; tauto)) hb ha hacc hh hline hn hk

/-- Instructions whose issue depends on their guard and operands alone: no access, no wait, no check of their own. -/
def operandsOnly : Instr → Bool
  | .lexit _ | .wait _ _ | .waitany _ _ _ _ | .looph _ _ | .sets _ _ _ | .resume _ _ | .karr _ _ _ | .kdrop _ _ | .nest _ _ | .sema _ _ _ _ => false
  | .div _ _ _ _ _ | .rem _ _ _ _ _ | .mov _ _ _ | .movPredicate _ _ _ => false
  | .acfg _ _ | .aprog _ _ _ _ _ | .astat _ _ _ _ | .aswap _ | .astream _ _ _ _ _ | .awave _ _ _ _ _ | .adrain _ _ _ _ | .aclr _ | .atrace _ _ _ _ => false
  | .ldn _ _ _ _ _ | .stn _ _ _ _ _ | .ldnv _ _ _ _ | .stnv _ _ _ _ | .ldng _ _ _ _ _ | .stns _ _ _ _ _ _ | .atmn _ _ _ _ _ _ | .ldnp _ _ _ _
  | .stnp _ _ _ _ | .ldnt _ _ _ _ _ => false
  | .stf _ _ _ _ _ | .stfv _ _ _ _ | .atmf _ _ _ _ _ _ | .redf _ _ _ _ _ | .casf _ _ _ _ _ => false
  | .shape _ _ _ | .copy _ _ _ _ _ | .copyq _ _ _ _ _ | .gath _ _ _ _ _ | .scat _ _ _ _ _ | .chan _ _ _ _ | .send _ _ _ _ | .recv _ _ _ _ | .recva _ _ _
  | .tick _ _ _ | .coll _ _ _ | .spsend _ _ _ | .sprecv _ _ _ => false
  | _ => true

theorem access_none (s : State) (n : Nat) (i : Instr) (h1 : nearSpans s i = ([], 1)) (h2 : arrayOf s i = none) (h3 : farTrap s i = none) (h4 : ∀ g, xferTrap s g i = none)
    (h5 : ∀ g k a, i ≠ .karr g k a) (h6 : ∀ g k, i ≠ .kdrop g k) (h7 : ∀ g b, i ≠ .nest g b) : accessTrap s (n, i) = none := by
  unfold accessTrap
  simp only
  split
  · rfl
  · simp [nearTrap, h1, arrayTrap, h2, h3, h4]

/-- Nothing stops an instruction that checks its guard and operands alone, once these are FULL. -/
theorem stop_operandsOnly (s : State) (n : Nat) (i : Instr) (hr : Ready s i) (h : operandsOnly i = true) : stopOf s [(n, i)] = none := by
  have hl : (viewLoop s).active = false := by rw [viewLoop, hr.1.1]; exact hr.1.2.1
  have ha : s.me.acqFence = [] := hr.1.2.2.2.2.1
  have hb : beforeSources s i = none := by
    unfold beforeSources; rw [hl]; cases i <;> first | rfl | exact Bool.noConfusion h
  have key : afterSources s n i = none ∧ nearSpans s i = ([], 1) ∧ arrayOf s i = none ∧ farTrap s i = none ∧ (∀ g, xferTrap s g i = none) ∧ linesNeeded s i = 0 ∧
      nestStop s (n, i) = none ∧ ∀ g, banksWanted s g i = [] := by
    cases i <;> first | exact Bool.noConfusion h | exact ⟨rfl, rfl, rfl, rfl, fun _ => rfl, rfl, rfl, fun _ => rfl⟩
  obtain ⟨k1, k2, k3, k4, k5, k6, k7, k8⟩ := key
  have hh : slotHold s (n, i) = none := by
    unfold slotHold
    simp only [ha, List.isEmpty_nil, Bool.not_true, Bool.and_false, Bool.false_eq_true, ↓reduceIte]
    split
    · rfl
    · split <;> first | exact Bool.noConfusion h | simp [k2, k3]
  refine stop_ready s n i hr hb k1 (access_none s n i k2 k3 k4 k5 ?_ ?_ ?_) hh (by omega) k7 (bankStop_none s n i k8) <;> (intros; rintro rfl; exact Bool.noConfusion h)

/-- An instruction of one result of fixed latency, once nothing stops its bundle. -/
theorem result_of (s : State) (n : Nat) (i : Instr) (eff : State → State) (r : RegId) (lat : Nat) (x : Payload) (hr : Ready s i)
    (hs : stopOf s [(n, i)] = none) (he : eff (inSlot s n) = produce (inSlot s n) r lat x) :
    ∃ t, slotOp n i eff s = .next t ∧ DeliversIn s t r lat x ∧ RegFrame s t [r] := by
  refine ⟨_, ?_, produce_closed s n r lat x hr.1⟩
  rw [slotOp_issue s n i eff hr.1.1 hs, suppressed_off s n i hr.1.2.1 hr.2.1.2, ← he]
  rfl

/-- The same for an instruction that checks its guard and operands alone. -/
theorem result_operandsOnly (s : State) (n : Nat) (i : Instr) (eff : State → State) (r : RegId) (lat : Nat) (x : Payload) (hr : Ready s i) (hq : operandsOnly i = true)
    (he : eff (inSlot s n) = produce (inSlot s n) r lat x) : ∃ t, slotOp n i eff s = .next t ∧ DeliversIn s t r lat x ∧ RegFrame s t [r] :=
  result_of s n i eff r lat x hr (stop_operandsOnly s n i hr hq) he

end Sys2Proof.Machine
end

