-- ==== Sys2Proof/Laws/Effects.lean ====
section
/-! SUPPORT. Bundles of one slot whose effect is more than a result: the closed form, and the frame of an effect that edits the strand at issue. -/

namespace Sys2Proof.Machine

/-- An instruction that nothing stops has its effect, and its bundle closes. -/
theorem effect_of (s : State) (n : Nat) (i : Instr) (eff : State → State) (hc : Calm s) (hg : GuardOn s i) (hs : stopOf s [(n, i)] = none) :
    slotOp n i eff s = .next (closeIssue (eff (inSlot s n))) := by
  rw [slotOp_issue s n i eff hc.1 hs, suppressed_off s n i hc.2.1 hg.2]
  rfl

theorem effect_operandsOnly (s : State) (n : Nat) (i : Instr) (eff : State → State) (hr : Ready s i) (hq : operandsOnly i = true) :
    slotOp n i eff s = .next (closeIssue (eff (inSlot s n))) :=
  effect_of s n i eff hr.1 hr.2.1 (stop_operandsOnly s n i hr hq)

/-- A bundle of one slot whose guard is on reaches its turn. -/
theorem turn_head (s : State) (n : Nat) (i : Instr) (hc : Calm s) (hg : GuardOn s i) :
    bodyTrap s [(n, i)] = none ∧ examine s n (.p (guardOf i)) = none ∧ suppressedBy s i = false := by
  obtain ⟨hi, hl, -⟩ := hc
  refine ⟨by simp [bodyTrap, viewLoop, hi, hl], by simp only [examine, look_closed _ _ hi hl, hg.1], ?_⟩
  unfold suppressedBy
  cases hw : wholeGuard i with
  | false => rfl
  | true => have := hg.2 hw; simpa [rdP, look_closed _ _ hi hl] using this

/-- What stops the slot's own turn stops the bundle. -/
theorem stop_turn_some (s : State) (n : Nat) (i : Instr) (x : Stop) (hc : Calm s) (hg : GuardOn s i) (h : slotTurn s (n, i) = some x) : stopOf s [(n, i)] = some x := by
  obtain ⟨h1, h2, h3⟩ := turn_head s n i hc hg
  unfold stopOf
  simp [h1, h2, h3, h]

/-- A source that is PENDING or POISONED, those before it in parking order FULL (R276, R283). -/
theorem stop_source (s : State) (n : Nat) (i : Instr) (x : Stop) (pre post : List RegId) (r : RegId) (hc : Calm s) (hg : GuardOn s i) (hb : beforeSources s i = none)
    (hr : readsOf i = pre ++ r :: post) (hp : ∀ z ∈ pre, isFull s z) (hx : examine s n r = some x) : stopOf s [(n, i)] = some x := by
  apply stop_turn_some s n i x hc hg
  have hpre : pre.findSome? (examine s n) = none := List.findSome?_eq_none_iff.mpr fun z hz => by
    simp only [examine, look_closed _ _ hc.1 hc.2.1, hp z hz]
  simp [slotTurn, hb, hr, List.findSome?_append, hpre, hx]

/-- The instruction's own check after its sources. -/
theorem stop_after (s : State) (n : Nat) (i : Instr) (x : Stop) (hc : Calm s) (hg : GuardOn s i) (hb : beforeSources s i = none) (hr : ∀ r ∈ readsOf i, isFull s r)
    (hx : afterSources s n i = some x) : stopOf s [(n, i)] = some x := by
  apply stop_turn_some s n i x hc hg
  have hpre : (readsOf i).findSome? (examine s n) = none := List.findSome?_eq_none_iff.mpr fun z hz => by
    simp only [examine, look_closed _ _ hc.1 hc.2.1, hr z hz]
  simp [slotTurn, hb, hpre, hx]

/-- The instruction's own check before its sources. -/
theorem stop_before (s : State) (n : Nat) (i : Instr) (x : Stop) (hc : Calm s) (hg : GuardOn s i) (hb : beforeSources s i = some x) : stopOf s [(n, i)] = some x := by
  apply stop_turn_some s n i x hc hg
  simp [slotTurn, hb]

theorem rdS_closed (s : State) (b : BitVec 6) (hc : Calm s) : rdS s b = sVal s b := by simp [rdS, look_closed _ _ hc.1 hc.2.1]

theorem viewLoop_calm (s : State) (hc : Calm s) : (viewLoop s).active = false := by rw [viewLoop, hc.1]; exact hc.2.1

theorem inSlot_pc (s : State) (n : Nat) : (inSlot s n).me.pc = s.me.pc := by
  obtain ⟨p, r, cs, h, -⟩ := inSlot_shape s n; rw [h]

theorem inSlot_sid (s : State) (n : Nat) : (inSlot s n).me.sid = s.me.sid := by
  obtain ⟨p, r, cs, h, -⟩ := inSlot_shape s n; rw [h]

theorem look_open (s : State) (i : Issue) (r : RegId) (hi : s.issue = some i) (hl : i.loop.active = false) : look s r = i.regs.get r := by
  simp [look, rot, view, viewLoop, hi, rotReg_idle _ _ hl]

/-- In an open bundle an s register reads as it stood at its opening. -/
theorem rdS_open (s : State) (i : Issue) (b : BitVec 6) (hi : s.issue = some i) (hl : i.loop.active = false) : rdS s b = (i.regs.get (.s b)).val.setWidth 64 := by
  rw [rdS, look_open s i _ hi hl]

/-- Closing after an edit of the strand that touches no loop, commit point or trap. -/
theorem edit_closed (s : State) (n : Nat) (F : Strand → Strand) (hc : Calm s) (h1 : ∀ t, (F t).closing = t.closing) (h2 : ∀ t, (F t).heldTrap = t.heldTrap) :
    ∃ p r cs, closeIssue (setMe (inSlot s n) F) = (let m := F { s.me with perf := p, readyAt := r, st := .running, parkid := none, triedAt := s.clock + 1, npc := s.me.pc + 32, asleep := false, waitSerial := false, bankWait := none }
      { s with me := { m with choice := none, waitset := none, pc := m.npc }, cores := cs }) ∧
      ∀ t : State, t.cores = cs → ∀ c, (getCore t c).array = (getCore s c).array ∧ (getCore t c).copies = (getCore s c).copies ∧ (getCore t c).xstat = (getCore s c).xstat := by
  obtain ⟨hi, hl, hcl, ht, -⟩ := hc
  obtain ⟨p, r, cs, e, hcs⟩ := inSlot_shape s n
  refine ⟨p, r, cs, ?_, hcs⟩
  rw [e, closeIssue_plain (b := ⟨s.me.regs, s.me.h, s.me.loop, n⟩)]
  rotate_left
  · rfl
  · exact hl
  · show (F _).closing = _; rw [h1]; exact hcl
  · show (F _).heldTrap = _; rw [h2]; exact ht
  · simp only [setMe]; rw [← hi]

/-- Storing an edited core leaves array, copies and counts where the edit does. -/
theorem updCore_kept (s : State) (k : Nat) (f : Core → Core) (hf : ∀ c, (f c).id = c.id ∧ (f c).array = c.array ∧ (f c).copies = c.copies ∧ (f c).xstat = c.xstat) (t : State)
    (ht : t.cores = (updCore s k f).cores) (c : Nat) :
    (getCore t c).array = (getCore s c).array ∧ (getCore t c).copies = (getCore s c).copies ∧ (getCore t c).xstat = (getCore s c).xstat := by
  have e : getCore t c = getCore (updCore s k f) c := by simp [getCore, ht]
  rw [e]
  by_cases hk : c = k
  · subst hk
    rw [getCore_updCore_same _ _ _ ((hf _).1.trans (getCore_id _ _))]
    exact (hf (getCore s c)).2
  · rw [getCore_updCore_other _ _ ((hf _).1.trans (getCore_id _ _)) hk]; exact ⟨rfl, rfl, rfl⟩

/-- The first replayed instruction of a window is performed and counted (R328). -/
theorem replayed_once (s : State) (f : State → State) (h : s.me.replay = none) : replayed s f = f (setMe s fun t => { t with replay := some ⟨s.me.log.length, 1, 1⟩ }) := by
  unfold replayed
  simp [h, replaysNow]

end Sys2Proof.Machine
end

