-- ==== Sys2Proof/Laws/Elements.lean ====
section
/-! SUPPORT. Elements of v registers and byte groups of predicates (R13): what a register packed from elements holds at each of them. -/

namespace Sys2Proof.Machine

theorem packElems_lt (w : Nat) (xs : List Nat) : packElems w xs < 2 ^ (w * xs.length) := by
  induction xs with
  | nil => simp [packElems]
  | cons x xs ih =>
    simp only [packElems, List.length_cons, Nat.mul_add, Nat.mul_one, Nat.shiftLeft_eq]
    rw [Nat.pow_add]
    have h1 : x % 2 ^ w < 2 ^ w := Nat.mod_lt _ (by positivity)
    calc x % 2 ^ w + packElems w xs * 2 ^ w < 2 ^ w + packElems w xs * 2 ^ w := by omega
      _ = (packElems w xs + 1) * 2 ^ w := by ring
      _ ≤ 2 ^ (w * xs.length) * 2 ^ w := Nat.mul_le_mul_right _ ih

/-- Element `e` of packed elements is the `e`th of them, cut to the width. -/
theorem packElems_at (w : Nat) (xs : List Nat) (e : Nat) : packElems w xs / 2 ^ (w * e) % 2 ^ w = xs.getD e 0 % 2 ^ w := by
  induction xs generalizing e with
  | nil => simp [packElems]
  | cons x xs ih =>
    simp only [packElems, Nat.shiftLeft_eq]
    cases e with
    | zero => simp
    | succ e =>
      have : (x % 2 ^ w + packElems w xs * 2 ^ w) / 2 ^ (w * (e + 1)) = packElems w xs / 2 ^ (w * e) := by
        rw [Nat.mul_add, Nat.mul_one, Nat.add_comm (w * e), Nat.pow_add, ← Nat.div_div_eq_div_mul]
        rw [Nat.add_mul_div_right _ _ (by positivity), Nat.div_eq_of_lt (Nat.mod_lt _ (by positivity)), Nat.zero_add]
      rw [this, ih]; simp

/-- Element `e` of a register packed from elements (R13). -/
theorem ofElems_at (w : Nat) (xs : List Nat) (e : Nat) (h : w * (e + 1) ≤ 1024) : (ofElems w xs).toNat / 2 ^ (w * e) % 2 ^ w = xs.getD e 0 % 2 ^ w := by
  rw [ofElems, BitVec.toNat_ofNat, ← packElems_at]
  have e1 : 1024 = w * e + (1024 - w * e) := by have : w * e ≤ w * (e + 1) := Nat.mul_le_mul_left _ (by omega); omega
  rw [e1, Nat.pow_add, Nat.mod_mul_right_div_self, Nat.mod_mod_of_dvd]
  exact Nat.pow_dvd_pow 2 (by rw [Nat.mul_add] at h; omega)

theorem elemsOf_length (w : Nat) : ∀ k x, (elemsOf w k x).length = k := by
  intro k; induction k with
  | zero => intro x; rfl
  | succ k ih => intro x; simp [elemsOf, ih]

theorem elemsOf_at (w : Nat) : ∀ k x e, e < k → (elemsOf w k x).getD e 0 = x / 2 ^ (w * e) % 2 ^ w := by
  intro k
  induction k with
  | zero => intro x e h; omega
  | succ k ih =>
    intro x e h
    cases e with
    | zero => simp [elemsOf]
    | succ e =>
      simp only [elemsOf, List.getD_cons_succ, ih _ e (by omega), Nat.shiftRight_eq_div_pow]
      rw [Nat.div_div_eq_div_mul, ← Nat.pow_add, Nat.mul_add, Nat.mul_one, Nat.add_comm]

theorem velems_length (w : Nat) (v : VVal) : (velems w v).length = 1024 / w := elemsOf_length _ _ _

theorem velems_at (w : Nat) (v : VVal) (e : Nat) (h : e < 1024 / w) : (velems w v).getD e 0 = v.toNat / 2 ^ (w * e) % 2 ^ w := elemsOf_at w _ _ e h

theorem elemV_eq (w : Nat) (v : VVal) (e : Nat) : elemV w v e = v.toNat / 2 ^ (w * e) % 2 ^ w := by simp [elemV, bitsOf, Nat.shiftRight_eq_div_pow]

/-- An element inside the register. -/
theorem elem_inside (w e : Nat) (h : e < 1024 / w) : w * (e + 1) ≤ 1024 := by
  have : w * (1024 / w) ≤ 1024 := Nat.mul_div_le 1024 w
  calc w * (e + 1) ≤ w * (1024 / w) := Nat.mul_le_mul_left _ h
    _ ≤ 1024 := this

/-- Packing a function of the elements of a register and their indices (R13). -/
theorem ofElems_zipIdx (w : Nat) (v : VVal) (f : Nat × Nat → Nat) (e : Nat) (h : e < 1024 / w) :
    (ofElems w ((velems w v).zipIdx.map f)).toNat / 2 ^ (w * e) % 2 ^ w = f (v.toNat / 2 ^ (w * e) % 2 ^ w, e) % 2 ^ w := by
  rw [ofElems_at w _ e (elem_inside w e h)]
  congr 1
  have hl : e < (velems w v).length := by rw [velems_length]; exact h
  have := velems_at w v e h
  rw [List.getD_eq_getElem?_getD, List.getElem?_map, List.getElem?_zipIdx, List.getElem?_eq_getElem hl]
  rw [List.getD_eq_getElem?_getD, List.getElem?_eq_getElem hl] at this
  simp only [Option.getD_some] at this
  simp [this]

/-- Packing a function of the element numbers. -/
theorem ofElems_upto (w n : Nat) (f : Nat → Nat) (e : Nat) (h : e < 1024 / w) (hn : e < n) :
    (ofElems w ((upto n).map f)).toNat / 2 ^ (w * e) % 2 ^ w = f e % 2 ^ w := by
  rw [ofElems_at w _ e (elem_inside w e h)]
  simp [upto, List.getD_eq_getElem?_getD, hn]

/-- A merging result, element by element (R141). -/
theorem mergeV_at (s : State) (g : BitVec 4) (w : Nat) (d : BitVec 5) (f : Nat → Nat) (e : Nat) (h : e < 1024 / w) :
    (mergeV s g w d f).toNat / 2 ^ (w * e) % 2 ^ w = if enabled s g w e then f e % 2 ^ w else (rdV s d).toNat / 2 ^ (w * e) % 2 ^ w := by
  rw [mergeV, ofElems_zipIdx w _ _ e h]
  split <;> simp

theorem testBit_two_pow_or_zero (k j : Nat) (b : Bool) (h : j < k) : (if b then 2 ^ k - 1 else 0 : Nat).testBit j = b := by
  cases b
  · simp
  · simp [Nat.testBit_two_pow_sub_one, h]

/-- A bit of a predicate packed from byte groups (R13). -/
theorem packGroups_bit (w : Nat) (bs : List Bool) (k : Nat) (hw : 8 ≤ w) (h : k < 128) (hl : k / (w / 8) < bs.length) :
    (packGroups w bs).getLsbD k = bs.getD (k / (w / 8)) false := by
  have hk : 1 ≤ w / 8 := by omega
  unfold packGroups
  simp only [Nat.max_eq_left hk]
  generalize hq : w / 8 = q at *
  rw [BitVec.getLsbD_ofNat]
  simp only [h, decide_true, Bool.true_and]
  have hp := packElems_at q (bs.map fun b => if b then 2 ^ q - 1 else 0) (k / q)
  have ht : (packElems q (bs.map fun b => if b then 2 ^ q - 1 else 0)).testBit k =
      (packElems q (bs.map fun b => if b then 2 ^ q - 1 else 0) / 2 ^ (q * (k / q)) % 2 ^ q).testBit (k % q) := by
    rw [Nat.testBit_mod_two_pow, Nat.testBit_div_two_pow]
    have h1 : k % q < q := Nat.mod_lt _ hk
    have h2 : k % q + q * (k / q) = k := Nat.mod_add_div k q
    simp [h1, h2]
  rw [ht, hp, Nat.testBit_mod_two_pow]
  have h1 : k % q < q := Nat.mod_lt _ hk
  simp only [h1, decide_true, Bool.true_and]
  rw [List.getD_eq_getElem?_getD, List.getElem?_map, List.getElem?_eq_getElem hl]
  simp only [Option.map_some, Option.getD_some]
  rw [testBit_two_pow_or_zero q (k % q) _ h1, List.getD_eq_getElem?_getD, List.getElem?_eq_getElem hl]
  rfl

/-- A merging predicate, bit by bit (R146). -/
theorem mergeP_bit (s : State) (g d : BitVec 4) (w : Nat) (f : Nat → Bool) (k : Nat) (hw : 8 ≤ w) (h : k < 128) (hl : k / (w / 8) < 1024 / w) :
    (mergeP s g d w f).getLsbD k = if enabled s g w (k / (w / 8)) then f (k / (w / 8)) else (rdP s d).getLsbD k := by
  unfold mergeP
  simp only [BitVec.getLsbD_or, BitVec.getLsbD_and, BitVec.getLsbD_not, h, decide_true, Bool.true_and]
  rw [packGroups_bit w _ k hw h (by simpa [upto] using hl), packGroups_bit w _ k hw h (by simpa [upto] using hl)]
  have e : ∀ f : Nat → Bool, ((upto (1024 / w)).map f).getD (k / (w / 8)) false = f (k / (w / 8)) := by
    intro f; simp [upto, List.getD_eq_getElem?_getD, hl]
  rw [e, e]
  cases enabled s g w (k / (w / 8)) <;> simp

end Sys2Proof.Machine
end

