-- ==== Sys2Proof/Laws/State.lean ====
section
/-! SUPPORT. The fields of the state after each named update: one lemma for each field, so that no proof unfolds a record update. -/

namespace Sys2Proof.Machine

section setMe
variable (s : State) (f : Strand → Strand)
@[simp] theorem setMe_clock : (setMe s f).clock = s.clock := rfl
@[simp] theorem setMe_me : (setMe s f).me = f s.me := rfl
@[simp] theorem setMe_pool : (setMe s f).pool = s.pool := rfl
@[simp] theorem setMe_gangs : (setMe s f).gangs = s.gangs := rfl
@[simp] theorem setMe_jobs : (setMe s f).jobs = s.jobs := rfl
@[simp] theorem setMe_cores : (setMe s f).cores = s.cores := rfl
@[simp] theorem setMe_dies : (setMe s f).dies = s.dies := rfl
@[simp] theorem setMe_hbm : (setMe s f).hbm = s.hbm := rfl
@[simp] theorem setMe_lineKey : (setMe s f).lineKey = s.lineKey := rfl
@[simp] theorem setMe_near : (setMe s f).near = s.near := rfl
@[simp] theorem setMe_unitJob : (setMe s f).unitJob = s.unitJob := rfl
@[simp] theorem setMe_farLoads : (setMe s f).farLoads = s.farLoads := rfl
@[simp] theorem setMe_farAtoms : (setMe s f).farAtoms = s.farAtoms := rfl
@[simp] theorem setMe_nearOps : (setMe s f).nearOps = s.nearOps := rfl
@[simp] theorem setMe_nearLoads : (setMe s f).nearLoads = s.nearLoads := rfl
@[simp] theorem setMe_colls : (setMe s f).colls = s.colls := rfl
@[simp] theorem setMe_rsets : (setMe s f).rsets = s.rsets := rfl
@[simp] theorem setMe_mirrors : (setMe s f).mirrors = s.mirrors := rfl
@[simp] theorem setMe_ready : (setMe s f).ready = s.ready := rfl
@[simp] theorem setMe_mapped : (setMe s f).mapped = s.mapped := rfl
@[simp] theorem setMe_meshes : (setMe s f).meshes = s.meshes := rfl
@[simp] theorem setMe_devnum : (setMe s f).devnum = s.devnum := rfl
@[simp] theorem setMe_numset : (setMe s f).numset = s.numset := rfl
@[simp] theorem setMe_routes : (setMe s f).routes = s.routes := rfl
@[simp] theorem setMe_ports : (setMe s f).ports = s.ports := rfl
@[simp] theorem setMe_pathWait : (setMe s f).pathWait = s.pathWait := rfl
@[simp] theorem setMe_reqs : (setMe s f).reqs = s.reqs := rfl
@[simp] theorem setMe_resvs : (setMe s f).resvs = s.resvs := rfl
@[simp] theorem setMe_outFlits : (setMe s f).outFlits = s.outFlits := rfl
@[simp] theorem setMe_waitFlits : (setMe s f).waitFlits = s.waitFlits := rfl
@[simp] theorem setMe_devOut : (setMe s f).devOut = s.devOut := rfl
@[simp] theorem setMe_got : (setMe s f).got = s.got := rfl
@[simp] theorem setMe_spoiled : (setMe s f).spoiled = s.spoiled := rfl
@[simp] theorem setMe_bar0 : (setMe s f).bar0 = s.bar0 := rfl
@[simp] theorem setMe_staging : (setMe s f).staging = s.staging := rfl
@[simp] theorem setMe_hostMem : (setMe s f).hostMem = s.hostMem := rfl
@[simp] theorem setMe_hostCmds : (setMe s f).hostCmds = s.hostCmds := rfl
@[simp] theorem setMe_hostEvents : (setMe s f).hostEvents = s.hostEvents := rfl
@[simp] theorem setMe_spdm : (setMe s f).spdm = s.spdm := rfl
@[simp] theorem setMe_identity : (setMe s f).identity = s.identity := rfl
@[simp] theorem setMe_chain : (setMe s f).chain = s.chain := rfl
@[simp] theorem setMe_measured : (setMe s f).measured = s.measured := rfl
@[simp] theorem setMe_imageVersion : (setMe s f).imageVersion = s.imageVersion := rfl
@[simp] theorem setMe_imageAt : (setMe s f).imageAt = s.imageAt := rfl
@[simp] theorem setMe_powerCap : (setMe s f).powerCap = s.powerCap := rfl
@[simp] theorem setMe_power : (setMe s f).power = s.power := rfl
@[simp] theorem setMe_stallsPending : (setMe s f).stallsPending = s.stallsPending := rfl
@[simp] theorem setMe_issue : (setMe s f).issue = s.issue := rfl
@[simp] theorem setMe_inbox : (setMe s f).inbox = s.inbox := rfl
@[simp] theorem setMe_timers : (setMe s f).timers = s.timers := rfl
@[simp] theorem setMe_fresh : (setMe s f).fresh = s.fresh := rfl
@[simp] theorem setMe_nextId : (setMe s f).nextId = s.nextId := rfl
end setMe

section addTimer
variable (s : State) (n : Nat) (i : Instr)
@[simp] theorem addTimer_clock : (addTimer s n i).clock = s.clock := rfl
@[simp] theorem addTimer_me : (addTimer s n i).me = s.me := rfl
@[simp] theorem addTimer_pool : (addTimer s n i).pool = s.pool := rfl
@[simp] theorem addTimer_gangs : (addTimer s n i).gangs = s.gangs := rfl
@[simp] theorem addTimer_jobs : (addTimer s n i).jobs = s.jobs := rfl
@[simp] theorem addTimer_cores : (addTimer s n i).cores = s.cores := rfl
@[simp] theorem addTimer_dies : (addTimer s n i).dies = s.dies := rfl
@[simp] theorem addTimer_hbm : (addTimer s n i).hbm = s.hbm := rfl
@[simp] theorem addTimer_lineKey : (addTimer s n i).lineKey = s.lineKey := rfl
@[simp] theorem addTimer_near : (addTimer s n i).near = s.near := rfl
@[simp] theorem addTimer_unitJob : (addTimer s n i).unitJob = s.unitJob := rfl
@[simp] theorem addTimer_farLoads : (addTimer s n i).farLoads = s.farLoads := rfl
@[simp] theorem addTimer_farAtoms : (addTimer s n i).farAtoms = s.farAtoms := rfl
@[simp] theorem addTimer_nearOps : (addTimer s n i).nearOps = s.nearOps := rfl
@[simp] theorem addTimer_nearLoads : (addTimer s n i).nearLoads = s.nearLoads := rfl
@[simp] theorem addTimer_colls : (addTimer s n i).colls = s.colls := rfl
@[simp] theorem addTimer_rsets : (addTimer s n i).rsets = s.rsets := rfl
@[simp] theorem addTimer_mirrors : (addTimer s n i).mirrors = s.mirrors := rfl
@[simp] theorem addTimer_ready : (addTimer s n i).ready = s.ready := rfl
@[simp] theorem addTimer_mapped : (addTimer s n i).mapped = s.mapped := rfl
@[simp] theorem addTimer_meshes : (addTimer s n i).meshes = s.meshes := rfl
@[simp] theorem addTimer_devnum : (addTimer s n i).devnum = s.devnum := rfl
@[simp] theorem addTimer_numset : (addTimer s n i).numset = s.numset := rfl
@[simp] theorem addTimer_routes : (addTimer s n i).routes = s.routes := rfl
@[simp] theorem addTimer_ports : (addTimer s n i).ports = s.ports := rfl
@[simp] theorem addTimer_pathWait : (addTimer s n i).pathWait = s.pathWait := rfl
@[simp] theorem addTimer_reqs : (addTimer s n i).reqs = s.reqs := rfl
@[simp] theorem addTimer_resvs : (addTimer s n i).resvs = s.resvs := rfl
@[simp] theorem addTimer_outFlits : (addTimer s n i).outFlits = s.outFlits := rfl
@[simp] theorem addTimer_waitFlits : (addTimer s n i).waitFlits = s.waitFlits := rfl
@[simp] theorem addTimer_devOut : (addTimer s n i).devOut = s.devOut := rfl
@[simp] theorem addTimer_got : (addTimer s n i).got = s.got := rfl
@[simp] theorem addTimer_spoiled : (addTimer s n i).spoiled = s.spoiled := rfl
@[simp] theorem addTimer_bar0 : (addTimer s n i).bar0 = s.bar0 := rfl
@[simp] theorem addTimer_staging : (addTimer s n i).staging = s.staging := rfl
@[simp] theorem addTimer_hostMem : (addTimer s n i).hostMem = s.hostMem := rfl
@[simp] theorem addTimer_hostCmds : (addTimer s n i).hostCmds = s.hostCmds := rfl
@[simp] theorem addTimer_hostEvents : (addTimer s n i).hostEvents = s.hostEvents := rfl
@[simp] theorem addTimer_spdm : (addTimer s n i).spdm = s.spdm := rfl
@[simp] theorem addTimer_identity : (addTimer s n i).identity = s.identity := rfl
@[simp] theorem addTimer_chain : (addTimer s n i).chain = s.chain := rfl
@[simp] theorem addTimer_measured : (addTimer s n i).measured = s.measured := rfl
@[simp] theorem addTimer_imageVersion : (addTimer s n i).imageVersion = s.imageVersion := rfl
@[simp] theorem addTimer_imageAt : (addTimer s n i).imageAt = s.imageAt := rfl
@[simp] theorem addTimer_powerCap : (addTimer s n i).powerCap = s.powerCap := rfl
@[simp] theorem addTimer_power : (addTimer s n i).power = s.power := rfl
@[simp] theorem addTimer_stallsPending : (addTimer s n i).stallsPending = s.stallsPending := rfl
@[simp] theorem addTimer_issue : (addTimer s n i).issue = s.issue := rfl
@[simp] theorem addTimer_inbox : (addTimer s n i).inbox = s.inbox := rfl
@[simp] theorem addTimer_timers : (addTimer s n i).timers = s.timers ++ [⟨n, i⟩] := rfl
@[simp] theorem addTimer_fresh : (addTimer s n i).fresh = s.fresh := rfl
@[simp] theorem addTimer_nextId : (addTimer s n i).nextId = s.nextId := rfl
end addTimer

section later
variable (s : State) (i : Instr)
@[simp] theorem later_clock : (later s i).clock = s.clock := rfl
@[simp] theorem later_me : (later s i).me = s.me := rfl
@[simp] theorem later_pool : (later s i).pool = s.pool := rfl
@[simp] theorem later_gangs : (later s i).gangs = s.gangs := rfl
@[simp] theorem later_jobs : (later s i).jobs = s.jobs := rfl
@[simp] theorem later_cores : (later s i).cores = s.cores := rfl
@[simp] theorem later_dies : (later s i).dies = s.dies := rfl
@[simp] theorem later_hbm : (later s i).hbm = s.hbm := rfl
@[simp] theorem later_lineKey : (later s i).lineKey = s.lineKey := rfl
@[simp] theorem later_near : (later s i).near = s.near := rfl
@[simp] theorem later_unitJob : (later s i).unitJob = s.unitJob := rfl
@[simp] theorem later_farLoads : (later s i).farLoads = s.farLoads := rfl
@[simp] theorem later_farAtoms : (later s i).farAtoms = s.farAtoms := rfl
@[simp] theorem later_nearOps : (later s i).nearOps = s.nearOps := rfl
@[simp] theorem later_nearLoads : (later s i).nearLoads = s.nearLoads := rfl
@[simp] theorem later_colls : (later s i).colls = s.colls := rfl
@[simp] theorem later_rsets : (later s i).rsets = s.rsets := rfl
@[simp] theorem later_mirrors : (later s i).mirrors = s.mirrors := rfl
@[simp] theorem later_ready : (later s i).ready = s.ready := rfl
@[simp] theorem later_mapped : (later s i).mapped = s.mapped := rfl
@[simp] theorem later_meshes : (later s i).meshes = s.meshes := rfl
@[simp] theorem later_devnum : (later s i).devnum = s.devnum := rfl
@[simp] theorem later_numset : (later s i).numset = s.numset := rfl
@[simp] theorem later_routes : (later s i).routes = s.routes := rfl
@[simp] theorem later_ports : (later s i).ports = s.ports := rfl
@[simp] theorem later_pathWait : (later s i).pathWait = s.pathWait := rfl
@[simp] theorem later_reqs : (later s i).reqs = s.reqs := rfl
@[simp] theorem later_resvs : (later s i).resvs = s.resvs := rfl
@[simp] theorem later_outFlits : (later s i).outFlits = s.outFlits := rfl
@[simp] theorem later_waitFlits : (later s i).waitFlits = s.waitFlits := rfl
@[simp] theorem later_devOut : (later s i).devOut = s.devOut := rfl
@[simp] theorem later_got : (later s i).got = s.got := rfl
@[simp] theorem later_spoiled : (later s i).spoiled = s.spoiled := rfl
@[simp] theorem later_bar0 : (later s i).bar0 = s.bar0 := rfl
@[simp] theorem later_staging : (later s i).staging = s.staging := rfl
@[simp] theorem later_hostMem : (later s i).hostMem = s.hostMem := rfl
@[simp] theorem later_hostCmds : (later s i).hostCmds = s.hostCmds := rfl
@[simp] theorem later_hostEvents : (later s i).hostEvents = s.hostEvents := rfl
@[simp] theorem later_spdm : (later s i).spdm = s.spdm := rfl
@[simp] theorem later_identity : (later s i).identity = s.identity := rfl
@[simp] theorem later_chain : (later s i).chain = s.chain := rfl
@[simp] theorem later_measured : (later s i).measured = s.measured := rfl
@[simp] theorem later_imageVersion : (later s i).imageVersion = s.imageVersion := rfl
@[simp] theorem later_imageAt : (later s i).imageAt = s.imageAt := rfl
@[simp] theorem later_powerCap : (later s i).powerCap = s.powerCap := rfl
@[simp] theorem later_power : (later s i).power = s.power := rfl
@[simp] theorem later_stallsPending : (later s i).stallsPending = s.stallsPending := rfl
@[simp] theorem later_issue : (later s i).issue = s.issue := rfl
@[simp] theorem later_inbox : (later s i).inbox = s.inbox := rfl
@[simp] theorem later_timers : (later s i).timers = s.timers ++ [⟨s.clock + 1 + Config.delay s.fresh, i⟩] := rfl
@[simp] theorem later_fresh : (later s i).fresh = s.fresh + 1 := rfl
@[simp] theorem later_nextId : (later s i).nextId = s.nextId := rfl
end later

section updGang
variable (s : State) (n : Nat) (f : Gang → Gang)
@[simp] theorem updGang_clock : (updGang s n f).clock = s.clock := rfl
@[simp] theorem updGang_me : (updGang s n f).me = s.me := rfl
@[simp] theorem updGang_pool : (updGang s n f).pool = s.pool := rfl
@[simp] theorem updGang_gangs : (updGang s n f).gangs = updFirst (fun g => g.gid == n) f s.gangs := rfl
@[simp] theorem updGang_jobs : (updGang s n f).jobs = s.jobs := rfl
@[simp] theorem updGang_cores : (updGang s n f).cores = s.cores := rfl
@[simp] theorem updGang_dies : (updGang s n f).dies = s.dies := rfl
@[simp] theorem updGang_hbm : (updGang s n f).hbm = s.hbm := rfl
@[simp] theorem updGang_lineKey : (updGang s n f).lineKey = s.lineKey := rfl
@[simp] theorem updGang_near : (updGang s n f).near = s.near := rfl
@[simp] theorem updGang_unitJob : (updGang s n f).unitJob = s.unitJob := rfl
@[simp] theorem updGang_farLoads : (updGang s n f).farLoads = s.farLoads := rfl
@[simp] theorem updGang_farAtoms : (updGang s n f).farAtoms = s.farAtoms := rfl
@[simp] theorem updGang_nearOps : (updGang s n f).nearOps = s.nearOps := rfl
@[simp] theorem updGang_nearLoads : (updGang s n f).nearLoads = s.nearLoads := rfl
@[simp] theorem updGang_colls : (updGang s n f).colls = s.colls := rfl
@[simp] theorem updGang_rsets : (updGang s n f).rsets = s.rsets := rfl
@[simp] theorem updGang_mirrors : (updGang s n f).mirrors = s.mirrors := rfl
@[simp] theorem updGang_ready : (updGang s n f).ready = s.ready := rfl
@[simp] theorem updGang_mapped : (updGang s n f).mapped = s.mapped := rfl
@[simp] theorem updGang_meshes : (updGang s n f).meshes = s.meshes := rfl
@[simp] theorem updGang_devnum : (updGang s n f).devnum = s.devnum := rfl
@[simp] theorem updGang_numset : (updGang s n f).numset = s.numset := rfl
@[simp] theorem updGang_routes : (updGang s n f).routes = s.routes := rfl
@[simp] theorem updGang_ports : (updGang s n f).ports = s.ports := rfl
@[simp] theorem updGang_pathWait : (updGang s n f).pathWait = s.pathWait := rfl
@[simp] theorem updGang_reqs : (updGang s n f).reqs = s.reqs := rfl
@[simp] theorem updGang_resvs : (updGang s n f).resvs = s.resvs := rfl
@[simp] theorem updGang_outFlits : (updGang s n f).outFlits = s.outFlits := rfl
@[simp] theorem updGang_waitFlits : (updGang s n f).waitFlits = s.waitFlits := rfl
@[simp] theorem updGang_devOut : (updGang s n f).devOut = s.devOut := rfl
@[simp] theorem updGang_got : (updGang s n f).got = s.got := rfl
@[simp] theorem updGang_spoiled : (updGang s n f).spoiled = s.spoiled := rfl
@[simp] theorem updGang_bar0 : (updGang s n f).bar0 = s.bar0 := rfl
@[simp] theorem updGang_staging : (updGang s n f).staging = s.staging := rfl
@[simp] theorem updGang_hostMem : (updGang s n f).hostMem = s.hostMem := rfl
@[simp] theorem updGang_hostCmds : (updGang s n f).hostCmds = s.hostCmds := rfl
@[simp] theorem updGang_hostEvents : (updGang s n f).hostEvents = s.hostEvents := rfl
@[simp] theorem updGang_spdm : (updGang s n f).spdm = s.spdm := rfl
@[simp] theorem updGang_identity : (updGang s n f).identity = s.identity := rfl
@[simp] theorem updGang_chain : (updGang s n f).chain = s.chain := rfl
@[simp] theorem updGang_measured : (updGang s n f).measured = s.measured := rfl
@[simp] theorem updGang_imageVersion : (updGang s n f).imageVersion = s.imageVersion := rfl
@[simp] theorem updGang_imageAt : (updGang s n f).imageAt = s.imageAt := rfl
@[simp] theorem updGang_powerCap : (updGang s n f).powerCap = s.powerCap := rfl
@[simp] theorem updGang_power : (updGang s n f).power = s.power := rfl
@[simp] theorem updGang_stallsPending : (updGang s n f).stallsPending = s.stallsPending := rfl
@[simp] theorem updGang_issue : (updGang s n f).issue = s.issue := rfl
@[simp] theorem updGang_inbox : (updGang s n f).inbox = s.inbox := rfl
@[simp] theorem updGang_timers : (updGang s n f).timers = s.timers := rfl
@[simp] theorem updGang_fresh : (updGang s n f).fresh = s.fresh := rfl
@[simp] theorem updGang_nextId : (updGang s n f).nextId = s.nextId := rfl
end updGang

section updJob
variable (s : State) (n : Nat) (f : Job → Job)
@[simp] theorem updJob_clock : (updJob s n f).clock = s.clock := rfl
@[simp] theorem updJob_me : (updJob s n f).me = s.me := rfl
@[simp] theorem updJob_pool : (updJob s n f).pool = s.pool := rfl
@[simp] theorem updJob_gangs : (updJob s n f).gangs = s.gangs := rfl
@[simp] theorem updJob_jobs : (updJob s n f).jobs = updFirst (fun x => x.jobn == n) f s.jobs := rfl
@[simp] theorem updJob_cores : (updJob s n f).cores = s.cores := rfl
@[simp] theorem updJob_dies : (updJob s n f).dies = s.dies := rfl
@[simp] theorem updJob_hbm : (updJob s n f).hbm = s.hbm := rfl
@[simp] theorem updJob_lineKey : (updJob s n f).lineKey = s.lineKey := rfl
@[simp] theorem updJob_near : (updJob s n f).near = s.near := rfl
@[simp] theorem updJob_unitJob : (updJob s n f).unitJob = s.unitJob := rfl
@[simp] theorem updJob_farLoads : (updJob s n f).farLoads = s.farLoads := rfl
@[simp] theorem updJob_farAtoms : (updJob s n f).farAtoms = s.farAtoms := rfl
@[simp] theorem updJob_nearOps : (updJob s n f).nearOps = s.nearOps := rfl
@[simp] theorem updJob_nearLoads : (updJob s n f).nearLoads = s.nearLoads := rfl
@[simp] theorem updJob_colls : (updJob s n f).colls = s.colls := rfl
@[simp] theorem updJob_rsets : (updJob s n f).rsets = s.rsets := rfl
@[simp] theorem updJob_mirrors : (updJob s n f).mirrors = s.mirrors := rfl
@[simp] theorem updJob_ready : (updJob s n f).ready = s.ready := rfl
@[simp] theorem updJob_mapped : (updJob s n f).mapped = s.mapped := rfl
@[simp] theorem updJob_meshes : (updJob s n f).meshes = s.meshes := rfl
@[simp] theorem updJob_devnum : (updJob s n f).devnum = s.devnum := rfl
@[simp] theorem updJob_numset : (updJob s n f).numset = s.numset := rfl
@[simp] theorem updJob_routes : (updJob s n f).routes = s.routes := rfl
@[simp] theorem updJob_ports : (updJob s n f).ports = s.ports := rfl
@[simp] theorem updJob_pathWait : (updJob s n f).pathWait = s.pathWait := rfl
@[simp] theorem updJob_reqs : (updJob s n f).reqs = s.reqs := rfl
@[simp] theorem updJob_resvs : (updJob s n f).resvs = s.resvs := rfl
@[simp] theorem updJob_outFlits : (updJob s n f).outFlits = s.outFlits := rfl
@[simp] theorem updJob_waitFlits : (updJob s n f).waitFlits = s.waitFlits := rfl
@[simp] theorem updJob_devOut : (updJob s n f).devOut = s.devOut := rfl
@[simp] theorem updJob_got : (updJob s n f).got = s.got := rfl
@[simp] theorem updJob_spoiled : (updJob s n f).spoiled = s.spoiled := rfl
@[simp] theorem updJob_bar0 : (updJob s n f).bar0 = s.bar0 := rfl
@[simp] theorem updJob_staging : (updJob s n f).staging = s.staging := rfl
@[simp] theorem updJob_hostMem : (updJob s n f).hostMem = s.hostMem := rfl
@[simp] theorem updJob_hostCmds : (updJob s n f).hostCmds = s.hostCmds := rfl
@[simp] theorem updJob_hostEvents : (updJob s n f).hostEvents = s.hostEvents := rfl
@[simp] theorem updJob_spdm : (updJob s n f).spdm = s.spdm := rfl
@[simp] theorem updJob_identity : (updJob s n f).identity = s.identity := rfl
@[simp] theorem updJob_chain : (updJob s n f).chain = s.chain := rfl
@[simp] theorem updJob_measured : (updJob s n f).measured = s.measured := rfl
@[simp] theorem updJob_imageVersion : (updJob s n f).imageVersion = s.imageVersion := rfl
@[simp] theorem updJob_imageAt : (updJob s n f).imageAt = s.imageAt := rfl
@[simp] theorem updJob_powerCap : (updJob s n f).powerCap = s.powerCap := rfl
@[simp] theorem updJob_power : (updJob s n f).power = s.power := rfl
@[simp] theorem updJob_stallsPending : (updJob s n f).stallsPending = s.stallsPending := rfl
@[simp] theorem updJob_issue : (updJob s n f).issue = s.issue := rfl
@[simp] theorem updJob_inbox : (updJob s n f).inbox = s.inbox := rfl
@[simp] theorem updJob_timers : (updJob s n f).timers = s.timers := rfl
@[simp] theorem updJob_fresh : (updJob s n f).fresh = s.fresh := rfl
@[simp] theorem updJob_nextId : (updJob s n f).nextId = s.nextId := rfl
end updJob

section putCore
variable (s : State) (c : Core)
@[simp] theorem putCore_clock : (putCore s c).clock = s.clock := rfl
@[simp] theorem putCore_me : (putCore s c).me = s.me := rfl
@[simp] theorem putCore_pool : (putCore s c).pool = s.pool := rfl
@[simp] theorem putCore_gangs : (putCore s c).gangs = s.gangs := rfl
@[simp] theorem putCore_jobs : (putCore s c).jobs = s.jobs := rfl
@[simp] theorem putCore_cores : (putCore s c).cores = putKey Core.id c s.cores := rfl
@[simp] theorem putCore_dies : (putCore s c).dies = s.dies := rfl
@[simp] theorem putCore_hbm : (putCore s c).hbm = s.hbm := rfl
@[simp] theorem putCore_lineKey : (putCore s c).lineKey = s.lineKey := rfl
@[simp] theorem putCore_near : (putCore s c).near = s.near := rfl
@[simp] theorem putCore_unitJob : (putCore s c).unitJob = s.unitJob := rfl
@[simp] theorem putCore_farLoads : (putCore s c).farLoads = s.farLoads := rfl
@[simp] theorem putCore_farAtoms : (putCore s c).farAtoms = s.farAtoms := rfl
@[simp] theorem putCore_nearOps : (putCore s c).nearOps = s.nearOps := rfl
@[simp] theorem putCore_nearLoads : (putCore s c).nearLoads = s.nearLoads := rfl
@[simp] theorem putCore_colls : (putCore s c).colls = s.colls := rfl
@[simp] theorem putCore_rsets : (putCore s c).rsets = s.rsets := rfl
@[simp] theorem putCore_mirrors : (putCore s c).mirrors = s.mirrors := rfl
@[simp] theorem putCore_ready : (putCore s c).ready = s.ready := rfl
@[simp] theorem putCore_mapped : (putCore s c).mapped = s.mapped := rfl
@[simp] theorem putCore_meshes : (putCore s c).meshes = s.meshes := rfl
@[simp] theorem putCore_devnum : (putCore s c).devnum = s.devnum := rfl
@[simp] theorem putCore_numset : (putCore s c).numset = s.numset := rfl
@[simp] theorem putCore_routes : (putCore s c).routes = s.routes := rfl
@[simp] theorem putCore_ports : (putCore s c).ports = s.ports := rfl
@[simp] theorem putCore_pathWait : (putCore s c).pathWait = s.pathWait := rfl
@[simp] theorem putCore_reqs : (putCore s c).reqs = s.reqs := rfl
@[simp] theorem putCore_resvs : (putCore s c).resvs = s.resvs := rfl
@[simp] theorem putCore_outFlits : (putCore s c).outFlits = s.outFlits := rfl
@[simp] theorem putCore_waitFlits : (putCore s c).waitFlits = s.waitFlits := rfl
@[simp] theorem putCore_devOut : (putCore s c).devOut = s.devOut := rfl
@[simp] theorem putCore_got : (putCore s c).got = s.got := rfl
@[simp] theorem putCore_spoiled : (putCore s c).spoiled = s.spoiled := rfl
@[simp] theorem putCore_bar0 : (putCore s c).bar0 = s.bar0 := rfl
@[simp] theorem putCore_staging : (putCore s c).staging = s.staging := rfl
@[simp] theorem putCore_hostMem : (putCore s c).hostMem = s.hostMem := rfl
@[simp] theorem putCore_hostCmds : (putCore s c).hostCmds = s.hostCmds := rfl
@[simp] theorem putCore_hostEvents : (putCore s c).hostEvents = s.hostEvents := rfl
@[simp] theorem putCore_spdm : (putCore s c).spdm = s.spdm := rfl
@[simp] theorem putCore_identity : (putCore s c).identity = s.identity := rfl
@[simp] theorem putCore_chain : (putCore s c).chain = s.chain := rfl
@[simp] theorem putCore_measured : (putCore s c).measured = s.measured := rfl
@[simp] theorem putCore_imageVersion : (putCore s c).imageVersion = s.imageVersion := rfl
@[simp] theorem putCore_imageAt : (putCore s c).imageAt = s.imageAt := rfl
@[simp] theorem putCore_powerCap : (putCore s c).powerCap = s.powerCap := rfl
@[simp] theorem putCore_power : (putCore s c).power = s.power := rfl
@[simp] theorem putCore_stallsPending : (putCore s c).stallsPending = s.stallsPending := rfl
@[simp] theorem putCore_issue : (putCore s c).issue = s.issue := rfl
@[simp] theorem putCore_inbox : (putCore s c).inbox = s.inbox := rfl
@[simp] theorem putCore_timers : (putCore s c).timers = s.timers := rfl
@[simp] theorem putCore_fresh : (putCore s c).fresh = s.fresh := rfl
@[simp] theorem putCore_nextId : (putCore s c).nextId = s.nextId := rfl
end putCore

section updCore
variable (s : State) (n : Nat) (f : Core → Core)
@[simp] theorem updCore_clock : (updCore s n f).clock = s.clock := rfl
@[simp] theorem updCore_me : (updCore s n f).me = s.me := rfl
@[simp] theorem updCore_pool : (updCore s n f).pool = s.pool := rfl
@[simp] theorem updCore_gangs : (updCore s n f).gangs = s.gangs := rfl
@[simp] theorem updCore_jobs : (updCore s n f).jobs = s.jobs := rfl
@[simp] theorem updCore_cores : (updCore s n f).cores = putKey Core.id (f (getCore s n)) s.cores := rfl
@[simp] theorem updCore_dies : (updCore s n f).dies = s.dies := rfl
@[simp] theorem updCore_hbm : (updCore s n f).hbm = s.hbm := rfl
@[simp] theorem updCore_lineKey : (updCore s n f).lineKey = s.lineKey := rfl
@[simp] theorem updCore_near : (updCore s n f).near = s.near := rfl
@[simp] theorem updCore_unitJob : (updCore s n f).unitJob = s.unitJob := rfl
@[simp] theorem updCore_farLoads : (updCore s n f).farLoads = s.farLoads := rfl
@[simp] theorem updCore_farAtoms : (updCore s n f).farAtoms = s.farAtoms := rfl
@[simp] theorem updCore_nearOps : (updCore s n f).nearOps = s.nearOps := rfl
@[simp] theorem updCore_nearLoads : (updCore s n f).nearLoads = s.nearLoads := rfl
@[simp] theorem updCore_colls : (updCore s n f).colls = s.colls := rfl
@[simp] theorem updCore_rsets : (updCore s n f).rsets = s.rsets := rfl
@[simp] theorem updCore_mirrors : (updCore s n f).mirrors = s.mirrors := rfl
@[simp] theorem updCore_ready : (updCore s n f).ready = s.ready := rfl
@[simp] theorem updCore_mapped : (updCore s n f).mapped = s.mapped := rfl
@[simp] theorem updCore_meshes : (updCore s n f).meshes = s.meshes := rfl
@[simp] theorem updCore_devnum : (updCore s n f).devnum = s.devnum := rfl
@[simp] theorem updCore_numset : (updCore s n f).numset = s.numset := rfl
@[simp] theorem updCore_routes : (updCore s n f).routes = s.routes := rfl
@[simp] theorem updCore_ports : (updCore s n f).ports = s.ports := rfl
@[simp] theorem updCore_pathWait : (updCore s n f).pathWait = s.pathWait := rfl
@[simp] theorem updCore_reqs : (updCore s n f).reqs = s.reqs := rfl
@[simp] theorem updCore_resvs : (updCore s n f).resvs = s.resvs := rfl
@[simp] theorem updCore_outFlits : (updCore s n f).outFlits = s.outFlits := rfl
@[simp] theorem updCore_waitFlits : (updCore s n f).waitFlits = s.waitFlits := rfl
@[simp] theorem updCore_devOut : (updCore s n f).devOut = s.devOut := rfl
@[simp] theorem updCore_got : (updCore s n f).got = s.got := rfl
@[simp] theorem updCore_spoiled : (updCore s n f).spoiled = s.spoiled := rfl
@[simp] theorem updCore_bar0 : (updCore s n f).bar0 = s.bar0 := rfl
@[simp] theorem updCore_staging : (updCore s n f).staging = s.staging := rfl
@[simp] theorem updCore_hostMem : (updCore s n f).hostMem = s.hostMem := rfl
@[simp] theorem updCore_hostCmds : (updCore s n f).hostCmds = s.hostCmds := rfl
@[simp] theorem updCore_hostEvents : (updCore s n f).hostEvents = s.hostEvents := rfl
@[simp] theorem updCore_spdm : (updCore s n f).spdm = s.spdm := rfl
@[simp] theorem updCore_identity : (updCore s n f).identity = s.identity := rfl
@[simp] theorem updCore_chain : (updCore s n f).chain = s.chain := rfl
@[simp] theorem updCore_measured : (updCore s n f).measured = s.measured := rfl
@[simp] theorem updCore_imageVersion : (updCore s n f).imageVersion = s.imageVersion := rfl
@[simp] theorem updCore_imageAt : (updCore s n f).imageAt = s.imageAt := rfl
@[simp] theorem updCore_powerCap : (updCore s n f).powerCap = s.powerCap := rfl
@[simp] theorem updCore_power : (updCore s n f).power = s.power := rfl
@[simp] theorem updCore_stallsPending : (updCore s n f).stallsPending = s.stallsPending := rfl
@[simp] theorem updCore_issue : (updCore s n f).issue = s.issue := rfl
@[simp] theorem updCore_inbox : (updCore s n f).inbox = s.inbox := rfl
@[simp] theorem updCore_timers : (updCore s n f).timers = s.timers := rfl
@[simp] theorem updCore_fresh : (updCore s n f).fresh = s.fresh := rfl
@[simp] theorem updCore_nextId : (updCore s n f).nextId = s.nextId := rfl
end updCore

section updDie
variable (s : State) (n : Nat) (f : Die → Die)
@[simp] theorem updDie_clock : (updDie s n f).clock = s.clock := rfl
@[simp] theorem updDie_me : (updDie s n f).me = s.me := rfl
@[simp] theorem updDie_pool : (updDie s n f).pool = s.pool := rfl
@[simp] theorem updDie_gangs : (updDie s n f).gangs = s.gangs := rfl
@[simp] theorem updDie_jobs : (updDie s n f).jobs = s.jobs := rfl
@[simp] theorem updDie_cores : (updDie s n f).cores = s.cores := rfl
@[simp] theorem updDie_dies : (updDie s n f).dies = s.dies.set (n % 8) (f (getDie s n)) (by omega) := rfl
@[simp] theorem updDie_hbm : (updDie s n f).hbm = s.hbm := rfl
@[simp] theorem updDie_lineKey : (updDie s n f).lineKey = s.lineKey := rfl
@[simp] theorem updDie_near : (updDie s n f).near = s.near := rfl
@[simp] theorem updDie_unitJob : (updDie s n f).unitJob = s.unitJob := rfl
@[simp] theorem updDie_farLoads : (updDie s n f).farLoads = s.farLoads := rfl
@[simp] theorem updDie_farAtoms : (updDie s n f).farAtoms = s.farAtoms := rfl
@[simp] theorem updDie_nearOps : (updDie s n f).nearOps = s.nearOps := rfl
@[simp] theorem updDie_nearLoads : (updDie s n f).nearLoads = s.nearLoads := rfl
@[simp] theorem updDie_colls : (updDie s n f).colls = s.colls := rfl
@[simp] theorem updDie_rsets : (updDie s n f).rsets = s.rsets := rfl
@[simp] theorem updDie_mirrors : (updDie s n f).mirrors = s.mirrors := rfl
@[simp] theorem updDie_ready : (updDie s n f).ready = s.ready := rfl
@[simp] theorem updDie_mapped : (updDie s n f).mapped = s.mapped := rfl
@[simp] theorem updDie_meshes : (updDie s n f).meshes = s.meshes := rfl
@[simp] theorem updDie_devnum : (updDie s n f).devnum = s.devnum := rfl
@[simp] theorem updDie_numset : (updDie s n f).numset = s.numset := rfl
@[simp] theorem updDie_routes : (updDie s n f).routes = s.routes := rfl
@[simp] theorem updDie_ports : (updDie s n f).ports = s.ports := rfl
@[simp] theorem updDie_pathWait : (updDie s n f).pathWait = s.pathWait := rfl
@[simp] theorem updDie_reqs : (updDie s n f).reqs = s.reqs := rfl
@[simp] theorem updDie_resvs : (updDie s n f).resvs = s.resvs := rfl
@[simp] theorem updDie_outFlits : (updDie s n f).outFlits = s.outFlits := rfl
@[simp] theorem updDie_waitFlits : (updDie s n f).waitFlits = s.waitFlits := rfl
@[simp] theorem updDie_devOut : (updDie s n f).devOut = s.devOut := rfl
@[simp] theorem updDie_got : (updDie s n f).got = s.got := rfl
@[simp] theorem updDie_spoiled : (updDie s n f).spoiled = s.spoiled := rfl
@[simp] theorem updDie_bar0 : (updDie s n f).bar0 = s.bar0 := rfl
@[simp] theorem updDie_staging : (updDie s n f).staging = s.staging := rfl
@[simp] theorem updDie_hostMem : (updDie s n f).hostMem = s.hostMem := rfl
@[simp] theorem updDie_hostCmds : (updDie s n f).hostCmds = s.hostCmds := rfl
@[simp] theorem updDie_hostEvents : (updDie s n f).hostEvents = s.hostEvents := rfl
@[simp] theorem updDie_spdm : (updDie s n f).spdm = s.spdm := rfl
@[simp] theorem updDie_identity : (updDie s n f).identity = s.identity := rfl
@[simp] theorem updDie_chain : (updDie s n f).chain = s.chain := rfl
@[simp] theorem updDie_measured : (updDie s n f).measured = s.measured := rfl
@[simp] theorem updDie_imageVersion : (updDie s n f).imageVersion = s.imageVersion := rfl
@[simp] theorem updDie_imageAt : (updDie s n f).imageAt = s.imageAt := rfl
@[simp] theorem updDie_powerCap : (updDie s n f).powerCap = s.powerCap := rfl
@[simp] theorem updDie_power : (updDie s n f).power = s.power := rfl
@[simp] theorem updDie_stallsPending : (updDie s n f).stallsPending = s.stallsPending := rfl
@[simp] theorem updDie_issue : (updDie s n f).issue = s.issue := rfl
@[simp] theorem updDie_inbox : (updDie s n f).inbox = s.inbox := rfl
@[simp] theorem updDie_timers : (updDie s n f).timers = s.timers := rfl
@[simp] theorem updDie_fresh : (updDie s n f).fresh = s.fresh := rfl
@[simp] theorem updDie_nextId : (updDie s n f).nextId = s.nextId := rfl
end updDie

section updPort
variable (s : State) (n : Nat) (f : Port → Port)
@[simp] theorem updPort_clock : (updPort s n f).clock = s.clock := rfl
@[simp] theorem updPort_me : (updPort s n f).me = s.me := rfl
@[simp] theorem updPort_pool : (updPort s n f).pool = s.pool := rfl
@[simp] theorem updPort_gangs : (updPort s n f).gangs = s.gangs := rfl
@[simp] theorem updPort_jobs : (updPort s n f).jobs = s.jobs := rfl
@[simp] theorem updPort_cores : (updPort s n f).cores = s.cores := rfl
@[simp] theorem updPort_dies : (updPort s n f).dies = s.dies := rfl
@[simp] theorem updPort_hbm : (updPort s n f).hbm = s.hbm := rfl
@[simp] theorem updPort_lineKey : (updPort s n f).lineKey = s.lineKey := rfl
@[simp] theorem updPort_near : (updPort s n f).near = s.near := rfl
@[simp] theorem updPort_unitJob : (updPort s n f).unitJob = s.unitJob := rfl
@[simp] theorem updPort_farLoads : (updPort s n f).farLoads = s.farLoads := rfl
@[simp] theorem updPort_farAtoms : (updPort s n f).farAtoms = s.farAtoms := rfl
@[simp] theorem updPort_nearOps : (updPort s n f).nearOps = s.nearOps := rfl
@[simp] theorem updPort_nearLoads : (updPort s n f).nearLoads = s.nearLoads := rfl
@[simp] theorem updPort_colls : (updPort s n f).colls = s.colls := rfl
@[simp] theorem updPort_rsets : (updPort s n f).rsets = s.rsets := rfl
@[simp] theorem updPort_mirrors : (updPort s n f).mirrors = s.mirrors := rfl
@[simp] theorem updPort_ready : (updPort s n f).ready = s.ready := rfl
@[simp] theorem updPort_mapped : (updPort s n f).mapped = s.mapped := rfl
@[simp] theorem updPort_meshes : (updPort s n f).meshes = s.meshes := rfl
@[simp] theorem updPort_devnum : (updPort s n f).devnum = s.devnum := rfl
@[simp] theorem updPort_numset : (updPort s n f).numset = s.numset := rfl
@[simp] theorem updPort_routes : (updPort s n f).routes = s.routes := rfl
@[simp] theorem updPort_ports : (updPort s n f).ports = s.ports.set (n % 16) (f (getPort s n)) (by omega) := rfl
@[simp] theorem updPort_pathWait : (updPort s n f).pathWait = s.pathWait := rfl
@[simp] theorem updPort_reqs : (updPort s n f).reqs = s.reqs := rfl
@[simp] theorem updPort_resvs : (updPort s n f).resvs = s.resvs := rfl
@[simp] theorem updPort_outFlits : (updPort s n f).outFlits = s.outFlits := rfl
@[simp] theorem updPort_waitFlits : (updPort s n f).waitFlits = s.waitFlits := rfl
@[simp] theorem updPort_devOut : (updPort s n f).devOut = s.devOut := rfl
@[simp] theorem updPort_got : (updPort s n f).got = s.got := rfl
@[simp] theorem updPort_spoiled : (updPort s n f).spoiled = s.spoiled := rfl
@[simp] theorem updPort_bar0 : (updPort s n f).bar0 = s.bar0 := rfl
@[simp] theorem updPort_staging : (updPort s n f).staging = s.staging := rfl
@[simp] theorem updPort_hostMem : (updPort s n f).hostMem = s.hostMem := rfl
@[simp] theorem updPort_hostCmds : (updPort s n f).hostCmds = s.hostCmds := rfl
@[simp] theorem updPort_hostEvents : (updPort s n f).hostEvents = s.hostEvents := rfl
@[simp] theorem updPort_spdm : (updPort s n f).spdm = s.spdm := rfl
@[simp] theorem updPort_identity : (updPort s n f).identity = s.identity := rfl
@[simp] theorem updPort_chain : (updPort s n f).chain = s.chain := rfl
@[simp] theorem updPort_measured : (updPort s n f).measured = s.measured := rfl
@[simp] theorem updPort_imageVersion : (updPort s n f).imageVersion = s.imageVersion := rfl
@[simp] theorem updPort_imageAt : (updPort s n f).imageAt = s.imageAt := rfl
@[simp] theorem updPort_powerCap : (updPort s n f).powerCap = s.powerCap := rfl
@[simp] theorem updPort_power : (updPort s n f).power = s.power := rfl
@[simp] theorem updPort_stallsPending : (updPort s n f).stallsPending = s.stallsPending := rfl
@[simp] theorem updPort_issue : (updPort s n f).issue = s.issue := rfl
@[simp] theorem updPort_inbox : (updPort s n f).inbox = s.inbox := rfl
@[simp] theorem updPort_timers : (updPort s n f).timers = s.timers := rfl
@[simp] theorem updPort_fresh : (updPort s n f).fresh = s.fresh := rfl
@[simp] theorem updPort_nextId : (updPort s n f).nextId = s.nextId := rfl
end updPort

section setReady
variable (s : State) (n : Nat) (on : Bool)
@[simp] theorem setReady_clock : (setReady s n on).clock = s.clock := rfl
@[simp] theorem setReady_me : (setReady s n on).me = s.me := rfl
@[simp] theorem setReady_pool : (setReady s n on).pool = s.pool := rfl
@[simp] theorem setReady_gangs : (setReady s n on).gangs = s.gangs := rfl
@[simp] theorem setReady_jobs : (setReady s n on).jobs = s.jobs := rfl
@[simp] theorem setReady_cores : (setReady s n on).cores = s.cores := rfl
@[simp] theorem setReady_dies : (setReady s n on).dies = s.dies := rfl
@[simp] theorem setReady_hbm : (setReady s n on).hbm = s.hbm := rfl
@[simp] theorem setReady_lineKey : (setReady s n on).lineKey = s.lineKey := rfl
@[simp] theorem setReady_near : (setReady s n on).near = s.near := rfl
@[simp] theorem setReady_unitJob : (setReady s n on).unitJob = s.unitJob := rfl
@[simp] theorem setReady_farLoads : (setReady s n on).farLoads = s.farLoads := rfl
@[simp] theorem setReady_farAtoms : (setReady s n on).farAtoms = s.farAtoms := rfl
@[simp] theorem setReady_nearOps : (setReady s n on).nearOps = s.nearOps := rfl
@[simp] theorem setReady_nearLoads : (setReady s n on).nearLoads = s.nearLoads := rfl
@[simp] theorem setReady_colls : (setReady s n on).colls = s.colls := rfl
@[simp] theorem setReady_rsets : (setReady s n on).rsets = s.rsets := rfl
@[simp] theorem setReady_mirrors : (setReady s n on).mirrors = s.mirrors := rfl
@[simp] theorem setReady_ready : (setReady s n on).ready = if on then s.ready ||| BitVec.ofNat 49 (2 ^ n) else s.ready &&& ~~~(BitVec.ofNat 49 (2 ^ n)) := rfl
@[simp] theorem setReady_mapped : (setReady s n on).mapped = s.mapped := rfl
@[simp] theorem setReady_meshes : (setReady s n on).meshes = s.meshes := rfl
@[simp] theorem setReady_devnum : (setReady s n on).devnum = s.devnum := rfl
@[simp] theorem setReady_numset : (setReady s n on).numset = s.numset := rfl
@[simp] theorem setReady_routes : (setReady s n on).routes = s.routes := rfl
@[simp] theorem setReady_ports : (setReady s n on).ports = s.ports := rfl
@[simp] theorem setReady_pathWait : (setReady s n on).pathWait = s.pathWait := rfl
@[simp] theorem setReady_reqs : (setReady s n on).reqs = s.reqs := rfl
@[simp] theorem setReady_resvs : (setReady s n on).resvs = s.resvs := rfl
@[simp] theorem setReady_outFlits : (setReady s n on).outFlits = s.outFlits := rfl
@[simp] theorem setReady_waitFlits : (setReady s n on).waitFlits = s.waitFlits := rfl
@[simp] theorem setReady_devOut : (setReady s n on).devOut = s.devOut := rfl
@[simp] theorem setReady_got : (setReady s n on).got = s.got := rfl
@[simp] theorem setReady_spoiled : (setReady s n on).spoiled = s.spoiled := rfl
@[simp] theorem setReady_bar0 : (setReady s n on).bar0 = s.bar0 := rfl
@[simp] theorem setReady_staging : (setReady s n on).staging = s.staging := rfl
@[simp] theorem setReady_hostMem : (setReady s n on).hostMem = s.hostMem := rfl
@[simp] theorem setReady_hostCmds : (setReady s n on).hostCmds = s.hostCmds := rfl
@[simp] theorem setReady_hostEvents : (setReady s n on).hostEvents = s.hostEvents := rfl
@[simp] theorem setReady_spdm : (setReady s n on).spdm = s.spdm := rfl
@[simp] theorem setReady_identity : (setReady s n on).identity = s.identity := rfl
@[simp] theorem setReady_chain : (setReady s n on).chain = s.chain := rfl
@[simp] theorem setReady_measured : (setReady s n on).measured = s.measured := rfl
@[simp] theorem setReady_imageVersion : (setReady s n on).imageVersion = s.imageVersion := rfl
@[simp] theorem setReady_imageAt : (setReady s n on).imageAt = s.imageAt := rfl
@[simp] theorem setReady_powerCap : (setReady s n on).powerCap = s.powerCap := rfl
@[simp] theorem setReady_power : (setReady s n on).power = s.power := rfl
@[simp] theorem setReady_stallsPending : (setReady s n on).stallsPending = s.stallsPending := rfl
@[simp] theorem setReady_issue : (setReady s n on).issue = s.issue := rfl
@[simp] theorem setReady_inbox : (setReady s n on).inbox = s.inbox := rfl
@[simp] theorem setReady_timers : (setReady s n on).timers = s.timers := rfl
@[simp] theorem setReady_fresh : (setReady s n on).fresh = s.fresh := rfl
@[simp] theorem setReady_nextId : (setReady s n on).nextId = s.nextId := rfl
end setReady

section updStrand
variable (s : State) (n : Nat) (f : Strand → Strand)
@[simp] theorem updStrand_clock : (updStrand s n f).clock = s.clock := by unfold updStrand; split <;> rfl
@[simp] theorem updStrand_gangs : (updStrand s n f).gangs = s.gangs := by unfold updStrand; split <;> rfl
@[simp] theorem updStrand_jobs : (updStrand s n f).jobs = s.jobs := by unfold updStrand; split <;> rfl
@[simp] theorem updStrand_cores : (updStrand s n f).cores = s.cores := by unfold updStrand; split <;> rfl
@[simp] theorem updStrand_dies : (updStrand s n f).dies = s.dies := by unfold updStrand; split <;> rfl
@[simp] theorem updStrand_hbm : (updStrand s n f).hbm = s.hbm := by unfold updStrand; split <;> rfl
@[simp] theorem updStrand_lineKey : (updStrand s n f).lineKey = s.lineKey := by unfold updStrand; split <;> rfl
@[simp] theorem updStrand_near : (updStrand s n f).near = s.near := by unfold updStrand; split <;> rfl
@[simp] theorem updStrand_unitJob : (updStrand s n f).unitJob = s.unitJob := by unfold updStrand; split <;> rfl
@[simp] theorem updStrand_farLoads : (updStrand s n f).farLoads = s.farLoads := by unfold updStrand; split <;> rfl
@[simp] theorem updStrand_farAtoms : (updStrand s n f).farAtoms = s.farAtoms := by unfold updStrand; split <;> rfl
@[simp] theorem updStrand_nearOps : (updStrand s n f).nearOps = s.nearOps := by unfold updStrand; split <;> rfl
@[simp] theorem updStrand_nearLoads : (updStrand s n f).nearLoads = s.nearLoads := by unfold updStrand; split <;> rfl
@[simp] theorem updStrand_colls : (updStrand s n f).colls = s.colls := by unfold updStrand; split <;> rfl
@[simp] theorem updStrand_rsets : (updStrand s n f).rsets = s.rsets := by unfold updStrand; split <;> rfl
@[simp] theorem updStrand_mirrors : (updStrand s n f).mirrors = s.mirrors := by unfold updStrand; split <;> rfl
@[simp] theorem updStrand_ready : (updStrand s n f).ready = s.ready := by unfold updStrand; split <;> rfl
@[simp] theorem updStrand_mapped : (updStrand s n f).mapped = s.mapped := by unfold updStrand; split <;> rfl
@[simp] theorem updStrand_meshes : (updStrand s n f).meshes = s.meshes := by unfold updStrand; split <;> rfl
@[simp] theorem updStrand_devnum : (updStrand s n f).devnum = s.devnum := by unfold updStrand; split <;> rfl
@[simp] theorem updStrand_numset : (updStrand s n f).numset = s.numset := by unfold updStrand; split <;> rfl
@[simp] theorem updStrand_routes : (updStrand s n f).routes = s.routes := by unfold updStrand; split <;> rfl
@[simp] theorem updStrand_ports : (updStrand s n f).ports = s.ports := by unfold updStrand; split <;> rfl
@[simp] theorem updStrand_pathWait : (updStrand s n f).pathWait = s.pathWait := by unfold updStrand; split <;> rfl
@[simp] theorem updStrand_reqs : (updStrand s n f).reqs = s.reqs := by unfold updStrand; split <;> rfl
@[simp] theorem updStrand_resvs : (updStrand s n f).resvs = s.resvs := by unfold updStrand; split <;> rfl
@[simp] theorem updStrand_outFlits : (updStrand s n f).outFlits = s.outFlits := by unfold updStrand; split <;> rfl
@[simp] theorem updStrand_waitFlits : (updStrand s n f).waitFlits = s.waitFlits := by unfold updStrand; split <;> rfl
@[simp] theorem updStrand_devOut : (updStrand s n f).devOut = s.devOut := by unfold updStrand; split <;> rfl
@[simp] theorem updStrand_got : (updStrand s n f).got = s.got := by unfold updStrand; split <;> rfl
@[simp] theorem updStrand_spoiled : (updStrand s n f).spoiled = s.spoiled := by unfold updStrand; split <;> rfl
@[simp] theorem updStrand_bar0 : (updStrand s n f).bar0 = s.bar0 := by unfold updStrand; split <;> rfl
@[simp] theorem updStrand_staging : (updStrand s n f).staging = s.staging := by unfold updStrand; split <;> rfl
@[simp] theorem updStrand_hostMem : (updStrand s n f).hostMem = s.hostMem := by unfold updStrand; split <;> rfl
@[simp] theorem updStrand_hostCmds : (updStrand s n f).hostCmds = s.hostCmds := by unfold updStrand; split <;> rfl
@[simp] theorem updStrand_hostEvents : (updStrand s n f).hostEvents = s.hostEvents := by unfold updStrand; split <;> rfl
@[simp] theorem updStrand_spdm : (updStrand s n f).spdm = s.spdm := by unfold updStrand; split <;> rfl
@[simp] theorem updStrand_identity : (updStrand s n f).identity = s.identity := by unfold updStrand; split <;> rfl
@[simp] theorem updStrand_chain : (updStrand s n f).chain = s.chain := by unfold updStrand; split <;> rfl
@[simp] theorem updStrand_measured : (updStrand s n f).measured = s.measured := by unfold updStrand; split <;> rfl
@[simp] theorem updStrand_imageVersion : (updStrand s n f).imageVersion = s.imageVersion := by unfold updStrand; split <;> rfl
@[simp] theorem updStrand_imageAt : (updStrand s n f).imageAt = s.imageAt := by unfold updStrand; split <;> rfl
@[simp] theorem updStrand_powerCap : (updStrand s n f).powerCap = s.powerCap := by unfold updStrand; split <;> rfl
@[simp] theorem updStrand_power : (updStrand s n f).power = s.power := by unfold updStrand; split <;> rfl
@[simp] theorem updStrand_stallsPending : (updStrand s n f).stallsPending = s.stallsPending := by unfold updStrand; split <;> rfl
@[simp] theorem updStrand_issue : (updStrand s n f).issue = s.issue := by unfold updStrand; split <;> rfl
@[simp] theorem updStrand_inbox : (updStrand s n f).inbox = s.inbox := by unfold updStrand; split <;> rfl
@[simp] theorem updStrand_timers : (updStrand s n f).timers = s.timers := by unfold updStrand; split <;> rfl
@[simp] theorem updStrand_fresh : (updStrand s n f).fresh = s.fresh := by unfold updStrand; split <;> rfl
@[simp] theorem updStrand_nextId : (updStrand s n f).nextId = s.nextId := by unfold updStrand; split <;> rfl
end updStrand

end Sys2Proof.Machine
end

