-- ==== Sys2Proof/Laws/Memory.lean ====
section
/-! SUPPORT. Memories: every operation keeps the canonical form, and a write is read back. -/

namespace Sys2Proof.Machine

/-- The canonical form as an order and a condition on the bytes. -/
theorem Memory.wf_iff (m : Memory) : m.wf = true ↔ m.Pairwise (fun c d => c.1 < d.1) ∧ ∀ c ∈ m, c.2 ≠ 0 := by
  induction m with
  | nil => simp [Memory.wf]
  | cons c r ih =>
    cases r with
    | nil => simp [Memory.wf]
    | cons d r =>
      simp only [Memory.wf, Bool.and_eq_true, ih, decide_eq_true_eq, bne_iff_ne, List.pairwise_cons, List.mem_cons]
      constructor
      · rintro ⟨⟨h0, h1⟩, ⟨h2, h3⟩, h4⟩
        refine ⟨⟨?_, h2, h3⟩, ?_⟩
        · rintro a (rfl | ha)
          · exact h1
          · exact Nat.lt_trans h1 (h2 a ha)
        · rintro a (rfl | ha)
          · exact h0
          · exact h4 a ha
      · rintro ⟨⟨h1, h2, h3⟩, h4⟩
        exact ⟨⟨h4 c (Or.inl rfl), h1 d (Or.inl rfl)⟩, ⟨h2, h3⟩, fun a ha => h4 a (Or.inr ha)⟩

/-- Cells laid out from `a` lie in their range, in order, and none is zero. -/
theorem cellsOf_spec (bs : List Byte) : ∀ a, (cellsOf a bs).Pairwise (fun c d => c.1 < d.1) ∧ ∀ c ∈ cellsOf a bs, c.2 ≠ 0 ∧ a ≤ c.1 ∧ c.1 < a + bs.length := by
  induction bs with
  | nil => intro a; simp [cellsOf]
  | cons b bs ih =>
    intro a
    obtain ⟨h1, h2⟩ := ih (a + 1)
    have h3 : ∀ c ∈ cellsOf (a + 1) bs, c.2 ≠ 0 ∧ a ≤ c.1 ∧ c.1 < a + (b :: bs).length := by
      intro c hc
      obtain ⟨h, h', h''⟩ := h2 c hc
      exact ⟨h, by omega, by simp only [List.length_cons]; omega⟩
    by_cases hb : b = 0
    · rw [cellsOf, if_pos hb]
      exact ⟨h1, h3⟩
    · simp only [cellsOf, hb, if_false, List.pairwise_cons, List.mem_cons, forall_eq_or_imp]
      exact ⟨⟨fun c hc => by have := (h2 c hc).2.1; omega, h1⟩, ⟨hb, Nat.le_refl _, by simp⟩, h3⟩

/-- A sublist of a canonical memory is canonical. -/
theorem Memory.wf_sublist {m n : Memory} (h : n.Sublist m) (hm : m.wf = true) : n.wf = true := by
  rw [Memory.wf_iff] at *
  exact ⟨hm.1.sublist h, fun c hc => hm.2 c (h.subset hc)⟩

/-- In a sorted list, what a test on the addresses drops fails the test throughout. -/
theorem dropWhile_ge (m : Memory) (n : Nat) (h : m.Pairwise fun c d => c.1 < d.1) : ∀ c ∈ m.dropWhile (fun c => decide (c.1 < n)), n ≤ c.1 := by
  induction m with
  | nil => simp
  | cons d r ih =>
    rw [List.pairwise_cons] at h
    by_cases hd : d.1 < n
    · simpa [List.dropWhile_cons, hd] using ih h.2
    · simp only [List.dropWhile_cons, hd, decide_false, Bool.false_eq_true, if_false, List.mem_cons]
      rintro c (rfl | hc)
      · omega
      · have := h.1 c hc; omega

/-- A write keeps the canonical form. -/
theorem Memory.write_wf (m : Memory) (a : Nat) (bs : List Byte) (h : m.wf = true) : (m.write a bs).wf = true := by
  have hm := (Memory.wf_iff m).1 h
  obtain ⟨hc1, hc2⟩ := cellsOf_spec bs a
  have ht : ∀ c ∈ m.takeWhile (fun c => decide (c.1 < a)), c.1 < a := fun c hc => by simpa using List.mem_takeWhile_imp hc
  have hd := dropWhile_ge m (a + bs.length) hm.1
  have hts := List.takeWhile_sublist (l := m) (fun c => decide (c.1 < a))
  have hds := List.dropWhile_sublist (l := m) (fun c => decide (c.1 < a + bs.length))
  rw [Memory.wf_iff, Memory.write, List.pairwise_append, List.pairwise_append]
  refine ⟨⟨⟨hm.1.sublist hts, hc1, fun c hc d hd' => ?_⟩, hm.1.sublist hds, fun c hc d hd' => ?_⟩, fun c hc => ?_⟩
  · have := ht c hc; have := (hc2 d hd').2.1; omega
  · have := hd d hd'
    rcases List.mem_append.1 hc with h' | h'
    · have := ht c h'; omega
    · have := (hc2 c h').2.2; omega
  · rcases List.mem_append.1 hc with h' | h'
    · rcases List.mem_append.1 h' with h'' | h''
      · exact hm.2 c (hts.subset h'')
      · exact (hc2 c h'').1
    · exact hm.2 c (hds.subset h')

/-- So do scattered writes. -/
theorem Memory.writeAll_wf (ws : List (Nat × Byte)) : ∀ m : Memory, m.wf = true → (m.writeAll ws).wf = true := by
  induction ws with
  | nil => exact fun _ h => h
  | cons w ws ih => exact fun m h => ih _ (Memory.write_wf m w.1 [w.2] h)

/-- Bringing a line under a key keeps HBM canonical and touches only HBM and the keys. -/
theorem rekeyLine_spec (key : Nat) (s : State) (l : Nat) :
    rekeyLine key s l = { s with hbm := (rekeyLine key s l).hbm, lineKey := (rekeyLine key s l).lineKey } ∧ (s.hbm.wf = true → (rekeyLine key s l).hbm.wf = true) := by
  unfold rekeyLine
  split
  · exact ⟨rfl, id⟩
  · split
    · exact ⟨rfl, id⟩
    · exact ⟨rfl, Memory.write_wf _ _ _⟩

/-- Everything an HBM write can do: only HBM and the keys change, and HBM stays canonical. -/
theorem hbmWrite_spec (s : State) (key a : Nat) (bs : List Byte) :
    hbmWrite s key a bs = { s with hbm := (hbmWrite s key a bs).hbm, lineKey := (hbmWrite s key a bs).lineKey } ∧ (s.hbm.wf = true → (hbmWrite s key a bs).hbm.wf = true) := by
  have key_ : ∀ (ls : List Nat) (s : State), ls.foldl (rekeyLine key) s = { s with hbm := (ls.foldl (rekeyLine key) s).hbm, lineKey := (ls.foldl (rekeyLine key) s).lineKey } ∧
      (s.hbm.wf = true → (ls.foldl (rekeyLine key) s).hbm.wf = true) := by
    intro ls
    induction ls with
    | nil => exact fun s => ⟨rfl, id⟩
    | cons l ls ih =>
      intro s
      obtain ⟨h1, h2⟩ := ih (rekeyLine key s l)
      obtain ⟨h3, h4⟩ := rekeyLine_spec key s l
      refine ⟨?_, fun h => h2 (h4 h)⟩
      rw [List.foldl_cons, h1, h3]
  obtain ⟨h1, h2⟩ := key_ (linesOf a bs.length) s
  refine ⟨?_, fun h => Memory.write_wf _ _ _ (h2 h)⟩
  unfold hbmWrite
  rw [h1]

/-- A unit that changes its job is cleared: near memory stays canonical. -/
theorem takeUnit_spec (job : Nat) (s : State) (a : Nat) :
    takeUnit job s a = { s with near := (takeUnit job s a).near, unitJob := (takeUnit job s a).unitJob } ∧ (s.near.wf = true → (takeUnit job s a).near.wf = true) := by
  unfold takeUnit
  split
  · exact ⟨rfl, id⟩
  · exact ⟨rfl, Memory.write_wf _ _ _⟩

/-- Everything a near write can do: only near memory and its units change, and it stays canonical. -/
theorem nearWrite_spec (s : State) (job a : Nat) (bs : List Byte) :
    nearWrite s job a bs = { s with near := (nearWrite s job a bs).near, unitJob := (nearWrite s job a bs).unitJob } ∧ (s.near.wf = true → (nearWrite s job a bs).near.wf = true) := by
  have key_ : ∀ (us : List Nat) (s : State), us.foldl (takeUnit job) s = { s with near := (us.foldl (takeUnit job) s).near, unitJob := (us.foldl (takeUnit job) s).unitJob } ∧
      (s.near.wf = true → (us.foldl (takeUnit job) s).near.wf = true) := by
    intro us
    induction us with
    | nil => exact fun s => ⟨rfl, id⟩
    | cons u us ih =>
      intro s
      obtain ⟨h1, h2⟩ := ih (takeUnit job s u)
      obtain ⟨h3, h4⟩ := takeUnit_spec job s u
      refine ⟨?_, fun h => h2 (h4 h)⟩
      rw [List.foldl_cons, h1, h3]
  obtain ⟨h1, h2⟩ := key_ (unitsOf a bs.length) s
  unfold nearWrite
  split
  · exact ⟨rfl, id⟩
  · refine ⟨?_, fun h => Memory.write_wf _ _ _ (h2 h)⟩
    simp only
    rw [h1]

/-- Zeroing a page keeps HBM canonical. -/
theorem zeroRange_wf (s : State) (key a n : Nat) (h : s.hbm.wf = true) : (zeroRange s key a n).hbm.wf = true := Memory.wf_sublist List.filter_sublist h

/-- The memories right after reset are canonical. -/
theorem reset_memories : State.reset.hbm.wf = true ∧ State.reset.near.wf = true ∧ State.reset.staging.wf = true ∧ State.reset.hostMem.wf = true := ⟨rfl, rfl, rfl, rfl⟩

end Sys2Proof.Machine
end

