-- ==== Sys2Proof/Laws/Values.lean ====
section
/-! SUPPORT. The values of the scalar instructions as bit vector arithmetic (R126 to R133). -/

namespace Sys2Proof.Machine

theorem sxNat_eq (x n : Nat) : sxNat x n = (BitVec.ofNat n x).toInt := by
  unfold sxNat
  by_cases h : n = 0
  · subst h; rw [BitVec.toInt_zero_length]; simp
  · simp only [h, if_false]
    rw [BitVec.toInt_eq_msb_cond]
    have hm : (BitVec.ofNat n x).msb = (x % 2 ^ n).testBit (n - 1) := by
      rw [BitVec.msb_eq_getLsbD_last, BitVec.getLsbD_ofNat, Nat.testBit_mod_two_pow]
    rw [hm]; simp

theorem wrapN_eq (x : Int) (n : Nat) : wrapN x n = (BitVec.ofInt n x).toNat := by
  simp [wrapN, BitVec.toNat_ofInt]

theorem sx64_eq (x n : Nat) : sx64 x n = (BitVec.ofNat n x).signExtend 64 := by
  rw [sx64, sxNat_eq, BitVec.signExtend]

theorem atWidth_w32 (x : Nat) : atWidth .w32 x = (BitVec.ofNat 32 x).signExtend 64 := sx64_eq x 32

theorem ofNat_setWidth (x : Word) (n : Nat) : BitVec.ofNat n x.toNat = x.setWidth n := by
  apply BitVec.eq_of_toNat_eq; simp

theorem atWidth_word (w : W2) (x : Word) : atWidth w x.toNat = match w with | .w64 => x | .w32 => (x.setWidth 32).signExtend 64 := by
  cases w
  · simp [atWidth]
  · simp only [atWidth_w32, ofNat_setWidth x 32]

theorem mulhValue_eq (f : MulhF) (a b : Word) : mulhValue f a b = match f with
    | .signed => ((a.signExtend 128 * b.signExtend 128) >>> 64).setWidth 64
    | .unsigned => ((a.setWidth 128 * b.setWidth 128) >>> 64).setWidth 64
    | .mixed => ((a.signExtend 128 * b.setWidth 128) >>> 64).setWidth 64 := by
  have hs : ∀ (x y : BitVec 128) (p : Int), (x * y).toInt = p.bmod (2 ^ 128) → ((x * y) >>> 64).setWidth 64 = BitVec.ofInt 64 (p / 2 ^ 64) := by
    intro x y p hp
    apply BitVec.eq_of_toNat_eq
    have hq : ((x * y).toNat : Int) = p % 2 ^ 128 := by
      have h1 : (x * y).toInt % ((2 ^ 128 : Nat) : Int) = ((x * y).toNat : Int) % ((2 ^ 128 : Nat) : Int) := by
        rw [BitVec.toInt_eq_toNat_bmod, Int.bmod_emod]
      rw [hp, Int.bmod_emod] at h1
      have hlt := (x * y).isLt
      rw [Int.emod_eq_of_lt (a := ((x * y).toNat : Int)) (by omega) (by omega)] at h1
      rw [← h1]; norm_num
    simp only [BitVec.toNat_setWidth, BitVec.toNat_ushiftRight, Nat.shiftRight_eq_div_pow, BitVec.toNat_ofInt]
    omega
  cases f <;> simp only [mulhValue]
  · symm; apply hs
    rw [BitVec.toInt_mul, BitVec.toInt_signExtend_of_le (by omega), BitVec.toInt_signExtend_of_le (by omega)]
  · apply BitVec.eq_of_toNat_eq
    have h1 := a.isLt; have h2 := b.isLt
    have h3 : a.toNat * b.toNat < 2 ^ 128 := by
      calc a.toNat * b.toNat < 2 ^ 64 * 2 ^ 64 := Nat.mul_lt_mul'' h1 h2
        _ = 2 ^ 128 := by norm_num
    simp only [BitVec.toNat_ofNat, BitVec.toNat_setWidth, BitVec.toNat_ushiftRight, BitVec.toNat_mul, Nat.shiftRight_eq_div_pow]
    rw [Nat.mod_eq_of_lt (a := a.toNat) (by omega), Nat.mod_eq_of_lt (a := b.toNat) (by omega), Nat.mod_eq_of_lt h3]
  · symm; apply hs
    rw [BitVec.toInt_mul, BitVec.toInt_signExtend_of_le (by omega)]
    congr 2
    rw [BitVec.toInt_setWidth]
    have := b.isLt
    rw [Int.bmod_eq_of_le] <;> omega

/-- The bit patterns of DIV and REM at a width as bit vector division. -/
theorem divRem_at (n : Nat) (sg : Bool) (a b : Nat) :
    let x := BitVec.ofNat n a
    let y := BitVec.ofNat n b
    (if b % 2 ^ n = 0 then (2 ^ n - 1, a % 2 ^ n)
     else if sg then (wrapN ((sxNat (a % 2 ^ n) n).tdiv (sxNat (b % 2 ^ n) n)) n, wrapN ((sxNat (a % 2 ^ n) n).tmod (sxNat (b % 2 ^ n) n)) n)
     else (a % 2 ^ n / (b % 2 ^ n), a % 2 ^ n % (b % 2 ^ n))) =
    ((if y = 0 then BitVec.allOnes n else if sg then x.sdiv y else x / y).toNat, (if y = 0 then x else if sg then x.srem y else x % y).toNat) := by
  intro x y
  have hy : (b % 2 ^ n = 0) ↔ y = 0 := by
    constructor
    · intro h; apply BitVec.eq_of_toNat_eq; simpa [y] using h
    · intro h; have := congrArg BitVec.toNat h; simpa [y] using this
  have hx : ∀ z, sxNat (z % 2 ^ n) n = (BitVec.ofNat n z).toInt := by
    intro z; rw [sxNat_eq]; congr 1; apply BitVec.eq_of_toNat_eq; simp
  by_cases h : y = 0
  · rw [if_pos (hy.mpr h), if_pos h, if_pos h]; simp [x]
  · rw [if_neg (fun e => h (hy.mp e)), if_neg h, if_neg h]
    cases sg
    · simp [x, y]
    · simp only [if_true, hx, wrapN_eq]
      congr 2
      · apply BitVec.eq_of_toInt_eq; rw [BitVec.toInt_sdiv, BitVec.toInt_ofInt]
      · apply BitVec.eq_of_toInt_eq
        rw [BitVec.toInt_ofInt, ← BitVec.toInt_srem, BitVec.toInt_bmod_cancel]

theorem mod_mod_pow (a n : Nat) : a % 2 ^ n % 2 ^ n = a % 2 ^ n := Nat.mod_mod _ _

/-- DIV and REM at 64 bits. -/
theorem divRem_64 (sg : Bool) (a b : Word) :
    divResult (if sg then .s64 else .u64) (divRem (if sg then .s64 else .u64) a.toNat b.toNat).1 = (if b = 0 then BitVec.allOnes 64 else if sg then a.sdiv b else a / b) ∧
    divResult (if sg then .s64 else .u64) (divRem (if sg then .s64 else .u64) a.toNat b.toNat).2 = (if b = 0 then a else if sg then a.srem b else a % b) := by
  have h := divRem_at 64 sg a.toNat b.toNat
  simp only [BitVec.ofNat_toNat, BitVec.setWidth_eq] at h
  have e : divRem (if sg then .s64 else .u64) a.toNat b.toNat = _ := Eq.trans (by cases sg <;> rfl) h
  rw [e]
  constructor <;> (cases sg <;> simp [divResult, divWidth, -BitVec.toNat_udiv, -BitVec.toNat_umod])

/-- DIV and REM at 32 bits. -/
theorem divRem_32 (sg : Bool) (a b : Word) :
    divResult (if sg then .s32 else .u32) (divRem (if sg then .s32 else .u32) a.toNat b.toNat).1 =
      (if b.setWidth 32 = 0 then BitVec.allOnes 32 else if sg then (a.setWidth 32).sdiv (b.setWidth 32) else a.setWidth 32 / b.setWidth 32).signExtend 64 ∧
    divResult (if sg then .s32 else .u32) (divRem (if sg then .s32 else .u32) a.toNat b.toNat).2 =
      (if b.setWidth 32 = 0 then a.setWidth 32 else if sg then (a.setWidth 32).srem (b.setWidth 32) else a.setWidth 32 % b.setWidth 32).signExtend 64 := by
  have h := divRem_at 32 sg a.toNat b.toNat
  simp only [ofNat_setWidth] at h
  have e : divRem (if sg then .s32 else .u32) a.toNat b.toNat = _ := Eq.trans (by cases sg <;> rfl) h
  rw [e]
  constructor <;> (cases sg <;> simp [divResult, divWidth, sx64_eq, -BitVec.toNat_udiv, -BitVec.toNat_umod])

/-- A shift of the kinds of R128 as a bit vector operation. -/
theorem shiftValue_eq (k : ShiftK) (w : W2) (a : Word) (c : Nat) : shiftValue k w a c = match w with
    | .w64 => (match k with | .shl => a <<< (c % 64) | .shr => a >>> (c % 64) | .sar => a.sshiftRight (c % 64) | .rot => a.rotateRight (c % 64))
    | .w32 => (match k with
      | .shl => a.setWidth 32 <<< (c % 32)
      | .shr => a.setWidth 32 >>> (c % 32)
      | .sar => (a.setWidth 32).sshiftRight (c % 32)
      | .rot => (a.setWidth 32).rotateRight (c % 32)).signExtend 64 := by
  have gen : ∀ (n : Nat) (hn : 0 < n) (x : BitVec n), BitVec.ofNat n (match k with
      | .shl => (x.toNat <<< (c % n)) % 2 ^ n
      | .shr => x.toNat >>> (c % n)
      | .sar => wrapN (sxNat x.toNat n / 2 ^ (c % n)) n
      | .rot => (x.toNat >>> (c % n) ||| x.toNat <<< (n - c % n)) % 2 ^ n) =
      (match k with | .shl => x <<< (c % n) | .shr => x >>> (c % n) | .sar => x.sshiftRight (c % n) | .rot => x.rotateRight (c % n)) := by
    intro n hn x
    have hsr : x.toNat >>> (c % n) % 2 ^ n = x.toNat >>> (c % n) := Nat.mod_eq_of_lt (lt_of_le_of_lt (Nat.shiftRight_le _ _) x.isLt)
    cases k <;> simp only
    · apply BitVec.eq_of_toNat_eq; simp
    · apply BitVec.eq_of_toNat_eq; simp [hsr]
    · rw [wrapN_eq, sxNat_eq]
      simp only [BitVec.ofNat_toNat, BitVec.setWidth_eq]
      rw [BitVec.sshiftRight, Int.shiftRight_eq_div_pow]; norm_cast
    · apply BitVec.eq_of_toNat_eq
      rw [BitVec.toNat_rotateRight]
      simp [Nat.or_mod_two_pow, hsr]
  cases w
  · have := gen 64 (by omega) a
    simp only [shiftValue, w2Bytes]
    rw [← this]
    simp only [atWidth]
    cases k <;> simp [Nat.mod_eq_of_lt a.isLt]
  · have := gen 32 (by omega) (a.setWidth 32)
    simp only [shiftValue, w2Bytes]
    rw [← this, atWidth_w32]
    cases k <;> simp

theorem cmpHolds_eq (f : CmpC) (a b : Word) : cmpHolds f a b = match f with
    | .eq => decide (a = b) | .ne => decide (a ≠ b) | .lt => decide (a.toInt < b.toInt) | .le => decide (a.toInt ≤ b.toInt)
    | .ltu => decide (a.toNat < b.toNat) | .leu => decide (a.toNat ≤ b.toNat) := by
  cases f <;> simp [cmpHolds, BitVec.slt, BitVec.sle, BitVec.ult, BitVec.ule, bne, BEq.beq]

theorem minmaxValue_eq (f : MinMaxF) (a b : Word) : minmaxValue f a b = match f with
    | .min => if a.toInt ≤ b.toInt then a else b
    | .max => if a.toInt ≤ b.toInt then b else a
    | .minu => if a.toNat ≤ b.toNat then a else b
    | .maxu => if a.toNat ≤ b.toNat then b else a := by
  have hi : ∀ x y : Word, x.toInt = y.toInt → x = y := fun x y => BitVec.eq_of_toInt_eq
  have hn : ∀ x y : Word, x.toNat = y.toNat → x = y := fun x y => BitVec.eq_of_toNat_eq
  cases f <;> simp only [minmaxValue, BitVec.slt, BitVec.ult, decide_eq_true_eq] <;> split_ifs <;> first | rfl | omega | (apply hi; omega) | (apply hn; omega)

theorem popcount_eq (n x : Nat) : popcount n x = (List.range n).countP fun k => x.testBit k := by
  induction n generalizing x with
  | zero => rfl
  | succ n ih =>
    rw [List.range_succ_eq_map, List.countP_cons, List.countP_map, popcount, ih]
    have e : ((fun k => x.testBit k) ∘ Nat.succ) = fun k => (x / 2).testBit k := by funext k; simp [Nat.testBit_succ]
    rw [e]
    simp only [Nat.testBit_zero, decide_eq_true_eq]
    split <;> omega

theorem ctz_eq (n x : Nat) : ctz n x = ((List.range n).takeWhile fun k => !x.testBit k).length := by
  induction n generalizing x with
  | zero => rfl
  | succ n ih =>
    rw [List.range_succ_eq_map, List.takeWhile_cons, ctz]
    simp only [Nat.testBit_zero]
    by_cases h : x % 2 = 1
    · simp [h]
    · have e : ((fun k => !x.testBit k) ∘ Nat.succ) = fun k => !(x / 2).testBit k := by funext k; simp [Nat.testBit_succ]
      simp only [h, if_false, decide_false, Bool.not_false, if_true, List.length_cons, List.takeWhile_map, List.length_map, e, ih]
      omega

theorem clz_eq (n x : Nat) (h : x < 2 ^ n) : clz n x = ((List.range n).takeWhile fun k => !x.testBit (n - 1 - k)).length := by
  unfold clz
  split
  · rename_i hx; subst hx
    have e : ∀ l : List Nat, l.takeWhile (fun k => !Nat.testBit 0 (n - 1 - k)) = l := by
      intro l; induction l with
      | nil => rfl
      | cons y ys ih => simp
    rw [e]; simp
  · rename_i hx
    have hlog : Nat.log2 x < n := (Nat.log2_lt hx).mpr h
    -- bits above the leading one are zero, and that bit is one
    have hone : x.testBit (Nat.log2 x) = true := Nat.testBit_log2 hx
    have hzero : ∀ k, Nat.log2 x < k → x.testBit k = false := fun k hk => Nat.testBit_lt_two_pow (lt_of_lt_of_le (Nat.lt_log2_self (n := x)) (Nat.pow_le_pow_right (by omega) hk))
    have gen : ∀ (m s : Nat), s ≤ n - 1 - Nat.log2 x → s + m = n → ((List.range' s m).takeWhile fun k => !x.testBit (n - 1 - k)).length = n - 1 - Nat.log2 x - s := by
      intro m
      induction m with
      | zero => intro s h1 h2; omega
      | succ m ih =>
        intro s h1 h2
        rw [List.range'_succ, List.takeWhile_cons]
        by_cases hs : s = n - 1 - Nat.log2 x
        · have : n - 1 - s = Nat.log2 x := by omega
          simp [this, hone]; omega
        · rw [hzero (n - 1 - s) (by omega)]
          simp only [Bool.not_false, if_true, List.length_cons]
          rw [ih (s + 1) (by omega) (by omega)]; omega
    have := gen n 0 (by omega) (by omega)
    rw [List.range_eq_range', this]; omega

/-- EXT as a field of its own width, extended (R131). -/
theorem extValue_eq (sg : Bool) (a w : Word) :
    extValue sg a w =
      if sg then (BitVec.ofNat (min (w.toNat % 64 + min (w.toNat / 64 % 128) 64) 64 - w.toNat % 64) (a.toNat / 2 ^ (w.toNat % 64))).signExtend 64
      else (BitVec.ofNat (min (w.toNat % 64 + min (w.toNat / 64 % 128) 64) 64 - w.toNat % 64) (a.toNat / 2 ^ (w.toNat % 64))).setWidth 64 := by
  have hf : fieldOf w = (w.toNat % 64, min (w.toNat % 64 + min (w.toNat / 64 % 128) 64) 64 - w.toNat % 64) := by
    simp [fieldOf, wbits, bitsOf, Nat.shiftRight_eq_div_pow]
  unfold extValue
  rw [hf]
  simp only [bitsOf, Nat.shiftRight_eq_div_pow]
  cases sg
  · simp only [Bool.false_eq_true, if_false]
    apply BitVec.eq_of_toNat_eq; simp
  · simp only [if_true, sx64_eq]
    congr 1
    apply BitVec.eq_of_toNat_eq; simp

/-- INS as a masked replacement (R131). -/
theorem insValue_eq (a w d : Word) :
    let p := w.toNat % 64
    let n := min (w.toNat % 64 + min (w.toNat / 64 % 128) 64) 64 - w.toNat % 64
    let m : Word := BitVec.ofNat 64 ((2 ^ n - 1) * 2 ^ p)
    insValue a w d = (d &&& ~~~m) ||| ((a <<< p) &&& m) := by
  intro p n m
  have hf : fieldOf w = (p, n) := by simp [fieldOf, wbits, bitsOf, Nat.shiftRight_eq_div_pow, p, n]
  unfold insValue
  rw [hf]
  simp only [bitsOf, Nat.shiftRight_zero, Nat.shiftLeft_eq]
  congr 1
  apply BitVec.eq_of_getLsbD_eq
  intro i hi
  have hm : ((2 ^ n - 1) * 2 ^ p).testBit i = (decide (p ≤ i) && decide (i - p < n)) := by
    rw [← Nat.shiftLeft_eq, Nat.testBit_shiftLeft, Nat.testBit_two_pow_sub_one]
  have hv : (a.toNat % 2 ^ n * 2 ^ p).testBit i = (decide (p ≤ i) && (decide (i - p < n) && a.toNat.testBit (i - p))) := by
    rw [← Nat.shiftLeft_eq, Nat.testBit_shiftLeft, Nat.testBit_mod_two_pow]
  simp only [BitVec.getLsbD_and, BitVec.getLsbD_shiftLeft, BitVec.getLsbD_ofNat, m, hm, hv, hi, decide_true, Bool.true_and]
  by_cases hp : p ≤ i
  · simp [hp, Nat.not_lt.mpr hp, BitVec.getLsbD]; cases a.toNat.testBit (i - p) <;> simp
  · simp [hp]

theorem movhiValue_eq (d : Word) (i : BitVec 16) : movhiValue d i = (i ++ d.setWidth 16 : BitVec 32).signExtend 64 := by
  rw [movhiValue, sx64_eq]
  congr 1
  apply BitVec.eq_of_toNat_eq
  have := i.isLt
  simp only [BitVec.toNat_ofNat, BitVec.toNat_append, BitVec.toNat_setWidth, Nat.shiftLeft_eq]
  rw [Nat.mod_eq_of_lt (by omega), Nat.mul_comm, ← Nat.two_pow_add_eq_or_of_lt (by omega)]
  omega

theorem movhiWValue_eq (d : Word) (x : Half) : movhiWValue d x = x ++ d.setWidth 32 := by
  unfold movhiWValue
  apply BitVec.eq_of_getLsbD_eq
  intro i hi
  have hc : (0xFFFFFFFF : Word) = BitVec.ofNat 64 (2 ^ 32 - 1) := by decide
  rw [hc]
  simp only [BitVec.getLsbD_or, BitVec.getLsbD_and, BitVec.getLsbD_ofNat, Nat.testBit_two_pow_sub_one, BitVec.getLsbD_shiftLeft, BitVec.getLsbD_setWidth, BitVec.getLsbD_append, hi,
    decide_true, Bool.true_and]
  by_cases h : i < 32
  · simp [h]
  · have : i - 32 < 64 := by omega
    simp [h, this]

end Sys2Proof.Machine
end

