-- ==== Sys2Proof/Tests/Slice0.lean ====
section
/-! SUPPORT. Tests: ill-formed terms, decoded words, single steps, and for each statement states that meet its hypotheses, clause by clause. Expected words and values are the spec's own examples or computed by hand from its rules. -/

open Sys2Proof Sys2Proof.Machine Sys2Proof.Claims

namespace Sys2Proof.Tests

set_option Elab.async false

/-! ## States -/

/-- One strand, resident on core 0, between bundles, at ck 100. -/
def st : State := { State.reset.withFetchWord 32 0 with clock := 100 }

/-- A register of the strand at issue with a content. -/
def setR (r : RegId) (y : RegVal) (s : State) : State := { s with me := { s.me with regs := s.me.regs.put r y } }

/-- An s register FULL. -/
def setS (i : BitVec 6) (x : Word) : State → State := setR (.s i) ⟨x.setWidth 1024, .full, 0⟩

/-- A v register FULL. -/
def setV (i : BitVec 5) (x : VVal) : State → State := setR (.v i) ⟨x, .full, 0⟩

/-- A p register FULL. -/
def setP (i : BitVec 4) (x : PVal) : State → State := setR (.p i) ⟨x.setWidth 1024, .full, 0⟩

/-- A register PENDING under a tag. -/
def pend (r : RegId) (g : Tag) (s : State) : State := { setR r ⟨0, .pending, g⟩ s with me := { (setR r ⟨0, .pending, g⟩ s).me with serials := [(g.toNat % 1024, false)] } }

/-- The strand at issue changed. -/
def me' (f : Strand → Strand) (s : State) : State := { s with me := f s.me }

/-- Its gang changed. -/
def gang' (f : Gang → Gang) (s : State) : State := { s with gangs := s.gangs.map f }

/-- The die 0 changed. -/
def die' (f : Die → Die) (s : State) : State := updDie s 0 f

/-- Core 0 changed. -/
def core' (f : Core → Core) (s : State) : State := updCore s 0 f

/-- The next state, or the state itself where exec stops. -/
def after_ (i : Instr) (s : State) : State := outState s (exec i s)

/-! ## Well-formed terms -/

theorem test_wf_sets : wellFormed (.sets 0 .clock 3) = false ∧ wellFormed (.sets 0 .nearstall 3) = true := by decide
theorem test_wf_shi : wellFormed (.shi 0 1 2 .w32 .shl 32) = false ∧ wellFormed (.shi 0 1 2 .w32 .shl 31) = true := by decide
theorem test_wf_vadd : wellFormed (.vadd 0 1 2 3 .f32 true) = false ∧ wellFormed (.vadd 0 1 2 3 .f32 false) = true ∧ wellFormed (.vsub 0 1 2 3 .bit false) = false := by decide
theorem test_wf_vmul : wellFormed (.vmul 0 1 2 3 .bf16 true) = false ∧ wellFormed (.vmul 0 1 2 3 .e4m3 false) = false := by decide
theorem test_wf_vfma : wellFormed (.vfma 0 1 2 3 .mx8 false) = false ∧ wellFormed (.vfma 0 1 2 3 .f32 false) = true := by decide
theorem test_wf_vmin : wellFormed (.vmin 0 1 2 3 .e5m2) = false ∧ wellFormed (.vmax 0 1 2 3 .bit) = false := by decide
theorem test_wf_vuna : wellFormed (.vuna 0 1 2 .n8 true) = false ∧ wellFormed (.vuna 0 1 2 .i8 true) = true := by decide
theorem test_wf_vshift : wellFormed (.vshl 0 1 2 3 .f16) = false ∧ wellFormed (.vshr 0 1 2 3 .f32 true) = false := by decide
theorem test_wf_vcmp : wellFormed (.vcmp 0 1 2 3 .i8 .un) = false ∧ wellFormed (.vcmp 0 1 2 3 .f32 .un) = true := by decide
theorem test_wf_vcvt : wellFormed (.vcvt 0 1 2 .f32 .mx8 false .rne) = false ∧ wellFormed (.vcvt 0 2 3 .mx8 .f32 false .rne) = false ∧ wellFormed (.vcvt 0 2 4 .mx8 .f32 false .rne) = true := by decide
theorem test_wf_vqnt : wellFormed (.vqnt 0 1 2 3 .i32 false) = false ∧ wellFormed (.vqnt 0 1 2 3 .n16 false) = true := by decide
theorem test_wf_vred : wellFormed (.vred 0 1 2 .f32 .xor) = false ∧ wellFormed (.vscan 0 1 2 .e4m3 .add) = false := by decide
theorem test_wf_vmoves : wellFormed (.vperm 0 1 2 3 .bit) = false ∧ wellFormed (.vmovs 0 1 2 3 .bit) = false ∧ wellFormed (.vins 0 1 2 3 .bit) = false ∧ wellFormed (.vbcast 0 1 2 .bit false) = false := by decide
theorem test_wf_vidx : wellFormed (.vidx 0 1 .f32) = false ∧ wellFormed (.vpopc 0 1 2 .bf16) = false := by decide
theorem test_wf_vcx : wellFormed (.vcx 0 1 2 3 .i64 4) = false ∧ wellFormed (.vcx 0 1 2 3 .i64 3) = true ∧ wellFormed (.vcx 0 1 2 3 .bit 0) = false := by decide
theorem test_wf_vmatch : wellFormed (.vmatch 0 1 2 3 .i32) = false ∧ wellFormed (.vmatch 0 1 2 3 .n16) = true := by decide
theorem test_wf_vbits : wellFormed (.vbitsTest 0 1 2 3 .f16) = false ∧ wellFormed (.vbitsSet 0 1 2 3 .bit) = false ∧ wellFormed (.vbitsClear 0 1 2 3 .i16) = true := by decide
theorem test_wf_gather : wellFormed (.ldng 0 1 2 .bit 3) = false ∧ wellFormed (.ldfg 0 1 2 .bit 3) = false ∧ wellFormed (.stns 0 1 2 .plain .bit 3) = false := by decide
theorem test_wf_atomics : wellFormed (.atmn 0 .w64 .fadd 1 2 3) = false ∧ wellFormed (.atmf 0 .w64 .fadd 1 2 3) = false ∧ wellFormed (.redf 0 .w32 .swap 1 2) = false ∧ wellFormed (.redf 0 .w32 .fadd 1 2) = true := by decide
theorem test_wf_xstat : wellFormed (.xstat 0 5 1) = false ∧ wellFormed (.xstat 0 4 1) = true := by decide
theorem test_wf_events : wellFormed (.heldEventEntry 65536) = false ∧ wellFormed (.enqueue 8 0 0) = false ∧ wellFormed (.ringRefill 0 64) = false ∧ wellFormed (.dispatch 8) = false := by decide
theorem test_wf_events2 : wellFormed (.arrayBeat 1536) = false ∧ wellFormed (.portDown 16) = false ∧ wellFormed (.unitMapOut (.cluster 0 3)) = false ∧ wellFormed (.unitReadyReport (.stack 7)) = true := by decide

/-! ## Words that the spec writes out -/

theorem test_word_control : decodeSlot 0 none 0x05000781 = .ok (.loop 0 30 1) ∧ decodeSlot 0 none 0x012FFFFD = .ok (.br 2 (-3)) ∧ decodeSlot 0 none 0x06001907 = .ok (.loopi 0 100 7) := by decide +kernel
theorem test_word_control2 : decodeSlot 0 none 0x23000500 = .ok (.resume 0 5) ∧ decodeSlot 0 none 0x0D401400 = .ok (.sleep 4 20) ∧ decodeSlot 0 none 0x1C002005 = .ok (.gets 0 .readymap 5) := by decide +kernel
theorem test_word_scalar : decodeSlot 1 none 0x04031000 = .ok (.add 0 3 4 (.reg 0) .w64) ∧ decodeSlot 1 none 0x18041462 = .ok (.div 0 4 5 (.reg 6) .s32) := by decide +kernel
theorem test_word_vector : decodeSlot 3 none 0x04445308 = .ok (.vadd 1 2 5 6 .i16 false) ∧ decodeSlot 3 none 0x3C0684D2 = .ok (.vcvt 0 3 8 .f32 .e4m3 false .sto) := by decide +kernel
theorem test_word_array : decodeSlot 4 none 0x20009144 = .ok (.aread 0 9 5 4) ∧ decodeSlot 4 none 0x140460C2 = .ok (.astream 0 1 6 3 2) := by decide +kernel
theorem test_word_memory : decodeSlot 5 none 0x28040809 = .ok (.ldnt 0 4 2 2 .b2) ∧ decodeSlot 6 none 0x18200284 = .ok (.redf 0 .w64 .add 10 4) := by decide +kernel
theorem test_word_transfer : decodeSlot 7 none 0x0C046102 = .ok (.copyq 0 1 6 4 1) ∧ decodeSlot 7 none 0x1C0031C9 = .ok (.send 0 3 7 9) ∧ decodeSlot 7 none 0x2C009008 = .ok (.coll 0 9 8) := by decide +kernel
theorem test_word_reserved : decodeSlot 0 none 0x0F000000 = .error .opcode ∧ decodeSlot 6 none 0x28000000 = .error .opcode ∧ decodeSlot 5 none 0x0C200000 = .error .field := by decide +kernel
theorem test_table_word : decodeTableWord 32 0x04031000 = some (.add 0 3 4 (.reg 0) .w64) ∧ decodeTableWord 64 0 = none := by decide +kernel

/-! ## Steps of the fetched word -/

theorem test_step_add : (match step (State.reset.withFetchWord 32 0x04031000) with
    | .next t => t.me.pc == fetchPc + 32 && t.timers.length == 1 && (t.me.regs.get (.s 3)).st == .pending
    | _ => false) = true := by decide +kernel
theorem test_step_nop : (match step (State.reset.withFetchWord 32 0) with
    | .next t => t.me.pc == fetchPc + 32 && t.timers == []
    | _ => false) = true := by decide +kernel
theorem test_step_reset : (match step State.reset with
    | .next t => t == { State.reset with clock := 1 }
    | _ => false) = true := by decide +kernel

/-! ## Scalar and vector statements -/

theorem test_arithmetic : arithResult st (.addi 15 3 4 (-1)) = some (3, 1, sVal st 4 + (-1 : Word)) ∧ Ready st (.addi 0 3 4 (-1)) := ⟨rfl, by decide +kernel⟩
theorem test_divider_free : (∃ d n x, arithResult st (.div 0 4 5 (.reg 6) .s64) = some (d, n, x)) ∧ Ready st (.div 0 4 5 (.reg 6) .s64) ∧ divides (.div 0 4 5 (.reg 6) .s64) = true ∧
    (getCore st (coreOf st.me)).divBusy ≤ st.clock ∧ st.gangs.any (fun g => g.gid == st.me.gid) = true := ⟨⟨_, _, _, rfl⟩, by decide +kernel⟩
theorem test_divider_busy : st.clock < (getCore (core' (fun c => { c with divBusy := 101 }) st) 0).divBusy ∧ Ready (core' (fun c => { c with divBusy := 101 }) st) (.rem 0 4 5 (.reg 6) .s64) := by decide +kernel
theorem test_logic : (∃ d x, logicResult st (.rot 0 4 5 (.lit 64) .w64) = some (d, x)) ∧ Ready st (.rot 0 4 5 (.lit 64) .w64) := ⟨⟨_, _, rfl⟩, by decide +kernel⟩
theorem test_compares : (∃ d c, compared st (.cmpi 0 0 5 .lt 0) = some (d, c)) ∧ Ready st (.cmpi 0 0 5 .lt 0) := ⟨⟨_, _, rfl⟩, by decide +kernel⟩
theorem test_fields : (∃ d x, fieldResult st (.sel 0 17 15 (.reg 0) 5) = some (d, x)) ∧ Ready st (.sel 0 17 15 (.reg 0) 5) := ⟨⟨_, _, rfl⟩, by decide +kernel⟩
theorem test_constants : (∃ d x, constResult st (.lea 0 63 62 (.lit 0x80000000) 3) = some (d, x)) ∧ Ready st (.lea 0 63 62 (.lit 0x80000000) 3) := ⟨⟨_, _, rfl⟩, by decide +kernel⟩
theorem test_float : (∃ d n b, floatResult st (.fop 0 3 4 (.reg 5) .fma) = some (d, n, b)) ∧ Ready st (.fop 0 3 4 (.reg 5) .fma) := ⟨⟨_, _, _, rfl⟩, by decide +kernel⟩
theorem test_fcmp : Ready st (.fcmp 0 15 4 (.lit 0x7FC00000) .un) := by decide +kernel
theorem test_mov_full : Calm st ∧ GuardOn st (.mov 0 3 4) ∧ (st.me.regs.get (.s 4)).st = .full := by decide +kernel
theorem test_mov_pending : Calm (pend (.s 4) 0x405 st) ∧ GuardOn (pend (.s 4) 0x405 st) (.mov 0 4 4) ∧ ((pend (.s 4) 0x405 st).me.regs.get (.s 4)).st = .pending ∧ regFixed (.s 4) = false ∧ regFixed (.s 0) = true := by decide +kernel
theorem test_mov_predicate : Calm (pend (.p 4) 0x405 st) ∧ GuardOn (pend (.p 4) 0x405 st) (.movPredicate 0 0 4) ∧ ((pend (.p 4) 0x405 st).me.regs.get (.p 4)).st = .pending := by decide +kernel
theorem test_vector_merge : (∃ g d t n f, vecMerge st (.vadd 1 2 5 6 .i16 true) = some (g, d, t, n, f)) ∧ wellFormed (.vadd 1 2 5 6 .i16 true) = true ∧ Ready st (.vadd 1 2 5 6 .i16 true) :=
  ⟨⟨_, _, _, _, _, rfl⟩, by decide +kernel⟩
theorem test_vector_on : on (setP 1 4 st) 1 16 1 ∧ ¬ on (setP 1 4 st) 1 16 0 := by unfold on; decide +kernel
theorem test_vector_test : (∃ g d t f, vecTest st (.vmatch 1 2 5 6 .i8) = some (g, d, t, f)) ∧ wellFormed (.vmatch 1 2 5 6 .i8) = true ∧ Ready st (.vmatch 1 2 5 6 .i8) := ⟨⟨_, _, _, _, rfl⟩, by decide +kernel⟩
theorem test_vred : wellFormed (.vred 0 7 4 .f32 .add) = true ∧ Ready st (.vred 0 7 4 .f32 .add) ∧ wellFormed (.vscan 3 7 7 .i64 .xor) = true ∧ Ready st (.vscan 3 7 7 .i64 .xor) := by decide +kernel
theorem test_vmoves : Ready st (.vsel 1 2 3 4 .bit) ∧ wellFormed (.vsel 1 2 3 4 .bit) = true ∧ Ready st (.vmovs 0 1 2 3 .i64) ∧ Ready st (.vins 0 1 2 3 .i8) ∧ Ready st (.vcx 0 1 2 3 .f32 4) ∧ wellFormed (.vcx 0 1 2 3 .f32 4) = true := by decide +kernel
theorem test_vmovs_edge : 1024 / (Ty.i64).width ≤ (sVal (setS 3 16 st) 3).toNat ∧ (sVal (setS 3 15 st) 3).toNat < 1024 / (Ty.i64).width ∧ wellFormed (.vmovs 0 1 2 3 .i64) = true ∧ wellFormed (.vins 0 1 2 3 .i8) = true := by decide +kernel
theorem test_vcvt : Ready st (.vcvt 1 2 3 .i64 .i8 false .rtz) ∧ wellFormed (.vcvt 1 2 3 .i64 .i8 false .rtz) = true ∧ Ready st (.vcvt 0 2 3 .f32 .mx8 true .sto) ∧ wellFormed (.vcvt 0 2 3 .f32 .mx8 true .sto) = true := by decide +kernel
theorem test_vqnt : Ready st (.vqnt 1 2 3 4 .i8 true) ∧ wellFormed (.vqnt 1 2 3 4 .i8 true) = true ∧ Ready st (.vbitsSet 0 1 2 3 .i8) ∧ Ready st (.vbitsClear 0 1 2 3 .i8) ∧ wellFormed (.vbitsSet 0 1 2 3 .i8) = true := by decide +kernel

/-! ## Control -/

theorem test_branches : Ready st .nop ∧ branch st (.br 0 0x80000) = some (fetchPc + BitVec.ofInt 64 (-32 * 2 ^ 19), false) ∧ Ready st (.br 0 0x80000) ∧ branch st (.callx 0 5) = some (0, true) ∧ Ready st (.callx 0 5) := by decide +kernel
theorem test_loop_counts : looping st (.loopi 0 255 63) = some (255, 63) ∧ Ready st (.loopi 0 255 63) ∧ (255 : Word) ≠ 0 ∧ looping st (.loop 0 30 1) = some (0, 1) ∧ Ready st (.loop 0 30 1) := by decide +kernel
theorem test_looph : Ready (setS 5 0xFFFFFF st) (.looph 0 5) ∧ (sVal (setS 5 0xFFFFFF st) 5).toNat < 2 ^ 24 ∧ Ready (setS 5 0x1000000 st) (.looph 0 5) ∧ 2 ^ 24 ≤ (sVal (setS 5 0x1000000 st) 5).toNat := by decide +kernel

/-- In the last bundle of a loop of one bundle, in the last of two iterations. -/
def turning : State := me' (fun t => { t with loop := { t.loop with iter := 1, count := 2, first := fetchPc, blen := 0, active := true } }) st

theorem test_loop_turns : Still turning ∧ turning.me.loop.active = true ∧ turning.me.pc = lastOf turning.me.loop ∧ GuardOn turning .nop ∧ turning.me.loop.iter + 1 = turning.me.loop.count := by decide +kernel
theorem test_lexit : GuardOn turning (.lexit 0) ∧ Still st ∧ st.me.loop.active = false ∧ GuardOn st (.lexit 0) := by decide +kernel
theorem test_loop_nested : looping turning (.loopi 0 1 0) = some (1, 0) ∧ isFull turning (.p 0) ∧ (pVal turning 0).getLsbD 0 = true := by decide +kernel
theorem test_wait : Calm st ∧ GuardOn st (.wait 0 (.v 31)) ∧ (st.me.regs.get (.v 31)).st ≠ .pending ∧ Calm (pend (.v 31) 5 st) ∧ GuardOn (pend (.v 31) 5 st) (.wait 0 (.v 31)) ∧ ((pend (.v 31) 5 st).me.regs.get (.v 31)).st = .pending := by decide +kernel
theorem test_waitany_empty : Ready (setS 5 0xFFFF0000 st) (.waitany 0 .p 5 6) ∧ replicated st st.me = false ∧ st.me.choice = none ∧ ∀ k, k < fileLen .p → (sVal (setS 5 0xFFFF0000 st) 5).getLsbD k = false := by decide +kernel
theorem test_waitany_least : Ready (setS 5 0x28 (pend (.s 3) 5 st)) (.waitany 0 .s 5 6) ∧ (sVal (setS 5 0x28 (pend (.s 3) 5 st)) 5).getLsbD 5 = true ∧
    ((setS 5 0x28 (pend (.s 3) 5 st)).me.regs.get (member .s 5)).st ≠ .pending ∧ ∀ j, j < 5 → (sVal (setS 5 0x28 (pend (.s 3) 5 st)) 5).getLsbD j = true → ((setS 5 0x28 (pend (.s 3) 5 st)).me.regs.get (member .s j)).st = .pending := by decide +kernel
theorem test_waitany_parks : Ready (setS 5 0x8 (pend (.s 3) 5 st)) (.waitany 0 .s 5 6) ∧ (sVal (setS 5 0x8 (pend (.s 3) 5 st)) 5).getLsbD 3 = true ∧
    ∀ k, k < fileLen .s → (sVal (setS 5 0x8 (pend (.s 3) 5 st)) 5).getLsbD k = true → ((setS 5 0x8 (pend (.s 3) 5 st)).me.regs.get (member .s k)).st = .pending := by decide +kernel
theorem test_state : Calm (pend (.v 31) 5 st) ∧ GuardOn (pend (.v 31) 5 st) (.state 0 (.v 31) 63) := by decide +kernel
theorem test_pauses : Ready st (.yield 0) ∧ Ready (setS 5 0xFFFFFFFF00000000 st) (.sleep 0 5) ∧ (sVal (setS 5 0xFFFFFFFF00000000 st) 5).toNat % 2 ^ 32 = 0 ∧ Ready (setS 5 0xFFFFFFFF st) (.sleep 0 5) ∧ (sVal (setS 5 0xFFFFFFFF st) 5).toNat % 2 ^ 32 ≠ 0 := by decide +kernel

/-! ## Semaphores, barriers, fences, tiles, system registers, predicates -/

/-- A SEMA outstanding on q15 whose count suffices. -/
def semaOut : State := me' (fun t => { t with q := t.q.set 15 ⟨7, 7, true, .s 3, none⟩ }) st

theorem test_sema : Ready st (.sema 0 15 5 3) ∧ replicated st st.me = false ∧ (gangOf st st.me).isSome = true ∧ (getSema st.me 15).out = false ∧ Ready semaOut (.sema 0 15 5 3) ∧ (getSema semaOut.me 15).out = true ∧
    (gangOf semaOut semaOut.me).isSome = true ∧ replicated semaOut semaOut.me = false := by decide +kernel
theorem test_semr : Ready st (.semr 0 15 5) ∧ st.me.replay = none ∧ st.me.loc.isSome = true := by decide +kernel
theorem test_sema_fill : getStrand semaOut 2 = some semaOut.me ∧ resident semaOut.me = true ∧ (getSema semaOut.me 15).out = true ∧ (getSema semaOut.me 15).await ≤ (getSema semaOut.me 15).count := by decide +kernel

/-- Barrier k15 as given. -/
def barred (x : Barrier) : State := gang' (fun g => { g with barriers := g.barriers.set 15 x }) st

/-- The hypotheses that every clause on barriers shares. -/
def barredOk (x : Barrier) : Bool :=
  match gangOf (barred x) (barred x).me with
  | some h => h.barriers[15] == x && h.saved == none && (barred x).me.replay == none
  | none => false

theorem test_karr_waits : barredOk ⟨64, 0, 0, 0, 0, 9, false, []⟩ = true ∧ Ready (barred ⟨64, 0, 0, 0, 0, 9, false, []⟩) (.karr 0 15 3) ∧ ¬ phaseDone (⟨64, 0, 1, 0, 0, 9, false, []⟩ : Barrier) := by decide +kernel
theorem test_karr_completes : barredOk ⟨1, 0, 0, 0, 0, 0xFFFFFFFF, false, []⟩ = true ∧ Ready (barred ⟨1, 0, 0, 0, 0, 0xFFFFFFFF, false, []⟩) (.karr 0 15 3) ∧ phaseDone (⟨1, 0, 1, 0, 0, 0xFFFFFFFF, false, []⟩ : Barrier) ∧
    st.me.loc.isSome = true ∧ st.me.agreeWait = [] ∧ st.mirrors = [] := by decide +kernel
theorem test_nothing_pending : ∀ r, (st.me.regs.get r).st ≠ .pending := by
  intro r
  cases r with
  | s i => revert i; decide +kernel
  | v i => revert i; decide +kernel
  | p i => revert i; decide +kernel
theorem test_karr_bad : barredOk ⟨0, 0, 0, 0, 0, 0, true, []⟩ = true ∧ Ready (barred ⟨0, 0, 0, 0, 0, 0, true, []⟩) (.karr 0 15 3) := by decide +kernel
theorem test_kdrop : Ready (barred ⟨2, 0, 1, 0, 0, 0, false, []⟩) (.kdrop 0 15) ∧ phaseDone (⟨2, 0, 2, 1, 0, 0, false, []⟩ : Barrier) ∧ barredOk ⟨2, 0, 1, 0, 0, 0, false, []⟩ = true := by decide +kernel
theorem test_overarrival : barredOk ⟨2, 5, 2, 0, 4, 0, false, []⟩ = true ∧ Ready (barred ⟨2, 5, 2, 0, 4, 0, false, []⟩) (.karr 0 15 3) ∧ Ready (barred ⟨2, 5, 2, 0, 4, 0, false, []⟩) (.kdrop 0 15) := by decide +kernel
theorem test_kinit : Ready (setS 5 0x41 st) (.kinit 0 15 5) ∧ barredOk ⟨1, 0, 0, 0, 0, 0, false, []⟩ = true := by decide +kernel
theorem test_fences : Ready st (.acq 0 .context) ∧ Ready st (.acq 0 .system) ∧ Ready st (.nfence 0) := by decide +kernel

/-- The address of a nest record in s5. -/
def nestSt (a : Word) (asked : Bool) (h : Gang → Gang) (q : SeqSt) : State := me' (fun t => { t with nestAddr := if asked then some a else none, seq := q }) (gang' h (setS 5 a st))

theorem test_nest_misaligned : (gangOf st st.me).isSome = true ∧ Ready (nestSt 0x1020 false id SeqSt.zero) (.nest 0 5) ∧ (sVal (nestSt 0x1020 false id SeqSt.zero) 5).toNat % 64 ≠ 0 := by decide +kernel
theorem test_nest_asks : Ready (nestSt 0x1040 false id SeqSt.zero) (.nest 0 5) ∧ (sVal (nestSt 0x1040 false id SeqSt.zero) 5).toNat % 64 = 0 ∧ nestBusy fetchGang 0x1040 = false ∧ (nestSt 0x1040 false id SeqSt.zero).me.nestAddr ≠ some 0x1040 ∧
    gangOf (nestSt 0x1040 false id SeqSt.zero) (nestSt 0x1040 false id SeqSt.zero).me = some fetchGang := by decide +kernel
theorem test_nest_static : Ready (nestSt 0x1040 true (fun g => { g with det := true }) ⟨0, 10, 10, 0, 0⟩) (.nest 0 5) ∧
    staticSlices (nestSt 0x1040 true (fun g => { g with det := true }) ⟨0, 10, 10, 0, 0⟩) { fetchGang with det := true } (nestSt 0x1040 true (fun g => { g with det := true }) ⟨0, 10, 10, 0, 0⟩).me = true := by decide +kernel
theorem test_nest_dynamic : Ready (nestSt 0x1040 true id ⟨0, 10, 10, 0, 0⟩) (.nest 0 5) ∧ staticSlices (nestSt 0x1040 true id ⟨0, 10, 10, 0, 0⟩) fetchGang (nestSt 0x1040 true id ⟨0, 10, 10, 0, 0⟩).me = false := by decide +kernel
theorem test_next_static : Ready (nestSt 0x1040 false id ⟨9, 10, 10, 1, 0⟩) (.next 0 3) ∧ (nestSt 0x1040 false id ⟨9, 10, 10, 1, 0⟩).me.seq.mode = 1 ∧ (9 : BitVec 32) < 10 ∧
    ∀ d, d ≤ (nestSt 0x1040 false id ⟨9, 10, 10, 1, 0⟩).me.seq.ndim.toNat → 0 < tiles 10 d := by decide +kernel
theorem test_next_over : Ready (nestSt 0x1040 false id ⟨10, 10, 10, 1, 0⟩) (.next 0 3) ∧ (nestSt 0x1040 false id ⟨10, 10, 10, 1, 0⟩).me.seq.endT ≤ (nestSt 0x1040 false id ⟨10, 10, 10, 1, 0⟩).me.seq.nextT ∧ st.me.seq.mode = 0 := by decide +kernel
theorem test_next_shared : Ready (nestSt 0 false (fun g => { g with dyn := some ⟨0x1040, 9, 10, 10, 0⟩ }) ⟨0, 0, 10, 2, 0⟩) (.next 0 3) ∧ (∀ e, e ≤ (0 : BitVec 2).toNat → 0 < tiles 10 e) ∧
    gangOf (nestSt 0 false (fun g => { g with dyn := some ⟨0x1040, 9, 10, 10, 0⟩ }) ⟨0, 0, 10, 2, 0⟩) st.me = some { fetchGang with dyn := some ⟨0x1040, 9, 10, 10, 0⟩ } ∧ (nestSt 0 false id ⟨0, 0, 10, 2, 0⟩).me.seq.mode = 2 := by decide +kernel
theorem test_system_registers : gangOf st st.me = some fetchGang ∧ getJob st fetchGang.job = some fetchJob ∧ Ready st (.gets 0 (.perf 7) 3) ∧ st.me.perfsel[7] ≠ 1 ∧ replicated st st.me = false ∧ Ready st (.sets 0 .faultinj 3) ∧
    wellFormed (.sets 0 .faultinj 3) = true ∧ fetchJob.finj = true ∧ Ready st (.agree 0 5 3) := by decide +kernel

/-- The job without PRIV and FINJ. -/
def plainJob : State := { st with jobs := st.jobs.map fun j => { j with priv := false, finj := false } }

theorem test_no_privilege : Ready plainJob (.sets 0 .faultinj 3) ∧ (getJob plainJob 1).map (fun j => (j.finj, j.priv)) = some (false, false) ∧ Ready plainJob (.resume 0 5) := by decide +kernel
theorem test_predicates : Ready st (.plog 0 15 1 2 3) ∧ Ready (setS 5 16 st) (.pset 0 .b8 5 0) := by decide +kernel

/-! ## Issue, commit points, traps -/

theorem test_guard_pending : slotIndex (.add 0 3 4 (.reg 5) .w64) = some 1 ∧ slotIndex (.br 7 3) = some 0 ∧ Calm (pend (.p 7) 5 st) ∧ (.p 7 : RegId) = .p (guardOf (.br 7 3)) ∧ ((pend (.p 7) 5 st).me.regs.get (.p 7)).st = .pending := by decide +kernel
theorem test_operand_poisoned : (let s := setR (.s 5) ⟨12, .poisoned, 0⟩ st; Calm s ∧ GuardOn s (.add 0 3 4 (.reg 5) .w64) ∧ beforeSources s (.add 0 3 4 (.reg 5) .w64) = none ∧ afterSources s 1 (.add 0 3 4 (.reg 5) .w64) = none ∧
    readsOf (.add 0 3 4 (.reg 5) .w64) ++ examinedOf (.add 0 3 4 (.reg 5) .w64) = [.s 4] ++ .s 5 :: [] ∧ isFull s (.s 4) ∧ (s.me.regs.get (.s 5)).st = .poisoned) := by decide +kernel
theorem test_guard_off : (slotIndex (.stf 7 3 4 0 .b8)).isSome = true ∧ Calm st ∧ isFull st (.p (guardOf (.stf 7 3 4 0 .b8))) ∧ wholeGuard (.stf 7 3 4 0 .b8) = true ∧ (pVal st (guardOf (.stf 7 3 4 0 .b8))).getLsbD 0 = false := by decide +kernel
theorem test_window_empty : windowEmpty st ∧ replicated st st.me = false ∧ st.me.mark = none ∧ st.me.loc.isSome = true ∧ Ready st (.cmt 0) ∧ Ready st (.rel 0 .context) ∧ Ready st (.exit 0) := by
  unfold windowEmpty; decide +kernel

/-- A far load of the strand that has answered stands in no window; a near store is on its way. -/
def storing : State := { st with nearOps := [⟨3, 2, 1, 1, 0x100000, .store [(0, 1)], true⟩] }

theorem test_rel_parks : windowEmpty storing ∧ accessPending storing ∧ Ready storing (.rel 0 .gang) ∧ ¬ accessPending st := by
  unfold windowEmpty accessPending; decide +kernel

/-- Something in the window. -/
def logged : State := me' (fun t => { t with log := [⟨.s 9, 1, .full, 0⟩], gated := [⟨0x0FFF000000002000, 1, 7⟩] }) st

theorem test_commits_wait : logged.me.log ≠ [] ∧ logged.me.gated ≠ [] ∧ Ready logged (.cmt 0) ∧ Ready logged (.exit 0) ∧ replicated logged logged.me = false ∧ logged.me.loc.isSome = true := by decide +kernel
theorem test_launch : Ready (setS 5 0x1040 st) (.launch 0 5 3) ∧ (sVal (setS 5 0x1040 st) 5).toNat % 64 = 0 ∧ Ready (setS 5 0x1041 st) (.launch 0 5 3) ∧ (sVal (setS 5 0x1041 st) 5).toNat % 64 ≠ 0 ∧ windowEmpty (setS 5 0x1041 st) := by
  unfold windowEmpty; decide +kernel
theorem test_trap : Ready st (.trap 0 255) ∧ st.me.sig = none ∧ st.me.closing = none := by decide +kernel
theorem test_trap_in_loop : (after_ (.trap 0 255) turning).me.pc = fetchPc + 32 ∧ (after_ (.trap 0 255) turning).me.st = .faulted := by decide +kernel
theorem test_trap_order : List.Pairwise earlierEvent [⟨3, 9, [], []⟩, ⟨3, 9, [0x40], []⟩, ⟨4, 0, [], []⟩] := by unfold earlierEvent; decide +kernel
theorem test_trap_records : (devWriteAll (trapHeld st ⟨.align, 1, 0, fetchPc, 0, 0⟩ fetchPc) (asidOf st st.me) (trapWrites st ⟨.align, 1, 0, fetchPc, 0, 0⟩ fetchPc) matches .ok _) = true ∧
    (let s := die' (fun d => { d with tlb := [] }) st; (devWriteAll (trapHeld s ⟨.align, 1, 0, fetchPc, 0, 0⟩ fetchPc) (asidOf s s.me) (trapWrites s ⟨.align, 1, 0, fetchPc, 0, 0⟩ fetchPc) matches .error _) = true) := by decide +kernel
theorem test_resume_none : Ready (setS 5 0x0FFF000000002000 st) (.resume 0 5) ∧ fetchJob.priv = true ∧ (translateNow st 1 0x0FFF000000002000 .load matches .ok _) = true ∧ strandAt st 1 0x0FFF000000002000 = none ∧ isRemote st 0x0FFF000000002000 = false := by decide +kernel

/-! ## The array, near and far memory, slot 7 -/

/-- The premises that the statements on commit points share. -/
abbrev commitOk (s : State) (i : Instr) : Prop := Ready s i ∧ (gangOf s s.me).isSome = true ∧ replicated s s.me = false ∧ s.me.loc.isSome = true ∧ s.me.mark = none ∧ (∀ o ∈ s.nearOps, o.sid ≠ s.me.sid) ∧ s.near.wf = true

/-- Nothing in the window. -/
abbrev emptyOk (s : State) : Prop :=
  s.me.log = [] ∧ s.me.gated = [] ∧ (∀ l ∈ s.farLoads, l.sid ≠ s.me.sid) ∧ (∀ a ∈ s.farAtoms, a.sid ≠ s.me.sid) ∧ ∀ k ∈ s.cores, ∀ c ∈ k.copies, c.sid ≠ s.me.sid

theorem test_empty_is_empty (s : State) : emptyOk s ↔ windowEmpty s := Iff.rfl

/-- A shape of one element at near address 0 that SHAPE would make. -/
def shapeOne : Shape := BitVec.ofNat 256 (2 ^ 63 + 2 ^ 64 * 64 + 2 ^ 96 * 64 + 2 ^ 128 * 4096)

/-- s5 = 256, s6 = 4, h3 valid. -/
def arr (a : Word) : State := me' (fun t => { t with h := t.h.set 3 shapeOne }) (setS 6 4 (setS 5 a st))

/-- The strand holds the array, a valid i8 configuration in effect. -/
def held (a : Word) : State := core' (fun c => { c with array := { c.array with holder := some 2, lastJob := some 1, cfg := 0x2000000 } }) (arr a)

theorem test_acfg_claims : gangOf (arr 256) (arr 256).me = some fetchGang ∧ Ready (arr 256) (.acfg 0 5) ∧ (myArray (arr 256)).holder = none ∧ (myArray (arr 256)).waiting = [] ∧ Ready (held 256) (.acfg 0 5) ∧ Holds (held 256) := by decide +kernel
theorem test_acfg_waits : (let s := core' (fun c => { c with array := { c.array with holder := some 77 } }) (arr 256); Ready s (.acfg 0 5) ∧ (myArray s).holder = some 77 ∧ 77 ≠ s.me.sid ∧ ∀ w ∈ (myArray s).waiting, w.1 ≠ s.me.sid) := by decide +kernel
theorem test_adone : Ready (held 256) (.adone 0) ∧ Holds (held 256) ∧ Ready (arr 256) (.adone 0) ∧ ¬ Holds (arr 256) := by decide +kernel
theorem test_array_not_holder : (∃ k a b sh x d, arrayCmd (arr 256) (.astream 0 3 9 6 5) = some (k, a, b, sh, x, d)) ∧ commitOk (arr 256) (.astream 0 3 9 6 5) ∧ emptyOk (arr 256) ∧ ¬ Holds (arr 256) := ⟨⟨_, _, _, _, _, _, rfl⟩, by decide +kernel⟩
theorem test_array_misaligned : (∃ k a b x d, arrayCmd (held 257) (.astat 0 3 9 5) = some (k, a, b, some shapeOne, x, d)) ∧ commitOk (held 257) (.astat 0 3 9 5) ∧ emptyOk (held 257) ∧ Holds (held 257) ∧ (myArray (held 257)).cmds.length < 8 ∧ arrayEngine (held 257) .stat (some shapeOne) = false ∧
    arrayAligned (held 257) .stat 257 (some shapeOne) = false := ⟨⟨_, _, _, _, _, rfl⟩, by decide +kernel⟩
theorem test_array_sent : commitOk (held 256) (.astream 0 3 9 6 5) ∧ emptyOk (held 256) ∧ Holds (held 256) ∧ (myArray (held 256)).cmds.length < 8 ∧ (∀ c ∈ (myArray (held 256)).cmds, c.kind ≠ .prog) ∧ arrayEngine (held 256) .stream (some shapeOne) = false ∧
    arrayAligned (held 256) .stream 256 (some shapeOne) = true ∧ arrayTrap (held 256) fetchGang (.astream 0 3 9 6 5) = none := by decide +kernel
theorem test_array_waits : (let s := me' (fun t => { t with gated := [⟨0x0FFF000000100000, 1, 7⟩] }) (held 256); commitOk s (.aclr 0) ∧ Holds s ∧ arrayEngine s .clr none = false ∧ arrayAligned s .clr 0 none = true ∧ arrayTrap s fetchGang (.aclr 0) = none ∧ s.me.gated ≠ []) := by decide +kernel
theorem test_aread : Ready (arr 31) (.aread 0 0 5 5) ∧ Ready (held 32) (.aread 0 9 5 5) ∧ Holds (held 32) ∧ (myArray (held 32)).current = none ∧ replicated (held 32) (held 32).me = false := by decide +kernel

/-- Two strands' slices: s5 an address. -/
def near2 (a : Word) : State := setS 5 a (gang' (fun g => { g with task := { g.task with nstr := 2 }, alloc := [(0, 0), (1, 8192)] }) st)

/-- Its gang. -/
def gang2 : Gang := { fetchGang with task := { fetchTask with nstr := 2 }, alloc := [(0, 0), (1, 8192)] }

theorem test_near_load_own : gangOf (near2 0xFFFFC) (near2 0xFFFFC).me = some gang2 ∧ nearLoadOf (near2 0xFFFFC) (.ldn 0 3 5 0 .b4) = some (.s 3, 0xFFFFC, 4, 4) ∧ Ready (near2 0xFFFFC) (.ldn 0 3 5 0 .b4) ∧ InBounds gang2 st.me 0xFFFFC 4 ∧
    nearHeld (near2 0xFFFFC) gang2 (.ldn 0 3 5 0 .b4) = false ∧ ownSlice st 0xFFFFC := by unfold InBounds; decide +kernel
theorem test_near_load_other : nearLoadOf (near2 0x100000) (.ldnt 0 4 5 0 .b2) = some (.v 4, 0x100000, 1988, 4) ∧ Ready (near2 0x100000) (.ldnt 0 4 5 0 .b2) ∧ InBounds gang2 st.me 0x100000 1988 ∧ ¬ ownSlice st 0x100000 ∧ nearIdle (near2 0x100000) ∧ (near2 0x100000).near.wf = true ∧
    nearHeld (near2 0x100000) gang2 (.ldnt 0 4 5 0 .b2) = false := by unfold InBounds nearIdle; decide +kernel
theorem test_near_load_bounds : nearLoadOf (near2 0xFFFFD) (.ldn 0 3 5 0 .b4) = some (.s 3, 0xFFFFD, 4, 4) ∧ ¬ InBounds gang2 st.me 0xFFFFD 4 ∧ Ready (near2 0xFFFFD) (.ldn 0 3 5 0 .b4) ∧ ¬ InBounds gang2 st.me 0x200000 4 := by unfold InBounds; decide +kernel
theorem test_near_load_align : nearLoadOf (near2 0x4000010) (.ldnv 0 3 5 0) = some (.v 3, 0x4000010, 128, 128) ∧ InBounds gang2 st.me 0x4000010 128 ∧ (0x4000010 : Word).toNat % 128 ≠ 0 ∧ Ready (near2 0x4000010) (.ldnv 0 3 5 0) := by unfold InBounds; decide +kernel

/-- Bank 1 of the slice is taken by another requester in this ck. -/
def contended (n : Nat) : State := core' (fun c => { c with banks := [(1, 9)] }) (me' (fun t => { t with bankWait := if n = 0 then none else some (n, [(1, 0)]) }) (near2 0x40))

theorem test_banks_free : BanksFree (near2 0xFFFFC) (.ldn 0 3 5 0 .b4) ∧ BanksFree (near2 0x1FFFF8) (.stn 0 3 5 0 .b8) ∧ BanksFree (contended 4) (.ldn 0 3 5 0 .b4) := by decide +kernel
theorem test_banks_lost : bankStop (contended 3) (5, .ldn 0 3 5 0 .b4) = some (.holdBank [(1, 0)]) ∧ Ready (contended 3) (.ldn 0 3 5 0 .b4) ∧ InBounds gang2 st.me 0x40 4 ∧ nearHeld (contended 3) gang2 (.ldn 0 3 5 0 .b4) = false := by unfold InBounds; decide +kernel

/-- Gathers: base in s5, offsets in v7, the guard p3. -/
def gat (a : Word) (x : VVal) (p : PVal) : State := setP 3 p (setV 7 x (near2 a))

/-- The addresses of the enabled lanes. -/
def gatAds (s : State) (t : Ty) : List Word := (lanesOn s 3 t).map (eaLane s 5 7 t)

theorem test_gather_own : gatAds (gat 0x1000 0x4000000000000000200 0x101) .i32 = [0x1800, 0x2000] := by decide +kernel
theorem test_gather_own_lanes : (let s := gat 0x1000 0x4000000000000000200 0x101; Ready s (.ldng 3 4 5 .i32 7) ∧ nearHeld s gang2 (.ldng 3 4 5 .i32 7) = false ∧ nearIdle s) := by unfold nearIdle; decide +kernel
theorem test_gather_own_bounds : InBounds gang2 st.me 0x1800 4 ∧ ownSlice st 0x1800 ∧ InBounds gang2 st.me 0x2000 4 ∧ ownSlice st 0x2000 ∧ conflicts [0x1800, 0x2000] = 2 := by unfold InBounds; decide +kernel
theorem test_gather_other : gatAds (gat 0xFFFF8 1 0x1) .i64 = [0x100000] ∧ Ready (gat 0xFFFF8 1 0x1) (.ldng 3 4 5 .i64 7) ∧ InBounds gang2 st.me 0x100000 8 ∧ ¬ ownSlice st 0x100000 := by unfold InBounds; decide +kernel
theorem test_gather_bounds : gatAds (gat 0x1FFFF0 0x400000002 0x11) .i32 = [0x1FFFF8] ++ 0x200000 :: [] ∧ Ready (gat 0x1FFFF0 0x400000002 0x11) (.ldng 3 4 5 .i32 7) ∧ InBounds gang2 st.me 0x1FFFF8 4 ∧ ¬ InBounds gang2 st.me 0x200000 4 := by unfold InBounds; decide +kernel
theorem test_gather_align : gatAds (gat 0x1002 1 0x1) .i32 = [] ++ 0x1006 :: [] ∧ Ready (gat 0x1002 1 0x1) (.ldng 3 4 5 .i32 7) ∧ (0x1006 : Word).toNat % 4 ≠ 0 ∧ InBounds gang2 st.me 0x1006 4 := by unfold InBounds; decide +kernel
theorem test_near_store : nearStoreOf (near2 0x1FFFF8) (.stn 0 3 5 0 .b8) = some (0x1FFFF8, 8, 0) ∧ Ready (near2 0x1FFFF8) (.stn 0 3 5 0 .b8) ∧ InBounds gang2 st.me 0x1FFFF8 8 ∧ ¬ ownSlice st 0x1FFFF8 ∧ nearHeld (near2 0x1FFFF8) gang2 (.stn 0 3 5 0 .b8) = false ∧
    nearStoreOf (near2 0xFF0) (.stnp 0 3 5 0) = some (0xFF0, 16, 0) ∧ Ready (near2 0xFF0) (.stnp 0 3 5 0) ∧ ownSlice st 0xFF0 := by unfold InBounds; decide +kernel
theorem test_near_store_traps : Ready (near2 0xFFFC0) (.stnv 0 3 5 0) ∧ ¬ InBounds gang2 st.me 0xFFFC0 128 ∧ Ready (near2 0xFFF40) (.stnv 0 3 5 0) ∧ InBounds gang2 st.me 0xFFF40 128 ∧ (0xFFF40 : Word).toNat % 128 ≠ 0 := by unfold InBounds; decide +kernel
theorem test_scatter : gatAds (gat 0xFFFFE 0x200000001 0x3) .i8 = [0xFFFFF, 0x100000] ∧ Ready (gat 0xFFFFE 0x200000001 0x3) (.stns 3 4 5 .add .i8 7) ∧ nearHeld (gat 0xFFFFE 0x200000001 0x3) gang2 (.stns 3 4 5 .add .i8 7) = false ∧
    InBounds gang2 st.me 0xFFFFF 1 ∧ InBounds gang2 st.me 0x100000 1 ∧ ∀ p ∈ gang2.alloc, p.2 % 4096 = 0 := by unfold InBounds; decide +kernel
theorem test_scatter_traps : Ready (gat 0x1FFFFE 0 0x1) (.stns 3 4 5 .plain .f32 7) ∧ gatAds (gat 0x1FFFFE 0 0x1) .f32 = [0x1FFFFE] ∧ ¬ InBounds gang2 st.me 0x1FFFFE 4 ∧ Ready (gat 0x1FFFFB 0 0x1) (.stns 3 4 5 .max .i32 7) ∧ gatAds (gat 0x1FFFFB 0 0x1) .i32 = [0x1FFFFB] ∧
    InBounds gang2 st.me 0x1FFFFB 4 ∧ (0x1FFFFB : Word).toNat % 4 ≠ 0 := by unfold InBounds; decide +kernel
theorem test_far_load : (farLoadOf (near2 0x0FFF000000001038) (.ldf 0 3 5 255 .b8)).map (fun x => (x.2.1, x.2.2.1, x.2.2.2.2)) = some (0x0FFF000000001030, 8, [(0x0FFF000000001030, 8)]) ∧ Ready (near2 0x0FFF000000001038) (.ldf 0 3 5 255 .b8) := by decide +kernel
theorem test_far_gather : nearIdle st := by unfold nearIdle; decide +kernel
theorem test_far_gather_none : Ready (gat 0x0FFF000000001000 1 0) (.ldfg 3 4 5 .i16 7) ∧ (farLoadOf (gat 0x0FFF000000001000 1 0) (.ldfg 3 4 5 .i16 7)).map (fun x => (x.2.1, x.2.2.1, x.2.2.2.2)) = some (0x0FFF000000001000, 2, []) ∧
    Ready (gat 0x0FFF000000001001 1 1) (.ldfg 3 4 5 .i16 7) ∧ (farLoadOf (gat 0x0FFF000000001001 1 1) (.ldfg 3 4 5 .i16 7)).map (fun x => x.2.1.toNat % x.2.2.1) = some 1 ∧ Ready st (.pref 0 5 255) := ⟨by decide +kernel, by decide +kernel, by decide +kernel, by decide +kernel, by decide +kernel⟩
theorem test_far_store : farStoreOf (near2 0x0FFF000000001040) (.stfv 0 3 5 255) = some (0x0FFF000000000FC0, 128, 0) ∧ Ready (near2 0x0FFF000000001040) (.stfv 0 3 5 255) ∧ (0x0FFF000000000FC0 : Word).toNat % 128 ≠ 0 ∧
    farStoreOf (near2 0x0FFF000000001004) (.stf 0 3 5 0 .b4) = some (0x0FFF000000001004, 4, 0) ∧ Ready (near2 0x0FFF000000001004) (.stf 0 3 5 0 .b4) := by decide +kernel
theorem test_injection : (let s := me' (fun t => { t with faultinj := 0x3F00000004, storeCount := 0 }) st; fires s ∧ ¬ fires st) := by unfold fires; decide +kernel
theorem test_atomics_leave : (let s := near2 0x0FFF000000001008; atomicOf s (.redf 0 .w64 .add 5 6) = some (none, 0x0FFF000000001008, .w64, .rmw .add 0) ∧ commitOk s (.redf 0 .w64 .add 5 6) ∧ emptyOk s ∧ (s.farAtoms.filter fun x => x.sid == s.me.sid).length < 16) := by decide +kernel
theorem test_atomics_streaming : (let s := { near2 0x0FFF000000001008 with farAtoms := (List.range 15).map fun k => { id := k, sid := 2, tag := none, window := 0, va := 0, w := .w32, op := .rmw .add 1, sent := true, cpt := 0, held := none, fkind := 0, remote := false } }; commitOk s (.redf 0 .w64 .add 5 6) ∧ windowStreams s ∧ (s.farAtoms.filter fun x => x.sid == s.me.sid).length < 16) := by unfold windowStreams; decide +kernel
theorem test_atomics_wait : (let s := near2 0x0FFF000000001008; atomicOf s (.casf 0 .w64 9 5 3) = some (some 9, 0x0FFF000000001008, .w64, .cas 0 0) ∧ commitOk s (.casf 0 .w64 9 5 3) ∧ commitOk s (.atmf 0 .w32 .fadd 0 5 6)) := by decide +kernel
theorem test_atomics_misaligned : (let s := near2 0x0FFF000000001004; commitOk s (.redf 0 .w64 .add 5 6) ∧ commitOk s (.casf 0 .w64 9 5 3) ∧ commitOk s (.atmf 0 .w64 .swap 0 5 6) ∧ (0x0FFF000000001004 : Word).toNat % w2Bytes .w64 ≠ 0) := by decide +kernel
theorem test_near_atomics : (let s := near2 0xFFFFC; commitOk s (.atmn 0 .w32 .fadd 0 5 6) ∧ emptyOk s ∧ InBounds gang2 s.me 0xFFFFC 4 ∧ ownSlice s 0xFFFFC ∧ nearHeld s gang2 (.atmn 0 .w32 .fadd 0 5 6) = false) ∧ (let s := near2 0x100000; commitOk s (.atmn 0 .w64 .swap 9 5 6) ∧ ¬ ownSlice s 0x100000 ∧ InBounds gang2 s.me 0x100000 8) := by unfold InBounds; decide +kernel
theorem test_near_atomic_traps : (commitOk (near2 0x200000) (.atmn 0 .w64 .add 0 5 6) ∧ commitOk (near2 0xFFFFC) (.atmn 0 .w64 .add 0 5 6) ∧ commitOk (near2 4) (.atmn 0 .w64 .add 0 5 6)) ∧ ¬ InBounds gang2 st.me 0x200000 8 ∧ ¬ InBounds gang2 st.me 0xFFFFC 8 ∧ InBounds gang2 st.me 4 8 ∧ (4 : Word).toNat % 8 ≠ 0 :=
  ⟨by decide +kernel, by unfold InBounds; decide +kernel⟩

/-- Words 0 to 3 of a shape in s12 to s15. -/
def shaped (w0 w1 : Word) : State := setS 12 w0 (setS 13 w1 st)

theorem test_shape : Ready (shaped 0x0001000100010000 1) (.shape 0 15 3) ∧ ShapeGood (shapeWords (shaped 0x0000010001000100 0) 3) ∧ (gangOf st st.me).isSome = true :=
  ⟨by decide +kernel, ⟨by decide +kernel, by decide +kernel, by decide +kernel, by decide +kernel, by decide +kernel, .i8, by decide +kernel⟩, by decide +kernel⟩
theorem test_shape_bad : Ready (shaped 0x0000010001000000 0) (.shape 0 15 3) ∧ ¬ ShapeGood (shapeWords (shaped 0x0000010001000000 0) 3) :=
  ⟨by decide +kernel, fun h => h.2.2.1 (by decide +kernel)⟩
theorem test_xstat : Ready st (.xstat 0 4 63) ∧ replicated st st.me = false := by decide +kernel

/-- Copy operands: source s4, destination s5, the list or command word 0, shape h3 of one row of 64 bytes. -/
def cop (a b : Word) : State := me' (fun t => { t with h := t.h.set 3 (BitVec.ofNat 256 (2 ^ 63 + 64 * 256 + 2 ^ 24 + 2 ^ 40)) }) (setS 4 a (near2 b))

/-- What the first copy of it captures. -/
def cap (a b : Word) (i : Instr) : Option CopyOp := (copyArgs (cop a b) i).map fun x => captured (cop a b) gang2 x 0 none

/-- Where it fails near bounds, and what it is poisoned with. -/
def capIs (a b : Word) (i : Instr) : Option (Option Word × Option PoisonCode) := (cap a b i).map fun c => (copyBad gang2 (cop a b).me c, copyCode (cop a b) gang2 c)

theorem test_copy_near : commitOk (cop 0x8000000000000040 0x8000000000000400) (.copy 0 3 9 5 4) ∧ copiesOut (cop 0x8000000000000040 0x8000000000000400) 0 < 16 ∧ capIs 0x8000000000000040 0x8000000000000400 (.copy 0 3 9 5 4) = some (none, none) := by decide +kernel
theorem test_copy_far : commitOk (cop 0x8000000000000040 0x0FFF000000200000) (.copy 0 3 9 5 4) ∧ capIs 0x8000000000000040 0x0FFF000000200000 (.copy 0 3 9 5 4) = some (none, none) ∧ (0x0FFF000000200000 : Word).getLsbD 63 = false := by decide +kernel
theorem test_copy_poison : capIs 0 0 (.copy 0 2 9 5 4) = some (none, some .engine) ∧ emptyOk (cop 0 0) ∧ commitOk (cop 0 0) (.copy 0 2 0 5 4) ∧ (0 : Word).getLsbD 63 = false := by decide +kernel

/-- A copy of queue 1 with the same destination in flight. -/
def busy : State := core' (fun c => { c with copies := (cap 0x8000000000000040 0x8000000000000400 (.copy 0 3 9 5 4)).toList.map fun x => { x with cmd := 1 } }) (cop 0x8000000000000040 0x8000000000000400)

theorem test_copy_overlap : commitOk busy (.copy 0 3 9 5 4) ∧ (cap 0x8000000000000040 0x8000000000000400 (.copy 0 3 9 5 4)).map (fun c => (copyBad gang2 busy.me c, copyCode busy gang2 c)) = some (none, some .overlap) := by decide +kernel
theorem test_copy_bounds : (capIs 0x8000000000200000 0x8000000000000400 (.copy 0 3 9 5 4)).map (fun x => x.1.isSome) = some true ∧ commitOk (cop 0x8000000000200000 0x8000000000000400) (.copy 0 3 9 5 4) := by decide +kernel

/-- Channels 3 (a send end), 4 (a ticketed send end) and 5 (a receive end) of the gang. -/
def chans : State := gang' (fun g => { g with chans := ((g.chans.set 3 (.send ⟨false, ⟨0xFFF, 0, 0, 1, 5⟩, none, 4, 0, 0, 0, none, [], false, 0, []⟩)).set 4 (.send ⟨true, ⟨0xFFF, 0, 0, 1, 5⟩, none, 4, 0, 0, 0, none, [], false, 0, []⟩)).set 5 (.recv ⟨7, false, ⟨0xFFF, 0, 0, 1, 3⟩, 0, 2, 0, 8, [], [], 0, 0, 0, [], 0, 0, 0, 0, 0, []⟩) }) (near2 (BitVec.ofNat 64 (2 ^ 32 * 8)))

/-- A channel command with its name for the next operation, its failing channel, its range. -/
def chanIs (s : State) (i : Instr) : Option (BitVec 6 × Bool × Option Nat × Option (Nat × Nat)) :=
  match gangOf s s.me with
  | some g => (chanCmd s g i).map fun x => (x.1, x.2.1, chanFails s g i, chanRange s i)
  | none => none

theorem test_send : commitOk chans (.send 0 3 0 5) ∧ emptyOk chans ∧ chanIs chans (.send 0 3 0 5) = some (0, false, none, some (0, 8)) := ⟨by decide +kernel, by decide +kernel, by decide +kernel⟩
theorem test_chan_ranges : RangeIn gang2 st.me 0 8 ∧ RangeIn gang2 st.me 0xFFFC0 64 ∧ ¬ RangeIn gang2 st.me 0xFFFC1 64 := by unfold RangeIn InBounds; decide +kernel
theorem test_recv : commitOk chans (.recv 0 5 9 5) ∧ chanIs chans (.recv 0 5 9 5) = some (9, true, none, some (0, 8)) := ⟨by decide +kernel, by decide +kernel⟩
theorem test_tick : commitOk chans (.tick 0 4 9) ∧ chanIs chans (.tick 0 4 9) = some (9, false, none, none) := ⟨by decide +kernel, by decide +kernel⟩
theorem test_chan : commitOk chans (.chan 0 63 9 5) ∧ chanIs (setS 5 0xFFFC0 chans) (.chan 0 63 9 5) = some (9, false, none, some (0xFFFC0, 64)) ∧ chanIs (setS 5 0xFFFC1 chans) (.chan 0 63 9 5) = some (9, false, none, some (0xFFFC1, 64)) := ⟨by decide +kernel, by decide +kernel, by decide +kernel⟩
theorem test_chan_fails : commitOk chans (.send 0 4 0 5) ∧ chanIs chans (.send 0 4 0 5) = some (0, false, some 4, some (0, 8)) := ⟨by decide +kernel, by decide +kernel⟩
theorem test_chan_fails_ticket : commitOk chans (.tick 0 3 9) ∧ chanIs chans (.tick 0 3 9) = some (9, false, some 3, none) := ⟨by decide +kernel, by decide +kernel⟩
theorem test_chan_fails_set : commitOk (setS 7 0x60 chans) (.recva 0 9 3) ∧ chanIs (setS 7 0x60 chans) (.recva 0 9 3) = some (9, true, some 6, some (0, 0)) := ⟨by decide +kernel, by decide +kernel⟩
theorem test_collective : (let s := near2 0x20; (∃ d a p, collCmd s (.coll 0 9 5) = some (d, a, p)) ∧ commitOk s (.coll 0 9 5) ∧ xferTrap s gang2 (.coll 0 9 5) = none) ∧ commitOk (near2 0x200000) (.spsend 0 0 5) ∧ ¬ InBounds gang2 st.me 0x200000 64 :=
  ⟨⟨⟨_, _, _, rfl⟩, by decide +kernel, by decide +kernel⟩, by decide +kernel, by unfold InBounds; decide +kernel⟩

/-! ## Events of strands, memory and windows -/

/-- A computation of the device's memory that has no error. -/
def isOk {ε α : Type} (x : Except ε α) : Bool := match x with
  | .ok _ => true
  | .error _ => false

/-- A property of all registers, from the three files. -/
theorem all_regs (P : RegId → Prop) (h : ∀ i, P (.s i)) (k : ∀ i, P (.v i)) (l : ∀ i, P (.p i)) (r : RegId) : P r := by
  cases r with
  | s i => exact h i
  | v i => exact k i
  | p i => exact l i

/-- A translation that fails, and not for want of a walk or of another package's answer. -/
def failsAt (s : State) (asid : Nat) (va : Word) (acc : AccKind) : Bool := match translate s asid va acc with
  | .ok _ => false
  | .error k => !waits k

theorem test_delivery : (let s := pend (.s 5) 0x405 st; s.me.loc.isSome = true ∧ s.me.agreeWait = [] ∧ s.mirrors = [] ∧ s.me.waitset = none ∧ s.me.st = .running ∧ (s.me.regs.get (.s 5)).st = .pending ∧ (s.me.regs.get (.s 5)).tag = 0x405) := by decide +kernel
theorem test_delivery_parked : (let s := me' (fun t => { t with st := .parked, parkid := some (.p 15) }) (pend (.p 15) 0xFFFF st); s.me.st = .parked ∧ s.me.parkid = some (.p 15) ∧ (s.me.regs.get (.p 15)).st = .pending ∧ (s.me.regs.get (.p 15)).tag = 0xFFFF) := by decide +kernel
theorem test_only_owed : OnlyOwed (pend (.s 5) 0x405 st) 0x405 [.s 5] :=
  ⟨all_regs _ (by decide +kernel) (by decide +kernel) (by decide +kernel), by decide +kernel⟩
theorem test_only_owed_parked : OnlyOwed (me' (fun t => { t with st := .parked, parkid := some (.p 15) }) (pend (.p 15) 0xFFFF st)) 0xFFFF [.p 15] :=
  ⟨all_regs _ (by decide +kernel) (by decide +kernel) (by decide +kernel), by decide +kernel⟩
theorem test_owed_by_none : OnlyOwed st 0x405 [] := ⟨all_regs _ (by decide +kernel) (by decide +kernel) (by decide +kernel), by decide +kernel⟩

theorem test_sleep_end : (let s := me' (fun t => { t with asleep := true, notBefore := 100 }) st; getStrand s 2 = some s.me ∧ s.me.asleep = true ∧ s.me.notBefore ≤ s.clock) := by decide +kernel

/-- A strand that waits in EXIT. -/
def exiting : State := me' (fun t => { t with cdone := true, remain := .exit, st := .parked }) st

theorem test_strand_done : exiting.me.cdone = true ∧ exiting.me.remain = .exit ∧ awaitedOut exiting exiting.me = false ∧ exiting.me.st = .parked ∧ exiting.me.heldTrap = none ∧ exiting.me.mark = none ∧ exiting.me.tickets = [] := by decide +kernel
theorem test_strand_done_write : isOk (devWriteAll exiting (asidOf exiting exiting.me) [(exiting.me.crec, crecBytes { exiting.me with st := .done, cdone := false, remain := .none, parkid := none, waitset := none } (identOf exiting exiting.me))]) = true := by decide +kernel
theorem test_barrier_bytes : (let s := me' (fun t => { t with mark := some (15, 0xFFFFFFFF) }) st; s.me.mark = some (15, 0xFFFFFFFF) ∧ s.me.closing = none ∧ resident s.me = true) := by decide +kernel

/-- A NEST waits for the record at the address. -/
def nesting (bs : List Byte) : State := me' (fun t => { t with nestAddr := some 0x0FFF000000100000, st := .parked }) { st with hbm := st.hbm.write 0x100000 bs }

theorem test_nest_bad : (nesting [3, 1]).me.nestAddr = some 0x0FFF000000100000 ∧ (nesting [3, 1]).me.st = .parked ∧ (nesting [3, 1]).me.loc.isSome = true ∧ (match devRead (nesting [3, 1]) 1 0x0FFF000000100000 64 with
    | .ok bs => (nestOf bs).isNone
    | .error _ => false) = true := by decide +kernel
theorem test_nest_good : (match devRead (nesting [0, 0, 0, 0, 0, 0, 0, 0, 100, 0, 0, 0, 7, 0, 0, 0]) 1 0x0FFF000000100000 64 with
    | .ok bs => (nestOf bs).isSome
    | .error _ => false) = true := by decide +kernel

/-- Two stores and an atomic of the strand that have left. -/
def nearOut : State := { near2 0 with near := Memory.write [] 64 [1, 2, 3], unitJob := [(0, 1), (258, 1)], nearOps := [⟨5, 2, 1, 1, nearAddr 1 8192 + 64, .store [(nearAddr 1 8192 + 64, 7), (nearAddr 1 8192 + 65, 0)], true⟩, ⟨7, 2, 1, 0, 72, .atomic .w64 .fadd 0x3F800000 none, true⟩] }

theorem test_near_store_performed : (let s := nearOut; let o : NearOp := ⟨5, 2, 1, 1, nearAddr 1 8192 + 64, .store [(nearAddr 1 8192 + 64, 7), (nearAddr 1 8192 + 65, 0)], true⟩; o ∈ s.nearOps ∧ o.sent = true ∧ (∀ p ∈ s.nearOps, p.id = o.id → p = o) ∧
    (∀ p ∈ s.nearOps, p.sid = o.sid → p.slice = o.slice → p.sent = true → p.id ≤ o.id → p = o) ∧ (s.nearOps.map (·.id)).Nodup ∧ getGang s o.gid = some gang2 ∧ s.near.wf = true ∧ [nearAddr 1 8192 + 64, nearAddr 1 8192 + 65].Nodup) := by decide +kernel
theorem test_near_atomic_applied : (let s := nearOut; let o : NearOp := ⟨7, 2, 1, 0, 72, .atomic .w64 .fadd 0x3F800000 none, true⟩; o ∈ s.nearOps ∧ (∀ p ∈ s.nearOps, p.id = o.id → p = o) ∧
    (∀ p ∈ s.nearOps, p.sid = o.sid → p.slice = o.slice → p.sent = true → p.id ≤ o.id → p = o) ∧ o.loc % w2Bytes .w64 = 0 ∧ s.timers = []) := by decide +kernel

/-- A far load under way. -/
def loading (n : Nat) (va : Word) : FarLoad := { id := 9, sid := 2, tag := some 0x405, window := 0, kind := if n = 128 then .v else .s .b4, lanes := [(va, n)], gated := [(va + 1, 0x77)], bound := [], remote := false, done := false, fault := none }

/-- Its state. -/
def loads (l : FarLoad) : State := { st with farLoads := [l] }

theorem test_far_load_bound : (let l := loading 128 0x0FFF000000001080; let s := loads l; s.farLoads.find? (fun x => x.id == l.id) = some l ∧ getStrand s l.sid = some s.me ∧ loadBlocked s l = false ∧ (0x0FFF000000001080 : Word).toNat % 128 = 0) := by decide +kernel
theorem test_placed : Placed st (asidOf st st.me) 0x0FFF000000001080 .load 0x1080 := ⟨by decide +kernel, rfl, by decide +kernel⟩
theorem test_far_load_fault : (let l := loading 4 0x0FFF200000001004; let s := loads l; loadBlocked s l = false ∧ isRemote s 0x0FFF200000001004 = false ∧ failsAt s (asidOf s s.me) 0x0FFF200000001004 .load = true) := by decide +kernel
theorem test_far_load_walk : (let l := loading 4 0x0FFF000000001004; let s := die' (fun d => { d with tlb := [] }) (loads l); loadBlocked s l = false ∧ isRemote s 0x0FFF000000001004 = false ∧ (translate s (asidOf s s.me) 0x0FFF000000001004 .load).toOption = none ∧ failsAt s (asidOf s s.me) 0x0FFF000000001004 .load = false ∧
    farDie 0x0FFF000000001004 < 8 ∧ l.lanes = [(0x0FFF000000001004, 4)]) := by decide +kernel
theorem test_fault_rollback : (let l := { loading 4 0x0FFF200000001004 with tag := none, done := true, fault := some (3, 0x0FFF200000001004, 7) }; let s := loads l; replicated s s.me = false ∧ s.me.sig = none ∧ l.sid = s.me.sid ∧ l.window = s.me.window ∧ resident s.me = true ∧ isRemote s 0x0FFF200000001004 = false ∧
    ∀ x ∈ s.farLoads, x.sid = l.sid → x.fault.map (fun f => (f.1, f.2.1)) = some (3, 0x0FFF200000001004) → x = l) := by decide +kernel

/-- A far atomic under way. -/
def placing (id : Nat) (va : Word) (tag : Option Tag) : FarAtom := { id := id, sid := 2, tag := tag, window := 0, va := va, w := .w32, op := .rmw .add 5, sent := true, cpt := 0x0FFF000000000f00, held := none, fkind := 0, remote := false }

/-- Two of them. -/
def atomics (va : Word) : State := { st with farAtoms := [placing 9 va (some 0x405), placing 10 va none] }

theorem test_atomic_placed : (let a := placing 9 0x0FFF000000001004 (some 0x405); let s := atomics 0x0FFF000000001004; s.farAtoms.find? (fun x => x.id == a.id) = some a ∧ getStrand s a.sid = some s.me ∧ atomFirst s a = true ∧ atomBlocked s a = false ∧ a.va.toNat % w2Bytes a.w = 0 ∧ 0x1004 % w2Bytes a.w = 0 ∧ s.hbm.wf = true) := by decide +kernel
theorem test_atomic_address : Placed (atomics 0x0FFF000000001004) (asidOf st st.me) 0x0FFF000000001004 .store 0x1004 := ⟨by decide +kernel, rfl, by decide +kernel⟩
theorem test_atomic_fault : (let a := placing 9 0x0FFF200000001004 (some 0x405); let s := atomics 0x0FFF200000001004; atomFirst s a = true ∧ atomBlocked s a = false ∧ isRemote s a.va = false ∧ failsAt s (asidOf s s.me) a.va .store = true ∧ resident s.me = true ∧
    ∀ x ∈ s.farAtoms, x.sid = a.sid → x.sent = true ∧ (a.id < x.id → x.tag = none)) := by decide +kernel

/-- A commit point with two lines gated. -/
def closes (c : Closing) (a : Word) : State := me' (fun t => { t with closing := some c, st := .parked, gated := [⟨0x0FFF000000001040, 0xFF0F, 7⟩, ⟨a, 0xFF00, 7⟩] }) st

/-- Its command. -/
def close0 : Closing := { Closing.start with phase := .tentative, mask := 1, cpt := 0x0FFF000000001020, next := 0x0FFF000000001040 }

theorem test_window_tentative : (let s := closes close0 0x0FFF000000101000; s.me.closing = some close0 ∧ gangOf s s.me = some fetchGang ∧ replicated s s.me = false ∧ close0.compare = false ∧ close0.phase = .tentative ∧ close0.post = [] ∧ loadsOpen s s.me = false ∧ waitsAtoms s s.me = false ∧ copiesOpen s s.me = []) := by decide +kernel
theorem test_window_lines : List.Forall₂ (fun l p => Placed (closes close0 0x0FFF000000101000) (asidOf st st.me) l.line .store p) (closes close0 0x0FFF000000101000).me.gated [0x1040, 0x101000] :=
  .cons ⟨by decide +kernel, rfl, by decide +kernel⟩ (.cons ⟨by decide +kernel, rfl, by decide +kernel⟩ .nil)
theorem test_window_fault : (let s := me' (fun t => { t with gated := [⟨0x0FFF200000001000, 1, 7⟩] }) (closes close0 0); s.me.sig = none ∧ isRemote s 0x0FFF200000001000 = false ∧ failsAt s (asidOf s s.me) 0x0FFF200000001000 .store = true ∧ loadsOpen s s.me = false ∧ waitsAtoms s s.me = false ∧ copiesOpen s s.me = []) := by decide +kernel

/-- The lines accepted. -/
def close1 : Closing := { close0 with phase := .perform, lines := [(⟨0x0FFF000000001040, 0xFF0F, 7⟩, 0x1040, none), (⟨0x0FFF000000101000, 0xFF00, 7⟩, 0x101000, none)] }

theorem test_window_perform : (let s := closes close1 0x0FFF000000101000; gangOf s s.me = some fetchGang ∧ replicated s s.me = false ∧ close1.phase = .perform ∧ close1.open_ = 0 ∧ close1.rids = [] ∧ close1.post = [] ∧ s.me.leaving = [] ∧ close1.keep = false ∧ s.me.st = .parked ∧ s.me.heldTrap = none ∧ s.me.mark = none ∧
    (∀ l ∈ close1.lines, l.2.2 = none ∧ l.2.1 % 64 = 0) ∧ (close1.lines.map (·.2.1)).Nodup ∧ s.hbm.wf = true) := by decide +kernel
/-- A bundle of one scalar word at NEXT, s3 = 5, s4 = 6. -/
def logicAt (w : Half) : State := setS 4 6 (setS 3 5 { State.reset.withFetchWord 32 w.toNat with clock := 100 })

/-- A commit point with nothing gated. -/
def plain (c : Closing) : State := me' (fun t => { t with closing := some c, st := .parked }) st

theorem test_nothing_gated : (let s := plain close0; s.me.closing = some close0 ∧ gangOf s s.me = some fetchGang ∧ s.me.gated = [] ∧ loadsOpen s s.me = false ∧ waitsAtoms s s.me = false ∧ copiesOpen s s.me = []) ∧
    (let c := { close0 with phase := .perform }; let s := plain c; c.open_ = 0 ∧ c.lines = [] ∧ c.rids = [] ∧ s.me.leaving = [] ∧ c.keep = false ∧ s.me.st = .parked ∧ s.me.heldTrap = none ∧ s.me.mark = none) := by decide +kernel
theorem test_phases_run : (let t := after_ (.windowTentativePhase 2) (plain close0); t.me.closing.map (·.phase) = some .perform ∧ t.timers = [⟨100, .windowPerform 2⟩]) ∧
    (let t := after_ (.windowPerform 2) (plain { close0 with phase := .perform }); t.me.closing = none ∧ t.me.st = .running ∧ t.me.pc = 0x0FFF000000001040 ∧ t.me.cpt = 0x0FFF000000001020) := by decide +kernel
theorem test_next_bundle : NextBundle st (List.replicate 32 0) ∧ NextBundle (logicAt 0x04031000) (bundleBytes (encodeBundle 1 0x04031000 none)) := by unfold NextBundle; decide +kernel
theorem test_bundle_issues : (let t := after_ (.bundleIssue 2) st; t.me.pc = fetchPc + 32 ∧ t.timers = [] ∧ t.me.st = .running) ∧ (after_ (.bundleIssue 2) (logicAt 0x24031040)).me.pc = fetchPc + 32 := by decide +kernel

/-- A commit point of ours waits for two owners, one of which has not answered. -/
def unperformed : State := { plain { close0 with phase := .perform, open_ := 2 } with reqs := [⟨6, 77, .perform 2, 5⟩] }

theorem test_owner_silent : unperformed.resvs = [] ∧ unperformed.reqs.map (·.what) = [.perform 2] ∧ ((after_ (.performTimeout 6) unperformed).me.closing.map (·.open_)) = some 1 ∧ (after_ (.performTimeout 6) unperformed).reqs = [] := by decide +kernel
theorem test_owner_performs : (let s : State := { st with resvs := [{ id := 4, rid := 9, dev := 3, asid := 1, bytes := [(none, 0x2000, 5)], gen := [] }] }; s.hbm.wf = true ∧ (after_ (.performTimeout 4) s).resvs = [] ∧ hbmByte (after_ (.performTimeout 4) s) 1 0x2000 = 5) := by decide +kernel
theorem test_perform_timeout : (let r : Resv := { id := 4, rid := 9, dev := 3, asid := 1, bytes := [(none, 0x2000, 5), (none, 0x1003, 0)], gen := [] }; let s := { st with resvs := [r] }; s.resvs.find? (fun x => x.id == r.id) = some r ∧ (∀ b ∈ r.bytes, b.1 = none) ∧ (r.bytes.map (·.2.1)).Nodup ∧ s.hbm.wf = true) := by decide +kernel
theorem test_launch_queue : (let s := closes { close0 with phase := .answer, post := [.launch (.s 4) (some 5) 0x0FFF000000001000] } 0; close0.kept = [] ∧ getQueue s fetchGang.die fetchGang.queue = none) ∧ ({ close0 with reject := true } : Closing).reject = true := by decide +kernel

/-! ## Queues, tasks and gangs -/

/-- A queue of die 0. -/
def q0 : HwQueue := ⟨3, 2, false, true, 1, 7, 4, 0x0FFF000000080000, 5, 5, [], [], none⟩

/-- A task of one strand at 0x1000, with its record at 0xA0000. -/
def rec0 : List Byte := [(0x0FFF000000001000 : Word), packWord [(0, 0), (0, 3), (0, 6), (1, 12), (2, 17)], packWord [(77, 0)], 0, 0x0FFF000000090000, 0, 5, 6].flatMap wordBytes

/-- The address of that record. -/
def ra : Word := 0x0FFF0000000A0000

/-- A state with the queue. -/
def queued (q : HwQueue) : State := { die' (fun d => { d with queues := [q] }) st with hbm := st.hbm.write 0xA0000 rec0, ready := 1, nextId := 10 }

/-- The record's bytes as the device reads them. -/
def recRead (s : State) : List Byte := match devRead s 1 ra 64 with
  | .ok bs => bs
  | .error _ => []

theorem test_enqueue : (let s := queued q0; getQueue s 0 3 = some q0 ∧ getJob s q0.job = some fetchJob ∧ (∀ k ∈ s.jobs, k.handler ≠ ra) ∧ isOk (devRead s fetchJob.asid ra 64) = true ∧ HasRoom q0) := by unfold HasRoom; decide +kernel
theorem test_enqueue_accepts : rejects (queued q0) 0 q0 (recRead (queued q0)) = false := by decide +kernel
theorem test_enqueue_rejects : NeverTask (taskOf (List.replicate 64 0)) := by unfold NeverTask; decide +kernel
theorem test_refill : (let q := { q0 with rtail := 6 }; let s := { queued q with hbm := (queued q).hbm.write 0x80028 (wordBytes ra) }; q.waitRing = [] ∧ q.onDie.length < 16 ∧ q.rtail = q.rhead + 1 ∧ isOk (devRead s (queueAsid s q) (q.ring + BitVec.ofNat 64 (8 * (q.rhead.toNat % 2 ^ q.ringlog))) 8) = true) := by decide +kernel

/-- A LAUNCH that has its answer to take. -/
def launched (o : Option Tag) : State := me' (fun t => { t with st := .parked, closing := some { Closing.start with phase := .answer, post := [.launch (.s 5) o ra], record := some (0xA0000, none), next := fetchPc + 64 } }) (gang' (fun g => { g with queue := 3 }) (queued q0))

theorem test_launch_answer : (let s := launched (some 0x405); gangOf s s.me = some { fetchGang with queue := 3 } ∧ fetchGang.die = 0 ∧ replicated s s.me = false ∧ regFixed (.s 5) = false ∧ rejects s 0 q0 (hbmRead s (keyOf s (asidOf s s.me)) 0xA0000 64) = false ∧ q0.det = false ∧ s.hbm.wf = true ∧ ({ Closing.start with record := some (0xA0000, none) } : Closing).reject = false) := by decide +kernel

/-- The queue with the record, and no strand in the machine. -/
def offered : State := { queued { q0 with since := some 50, onDie := [ra] } with gangs := [], me := Strand.none, jobs := [{ fetchJob with saveSize := 0x100000 }] }

/-- The task it names. -/
def task0 : Task := taskOf rec0

theorem test_dispatch : (let s := offered; let q := { q0 with since := some 50, onDie := [ra] }; (getDie s 0).queues = [q] ∧ q.num < 64 ∧ (getJob s q.job).isSome = true ∧ q.en = true ∧ q.since.isSome = true ∧ q.rhead = q.rtail ∧ q.waitRing = [] ∧ (recordAt s q ra).toOption = some task0 ∧ task0.waitc = 0 ∧ task0.repl = 1 ∧ NamesFresh s ∧ task0.nstr ≤ 64) := by unfold NamesFresh; decide +kernel
theorem test_dispatch_place : couldPlace offered 0 0 task0.width task0.height task0.nstr = true ∧ 0 ∈ clustersOf q0.clmask ∧ (findPlace offered 0 (clustersOf q0.clmask) task0.width task0.height task0.nstr task0.nearsz []).map (fun x => (x.1, x.2.length)) = some (0, task0.nstr) := by decide +kernel
theorem test_dispatch_pool : (poolFit { fetchJob with saveSize := 0x100000 } (poolBytes task0.nstr task0.nearsz)).isSome = true := by decide +kernel
theorem test_dispatch_binds : isOk (bindGang offered { fetchJob with saveSize := 0x100000 } ra task0 0 3 0 false (taskSeed offered false task0) none 0 [(0, 0, 0)]) = true := by decide +kernel
theorem test_dispatch_pick : (let s := { st with me := Strand.none, pool := [{ st.me with st := .ready, loc := none }], gangs := [{ fetchGang with strands := [2], alloc := [], saved := some ⟨1, 50, []⟩ }], ready := 1 }; pickable s 0 = some (2, 0)) := by decide +kernel

/-- A gang whose strand has ended. -/
def ended (b : Bool) : State := { st with me := Strand.none, gangs := [{ fetchGang with strands := [2], task := { fetchTask with caddr := 0x0FFF000000051000 }, poison := some .engine, reported := b }], pool := [{ st.me with st := .done, loc := none }] }

theorem test_completion : (let s := ended false; (getGang s 1).map (fun g => (g.rset, g.reported, g.task.ckind)) = some (none, false, false) ∧ (∀ u ∈ [2].filterMap (getStrand s), u.st = .done) ∧ isOk (devWrite s 1 0x0FFF000000051000 (leBytes 8 3)) = true) := by decide +kernel
theorem test_completion_end : (getGang (ended true) 1).map (fun g => (g.reported, decide (g.task.nsucc ≤ g.succDone))) = some (true, true) := by decide +kernel

/-- A READY strand whose records stand in memory. -/
def readied : State := let s := me' (fun t => { t with st := .ready, pc := 0x0FFF000000002000 }) st
  match devWriteAll s 1 (recordWrites s s.me) with
  | .ok m => m
  | .error _ => s

theorem test_pick_up : getStrand readied 2 = some readied.me ∧ readied.me.st = .ready ∧ readied.me.loc.isSome = true := by decide +kernel
theorem test_pick_up_records : (match readRecords readied readied.me with
    | .ok w => !w.cdone && isOk (devWriteAll readied (asidOf readied readied.me) [(readied.me.crec, crecBytes { pickedUp readied 0 w with halted := readied.me.halted } (identOf readied { pickedUp readied 0 w with halted := readied.me.halted }))])
    | .error _ => false) = true := by decide +kernel

/-- A cluster all of whose contexts are taken, a strand parked since ck 10, a record on the queue. -/
def crowded : State := { queued { q0 with onDie := [ra] } with clock := 20000, me := { st.me with st := .parked, parkid := some (.s 3), parkedAt := 10 }, gangs := [{ fetchGang with strands := [2, 3], queue := 3, alloc := (List.range 64).map fun c => (c, 0) }], pool := [{ st.me with sid := 3, lidx := 1, loc := some (1, 0), st := .done }] }

theorem test_eviction : (let s := gang' (fun g => { g with strands := [2] }) crowded; replicated s s.me = false ∧ evictable s s.me = true ∧ (allNeeds s).any (fun x => x.die == coreDie (coreOf s.me) && wantsRoom s x) = true ∧ s.me.gated = [] ∧ s.me.log = [] ∧ loadsOpen s s.me = false ∧ waitsAtoms s s.me = false ∧ s.me.mark = none) := by decide +kernel
theorem test_watchdog_preempt : (let s := crowded; (getGang s 1).map (fun g => (g.completed, g.saved.isNone, g.rset)) = some (false, true, none) ∧ underRequest s 1 = false ∧ (∀ h ∈ s.gangs, dogHalts s h = false) ∧ (dogChoice s).map (·.gid) = some 1 ∧ evictsFirst s 0 = false) := by decide +kernel
theorem test_request : (let s := crowded; (getGang s 1).isSome = true ∧ wbits 4 0 2 = 0 ∧ (s.gangs.filter (isTarget s 0 0 (wbits 4 8 32))).map (·.gid) = (s.gangs.filter fun g => g.task.taskno.toNat == 0).map (·.gid) ∧ (getDie s 0).preempts = []) := by decide +kernel

/-- The watchdog's gang saved, its limit run out. -/
def dogged : State := { crowded with me := Strand.none, pool := [{ crowded.me with st := .faulted, loc := none }, { crowded.me with sid := 3, lidx := 1, loc := none, st := .done }], jobs := crowded.jobs.map fun j => { j with wdlim := 5 }, gangs := crowded.gangs.map fun g => { g with saved := some ⟨2, 100, []⟩ } }

/-- Its records in memory. -/
def recorded : State := match devWriteAll dogged 1 ([2, 3].filterMap (getStrand dogged) |>.flatMap (recordWrites dogged)) with
  | .ok m => m
  | .error _ => dogged

theorem test_watchdog : (getGang dogged 1).map (fun g => (g.rset, g.saved.map (·.reason), decide (g.strands.Nodup))) = some (none, some 2, true) ∧ (getJob dogged 1).map (fun j => decide (0 < j.wdlim ∧ 100 + j.wdlim * 1300 ≤ dogged.clock)) = some true ∧ ∀ u ∈ [2, 3].filterMap (getStrand dogged), u.st = .evicted ∨ u.st = .faulted ∨ u.st = .done := by decide +kernel
theorem test_watchdog_loads : (match loadSaved recorded ([2, 3].filterMap (getStrand recorded)) with
    | .ok s0 => isOk (dogTraps recorded.gangs s0)
    | .error _ => false) = true := by decide +kernel

/-- A trap event held, the ring empty. -/
def holding : State := { st with hbm := st.hbm.write 0x40FC0 [3, 0, 0, 0, 3, 0, 0, 0], jobs := st.jobs.map fun j => { j with held := [⟨0, 0, [], List.replicate 64 0xAB⟩], handler := ra, hq := 4 } }

theorem test_held_entry : (∀ u ∈ allStrands holding, u.heldTrap = none ∧ u.resuming = false) ∧ (∀ g ∈ holding.gangs, g.unsaved = []) ∧ (match getJob holding 1 with
    | some j =>
      let queued := wordBytes (packWord [(j.seq.toNat, 0), (1, 32)])
      (match j.held with | [e] => e.trecs == [] && e.bytes == List.replicate 64 0xAB | _ => false) && (ringIndices holding j).toOption == some (3, 3) && decide ((3 + 2 ^ 32 - 3) % 2 ^ 32 ≠ 2 ^ j.traplog) &&
      isOk (devWriteAll holding j.asid [(j.trapq + BitVec.ofNat 64 (64 * (3 % 2 ^ j.traplog)), List.replicate 48 0xAB ++ queued ++ List.replicate 8 0xAB), (j.trapq - 64, leBytes 4 4)])
    | none => false) = true := by decide +kernel

/-! ## The array, copies, translation, channels -/

/-- The strand runs and s5 is PENDING under tag 0x405. -/
def owed : State := pend (.s 5) 0x405 st

theorem all_takes (s : State) (h : s.me = owed.me) (k : s.mirrors = []) : Takes s 0x405 (.s 5) := by
  unfold Takes OnlyOwed
  rw [h, k]
  exact ⟨by decide +kernel, by decide +kernel, by decide +kernel, rfl, by decide +kernel, by decide +kernel,
    all_regs _ (by decide +kernel) (by decide +kernel) (by decide +kernel), by decide +kernel⟩

/-- The array of core 0 changed. -/
def array' (f : Machine.Array → Machine.Array) (s : State) : State := core' (fun c => { c with array := f c.array }) s

/-- A configuration: weight stationary, 2 rows and columns, i8 by i8 into i32. -/
def ws8 : Word := 0x0000000702000210

/-- A stream of one step. -/
def stream : ArrCmd := { id := 5, sid := 2, tag := some 0x405, kind := .stream, a := 64, b := 3, h := shapeOne, x := 0, cfg := ws8, entered := 1, complete := 0, started := true, beat0 := 90, bad := false }

/-- The array holds it. -/
def streams (c : ArrCmd) : State := array' (fun a => { a with holder := some 2, lastJob := some 1, cfg := ws8, cmds := [c], progs := Vector.replicate 4 ⟨0x80000001, BitVec.allOnes 32, BitVec.allOnes 32⟩, pipe := [some ⟨5, 0, false, ws8, .stream, 64, shapeOne, 2⟩, none, none] }) owed

theorem test_array_claim : (let s := array' (fun a => { a with waiting := [(2, 50)] }) st; (getArray s 0).holder = none ∧ (getArray s 0).waiting = [(2, 50)] ∧ getStrand s 2 = some s.me ∧ s.me.loc.isSome = true ∧ s.me.st = .running ∧ s.me.readyAt ≤ 50) := by decide +kernel
theorem test_array_config : (getArray (array' (fun a => { a with nextCfg := [(5, 77)] }) (streams stream)) 0).nextCfg = [(5, 77)] ∧ (∀ c ∈ (getArray (streams stream) 0).cmds, 5 ≤ c.id) ∧ ∃ c ∈ (getArray (streams stream) 0).cmds, c.id < 6 := by decide +kernel
theorem test_array_release : (let a := getArray (array' (fun a => { a with releasing := some 5, holder := some 2 }) st) 0; a.releasing = some 5 ∧ (∀ c ∈ a.cmds, 5 ≤ c.id) ∧ a.nextCfg = []) ∧ ∃ c ∈ (getArray (array' (fun a => { a with releasing := some 6 }) (streams stream)) 0).cmds, c.id < 6 := by decide +kernel
theorem test_array_beat : (let s := streams stream; let a := getArray s 0; gangOf s s.me = some fetchGang ∧ a.freeAt ≤ s.clock ∧ frozen s a = false ∧ (∀ c ∈ a.cmds, c.started = true) ∧ a.swaps = 0 ∧ (getCore s 0).copies = [] ∧ a.images.length < 64 ∧ s.stallsPending = 0 ∧
    a.operands = none ∧ (∀ u ∈ allStrands s, u.bankWait = none) ∧ beatElsewhere s 0 (shiftPipe a (entering s a)) = false ∧ (shiftPipe a (entering s a)).any Option.isSome = true) := by decide +kernel
theorem test_array_beat_steps : (let s := streams stream; let a := getArray s 0; WsI8 ws8 ∧ (∀ p ∈ a.progs.toList, DotSlot p) ∧ ∀ x ∈ shiftPipe a (entering s a), ∀ r ∈ x.toList, r.cfg = ws8 ∧ r.swap = false ∧ r.sid = s.me.sid ∧ r.kind = .stream) := by unfold WsI8 DotSlot; decide +kernel
theorem test_array_complete : (let a := getArray (streams stream) 0; a.cmds = [stream] ∧ stream.started = true ∧ a.nextCfg = [] ∧ a.releasing = none ∧ stream.sid = owed.me.sid ∧ stream.tag = some 0x405 ∧ stream.kind ≠ .drain ∧ stream.kind ≠ .trace) ∧ Takes (streams stream) 0x405 (.s 5) :=
  ⟨by decide +kernel, all_takes _ rfl rfl⟩
theorem test_array_drain : (let c := { stream with kind := .drain }; let s := streams c; gangOf s s.me = some fetchGang ∧ s.near.wf = true ∧ (activeCells c.cfg).Pairwise fun p q => nearPhys fetchGang s.me (c.a.toNat + p.1 * shP c.h + 4 * p.2) + 4 ≤ nearPhys fetchGang s.me (c.a.toNat + q.1 * shP c.h + 4 * q.2)) := by decide +kernel

/-- A copy of 2 bytes in near memory, on queue 0. -/
def twoBytes : CopyOp := { id := 9, sid := 2, tag := some 0x405, kind := .copy, src := 0x8000000000000010, dst := 0x8000000000000100, cmd := 0x2330000, h := BitVec.ofNat 256 (2 ^ 63 + 2 * 256 + 2 ^ 24 + 2 ^ 40), idx := [], window := 0, xl := [], xlated := true, started := false, writes := [], result := .value 2, count := 0, fault := none, cache := [], asked := false, open_ := 0, kept := [], lee := [] }

/-- Its gang: barrier 3 expects bytes. -/
def gang3 : Gang := { fetchGang with barriers := fetchGang.barriers.set 3 { Barrier.start 1 with expb := 100, bytes := 7 } }

/-- Its state. -/
def copying (c : CopyOp) : State := core' (fun k => { k with copies := [c] }) { owed with gangs := [gang3] }

theorem test_copy_start : (getCore (copying twoBytes) 0).copies = [twoBytes] ∧ twoBytes.sid = owed.me.sid ∧ gangOf (copying twoBytes) owed.me = some gang3 ∧ twoBytes.open_ = 0 ∧ twoBytes.started = false ∧ PlainCopy twoBytes := by unfold PlainCopy; decide +kernel

/-- The copy performed but not stored. -/
def twoRead : CopyOp := { twoBytes with started := true, writes := [(0x8000000000000100, 7), (0x8000000000000101, 0)] }

theorem test_copy_complete : Takes (copying twoRead) 0x405 (.s 5) ∧ twoRead.started = true ∧ twoRead.lee = [] ∧ twoRead.kept = [] ∧ (twoRead.writes.all fun w => w.1.getLsbD 63) = true ∧ (twoRead.writes.map (·.1)).Nodup ∧ twoRead.tag = some 0x405 ∧ (copying twoRead).near.wf = true :=
  ⟨all_takes _ rfl rfl, by decide +kernel⟩
theorem test_copy_barrier : (match getBarrier (copying twoRead) gang3.gid (twoRead.cmd.extractLsb' 16 4) with
    | some b => !b.bad && decide (b.bytes + copyCount twoRead ≤ b.expb.toNat) && b.arrived != b.expa
    | none => false) = true ∧ gang3.saved = none ∧ (owed.me.q[(twoRead.cmd.extractLsb' 21 4).toNat]?).map (fun x => decide (x.count.toNat + 1 < 2 ^ 32)) = some true := by decide +kernel

/-- Die 0 in a state of the test. -/
def dies (f : Die → Die) : State := die' f owed

theorem test_walk : (let w : Walk := ⟨8, 1, 0x123456, 0, [.farLoadTranslate 9]⟩; let s := { dies (fun d => { d with walks := [w], asids := [(1, 0x0000000000010001)] }) with hbm := (st.hbm.write 0x10000 (leBytes 8 0x0000000000020001)).write 0x20000 (leBytes 8 0x0007FF800000000F) }; (getDie s 0).walks = [w] ∧ (getDie s 0).walkQ = [] ∧ w.gen = (getDie s 0).gen ∧
    (match walkLevels s w.off [0, 1, 2, 3] (tableAddr (asidWord s 0 w.asid)) with
      | .ok x => x.2.getLsbD 4 == false
      | .error _ => false) = true ∧ (getDie s 0).tlb.length < 32768) := by decide +kernel
theorem test_walk_again : (let d := getDie (dies fun d => { d with walks := [⟨8, 1, 0x123456, 1, []⟩] }) 0; d.walkQ = [] ∧ (1 : Nat) ≠ d.gen) := by decide +kernel
theorem test_shoot : (let s := dies fun d => { d with shoots := [⟨4, 0, 0x1001⟩] }; (getDie s 0).shoots = [⟨4, 0, 0x1001⟩] ∧ shootReady s 0 ⟨4, 0, 0x1001⟩ = true) ∧ (0x1001 : Word).extractLsb' 12 2 = 1 ∧ (0x2000 : Word).extractLsb' 12 2 = 2 ∧ (0x0FFF : Word).extractLsb' 12 4 = 0 := by decide +kernel

/-- A fault descriptor of the strand whose trap the pager holds. -/
def desc : Desc := ⟨3, 0x0FFF000000100000, 1, 1, 1, fetchPc + 0x1F1000, 0, some 2, some ⟨.farFault, 2, 1, fetchPc, 0, 0x0FFF000000100000⟩, [.event (.sleepEnd 9)], false, none⟩

/-- Its state; the trap ring holds two records. -/
def paged : State := { dies (fun d => { d with descs := [desc] }) with hbm := st.hbm.write 0x40FC0 [3, 0, 0, 0, 1, 0, 0, 0] }

theorem test_descriptor : (getDie paged 0).descs = [desc] ∧ desc.held = [.event (.sleepEnd 9)] ∧ desc.releasing = false ∧ ∀ x ∈ (getDie paged 0).descs, x.seq ≠ 4 := by decide +kernel
theorem test_descriptor_placed : (let d := { desc with releasing := true }; d.releasing = true ∧ (∀ h ∈ d.held, stillOut paged h = false) ∧ ∃ h ∈ d.held, stillOut { paged with timers := [⟨900, .sleepEnd 9⟩] } h = true) := by decide +kernel
theorem test_pager_forward : desc.away = none ∧ desc.trap.isSome = true ∧ desc.sid = some paged.me.sid ∧ ((getJob paged (jobNum paged paged.me)).map fun j => j.held.isEmpty) = some true ∧ ∀ e ∈ paged.timers, e.ev ≠ .heldEventEntry 1 := by decide +kernel

/-- A channel address on die 0. -/
def addr (task : BitVec 32) (ch : BitVec 6) : ChanAddr := ⟨0xFFF, 0, 0, ch, task⟩

/-- A receive end with an empty ring. -/
def recv0 : RecvEnd := { bind := 5, tkt := false, peer := addr 1 5, cl := 0, owner := 0, ring := 0x400, depth := 16, msgs := [], held := [], tail := 3, pushed := 9, pushedMsgs := 4, expects := [], freed := 2, lastCredit := 10, lastTraffic := 20, nextnum := 6, call := 6, issued := [] }

/-- A send end with 6 elements of credit to use. -/
def send0 : SendEnd := { tkt := false, peer := addr 2 7, depth := some 16, free := 8, rcvd := 0xFFFFFFFE, sent := 0, msgs := 2, called := none, skips := [], resync := false, peerBind := 0, ops := [] }

/-- A SEND of `n` bytes. -/
def sendOp (n : Nat) : SendOp := { sid := 2, tag := some 0x405, bytes := List.replicate n 7, num := none, left := false, count := 0, since := 0 }

/-- The gang with one end bound. -/
def ganged (x : Chan) (rs : List RecvOp) : Gang := { fetchGang with chans := fetchGang.chans.set 5 x, recvs := rs }

/-- A second gang, its end on channel 7. -/
def gangB (y : Chan) : Gang := { fetchGang with gid := 50, strands := [], alloc := [(9, 0)], task := { fetchTask with taskno := 2 }, chans := fetchGang.chans.set 7 y }

/-- Both. -/
def ends (x y : Chan) (rs : List RecvOp) : State := { owed with gangs := [ganged x rs, gangB y] }

theorem test_send_leaves : (let x := { send0 with ops := [sendOp 384] }; let s := ends (.send x) (.recv recv0) []; Simple s (ganged (.send x) []) ∧ sends s 1 5 = some x ∧ ownDev s x.peer.dev = true ∧ elements 384 ≤ (16 : BitVec 15).toNat ∧ elements 384 + (x.sent - x.rcvd).toNat ≤ x.free.toNat) := by unfold Simple; decide +kernel
theorem test_send_takes : Takes (ends (.send { send0 with ops := [sendOp 384] }) (.recv recv0) []) 0x405 (.s 5) := all_takes _ rfl rfl
theorem test_send_too_long : (16 : BitVec 15).toNat < elements 1025 ∧ sends (ends (.send { send0 with ops := [sendOp 1025] }) .unbound []) 1 5 = some { send0 with ops := [sendOp 1025] } := by decide +kernel

/-- A message of `n` bytes to the second gang. -/
def msg0 (n : Nat) : Msg := { src := addr 1 5, dst := addr 2 7, job := 1, bytes := List.replicate n 9, count := 0, ticket := none, bind := 5, sid := 2, tag := some 0x405 }

theorem test_push : (let s := ends .unbound (.recv recv0) []; let m := msg0 70; findRecv s m.job m.dst = some (gangB (.recv recv0), recv0) ∧ Simple s (gangB (.recv recv0)) ∧ earlierOut s m = false ∧ ownDev s m.src.dev = true ∧ s.near.wf = true ∧ findSend s m.job m.src = none ∧ ringUsed recv0 + elements 70 ≤ recv0.depth.toNat ∧
    64 * (recv0.tail % recv0.depth.toNat) + 70 ≤ 64 * recv0.depth.toNat ∧ recv0.expects.find? (fun x => x.1 == m.src) = none ∧ m.count = 0 ∧ m.bind = recv0.bind ∧ { m with bind := 4 }.bind ≠ recv0.bind) := by unfold Simple; decide +kernel
theorem test_push_held : recv0.depth.toNat < ringUsed recv0 + elements 1025 ∧ earlierOut (ends .unbound (.recv recv0) []) (msg0 1025) = false := by decide +kernel
theorem test_push_lost : (let s := ends .unbound .unbound []; findRecv s 1 (addr 2 7) = none ∧ findSend s 1 (addr 1 5) = none ∧ earlierOut s (msg0 5) = false ∧ ownDev s 0xFFF = true) := by decide +kernel
theorem test_credit : (let s := ends (.send send0) (.recv recv0) []; sends s 1 5 = some send0 ∧ (0x0000FFFFFFFF0009 : Word).extractLsb' 0 15 ≤ (16 : BitVec 15) ∧ (send0.sent - (0x0000FFFFFFFF0009 : Word).extractLsb' 16 32).toNat ≤ (16 : BitVec 15).toNat ∧ (16 : BitVec 15) < (0x10011 : Word).extractLsb' 0 15 ∧ ownDev s send0.peer.dev = true ∧
    findRecv s 1 send0.peer = some (gangB (.recv recv0), recv0)) := by decide +kernel
theorem test_resync : (let o := { sendOp 5 with left := true, count := 7 }; let x := { send0 with ops := [o], resync := true }; sends (ends (.send x) .unbound []) 1 5 = some x ∧ o.num = none ∧ (o.count - 7).msb = false ∧ o.tag = some 0x405) := by decide +kernel

/-- A receive under way on channel 5. -/
def recvOp : RecvOp := ⟨77, 2, some 0x405, 0x2000, 100, 2 ^ 5⟩

/-- A ring that holds a message, or a gap. -/
def full0 (gap : Bool) : RecvEnd := { recv0 with msgs := [⟨35, 2, 100, gap, 90⟩] }

theorem test_recv_take : (let e := full0 false; let s := ends (.recv e) .unbound [recvOp]; Simple s (ganged (.recv e) [recvOp]) ∧ receives s 1 5 = some e ∧ recvOp.mask = BitVec.ofNat 64 (2 ^ (5 : BitVec 6).toNat) ∧ 90 < s.clock ∧ e.held = [] ∧ s.near.wf = true ∧ e.freed + 2 < 16 ∧ 64 * (35 % e.depth.toNat) + 100 ≤ 64 * e.depth.toNat) := by unfold Simple; decide +kernel
theorem test_recv_takes : Takes (ends (.recv (full0 false)) .unbound [recvOp]) 0x405 (.s 5) := all_takes _ rfl rfl
theorem test_recv_gap : receives (ends (.recv (full0 true)) .unbound [recvOp]) 1 5 = some (full0 true) := by decide +kernel

/-- A receive end whose peer is the second gang. -/
def recvB : RecvEnd := { recv0 with peer := addr 2 7 }

theorem test_refresh : (let s := { ends (.recv recvB) (.send send0) [] with clock := 2620 }; receives s 1 5 = some recvB ∧ ownDev s recvB.peer.dev = true ∧ findSend s 1 recvB.peer = some (gangB (.send send0), send0) ∧ getGang s 50 = some (gangB (.send send0)) ∧ recvB.tkt = false ∧ recvB.freed < 16 ∧ max recvB.lastCredit recvB.lastTraffic + 2600 ≤ s.clock ∧ ¬ 2620 < max recvB.lastCredit recvB.lastTraffic + 2600) := by decide +kernel

/-- A ticketed receive end that has called a ticket. -/
def tickets0 (skip : Bool) : RecvEnd := { recv0 with tkt := true, issued := [⟨6, addr 3 3, 9, none, skip, if skip then none else some 44⟩] }

theorem test_tick_arrives : (let s := ends (.recv (tickets0 false)) .unbound []; lowerTick s (addr 2 7) (addr 1 5) 1 = false ∧ ownDev s (addr 2 7).dev = true ∧ (addr 1 5).ch = 5 ∧ replicated s s.me = false ∧ findRecv s 1 (addr 1 5) = some (ganged (.recv (tickets0 false)) [], tickets0 false) ∧
    (tickets0 false).issued.find? (fun x => x.num == (tickets0 false).call) = some ⟨6, addr 3 3, 9, none, false, some 44⟩ ∧ findRecv s 1 (addr 9 5) = none ∧ (gangOf s s.me).map (·.staleTicks) = some []) := by decide +kernel
theorem test_ticket_skip : receives (ends (.recv (tickets0 true)) .unbound []) 1 5 = some (tickets0 true) ∧ (tickets0 true).issued = [⟨6, addr 3 3, 9, none, true, none⟩] ∧ (tickets0 true).call = 6 := by decide +kernel

/-! ## Ports and the switch -/

/-- A flit to device 9. -/
def flit (n : BitVec 28) : Flit := { dst := 9, src := 4, hops := 3, cls := 0, lseq := n, ack := 20, counter := 5, epoch := 2, body := .release 8 }

/-- A port that is UP, four flits unacknowledged. -/
def port0 : Port := { Port.reset with st := .up, enabled := true, lanes := 0xFF, nextSeq := 30, expect := 7, rxEpoch := 2, epoch := 1, unacked := [flit 19, flit 20, flit 21, flit 22], counter := 77, downs := 65535, retry := 65533 }

/-- This device is 2; port 3 is the way to 9 and 4. -/
def linked (x : Port) : State := { owed with numset := true, devnum := 2, ports := st.ports.set 3 x, routes := [(9, 0x03E3), (4, 0x03E3)], ready := 0xFFFF00000001 }

theorem test_flit_receive : (let s := linked port0; let x := getPort s 3; x.st = .up ∧ s.waitFlits = [] ∧ s.numset = true ∧ (flit 7).dst ≠ s.devnum ∧ (flit 7).body ≠ .linkControl ∧ (flit 7).epoch = x.rxEpoch ∧ (flit 7).lseq = x.expect ∧ (flit 8).epoch = x.rxEpoch ∧ (flit 8).lseq ≠ x.expect) := by decide +kernel
theorem test_flit_resend : (let x := getPort (linked port0) 3; x.st = .up ∧ x.unacked ≠ [] ∧ x.failures < 8) := by decide +kernel
theorem test_port_down : Quiet (linked port0) ∧ (∀ g ∈ (getPort (linked port0) 3).unacked, ∀ m, g.body ≠ .message m) ∧ 8 ≤ (getPort (linked { port0 with failures := 8 }) 3).failures := by
  refine ⟨by unfold Quiet; decide +kernel, fun g h m => ?_, by decide +kernel⟩
  have : ∀ g ∈ port0.unacked, g.body = .release 8 := by decide +kernel
  have h' : g ∈ port0.unacked := h
  rw [this g h']
  intro e
  cases e
theorem test_port_training : (let s := linked { port0 with st := .training, unacked := [] }; (getPort s 3).st = .training ∧ portThere s 3 = true ∧ s.waitFlits = [] ∧ popcount 8 (1 : Byte).toNat < 2 ∧ 2 ≤ popcount 8 (0x81 : Byte).toNat) := by decide +kernel
theorem test_way : WayTo (linked port0) 9 3 ∧ WayTo (linked port0) 4 3 ∧ (flit 0).hops ≠ 63 := by unfold WayTo; decide +kernel
theorem test_flit_read : isOk (translate (linked port0) 1 0x0FFF000000001010 .load) = true ∧ (0x0FFF000000001010 : Word).toNat % 65536 + 20 ≤ 65536 := by decide +kernel

/-- A load that awaits device 77, to which there is no path. -/
def awaiting (n : Nat) : State := { linked port0 with clock := n, farLoads := [{ id := 4, sid := 2, tag := some 0x405, window := 0, kind := .v, lanes := [], gated := [], bound := [], remote := true, done := false, fault := none }], reqs := [⟨6, 77, .load 4 0 8, 5⟩] }

theorem test_path_lost : Takes (awaiting 100) 0x405 (.s 5) ∧ pathLost (awaiting 100) 77 = true ∧ pathLost (awaiting 100) 9 = false ∧ (awaiting 100).colls = [] ∧ (awaiting 100).resvs = [] ∧ 5 + 1300000 ≤ (awaiting 1300005).clock ∧ (awaiting 1300004).clock < 5 + 1300000 :=
  ⟨all_takes _ rfl rfl, by decide +kernel⟩
theorem test_slot_waits : (let s := dies fun d => { d with slotWant := some 1 }; (getDie s 0).slotWant = some 1 ∧ (getJob s 1).isSome = true ∧ s.clock % 256 ≠ 0) := by decide +kernel
theorem test_slot_none : (getJob (dies fun d => { d with slotWant := some 1 }) 1).map (·.slotImage) = some 0 ∧ ({ dies (fun d => { d with slotWant := some 1 }) with clock := 256 } : State).clock % 256 = 0 := by decide +kernel

/-- A member here that has sent what it contributes. -/
def member0 : Member := ⟨0, 2, some 0x405, 0x8000000000000040, 1000, false, ⟨0, 0, none, none, false, false, 0, 0, 0, 0, 0, 0, 0, true⟩, 0, true, false⟩

/-- An instance of a collective with three members, one of them here. -/
def coll0 : Coll := { id := 8, job := 1, group := 3, seq := 9, sparse := true, terms := [], kind := 0, op := 0, ty := .i32, dty := .i32, ovf := false, fixed := false, root := 0, count := 4, thresh := 1024, size := 3, locals := [0], devs := [2], members := [member0], raw := [], parts := [], sparts := [], result := none, bad := none, badRank := none }

/-- Its state. -/
def collects (c : Coll) : State := { linked port0 with colls := [c] }

theorem test_combine : (let c := { coll0 with parts := [⟨[1], [(Carry.int 5 false, 0)]⟩, ⟨[2], [(Carry.int (-9) false, 0)]⟩], raw := [(1, []), (2, [])] }; getColl (collects c) c.id = some c ∧ c.raw.length < c.size ∧ c.op = 0 ∧ c.fixed = false ∧ (1 : Nat) ≠ 2) := by decide +kernel
theorem test_merge : (let c := { coll0 with sparts := [⟨0, [⟨5, false, []⟩, ⟨7, false, []⟩]⟩, ⟨1, [⟨3, false, []⟩]⟩, ⟨2, [⟨5, true, []⟩]⟩] }; getColl (collects c) c.id = some c ∧ c.sparts.length = c.size ∧ c.result = none ∧ c.bad = none) := by decide +kernel

/-- A stream of one block of one element. -/
def stream0 : List Byte := wordBytes (5 + 2 ^ 21 + 2 ^ 63) ++ leBytes 8 (5 * 4096 + 7) ++ leBytes 8 77

/-- The instance with the member's stream. -/
def streamed (bs : List Byte) : Coll := { coll0 with raw := [(0, bs)] }

theorem test_ingress : (let c := streamed stream0; Takes (collects c) 0x405 (.s 5) ∧ c.members = [member0] ∧ c.sparts = [] ∧ c.raw = [(0, rawOf c 0)] ∧ 1 < c.size) := ⟨all_takes _ rfl rfl, by decide +kernel⟩
theorem test_ingress_good : isOk (ingress 0 .i32 0 ((rawOf (streamed stream0) 0).length / 8 + 1) (rawOf (streamed stream0) 0) none) = true ∧ (rawOf (streamed [1, 2, 3, 4, 5, 6, 7]) 0).length < 8 := by decide +kernel
theorem test_broadcast : (let c := { coll0 with kind := 2, ty := .i8, dty := .i8, raw := [(0, [1, 0x80, 0xFF, 7]), (1, []), (2, [])] }; let s := collects c; gangOf s s.me = some fetchGang ∧ fetchGang.rset = none ∧ fetchGang.saved = none ∧ s.near.wf = true ∧ (0x8000000000000040 : Word).getLsbD 63 = true ∧ c.raw.length = c.size ∧ c.bad = none ∧ c.count ≤ (rawOf c c.root).length) := by decide +kernel
theorem test_sparse_result : (let b : SpBlock := ⟨5, false, [(7, [(0, .int (-3) false, 0)])]⟩; let c := { coll0 with result := some [b], members := [{ member0 with rank := 1, cap := 24, recv := true, sent := false }] }; getColl (collects c) c.id = some c ∧ b.block < 2 ^ 20 ∧ 0 < c.size ∧ c.op = 0 ∧ c.dty = .i32 ∧ 0 < c.thresh ∧ ¬ 24 < 24 ∧ 23 < 24) := by decide +kernel

/-! ## Bring-up, the host, SPDM, replica sets, the machine -/

/-- A command entry. -/
def entry (op : Nat) (w1 w2 w3 w4 : Word) : CmdEntry := ⟨BitVec.ofNat 64 (op + 2 ^ 32 * 0xABCD), w1, w2, w3, w4, 0, 0, 0⟩

/-- Firmware runs, a private stream is up, all units are ready. -/
def host : State := { st with bar0 := { st.bar0 with stage := 3, cplbase := 0x7000, cmdlog := 4, cpltail := 19, cmdhead := 5, cmdtail := 5 }, spdm := { st.spdm with ide := [1] }, ready := 0x1FFFFFFFFFFFF }

/-- The command is taken up. -/
def cmd (e : CmdEntry) (m : Memory) : State := { host with hostMem := m, hostCmds := [⟨e, false, [], 0⟩] }

/-- It has begun. -/
def begun (e : CmdEntry) (ws : List (Nat × BitVec 32)) : State := { host with hostCmds := [⟨e, true, ws, 0⟩] }

theorem all_zero (e : CmdEntry) (k : Nat) (h : ∀ j, j < 8 → k ≤ j → [e.w0, e.w1, e.w2, e.w3, e.w4, e.w5, e.w6, e.w7].getD j 0 = 0) : ZeroFrom e k := by
  intro j x hj hx
  have hl : j < 8 := (List.getElem?_eq_some_iff.mp hx).1
  have := h j hl hj
  rw [List.getD_eq_getElem?_getD, hx] at this
  exact this

theorem test_turn : Turn (cmd (entry 1 77 0 0 0) []) (entry 1 77 0 0 0) ∧ Awaits (begun (entry 12 0 0 3 0) [(3, 5)]) (entry 12 0 0 3 0) [(3, 5)] ∧ Private host ∧ ¬ Private st := by unfold Turn Awaits Private; decide +kernel
theorem test_zero_from : ZeroFrom (entry 1 77 0 0 0) 2 ∧ ZeroFrom (entry 14 33 5 0 0) 3 ∧ ZeroFrom (entry 13 2 5 9 0) 4 ∧ ZeroFrom (entry 9 1 5 9 64) 5 :=
  ⟨all_zero _ _ (by decide +kernel), all_zero _ _ (by decide +kernel), all_zero _ _ (by decide +kernel), all_zero _ _ (by decide +kernel)⟩
theorem test_power_up : State.reset.bar0.stage = 0 ∧ HwUnit.ioDie 0 ∉ State.reset.mapped := by decide +kernel

/-- The ROM waits. -/
def rom : State := { State.reset with bar0 := { State.reset.bar0 with stage := 1 } }

theorem test_staging : rom.staging.wf = true ∧ 2 ^ 25 - 2 + [1, 2].length ≤ 2 ^ 25 ∧ 2 ^ 25 < 2 ^ 25 - 2 + [1, 2, 3].length ∧ rom.bar0.stage = 1 ∧ host.bar0.stage ≠ 1 := by decide +kernel
theorem test_go : laid rom.staging 0 4 ≠ 0x4C414E49 := by decide +kernel
theorem test_verify_fails : (let s := { rom with bar0 := { rom.bar0 with stage := 2 } }; s.bar0.stage = 2 ∧ verifyStatus s ≠ 0) := ⟨by decide +kernel, by unfold verifyStatus; rw [if_pos (by decide +kernel)]; decide⟩

/-- An image of 65,536 bytes of zeros with its header. -/
def image : State := { State.reset with staging := (Memory.write [] 0 [0x49, 0x4E, 0x41, 0x4C, 1]).write 0x12 [1], bar0 := { State.reset.bar0 with stage := 2, go := BitVec.ofNat 64 (headerSize + 65536) } }

theorem test_image_verifies (h : Config.signatureGood (image.staging.bytes 0 0x60) (image.staging.bytes 0x60 4627) = true) (k : Config.sha3_512 (image.staging.bytes headerSize (bodyLen image)) = image.staging.bytes 0x20 64) : image.bar0.stage = 2 ∧ verifyStatus image = 0 := by
  refine ⟨rfl, ?_⟩
  unfold verifyStatus
  rw [if_neg (by decide +kernel), if_neg (by decide +kernel), h, k]
  simp

theorem test_doorbell : host.hostCmds = [] ∧ (18 : Word) ≠ host.bar0.cmdhead ∧ host.bar0.stage = 3 := by decide +kernel
theorem test_units : HwUnit.cluster 7 2 ∉ host.mapped ∧ HwUnit.die 7 ∉ host.mapped ∧ HwUnit.cluster 7 2 ∈ ({ host with mapped := [.cluster 7 2] } : State).mapped ∧ ({ host with cores := [], gangs := [] } : State).cores = [] := by decide +kernel
theorem test_setdev : (77 : Word).extractLsb' 12 52 = 0 ∧ (77 : Word) ≠ 4095 ∧ host.numset = false ∧ ({ host with numset := true } : State).numset = true ∧ (4095 : Word).extractLsb' 12 52 = 0 := by decide +kernel
theorem test_port : (let w : Word := 0x10F; w.extractLsb' 4 4 = 0 ∧ w.extractLsb' 9 55 = 0 ∧ w.getLsbD 8 = true ∧ (getPort host (w.extractLsb' 0 4).toNat).ready = false ∧ (getPort { host with ports := host.ports.set 15 { Port.reset with ready := true } } 15).ready = true) := by decide +kernel
theorem test_route : (let w : Word := BitVec.ofNat 64 (0xFFF + 2 ^ 16 * 15 + 2 ^ 21 * 31); w.extractLsb' 12 4 = 0 ∧ w.extractLsb' 26 38 = 0 ∧ (w.extractLsb' 16 5).toNat < 16 ∧ w.extractLsb' 21 5 = 31) ∧ Quiet host := by unfold Quiet; decide +kernel
theorem test_clear : (let w : Word := 0x207; w.extractLsb' 3 5 = 0 ∧ w.extractLsb' 10 54 = 0 ∧ w.extractLsb' 8 2 ≠ 3 ∧ host.ready.getLsbD (3 * 7 + 2) = true ∧ st.ready.getLsbD (3 * 7 + 2) = false) := by decide +kernel
theorem test_cap : 1200 ≤ (2400 : Word).toNat ∧ (2400 : Word).toNat ≤ 2400 ∧ 2400 < (2401 : Word).toNat ∧ (1199 : Word).toNat < 1200 := by decide +kernel

/-- A job descriptor of 64 bytes. -/
def jobBytes (jobn asid : Nat) : List Byte := [BitVec.ofNat 64 (jobn + 2 ^ 16 * asid), 0x0FFF000000002000, 4, 0, 0, 0, 0, (5 : Word)].flatMap wordBytes

/-- It stands in host memory. -/
def jobAt (jobn asid : Nat) : State := cmd (entry 6 0x1000 0 0 0) (Memory.write [] 0x1000 (jobBytes jobn asid))

theorem test_jobnew : jobBad ((jobAt 7 9).hostMem.bytes 0x1000 64) = false ∧ (∀ k ∈ (jobAt 7 9).jobs, k.jobn ≠ 7 ∧ k.asid ≠ 9) ∧ (jobOfBytes ((jobAt 7 9).hostMem.bytes 0x1000 64) 0).jobn = 7 ∧ (jobOfBytes ((jobAt 7 9).hostMem.bytes 0x1000 64) 0).asid = 9 ∧ jobBad ((jobAt 7 0).hostMem.bytes 0x1000 64) = true ∧
    ∃ k ∈ (jobAt 1 9).jobs, k.jobn = (jobOfBytes ((jobAt 1 9).hostMem.bytes 0x1000 64) 0).jobn := by decide +kernel
theorem test_jobend : (getJob host 1).isSome = true ∧ jobInUse host 1 = true ∧ jobInUse { host with gangs := [] } 1 = false ∧ getJob host 5 = none ∧ (1 : Word).extractLsb' 16 48 = 0 := by decide +kernel

/-- A table word with V = 1. -/
def tableWord (a : Nat) : Word := BitVec.ofNat 64 (1 + (a % 2 ^ 36 / 256) * 256 + (a / 2 ^ 36) * 2 ^ 36)

/-- A leaf of 64 MiB at 0x8000000. -/
def leafWord : Word := BitVec.ofNat 64 (3 + 4 + 8 + 0x8000000 + 0xFFF * 2 ^ 39)

/-- Job 1's root at 0x100000, its first table at 0x200000. -/
def mapped : State := { hbmWrite (die' (fun d => { d with asids := [(1, tableWord 0x100000)], tlb := [] }) (cmd (entry 8 1 0x0FFF000000000000 leafWord 2) [])) 0 0x100000 (wordBytes (tableWord 0x200000)) with jobs := st.jobs.map fun j => { j with key := 1 } }

theorem test_map : (0x0FFF000000000000 : Word).extractLsb' 60 4 = 0 ∧ isRemote mapped 0x0FFF000000000000 = false ∧ (getJob mapped 1).map (fun j => keyOf mapped j.asid == j.key) = some true ∧ dieReady mapped 0 = true ∧ leafWord.getLsbD 0 = true ∧ leafWord.getLsbD 1 = true ∧ malformed 1 leafWord = false ∧
    ownDev mapped (leafWord.extractLsb' 39 12) = true ∧ mapped.ready.getLsbD (24 + (leafWord.extractLsb' 36 3).toNat) = true ∧ mapped.hbm.wf = true := by decide +kernel
theorem test_map_tables : tableAddr (asidWord mapped 0 1) = 0x100000 ∧ entryIs 0 (readEntry mapped 0x100000 0 (farOff 0x0FFF000000000000)) = .table 0x200000 ∧ physAddr (leafWord.extractLsb' 36 3).toNat (65536 * (leafWord.extractLsb' 16 20).toNat) = 0x8000000 ∧
    ∀ x, (0x100000 ≤ x ∧ x < 0x100000 + 8192) ∨ (0x200000 ≤ x ∧ x < 0x200000 + 4096) → ¬ (0x8000000 ≤ x ∧ x < 0x8000000 + 2 ^ 26) :=
  ⟨by decide +kernel, by decide +kernel, by decide +kernel, fun x => by omega⟩
theorem test_dma : (let s := cmd (entry 9 1 0x3001 0x0FFF000000001013 192) []; (0x0FFF000000001013 : Word).toNat % 65536 + 192 ≤ 65536 ∧ (getJob s 1).isSome = true ∧ isRemote s 0x0FFF000000001013 = false ∧ s.hbm.wf = true ∧ isOk (translate s 1 0x0FFF000000001013 .store) = true ∧ isOk (translate s 1 0x0FFF000000001013 .load) = true) := by decide +kernel

/-- A QUEUE command's word 2. -/
def queueWord : Word := BitVec.ofNat 64 (3 + 8 + 16 + 1 * 256 + 5 * 2 ^ 24 + 9 * 2 ^ 27)

theorem test_queue : (let w : Word := 0x3F07; w.extractLsb' 3 5 = 0 ∧ w.extractLsb' 14 50 = 0 ∧ queueOk queueWord 0x0FFF000000040000 = true ∧ dieReady host 7 = true ∧ (getJob host (queueWord.extractLsb' 8 16).toNat).isSome = true ∧ getQueue host 7 63 = none) ∧ (getQueue (queued q0) 0 3).map (·.en) = some true := by decide +kernel
theorem test_enq : (let s := { queued q0 with bar0 := host.bar0, hostCmds := [⟨entry 14 3 ra 0 0, false, [], 0⟩] }; Turn s (entry 14 3 ra 0 0)) ∧ ra.extractLsb' 0 6 = 0 ∧ (3 : Word).extractLsb' 6 2 = 0 ∧ (3 : Word).extractLsb' 11 53 = 0 := by unfold Turn; decide +kernel
theorem test_unmap : shootOk 0x100000 0x5000 = true ∧ (0x7 : Word).extractLsb' 3 61 = 0 ∧ dieReady host 7 = true ∧ (0x7 : Word).getLsbD 8 = false ∧ (getDie (updDie host 3 fun d => { d with shootDone := [4, 5] }) 3).shootDone.contains 5 = true ∧ (getDie host 3).shootDone.contains 5 = false := by decide +kernel
theorem test_preempt : (let s := { host with ready := 1, timers := [] }; preemptOk 0x102 0x40 9 = true ∧ (0x102 : Word).extractLsb' 0 2 = 2 ∧ (getJob s ((0x102 : Word).extractLsb' 8 32).toNat).isSome = true ∧ getGang s 1 = some fetchGang ∧ s.gangs = [fetchGang] ∧ fetchGang.job = 1 ∧ fetchGang.die = 0 ∧ fetchGang.saved = none ∧ fetchGang.completed = false ∧ fetchGang.rset = none ∧
    (∀ k, k < 8 → (dieReady s k = true ↔ k = 0)) ∧ (getDie s 0).preempts = []) := by decide +kernel
theorem test_preempt_ends : endedPreempt (begun (entry 15 0x102 0x40 9 0) []) (entry 15 0x102 0x40 9 0) = none := by decide +kernel
theorem test_slot : (let w : Word := 0x102; w.extractLsb' 3 5 = 0 ∧ w.extractLsb' 24 40 = 0 ∧ dieReady host 2 = true ∧ (getJob host 1).isSome = true ∧ (getDie (begun (entry 16 w 0 0 0) []) 2).slotWant = none) := by decide +kernel

/-- An agreed connection, a session open. -/
def spdm' (n : Nat) : State := { host with identity := some [1, 2], measured := [[1], [2], [3]], spdm := { host.spdm with version := true, caps := true, algs := true, session := n } }

theorem test_connected : Connected (spdm' 1) ∧ (spdm' 1).identity = some [1, 2] ∧ (∀ n, n < 4 → n ∈ [3, 2, 1, 0]) ∧ (3 < 4 ∧ 3 ∉ [0, 1, 2]) ∧ (spdm' 1).measured[2]? = some [3] ∧ (spdm' 1).spdm.session = 1 ∧ (spdm' 2).spdm.session = 2 ∧ (spdm' 1).spdm.session ≠ 2 ∧ 9 ∉ (spdm' 2).spdm.ide := by unfold Connected; decide +kernel
theorem test_digests (c : List Byte) (h : c ≠ []) : (let s := { spdm' 1 with chain := c, identity := some (Config.leafKey c) }; Config.leafKey s.chain = Config.leafKey c ∧ s.chain ≠ []) := ⟨rfl, h⟩
theorem test_finish : Config.sha384 (spdm' 1).spdm.transcript = Config.sha384 (spdm' 1).spdm.transcript ∧ Config.sha384 (spdm' 1).spdm.transcript ≠ 0 :: Config.sha384 (spdm' 1).spdm.transcript := ⟨rfl, fun h => absurd (congrArg List.length h) (by simp)⟩

/-- A pair's gangs: the leeward on die 1. -/
def gangA : Gang := { fetchGang with strands := [2], rset := some 5, ridx := 0, repl := 2 }

/-- Its leeward. -/
def gangL : Gang := { fetchGang with gid := 3, strands := [6], rset := some 5, ridx := 1, repl := 2, die := 1 }

/-- A release at its comparison point. -/
def point : Closing := { phase := .compare, mask := 4, cpt := 0x0FFF000000004000, next := 0x0FFF000000005000, post := [], lines := [], gen := [], items := [], compare := true, keep := false, open_ := 0, rids := [], faults := [], late := false, kept := [], before := none, record := none, recBytes := [], reject := false }

/-- The windward's strand with its signature. -/
def windOne : Strand := { st.me with st := .parked, closing := some point, sig := some 5, window := 7, ordinal := 3, cpt := 0x0FFF000000000800, log := [⟨.s 5, 9, .full, 0⟩] }

/-- The leeward's. -/
def leeOne : Strand := { windOne with sid := 6, gid := 3, loc := some (216, 0) }

/-- The pair. -/
def pair (a b : Strand) : State := { st with me := a, pool := [b], gangs := [gangA, gangL], rsets := [⟨5, [1, 3], []⟩] }

theorem test_comparison : (let s := pair windOne leeOne; getRSet s 5 = some ⟨5, [1, 3], []⟩ ∧ setStrandsAt s ⟨5, [1, 3], []⟩ 0 = [windOne, leeOne] ∧ getStrand s 2 = some windOne ∧ getStrand s 6 = some leeOne ∧ windOne.sig = leeOne.sig ∧ windOne.verdict = false ∧ leeOne.verdict = false ∧ windOne.heldTrap = none ∧ leeOne.heldTrap = none ∧ windOne.closing = some point ∧ windOne.tries = 0) := by decide +kernel
theorem test_comparison_differs : setStrandsAt (pair windOne { leeOne with sig := some 6 }) ⟨5, [1, 3], []⟩ 0 = [windOne, { leeOne with sig := some 6 }] ∧ windOne.sig ≠ some 6 := by decide +kernel
theorem test_replica_go : (let s := pair { leeOne with verdict := true } windOne; s.me.closing = some point ∧ s.me.verdict = true ∧ point.phase = .compare ∧ point.compare = true ∧ point.post = [] ∧ point.keep = false ∧ s.me.st = .parked ∧ s.me.heldTrap = none ∧ s.me.mark = none) := by decide +kernel

/-- A leeward parked on a value that the windward is to send. -/
def awaits : State := me' (fun t => { t with st := .parked, parkid := some (.s 5), waitset := none, agreeWait := [(3, 2, 0x405, some (.value 77))] }) owed

theorem test_agreed : awaits.me.st = .parked ∧ awaits.me.parkid = some (.s 5) ∧ awaits.me.loc.isSome = true ∧ awaits.mirrors = [] ∧ (awaits.me.regs.get (.s 5)).st = .pending ∧ (awaits.me.regs.get (.s 5)).tag = 0x405 ∧ OnlyOwed awaits 0x405 [.s 5] :=
  ⟨by decide +kernel, by decide +kernel, by decide +kernel, rfl, by decide +kernel, by decide +kernel, all_regs _ (by decide +kernel) (by decide +kernel) (by decide +kernel), by decide +kernel⟩
theorem test_late : (let s := pair windOne { leeOne with late := some 13000000 }; (liveGids ⟨5, [1, 3], []⟩).filterMap (getGang s) = [gangA, gangL] ∧ gangA.ridx.toNat ≠ 1 ∧ gangL.ridx.toNat = 1 ∧ unitGone s gangL = false ∧ gangL.strands.filterMap (getStrand s) = [{ leeOne with late := some 13000000 }] ∧ getGang s 1 = some gangA ∧ getGang s 3 = some gangL ∧
    (setStrandsAt s ⟨5, [1, 3], []⟩ leeOne.lidx).length = 2) := by decide +kernel

/-- An ADD stands alone at NEXT. -/
def oneAdd : State := State.reset.withFetchWord 32 0x04031000

theorem test_one_at_next : OneAtNext oneAdd 1 0x04031000 none ∧ encode (.add 0 3 4 (.reg 0) .w64) = some (1, 0x04031000, none) := by unfold OneAtNext; decide +kernel
theorem test_step_order : State.reset.inbox = [] ∧ (∀ e ∈ State.reset.timers, State.reset.clock < e.due) ∧ State.reset.devOut = [] ∧ pickIssue State.reset = none ∧ pickIssue st = some 2 ∧ endOfCk (.semaFill 2 3) = true ∧ endOfCk (.sleepEnd 2) = false := by decide +kernel
theorem test_memories_reset : MemoriesOk State.reset := by unfold MemoriesOk; decide +kernel
theorem test_constants_reset : ConstantsOk State.reset := by
  refine ⟨fun t h => ?_, fun x h => nomatch h⟩
  rcases h with rfl | h
  · unfold ConstantsRead; decide +kernel
  · exact nomatch h

end Sys2Proof.Tests
end

section
/-! PROOFS. One lemma for each function of the model that answers a state: it keeps whatever property of register files and memories their writes keep. `Inv.Holds.step` says it of a whole step; O59 is the property that s0 and p0 read as constants. -/

namespace Sys2Proof.Machine
open Sys2Proof Claims
-- one proof after another: hundreds of short ones side by side need more threads than the check's memory limit gives
set_option Elab.async false

/-! ## Properties that writes keep -/

/-- A property of register files and of memories that holds at their start and that every write keeps. -/
structure Inv where
  reg : RegFile → Prop
  mem : Memory → Prop
  keys : List (Nat × Nat) → Prop
  reg_start : reg RegFile.start
  reg_put : ∀ r x y, reg r → reg (r.put x y)
  mem_nil : mem []
  mem_write : ∀ m a bs, mem m → mem (Memory.write m a bs)
  mem_filter : ∀ (m : Memory) p, mem m → mem (m.filter p)
  keys_line : ∀ l k ks, keys ks → keys (keyLine l k ks)
  keys_span : ∀ lo n k ks, keys ks → keys (ks.filter (fun l => decide (l.1 < lo)) ++ (upto n).map (fun i => (lo + i, k)) ++ ks.filter fun l => decide (lo + n ≤ l.1))

/-- The property of every register file and every memory of a state, part by part. -/
structure Inv.On (I : Inv) (me : RegFile) (pool : List Strand) (issue : Option Issue) (hbm near staging hostMem : Memory) (keys : List (Nat × Nat)) : Prop where
  me : I.reg me
  pool : ∀ t ∈ pool, I.reg t.regs
  issue : ∀ x, issue = some x → I.reg x.regs
  hbm : I.mem hbm
  near : I.mem near
  staging : I.mem staging
  hostMem : I.mem hostMem
  keys : I.keys keys

/-- The property of every register file and every memory of a state. -/
def Inv.Holds (I : Inv) (s : State) : Prop := I.On s.me.regs s.pool s.issue s.hbm s.near s.staging s.hostMem s.lineKey

/-- The property of the registers of a strand. -/
def Inv.Has (I : Inv) (t : Strand) : Prop := I.reg t.regs

/-- The property of the next state, where there is one. -/
def Inv.Next (I : Inv) : Out State → Prop
  | .next t => I.Holds t
  | _ => True

/-- The property of the state that an attempt answers, where it answers one. -/
def Inv.Ok (I : Inv) {ε : Type} : Except ε State → Prop
  | .ok t => I.Holds t
  | .error _ => True

variable {I : Inv} {s : State} {t : Strand}

theorem Inv.Holds.ite {c : Prop} [Decidable c] {s' : State} (h : I.Holds s) (h' : I.Holds s') : I.Holds (if c then s else s') := by
  split
  · exact h
  · exact h'

theorem Inv.Has.ite {c : Prop} [Decidable c] {t' : Strand} (h : I.Has t) (h' : I.Has t') : I.Has (if c then t else t') := by
  split
  · exact h
  · exact h'

@[simp] theorem Inv.Holds.next (h : I.Holds s) : I.Next (.next s) := h

theorem Inv.Next.ite {c : Prop} [Decidable c] {s' : State} (h : I.Holds s) (h' : I.Holds s') : I.Next (.next (if c then s else s')) := Inv.Holds.ite h h'

theorem Inv.Ok.ok {ε : Type} {x : Except ε State} (h : I.Ok x) (e : x = .ok s) : I.Holds s := by
  subst e; exact h

theorem Inv.Holds.foldl {α : Type} {l : List α} {f : State → α → State} (h : I.Holds s) (hf : ∀ s x, I.Holds s → I.Holds (f s x)) : I.Holds (l.foldl f s) := by
  induction l generalizing s with
  | nil => exact h
  | cons x l ih => exact ih (hf s x h)

theorem forall_mem_updFirst {α : Type} {P : α → Prop} {p : α → Bool} {f : α → α} (hf : ∀ x, P x → P (f x)) {l : List α} (h : ∀ x ∈ l, P x) : ∀ x ∈ updFirst p f l, P x := by
  induction l with
  | nil => exact h
  | cons y l ih =>
    obtain ⟨hy, hl⟩ := List.forall_mem_cons.mp h
    unfold updFirst
    split
    · exact List.forall_mem_cons.mpr ⟨hf y hy, hl⟩
    · exact List.forall_mem_cons.mpr ⟨hy, ih hl⟩

theorem mem_of_mem_dropFirst {α : Type} {p : α → Bool} {x : α} {l : List α} (h : x ∈ dropFirst p l) : x ∈ l := by
  induction l with
  | nil => exact h
  | cons y l ih =>
    unfold dropFirst at h
    split at h
    · exact List.mem_cons_of_mem _ h
    · exact (List.mem_cons.mp h).elim (· ▸ List.mem_cons_self) fun h => List.mem_cons_of_mem _ (ih h)

/-- A fold that stores strands which have the property. -/
theorem Inv.Holds.foldl_mem {α : Type} {P : α → Prop} {l : List α} {f : State → α → State} (h : I.Holds s) (hl : ∀ x ∈ l, P x) (hf : ∀ s x, I.Holds s → P x → I.Holds (f s x)) : I.Holds (l.foldl f s) := by
  induction l generalizing s with
  | nil => exact h
  | cons x l ih =>
    obtain ⟨hx, hl⟩ := List.forall_mem_cons.mp hl
    exact ih (hf s x h hx) hl

theorem Inv.Holds.withFresh {n : Nat} (h : I.Holds s) : I.Holds { s with fresh := n } := h

theorem Inv.Holds.has_me (h : I.Holds s) : I.Has s.me := h.me
/-- Both answers of a report keep the property: the state that goes on, where there is one, and the state of the answer. -/
structure Inv.Both (I : Inv) (r : Option State × State) : Prop where
  go : ∀ s, r.1 = some s → I.Holds s
  wait : I.Holds r.2

theorem Inv.Both.some (h : I.Holds s) : I.Both (some s, s) := ⟨fun _ e => Option.some.inj e ▸ h, h⟩

theorem Inv.Both.none (h : I.Holds s) : I.Both (none, s) := ⟨fun _ e => (nomatch e), h⟩

theorem Inv.Both.of_eq {r o} (h : I.Both r) (e : r = (o, s)) : I.Holds s := by
  subst e; exact h.wait

theorem Inv.Both.of_eq_some {r s'} (h : I.Both r) (e : r = (Option.some s, s')) : I.Holds s := by
  subst e; exact h.go s rfl

/-- What an offer of a queue answers keeps the property. -/
def Inv.Offered (I : Inv) : Offered → Prop
  | .served t => I.Holds t
  | .stuck t => I.Holds t
  | .unplaced => True

/-- What a host command answers keeps the property. -/
def Inv.Cmd (I : Inv) : CmdRes → Prop
  | .done _ _ t => I.Holds t
  | .wait t => I.Holds t
  | .awaits t => I.Holds t

theorem Inv.Cmd.done {st v} (h : I.Holds s) : I.Cmd (.done st v s) := h

theorem Inv.Cmd.wait (h : I.Holds s) : I.Cmd (.wait s) := h

theorem Inv.Cmd.awaits (h : I.Holds s) : I.Cmd (.awaits s) := h

/-! ## Every function keeps them -/

/-! ### The state -/

theorem Inv.Has.none : I.Has Strand.none := I.reg_start

/-! ### Memory and address translation -/

theorem Inv.Holds.rekeyLine {key l} (h : I.Holds s) : I.Holds (rekeyLine key s l) := by
  unfold Machine.rekeyLine
  split
  · exact { h with keys := I.keys_line _ _ _ h.keys }
  · exact .ite h ({ h with hbm := I.mem_write _ _ _ h.hbm, keys := I.keys_line _ _ _ h.keys })

theorem Inv.Holds.hbmWrite {key a bs} (h : I.Holds s) : I.Holds (hbmWrite s key a bs) := by
  unfold Machine.hbmWrite
  extract_lets s
  have hs : I.Holds s := h.foldl (fun _ _ hs => hs.rekeyLine)
  exact { hs with hbm := I.mem_write _ _ _ hs.hbm }

theorem Inv.Holds.takeUnit {job a} (h : I.Holds s) : I.Holds (takeUnit job s a) := .ite h ({ h with near := I.mem_write _ _ _ h.near })

theorem Inv.Holds.nearWrite {job a bs} (h : I.Holds s) : I.Holds (nearWrite s job a bs) := by
  unfold Machine.nearWrite
  split
  · exact h
  extract_lets s
  have hs : I.Holds s := h.foldl (fun _ _ hs => hs.takeUnit)
  exact { hs with near := I.mem_write _ _ _ hs.near }

theorem Inv.Holds.placeBytes {key ps bs} (h : I.Holds s) : I.Holds (placeBytes key ps bs s) := by
  induction ps generalizing bs s with
  | nil => exact h
  | cons p ps ih => exact ih h.hbmWrite

theorem Inv.Holds.placeHere {key ps bs} (h : I.Holds s) : I.Holds (placeHere key ps bs s) := by
  induction ps generalizing bs s with
  | nil => exact h
  | cons p ps ih =>
    refine ih ?_
    exact .ite h h.hbmWrite

theorem Inv.Holds.devWrite {asid va bs} (h : I.Holds s) : I.Ok (devWrite s asid va bs) := by
  unfold Machine.devWrite
  split
  · exact h
  · split
    · trivial
    split
    · exact h.placeHere
    · exact h.placeBytes

theorem Inv.Holds.devWriteAll {asid ws} (h : I.Holds s) : I.Ok (devWriteAll s asid ws) := by
  induction ws generalizing s with
  | nil => exact h
  | cons w ws ih =>
    unfold Machine.devWriteAll
    split
    · trivial
    next s' e => exact ih (h.devWrite.ok e)

/-! ### Frames and the records of a strand -/

/-- A register file that is read from a frame is written register by register over the file of a start (R29). -/
theorem Inv.reg_frameFile (bs : List Byte) : I.reg (frameFile bs) := List.foldlRecOn _ _ I.reg_start fun _ h _ _ => I.reg_put _ _ _ h

theorem Inv.Has.loadFrame {bs} : I.Has (loadFrame bs t) := Inv.reg_frameFile bs

theorem Inv.Has.loadCrec {bs} (h : I.Has t) : I.Has (loadCrec bs t) := h

/-! ### The ports of the package -/

theorem Inv.Holds.addTimer {due ev} (h : I.Holds s) : I.Holds (addTimer s due ev) := h

theorem Inv.Holds.after {n ev} (h : I.Holds s) : I.Holds (after s n ev) := h

theorem Inv.Holds.later {ev} (h : I.Holds s) : I.Holds (later s ev) := h

theorem Inv.Holds.poll {ev} (h : I.Holds s) : I.Holds (poll s ev) := .ite h h.later

theorem Inv.Holds.takeId (h : I.Holds s) : I.Holds (takeId s).2 := h

theorem Inv.Holds.updPort {p f} (h : I.Holds s) : I.Holds (updPort s p f) := h

theorem Inv.Holds.putFlit {p f} (h : I.Holds s) : I.Holds (putFlit s p f) := h

theorem Inv.Holds.sendFlit {f} (h : I.Holds s) : I.Holds (sendFlit s f) := by
  unfold Machine.sendFlit
  split
  · exact h
  · exact .ite h (.putFlit h)

theorem Inv.Holds.drainFlits (h : I.Holds s) : I.Holds (drainFlits s) := .foldl h (fun _ _ hs => hs.sendFlit)

theorem Inv.Holds.sendPacket {dev cls b} (h : I.Holds s) : I.Holds (sendPacket s dev cls b) := h.sendFlit

theorem Inv.Holds.sendReq {dev what mk} (h : I.Holds s) : I.Holds (sendReq s dev what mk) := .sendPacket (.after h.takeId)

theorem Inv.Holds.takeReq {rid r s'} (h : I.Holds s) (e : takeReq s rid = some (r, s')) : I.Holds s' := by
  unfold Machine.takeReq at e
  split at e
  · cases e
  · cases e; exact h

/-! ### Operations over the state -/

theorem Inv.Holds.getStrand {sid} (h : I.Holds s) (e : getStrand s sid = some t) : I.Has t := by
  unfold Machine.getStrand at e
  split at e
  · exact Option.some.inj e ▸ h.me
  · exact h.pool t (List.mem_of_find?_eq_some e)

/-- The strands that a list of names finds. -/
theorem Inv.Holds.has_filterMap {l : List Nat} (h : I.Holds s) : ∀ t ∈ l.filterMap (Machine.getStrand s), I.Has t := fun _ ht =>
  have ⟨_, _, e⟩ := List.mem_filterMap.mp ht
  h.getStrand e

theorem Inv.Holds.updStrand {sid} {f : Strand → Strand} (h : I.Holds s) (hf : ∀ t, I.Has t → I.Has (f t) := by exact fun _ ht => ht) : I.Holds (updStrand s sid f) := by
  unfold Machine.updStrand
  exact .ite ({ h with me := hf _ h.me }) ({ h with pool := forall_mem_updFirst hf h.pool })

theorem Inv.Holds.focus {sid} (h : I.Holds s) : I.Holds (focus s sid) := by
  unfold Machine.focus
  split
  · exact h
  split
  · exact h
  next t e =>
    refine { h with me := h.pool t (List.mem_of_find?_eq_some e), pool := fun u hu => ?_ }
    rcases List.mem_append.mp hu with hu | hu
    · split at hu
      · exact absurd hu List.not_mem_nil
      · exact List.mem_singleton.mp hu ▸ h.me
    · exact h.pool u (mem_of_mem_dropFirst hu)

theorem Inv.Holds.updGang {gid f} (h : I.Holds s) : I.Holds (updGang s gid f) := h

theorem Inv.Holds.updJob {j f} (h : I.Holds s) : I.Holds (updJob s j f) := h

theorem Inv.Holds.putCore {c} (h : I.Holds s) : I.Holds (putCore s c) := h

theorem Inv.Holds.updCore {c f} (h : I.Holds s) : I.Holds (updCore s c f) := h

theorem Inv.Holds.updDie {d f} (h : I.Holds s) : I.Holds (updDie s d f) := h

theorem Inv.Has.countEv {code n} (h : I.Has t) : I.Has (countEv t code n) := h

theorem Inv.Has.countHere {code n} (h : I.Has t) : I.Has (countHere t code n) := .ite h.countEv h

theorem Inv.Holds.hashItem {kind opc sub ws} (h : I.Holds s) : I.Holds (hashItem s kind opc sub ws) := .ite ({ h with me := h.has_me }) h

theorem Inv.Holds.offerSig {sid x} (h : I.Holds s) : I.Holds (offerSig s sid x) := by
  unfold Machine.offerSig
  split
  · exact h
  split
  · exact h
  extract_lets s1 lag s2 s3
  have hs1 : I.Holds s1 := h.updStrand
  have hs2 : I.Holds s2 := hs1.foldl (fun _ _ hs => hs.updStrand)
  have hs3 : I.Holds s3 := by
    unfold s3
    refine hs2.foldl (fun _ _ hs => ?_)
    split
    · exact hs.after
    · exact hs
  exact hs3.later

theorem Inv.Holds.sendAgreed {ord n x} (h : I.Holds s) : I.Holds (sendAgreed s t ord n x) := h.foldl (fun _ _ hs => hs.later)

theorem Inv.Holds.nextAgreed (h : I.Holds s) : I.Holds (nextAgreed s).2 := h

theorem Inv.Has.logFirst {r} (h : I.Has t) : I.Has (logFirst t r) := .ite h h

theorem Inv.Has.withdrawSema {r} (h : I.Has t) : I.Has (withdrawSema t r) := .ite h h

theorem Inv.Has.writeReg {r y} (h : I.Has t) : I.Has (writeReg t r y) := by
  unfold Machine.writeReg
  split
  · exact h
  · exact I.reg_put _ _ _ h.logFirst.withdrawSema

theorem Inv.Has.writeKept {r y} (h : I.Has t) : I.Has (writeKept t r y) := h.writeReg

theorem Inv.Has.obligateT {r aw} (h : I.Has t) : I.Has (obligateT t r aw).1 := by
  unfold Machine.obligateT
  split
  · exact h
  · exact h.writeReg

theorem Inv.Holds.obligate {r aw} (h : I.Holds s) : I.Holds (obligate s r aw).1 := { h with me := h.has_me.obligateT }

theorem Inv.Holds.deliverIn {n sid t' x} (h : I.Holds s) : I.Holds (deliverIn s n sid t' x) := by
  unfold Machine.deliverIn
  split
  · exact h
  · exact h.after

theorem Inv.Holds.deliverLater {sid t' x} (h : I.Holds s) : I.Holds (deliverLater s sid t' x) := by
  unfold Machine.deliverLater
  split
  · exact h
  · exact h.later

theorem Inv.Holds.produce {r lat x} (h : I.Holds s) : I.Holds (produce s r lat x) := h.obligate.deliverIn

theorem Inv.Holds.produceS {d lat x} (h : I.Holds s) : I.Holds (produceS s d lat x) := h.produce

theorem Inv.Holds.produceV {d lat x} (h : I.Holds s) : I.Holds (produceV s d lat x) := h.produce

theorem Inv.Holds.produceP {d lat x} (h : I.Holds s) : I.Holds (produceP s d lat x) := h.produce

theorem Inv.Has.releaseSerial {tag} (h : I.Has t) : I.Has (releaseSerial t tag) := h

theorem Inv.Has.releaseSerials {tags : List Tag} (h : I.Has t) : I.Has (tags.foldl Machine.releaseSerial t) :=
  List.foldlRecOn _ _ h fun _ h _ _ => Inv.Has.releaseSerial h

theorem Inv.Has.deliverT {tag x} (h : I.Has t) : I.Has (deliverT t tag x).1 := by
  unfold Machine.deliverT
  extract_lets r inLog t1 t2 t3
  have h2 : I.Has t2 := by
    unfold t2
    cases r
    · exact h
    · exact I.reg_put _ _ _ h
  exact .ite h2.countHere h2

theorem Inv.Has.wakeResident {at_ r} (h : I.Has t) : I.Has (wakeResident at_ r t) := by
  unfold Machine.wakeResident
  split
  · split
    · exact h
    split
    · exact h
    split
    · exact .ite h h
    · exact h
  · exact .ite h h

theorem Inv.Holds.postFor {e asid acc sid crec gen trap held away} (h : I.Holds s) : I.Holds (postFor s e asid acc sid crec gen trap held away) := h

theorem Inv.Holds.postDesc {e asid acc sid trap held} (h : I.Holds s) : I.Holds (postDesc s e asid acc sid trap held) := h

theorem Inv.Holds.joinWalk {die asid off ev} (h : I.Holds s) : I.Holds (joinWalk s die asid off ev) := .ite h.updDie (.ite h.takeId.updDie.later h.takeId.updDie)

theorem Inv.Holds.askLine {asid line acc hold who ev} (h : I.Holds s) : I.Holds (askLine s asid line acc hold who ev) := by
  unfold Machine.askLine
  extract_lets what ask
  have hask : ∀ x0 x1, I.Holds (ask x0 x1) := by
    intro x0 x1
    unfold ask
    exact .ite h.later h.sendReq
  split
  · exact h
  split
  · exact hask _ _
  split
  · exact hask _ _
  · exact h.later
  · exact .ite h.joinWalk h.later

theorem Inv.Holds.askPage {asid key acc who ev} (h : I.Holds s) : I.Holds (askPage s asid key acc who ev) := .ite h (.ite h.later h.sendReq)

theorem Inv.Holds.awaitAccess {e asid acc hold who ev} (h : I.Holds s) : I.Holds (awaitAccess s e asid acc hold who ev) := .ite h.joinWalk (.ite h.askPage h.askLine)

theorem Inv.Holds.holdEvent {e asid acc sid i} (h : I.Holds s) : I.Holds (holdEvent s e asid acc sid i) := .ite h.awaitAccess h.postDesc

/-- What the records of a strand give does not depend on the strand's registers (R32). -/
theorem Inv.Has.readRecords {u} (e : readRecords s t = .ok u) : I.Has u := by
  unfold Machine.readRecords at e
  split at e
  · cases e
  split at e
  · cases e
  · cases e; exact (Inv.Has.loadFrame (t := t)).loadCrec

theorem Inv.Holds.deliverFrame {tag x} (h : I.Holds s) : I.Holds (deliverFrame s t tag x) := by
  unfold Machine.deliverFrame
  split
  · exact h.holdEvent
  next u e =>
    extract_lets r wakes s1 waited src u2
    have hr : I.Has r.1 := (Inv.Has.readRecords e).deliverT
    have hu2 : I.Has u2 := .ite hr hr
    split
    · exact h.holdEvent
    next s2 e2 =>
      extract_lets s3
      have hs3 : I.Holds s3 := (h.devWriteAll.ok e2).updStrand fun _ _ => hu2
      split
      · exact hs3.after
      · exact hs3

theorem Inv.Holds.deliverOne {at_ sid tag x} (h : I.Holds s) : I.Holds (deliverOne at_ s sid tag x) := by
  unfold Machine.deliverOne
  split
  · exact h
  split
  · exact h
  split
  · refine h.updStrand fun t ht => ?_
    extract_lets r
    split
    · exact ht.deliverT.wakeResident
    · exact ht.deliverT
  · exact h.deliverFrame

theorem Inv.Holds.deliverAll {at_ sid tag x} (h : I.Holds s) : I.Holds (deliverAll at_ s sid tag x) := by
  unfold Machine.deliverAll
  extract_lets hit s1
  have hs1 : I.Holds s1 := .deliverOne h
  exact hs1.foldl (fun _ _ hs => hs.deliverOne)

theorem Inv.Holds.dropAgree {sid tag} (h : I.Holds s) : I.Holds (dropAgree s sid tag) := h.updStrand

theorem Inv.Holds.deliverAt {at_ sid tag x} (h : I.Holds s) : I.Holds (deliverAt at_ s sid tag x) := by
  unfold Machine.deliverAt
  split
  · exact h.deliverAll
  split
  · exact h.dropAgree.deliverAll.sendAgreed
  split
  · exact h.dropAgree.deliverAll
  · exact h.updStrand

theorem Inv.Holds.deliver {sid tag x} (h : I.Holds s) : I.Holds (deliver s sid tag x) := h.deliverAt

theorem Inv.Holds.deliverNow {sid t' x} (h : I.Holds s) : I.Holds (deliverNow s sid t' x) := by
  unfold Machine.deliverNow
  split
  · exact h
  · exact h.deliver

theorem Inv.Holds.deliverDue {sid t' x} (h : I.Holds s) : I.Holds (deliverDue s sid t' x) := by
  unfold Machine.deliverDue
  split
  · exact h
  · exact h.deliverAt

theorem Inv.Holds.enterEvents {n jobn} (h : I.Holds s) : I.Holds (enterEvents n s jobn) := by
  induction n generalizing s with
  | zero => exact h
  | succ n ih =>
    unfold Machine.enterEvents
    split
    · exact h
    split
    · exact h
    split
    · exact h.holdEvent
    split
    · exact .ite h h.later
    split
    · exact h.holdEvent
    next s1 e =>
      extract_lets s2 s3
      have hs2 : I.Holds s2 := (h.devWriteAll.ok e).updJob
      refine ih ?_
      unfold s3
      exact .ite hs2.after hs2

theorem Inv.Holds.postEvent {jobn place trecs bs} (h : I.Holds s) : I.Holds (postEvent s jobn place trecs bs) := by
  unfold Machine.postEvent
  split
  · exact h
  · exact .ite h.updJob h.updJob.after

theorem Inv.Holds.saveTrap {sid} (h : I.Holds s) : I.Holds (saveTrap s sid) := by
  unfold Machine.saveTrap
  split
  · exact h
  rename_i x t1 e
  have ht1 := h.getStrand e
  split
  · exact h
  extract_lets jobn u quiet own
  split
  · exact h.holdEvent
  rename_i x3 s' e2
  have hs' := h.devWriteAll.ok e2
  extract_lets s2
  have hs2 : I.Holds s2 := hs'.updStrand (fun _ hs => ht1)
  exact .ite hs2 hs2.postEvent

theorem Inv.Holds.takeTrapOn {sid r next} (h : I.Holds s) : I.Holds (takeTrapOn s sid r next) := by
  unfold Machine.takeTrapOn
  extract_lets s1
  have hs1 : I.Holds s1 := h.updStrand
  split
  · exact hs1
  · exact .ite hs1.updStrand.offerSig hs1.saveTrap

theorem Inv.Holds.takeTrap {cause mask code addr} (h : I.Holds s) : I.Holds (takeTrap s cause mask code addr) := h.takeTrapOn

theorem Inv.Has.alignTo {w} (h : I.Has t) : I.Has (alignTo w t) := by
  refine List.foldlRecOn (motive := I.reg) _ _ h fun l hl r _ => ?_
  unfold alignReg
  dsimp only
  split
  · exact hl
  · exact I.reg_put _ _ _ hl

theorem Inv.Holds.resumeOne {sid f} (h : I.Holds s) (hf : ∀ t, I.Has t → I.Has (f t)) : I.Holds (resumeOne s sid f) := by
  unfold Machine.resumeOne
  split
  · exact h
  split
  · exact h
  extract_lets wait
  have hwait : ∀ x0 x1 x2, I.Holds (wait x0 x1 x2) := by
    intro x0 x1 x2
    unfold wait
    exact .ite h.updStrand.awaitAccess h.postDesc
  split
  · exact hwait _ _ _
  rename_i x1 t2 e2
  have ht2 : I.Has t2 := Inv.Has.readRecords e2
  extract_lets u
  have hu : I.Has u := hf _ ht2
  split
  · exact hwait _ _ _
  rename_i t3 x2 s' e3
  have hs' := h.devWriteAll.ok e3
  extract_lets s2
  have hs2 : I.Holds s2 := hs'.updStrand (fun _ hs => hu)
  split
  · exact hs2.after
  split
  · exact hs2.after
  · exact hs2

theorem Inv.Holds.resumeStrand {sid} (h : I.Holds s) : I.Holds (resumeStrand s sid) := by
  unfold Machine.resumeStrand
  split
  · exact h
  extract_lets s1
  have hs1 : I.Holds s1 := h.resumeOne fun _ ht => ht
  split
  · exact h
  split
  · exact hs1
  · exact .ite hs1 (hs1.foldl fun _ _ hs => hs.resumeOne fun _ ht => ht.alignTo)

/-- What an undo log restores is written register by register (R286). -/
theorem Inv.reg_restore {l : List LogEntry} {r : RegFile} (h : I.reg r) : I.reg (l.foldl restoreReg r) :=
  List.foldlRecOn _ _ h fun _ h _ _ => I.reg_put _ _ _ h

theorem Inv.Has.rollbackT (h : I.Has t) : I.Has (rollbackT t) := Inv.reg_restore h

theorem Inv.Has.dropLostSemas (h : I.Has t) : I.Has (dropLostSemas t) := h

theorem Inv.Holds.releaseAll {rids} (h : I.Holds s) : I.Holds (releaseAll s rids) := h.foldl (fun _ _ hs => hs.sendPacket)

theorem Inv.Holds.discardWindow {sid} (h : I.Holds s) : I.Holds (discardWindow s sid) := by
  unfold Machine.discardWindow
  split
  · exact h
  extract_lets posts rids gone atoms nears nearTags mine copies divides tags s1 s2 s3
  have h1 : I.Holds s1 := h.updStrand fun _ ht => ht.rollbackT.releaseSerials.dropLostSemas
  have h3 : I.Holds s3 := h1.updStrand
  exact h3.releaseAll

theorem Inv.Holds.forgetAgreed {sid} (h : I.Holds s) : I.Holds (forgetAgreed s sid) := by
  unfold Machine.forgetAgreed
  split
  · exact h
  · exact h.updStrand

theorem Inv.Has.frameView (h : I.Has t) : I.Has (frameView s t) := by
  unfold Machine.frameView
  split
  · exact h
  split
  next e => exact Inv.Has.readRecords e
  · exact h

theorem Inv.Holds.faultRollbackOne {sid kind addr mask f} (h : I.Holds s) (hf : ∀ t, I.Has t → I.Has (f t)) : I.Holds (faultRollbackOne s sid kind addr mask f) := by
  unfold Machine.faultRollbackOne
  split
  · exact h
  rename_i x t1 e
  have ht1 := h.getStrand e
  exact ((h.updStrand (fun _ hs => (hf _ ht1.frameView))).discardWindow).takeTrapOn

theorem Inv.Holds.faultRollbackTo {sid kind addr mask f} (h : I.Holds s) (hf : ∀ t, I.Has t → I.Has (f t)) : I.Holds (faultRollbackTo s sid kind addr mask f) := by
  unfold Machine.faultRollbackTo
  split
  · exact h
  refine (h.faultRollbackOne (fun _ hs => hf _ hs)).foldl (fun _ _ hs => Inv.Holds.forgetAgreed ?_)
  exact .ite (hs.faultRollbackOne (fun _ hs => hf _ hs)) hs

theorem Inv.Holds.faultRollbackOn {sid kind addr mask} (h : I.Holds s) : I.Holds (faultRollbackOn s sid kind addr mask) := h.faultRollbackTo fun _ ht => ht

theorem Inv.Holds.postFault {e acc gen trap} (h : I.Holds s) : I.Holds (postFault s t e acc gen trap) := .ite h.sendPacket h.postFor

theorem Inv.Holds.faultStrand {e mask acc gen} (h : I.Holds s) : I.Holds (faultStrand s t e mask acc gen) := h.faultRollbackOn.postFault

/-! ### The near-memory engine -/

theorem Inv.Holds.scatterLanes {job o t' lanes} (h : I.Holds s) : I.Holds (scatterLanes s job o t' lanes) := h.foldl (fun _ _ hs => hs.nearWrite)

theorem Inv.Holds.takeBanks {core bs} (h : I.Holds s) : I.Holds (takeBanks s core bs) := .ite h h.updCore

theorem Inv.Holds.performNear {o due} (h : I.Holds s) : I.Holds (performNear s o due) := by
  unfold Machine.performNear
  extract_lets job
  split
  · exact h.foldl (fun _ _ hs => hs.nearWrite)
  · exact h.scatterLanes
  · exact h.nearWrite.deliverIn

theorem Inv.Holds.clearFence {sid id} (h : I.Holds s) : I.Holds (clearFence s sid id) := h.updStrand

theorem Inv.Holds.drainNear {sid p} (h : I.Holds s) : I.Holds (drainNear s sid p) := h.foldl (fun _ _ hs => .clearFence (.performNear hs))

theorem Inv.Holds.drainSlice {sid slice} (h : I.Holds s) : I.Holds (drainSlice s sid slice) := h.drainNear

theorem Inv.Holds.drainAll {sid} (h : I.Holds s) : I.Holds (drainAll s sid) := h.drainNear

theorem Inv.Holds.sendNear {slice loc w ev} (h : I.Holds s) : I.Holds (sendNear s t slice loc w ev) := .later h.takeId

theorem Inv.Holds.nearPut {slice loc w} (h : I.Holds s) : I.Holds (nearPut s t slice loc w) := .ite h.drainSlice.performNear h.sendNear

theorem Inv.Holds.nearStore {slice loc bs} (h : I.Holds s) : I.Holds (nearStore s t slice loc bs) := .ite h.drainSlice.nearWrite h.sendNear

theorem Inv.Holds.nearLoad {g a n} (h : I.Holds s) : I.Holds (nearLoad s g t a n).1 := h.drainSlice

theorem Inv.Holds.arriveNear {id} (h : I.Holds s) : I.Holds (arriveNear s id) := by
  unfold Machine.arriveNear
  split
  · exact h
  extract_lets s1 s2
  have hs1 : I.Holds s1 := h.drainNear
  have hs2 : I.Holds s2 := .clearFence (.performNear hs1)
  exact .ite hs2.takeBanks hs2

@[simp] theorem Inv.Holds.execNearStorePerformed {id} (h : I.Holds s) : I.Next (execNearStorePerformed id s) := h.arriveNear

@[simp] theorem Inv.Holds.execNearAtomicApply {id} (h : I.Holds s) : I.Next (execNearAtomicApply id s) := h.arriveNear

theorem Inv.Holds.nearSoon {loc ev} (h : I.Holds s) : I.Holds (nearSoon s loc ev) := h

/-! ### The far-memory engine -/

theorem Inv.Has.gateByte {va b} (h : I.Has t) : I.Has (gateByte s t va b) := .ite h h

theorem Inv.Has.gateBytes {va bs} (h : I.Has t) : I.Has (gateBytes s t va bs) := by
  induction bs generalizing t va with
  | nil => exact h
  | cons b bs ih => exact ih h.gateByte

theorem Inv.Has.injectStore {x n} (h : I.Has t) : I.Has (injectStore s t x n).2 := by
  unfold Machine.injectStore
  extract_lets c ord idx b
  split
  · exact h
  · exact h

theorem Inv.Holds.runJoined {ev} (h : I.Holds s) : I.Holds (runJoined s ev) := by
  unfold Machine.runJoined
  split
  · exact h
  · exact .ite h h.after

theorem Inv.Holds.answerWalk {w what} (h : I.Holds s) : I.Holds (answerWalk s w what) := .foldl h (fun _ _ hs => hs.runJoined)

theorem Inv.Holds.fillTlb {die asid off what} (h : I.Holds s) : I.Holds (fillTlb s die asid off what) := by
  unfold Machine.fillTlb
  split
  · exact .ite h h.updDie
  · exact h

theorem Inv.Holds.startQueued {die} (h : I.Holds s) : I.Holds (startQueued s die) := by
  unfold Machine.startQueued
  split
  · exact h
  · exact h.updDie.later

@[simp] theorem Inv.Holds.execTlbWalkComplete {die id} (h : I.Holds s) : I.Next (execTlbWalkComplete die id s) := by
  unfold Machine.execTlbWalkComplete
  extract_lets d
  split
  · exact h
  · exact .ite h.updDie.later h.updDie.fillTlb.answerWalk.startQueued

theorem Inv.Holds.updLoad {id f} (h : I.Holds s) : I.Holds (updLoad s id f) := h

theorem Inv.Holds.dropLoad {l} (h : I.Holds s) : I.Holds (dropLoad s l) := .clearFence h

theorem Inv.Holds.bindPart {id va bs} (h : I.Holds s) : I.Holds (bindPart s id va bs) := by
  unfold Machine.bindPart
  extract_lets s1
  have hs1 : I.Holds s1 := h.updLoad
  split
  · exact hs1
  · exact .ite hs1.dropLoad.deliverLater hs1

theorem Inv.Holds.linkLoad {id} (h : I.Holds s) : I.Holds (linkLoad s id) := by
  unfold Machine.linkLoad
  split
  · exact h
  · exact h.dropLoad.deliverNow

theorem Inv.Holds.sendLanes {asid l lanes} (h : I.Holds s) : I.Holds (sendLanes s asid l lanes) := h.foldl (fun _ _ hs => hs.sendReq)

theorem Inv.Holds.engineLoad {id} (h : I.Holds s) : I.Holds (engineLoad s id) := by
  unfold Machine.engineLoad
  split
  · exact h
  · exact h.dropLoad.deliverNow

theorem Inv.Holds.faultLoad {l e gen} (h : I.Holds s) : I.Holds (faultLoad s l e gen) := h

theorem Inv.Holds.bindLanes {asid id ps} (h : I.Holds s) : I.Holds (bindLanes s asid id ps) := by
  unfold Machine.bindLanes
  refine h.foldl (fun _ _ hs => ?_)
  split
  · exact .ite hs.engineLoad hs.bindPart
  · exact .ite hs.linkLoad hs.sendReq

@[simp] theorem Inv.Holds.execFarLoadTranslate {id} (h : I.Holds s) : I.Next (execFarLoadTranslate id s) := by
  unfold Machine.execFarLoadTranslate
  split
  · exact h
  split
  · exact h
  extract_lets asid far here s1
  have hs1 : I.Holds s1 := .ite h h.updLoad.sendLanes
  split
  · exact h
  split
  · exact h.later
  split
  · exact h.linkLoad
  split
  · exact hs1.bindLanes
  · exact .ite (hs1.foldl fun _ _ hs => hs.joinWalk) hs1.faultLoad

theorem Inv.Holds.issueLoad {tag k lanes} (h : I.Holds s) : I.Holds (issueLoad s tag k lanes) := .ite h.deliverLater (.later ({ h.takeId with me := h.takeId.has_me }))

@[simp] theorem Inv.Holds.execFaultRollback {sid kind addr mask} (h : I.Holds s) : I.Next (execFaultRollback sid kind addr mask s) := by
  unfold Machine.execFaultRollback
  split
  · exact h
  split
  · extract_lets s1 s2
    have hs1 : I.Holds s1 := h.dropLoad
    have hs2 : I.Holds s2 := .ite hs1.faultStrand hs1
    exact hs2.deliverNow
  · split
    · exact h
    · exact .ite h.faultStrand h

theorem Inv.Holds.dropAtom {a} (h : I.Holds s) : I.Holds (dropAtom s a) := .clearFence h

theorem Inv.Holds.applyAtom {asid addr w op} (h : I.Holds s) : I.Holds (applyAtom s asid addr w op).2 := h.hbmWrite

theorem Inv.Holds.placeAtomAt {a asid p} (h : I.Holds s) : I.Holds (placeAtomAt s a asid p) := h.applyAtom.dropAtom.deliverLater

theorem Inv.Holds.linkAtom {a} (h : I.Holds s) : I.Holds (linkAtom s a) := h.dropAtom.deliverNow

theorem Inv.Holds.engineAtom {a} (h : I.Holds s) : I.Holds (engineAtom s a) := h.dropAtom.deliverNow

theorem Inv.Holds.holdAtom {a asid k} (h : I.Holds s) : I.Holds (holdAtom s a asid t k) := h

theorem Inv.Holds.sendAtom {a d mk} (h : I.Holds s) : I.Holds (sendAtom s a d mk) := .ite h.linkAtom (.sendReq h)

@[simp] theorem Inv.Holds.execAtomicPlacement {id} (h : I.Holds s) : I.Next (execAtomicPlacement id s) := by
  unfold Machine.execAtomicPlacement
  split
  · exact h
  split
  · exact h
  extract_lets asid early
  split
  · exact h
  split
  · exact .ite h.later h.sendAtom
  · split
    · split
      · exact h.later
      split
      · exact .ite h.engineAtom h.placeAtomAt
      · exact h.sendAtom
    · exact .ite h.joinWalk h.holdAtom

theorem Inv.Has.backTo {cpt last} (h : I.Has t) : I.Has (backTo cpt last t) := .ite h h

@[simp] theorem Inv.Holds.execAtomicFaultRollback {id} (h : I.Holds s) : I.Next (execAtomicFaultRollback id s) := by
  unfold Machine.execAtomicFaultRollback
  split
  · exact h
  split
  · exact h
  extract_lets gone s1 s2 s3
  have hs1 : I.Holds s1 := h.foldl (fun _ _ hs => hs.dropAtom)
  have hs2 : I.Holds s2 := .ite hs1 (hs1.faultRollbackTo (fun _ hs => hs.backTo))
  exact (hs2.updStrand (fun _ hs => hs.countHere)).foldl (fun _ _ hs => hs.deliverLater)

/-! ### Barriers and semaphores -/

theorem Inv.Holds.editStrand {sid ev f} (h : I.Holds s) (hf : ∀ t, I.Has t → I.Has (f t)) : I.Holds (editStrand s sid ev f) := by
  unfold Machine.editStrand
  split
  · exact h
  split
  · exact h
  split
  · exact h.updStrand (fun _ hs => hf _ hs)
  split
  · exact h.holdEvent
  rename_i x1 t2 e3
  have ht2 : I.Has t2 := Inv.Has.readRecords e3
  split
  · exact h.holdEvent
  rename_i x2 s' e4
  exact (h.devWriteAll.ok e4).updStrand (fun _ hs => hf _ ht2)

theorem Inv.Holds.gangWrite {g slice off bs} (h : I.Holds s) : I.Ok (gangWrite s g slice off bs) := by
  unfold Machine.gangWrite
  split
  · exact h
  · split
    · exact h.devWrite
    · exact h.nearWrite

theorem Inv.Holds.saveBarrier {gid k} (h : I.Holds s) : I.Holds (saveBarrier s gid k) := by
  unfold Machine.saveBarrier
  split
  · exact h
  split
  · rename_i x2 s' e1
    exact (h.devWrite.ok e1).updGang
  · exact h.updGang.holdEvent

theorem Inv.Holds.putBarrier {gid k b} (h : I.Holds s) : I.Holds (putBarrier s gid k b) := by
  unfold Machine.putBarrier
  extract_lets s1
  have hs1 : I.Holds s1 := h.updGang
  split
  · exact hs1
  · exact .ite hs1 hs1.saveBarrier

theorem Inv.Holds.wakeWaiters {b x} (h : I.Holds s) : I.Holds (wakeWaiters s b x) := h.foldl (fun _ _ hs => hs.deliverIn)

theorem Inv.Holds.checkPhase {gid k} (h : I.Holds s) : I.Holds (checkPhase s gid k) := by
  unfold Machine.checkPhase
  split
  · exact h
  · exact .ite h.putBarrier.wakeWaiters h

theorem Inv.Holds.addBytes {gid k n sid dst} (h : I.Holds s) : I.Holds (addBytes s gid k n sid dst) := by
  unfold Machine.addBytes
  split
  · exact h
  split
  · exact h
  split
  · exact h.putBarrier.wakeWaiters.updStrand.after
  · exact h.putBarrier.checkPhase

theorem Inv.Has.trapView {u} (h : I.Has t) (e : trapView s t = .ok u) : I.Has u := by
  unfold Machine.trapView at e
  split at e
  · cases e; exact h
  · exact Inv.Has.readRecords e

theorem Inv.Holds.barrierTrap {sid} (h : I.Holds s) : I.Holds (barrierTrap s sid) := by
  unfold Machine.barrierTrap
  split
  · exact h
  next t et =>
    split
    · exact h
    split
    · exact h
    split
    · exact h.holdEvent
    next u e =>
      have hu : I.Has u := (h.getStrand et).trapView e
      exact .takeTrapOn (.updStrand h fun _ _ => hu)

@[simp] theorem Inv.Holds.execBarrierBytes {sid} (h : I.Holds s) : I.Next (execBarrierBytes sid s) := h.barrierTrap

theorem Inv.Has.putSema {q x} (h : I.Has t) : I.Has (putSema t q x) := h

theorem Inv.Holds.semaInc {sid q n ev} (h : I.Holds s) : I.Holds (semaInc s sid q n ev) := (h.editStrand (fun _ hs => hs.putSema)).after

@[simp] theorem Inv.Holds.execSemaFill {sid q} (h : I.Holds s) : I.Next (execSemaFill sid q s) := by
  unfold Machine.execSemaFill
  split
  · exact h
  split
  · exact h.holdEvent
  · exact .ite h ((h.editStrand (fun _ hs => hs.putSema)).deliverNow)

/-! ### The copy engine -/

theorem Inv.Holds.copyOwner {c g} (h : I.Holds s) (e : copyOwner s c = some (g, t)) : I.Has t := by
  unfold Machine.copyOwner at e
  split at e
  · cases e
  next et =>
    split at e
    · cases e
    · cases e; exact h.getStrand et

theorem Inv.Holds.updCopy {core id f} (h : I.Holds s) : I.Holds (updCopy s core id f) := h

theorem Inv.Holds.wakeQueue {core q} (h : I.Holds s) : I.Holds (wakeQueue s core q) := by
  unfold Machine.wakeQueue
  split
  · exact h
  · exact .ite h h.later

theorem Inv.Holds.placeCopy {core c} (h : I.Holds s) : I.Holds (placeCopy s core c) := h.updCore.wakeQueue

theorem Inv.Holds.endCopy {core c code} (h : I.Holds s) : I.Holds (endCopy s core c code) := h.updCore.releaseAll.deliverNow.wakeQueue

theorem Inv.Holds.askCopy {core asid who c rs} (h : I.Holds s) : I.Holds (askCopy s core asid who c rs) := .ite h.endCopy (h.updCopy.foldl (fun _ _ hs => hs.sendReq))

theorem Inv.Holds.beginWrites {core c ws res} (h : I.Holds s) : I.Holds (beginWrites s core c ws res) := h

@[simp] theorem Inv.Holds.execCopyStart {core id} (h : I.Holds s) : I.Next (execCopyStart core id s) := by
  unfold Machine.execCopyStart
  split
  · exact h
  split
  · exact h
  split
  · exact h
  split
  · exact h.holdEvent
  extract_lets c rs
  split
  · exact h.endCopy
  rename_i x6 x7 e4
  split
  · exact h.askCopy
  clear_value c rs x6 x7
  split
  · exact h.beginWrites
  · exact .ite h.awaitAccess (.ite h.updCopy.later h.endCopy)

theorem Inv.Holds.putCopyByte {g asid c w} (h : I.Holds s) : I.Holds (putCopyByte g t asid c s w) := by
  unfold Machine.putCopyByte
  split
  · split
    · rename_i x s' e1
      exact h.gangWrite.ok e1
    · exact h
  · split
    · exact h.hbmWrite
    · exact h

theorem Inv.Holds.closeCopy {core c} (h : I.Holds s) : I.Holds (closeCopy s core c) := by
  unfold Machine.closeCopy
  extract_lets s1 ok contribute
  have hs1 : I.Holds s1 := h.updCore
  have hcontribute : ∀ s0 x1, I.Holds s0 → I.Holds (contribute s0 x1) := by
    intro s0 x1 hs
    unfold contribute
    split
    · exact hs
    extract_lets s2
    have hs2 : I.Holds s2 := .ite hs.addBytes hs
    exact .ite hs2.semaInc hs2
  exact ((hs1.releaseAll.foldl (fun _ _ hs => hcontribute _ _ hs)).deliverNow).wakeQueue

theorem Inv.Holds.finishCopy {core c g} (h : I.Holds s) : I.Holds (finishCopy s core c g t) := by
  unfold Machine.finishCopy
  extract_lets asid far s1
  have hs1 : I.Holds s1 := h.foldl (fun _ _ hs => hs.putCopyByte)
  split
  · exact hs1.closeCopy
  split
  · exact hs1.endCopy
  refine (hs1.updCopy.foldl (fun _ _ hs => ?_)).foldl (fun _ _ hs => hs.sendReq)
  exact .ite hs hs.sendReq

@[simp] theorem Inv.Holds.execCopyCompletion {core id} (h : I.Holds s) : I.Next (execCopyCompletion core id s) := by
  unfold Machine.execCopyCompletion
  split
  · exact h
  split
  · exact h
  split
  · exact h
  split
  · exact h.holdEvent
  · exact h.holdEvent
  · exact h.finishCopy

theorem Inv.Holds.copyAnswer {core id va bs lost} (h : I.Holds s) : I.Holds (copyAnswer s core id va bs lost) := by
  unfold Machine.copyAnswer
  split
  · exact h
  split
  · exact h.endCopy
  extract_lets c1 s1
  have hs1 : I.Holds s1 := h.updCopy
  exact .ite hs1 (.ite hs1.after hs1.later)

/-! ### The systolic array -/

theorem Inv.Holds.updArray {core f} (h : I.Holds s) : I.Holds (updArray s core f) := h

theorem Inv.Holds.kickArray {core} (h : I.Holds s) : I.Holds (kickArray s core) := .ite h h.after

theorem Inv.Holds.claimArray {core sid job} (h : I.Holds s) : I.Holds (claimArray s core sid job) := h

theorem Inv.Holds.recordCfg {core w} (h : I.Holds s) : I.Holds (recordCfg s core w) := h

@[simp] theorem Inv.Holds.execArrayClaim {core} (h : I.Holds s) : I.Next (execArrayClaim core s) := by
  unfold Machine.execArrayClaim
  extract_lets s1 a
  have hs1 : I.Holds s1 := h.updArray
  split
  · split
    · exact hs1.claimArray
    · exact hs1
  · exact hs1

@[simp] theorem Inv.Holds.execArrayConfigApply {core} (h : I.Holds s) : I.Next (execArrayConfigApply core s) := by
  unfold Machine.execArrayConfigApply
  extract_lets a
  split
  · exact h
  split
  · exact h
  extract_lets s1
  have hs1 : I.Holds s1 := h.updArray.kickArray
  exact .ite hs1 hs1.after

theorem Inv.Holds.releaseArray {core} (h : I.Holds s) : I.Holds (releaseArray s core) := by
  unfold Machine.releaseArray
  extract_lets s1
  have hs1 : I.Holds s1 := h.updArray
  exact .ite hs1 hs1.after

@[simp] theorem Inv.Holds.execArrayRelease {core} (h : I.Holds s) : I.Next (execArrayRelease core s) := by
  unfold Machine.execArrayRelease
  extract_lets a
  split
  · exact h
  · exact .ite h h.releaseArray

theorem Inv.Holds.cmdWrite {sid a bs} (h : I.Holds s) : I.Holds (cmdWrite s sid a bs) := by
  unfold Machine.cmdWrite
  split
  · exact h
  split
  · exact h
  · exact h.nearWrite

theorem Inv.Holds.startCmd {core c} (h : I.Holds s) : I.Holds (startCmd s core c) := by
  unfold Machine.startCmd
  extract_lets a go load b chained s1
  have hgo (s : State) (b : Array) (far : Bool) (n : Nat) (h : I.Holds s) : I.Holds (go s b far n) := by
    unfold go
    extract_lets s1
    have hs1 : I.Holds s1 := h.updArray
    exact .ite ({ hs1 with }) hs1.after
  have hs1 : I.Holds s1 := h.updArray
  split
  · exact .ite h (hgo _ _ _ _ h)
  · exact .ite h (hgo _ _ _ _ h)
  · exact hgo _ _ _ _ h
  · exact hgo _ _ _ _ h
  · exact hgo _ _ _ _ h
  · exact hgo _ _ _ _ h
  all_goals
    exact .ite hs1.after hs1

theorem Inv.Holds.startCmds {core} (h : I.Holds s) : I.Holds (startCmds s core) := by
  unfold Machine.startCmds
  refine h.foldl (fun _ _ hs => ?_)
  split
  · exact .ite hs.startCmd hs
  · exact hs

theorem Inv.Holds.putEdge {core w} (h : I.Holds s) : I.Holds (putEdge core s w) := by
  unfold Machine.putEdge
  split
  · exact h.updArray.cmdWrite
  · exact .ite h.updArray h.cmdWrite

theorem Inv.Holds.stepDone {core r} (h : I.Holds s) : I.Holds (stepDone s core r) := by
  unfold Machine.stepDone
  extract_lets img s1
  have hs1 : I.Holds s1 := h.updArray
  split
  · exact .ite hs1.after hs1
  · exact hs1

theorem Inv.Holds.runBeat {core e pipe} (h : I.Holds s) : I.Holds (runBeat s core e pipe) := by
  unfold Machine.runBeat
  extract_lets a idle a out codes cells last b s1 ws s2
  have hs1 : I.Holds s1 := h.updArray
  have hs2 : I.Holds s2 := (hs1.foldl (fun _ _ hs => hs.putEdge)).takeBanks
  split
  · exact hs2.stepDone
  · exact hs2

@[simp] theorem Inv.Holds.execArrayBeat {core} (h : I.Holds s) : I.Next (execArrayBeat core s) := by
  unfold Machine.execArrayBeat
  extract_lets still s0 a e pipe src s1
  have hs0 : I.Holds s0 := .ite h h.startCmds
  have hs1 : I.Holds s1 := .ite hs0.updArray (.ite hs0 (.ite ({ hs0 with }) (.ite hs0 (.ite hs0 hs0.updArray.runBeat))))
  exact .ite hs1.after hs1

@[simp] theorem Inv.Holds.execArrayCommandComplete {core id} (h : I.Holds s) : I.Next (execArrayCommandComplete core id s) := by
  unfold Machine.execArrayCommandComplete
  extract_lets a
  split
  · exact h
  split
  · exact h
  extract_lets s1 s2 res s3 s4 s5
  have hs1 : I.Holds s1 := by
    unfold s1
    split
    · exact h.foldl (fun _ _ hs => hs.cmdWrite)
    · exact h.foldl (fun _ _ hs => hs.cmdWrite)
    · exact h
  have hs2 : I.Holds s2 := hs1.updArray
  have hs3 : I.Holds s3 := hs2.deliverDue
  have hs4 : I.Holds s4 := .ite hs3 hs3.after
  have hs5 : I.Holds s5 := .ite hs4.after hs4
  split
  · exact hs5
  refine Inv.Holds.kickArray ?_
  exact .ite hs5 hs5.startCmds

theorem Inv.Holds.sendArray {core c} (h : I.Holds s) : I.Holds (sendArray s core c) := by
  unfold Machine.sendArray
  extract_lets s1
  have hs1 : I.Holds s1 := h.updArray
  refine Inv.Holds.kickArray ?_
  exact .ite hs1 hs1.startCmds

/-! ### Channels -/

theorem Inv.Holds.gangWriteAll {gs slice off bs} (h : I.Holds s) : I.Ok (gangWriteAll s gs slice off bs) := by
  induction gs generalizing s with
  | nil => exact h
  | cons g gs ih =>
    unfold Machine.gangWriteAll
    split
    · trivial
    next s1 e => exact ih (h.gangWrite.ok e)

theorem Inv.Holds.putChan {gid c x} (h : I.Holds s) : I.Holds (putChan s gid c x) := h

theorem Inv.Holds.kickSend {gid c} (h : I.Holds s) : I.Holds (kickSend s gid c) := h

theorem Inv.Holds.skipTicket {job dst n} (h : I.Holds s) : I.Holds (skipTicket s job dst n) := by
  unfold Machine.skipTicket
  split
  · split
    · exact h
    · exact h.putChan.after
  · exact h.sendPacket

theorem Inv.Holds.poisonSend {job peer o code} (h : I.Holds s) : I.Holds (poisonSend s job peer o code) := by
  unfold Machine.poisonSend
  refine Inv.Holds.deliverNow ?_
  split
  · exact h.skipTicket
  · exact h

theorem Inv.Holds.endSend {m x} (h : I.Holds s) : I.Holds (endSend s m x) := by
  unfold Machine.endSend
  extract_lets s1 s2
  have hs1 : I.Holds s1 := by
    unfold s1
    split
    · exact .putChan h
    · exact h
  have hs2 : I.Holds s2 := by
    unfold s2
    split
    · exact hs1.skipTicket
    · exact hs1
  exact hs2.deliverNow

theorem Inv.Holds.leaveMsg {m} (h : I.Holds s) : I.Holds (leaveMsg s m) := by
  unfold Machine.leaveMsg
  split
  · exact h.later
  split
  · exact h.endSend
  split
  · exact h.sendReq
  · exact h.sendPacket

@[simp] theorem Inv.Holds.execSendTransmit {gid c} (h : I.Holds s) : I.Next (execSendTransmit gid c s) := by
  unfold Machine.execSendTransmit
  split
  · exact h
  split
  · exact h
  · exact .ite h.putChan.poisonSend.kickSend h.putChan.leaveMsg.kickSend

theorem Inv.Holds.armRefresh {gid c} (h : I.Holds s) : I.Holds (armRefresh s gid c) := h

theorem Inv.Holds.noteCredit {gid c} (h : I.Holds s) : I.Holds (noteCredit s gid c) := by
  unfold Machine.noteCredit
  refine Inv.Holds.armRefresh ?_
  split
  · exact h.putChan
  · exact h

theorem Inv.Holds.askResync {g c x} (h : I.Holds s) : I.Holds (askResync s g c x) := by
  unfold Machine.askResync
  extract_lets s1 src
  have hs1 : I.Holds s1 := h.putChan
  split
  · split
    · exact hs1.noteCredit.later
    · exact hs1
  · exact hs1.sendReq

@[simp] theorem Inv.Holds.execCreditReceive {gid c word} (h : I.Holds s) : I.Next (execCreditReceive gid c word s) := by
  unfold Machine.execCreditReceive
  split
  · exact h
  · exact .ite h (.ite h.askResync h.putChan.kickSend)

@[simp] theorem Inv.Holds.execChannelResync {gid c word pushed} (h : I.Holds s) : I.Next (execChannelResync gid c word pushed s) := by
  unfold Machine.execChannelResync
  split
  · exact h
  · exact (h.putChan.foldl (fun _ _ hs => hs.poisonSend)).kickSend

theorem Inv.Holds.startResync {gid c} (h : I.Holds s) : I.Holds (startResync s gid c) := by
  unfold Machine.startResync
  split
  · exact h
  · exact .ite h h.askResync

theorem Inv.Holds.giveCredit {job dst word depth bind} (h : I.Holds s) : I.Holds (giveCredit s job dst word depth bind) := by
  unfold Machine.giveCredit
  split
  · split
    · exact h
    · exact h.putChan.later
  · exact h.sendPacket

theorem Inv.Holds.sendCredit {gid c} (h : I.Holds s) : I.Holds (sendCredit s gid c) := by
  unfold Machine.sendCredit
  split
  · exact h
  split
  · exact h.noteCredit.giveCredit
  · exact h.armRefresh

@[simp] theorem Inv.Holds.execCreditRefresh {gid c} (h : I.Holds s) : I.Next (execCreditRefresh gid c s) := by
  unfold Machine.execCreditRefresh
  split
  · exact h
  · exact .ite h.sendCredit h.addTimer

theorem Inv.Holds.giveCall {job dst n word depth bind} (h : I.Holds s) : I.Holds (giveCall s job dst n word depth bind) := by
  unfold Machine.giveCall
  split
  · split
    · exact h
    extract_lets rcvd s1
    have hs1 : I.Holds s1 := h.putChan.kickSend
    exact .ite hs1.after hs1
  · exact h.sendPacket

theorem Inv.Holds.callNext {f gid c} (h : I.Holds s) : I.Holds (callNext f s gid c) := by
  induction f generalizing s with
  | zero => exact h
  | succ f ih =>
    unfold Machine.callNext
    split
    · exact h
    split
    · exact h
    · exact .ite (ih h.putChan) (.ite h h.putChan.giveCall.armRefresh)

theorem Inv.Holds.lapseTicket {g c x} (h : I.Holds s) : I.Holds (lapseTicket s g c x) := by
  unfold Machine.lapseTicket
  split
  · split
    · exact (h.putChan.foldl (fun _ _ hs => hs.deliverNow)).skipTicket
    · exact h
  · exact h

@[simp] theorem Inv.Holds.execTicketSkip {gid c} (h : I.Holds s) : I.Next (execTicketSkip gid c s) := by
  unfold Machine.execTicketSkip
  split
  · exact h.callNext
  split
  · exact h.lapseTicket
  · exact h

theorem Inv.Holds.giveTicket {sid tag ch job at_ n} (h : I.Holds s) : I.Holds (giveTicket s sid tag ch job at_ n) := by
  unfold Machine.giveTicket
  extract_lets s
  split
  · exact .deliverNow h
  · exact .skipTicket h
  extract_lets stale s1 s2
  have hs1 : I.Holds s1 := .updGang h
  have hs2 : I.Holds s2 := .ite hs1.skipTicket (hs1.foldl (fun _ _ hs => hs.updStrand))
  exact hs2.deliverNow

theorem Inv.Holds.useTicket {sid c num} (h : I.Holds s) : I.Holds (useTicket s sid c num) := by
  unfold Machine.useTicket
  split
  · exact h.foldl (fun _ _ hs => hs.updStrand)
  · exact h

@[simp] theorem Inv.Holds.execTickArrival {src dst job sid t'} (h : I.Holds s) : I.Next (execTickArrival src dst job sid t' s) := by
  unfold Machine.execTickArrival
  split
  · exact h.after
  extract_lets answer
  have hanswer : ∀ s0 x1, I.Holds s0 → I.Holds (answer s0 x1) := by
    intro s0 x1 hs
    unfold answer
    exact .ite hs.giveTicket hs.sendPacket
  split
  · exact hanswer _ _ h
  split
  · exact hanswer _ _ h
  · exact (hanswer _ _ h.putChan).callNext

theorem Inv.Holds.ringWrite {gs e start bs} (h : I.Holds s) : I.Ok (ringWrite s gs e start bs) := by
  unfold Machine.ringWrite
  extract_lets size o
  split
  · trivial
  rename_i x s' e1
  exact (h.gangWriteAll.ok e1).gangWriteAll

theorem Inv.Holds.kickRecv {gid c} (h : I.Holds s) : I.Holds (kickRecv s gid c) := .ite h h.after

theorem Inv.Holds.pushMsg {g c e m} (h : I.Holds s) : I.Ok (pushMsg s g c e m) := by
  unfold Machine.pushMsg
  extract_lets n
  split
  · trivial
  rename_i x x1 x2 x3 x4 s' e1
  have hs' := h.ringWrite.ok e1
  extract_lets s2 s3
  have hs2 : I.Holds s2 := hs'.putChan.kickRecv
  have hs3 : I.Holds s3 := .ite hs2.endSend hs2.sendPacket
  exact .ite hs3.callNext hs3

theorem Inv.Holds.dropMsg {m} (h : I.Holds s) : I.Holds (dropMsg s m) := .ite h.endSend h.sendPacket

theorem Inv.Holds.takeMsg {m} (h : I.Holds s) : I.Holds (takeMsg s m) := by
  unfold Machine.takeMsg
  split
  · exact h.dropMsg
  split
  · exact h.dropMsg
  split
  · exact h.putChan
  split
  · rename_i x3 s' e3
    exact h.pushMsg.ok e3
  · exact h.holdEvent

@[simp] theorem Inv.Holds.execMessagePush {m} (h : I.Holds s) : I.Next (execMessagePush m s) := .ite h.later h.takeMsg

theorem Inv.Holds.drainHeld {f gid c} (h : I.Holds s) : I.Holds (drainHeld f s gid c) := by
  induction f generalizing s with
  | zero => exact h
  | succ f ih =>
    unfold Machine.drainHeld
    split
    · exact h
    split
    · exact h
    split
    · exact h
    split
    next s1 e => exact ih (h.pushMsg.ok e)
    · exact h.holdEvent

theorem Inv.Holds.dropRecv {gid id} (h : I.Holds s) : I.Holds (dropRecv s gid id) := h

theorem Inv.Holds.takeOne {g o c} (h : I.Holds s) : I.Ok (takeOne s g o c) := by
  unfold Machine.takeOne
  extract_lets ch
  split
  · split
    · exact h
    · split
      · exact h.putChan.dropRecv.deliverNow
      · split
        · trivial
        extract_lets n
        split
        · trivial
        rename_i x9 x10 s' e4
        have hs' := h.gangWriteAll.ok e4
        extract_lets s2 s3 s4
        have hs2 : I.Holds s2 := hs'.putChan.dropRecv
        have hs3 : I.Holds s3 := hs2.deliverNow
        have hs4 : I.Holds s4 := .ite hs3.after hs3
        exact hs4.drainHeld.kickRecv
  · exact h

theorem Inv.Holds.serveRecvs {ev os gid} (h : I.Holds s) : I.Holds (serveRecvs ev os s gid) := by
  induction os generalizing s with
  | nil => exact h
  | cons o os ih =>
    unfold Machine.serveRecvs
    split
    · exact h
    split
    · exact ih h
    split
    next s1 e => exact ih (h.takeOne.ok e)
    · exact h.holdEvent

@[simp] theorem Inv.Holds.execRecvTake {gid c} (h : I.Holds s) : I.Next (execRecvTake gid c s) := by
  unfold Machine.execRecvTake
  split
  · exact h
  · exact h.serveRecvs.drainHeld

theorem Inv.Holds.linkSends {job peer os} (h : I.Holds s) : I.Holds (linkSends s job peer os) := h.foldl (fun _ _ hs => hs.poisonSend)

theorem Inv.Holds.dropWaiting {job at_ n} (h : I.Holds s) : I.Holds (dropWaiting s job at_ n) := by
  unfold Machine.dropWaiting
  split
  · exact h
  · exact h.putChan.linkSends

theorem Inv.Holds.unbind {g c} (h : I.Holds s) : I.Holds (unbind s g c) := by
  unfold Machine.unbind
  split
  · exact h
  · extract_lets waiting nums s1 s2
    have hs1 : I.Holds s1 := h.updGang.linkSends
    have hs2 : I.Holds s2 := .ite (hs1.foldl (fun _ _ hs => hs.skipTicket)) hs1
    exact hs2.foldl (fun _ _ hs => hs.updStrand)
  · extract_lets me gone s1 s2 mine ticks s3 s4
    have hs1 : I.Holds s1 := h.foldl (fun _ _ hs => hs.dropRecv.deliverNow)
    have hs2 : I.Holds s2 := hs1.foldl (fun _ _ hs => hs.dropMsg)
    have hs4 : I.Holds s4 := .foldl hs2 (fun _ _ hs => hs.deliverNow)
    refine hs4.foldl (fun _ _ hs => ?_)
    exact .ite hs.dropWaiting hs.sendPacket

theorem Inv.Holds.askCredit {g c x} (h : I.Holds s) : I.Holds (askCredit s g c x) := by
  unfold Machine.askCredit
  split
  · exact h
  split
  · split
    · exact .ite h h.noteCredit.giveCredit
    · exact h
  · exact h.sendPacket

theorem Inv.Holds.nameBinding {x} (h : I.Holds s) : I.Holds (nameBinding s x).2 := by
  unfold Machine.nameBinding
  split
  · exact h.takeId
  · exact h

theorem Inv.Holds.bindChan {gid sid c tag bs} (h : I.Holds s) : I.Holds (bindChan s gid sid c tag bs) := by
  unfold Machine.bindChan
  split
  · split
    · exact h.deliverLater
    extract_lets n s1 s2
    have hs1 : I.Holds s1 := h.unbind.nameBinding.foldl (fun _ _ hs => hs.putChan)
    have hs2 : I.Holds s2 := by
      unfold s2
      split
      · exact hs1.askCredit
      · exact .ite hs1 hs1.sendCredit
      · exact hs1
    exact hs2.deliverLater
  · exact h

theorem Inv.Holds.postSend {gid c o} (h : I.Holds s) : I.Holds (postSend s gid c o) := by
  unfold Machine.postSend
  split
  · exact h.deliverLater
  · exact .ite h.deliverLater h.putChan.kickSend

theorem Inv.Holds.postRecv {gid o} (h : I.Holds s) : I.Holds (postRecv s gid o) := by
  unfold Machine.postRecv
  split
  · exact h.deliverNow
  extract_lets s1
  have hs1 : I.Holds s1 := h.updGang
  refine hs1.foldl (fun _ _ hs => ?_)
  exact .ite hs.kickRecv hs

theorem Inv.Holds.postTick {gid sid c tag} (h : I.Holds s) : I.Holds (postTick s gid sid c tag) := by
  unfold Machine.postTick
  split
  · exact h.deliverLater
  · exact .ite h.later (.ite h.deliverNow h.sendReq)

/-! ### Collectives -/

theorem Inv.Holds.updColl {id f} (h : I.Holds s) : I.Holds (updColl s id f) := h

theorem Inv.Holds.newColl {job d sparse fixed ms} (h : I.Holds s) : I.Holds (newColl s job d sparse fixed ms).2 := h

theorem Inv.Holds.retireColl {id} (h : I.Holds s) : I.Holds (retireColl s id) := by
  unfold Machine.retireColl
  split
  · exact h
  · exact .ite h h

theorem Inv.Holds.answerMember {id m x} (h : I.Holds s) : I.Holds (answerMember s id m x) := h.updColl.deliverNow

theorem Inv.Holds.answerAll {id p x} (h : I.Holds s) : I.Holds (answerAll s id p x) := by
  unfold Machine.answerAll
  split
  · exact h
  · exact h.foldl (fun _ _ hs => hs.answerMember)

theorem Inv.Holds.poisonColl {id} (h : I.Holds s) : I.Holds (poisonColl s id) := by
  unfold Machine.poisonColl
  split
  · exact h
  split
  · exact h
  extract_lets s1
  have hs1 : I.Holds s1 := by
    unfold s1
    split
    · exact h.answerAll
    · exact h.answerAll.answerAll.answerAll
  exact hs1.retireColl

theorem Inv.Holds.advanceColl {id} (h : I.Holds s) : I.Holds (advanceColl s id) := by
  unfold Machine.advanceColl
  split
  · exact h
  split
  · exact h.poisonColl
  · exact .ite h (.ite (.ite (h.foldl (fun _ _ hs => hs.later)) (.ite h.later h)) (.ite (h.foldl (fun _ _ hs => hs.later)) h))

theorem Inv.Holds.kickCombine {id} (h : I.Holds s) : I.Holds (kickCombine s id) := by
  unfold Machine.kickCombine
  split
  · exact h
  split
  · exact h
  · exact .ite h h.later

theorem Inv.Holds.enterContribution {id rank terms fixed bs} (h : I.Holds s) : I.Holds (enterContribution s id rank terms fixed bs) := by
  unfold Machine.enterContribution
  split
  · exact h
  split
  · exact h
  extract_lets bad partOf parts c' s1
  have hs1 : I.Holds s1 := h.updColl
  split
  · exact hs1.advanceColl
  · exact .ite hs1.later (.ite hs1.advanceColl (.ite (.ite hs1.kickCombine.advanceColl hs1.kickCombine) hs1.kickCombine))

theorem Inv.Holds.shareContribution {c rank terms fixed bs} (h : I.Holds s) : I.Holds (shareContribution s c rank terms fixed bs) := h.foldl (fun _ _ hs => hs.sendPacket)

theorem Inv.Holds.takeContribution {job group seq sparse rank terms fixed bs ev} (h : I.Holds s) : I.Holds (takeContribution s job group seq sparse rank terms fixed bs ev) := by
  unfold Machine.takeContribution
  split
  · exact h.enterContribution
  · split
    · exact h.newColl.enterContribution
    · exact h
    · exact h.holdEvent
  · exact h

theorem Inv.Holds.memberWrite {g a bs} (h : I.Holds s) : I.Ok (memberWrite s g t a bs) := by
  unfold Machine.memberWrite
  split
  · exact h.gangWriteAll
  · exact h.devWrite

theorem Inv.Holds.contribute {id m ev} (h : I.Holds s) : I.Holds (contribute s id m ev) := by
  unfold Machine.contribute
  split
  · split
    · exact h
    split
    · exact .ite h.awaitAccess h.updColl.deliverNow
    · exact .ite h.updColl.later h.updColl.shareContribution.enterContribution
  · exact h

theorem Inv.Holds.postColl {sid tag aligned d sparse send ms} (h : I.Holds s) : I.Holds (postColl s sid tag aligned d sparse send ms) := by
  unfold Machine.postColl
  split
  · exact h
  split
  · exact h
  extract_lets engine fixed
  have he : I.Holds engine := h.deliverLater
  split
  · exact h.deliverLater
  split
  · exact he
  split
  · exact he
  split
  · exact he
  split
  · exact he
  split
  · exact h.deliverLater
  extract_lets r c len m s1
  split
  · exact he
  have hs1 : I.Holds s1 := by
    refine Inv.Holds.updColl ?_
    unfold r
    split
    · exact h
    · exact h.newColl
  exact .ite (.ite hs1.advanceColl hs1.updColl.advanceColl) hs1.contribute

@[simp] theorem Inv.Holds.execSwitchCombine {id a b} (h : I.Holds s) : I.Next (execSwitchCombine id a b s) := by
  unfold Machine.execSwitchCombine
  split
  · exact h
  split
  · split
    · exact h
    extract_lets new s1
    have hs1 : I.Holds s1 := h.updColl
    exact .ite hs1.advanceColl hs1.kickCombine
  · exact h

@[simp] theorem Inv.Holds.execCollectiveDelivery {id rank} (h : I.Holds s) : I.Next (execCollectiveDelivery id rank s) := by
  unfold Machine.execCollectiveDelivery
  split
  · exact h
  split
  · exact h
  split
  · exact h.contribute
  split
  · exact h.answerMember.retireColl
  split
  · exact h.answerMember.retireColl
  split
  · exact h
  extract_lets es
  split
  · exact h.holdEvent
  rename_i x7 s' e6
  have hs' := h.memberWrite.ok e6
  exact .retireColl (.answerMember hs')

@[simp] theorem Inv.Holds.execCollectiveLinkLoss {id} (h : I.Holds s) : I.Next (execCollectiveLinkLoss id s) := h.answerAll

@[simp] theorem Inv.Holds.execSparseIngressCheck {id rank} (h : I.Holds s) : I.Next (execSparseIngressCheck id rank s) := by
  unfold Machine.execSparseIngressCheck
  split
  · exact h
  split
  · exact h.contribute
  split
  · exact h
  split
  · exact h.updColl.advanceColl
  · exact h.updColl.answerAll.advanceColl

@[simp] theorem Inv.Holds.execSparseMerge {id} (h : I.Holds s) : I.Next (execSparseMerge id s) := by
  unfold Machine.execSparseMerge
  split
  · exact h
  · exact .ite h h.updColl.advanceColl

@[simp] theorem Inv.Holds.execSparseStreamDelivery {id rank} (h : I.Holds s) : I.Next (execSparseStreamDelivery id rank s) := by
  unfold Machine.execSparseStreamDelivery
  split
  · exact h
  split
  · extract_lets outs fit data sentDense grown fell flag word done late
    have hdone (s : State) (h : I.Holds s) : I.Holds (done s) := .retireColl (.answerMember h.withFresh)
    have hlate : I.Holds late := by
      unfold late
      split
      · exact hdone _ h
      split
      · exact h.holdEvent
      next s1 e => exact hdone _ (h.devWrite.ok e)
    split
    · exact hlate
    split
    · exact hlate
    split
    · exact h.holdEvent
    next s1 e => exact hdone _ (h.memberWrite.ok e)
  · exact h

/-! ### Queues -/

theorem Inv.Holds.updQueue {die q f} (h : I.Holds s) : I.Holds (updQueue s die q f) := h

theorem Inv.Holds.flushRing {n die num} (h : I.Holds s) : I.Holds (flushRing n s die num) := by
  induction n generalizing s with
  | zero => exact h
  | succ n ih =>
    unfold Machine.flushRing
    split
    · exact h
    split
    · exact h
    split
    · exact h.holdEvent
    next s1 e => exact ih (h.devWrite.ok e).updQueue

theorem Inv.Holds.refill {n die num} (h : I.Holds s) : I.Holds (refill n s die num) := by
  induction n generalizing s with
  | zero => exact h
  | succ n ih =>
    unfold Machine.refill
    split
    · exact h
    split
    · exact h
    split
    · exact h.holdEvent
    · exact ih h.updQueue

@[simp] theorem Inv.Holds.execRingRefill {die q} (h : I.Holds s) : I.Next (execRingRefill die q s) := by
  unfold Machine.execRingRefill
  split
  · exact h
  · exact h.flushRing.refill.after

theorem Inv.Holds.joinQueue {die num rec} (h : I.Holds s) : I.Holds (joinQueue s die num rec).2 := by
  unfold Machine.joinQueue
  split
  · exact h
  · split
    · split
      · exact h
      · extract_lets s1
        have hs1 : I.Holds s1 := h.updQueue
        refine Inv.Holds.after ?_
        exact .ite hs1.flushRing hs1
    · exact h.updQueue.after

@[simp] theorem Inv.Holds.execEnqueue {die q rec} (h : I.Holds s) : I.Next (execEnqueue die q rec s) := by
  unfold Machine.execEnqueue
  split
  · exact h
  split
  · exact h
  extract_lets handler
  clear_value handler
  split
  · split
    · exact h
    split
    · exact h.holdEvent
    split
    · exact h
    split
    · exact h.joinQueue.updJob
    · exact h.joinQueue
  · split
    · exact h
    split
    · exact h.holdEvent
    split
    · exact h
    split
    · exact h.joinQueue.updJob
    · exact h.joinQueue

/-! ### Commit points -/

theorem Inv.Holds.commitPoint {opc ws post} (h : I.Holds s) : I.Holds (commitPoint s opc ws post) := h

theorem Inv.Holds.refuseSend {c op code} (h : I.Holds s) : I.Holds (refuseSend s t c op code) := by
  unfold Machine.refuseSend
  split
  · exact h.useTicket.poisonSend
  · exact h.deliverLater

theorem Inv.Holds.runPost {sid cpt p} (h : I.Holds s) : I.Holds (runPost s sid cpt p) := by
  unfold Machine.runPost
  split
  · exact h
  split
  · exact .later h
  · split
    · exact h
    · exact .ite (.after h) (.nearSoon h)
  · exact h.nearPut
  · exact h.sendArray
  · exact h.deliverLater
  · exact h.placeCopy
  · exact h.deliverLater
  · split
    · exact h.deliverLater
    · exact h.bindChan
  · split
    · exact h.refuseSend
    · exact h.useTicket.postSend
  · split
    · exact h.deliverLater
    · exact h.postRecv
  · exact h.postTick
  · exact h.postColl
  · exact h.postColl
  · exact h.postColl
  · exact h.updStrand (fun _ hs => hs.writeKept)
  · exact h
  · exact h
  · exact h

theorem Inv.Has.closeWindow {c} (h : I.Has t) : I.Has (closeWindow t c) := h

theorem Inv.Holds.mirrorPosts {w ps l} (h : I.Holds s) : I.Holds (mirrorPosts s w ps l) := by
  unfold Machine.mirrorPosts
  split
  · exact h
  · exact h

theorem Inv.Has.restoreBefore {b} (h : I.Has t) : I.Has (restoreBefore t b) := Inv.reg_restore h

theorem Inv.Holds.rejectBundle {sid} (h : I.Holds s) : I.Holds (rejectBundle s sid) := by
  unfold Machine.rejectBundle
  split
  · exact h
  split
  · exact h
  split
  · exact h
  · exact .updStrand h fun _ ht => ht.releaseSerials

theorem Inv.Holds.releaseLeewards {c} (h : I.Holds s) : I.Holds (releaseLeewards s t c) := by
  unfold Machine.releaseLeewards
  refine h.foldl (fun _ _ hs => (Inv.Holds.updStrand ?_).later)
  exact .ite hs.rejectBundle hs.mirrorPosts

theorem Inv.Holds.runPosts {sid c ps} (h : I.Holds s) : I.Holds (runPosts s sid c ps) := by
  unfold Machine.runPosts
  extract_lets wait s1
  have hs1 : I.Holds s1 := h.foldl (fun _ _ hs => hs.runPost)
  exact .ite hs1.updStrand.after hs1

theorem Inv.Has.goOn {now next} (h : I.Has t) : I.Has (goOn now next t) := .ite h h

theorem Inv.Holds.finishCommit {sid} (h : I.Holds s) : I.Holds (finishCommit s sid) := by
  unfold Machine.finishCommit
  split
  · exact h
  rename_i x t1 e
  have ht1 := h.getStrand e
  split
  · exact h
  extract_lets leeward posts s0 launch u s1 s2 gone s3 remain s4 s5 s6 s7 s8
  have hs0 : I.Holds s0 := .ite h.releaseLeewards h
  have hu : I.Has u := ht1.closeWindow
  have hs1 : I.Holds s1 := hs0.updStrand (fun _ hs => hu)
  have hs2 : I.Holds s2 := hs1.runPosts
  have hs4 : I.Holds s4 := by
    unfold s4
    refine .updStrand hs2 (fun _ hs => ?_)
    exact .ite hs (.ite hs (.ite hs.goOn hs))
  have hs5 : I.Holds s5 := .ite hs4.later hs4
  have hs6 : I.Holds s6 := .ite hs5.after hs5
  have hs7 : I.Holds s7 := .ite hs6.after hs6
  have hs8 : I.Holds s8 := by
    unfold s8
    split
    · exact hs7.takeTrapOn
    · exact hs7
  exact .ite hs8.later hs8

theorem Inv.Holds.releaseRemote {sid c} (h : I.Holds s) : I.Holds (releaseRemote s sid c) := .releaseAll h

theorem Inv.Holds.phaseFault {c fs} (h : I.Holds s) : I.Holds (phaseFault s t c fs) := by
  unfold Machine.phaseFault
  extract_lets lines
  split
  · exact h
  · exact h.faultStrand.foldl (fun _ _ hs => hs.postFault)

theorem Inv.Holds.reserved {sid} (h : I.Holds s) : I.Holds (reserved s sid) := by
  unfold Machine.reserved
  split
  · exact h
  split
  · exact h
  · exact .ite h.updStrand.offerSig h.updStrand.after

theorem Inv.Holds.reserveSettled {sid} (h : I.Holds s) : I.Holds (reserveSettled s sid) := by
  unfold Machine.reserveSettled
  split
  · exact h
  split
  · exact h
  · exact .ite h.reserved h.phaseFault

theorem Inv.Holds.beginReserve {c ls far ps fs} (h : I.Holds s) : I.Holds (beginReserve s t c ls far ps fs) := by
  unfold Machine.beginReserve
  extract_lets c1 s1 s2
  have hs1 : I.Holds s1 := h.updStrand
  have hs2 : I.Holds s2 := hs1.foldl (fun _ _ hs => hs.sendReq.updStrand)
  exact .ite hs2.reserveSettled hs2

theorem Inv.Holds.reserveLines {c g fs} (h : I.Holds s) : I.Holds (reserveLines s t c g fs) := by
  unfold Machine.reserveLines
  extract_lets asid ev ls far
  split
  · exact h.foldl (fun _ _ hs => hs.joinWalk)
  split
  · exact h.poll
  split
  · exact h.beginReserve
  split
  · exact .ite h.awaitAccess h.beginReserve
  · exact h.beginReserve

theorem Inv.Holds.xlateWindowCopies {g cs} (h : I.Holds s) : I.Ok (xlateWindowCopies s g t cs) := by
  induction cs generalizing s with
  | nil => exact h
  | cons c cs ih =>
    unfold Machine.xlateWindowCopies
    split
    · trivial
    · exact ih h.updCopy

theorem Inv.Holds.readLaunch {g sid x} (h : I.Holds s) : I.Holds (readLaunch s g sid x) := by
  unfold Machine.readLaunch
  extract_lets s1 bad
  have hs1 : I.Holds s1 := h.updStrand
  exact .ite hs1.rejectBundle hs1

theorem Inv.Holds.reserveAfterLaunch {g sid} (h : I.Holds s) : I.Holds (reserveAfterLaunch s g sid) := by
  unfold Machine.reserveAfterLaunch
  split
  · exact h
  split
  · exact h
  split
  · exact h.reserveLines
  split
  · exact .ite h.awaitAccess h.reserveLines
  · extract_lets s1
    have hs1 : I.Holds s1 := h.readLaunch
    split
    · exact hs1
    split
    · exact hs1
    · exact hs1.reserveLines

theorem Inv.Holds.signAndReserve {g c} (h : I.Holds s) : I.Holds (signAndReserve s g t c) := by
  unfold Machine.signAndReserve
  extract_lets ev
  split
  · exact .ite h.awaitAccess (.ite h.phaseFault h.poll)
  · extract_lets s1
    have hs1 : I.Holds s1 := h.updStrand
    exact .ite hs1.reserved hs1.reserveAfterLaunch

@[simp] theorem Inv.Holds.execWindowTentativePhase {sid} (h : I.Holds s) : I.Next (execWindowTentativePhase sid s) := by
  unfold Machine.execWindowTentativePhase
  split
  · exact h
  split
  · split
    · exact h
    split
    · exact h.poll
    split
    · exact .ite h.awaitAccess h.phaseFault
    · rename_i x5 s' e5
      exact (h.xlateWindowCopies.ok e5).signAndReserve
  · exact h

theorem Inv.Holds.applyLine {key l} (h : I.Holds s) : I.Holds (applyLine key s l) := h.foldl (fun _ _ hs => hs.hbmWrite)

theorem Inv.Holds.performed {sid} (h : I.Holds s) : I.Holds (performed s sid) := h.finishCommit

theorem Inv.Holds.performLines {c} (h : I.Holds s) : I.Holds (performLines s t c) := by
  unfold Machine.performLines
  extract_lets asid s1 frames s2 ask s3
  have hs1 : I.Holds s1 := h.foldl fun _ _ hs => hs.applyLine
  have hask (s : State) (d : BitVec 12) (mk : Nat → Packet) (h : I.Holds s) : I.Holds (ask s d mk) := h.sendReq.after
  exact .ite hs1.performed ((hs1.updStrand.foldl fun _ _ hs => hask _ _ _ hs).foldl fun _ _ hs => hask _ _ _ hs)

theorem Inv.Holds.leaveNow {sid} (h : I.Holds s) : I.Holds (leaveNow s sid) := by
  unfold Machine.leaveNow
  split
  · exact h
  · exact h.updStrand.foldl (fun _ _ hs => hs.runPost)

@[simp] theorem Inv.Holds.execWindowPerform {sid} (h : I.Holds s) : I.Next (execWindowPerform sid s) := by
  unfold Machine.execWindowPerform
  extract_lets s1
  have hs1 : I.Holds s1 := h.leaveNow
  split
  · exact hs1
  split
  · exact hs1
  · exact .ite hs1 hs1.performLines

theorem Inv.Holds.performAnswered {sid} (h : I.Holds s) : I.Holds (performAnswered s sid) := by
  unfold Machine.performAnswered
  split
  · exact h
  split
  · exact h
  · exact .ite h (.ite h.updStrand.performed h.updStrand)

theorem Inv.Holds.reserveAnswered {sid fs} (h : I.Holds s) : I.Holds (reserveAnswered s sid fs) := by
  unfold Machine.reserveAnswered
  split
  · exact h
  split
  · exact h
  split
  · exact h
  extract_lets s1
  have hs1 : I.Holds s1 := h.updStrand
  exact .ite hs1.reserveSettled hs1

theorem Inv.Holds.reserveLost {sid} (h : I.Holds s) : I.Holds (reserveLost s sid) := by
  unfold Machine.reserveLost
  split
  · exact h
  split
  · exact h
  · exact .ite h h.releaseRemote.updStrand.poll

theorem Inv.Holds.performResv {r} (h : I.Holds s) : I.Holds (performResv s r) := by
  unfold Machine.performResv
  extract_lets s1 away
  have hs1 : I.Holds s1 := by
    unfold s1
    refine .foldl h (fun _ _ hs => ?_)
    exact .ite hs hs.hbmWrite
  exact hs1

@[simp] theorem Inv.Holds.execPerformTimeout {id} (h : I.Holds s) : I.Next (execPerformTimeout id s) := by
  unfold Machine.execPerformTimeout
  split
  · exact h.performResv
  split
  · split
    · exact .performAnswered h
    · exact h
  · exact h

theorem Inv.Holds.startCommit (h : I.Holds s) : I.Holds (startCommit s) := by
  unfold Machine.startCommit
  split
  · exact h
  extract_lets t rep late cmp e c1 s1 early src s2 src3 s3
  have hs1 : I.Holds s1 := { h with }
  have hs2 : I.Holds s2 := .ite hs1 ({ hs1 with })
  have hs3 : I.Holds s3 := .ite hs2 ({ hs2 with })
  exact .ite ((hs3.foldl fun _ _ hs => hs.runPost).later) hs1.finishCommit

theorem Inv.Holds.implicitCommit {keep} (h : I.Holds s) : I.Holds (implicitCommit s keep) := Inv.Holds.startCommit { h with me := h.has_me.countEv (code := 5) (n := 1) }

/-- Both states of a report: the one that goes on after it, and the one that waits for an access. -/
theorem Inv.Holds.reportTo {asid jobn rec tag x ev} (h : I.Holds s) : I.Both (reportTo s asid jobn rec tag x ev) := by
  unfold Machine.reportTo
  split
  · exact .none h.holdEvent
  split
  · exact .some h
  · exact .some h.deliver

theorem Inv.Holds.reportTask {jobn k code ev} (h : I.Holds s) : I.Both (reportTask s jobn k code ev) := by
  unfold Machine.reportTask
  extract_lets asid
  split
  · split
    · exact .some h
    · exact h.reportTo
  split
  · exact .none h.holdEvent
  next s1 e => exact .some (h.devWrite.ok e)

theorem Inv.Holds.afterLaunch {sid} (h : I.Holds s) : I.Holds (afterLaunch s sid) := by
  unfold Machine.afterLaunch
  refine h.updStrand (fun _ hs => ?_)
  split
  · exact .goOn hs
  · exact hs

theorem Inv.Holds.queueTrap {sid rec} (h : I.Holds s) : I.Holds (queueTrap s sid rec) := by
  unfold Machine.queueTrap
  split
  · exact h
  next t et =>
    extract_lets back tags u
    have hback : I.Has back := by
      unfold back
      split
      · exact (h.getStrand et).restoreBefore
      · exact h.getStrand et
    have hu : I.Has u := hback.releaseSerials (tags := tags)
    exact .takeTrapOn (.updStrand h fun _ _ => hu)

theorem Inv.Holds.obligateLaunch {sid a tag} (h : I.Holds s) : I.Holds (obligateLaunch s sid a tag) := by
  unfold Machine.obligateLaunch
  split
  · exact h
  · exact h.updStrand (fun _ hs => hs.writeKept)

theorem Inv.Holds.writeCompletion {c rec a tag} (h : I.Holds s) : I.Holds (writeCompletion s t c rec a tag) := by
  unfold Machine.writeCompletion
  split
  · exact h.hbmWrite
  · exact h
  · exact h

theorem Inv.Holds.releaseKept {kept} (h : I.Holds s) : I.Holds (releaseKept s kept) := h

theorem Inv.Holds.launchFails {sid jobn tag k code} (h : I.Holds s) : I.Both (launchFails s sid jobn tag k code) := by
  unfold Machine.launchFails
  split
  · exact .some h.deliverNow
  · exact h.reportTask

theorem Inv.Holds.launchEnqueue {sid g q tag rec k} (h : I.Holds s) : I.Both (launchEnqueue s sid g q tag rec k) := by
  unfold Machine.launchEnqueue
  split
  · exact h.launchFails
  extract_lets r
  split
  · exact h.joinQueue.launchFails
  · exact .some h.joinQueue

@[simp] theorem Inv.Holds.execLaunchAnswer {sid} (h : I.Holds s) : I.Next (execLaunchAnswer sid s) := by
  unfold Machine.execLaunchAnswer
  split
  · exact h
  split
  · extract_lets ls all s1 s2
    split
    · exact h
    split
    · exact h.later
    split
    · exact h.releaseAll.foldl fun _ _ hs => hs.queueTrap
    have hs1 : I.Holds s1 := by
      unfold s1
      split
      · exact h
      · exact h.writeCompletion
    have hs2 : I.Holds s2 := hs1.obligateLaunch.foldl fun s u hs => by
      split
      · split
        · exact hs.obligateLaunch
        · exact hs.obligateLaunch
      · exact hs
    split
    next s3 e => exact hs2.launchEnqueue.of_eq e
    next s3 s4 e => exact (hs2.launchEnqueue.of_eq_some e).releaseKept.foldl fun _ _ hs => hs.afterLaunch
  · exact h

/-! ### Issue -/

theorem Inv.Holds.setMe {f : Strand → Strand} (h : I.Holds s) (hf : ∀ t, I.Has t → I.Has (f t) := by exact fun _ ht => ht) : I.Holds (setMe s f) :=
  { h with me := hf _ h.me }

theorem Inv.Holds.stopIssue {x} (h : I.Holds s) : I.Holds (stopIssue s x) := by
  unfold Machine.stopIssue
  extract_lets fresh tried park
  have ht : I.Holds tried := h.setMe.setMe
  split
  · exact ht.setMe
  · exact ht.setMe
  · exact h.takeTrap
  · exact ht
  · exact ht.setMe
  · exact ht.setMe
  · exact ht.updArray
  · exact ht.implicitCommit
  · exact ht.setMe.later

theorem Inv.Holds.openIssue (h : I.Holds s) : I.Holds (openIssue s) := by
  unfold Machine.openIssue
  extract_lets c ctx streak me me'
  have hme : I.Has me' := .ite h.me h.me
  exact { h with me := hme, issue := fun _ e => Option.some.inj e ▸ h.me }

theorem Inv.Holds.runSlot {o} (h : I.Holds s) (ho : ∀ s, I.Holds s → I.Holds (o.eff s)) : I.Holds (runSlot s o) := by
  unfold Machine.runSlot
  split
  · exact h
  next i ei =>
    extract_lets s1
    have hs1 : I.Holds s1 := { h with issue := fun _ e => Option.some.inj e ▸ h.issue i ei }
    exact .ite hs1 (ho s1 hs1)

theorem Inv.Holds.closeIssue (h : I.Holds s) : I.Holds (closeIssue s) := by
  unfold Machine.closeIssue
  split
  · exact h
  extract_lets r next src s1 s2
  have hs1 : I.Holds s1 := { h with issue := fun _ e => nomatch e }
  have hs2 : I.Holds s2 := .ite hs1.updCore hs1
  split
  · exact hs2.setMe.startCommit
  split
  · exact hs2.setMe.takeTrapOn
  · exact hs2.setMe

theorem Inv.Holds.issueOps {ops} (h : I.Holds s) (ho : ∀ o ∈ ops, ∀ s, I.Holds s → I.Holds (o.eff s)) : I.Holds (issueOps ops s) := by
  unfold Machine.issueOps
  split
  · exact h.stopIssue
  · refine (h.openIssue.foldl_mem (P := fun o => o ∈ ops) (fun o hm => ?_) fun _ o hs hm => hs.runSlot (ho o hm)).closeIssue
    exact (List.mem_append.mp hm).elim List.mem_of_mem_filter List.mem_of_mem_filter

theorem Inv.Holds.slotOp {slot i eff} (h : I.Holds s) (hf : ∀ s, I.Holds s → I.Holds (eff s)) : I.Next (slotOp slot i eff s) := by
  unfold Machine.slotOp
  exact .ite (.ite h (hf s h)) (h.issueOps fun o ho => List.mem_singleton.mp ho ▸ hf)

theorem Inv.Holds.fillIcache {line} (h : I.Holds s) : I.Holds (fillIcache s line) := h

theorem Inv.Holds.fillLoopBuf {bs} (h : I.Holds s) : I.Holds (fillLoopBuf s bs) := .ite h h.updCore

theorem Inv.Holds.fetchFault {k} (h : I.Holds s) : I.Holds (fetchFault s k) := h.takeTrap.postDesc

/-! ### Slot 0 -/

theorem Inv.Holds.takeBranch {target} (h : I.Holds s) : I.Holds (takeBranch s target) := h

theorem Inv.Holds.saveReturn (h : I.Holds s) : I.Holds (saveReturn s) := h.produceS

theorem Inv.Holds.poisonReg {r c} (h : I.Holds s) : I.Holds (poisonReg s r c) := h.setMe (fun _ hs => hs.writeReg)

theorem Inv.Holds.deliverWithin {n sid t' x} (h : I.Holds s) : I.Holds (deliverWithin s n sid t' x) := .deliverIn h

theorem Inv.Holds.agreeValue {r lat x} (h : I.Holds s) : I.Holds (agreeValue s r lat x) := by
  unfold Machine.agreeValue
  split
  · exact h.produce
  extract_lets n o ord
  split
  · exact h.nextAgreed.obligate.sendAgreed.deliverLater
  split
  · exact h.nextAgreed.obligate.deliverLater
  split
  · exact h.nextAgreed.obligate
  · exact h.nextAgreed.obligate.setMe

theorem Inv.Holds.obligateAgreed {r aw} (h : I.Holds s) : I.Holds (obligateAgreed s r aw).1 := by
  unfold Machine.obligateAgreed
  split
  · exact h.obligate
  extract_lets n o
  split
  · exact h.nextAgreed.obligate
  · exact h.nextAgreed.obligate.setMe

theorem Inv.Holds.replayed {f} (h : I.Holds s) (hf : ∀ s, I.Holds s → I.Holds (f s)) : I.Holds (replayed s f) := .ite h.setMe (hf _ h.setMe)

@[simp] theorem Inv.Holds.execNop (h : I.Holds s) : I.Next (execNop s) := h.slotOp fun _ hs => hs

@[simp] theorem Inv.Holds.execBr {g o} (h : I.Holds s) : I.Next (execBr g o s) := h.slotOp (fun _ hs => hs.takeBranch)

@[simp] theorem Inv.Holds.execBrx {g b} (h : I.Holds s) : I.Next (execBrx g b s) := h.slotOp (fun _ hs => hs.takeBranch)

@[simp] theorem Inv.Holds.execCall {g o} (h : I.Holds s) : I.Next (execCall g o s) := h.slotOp (fun _ hs => hs.saveReturn.takeBranch)

@[simp] theorem Inv.Holds.execCallx {g b} (h : I.Holds s) : I.Next (execCallx g b s) := h.slotOp (fun _ hs => hs.saveReturn.takeBranch)

theorem Inv.Holds.startLoop {count blen} (h : I.Holds s) : I.Holds (startLoop s count blen) := by
  unfold Machine.startLoop
  split
  · exact h.takeBranch
  extract_lets s1
  have hs1 : I.Holds s1 := .ite h.updCore h
  exact hs1.setMe

@[simp] theorem Inv.Holds.execLoop {g c n} (h : I.Holds s) : I.Next (execLoop g c n s) := h.slotOp (fun _ hs => hs.startLoop)

@[simp] theorem Inv.Holds.execLoopi {g c n} (h : I.Holds s) : I.Next (execLoopi g c n s) := h.slotOp (fun _ hs => hs.startLoop)

@[simp] theorem Inv.Holds.execLooph {g b} (h : I.Holds s) : I.Next (execLooph g b s) := h.slotOp (fun _ hs => hs.setMe)

@[simp] theorem Inv.Holds.execLexit {g} (h : I.Holds s) : I.Next (execLexit g s) := h.slotOp (fun _ hs => hs.setMe.takeBranch)

@[simp] theorem Inv.Holds.execWait {g a} (h : I.Holds s) : I.Next (execWait g a s) := h.slotOp fun _ hs => hs

@[simp] theorem Inv.Holds.execWaitany {g f b a} (h : I.Holds s) : I.Next (execWaitany g f b a s) := by
  unfold Machine.execWaitany
  refine h.slotOp (fun _ hs => Inv.Holds.produceS ?_)
  exact .ite (.ite hs.nextAgreed.sendAgreed hs.nextAgreed) hs

@[simp] theorem Inv.Holds.execState {g b a} (h : I.Holds s) : I.Next (execState g b a s) := h.slotOp (fun _ hs => hs.produceS)

@[simp] theorem Inv.Holds.execYield {g} (h : I.Holds s) : I.Next (execYield g s) := h.slotOp (fun _ hs => hs.updCore.setMe)

@[simp] theorem Inv.Holds.execSleep {g b} (h : I.Holds s) : I.Next (execSleep g b s) := by
  unfold Machine.execSleep
  refine h.slotOp (fun _ hs => ?_)
  exact .ite hs hs.setMe.after

theorem Inv.Holds.reserveTag {r} (h : I.Holds s) : I.Holds (reserveTag s r).1 := by
  unfold Machine.reserveTag
  split
  · exact h
  · exact h.setMe

@[simp] theorem Inv.Holds.execLaunch {g b a} (h : I.Holds s) : I.Next (execLaunch g b a s) := by
  unfold Machine.execLaunch
  refine h.slotOp (fun _ hs => ?_)
  extract_lets rec_ s1
  have hs1 : I.Holds s1 := hs.hashItem
  split
  · exact hs1.commitPoint
  split
  · exact hs1.reserveTag.commitPoint
  · exact hs1.reserveTag.commitPoint.setMe

@[simp] theorem Inv.Holds.execExit {g} (h : I.Holds s) : I.Next (execExit g s) := h.slotOp (fun _ hs => hs.commitPoint)

@[simp] theorem Inv.Holds.execSema {g q b a} (h : I.Holds s) : I.Next (execSema g q b a s) := h.slotOp (fun _ hs => hs.obligateAgreed.setMe.after)

@[simp] theorem Inv.Holds.execSemr {g q b} (h : I.Holds s) : I.Next (execSemr g q b s) := h.slotOp (fun _ hs => hs.replayed (fun _ hs => hs.semaInc))

@[simp] theorem Inv.Holds.execKarr {g k a} (h : I.Holds s) : I.Next (execKarr g k a s) := by
  unfold Machine.execKarr
  refine h.slotOp (fun _ hs => hs.replayed (fun _ hs => ?_))
  split
  · exact hs
  · exact .ite hs.poisonReg hs.obligate.putBarrier.checkPhase

@[simp] theorem Inv.Holds.execKdrop {g k} (h : I.Holds s) : I.Next (execKdrop g k s) := by
  unfold Machine.execKdrop
  refine h.slotOp (fun _ hs => hs.replayed (fun _ hs => ?_))
  split
  · exact hs
  · exact .ite hs hs.putBarrier.checkPhase

@[simp] theorem Inv.Holds.execKinit {g k b} (h : I.Holds s) : I.Next (execKinit g k b s) := by
  unfold Machine.execKinit
  refine h.slotOp (fun _ hs => hs.replayed (fun _ hs => ?_))
  split
  · exact hs
  · exact hs.putBarrier.wakeWaiters

@[simp] theorem Inv.Holds.execCmt {g} (h : I.Holds s) : I.Next (execCmt g s) := h.slotOp (fun _ hs => hs.commitPoint)

@[simp] theorem Inv.Holds.execRel {g f} (h : I.Holds s) : I.Next (execRel g f s) := h.slotOp (fun _ hs => hs.commitPoint)

@[simp] theorem Inv.Holds.execAcq {g f} (h : I.Holds s) : I.Next (execAcq g f s) := by
  unfold Machine.execAcq
  refine h.slotOp (fun _ hs => ?_)
  exact .ite hs hs.setMe

@[simp] theorem Inv.Holds.execNfence {g} (h : I.Holds s) : I.Next (execNfence g s) := h.slotOp (fun _ hs => hs.setMe)

@[simp] theorem Inv.Holds.execSequencerLoad {sid} (h : I.Holds s) : I.Next (execSequencerLoad sid s) := by
  unfold Machine.execSequencerLoad
  split
  · exact h
  split
  · exact h
  split
  · exact h
  split
  · exact .ite h.awaitAccess h.faultStrand
  · split
    · exact h.updStrand.takeTrapOn
    · exact h.updStrand

theorem Inv.Holds.startNest {g a} (h : I.Holds s) : I.Holds (startNest s g a) := by
  unfold Machine.startNest
  extract_lets q total j n joins s1
  have hs1 : I.Holds s1 := .ite h h.updGang
  exact .ite h.setMe hs1.setMe

@[simp] theorem Inv.Holds.execNest {g b} (h : I.Holds s) : I.Next (execNest g b s) := by
  unfold Machine.execNest
  refine h.slotOp (fun _ hs => ?_)
  split
  · exact hs.startNest
  · exact hs

@[simp] theorem Inv.Holds.execNext {g a} (h : I.Holds s) : I.Next (execNext g a s) := by
  unfold Machine.execNext
  refine h.slotOp (fun _ hs => ?_)
  extract_lets q
  split
  · split
    · exact hs
    split
    · exact .ite hs.obligate.updGang.deliverWithin hs.obligate.deliverWithin
    · exact hs.obligate.deliverWithin
  · exact .ite hs.setMe.produceS hs.produceS

theorem Inv.Has.sysWrite {n x} (h : I.Has t) : I.Has (sysWrite t n x) := by
  unfold Machine.sysWrite
  split
  · exact h
  · exact h
  · exact h
  · exact h
  · exact h

@[simp] theorem Inv.Holds.execGets {g n a} (h : I.Holds s) : I.Next (execGets g n a s) := by
  unfold Machine.execGets
  refine h.slotOp (fun _ hs => ?_)
  exact .ite hs.agreeValue hs.produceS

@[simp] theorem Inv.Holds.execSets {g n a} (h : I.Holds s) : I.Next (execSets g n a s) := h.slotOp (fun _ hs => hs.setMe (fun _ hs => hs.sysWrite))

@[simp] theorem Inv.Holds.execAgree {g b a} (h : I.Holds s) : I.Next (execAgree g b a s) := h.slotOp (fun _ hs => hs.agreeValue)

@[simp] theorem Inv.Holds.execTrap {g c} (h : I.Holds s) : I.Next (execTrap g c s) := h.slotOp (fun _ hs => hs.setMe)

theorem Inv.Holds.resumeAt {asid va} (h : I.Holds s) : I.Holds (resumeAt s asid va) := by
  unfold Machine.resumeAt
  split
  · exact h.postDesc
  split
  · exact h.resumeStrand
  · exact h

@[simp] theorem Inv.Holds.execResume {g b} (h : I.Holds s) : I.Next (execResume g b s) := by
  unfold Machine.execResume
  refine h.slotOp (fun _ hs => ?_)
  exact .ite hs.resumeAt hs

@[simp] theorem Inv.Holds.execPlog {g t' b a d} (h : I.Holds s) : I.Next (execPlog g t' b a d s) := h.slotOp (fun _ hs => hs.produceP)

@[simp] theorem Inv.Holds.execPset {g w b a} (h : I.Holds s) : I.Next (execPset g w b a s) := h.slotOp (fun _ hs => hs.produceP)

/-! ### Slot 4 -/

theorem Inv.Holds.arrayCommand {i opc d} (h : I.Holds s) : I.Holds (arrayCommand s i opc d) := by
  unfold Machine.arrayCommand
  split
  · exact h
  extract_lets o n c
  have ho : I.Holds o.1 := by
    unfold o
    split
    · exact h.obligate
    · exact h
  exact .ite ho.commitPoint (.ite ho.commitPoint ho.takeId.drainAll.commitPoint)

@[simp] theorem Inv.Holds.execAcfg {g a} (h : I.Holds s) : I.Next (execAcfg g a s) := by
  unfold Machine.execAcfg
  refine h.slotOp (fun _ hs => Inv.Holds.recordCfg ?_)
  exact .ite hs hs.claimArray

@[simp] theorem Inv.Holds.execAprog {g x d b a} (h : I.Holds s) : I.Next (execAprog g x d b a s) := h.slotOp (fun _ hs => hs.arrayCommand)

@[simp] theorem Inv.Holds.execAstat {g h' d a} (h : I.Holds s) : I.Next (execAstat g h' d a s) := h.slotOp (fun _ hs => hs.arrayCommand)

@[simp] theorem Inv.Holds.execAswap {g} (h : I.Holds s) : I.Next (execAswap g s) := h.slotOp (fun _ hs => hs.arrayCommand)

@[simp] theorem Inv.Holds.execAstream {g h' d b a} (h : I.Holds s) : I.Next (execAstream g h' d b a s) := h.slotOp (fun _ hs => hs.arrayCommand)

@[simp] theorem Inv.Holds.execAwave {g h' d b a} (h : I.Holds s) : I.Next (execAwave g h' d b a s) := h.slotOp (fun _ hs => hs.arrayCommand)

@[simp] theorem Inv.Holds.execAdrain {g h' d a} (h : I.Holds s) : I.Next (execAdrain g h' d a s) := h.slotOp (fun _ hs => hs.arrayCommand)

@[simp] theorem Inv.Holds.execAread {g d b a} (h : I.Holds s) : I.Next (execAread g d b a s) := by
  unfold Machine.execAread
  refine h.slotOp (fun _ hs => ?_)
  exact .ite hs.agreeValue.agreeValue hs.agreeValue.agreeValue

@[simp] theorem Inv.Holds.execAclr {g} (h : I.Holds s) : I.Next (execAclr g s) := h.slotOp (fun _ hs => hs.arrayCommand)

@[simp] theorem Inv.Holds.execAtrace {g h' d a} (h : I.Holds s) : I.Next (execAtrace g h' d a s) := h.slotOp (fun _ hs => hs.arrayCommand)

@[simp] theorem Inv.Holds.execAdone {g} (h : I.Holds s) : I.Next (execAdone g s) := by
  unfold Machine.execAdone
  refine h.slotOp (fun _ hs => ?_)
  exact .ite hs.takeId.updArray.after hs

/-! ### Slot 5 -/

theorem Inv.Holds.fillNear {r own lat locs x} (h : I.Holds s) : I.Holds (fillNear s r own lat locs x) := by
  unfold Machine.fillNear
  extract_lets o
  split
  · exact h.obligate.deliverIn
  split
  · exact h.obligate.deliverWithin
  · exact h.obligate.deliverWithin

theorem Inv.Holds.nearLoadOp {r a n f} (h : I.Holds s) : I.Holds (nearLoadOp s r a n f) := by
  unfold Machine.nearLoadOp
  split
  · exact h
  · exact h.nearLoad.fillNear

theorem Inv.Holds.holdStore {slice loc w} (h : I.Holds s) : I.Holds (holdStore s slice loc w) := h

theorem Inv.Holds.storeOrHold {slice loc bs} (h : I.Holds s) : I.Holds (storeOrHold s slice loc bs) := .ite h.holdStore h.nearStore

theorem Inv.Holds.nearStoreOp {a bs} (h : I.Holds s) : I.Holds (nearStoreOp s a bs) := by
  unfold Machine.nearStoreOp
  split
  · exact h
  · exact h.storeOrHold

@[simp] theorem Inv.Holds.execLdn {g d a o z} (h : I.Holds s) : I.Next (execLdn g d a o z s) := h.slotOp (fun _ hs => hs.nearLoadOp)

@[simp] theorem Inv.Holds.execStn {g d a o z} (h : I.Holds s) : I.Next (execStn g d a o z s) := h.slotOp (fun _ hs => hs.nearStoreOp)

@[simp] theorem Inv.Holds.execLdnv {g d a o} (h : I.Holds s) : I.Next (execLdnv g d a o s) := h.slotOp (fun _ hs => hs.nearLoadOp)

@[simp] theorem Inv.Holds.execStnv {g d a o} (h : I.Holds s) : I.Next (execStnv g d a o s) := h.slotOp (fun _ hs => hs.nearStoreOp)

@[simp] theorem Inv.Holds.execLdnp {g d a o} (h : I.Holds s) : I.Next (execLdnp g d a o s) := h.slotOp (fun _ hs => hs.nearLoadOp)

@[simp] theorem Inv.Holds.execStnp {g d a o} (h : I.Holds s) : I.Next (execStnp g d a o s) := h.slotOp (fun _ hs => hs.nearStoreOp)

@[simp] theorem Inv.Holds.execLdnt {g d a o z} (h : I.Holds s) : I.Next (execLdnt g d a o z s) := h.slotOp (fun _ hs => hs.nearLoadOp)

theorem Inv.Holds.gatherNear {g k eas} (h : I.Holds s) : I.Holds (gatherNear s g k eas).1 := by
  unfold Machine.gatherNear
  refine List.foldlRecOn (motive := fun acc : State × List (Option Nat) => I.Holds acc.1) _ _ h fun acc hacc ea _ => ?_
  split
  · exact hacc
  · exact hacc.nearLoad (g := g) (n := k)

@[simp] theorem Inv.Holds.execLdng {g d a t' i} (h : I.Holds s) : I.Next (execLdng g d a t' i s) := by
  unfold Machine.execLdng
  refine h.slotOp (fun _ hs => ?_)
  split
  · exact hs
  · exact hs.gatherNear.setMe.fillNear

@[simp] theorem Inv.Holds.execStns {g d a o t' i} (h : I.Holds s) : I.Next (execStns g d a o t' i s) := by
  unfold Machine.execStns
  refine h.slotOp (fun _ hs => ?_)
  split
  · exact hs
  refine hs.foldl (fun _ _ hs => ?_)
  exact .ite hs.holdStore (.ite hs.drainSlice.scatterLanes hs.sendNear)

@[simp] theorem Inv.Holds.execAtmn {g z o d a b} (h : I.Holds s) : I.Next (execAtmn g z o d a b s) := by
  unfold Machine.execAtmn
  refine h.slotOp (fun _ hs => ?_)
  split
  · exact hs
  · exact .commitPoint hs.hashItem.obligateAgreed.takeId

/-! ### Slot 6 -/

theorem Inv.Holds.alignPoison {r} (h : I.Holds s) : I.Holds (alignPoison s r) := h.obligate.deliverLater

theorem Inv.Holds.farLoadOp {r ea n k} (h : I.Holds s) : I.Holds (farLoadOp s r ea n k) := .ite h.alignPoison h.obligate.issueLoad

@[simp] theorem Inv.Holds.execLdf {g d a o z} (h : I.Holds s) : I.Next (execLdf g d a o z s) := h.slotOp (fun _ hs => hs.farLoadOp)

@[simp] theorem Inv.Holds.execLdfv {g d a o} (h : I.Holds s) : I.Next (execLdfv g d a o s) := h.slotOp (fun _ hs => hs.farLoadOp)

@[simp] theorem Inv.Holds.execLdfg {g d a t' i} (h : I.Holds s) : I.Next (execLdfg g d a t' i s) := by
  unfold Machine.execLdfg
  refine h.slotOp (fun _ hs => ?_)
  exact .ite hs.alignPoison hs.obligate.issueLoad

theorem Inv.Holds.gateStore {opc sub ea n x} (h : I.Holds s) : I.Holds (gateStore s opc sub ea n x) := .hashItem ({ h with me := h.has_me.injectStore.gateBytes })

@[simp] theorem Inv.Holds.execStf {g d a o z} (h : I.Holds s) : I.Next (execStf g d a o z s) := h.slotOp (fun _ hs => hs.gateStore)

@[simp] theorem Inv.Holds.execStfv {g d a o} (h : I.Holds s) : I.Next (execStfv g d a o s) := h.slotOp (fun _ hs => hs.gateStore)

theorem Inv.Holds.farAtomicOp {opc sub d ea z op ws} (h : I.Holds s) : I.Holds (farAtomicOp s opc sub d ea z op ws) := by
  unfold Machine.farAtomicOp
  extract_lets s1 o i x
  have hs1 : I.Holds s1 := h.hashItem
  have ho : I.Holds o.1 := by
    unfold o
    split
    · exact hs1.obligate
    · exact hs1
  exact .ite ho.deliverLater.commitPoint (.commitPoint ho.takeId)

@[simp] theorem Inv.Holds.execAtmf {g z o d a b} (h : I.Holds s) : I.Next (execAtmf g z o d a b s) := h.slotOp (fun _ hs => hs.farAtomicOp)

@[simp] theorem Inv.Holds.execRedf {g z o a b} (h : I.Holds s) : I.Next (execRedf g z o a b s) := h.slotOp (fun _ hs => hs.farAtomicOp)

@[simp] theorem Inv.Holds.execCasf {g z d a b} (h : I.Holds s) : I.Next (execCasf g z d a b s) := h.slotOp (fun _ hs => hs.farAtomicOp)

@[simp] theorem Inv.Holds.execPref {g a o} (h : I.Holds s) : I.Next (execPref g a o s) := h.slotOp fun _ hs => hs

/-! ### Slots 1 and 2 -/

@[simp] theorem Inv.Holds.execAdd {g d a b w} (h : I.Holds s) : I.Next (execAdd g d a b w s) := h.slotOp (fun _ hs => hs.produceS)

@[simp] theorem Inv.Holds.execSub {g d a b w} (h : I.Holds s) : I.Next (execSub g d a b w s) := h.slotOp (fun _ hs => hs.produceS)

@[simp] theorem Inv.Holds.execAddi {g d a i} (h : I.Holds s) : I.Next (execAddi g d a i s) := h.slotOp (fun _ hs => hs.produceS)

@[simp] theorem Inv.Holds.execMul {g d a b w} (h : I.Holds s) : I.Next (execMul g d a b w s) := h.slotOp (fun _ hs => hs.produceS)

@[simp] theorem Inv.Holds.execMulh {g d a b f} (h : I.Holds s) : I.Next (execMulh g d a b f s) := h.slotOp (fun _ hs => hs.produceS)

theorem Inv.Holds.useDivider {d f x} (h : I.Holds s) : I.Holds (useDivider s d f x) := h.obligate.updCore.deliverIn

@[simp] theorem Inv.Holds.execDiv {g d a b f} (h : I.Holds s) : I.Next (execDiv g d a b f s) := h.slotOp (fun _ hs => hs.useDivider)

@[simp] theorem Inv.Holds.execRem {g d a b f} (h : I.Holds s) : I.Next (execRem g d a b f s) := h.slotOp (fun _ hs => hs.useDivider)

@[simp] theorem Inv.Holds.execAnd {g d a b} (h : I.Holds s) : I.Next (execAnd g d a b s) := h.slotOp (fun _ hs => hs.produceS)

@[simp] theorem Inv.Holds.execOr {g d a b} (h : I.Holds s) : I.Next (execOr g d a b s) := h.slotOp (fun _ hs => hs.produceS)

@[simp] theorem Inv.Holds.execXor {g d a b} (h : I.Holds s) : I.Next (execXor g d a b s) := h.slotOp (fun _ hs => hs.produceS)

@[simp] theorem Inv.Holds.execLogi {g d a o v} (h : I.Holds s) : I.Next (execLogi g d a o v s) := h.slotOp (fun _ hs => hs.produceS)

@[simp] theorem Inv.Holds.execShl {g d a b w} (h : I.Holds s) : I.Next (execShl g d a b w s) := h.slotOp (fun _ hs => hs.produceS)

@[simp] theorem Inv.Holds.execShr {g d a b w} (h : I.Holds s) : I.Next (execShr g d a b w s) := h.slotOp (fun _ hs => hs.produceS)

@[simp] theorem Inv.Holds.execSar {g d a b w} (h : I.Holds s) : I.Next (execSar g d a b w s) := h.slotOp (fun _ hs => hs.produceS)

@[simp] theorem Inv.Holds.execRot {g d a b w} (h : I.Holds s) : I.Next (execRot g d a b w s) := h.slotOp (fun _ hs => hs.produceS)

@[simp] theorem Inv.Holds.execShi {g d a w k c} (h : I.Holds s) : I.Next (execShi g d a w k c s) := h.slotOp (fun _ hs => hs.produceS)

@[simp] theorem Inv.Holds.execCmp {g d a b f} (h : I.Holds s) : I.Next (execCmp g d a b f s) := h.slotOp (fun _ hs => hs.produceP)

@[simp] theorem Inv.Holds.execCmpi {g d a c v} (h : I.Holds s) : I.Next (execCmpi g d a c v s) := h.slotOp (fun _ hs => hs.produceP)

@[simp] theorem Inv.Holds.execMinmax {g d a b f} (h : I.Holds s) : I.Next (execMinmax g d a b f s) := h.slotOp (fun _ hs => hs.produceS)

@[simp] theorem Inv.Holds.execSel {g d a b p} (h : I.Holds s) : I.Next (execSel g d a b p s) := h.slotOp (fun _ hs => hs.produceS)

@[simp] theorem Inv.Holds.execBitc {g d a f} (h : I.Holds s) : I.Next (execBitc g d a f s) := h.slotOp (fun _ hs => hs.produceS)

@[simp] theorem Inv.Holds.execExt {g d a b signed} (h : I.Holds s) : I.Next (execExt g d a b signed s) := h.slotOp (fun _ hs => hs.produceS)

@[simp] theorem Inv.Holds.execIns {g d a b} (h : I.Holds s) : I.Next (execIns g d a b s) := h.slotOp (fun _ hs => hs.produceS)

theorem Inv.Has.moveFuture {d a} (h : I.Has t) : I.Has (moveFuture t d a) := by
  unfold Machine.moveFuture
  extract_lets tag t1 t2 t3
  have ht1 : I.Has t1 := h.logFirst
  have ht2 : I.Has t2 := I.reg_put _ _ _ ht1
  exact ht2.writeReg

theorem Inv.Holds.moveReg {d a} (h : I.Holds s) : I.Holds (moveReg s d a) := by
  unfold Machine.moveReg
  extract_lets y
  split
  · exact h.produce
  · exact .ite h (h.setMe (fun _ hs => hs.moveFuture))
  · exact h

@[simp] theorem Inv.Holds.execMov {g d a} (h : I.Holds s) : I.Next (execMov g d a s) := h.slotOp (fun _ hs => hs.moveReg)

@[simp] theorem Inv.Holds.execMovPredicate {g d a} (h : I.Holds s) : I.Next (execMovPredicate g d a s) := h.slotOp (fun _ hs => hs.moveReg)

@[simp] theorem Inv.Holds.execMovi {g d i} (h : I.Holds s) : I.Next (execMovi g d i s) := h.slotOp (fun _ hs => hs.produceS)

@[simp] theorem Inv.Holds.execMovhi {g d i} (h : I.Holds s) : I.Next (execMovhi g d i s) := h.slotOp (fun _ hs => hs.produceS)

@[simp] theorem Inv.Holds.execMovhiW {g d x} (h : I.Holds s) : I.Next (execMovhiW g d x s) := h.slotOp (fun _ hs => hs.produceS)

@[simp] theorem Inv.Holds.execLea {g d a b k} (h : I.Holds s) : I.Next (execLea g d a b k s) := h.slotOp (fun _ hs => hs.produceS)

@[simp] theorem Inv.Holds.execFop {g d a b f} (h : I.Holds s) : I.Next (execFop g d a b f s) := h.slotOp (fun _ hs => hs.produceS)

@[simp] theorem Inv.Holds.execFcmp {g d a b f} (h : I.Holds s) : I.Next (execFcmp g d a b f s) := h.slotOp (fun _ hs => hs.produceP)

@[simp] theorem Inv.Holds.execFcvt {g d a f} (h : I.Holds s) : I.Next (execFcvt g d a f s) := h.slotOp (fun _ hs => hs.produceS)

/-! ### What happens next -/

theorem Inv.Holds.dueInstr {p i s'} (h : I.Holds s) (e : dueInstr s p = some (i, s')) : I.Holds s' := by
  unfold Machine.dueInstr at e
  obtain ⟨r, -, hr⟩ := Option.map_eq_some_iff.mp e
  cases hr; exact h

theorem Inv.Holds.nextInstr {i s'} (h : I.Holds s) (e : nextInstr s = some (i, s')) : I.Holds s' := by
  unfold Machine.nextInstr at e
  split at e
  · cases e; exact h
  split at e
  next ed => cases e; exact h.dueInstr ed
  split at e
  · cases e; exact h
  · exact h.dueInstr e

theorem Inv.Has.countBank (h : I.Has t) : I.Has (countBank t) := by
  unfold Machine.countBank
  split
  · exact h
  · exact h

theorem Inv.Has.countCk (h : I.Has t) : I.Has (countCk s t) := by
  unfold Machine.countCk
  split
  · exact h
  extract_lets t1 t2 c issued t3 t4 t5
  have h2 : I.Has t2 := by unfold t2; split <;> exact h
  have h3 : I.Has t3 := by unfold t3; split <;> exact h2
  have h4 : I.Has t4 := by unfold t4; split <;> exact h3
  have h5 : I.Has t5 := h4.countBank
  exact .ite h5.countEv h5

theorem Inv.Holds.sendWrite {w} (h : I.Holds s) : I.Holds (sendWrite s w) := by
  unfold Machine.sendWrite
  split
  · exact h.sendPacket
  · exact .ite h h.sendReq

theorem Inv.Holds.sendWrites (h : I.Holds s) : I.Holds (sendWrites s) := .foldl h (fun _ _ hs => hs.sendWrite)

theorem Inv.Holds.mapOutLate (h : I.Holds s) : I.Holds (mapOutLate s) := .ite h h

theorem Inv.Holds.tick (h : I.Holds s) : I.Holds (tick s) := by
  unfold Machine.tick
  extract_lets s
  have hs : I.Holds s := h.sendWrites.mapOutLate
  refine { hs with me := hs.has_me.countCk, pool := fun t ht => ?_ }
  obtain ⟨u, hu, rfl⟩ := List.mem_map.mp ht
  exact Inv.Has.countCk (hs.pool u hu)

/-! ### Slot 7 -/

@[simp] theorem Inv.Holds.execShape {g h' a} (h : I.Holds s) : I.Next (execShape g h' a s) := h.slotOp (fun _ hs => hs.setMe)

theorem Inv.Holds.hashCopy {g opc c poisoned} (h : I.Holds s) : I.Holds (hashCopy s g opc c poisoned) := .ite h.hashItem (.ite h.hashItem h)

theorem Inv.Holds.placeOrHold {c} (h : I.Holds s) : I.Holds (placeOrHold s c) := .ite h.setMe h.placeCopy

theorem Inv.Holds.copyCommand {i opc d} (h : I.Holds s) : I.Holds (copyCommand s i opc d) := by
  unfold Machine.copyCommand
  split
  · extract_lets s' c poison o n o' n'
    clear_value poison
    have hs' : I.Holds s' := h.drainAll
    have ho : I.Holds o.1 := hs'.hashCopy.obligate
    have ho' : I.Holds o'.1 := hs'.obligateAgreed
    split
    · split
      · exact ho.commitPoint
      · exact ho.takeId.commitPoint
    · split
      · exact ho'.deliverLater
      · exact ho'.takeId.placeOrHold
  · exact h

@[simp] theorem Inv.Holds.execCopy {g h' d b a} (h : I.Holds s) : I.Next (execCopy g h' d b a s) := h.slotOp (fun _ hs => hs.copyCommand)

@[simp] theorem Inv.Holds.execCopyq {g h' d b a} (h : I.Holds s) : I.Next (execCopyq g h' d b a s) := h.slotOp (fun _ hs => hs.copyCommand)

@[simp] theorem Inv.Holds.execGath {g h' d b a} (h : I.Holds s) : I.Next (execGath g h' d b a s) := h.slotOp (fun _ hs => hs.copyCommand)

@[simp] theorem Inv.Holds.execScat {g h' d b a} (h : I.Holds s) : I.Next (execScat g h' d b a s) := h.slotOp (fun _ hs => hs.copyCommand)

@[simp] theorem Inv.Holds.execChan {g c d a} (h : I.Holds s) : I.Next (execChan g c d a s) := by
  unfold Machine.execChan
  refine h.slotOp (fun _ hs => ?_)
  split
  · exact hs
  · exact hs.drainAll.obligate.commitPoint

@[simp] theorem Inv.Holds.execSend {g c d a} (h : I.Holds s) : I.Next (execSend g c d a s) := by
  unfold Machine.execSend
  refine h.slotOp (fun _ hs => ?_)
  split
  · exact hs
  · exact hs.drainAll.hashItem.obligate.commitPoint

theorem Inv.Holds.recvCommand {opc d x mask ws} (h : I.Holds s) : I.Holds (recvCommand s opc d x mask ws) := h.drainAll.obligate.takeId.commitPoint

@[simp] theorem Inv.Holds.execRecv {g c d a} (h : I.Holds s) : I.Next (execRecv g c d a s) := h.slotOp (fun _ hs => hs.recvCommand)

@[simp] theorem Inv.Holds.execRecva {g d a} (h : I.Holds s) : I.Next (execRecva g d a s) := h.slotOp (fun _ hs => hs.recvCommand)

@[simp] theorem Inv.Holds.execTick {g c d} (h : I.Holds s) : I.Next (execTick g c d s) := h.slotOp (fun _ hs => hs.obligate.commitPoint)

theorem Inv.Holds.collCommand {opc d x sparse send} (h : I.Holds s) : I.Holds (collCommand s opc d x sparse send) := by
  unfold Machine.collCommand
  split
  · exact h
  extract_lets s1 aligned bs s2 o
  have hs1 : I.Holds s1 := h.drainAll
  have hs2 : I.Holds s2 := .ite hs1.hashItem hs1
  exact hs2.obligate.commitPoint

@[simp] theorem Inv.Holds.execColl {g d a} (h : I.Holds s) : I.Next (execColl g d a s) := h.slotOp (fun _ hs => hs.collCommand)

@[simp] theorem Inv.Holds.execSpsend {g d a} (h : I.Holds s) : I.Next (execSpsend g d a s) := h.slotOp (fun _ hs => hs.collCommand)

@[simp] theorem Inv.Holds.execSprecv {g d a} (h : I.Holds s) : I.Next (execSprecv g d a s) := h.slotOp (fun _ hs => hs.collCommand)

@[simp] theorem Inv.Holds.execXstat {g x d} (h : I.Holds s) : I.Next (execXstat g x d s) := h.slotOp (fun _ hs => hs.agreeValue)

/-! ### Slot 3 -/

theorem Inv.Holds.vec2 {g d a b t' lat f} (h : I.Holds s) : I.Holds (vec2 s g d a b t' lat f) := h.produceV

theorem Inv.Holds.vec1 {g d a t' lat f} (h : I.Holds s) : I.Holds (vec1 s g d a t' lat f) := h.produceV

@[simp] theorem Inv.Holds.execVadd {g d a b t' sat} (h : I.Holds s) : I.Next (execVadd g d a b t' sat s) := h.slotOp (fun _ hs => hs.vec2)

@[simp] theorem Inv.Holds.execVsub {g d a b t' sat} (h : I.Holds s) : I.Next (execVsub g d a b t' sat s) := h.slotOp (fun _ hs => hs.vec2)

@[simp] theorem Inv.Holds.execVmul {g d a b t' hi} (h : I.Holds s) : I.Next (execVmul g d a b t' hi s) := h.slotOp (fun _ hs => hs.vec2)

@[simp] theorem Inv.Holds.execVfma {g d a b t' neg} (h : I.Holds s) : I.Next (execVfma g d a b t' neg s) := h.slotOp (fun _ hs => hs.produceV)

@[simp] theorem Inv.Holds.execVmin {g d a b t'} (h : I.Holds s) : I.Next (execVmin g d a b t' s) := h.slotOp (fun _ hs => hs.vec2)

@[simp] theorem Inv.Holds.execVmax {g d a b t'} (h : I.Holds s) : I.Next (execVmax g d a b t' s) := h.slotOp (fun _ hs => hs.vec2)

@[simp] theorem Inv.Holds.execVuna {g d a t' neg} (h : I.Holds s) : I.Next (execVuna g d a t' neg s) := h.slotOp (fun _ hs => hs.vec1)

@[simp] theorem Inv.Holds.execVand {g d a b t'} (h : I.Holds s) : I.Next (execVand g d a b t' s) := h.slotOp (fun _ hs => hs.vec2)

@[simp] theorem Inv.Holds.execVor {g d a b t'} (h : I.Holds s) : I.Next (execVor g d a b t' s) := h.slotOp (fun _ hs => hs.vec2)

@[simp] theorem Inv.Holds.execVxor {g d a b t'} (h : I.Holds s) : I.Next (execVxor g d a b t' s) := h.slotOp (fun _ hs => hs.vec2)

@[simp] theorem Inv.Holds.execVshl {g d a b t'} (h : I.Holds s) : I.Next (execVshl g d a b t' s) := h.slotOp (fun _ hs => hs.vec2)

@[simp] theorem Inv.Holds.execVshr {g d a b t' ar} (h : I.Holds s) : I.Next (execVshr g d a b t' ar s) := h.slotOp (fun _ hs => hs.vec2)

@[simp] theorem Inv.Holds.execVcmp {g d a b t' c} (h : I.Holds s) : I.Next (execVcmp g d a b t' c s) := h.slotOp (fun _ hs => hs.produceP)

@[simp] theorem Inv.Holds.execVsel {g d a b t'} (h : I.Holds s) : I.Next (execVsel g d a b t' s) := h.slotOp (fun _ hs => hs.produceV)

@[simp] theorem Inv.Holds.execVcvt {g d a s' t' nan r} (h : I.Holds s) : I.Next (execVcvt g d a s' t' nan r s) := by
  unfold Machine.execVcvt
  refine h.slotOp (fun _ hs => ?_)
  exact .ite hs.produceV.produceV hs.produceV

@[simp] theorem Inv.Holds.execVqnt {g d a b t' rtz} (h : I.Holds s) : I.Next (execVqnt g d a b t' rtz s) := h.slotOp (fun _ hs => hs.produceV)

@[simp] theorem Inv.Holds.execVred {g d a t' f} (h : I.Holds s) : I.Next (execVred g d a t' f s) := h.slotOp (fun _ hs => hs.produceV)

@[simp] theorem Inv.Holds.execVscan {g d a t' f} (h : I.Holds s) : I.Next (execVscan g d a t' f s) := h.slotOp (fun _ hs => hs.produceV)

@[simp] theorem Inv.Holds.execVperm {g d a b t'} (h : I.Holds s) : I.Next (execVperm g d a b t' s) := h.slotOp (fun _ hs => hs.produceV)

@[simp] theorem Inv.Holds.execVbcast {g d a t' fromV} (h : I.Holds s) : I.Next (execVbcast g d a t' fromV s) := h.slotOp (fun _ hs => hs.produceV)

@[simp] theorem Inv.Holds.execVmovs {g d a b t'} (h : I.Holds s) : I.Next (execVmovs g d a b t' s) := h.slotOp (fun _ hs => hs.produceS)

@[simp] theorem Inv.Holds.execVins {g d a b t'} (h : I.Holds s) : I.Next (execVins g d a b t' s) := h.slotOp (fun _ hs => hs.produceV)

@[simp] theorem Inv.Holds.execVidx {g d t'} (h : I.Holds s) : I.Next (execVidx g d t' s) := h.slotOp (fun _ hs => hs.produceV)

@[simp] theorem Inv.Holds.execVfun {g d a f} (h : I.Holds s) : I.Next (execVfun g d a f s) := h.slotOp (fun _ hs => hs.vec1)

@[simp] theorem Inv.Holds.execVcx {g d a b t' k} (h : I.Holds s) : I.Next (execVcx g d a b t' k s) := h.slotOp (fun _ hs => hs.produceV)

@[simp] theorem Inv.Holds.execVpopc {g d a t'} (h : I.Holds s) : I.Next (execVpopc g d a t' s) := h.slotOp (fun _ hs => hs.vec1)

@[simp] theorem Inv.Holds.execVmatch {g d a b t'} (h : I.Holds s) : I.Next (execVmatch g d a b t' s) := h.slotOp (fun _ hs => hs.produceP)

@[simp] theorem Inv.Holds.execVbitsTest {g d a b t'} (h : I.Holds s) : I.Next (execVbitsTest g d a b t' s) := h.slotOp (fun _ hs => hs.produceP)

@[simp] theorem Inv.Holds.execVbitsSet {g d a b t'} (h : I.Holds s) : I.Next (execVbitsSet g d a b t' s) := h.slotOp (fun _ hs => hs.produceV)

@[simp] theorem Inv.Holds.execVbitsClear {g d a b t'} (h : I.Holds s) : I.Next (execVbitsClear g d a b t' s) := h.slotOp (fun _ hs => hs.produceV)

/-! ### The bundle -/

/-- Each instruction has its own lemma; an event that is no instruction changes nothing. -/
theorem Inv.Holds.runInstr {i} (h : I.Holds s) : I.Next (runInstr i s) := by
  cases i <;> simp [Machine.runInstr, h]

theorem Inv.Next.outState {o} (ho : I.Next o) (h : I.Holds s) : I.Holds (outState s o) := by
  unfold Machine.outState
  split
  · exact ho
  · exact h

theorem Inv.Holds.asOp {p} (h : I.Holds s) : I.Holds ((asOp p).eff s) := h.runInstr.outState h

theorem Inv.Holds.issueBytes {bs} (h : I.Holds s) : I.Holds (issueBytes s bs) := by
  unfold Machine.issueBytes
  extract_lets b
  split
  · exact h.takeTrap
  · refine h.fillLoopBuf.issueOps fun o ho => ?_
    obtain ⟨_, _, rfl⟩ := List.mem_map.mp ho
    exact fun _ hs => hs.asOp

theorem Inv.Holds.pollRemain (h : I.Holds s) : I.Holds (pollRemain s) := by
  unfold Machine.pollRemain
  extract_lets t
  split
  · exact h.setMe
  split
  · exact h.setMe.after
  · exact h.setMe

theorem Inv.Holds.fetchLater (h : I.Holds s) : I.Holds (fetchLater s) := h

theorem Inv.Holds.attempt (h : I.Holds s) : I.Holds (attempt s) := by
  unfold Machine.attempt
  split
  · exact h.barrierTrap
  split
  · exact h.pollRemain
  split
  · exact h.fetchFault
  · exact h.fillIcache.fetchLater
  · exact h.fetchLater.awaitAccess
  · exact h.issueBytes

@[simp] theorem Inv.Holds.execBundleIssue {sid} (h : I.Holds s) : I.Next (execBundleIssue sid s) := by
  unfold Machine.execBundleIssue
  split
  · exact h
  · exact .ite (.attempt (.focus ({ h with issue := fun _ e => nomatch e }))) h

/-! ### The fabric -/

theorem Inv.Holds.answer {f b} (h : I.Holds s) : I.Holds (answer s f b) := h.sendPacket

theorem Inv.Holds.answerFault {f rid asid e} (h : I.Holds s) : I.Holds (answerFault s f rid asid e) := h.answer

theorem Inv.Holds.waitOrFault {f rid asid e acc hold who} (h : I.Holds s) : I.Holds (waitOrFault s f rid asid e acc hold who) := .ite h.awaitAccess (.ite h.postFor h.answerFault)

theorem Inv.Holds.readFor {f rid asid va len acc hold who} (h : I.Holds s) : I.Holds (readFor s f rid asid va len acc hold who) := by
  unfold Machine.readFor
  split
  · exact h.waitOrFault
  · exact h.answer

theorem Inv.Holds.xlateFor {f rid asid va store acc who} (h : I.Holds s) : I.Holds (xlateFor s f rid asid va store acc who) := by
  unfold Machine.xlateFor
  split
  · exact h.waitOrFault
  · exact .answer h.takeId

theorem Inv.Holds.reserveFor {f rid asid bs} (h : I.Holds s) : I.Holds (reserveFor s f rid asid bs) := by
  unfold Machine.reserveFor
  extract_lets x
  split
  · exact h.foldl (fun _ _ hs => hs.joinWalk)
  split
  · exact h.answerFault
  · exact h.answerFault
  · exact .answer h.takeId

theorem Inv.Holds.askFrame {ev asid d key retry mk} (h : I.Holds s) : I.Holds (askFrame s ev asid d key retry mk) := .ite h (.ite (.ite h.later h) h.sendReq)

theorem Inv.Holds.performAll {f rid asid ps drop} (h : I.Holds s) : I.Holds (performAll s f rid asid ps drop) := by
  unfold Machine.performAll
  extract_lets ev key left
  split
  · refine .answer (h.foldl (fun _ _ hs => ?_))
    exact .ite hs hs.hbmWrite
  · exact h.foldl (fun _ _ hs => hs.askFrame)

theorem Inv.Holds.performFor {f rid asid resv bs acc hold who} (h : I.Holds s) : I.Holds (performFor s f rid asid resv bs acc hold who) := by
  unfold Machine.performFor
  split
  · split
    · exact h.performAll
    · exact h.answer
  · split
    · exact h.waitOrFault
    · exact h.performAll

theorem Inv.Holds.atomicFor {f rid asid va w op who} (h : I.Holds s) : I.Holds (atomicFor s f rid asid va w op who) := by
  unfold Machine.atomicFor
  split
  · exact .ite h.awaitAccess h.postFor.answerFault
  · split
    · split
      · exact h.answer
      · exact h.askFrame
    · exact .ite h.answer h.applyAtom.answer

theorem Inv.Holds.dropEvents {p} (h : I.Holds s) : I.Holds (dropEvents s p) := h

theorem Inv.Holds.releaseFor {f rid} (h : I.Holds s) : I.Holds (releaseFor s f rid) := h

theorem Inv.Holds.deliverFor {f rid asid rec tag x} (h : I.Holds s) : I.Holds (deliverFor s f rid asid rec tag x) := by
  unfold Machine.deliverFor
  split
  · exact h.answer
  split
  next e => exact h.reportTo.of_eq e
  next e => exact (h.reportTo.of_eq_some e).answer

theorem Inv.Holds.forwardHere {f sid} (h : I.Holds s) : I.Holds (forwardHere s f sid) := by
  unfold Machine.forwardHere
  split
  · exact h
  split
  · exact h.holdEvent
  · exact h.postEvent

theorem Inv.Holds.faultCopyAt {core id e gen} (h : I.Holds s) : I.Holds (faultCopyAt s core id e gen) := by
  unfold Machine.faultCopyAt
  split
  · exact h
  split
  · exact h
  · exact .ite h.updCopy.later h.endCopy

theorem Inv.Holds.takeGot {ev asid va what} (h : I.Holds s) : I.Holds (takeGot s ev asid va what) := .runJoined h

theorem Inv.Holds.faultAnswer {rid e gen} (h : I.Holds s) : I.Holds (faultAnswer s rid e gen) := by
  unfold Machine.faultAnswer
  split
  · exact h
  rename_i x x1 s' e1
  have hs' := h.takeReq e1
  split
  · split
    · exact hs'.faultLoad
    · exact hs'
  · exact hs'.reserveAnswered
  · split
    · exact h
    · exact .ite hs'.engineAtom (.ite h (.later h))
  · exact hs'.faultCopyAt
  · exact hs'.faultCopyAt
  · exact hs'.performAnswered
  · exact hs'.takeGot
  · exact hs'
  · exact hs'
  · exact hs'
  · exact hs'

theorem Inv.Holds.takeAnswer {rid bs bad what} (h : I.Holds s) : I.Holds (takeAnswer s rid bs bad what) := by
  unfold Machine.takeAnswer
  split
  · exact h
  rename_i x x1 s' e
  have hs' := h.takeReq e
  split
  · exact .ite hs'.engineLoad hs'.bindPart
  · exact hs'.reserveAnswered
  · exact hs'.performAnswered
  · split
    · exact hs'.dropAtom.deliverNow
    · exact hs'
  · split
    · exact hs'.endCopy
    · exact hs'.copyAnswer
  · exact hs'.copyAnswer
  · exact hs'.takeGot
  · exact hs'
  · exact hs'
  · exact hs'
  · exact hs'

theorem Inv.Holds.consume {f} (h : I.Holds s) : I.Holds (consume s f) := by
  unfold Machine.consume
  split
  · exact h.readFor
  · exact h.xlateFor
  · exact h.answer
  · exact (h.foldl (fun _ _ hs => hs.hbmWrite)).answer
  · exact h.applyAtom.answer
  · exact h.takeAnswer
  · exact h.reserveFor
  · exact h.releaseFor
  · exact h.takeAnswer
  · exact h.performFor
  · exact h.deliverFor
  · exact h.takeAnswer
  · exact h.atomicFor
  · exact h.postFor
  · exact h.forwardHere
  · exact h.takeAnswer
  · exact h.faultAnswer
  · exact h.takeMsg
  · exact h.endSend
  · exact h.endSend
  · exact h.giveCredit
  · split
    · exact .ite h h.noteCredit.sendPacket
    · exact h
  · split
    · exact h.noteCredit.sendPacket
    · exact h
  · split
    · exact .later (.putChan h)
    · exact h
  · exact h.skipTicket
  · exact h.after
  · exact h.giveTicket
  · exact h.giveCall
  · exact h.dropWaiting
  · exact h.takeContribution
  · exact h

theorem Inv.Holds.sendAck {p} (h : I.Holds s) : I.Holds (sendAck s p) := h

theorem Inv.Holds.discardFlit {port f} (h : I.Holds s) : I.Holds (discardFlit s port f) := by
  unfold Machine.discardFlit
  extract_lets s1
  have hs1 : I.Holds s1 := h.updPort.sendAck
  split
  · exact hs1.startResync
  · exact hs1

@[simp] theorem Inv.Holds.execFlitReceive {port f good} (h : I.Holds s) : I.Next (execFlitReceive port f good s) := by
  unfold Machine.execFlitReceive
  extract_lets x
  split
  · exact h
  split
  · exact h.discardFlit
  split
  · exact h.updPort.drainFlits
  · exact .ite h (.ite h.updPort.sendAck.drainFlits.consume (.ite h.updPort.sendAck.drainFlits.after h.updPort.sendAck.drainFlits))

@[simp] theorem Inv.Holds.execFlitForward {f} (h : I.Holds s) : I.Next (execFlitForward f s) := .ite h.consume (.ite h h.sendFlit)

theorem Inv.Holds.setReady {b on} (h : I.Holds s) : I.Holds (setReady s b on) := h

theorem Inv.Holds.declareLost (h : I.Holds s) : I.Holds (declareLost s) := by
  unfold Machine.declareLost
  refine h.foldl (fun _ _ hs => ?_)
  exact .ite hs.after hs

theorem Inv.Holds.askAgain {r} (h : I.Holds s) : I.Holds (askAgain s r) := by
  unfold Machine.askAgain
  split
  · exact .ite h h.poll
  · exact h
  · exact h

theorem Inv.Holds.askAgainAll {p} (h : I.Holds s) : I.Holds (askAgainAll s p) := .foldl h (fun _ _ hs => hs.askAgain)

theorem Inv.Holds.downPort {p} (h : I.Holds s) : I.Holds (downPort s p) := by
  unfold Machine.downPort
  extract_lets x s1 src s2 s3 used s4
  have hs1 : I.Holds s1 := h.updPort
  have hs2 : I.Holds s2 := { hs1 with }
  have hs3 : I.Holds s3 := hs2.foldl fun _ _ hs => hs.startResync
  exact .ite h (hs3.foldl fun _ _ hs => hs.after).askAgainAll.declareLost.drainFlits

@[simp] theorem Inv.Holds.execFlitResend {port} (h : I.Holds s) : I.Next (execFlitResend port s) := .ite h (.ite h.downPort ({ h with }))

@[simp] theorem Inv.Holds.execPortDown {port} (h : I.Holds s) : I.Next (execPortDown port s) := .ite h.downPort h

@[simp] theorem Inv.Holds.execPortTraining {port good peerDev peerPort} (h : I.Holds s) : I.Next (execPortTraining port good peerDev peerPort s) := by
  unfold Machine.execPortTraining
  exact .ite h (.ite h.updPort (.drainFlits { h with }))

@[simp] theorem Inv.Holds.execLinkKeyUpdate {port} (h : I.Holds s) : I.Next (execLinkKeyUpdate port s) := .ite h.updPort h

theorem Inv.Holds.loseReq {r} (h : I.Holds s) : I.Holds (loseReq s r) := by
  unfold Machine.loseReq
  split
  · exact h.linkLoad
  · exact h.reserveLost
  · exact h.performAnswered
  · split
    · exact h.linkAtom
    · exact h
  · exact h.copyAnswer
  · exact h.copyAnswer
  · exact h.deliverNow
  · exact h.startResync
  · split
    · exact .ite h.askResync h
    · exact h
  · exact h.askAgain
  · exact h.askAgain

theorem Inv.Holds.loseMessage {r} (h : I.Holds s) : I.Holds (loseMessage s r) := by
  unfold Machine.loseMessage
  split
  · split
    · exact h.putChan.foldl (fun _ _ hs => hs.poisonSend)
    · exact h
  · exact h

@[simp] theorem Inv.Holds.execPathLost {dev} (h : I.Holds s) : I.Next (execPathLost dev s) := by
  unfold Machine.execPathLost
  split
  · exact h
  extract_lets gone s1 s2 s3
  have hs2 : I.Holds s2 := .foldl h (fun _ _ hs => hs.loseMessage.loseReq)
  exact (hs2.foldl (fun _ _ hs => hs.after)).foldl (fun _ _ hs => hs.after)

@[simp] theorem Inv.Holds.execRequestTimeout {rid} (h : I.Holds s) : I.Next (execRequestTimeout rid s) := by
  unfold Machine.execRequestTimeout
  split
  · exact h
  rename_i x x1 s' e
  exact .ite h (h.takeReq e).loseReq

@[simp] theorem Inv.Holds.execSlotImageLoad {die} (h : I.Holds s) : I.Next (execSlotImageLoad die s) := by
  unfold Machine.execSlotImageLoad
  extract_lets d done
  have hdone : ∀ x0, I.Holds (done x0) := by
    intro x0
    unfold done
    exact h.updDie
  split
  · exact h
  split
  · exact h.updDie
  split
  · exact h.addTimer
  split
  · exact hdone _
  split
  · exact h.holdEvent
  · exact .ite h.updDie (hdone _)

/-! ### Placement -/

theorem Inv.Holds.kickDispatch {die} (h : I.Holds s) : I.Holds (kickDispatch s die) := .ite h h.after

theorem Inv.Holds.kickDies (h : I.Holds s) : I.Holds (kickDies s) := h.foldl (fun _ _ hs => hs.kickDispatch)

theorem Inv.Holds.coreForJob {core job} (h : I.Holds s) : I.Holds (coreForJob s core job) := h

theorem Inv.Has.newStrand {gid sid0 n i task base l} : I.Has (newStrand s gid sid0 n i task base l) := I.reg_start

theorem Inv.Holds.bindGang {j rec_ task die queue cl det seed rset ridx ls} (h : I.Holds s) : I.Ok (bindGang s j rec_ task die queue cl det seed rset ridx ls) := by
  unfold Machine.bindGang
  split
  · trivial
  extract_lets base gid ts g s1 s2
  have hts : ∀ t ∈ ts, I.Has t := fun t ht => by
    obtain ⟨_, _, rfl⟩ := List.mem_map.mp ht
    exact .newStrand
  have hs2 : I.Holds s2 := { h with pool := fun t ht => (List.mem_append.mp ht).elim (h.pool t) (hts t) }
  split
  · trivial
  next s3 e => exact (hs2.devWriteAll.ok e).foldl fun _ _ hs => hs.coreForJob

theorem Inv.Has.pickedUp {k} (h : I.Has t) : I.Has (pickedUp s k t) := by
  unfold Machine.pickedUp
  split
  · exact h
  · exact h
  · exact h

theorem Inv.Holds.restoreArray {core sid job a} (h : I.Holds s) : I.Holds (restoreArray s core sid job a) := by
  unfold Machine.restoreArray
  extract_lets s1 s2 s3
  have hs1 : I.Holds s1 := h.updArray
  have hs2 : I.Holds s2 := .ite hs1 hs1.after
  have hs3 : I.Holds s3 := .ite hs2.after hs2
  exact .ite hs3 hs3.kickArray

theorem Inv.Holds.restoreNear {g ls i} (h : I.Holds s) : I.Ok (restoreNear s g ls i) := by
  induction ls generalizing s i with
  | nil => exact h
  | cons l ls ih =>
    unfold Machine.restoreNear
    split
    · trivial
    · exact ih h.nearWrite

theorem Inv.Has.restoreStrands {k ps us} (h : ∀ p ∈ ps, I.Has p.1) (e : restoreStrands s k ps = .ok us) : ∀ u ∈ us, I.Has u := by
  induction ps generalizing k us with
  | nil => cases e; exact fun _ hu => absurd hu List.not_mem_nil
  | cons p ps ih =>
    obtain ⟨hp, hps⟩ := List.forall_mem_cons.mp h
    unfold Machine.restoreStrands at e
    split at e
    · cases e
    next er =>
      split at e
      · cases e; exact List.forall_mem_cons.mpr ⟨hp, ih hps er⟩
      split at e
      · cases e
      next et => cases e; exact List.forall_mem_cons.mpr ⟨(Inv.Has.readRecords et).pickedUp, ih hps er⟩

theorem Inv.Holds.restoreGang {g cl ls} (h : I.Holds s) : I.Ok (restoreGang s g cl ls) := by
  unfold Machine.restoreGang
  extract_lets ts arrays
  split
  · trivial
  next us eu =>
    have hus : ∀ u ∈ us, I.Has u := Inv.Has.restoreStrands (fun p hp => h.has_filterMap p.1 (List.of_mem_zip hp).1) eu
    split
    · trivial
    next s1 e1 =>
      have hs1 : I.Holds s1 := h.restoreNear.ok e1
      extract_lets s2 s3 s4 s5
      have hs2 : I.Holds s2 := Inv.Holds.foldl_mem (P := I.Has) { hs1 with } hus fun _ _ hs hu => hs.updStrand fun _ _ => hu
      have hs4 : I.Holds s4 := hs2.updGang.foldl fun _ _ hs => hs.coreForJob
      have hs5 : I.Holds s5 := hs4.foldl fun _ _ hs => by
        split
        · exact hs.restoreArray
        · exact hs
      split
      · trivial
      next s6 e6 => exact hs5.devWriteAll.ok e6

/-! ### Saving a gang -/

theorem Inv.Has.savedStrand (h : I.Has t) : I.Has (savedStrand s t) := by
  unfold Machine.savedStrand
  extract_lets ready evicted
  have hevicted : ∀ x0 x1, I.Has (evicted x0 x1) := by
    intro x0 x1
    unfold evicted
    exact h
  split
  · exact h
  · split
    · exact .ite h (hevicted _ _)
    · split
      · exact hevicted _ _
      · exact hevicted _ _
      · exact h
  · exact h

theorem Inv.Has.evictedStrand (h : I.Has t) : I.Has (evictedStrand t) := h

theorem Inv.Holds.settleStrand {evict sid} (h : I.Holds s) : I.Ok (settleStrand s evict sid) := by
  unfold Machine.settleStrand
  split
  · exact h
  next t et =>
    split
    · exact h
    split
    · trivial
    next u eu =>
      have hu : I.Has u := by
        split at eu
        · exact Except.ok.inj eu ▸ h.getStrand et
        · exact Inv.Has.readRecords eu
      extract_lets s1 s2 s3
      have hs1 : I.Holds s1 := (h.updStrand fun _ _ => hu).drainAll
      have hs3 : I.Holds s3 := hs1.discardWindow.forgetAgreed.updStrand
      split
      · exact hs1.updStrand fun _ ht => ht.evictedStrand
      · exact hs3.updStrand fun _ ht => ht.savedStrand

theorem Inv.Holds.settleAll {evict is} (h : I.Holds s) : I.Ok (settleAll evict is s) := by
  induction is generalizing s with
  | nil => exact h
  | cons i is ih =>
    unfold Machine.settleAll
    split
    · trivial
    next s1 e => exact ih (h.settleStrand.ok e)

theorem Inv.Holds.leaveArray {core} (h : I.Holds s) : I.Holds (leaveArray s core) := by
  unfold Machine.leaveArray
  extract_lets s1
  have hs1 : I.Holds s1 := h.updArray
  exact .ite hs1 hs1.after

theorem Inv.Holds.leaveCore (h : I.Holds s) : I.Holds (leaveCore s t) := by
  unfold Machine.leaveCore
  split
  · exact h
  · exact h.updCore.updStrand

theorem Inv.Holds.saveGang {g reason} (h : I.Holds s) : I.Ok (saveGang s g reason) := by
  unfold Machine.saveGang
  split
  · trivial
  rename_i x s' e
  have hs' := h.settleAll.ok e
  split
  · exact hs'
  · extract_lets as arrays ts s1 s2 us
    have hs1 : I.Holds s1 := hs'.updGang
    have hs2 : I.Holds s2 := hs1.foldl (fun _ _ hs => hs.leaveCore)
    split
    · trivial
    rename_i x3 s'1 e2
    have hs'1 := hs2.devWriteAll.ok e2
    exact ((hs'1.foldl (fun _ _ hs => hs.leaveArray)).foldl (fun _ _ hs => hs.after)).kickDies

theorem Inv.Holds.saveGangs {reason gs} (h : I.Holds s) : I.Ok (saveGangs reason gs s) := by
  induction gs generalizing s with
  | nil => exact h
  | cons g gs ih =>
    unfold Machine.saveGangs
    split
    · trivial
    next s1 e => exact ih (h.saveGang.ok e)

theorem Inv.Holds.unhalt {ts} (h : I.Holds s) : I.Holds (unhalt s ts) := h.foldl (fun _ _ hs => hs.updStrand)

theorem Inv.Holds.haltToEvict {sid} (h : I.Holds s) : I.Holds (haltToEvict s sid) := by
  unfold Machine.haltToEvict
  extract_lets s1
  have hs1 : I.Holds s1 := h.updStrand
  split
  · exact hs1
  · exact .ite hs1.poll hs1.focus.implicitCommit

@[simp] theorem Inv.Holds.execEviction {sid} (h : I.Holds s) : I.Next (execEviction sid s) := by
  unfold Machine.execEviction
  split
  · exact h
  extract_lets ts
  split
  · split
    · exact h.poll
    split
    · split
      · rename_i x1 s' e4
        exact h.saveGangs.ok e4
      · exact h.unhalt.holdEvent
    · exact .ite h.after h.unhalt
  · exact .ite (h.foldl (fun _ _ hs => hs.haltToEvict)) h

/-! ### The switch -/

theorem Inv.Holds.holdOnce {e asid acc i} (h : I.Holds s) : I.Holds (holdOnce s e asid acc i) := .ite h h.holdEvent

@[simp] theorem Inv.Holds.execPickUp {sid core} (h : I.Holds s) : I.Next (execPickUp sid core s) := by
  unfold Machine.execPickUp
  split
  · exact h
  split
  · exact h
  split
  · split
    · exact h.holdEvent
    rename_i x4 t2 e3
    have ht2 : I.Has t2 := Inv.Has.readRecords e3
    extract_lets v
    have hv : I.Has v := ht2.pickedUp
    split
    · exact h.holdEvent
    rename_i t3 x5 s' e4
    have hs' := h.devWriteAll.ok e4
    exact .updStrand hs' (fun _ hs => hv)
  · split
    · exact h
    split
    · exact h.kickDispatch
    split
    · exact h.holdEvent
    rename_i x6 s' e6
    exact h.restoreGang.ok e6
  · exact h

theorem Inv.Holds.putPreempt {die p q} (h : I.Holds s) : I.Holds (putPreempt s die p q) := h

theorem Inv.Holds.reportPreempt {die p} (h : I.Holds s) : I.Holds (reportPreempt s die p) := by
  unfold Machine.reportPreempt
  extract_lets over_
  split
  · exact h.putPreempt
  split
  next s1 e => exact (Inv.Holds.devWrite (s := { s with fresh := s.fresh + 2 }) h |>.ok e).putPreempt
  · exact h.holdOnce

theorem Inv.Holds.preemptDone {gid saved} (h : I.Holds s) : I.Holds (preemptDone s gid saved) := by
  unfold Machine.preemptDone
  refine h.foldl (fun _ _ hs => hs.foldl (fun _ _ hs => ?_))
  extract_lets p1 s1
  have hs1 : I.Holds s1 := hs.putPreempt
  exact .ite hs1.reportPreempt hs1

theorem Inv.Holds.haltGang {g} (h : I.Holds s) : I.Holds (haltGang s g) := h.foldl (fun _ _ hs => hs.updStrand)

theorem Inv.Holds.stopQueues {die kind id gs} (h : I.Holds s) : I.Holds (stopQueues s die kind id gs) := by
  unfold Machine.stopQueues
  split
  · refine h.foldl (fun _ _ hs => ?_)
    exact .ite hs.updQueue hs
  · exact h.updQueue
  · exact h.updDie
  · exact h

theorem Inv.Holds.acceptOn {dies w0 w1 w2 cmd} (h : I.Holds s) : I.Holds (acceptOn s dies w0 w1 w2 cmd) := by
  unfold Machine.acceptOn
  extract_lets kind id gs s1 p die s2 s3
  have hs1 : I.Holds s1 := .ite (h.foldl (fun _ _ hs => hs.stopQueues)) h
  have hs2 : I.Holds s2 := hs1.updDie
  have hs3 : I.Holds s3 := hs2.foldl (fun _ _ hs => hs.haltGang)
  split
  · exact hs3.reportPreempt
  refine hs3.foldl (fun _ _ hs => ?_)
  exact .ite hs.after hs

theorem Inv.Holds.acceptPreempt {die w0 w1 w2 cmd} (h : I.Holds s) : I.Holds (acceptPreempt s die w0 w1 w2 cmd) := h.acceptOn

@[simp] theorem Inv.Holds.execPreemptionRequest {die w0 w1 w2} (h : I.Holds s) : I.Next (execPreemptionRequest die w0 w1 w2 s) := by
  unfold Machine.execPreemptionRequest
  split
  · exact h.reportPreempt
  · exact h.acceptPreempt

theorem Inv.Holds.setMembers {g} (h : I.Holds s) : ∀ t ∈ setMembers s g, I.Has t := fun _ ht =>
  have ⟨_, _, ht⟩ := List.mem_flatMap.mp ht
  h.has_filterMap _ ht

theorem Inv.Holds.saveHalted {g} (h : I.Holds s) : I.Holds (saveHalted s g) := by
  unfold Machine.saveHalted
  extract_lets gs
  split
  · exact h
  split
  · exact h.after
  split
  · exact h.holdOnce
  rename_i x1 s' e2
  have hs' := h.saveGangs.ok e2
  extract_lets s2 limit
  have hs2 : I.Holds s2 := hs'.foldl (fun _ _ hs => hs.preemptDone)
  exact .ite hs2.after hs2

@[simp] theorem Inv.Holds.execWatchdogPreempt {gid} (h : I.Holds s) : I.Next (execWatchdogPreempt gid s) := by
  unfold Machine.execWatchdogPreempt
  split
  · exact h.preemptDone
  · exact .ite h.preemptDone (.ite h.preemptDone (.ite h.saveHalted (.ite ((h.foldl (fun _ _ hs => hs.haltGang)).after) h)))

theorem Inv.Holds.dogTrap {g} (h : I.Holds s) : I.Ok (dogTrap s g) := by
  unfold Machine.dogTrap
  extract_lets ts
  have hts : ∀ t ∈ ts, I.Has t := fun t ht => by
    obtain ⟨u, hu, rfl⟩ := List.mem_map.mp ht
    exact h.has_filterMap u (List.mem_of_mem_filter hu)
  split
  · trivial
  next s1 e =>
    extract_lets s2
    have hs2 : I.Holds s2 := (h.devWriteAll.ok e).foldl_mem hts fun _ _ hs ht => hs.updStrand fun _ _ => ht
    split
    · split
      · exact hs2.postEvent
      · exact hs2
    · exact hs2

theorem Inv.Holds.dogTraps {gs} (h : I.Holds s) : I.Ok (dogTraps gs s) := by
  induction gs generalizing s with
  | nil => exact h
  | cons g gs ih =>
    unfold Machine.dogTraps
    split
    · trivial
    next s1 e => exact ih (h.dogTrap.ok e)

theorem Inv.Holds.loadSaved {ts} (h : I.Holds s) (hts : ∀ t ∈ ts, I.Has t) : I.Ok (loadSaved s ts) := by
  induction ts generalizing s with
  | nil => exact h
  | cons t ts ih =>
    obtain ⟨ht, hts⟩ := List.forall_mem_cons.mp hts
    unfold Machine.loadSaved
    split
    · trivial
    next u e =>
      have hu : I.Has u := by
        split at e
        · exact Except.ok.inj e ▸ ht
        · exact Inv.Has.readRecords e
      exact ih (h.updStrand fun _ _ => hu) hts

@[simp] theorem Inv.Holds.execWatchdog {gid} (h : I.Holds s) : I.Next (execWatchdog gid s) := by
  unfold Machine.execWatchdog
  split
  · exact h
  extract_lets limit
  split
  · exact h
  split
  · exact h
  split
  · exact h.holdOnce
  next s0 e0 =>
    have hs0 : I.Holds s0 := (h.loadSaved h.setMembers).ok e0
    split
    · exact h.holdOnce
    next s1 e1 => exact hs0.dogTraps.ok e1

theorem Inv.Holds.markWaits {die} (h : I.Holds s) : I.Holds (markWaits s die) := h

theorem Inv.Holds.takeRecord {die q at_ a} (h : I.Holds s) : I.Ok (takeRecord s die q at_ a) := by
  unfold Machine.takeRecord
  split
  · exact h.updQueue
  · exact h.devWrite

theorem Inv.Holds.bindAll {j a k q seed rset ps idx} (h : I.Holds s) : I.Ok (bindAll j a k q seed rset ps idx s) := by
  induction ps generalizing s j idx with
  | nil => exact h
  | cons p ps ih =>
    unfold Machine.bindAll
    split
    · trivial
    next s1 e => exact ih (h.bindGang.ok e)

theorem Inv.Holds.placeRecord {die q at_ a k ps} (h : I.Holds s) : I.Ok (placeRecord s die q at_ a k ps) := by
  unfold Machine.placeRecord
  split
  · trivial
  extract_lets seed gid0 rid s0
  have hs0 : I.Holds s0 := .ite h h
  split
  · trivial
  rename_i x2 s' e1
  have hs' := hs0.bindAll.ok e1
  extract_lets s2
  have hs2 : I.Holds s2 := .ite hs' hs'
  split
  · trivial
  rename_i x3 s'1 e2
  exact hs2.takeRecord.ok e2

theorem Inv.Holds.refuseRecord {die q at_ a k} (h : I.Holds s) : I.Ok (refuseRecord s die q at_ a k) := by
  unfold Machine.refuseRecord
  split
  · trivial
  rename_i x s' e
  have hs' := h.takeRecord.ok e
  exact .after hs'

theorem Inv.Holds.restoreAll {ps} (h : I.Holds s) : I.Ok (restoreAll ps s) := by
  induction ps generalizing s with
  | nil => exact h
  | cons p ps ih =>
    unfold Machine.restoreAll
    split
    · trivial
    next s1 e => exact ih (h.restoreGang.ok e)

theorem Inv.Holds.servedAt {die q rank} (h : I.Holds s) : I.Holds (servedAt s die q rank) := h

/-- What an offer answers keeps the property: the state after a queue was served, and the one after it stuck. -/
theorem Inv.Holds.offerQueue {die held q o} (h : I.Holds s) : I.Offered (offerQueue s die held q o) := by
  unfold Machine.offerQueue
  extract_lets xs stuck
  have hstuck (e : GustFault) : I.Offered (stuck e) := h.holdOnce
  split
  · split
    · trivial
    split
    · exact hstuck _
    next s1 e => exact h.restoreAll.ok e
  split
  · split
    · exact hstuck _
    next s1 e => exact h.refuseRecord.ok e
  split
  · trivial
  split
  · trivial
  · exact hstuck _
  next s1 e => exact h.placeRecord.ok e

theorem Inv.Holds.offerQueues {die qs held} (h : I.Holds s) : I.Holds (offerQueues die qs held s).2 := by
  induction qs generalizing s held with
  | nil => exact h
  | cons q qs ih =>
    unfold Machine.offerQueues
    split
    · exact ih h
    next o _ =>
      have ho := h.offerQueue (die := die) (held := held) (q := q) (o := o)
      split
      next s1 e => rw [e] at ho; exact Inv.Holds.servedAt ho
      next s1 e => rw [e] at ho; exact ih ho
      · exact ih h

theorem Inv.Holds.writeLink {die p} (h : I.Holds s) : I.Holds (writeLink die s p) := by
  unfold Machine.writeLink
  split
  · exact h
  split
  · rename_i x s' e1
    exact (h.devWrite.ok e1).updStrand
  · exact h.holdOnce

theorem Inv.Holds.linkQueue {die} (h : I.Holds s) : I.Holds (linkQueue s die) := h.foldl (fun _ _ hs => hs.writeLink)

theorem Inv.Holds.recheck {die n} (h : I.Holds s) : I.Holds (recheck s die n) := .ite h h.after

theorem Inv.Holds.relieve {die} (h : I.Holds s) : I.Holds (relieve s die) := by
  unfold Machine.relieve
  extract_lets xs parked free busy first s1 due
  have hs1 : I.Holds s1 := by
    unfold s1
    split
    · exact h.after
    split
    · exact .ite h h.after
    · exact h
  exact .ite h hs1.recheck

@[simp] theorem Inv.Holds.execDispatch {die} (h : I.Holds s) : I.Next (execDispatch die s) := by
  unfold Machine.execDispatch
  extract_lets s' s0 s1 r
  have hs' : I.Holds s' := h.linkQueue
  have hs0 : I.Holds s0 := by
    unfold s0
    split
    · exact hs'.holdOnce
    · exact hs'
  have hr : I.Holds r.2 := hs0.markWaits.offerQueues
  split
  · exact hs'.after.after
  · exact .ite hr.after (hr.foldl fun _ _ hs => hs.relieve)

theorem Inv.Holds.dropTickets (h : I.Holds s) : I.Holds (dropTickets s t) := by
  unfold Machine.dropTickets
  split
  · exact h
  split
  · exact h
  refine h.foldl (fun _ _ hs => ?_)
  split
  · exact hs.skipTicket
  · exact hs

@[simp] theorem Inv.Holds.execStrandDone {sid} (h : I.Holds s) : I.Next (execStrandDone sid s) := by
  unfold Machine.execStrandDone
  split
  · exact h
  rename_i x t1 e
  have ht1 := h.getStrand e
  split
  · exact h
  extract_lets u
  split
  · exact h.holdEvent
  rename_i x1 x2 s' e2
  have hs' := h.devWriteAll.ok e2
  extract_lets s2 s3 s4 s5 s6 s7 s8
  have hs2 : I.Holds s2 := .ite hs'.releaseArray hs'
  have hs3 : I.Holds s3 := hs2.dropTickets
  have hs4 : I.Holds s4 := hs3.updGang
  have hs5 : I.Holds s5 := hs4.updCore
  have hs6 : I.Holds s6 := hs5.updStrand (fun _ hs => ht1)
  have hs8 : I.Holds s8 := by
    unfold s8
    split
    · exact .ite (.after hs6) hs6
    · exact hs6
  exact hs8.kickDies

theorem Inv.Holds.freePool {g} (h : I.Holds s) : I.Holds (freePool s g) := h

theorem Inv.Holds.retireGang {g} (h : I.Holds s) : I.Holds (retireGang s g) := by
  unfold Machine.retireGang
  extract_lets held s0 s1 gs s2
  have hs0 : I.Holds s0 := h.foldl fun _ _ hs => hs.dropMsg
  have hs1 : I.Holds s1 := hs0.freePool
  have hme : I.Has (if s1.me.gid = g.gid then Strand.none else s1.me) := .ite .none hs1.me
  have hs2 : I.Holds s2 := { hs1 with me := hme, pool := fun t ht => hs1.pool t (List.mem_of_mem_filter ht) }
  exact hs2.kickDies.preemptDone

theorem Inv.Holds.decOne {g s'} (h : I.Holds s) (e : decOne s g = .ok (some s')) : I.Holds s' := by
  unfold Machine.decOne at e
  split at e
  · cases e
  extract_lets asid at e
  split at e
  · cases e
  extract_lets a at e
  split at e
  · cases e
  split at e
  · cases e
  next s1 e1 =>
    have hs1 : I.Holds s1 := by
      split at e1
      · exact Except.ok.inj e1 ▸ h
      · exact h.devWrite.ok e1
    cases e
    exact hs1.updGang

theorem Inv.Holds.handlerEnds {g} (h : I.Holds s) : I.Holds (handlerEnds s g) := h

@[simp] theorem Inv.Holds.execTaskCompletion {gid} (h : I.Holds s) : I.Next (execTaskCompletion gid s) := by
  unfold Machine.execTaskCompletion
  split
  · exact h
  split
  · exact h
  split
  · exact h.retireGang
  extract_lets s0 r
  have hs0 : I.Holds s0 := h.updGang
  split
  · split
    · exact hs0.reportTask.wait
    next s1 e => exact (hs0.reportTask.go s1 e).updGang.after
  split
  · exact hs0.holdEvent
  next s1 e => exact (hs0.decOne e).after.kickDies
  · exact hs0.handlerEnds.foldl fun _ _ hs => hs.retireGang

/-! ### The pager -/

@[simp] theorem Inv.Holds.execDelivery {sid t' x} (h : I.Holds s) : I.Next (execDelivery sid t' x s) := h.deliverAt

@[simp] theorem Inv.Holds.execSleepEnd {sid} (h : I.Holds s) : I.Next (execSleepEnd sid s) := by
  unfold Machine.execSleepEnd
  refine h.updStrand (fun _ hs => ?_)
  exact .ite hs hs

theorem Inv.Holds.resumeAgain (h : I.Holds s) : I.Holds (resumeAgain s t) := by
  unfold Machine.resumeAgain
  split
  · exact h.resumeStrand
  split
  · exact h.resumeOne fun _ ht => ht.alignTo
  · exact h.resumeOne fun _ ht => ht

theorem Inv.Holds.writeHeld {job} (h : I.Holds s) : I.Holds (writeHeld s job) := by
  unfold Machine.writeHeld
  extract_lets ts s1 s2
  have hs1 : I.Holds s1 := h.foldl (fun _ _ hs => hs.saveTrap)
  exact (hs1.foldl (fun _ _ hs => hs.resumeAgain)).foldl (fun _ _ hs => hs.foldl (fun _ _ hs => hs.saveBarrier))

@[simp] theorem Inv.Holds.execHeldEventEntry {job} (h : I.Holds s) : I.Next (execHeldEventEntry job s) := by
  unfold Machine.execHeldEventEntry
  extract_lets s1
  have hs1 : I.Holds s1 := h.writeHeld
  split
  · exact hs1.enterEvents
  · exact hs1

theorem Inv.Holds.dropGot {die w0 w1} (h : I.Holds s) : I.Holds (dropGot s die w0 w1) := h

theorem Inv.Holds.acceptShoot {die w0 w1} (h : I.Holds s) : I.Holds (acceptShoot s die w0 w1).2 := h.dropGot.updDie.later

@[simp] theorem Inv.Holds.execShootDownRequest {die w0 w1} (h : I.Holds s) : I.Next (execShootDownRequest die w0 w1 s) := h.acceptShoot

@[simp] theorem Inv.Holds.execShootDownPerformed {die g} (h : I.Holds s) : I.Next (execShootDownPerformed die g s) := by
  unfold Machine.execShootDownPerformed
  split
  · exact h
  split
  · exact h
  split
  · exact h.later
  extract_lets s1
  have hs1 : I.Holds s1 := h.dropGot
  exact .updDie hs1

theorem Inv.Holds.retryHeld {die seq o} (h : I.Holds s) : I.Holds (retryHeld die seq s o) := by
  unfold Machine.retryHeld
  split
  · exact h.after
  next id =>
    split
    · exact h
    · have ha := Inv.Holds.execAtomicPlacement (id := id) (s := { s with farAtoms := s.farAtoms.map fun a => if a.id = id then { a with held := none } else a }) h
      split
      next s1 e => rw [e] at ha; exact ha
      · exact h
  · split
    · exact h.resumeAgain
    · exact h
  · exact h.resumeAt

@[simp] theorem Inv.Holds.execDescriptorRelease {die seq} (h : I.Holds s) : I.Next (execDescriptorRelease die seq s) := by
  unfold Machine.execDescriptorRelease
  extract_lets report
  have hreport : ∀ s0, I.Holds s0 → I.Holds (report s0) := by
    intro s0 hs
    unfold report
    exact hs.updDie
  split
  · exact hreport _ h
  · exact .ite (hreport _ h) (.ite h.after ((h.updDie.foldl (fun _ _ hs => hs.retryHeld)).after))

@[simp] theorem Inv.Holds.execPagerForward {die seq} (h : I.Holds s) : I.Next (execPagerForward die seq s) := by
  unfold Machine.execPagerForward
  split
  · exact h
  split
  · exact h.updDie.sendPacket
  split
  · exact h.updDie.postEvent
  · exact h

/-! ### Replicas -/

theorem Inv.Holds.updAll {ts f} (h : I.Holds s) (hf : ∀ t, I.Has t → I.Has (f t)) : I.Holds (updAll s ts f) := h.foldl (fun _ _ hs => hs.updStrand (fun _ hs => hf _ hs))

theorem Inv.Holds.postMismatch {w ts reason out repln} (h : I.Holds s) : I.Holds (postMismatch s w ts reason out repln) := h.postEvent

theorem Inv.Holds.retryStrand {sid} (h : I.Holds s) : I.Holds (retryStrand s sid) := h.discardWindow.forgetAgreed.updStrand

theorem Inv.Holds.mismatchTrap {sid} (h : I.Holds s) : I.Holds (mismatchTrap s sid) := by
  unfold Machine.mismatchTrap
  split
  · exact h
  rename_i x t1 e
  have ht1 := h.getStrand e
  exact .ite h (.ite h.updStrand (((((h.updStrand (fun _ hs => ht1.frameView)).discardWindow).forgetAgreed).updStrand).takeTrapOn))

theorem Inv.Holds.fatalMismatch {r ts reason} (h : I.Holds s) : I.Holds (fatalMismatch s r ts reason) := by
  unfold Machine.fatalMismatch
  split
  · exact h
  · exact (h.postMismatch.foldl (fun _ _ hs => hs.updGang)).foldl (fun _ _ hs => hs.mismatchTrap)

theorem Inv.Holds.dualRule {r ts} (h : I.Holds s) : I.Holds (dualRule s r ts) := .ite h.fatalMismatch (h.foldl (fun _ _ hs => hs.retryStrand))

theorem Inv.Has.retiredStrand {at_} (h : I.Has t) : I.Has (retiredStrand at_ t) := h

theorem Inv.Holds.retireReplica {g at_} (h : I.Holds s) : I.Ok (retireReplica s g at_) := by
  unfold Machine.retireReplica
  extract_lets ts us
  have hus : ∀ u ∈ us, I.Has u := fun u hu => by
    obtain ⟨t, ht, rfl⟩ := List.mem_map.mp hu
    exact (h.has_filterMap t (List.mem_of_mem_filter ht)).retiredStrand
  split
  · trivial
  next s1 e =>
    extract_lets s2 s3 s4 mine s5
    have hs2 : I.Holds s2 := (h.devWriteAll.ok e).foldl fun _ t hs => by
      split
      · exact hs.releaseRemote
      · exact hs
    have hs3 : I.Holds s3 := hs2.foldl fun _ _ hs => hs.leaveArray
    have hs4 : I.Holds s4 := hs3.foldl fun _ _ hs => hs.leaveCore
    have hs5 : I.Holds s5 := hs4.foldl_mem hus fun _ _ hs hu => hs.updStrand fun _ _ => hu
    exact Inv.Holds.updGang { hs5 with }

theorem Inv.Holds.rename {h' sid tag} (h : I.Holds s) : I.Holds (rename s h' sid tag) := by
  unfold Machine.rename
  split
  · exact h
  · exact h

theorem Inv.Holds.passChannels {o h'} (h : I.Holds s) : I.Holds (passChannels s o h') := h.updGang.foldl (fun _ _ hs => hs.rename)

theorem Inv.Holds.promote {sid} (h : I.Holds s) : I.Holds (promote s sid) := by
  unfold Machine.promote
  split
  · exact h
  extract_lets s1
  have hs1 : I.Holds s1 := by
    unfold s1
    split
    · exact .ite h.updStrand.later h
    · exact h
  refine hs1.foldl (fun _ _ hs => ?_)
  split
  · exact hs.dropAgree.deliverAll.sendAgreed
  · exact hs

theorem Inv.Holds.takeOver {o h'} (h : I.Holds s) : I.Holds (takeOver s o h') := h.passChannels.updGang.foldl (fun _ _ hs => hs.promote)

theorem Inv.Holds.compareAll {r n} (h : I.Holds s) : I.Holds (compareAll s r n) := h.foldl (fun _ _ hs => hs.after)

theorem Inv.Holds.outvote {r ts o reason} (h : I.Holds s) : I.Ok (outvote s r ts o reason) := by
  unfold Machine.outvote
  extract_lets wasWind at_
  split
  · trivial
  rename_i x s' e
  have hs' := h.retireReplica.ok e
  extract_lets s2 s3 hs s4
  have hs3 : I.Holds s3 := .updDie hs'
  have hs4 : I.Holds s4 := hs3.foldl (fun _ _ hs => hs.updGang)
  split
  · exact hs4
  · extract_lets w s5 s6 s7
    have hs5 : I.Holds s5 := hs4.postMismatch
    have hs6 : I.Holds s6 := .ite hs5.takeOver hs5
    have hs7 : I.Holds s7 := by
      unfold s7
      split
      · refine hs6.foldl (fun _ _ hs => ?_)
        exact .ite hs.after hs
      · exact hs6
    exact hs7.compareAll.kickDies

theorem Inv.Holds.agreed_ {ts} (h : I.Holds s) : I.Holds (agreed_ s ts) := by
  unfold Machine.agreed_
  split
  · exact h
  split
  · extract_lets s1
    have hs1 : I.Holds s1 := h.updAll (fun _ hs => hs)
    exact hs1.foldl (fun _ _ hs => hs.saveTrap)
  · exact h.updStrand.after

@[simp] theorem Inv.Holds.execSignatureComparison {rset lidx} (h : I.Holds s) : I.Next (execSignatureComparison rset lidx s) := by
  unfold Machine.execSignatureComparison
  split
  · exact h
  extract_lets ts
  split
  · exact h
  split
  · exact h.agreed_
  split
  · exact h.dualRule
  split
  · exact h
  split
  · exact h.holdOnce
  rename_i x6 s' e5
  exact h.outvote.ok e5

@[simp] theorem Inv.Holds.execReplicaGo {sid} (h : I.Holds s) : I.Next (execReplicaGo sid s) := by
  unfold Machine.execReplicaGo
  split
  · exact h
  split
  · exact .ite h.finishCommit h
  · exact h

@[simp] theorem Inv.Holds.execReplicaLost {rset idx} (h : I.Holds s) : I.Next (execReplicaLost rset idx s) := by
  unfold Machine.execReplicaLost
  split
  · exact h
  split
  · exact h
  extract_lets mine late most gone
  split
  · exact .ite h h.after
  · extract_lets ts
    split
    · exact h.fatalMismatch
    split
    · exact h.holdOnce
    rename_i x5 s' e4
    exact h.outvote.ok e4

@[simp] theorem Inv.Holds.execAgreedValueArrival {sid ord n x} (h : I.Holds s) : I.Next (execAgreedValueArrival sid ord n x s) := by
  unfold Machine.execAgreedValueArrival
  split
  · exact h
  split
  · exact h
  extract_lets s1
  have hs1 : I.Holds s1 := h.updStrand
  split
  · exact hs1.dropAgree.deliverAll
  · exact hs1

/-! ### Host and boot -/

@[simp] theorem Inv.Holds.execUnitReadyReport {u} (h : I.Holds s) : I.Next (execUnitReadyReport u s) := by
  unfold Machine.execUnitReadyReport
  split
  · exact .ite h (.kickDies { h with })
  · exact .ite h h.setReady
  · exact .ite h.updPort h
  · exact .ite h h.setReady
  all_goals exact h

theorem Inv.Holds.engineNear {core} (h : I.Holds s) : I.Holds (engineNear s core) := by
  unfold Machine.engineNear
  extract_lets ls s1 s2
  have hs1 : I.Holds s1 := .dropEvents h
  have hs2 : I.Holds s2 := hs1.foldl (fun _ _ hs => hs.deliverNow)
  refine hs2.foldl (fun _ _ hs => ?_)
  split
  · exact .ite (.deliverNow (.clearFence hs)) hs
  · exact hs

theorem Inv.Holds.engineCore {core} (h : I.Holds s) : I.Holds (engineCore s core) := ((h.engineNear.foldl (fun _ _ hs => hs.endCopy)).foldl (fun _ _ hs => hs.deliverNow)).updCore

theorem Inv.Holds.engineSends {gone} (h : I.Holds s) : I.Holds (engineSends s gone) := by
  unfold Machine.engineSends
  refine h.foldl (fun _ _ hs => hs.foldl (fun _ _ hs => ?_))
  split
  · exact hs
  split
  · exact .ite (hs.putChan.foldl (fun _ _ hs => hs.deliverNow)) hs
  · exact hs

theorem Inv.Holds.engineRecvs {gone} (h : I.Holds s) : I.Holds (engineRecvs s gone) := h.foldl (fun _ _ hs => hs.updGang.foldl (fun _ _ hs => hs.deliverNow))

theorem Inv.Holds.engineColls {gone} (h : I.Holds s) : I.Holds (engineColls s gone) := by
  unfold Machine.engineColls
  refine h.foldl (fun _ _ hs => ?_)
  extract_lets s1
  have hs1 : I.Holds s1 := hs.answerAll
  exact .ite hs1.updColl.advanceColl hs1

theorem Inv.Holds.engineDie {d} (h : I.Holds s) : I.Holds (engineDie s d) := (h.foldl (fun _ _ hs => hs.engineLoad)).foldl (fun _ _ hs => hs.engineAtom)

theorem Inv.Holds.engineStack {d} (h : I.Holds s) : I.Holds (engineStack s d) := h.foldl (fun _ _ hs => hs.foldl (fun _ _ hs => hs.endCopy))

theorem Inv.Holds.settleLost (h : I.Holds s) : I.Holds (settleLost s) := (h.foldl (fun _ _ hs => hs.engineCore)).engineSends.engineRecvs.engineColls.foldl (fun _ _ hs => hs.after)

theorem Inv.Holds.closePorts {ps} (h : I.Holds s) : I.Holds (closePorts s ps) := h.foldl (fun _ _ hs => hs.updPort.downPort)

@[simp] theorem Inv.Holds.execUnitMapOut {u} (h : I.Holds s) : I.Next (execUnitMapOut u s) := by
  unfold Machine.execUnitMapOut
  extract_lets s1
  have hs1 : I.Holds s1 := .ite h ({ h with })
  split
  · exact { h with }
  · exact hs1.setReady.settleLost
  · exact hs1.setReady.engineStack
  · exact (hs1.setReady.foldl fun _ _ hs => hs.setReady).engineStack.engineDie.settleLost
  · exact hs1.settleLost
  · exact hs1.closePorts
  · exact .ite hs1.downPort hs1
  · extract_lets s2 src
    have hs2 : I.Holds s2 := hs1.closePorts
    have hsrc : I.Holds src := hs2.setReady
    clear_value src
    exact .ite ({ hsrc with }) hs2
  · exact hs1.setReady
  · exact hs1.settleLost

@[simp] theorem Inv.Holds.execHostLinkDown (h : I.Holds s) : I.Next (execHostLinkDown s) := h

@[simp] theorem Inv.Holds.execPowerUp (h : I.Holds s) : I.Next (execPowerUp s) := by
  unfold Machine.execPowerUp
  split
  · exact h
  extract_lets __src
  have h__src : I.Holds __src := h.setReady
  exact h__src

@[simp] theorem Inv.Holds.execStagingWrite {off bytes} (h : I.Holds s) : I.Next (execStagingWrite off bytes s) := by
  unfold Machine.execStagingWrite
  split
  · trivial
  · exact .ite ({ h with staging := I.mem_write _ _ _ h.staging }) h

theorem Inv.Holds.startVerify {len} (h : I.Holds s) : I.Holds (startVerify s len) := .ite h (.ite (.later h) (.later h))

@[simp] theorem Inv.Holds.execGo {len} (h : I.Holds s) : I.Next (execGo len s) := h.startVerify

@[simp] theorem Inv.Holds.execVerificationFailure {status} (h : I.Holds s) : I.Next (execVerificationFailure status s) := .ite h ({ h with staging := I.mem_nil })

@[simp] theorem Inv.Holds.execImageStart (h : I.Holds s) : I.Next (execImageStart s) := .ite h (.after h)

theorem Inv.Holds.pumpRing (h : I.Holds s) : I.Holds (pumpRing s) := .ite h (.later h)

@[simp] theorem Inv.Holds.execHostRegisterWrite {off x} (h : I.Holds s) : I.Next (execHostRegisterWrite off x s) := by
  unfold Machine.execHostRegisterWrite
  split
  · exact h
  split
  · exact h.startVerify
  · exact h
  · exact h
  · exact .pumpRing h
  · exact h
  · exact h

theorem Inv.Holds.complete {e st v} (h : I.Holds s) : I.Holds (complete s e st v) := .pumpRing ({ h with hostMem := I.mem_write _ _ _ h.hostMem })

theorem Inv.Holds.runCmd {e ev st} {run : State → CmdRes} (h : I.Holds s) (hr : ∀ s, I.Holds s → I.Cmd (run s)) : I.Next (runCmd s e ev st run) := by
  unfold Machine.runCmd
  split
  · exact h
  split
  · exact h.complete
  have hc := hr s h
  split
  next e => rw [e] at hc; exact Inv.Holds.complete hc
  next e => rw [e] at hc; exact Inv.Holds.later hc
  next e => rw [e] at hc; exact hc

theorem Inv.Holds.beginCmd {e wait} (h : I.Holds s) : I.Holds (beginCmd s e wait) := h

@[simp] theorem Inv.Holds.execReservedOp {e} (h : I.Holds s) : I.Next (execReservedOp e s) := h.runCmd fun _ hs => .done hs

@[simp] theorem Inv.Holds.execSetdev {e} (h : I.Holds s) : I.Next (execSetdev e s) := h.runCmd fun s hs => by
  split
  · exact .done hs
  · exact .done { hs with }

theorem Inv.Holds.enablePort {p on} (h : I.Holds s) : I.Holds (enablePort s p on) := by
  unfold Machine.enablePort
  extract_lets s1
  have hs1 : I.Holds s1 := h.updPort
  exact .ite ({ hs1 with }) h.updPort.downPort

@[simp] theorem Inv.Holds.execPort {e} (h : I.Holds s) : I.Next (execPort e s) := h.runCmd fun _ hs => .done hs.enablePort

theorem Inv.Holds.writeRoute {dev x} (h : I.Holds s) : I.Holds (writeRoute s dev x) := .drainFlits (.declareLost h)

@[simp] theorem Inv.Holds.execRoute {e} (h : I.Holds s) : I.Next (execRoute e s) := by
  unfold Machine.execRoute
  exact h.runCmd fun s hs => .done (hs.writeRoute (dev := wbits e.w1 0 12))

theorem Inv.Holds.newTable {die} (h : I.Holds s) : I.Holds (newTable s die).2 := h.updDie.hbmWrite

theorem Inv.Holds.setAsid {die asid w} (h : I.Holds s) : I.Holds (setAsid s die asid w) := h

theorem Inv.Holds.enableAsid {asid} (h : I.Holds s) : I.Holds (enableAsid s asid) := h.foldl (fun _ _ hs => hs.newTable.setAsid)

theorem Inv.Holds.writeWord7 {j w7} (h : I.Holds s) : I.Holds (writeWord7 s j w7) := by
  unfold Machine.writeWord7
  split
  · rename_i x s' e
    exact h.devWrite.ok e
  · exact h

@[simp] theorem Inv.Holds.execJobnew {e} (h : I.Holds s) : I.Next (execJobnew e s) := by
  unfold Machine.execJobnew
  refine h.runCmd fun s hs => ?_
  extract_lets i j
  have hs1 : I.Holds { i.2 with jobs := i.2.jobs ++ [j] } := hs.takeId
  split
  · exact .done hs
  · exact .done hs1.enableAsid.writeWord7

@[simp] theorem Inv.Holds.execJobend {e} (h : I.Holds s) : I.Next (execJobend e s) := by
  unfold Machine.execJobend
  refine h.runCmd fun s hs => ?_
  split
  · exact .done hs
  split
  · exact .done hs
  · exact .done (.foldl { hs with } fun _ _ hs => hs.setAsid)

theorem Inv.Holds.zeroRange {key a n} (h : I.Holds s) : I.Holds (zeroRange s key a n) :=
  { h with hbm := I.mem_filter _ _ h.hbm, keys := I.keys_span _ _ _ _ h.keys }

theorem Inv.Holds.mapLeaf {die off target leaf ls tbl} (h : I.Holds s) : I.Holds (mapLeaf die off target leaf ls tbl s) := by
  induction ls generalizing s tbl with
  | nil => exact h
  | cons l ls ih =>
    unfold Machine.mapLeaf
    split
    · exact h.hbmWrite
    split
    · exact ih h
    · exact ih h.newTable.hbmWrite

theorem Inv.Holds.zeroPage {j leaf n} (h : I.Holds s) : I.Holds (zeroPage s j leaf n) := by
  unfold Machine.zeroPage
  extract_lets p
  split
  · exact h.zeroRange
  · exact h

@[simp] theorem Inv.Holds.execMap {e} (h : I.Holds s) : I.Next (execMap e s) := by
  unfold Machine.execMap
  refine h.runCmd fun s hs => ?_
  split
  · exact .done hs
  extract_lets s1
  have hs1 : I.Holds s1 := .ite hs.zeroPage hs
  exact .done hs1.mapLeaf

@[simp] theorem Inv.Holds.execUnmap {e} (h : I.Holds s) : I.Next (execUnmap e s) := by
  unfold Machine.execUnmap
  refine h.runCmd fun s hs => ?_
  split
  · split
    · exact .done hs
    · exact .wait hs
  · refine .wait (Inv.Holds.beginCmd ?_)
    exact List.foldlRecOn (motive := fun a : List (Nat × BitVec 32) × State => I.Holds a.2) _ _ hs fun _ ha _ _ => Inv.Holds.acceptShoot ha

@[simp] theorem Inv.Holds.execQueue {e} (h : I.Holds s) : I.Next (execQueue e s) := by
  unfold Machine.execQueue
  refine h.runCmd fun s hs => ?_
  split
  · split
    · exact .done hs.updQueue.kickDispatch
    · exact .done hs
  · exact .done hs.updDie

@[simp] theorem Inv.Holds.execEnq {e} (h : I.Holds s) : I.Next (execEnq e s) := by
  unfold Machine.execEnq
  refine h.runCmd fun s hs => ?_
  split
  · split
    · split
      · exact .done hs
      · exact .awaits hs.awaitAccess
    split
    · exact .done hs
    extract_lets r
    have hr : I.Holds r.2 := hs.joinQueue
    split
    · exact .done hr
    · exact .done hr
  · exact .done hs

@[simp] theorem Inv.Holds.execPreempt {e} (h : I.Holds s) : I.Next (execPreempt e s) := by
  unfold Machine.execPreempt
  refine h.runCmd fun s hs => ?_
  split
  · exact .wait hs.beginCmd.acceptOn
  split
  · exact .done hs.putPreempt
  · exact .wait hs

@[simp] theorem Inv.Holds.execSlot {e} (h : I.Holds s) : I.Next (execSlot e s) := by
  unfold Machine.execSlot
  refine h.runCmd fun s hs => ?_
  split
  · split
    · exact .wait hs
    · exact .done hs
  · exact .wait (.beginCmd hs.updJob.updDie.addTimer)

@[simp] theorem Inv.Holds.execClear {e} (h : I.Holds s) : I.Next (execClear e s) := by
  unfold Machine.execClear
  exact h.runCmd fun s hs => .done (.kickDies (.updDie hs))

theorem Inv.Holds.noteMoved {e n} (h : I.Holds s) : I.Holds (noteMoved s e n) := h

theorem Inv.Holds.dmaDesc {asid x acc} (h : I.Holds s) : I.Holds (dmaDesc s asid x acc) := .ite h.sendPacket h.postDesc

theorem Inv.Holds.dmaPut {ev asid va bs} (h : I.Holds s) : I.Ok (dmaPut s ev asid va bs) := by
  unfold Machine.dmaPut
  split
  · split
    · exact h
    · trivial
    · trivial
  · split
    · trivial
    split
    · exact h.hbmWrite
    · split
      · exact h
      · trivial

theorem Inv.Holds.dmaSend {ev asid x bs} (h : I.Holds s) : I.Holds (dmaSend s ev asid x bs) := by
  unfold Machine.dmaSend
  split
  · exact h.joinWalk
  split
  · exact .ite h (.ite h.later h.sendReq)
  · split
    · exact h.askFrame
    · exact h.later

theorem Inv.Holds.dmaStop {asid x acc s'} (h : I.Holds s) (hw : I.Holds s') : I.Cmd (dmaStop s asid x acc s') := by
  unfold Machine.dmaStop
  split
  · exact .awaits hw
  · exact .done h.dmaDesc

theorem Inv.Holds.dmaWrite {e asid ps bs k} (h : I.Holds s) : I.Cmd (dmaWrite e asid ps bs k s) := by
  induction ps generalizing s bs k with
  | nil => exact .done h
  | cons p ps ih =>
    unfold Machine.dmaWrite
    split
    next s1 e1 => exact ih (h.dmaPut.ok e1)
    · exact h.dmaStop h.noteMoved.dmaSend

theorem Inv.Holds.dmaRead {e asid ps k} (h : I.Holds s) : I.Cmd (dmaRead e asid ps k s) := by
  induction ps generalizing s k with
  | nil => exact .done h
  | cons p ps ih =>
    unfold Machine.dmaRead
    split
    · exact ih { h with hostMem := I.mem_write _ _ _ h.hostMem }
    · exact h.dmaStop h.noteMoved.awaitAccess

@[simp] theorem Inv.Holds.execDmain {e} (h : I.Holds s) : I.Next (execDmain e s) := h.runCmd fun s hs => by
  split
  · exact .done hs
  · exact hs.dmaWrite

@[simp] theorem Inv.Holds.execDmaout {e} (h : I.Holds s) : I.Next (execDmaout e s) := h.runCmd fun s hs => by
  split
  · exact .done hs
  · exact hs.dmaRead

@[simp] theorem Inv.Holds.execPcap {e} (h : I.Holds s) : I.Next (execPcap e s) := h.runCmd fun _ hs => .done { hs with }

@[simp] theorem Inv.Holds.execPowerSample (h : I.Holds s) : I.Next (execPowerSample s) := .ite h (.after h)

theorem Inv.Holds.spdmSay {ans f} (h : I.Holds s) : I.Holds (spdmSay s ans f) := h

@[simp] theorem Inv.Holds.execGetVersion (h : I.Holds s) : I.Next (execGetVersion s) := .ite h.spdmSay h

@[simp] theorem Inv.Holds.execGetCapabilities (h : I.Holds s) : I.Next (execGetCapabilities s) := .ite h.spdmSay h

@[simp] theorem Inv.Holds.execNegotiateAlgorithms {offered} (h : I.Holds s) : I.Next (execNegotiateAlgorithms offered s) := .ite h.spdmSay h

@[simp] theorem Inv.Holds.execGetDigests (h : I.Holds s) : I.Next (execGetDigests s) := .ite h.spdmSay h

@[simp] theorem Inv.Holds.execGetCertificate {slot offset len} (h : I.Holds s) : I.Next (execGetCertificate slot offset len s) := .ite h.spdmSay h

@[simp] theorem Inv.Holds.execChallenge {slot nonce} (h : I.Holds s) : I.Next (execChallenge slot nonce s) := .ite h.spdmSay h

@[simp] theorem Inv.Holds.execGetMeasurements {index} (h : I.Holds s) : I.Next (execGetMeasurements index s) := .ite h.spdmSay h

@[simp] theorem Inv.Holds.execKeyExchange {exchange} (h : I.Holds s) : I.Next (execKeyExchange exchange s) := .ite h.spdmSay h

@[simp] theorem Inv.Holds.execFinish {verify} (h : I.Holds s) : I.Next (execFinish verify s) := .ite h.spdmSay h

@[simp] theorem Inv.Holds.execKeyUpdate (h : I.Holds s) : I.Next (execKeyUpdate s) := .ite h.spdmSay h

@[simp] theorem Inv.Holds.execEndSession (h : I.Holds s) : I.Next (execEndSession s) := .ite h.spdmSay h

@[simp] theorem Inv.Holds.execIdeKm {stream goActive} (h : I.Holds s) : I.Next (execIdeKm stream goActive s) := .ite h.spdmSay h

/-! ### Dispatch and step -/

/-- Each instruction and each event has its own lemma. -/
theorem Inv.Holds.exec {i} (h : I.Holds s) : I.Next (exec i s) := by
  cases i <;> simp [Machine.exec, h]

theorem Inv.Holds.step (h : I.Holds s) : I.Next (step s) := by
  unfold Machine.step
  split
  · rename_i x x1 s' e
    exact (h.nextInstr e).exec
  · exact h.tick

/-! ## s0 and p0 -/

theorem constantsRead_start : ConstantsRead RegFile.start := by
  unfold ConstantsRead
  decide +kernel

theorem constantsRead_put (r : RegFile) (x : RegId) (y : RegVal) (h : ConstantsRead r) : ConstantsRead (r.put x y) := by
  obtain ⟨hs, hp⟩ := h
  cases hx : regFixed x
  · have hs' : RegId.s 0 ≠ x := fun e => absurd (e ▸ hx) (by decide)
    have hp' : RegId.p 0 ≠ x := fun e => absurd (e ▸ hx) (by decide)
    exact ⟨(r.get_put_other y hs').trans hs, (r.get_put_other y hp').trans hp⟩
  · rw [r.put_fixed y hx]
    exact ⟨hs, hp⟩

/-- s0 and p0 read as they must (R11, R12); nothing is said of a memory. -/
def constants : Inv where
  reg := ConstantsRead
  mem _ := True
  keys _ := True
  reg_start := constantsRead_start
  reg_put := constantsRead_put
  mem_nil := trivial
  mem_write _ _ _ _ := trivial
  mem_filter _ _ _ := trivial
  keys_line _ _ _ _ := trivial
  keys_span _ _ _ _ _ := trivial

theorem constants_holds_iff : constants.Holds s ↔ ConstantsOk s where
  mp h := ⟨fun t ht => ht.elim (· ▸ h.me) (h.pool t), h.issue⟩
  mpr h :=
    { me := h.1 s.me (.inl rfl), pool := fun t ht => h.1 t (.inr ht), issue := h.2
      hbm := trivial, near := trivial, staging := trivial, hostMem := trivial, keys := trivial }

/-- Settles O59: a write leaves s0 and p0 alone, and every register file of a state comes from that of a start by writes. -/
theorem stepsKeepConstantRegisters : Obligations.StepsKeepConstantRegisters := by
  intro s t h e
  have hn := (constants_holds_iff.mpr h).step
  rw [e] at hn
  exact constants_holds_iff.mp hn

/-! ## Reset -/

theorem memoriesOk_reset : MemoriesOk State.reset := by
  unfold MemoriesOk
  decide +kernel

theorem constantsOk_reset : ConstantsOk State.reset :=
  ⟨fun _ ht => ht.elim (· ▸ constantsRead_start) (nomatch ·), fun _ e => nomatch e⟩

/-- Settles O60: each field of the state after reset is written out in its definition. -/
theorem resetState : Obligations.ResetState :=
  ⟨rfl, rfl, rfl, rfl, fun _ => rfl, fun _ _ => rfl, rfl, rfl, rfl, rfl, rfl, rfl, memoriesOk_reset, constantsOk_reset⟩

end Sys2Proof.Machine
end

section
/-! PROOFS. O33 fails: a delivery also fills the log entries kept for a bundle that LAUNCH holds, which the statement's hypotheses leave free. -/

namespace Sys2Proof.Machine
open Sys2Proof Claims

/-- A closing whose bundle, before it ran, had s1 in its log, PENDING under tag 5. -/
def owedBefore : Closing :=
  { Closing.start with
    before := some { log := [⟨.s 1, 0, .pending, 5⟩], h := Vector.replicate 16 0, loop := LoopSt.zero, seq := SeqSt.zero, gated := [], inj := (0, 0), firstId := 0 } }

/-- A resident strand with that closing; its registers are FULL and its own log is empty. -/
def heldLaunch : State := { State.reset with me := { Strand.none with loc := some (0, 0), st := .running, closing := some owedBefore } }

/-- Every register is FULL at the start of a strand (R18). -/
theorem start_full (r : RegId) : (RegFile.start.get r).st = .full := by
  cases r with
  | s i => simp [RegFile.get, RegFile.start, Fut.full]
  | v i => simp [RegFile.get, RegFile.start, Fut.full]
  | p i =>
    simp only [RegFile.get, RegFile.start, Vector.getElem_set]
    split <;> simp [Fut.full]

theorem heldLaunch_onlyOwed : OnlyOwed heldLaunch 5 [] := by
  refine ⟨fun q _ h => ?_, fun e he => absurd he List.not_mem_nil⟩
  have hq : (RegFile.start.get q).st = .pending := h.1
  rw [start_full] at hq
  exact absurd hq (by decide)

/-- Refutes O33: the third clause asks that nothing but the counter of event 7 changes where neither a register nor the strand's log awaits the tag, but `deliverT` fills
the log entry of `Closing.before` too (R102, R274); in `heldLaunch` that entry is the one that waits. -/
theorem not_deliveries : ¬ Obligations.Deliveries := by
  intro h
  obtain ⟨-, -, hdrop⟩ := h heldLaunch 5 (.value 0) (.s 1) rfl rfl rfl rfl
  obtain ⟨t, e, -, -, -, -, ⟨hme, -⟩, -⟩ := hdrop (.inl rfl) heldLaunch_onlyOwed
  have ht : deliverAt 0 heldLaunch 0 5 (.value 0) = t := Host.Outcome.next.inj e
  have hc : t.me.closing = some owedBefore := congrArg Strand.closing hme
  rw [← ht] at hc
  exact absurd hc (by decide +kernel)

end Sys2Proof.Machine
end

section
/-! PROOFS. RESUME (O23): the records that it reads and writes do not depend on the bundle that is open. -/

namespace Sys2Proof.Machine
open Sys2Proof Claims

/-! ## An open bundle and the memory -/

/-- A state with the strand at issue, the cores and the open bundle of another. -/
def amid (i s : State) : State := { s with me := i.me, cores := i.cores, issue := i.issue }

theorem amid_inSlot (s : State) (n : Nat) : amid (inSlot s n) s = inSlot s n := by
  obtain ⟨p, r, cs, h, -⟩ := inSlot_shape s n
  rw [h]; rfl

theorem inSlot_array (s : State) (n c : Nat) : (getCore (inSlot s n) c).array = (getCore s c).array := by
  obtain ⟨p, r, cs, h, hcs⟩ := inSlot_shape s n
  rw [h]; exact (hcs _ rfl c).1

variable {i s : State}

/-! ## What an open bundle leaves of the device's accesses -/

@[simp] theorem amid_isRemote (va : Word) : isRemote (amid i s) va = isRemote s va := rfl

@[simp] theorem amid_keyOf (asid : Nat) : keyOf (amid i s) asid = keyOf s asid := rfl

@[simp] theorem amid_asidOf (t : Strand) : asidOf (amid i s) t = asidOf s t := rfl

@[simp] theorem amid_translate (asid : Nat) (va : Word) (acc : AccKind) : translate (amid i s) asid va acc = translate s asid va acc := rfl

@[simp] theorem amid_walkLevels (off : Nat) (ls : List Nat) (tbl : Nat) : walkLevels (amid i s) off ls tbl = walkLevels s off ls tbl := by
  induction ls generalizing tbl with
  | nil => rfl
  | cons l ls ih =>
    have he : readEntry (amid i s) tbl l off = readEntry s tbl l off := rfl
    simp only [walkLevels, he, ih]

@[simp] theorem amid_translateNow (asid : Nat) (va : Word) (acc : AccKind) : translateNow (amid i s) asid va acc = translateNow s asid va acc := by
  have hp : preCheck (amid i s) asid va acc = preCheck s asid va acc := rfl
  have hl : leafNow (amid i s) (farDie va) asid (farOff va) = leafNow s (farDie va) asid (farOff va) := by
    have ht : tlbFind (amid i s) (farDie va) asid (farOff va) = tlbFind s (farDie va) asid (farOff va) := rfl
    have hw : asidWord (amid i s) (farDie va) asid = asidWord s (farDie va) asid := rfl
    simp only [leafNow, ht, hw, amid_walkLevels]
  unfold translateNow
  rw [hp, hl]; rfl

@[simp] theorem amid_gotLines (asid n : Nat) (line : Word) : gotLines (amid i s) asid n line = gotLines s asid n line := by
  induction n generalizing line with
  | zero => rfl
  | succ n ih =>
    have hg : gotLine (amid i s) asid line = gotLine s asid line := rfl
    simp only [gotLines, hg, ih]

@[simp] theorem amid_awayBytes (asid : Nat) (va : Word) (n : Nat) : awayBytes (amid i s) asid va n = awayBytes s asid va n := by
  simp only [awayBytes, amid_gotLines]

theorem amid_readPieces (asid : Nat) (ps : List (Word × Nat)) : readPieces translate (amid i s) asid ps = readPieces translate s asid ps := by
  induction ps with
  | nil => rfl
  | cons p ps ih =>
    have hh (key a n : Nat) : hbmRead (amid i s) key a n = hbmRead s key a n := rfl
    simp only [readPieces, amid_translate, amid_awayBytes, amid_keyOf, hh, ih]

@[simp] theorem amid_devRead (asid : Nat) (va : Word) (n : Nat) : devRead (amid i s) asid va n = devRead s asid va n := by
  simp only [devRead, readBy, amid_isRemote, amid_awayBytes, amid_readPieces]

@[simp] theorem amid_readRecords (t : Strand) : readRecords (amid i s) t = readRecords s t := by
  simp only [readRecords, amid_asidOf, amid_devRead]

@[simp] theorem amid_xlateAll (asid : Nat) (acc : AccKind) (ps : List (Word × Nat)) : xlateAll (amid i s) asid acc ps = xlateAll s asid acc ps := by
  induction ps with
  | nil => rfl
  | cons p ps ih => simp only [xlateAll, amid_translate, ih]

/-! ## Writes -/

/-- A state with the memory of a device's accesses of another. -/
def overMemory (i s : State) : State := { i with hbm := s.hbm, lineKey := s.lineKey, devOut := s.devOut }

theorem hbmWrite_overMemory (key a : Nat) (bs : List Byte) : hbmWrite (overMemory i s) key a bs = overMemory i (hbmWrite s key a bs) := by
  have hkey (s : State) (l : Nat) : rekeyLine key (overMemory i s) l = overMemory i (rekeyLine key s l) := by
    have hk : lineKeyOf (overMemory i s) l = lineKeyOf s l := rfl
    unfold rekeyLine
    rw [hk]
    split
    · rfl
    · split <;> rfl
  have hfold (ls : List Nat) : ls.foldl (rekeyLine key) (overMemory i s) = overMemory i (ls.foldl (rekeyLine key) s) := List.foldl_hom (overMemory i) fun s l => hkey s l
  unfold hbmWrite
  rw [hfold]; rfl

theorem placeBytes_overMemory (key : Nat) (ps : List (Place × Nat)) (bs : List Byte) : placeBytes key ps bs (overMemory i s) = overMemory i (placeBytes key ps bs s) := by
  induction ps generalizing bs s with
  | nil => rfl
  | cons p ps ih => simp only [placeBytes, hbmWrite_overMemory, ih]

theorem placeHere_overMemory (key : Nat) (ps : List (Place × Nat)) (bs : List Byte) : placeHere key ps bs (overMemory i s) = overMemory i (placeHere key ps bs s) := by
  induction ps generalizing bs s with
  | nil => rfl
  | cons p ps ih =>
    simp only [placeHere, hbmWrite_overMemory]
    split
    · exact ih _
    · exact ih _

/-- A device's write does the same wherever the addresses mean the same. -/
theorem devWrite_overMemory (hr : isRemote (overMemory i s) = isRemote s) (hk : keyOf (overMemory i s) = keyOf s) (hx : xlateAll (overMemory i s) = xlateAll s) (asid : Nat) (va : Word) (bs : List Byte) :
    devWrite (overMemory i s) asid va bs = (devWrite s asid va bs).map (overMemory i) := by
  unfold devWrite
  rw [hr, hk, hx]
  split
  · rfl
  split
  · rfl
  simp only [placeHere_overMemory, placeBytes_overMemory]
  split <;> rfl

/-! ## What the device's writes leave -/

theorem placeBytes_shape (key : Nat) (ps : List (Place × Nat)) (bs : List Byte) : ∃ m l, placeBytes key ps bs s = { s with hbm := m, lineKey := l } := by
  induction ps generalizing bs s with
  | nil => exact ⟨s.hbm, s.lineKey, rfl⟩
  | cons p ps ih =>
    obtain ⟨m, l, e⟩ := ih (s := hbmWrite s key p.1.addr (bs.take p.2)) (bs.drop p.2)
    refine ⟨m, l, ?_⟩
    rw [placeBytes, e, (hbmWrite_spec s key _ _).1]

theorem placeHere_shape (key : Nat) (ps : List (Place × Nat)) (bs : List Byte) : ∃ m l, placeHere key ps bs s = { s with hbm := m, lineKey := l } := by
  induction ps generalizing bs s with
  | nil => exact ⟨s.hbm, s.lineKey, rfl⟩
  | cons p ps ih =>
    unfold placeHere
    split
    · exact ih _
    · obtain ⟨m, l, e⟩ := ih (s := hbmWrite s key p.1.addr (bs.take p.2)) (bs.drop p.2)
      refine ⟨m, l, ?_⟩
      rw [e, (hbmWrite_spec s key _ _).1]

theorem devWrite_shape {asid : Nat} {va : Word} {bs : List Byte} {t : State} (e : devWrite s asid va bs = .ok t) : ∃ m l o, t = { s with hbm := m, lineKey := l, devOut := o } := by
  unfold devWrite at e
  split at e
  · cases e; exact ⟨s.hbm, s.lineKey, _, rfl⟩
  split at e
  · cases e
  next ps _ =>
    split at e
    · obtain ⟨m, l, h⟩ := placeHere_shape (s := s) (keyOf s asid) ps bs
      cases e; exact ⟨m, l, _, by rw [h]⟩
    · obtain ⟨m, l, h⟩ := placeBytes_shape (s := s) (keyOf s asid) ps bs
      cases e; exact ⟨m, l, s.devOut, by rw [h]⟩

theorem devWriteAll_shape {asid : Nat} {ws : List (Word × List Byte)} {t : State} (e : devWriteAll s asid ws = .ok t) : ∃ m l o, t = { s with hbm := m, lineKey := l, devOut := o } := by
  induction ws generalizing s with
  | nil => cases e; exact ⟨t.hbm, t.lineKey, t.devOut, rfl⟩
  | cons w ws ih =>
    unfold devWriteAll at e
    split at e
    · cases e
    next s1 e1 =>
      obtain ⟨m1, l1, o1, rfl⟩ := devWrite_shape e1
      obtain ⟨m, l, o, rfl⟩ := ih e
      exact ⟨m, l, o, rfl⟩

/-! ## A device's writes in an open bundle -/

theorem amid_devWrite (asid : Nat) (va : Word) (bs : List Byte) : devWrite (amid i s) asid va bs = (devWrite s asid va bs).map (amid i) := by
  have hx : xlateAll (overMemory (amid i s) s) = xlateAll s := by funext a acc ps; exact amid_xlateAll (i := i) (s := s) a acc ps
  have he := devWrite_overMemory (i := amid i s) (s := s) rfl rfl hx asid va bs
  rw [show amid i s = overMemory (amid i s) s from rfl, he]
  cases e : devWrite s asid va bs with
  | error x => rfl
  | ok m =>
    obtain ⟨h, l, o, rfl⟩ := devWrite_shape e
    rfl

theorem amid_devWriteAll (asid : Nat) (ws : List (Word × List Byte)) : devWriteAll (amid i s) asid ws = (devWriteAll s asid ws).map (amid i) := by
  induction ws generalizing s with
  | nil => rfl
  | cons w ws ih =>
    unfold devWriteAll
    rw [amid_devWrite]
    cases devWrite s asid w.1 w.2 with
    | error e => rfl
    | ok s1 => exact ih

theorem amid_recordWrites (hcs : ∀ c, (getCore i c).array = (getCore s c).array) (t : Strand) : recordWrites (amid i s) t = recordWrites s t := by
  have hid : identOf (amid i s) t = identOf s t := by
    have hg : gangOf (amid i s) t = gangOf s t := rfl
    have ha : (getCore (amid i s) (coreOf t)).array = (getCore s (coreOf t)).array := hcs _
    unfold identOf
    rw [hg, ha]
  unfold recordWrites
  rw [hid]

/-! ## The strand that an address names -/

/-- An open bundle does not change which strand an address names, unless it names the strand at issue. -/
theorem amid_strandAt (hs : i.me.sid = s.me.sid) (hg : i.me.gid = s.me.gid) (hc : i.me.crec = s.me.crec) {asid : Nat} {va : Word} :
    (strandAt s asid va = none → strandAt (amid i s) asid va = none) ∧ ∀ u, strandAt s asid va = some u → u ≠ s.me → strandAt (amid i s) asid va = some u := by
  let named (t : Strand) : Bool := t.crec != 0 && sameByte s asid va (asidOf s t) t.crec
  have hn : (fun t : Strand => t.crec != 0 && sameByte (amid i s) asid va (asidOf (amid i s) t) t.crec) = named := by
    funext t; simp only [sameByte, amid_isRemote, amid_asidOf, amid_translateNow, named]
  have hme : named i.me = named s.me := by
    have ha : asidOf s i.me = asidOf s s.me := by simp only [asidOf, jobOf, gangOf, hg]
    simp only [named, ha, hc]
  have hl : allStrands (amid i s) = (if s.me.sid = 0 then [] else [i.me]) ++ s.pool := by rw [← hs]; rfl
  unfold strandAt
  rw [hn, hl]
  unfold allStrands
  split
  · exact ⟨id, fun _ h _ => h⟩
  · cases hb : named s.me with
    | false =>
      have hi : named i.me = false := hme.trans hb
      simp only [List.cons_append, List.nil_append, List.find?_cons, hi]
      rw [show (s.me.crec != 0 && sameByte s asid va (asidOf s s.me) s.me.crec) = false from hb]
      exact ⟨id, fun _ h _ => h⟩
    | true =>
      simp only [List.cons_append, List.nil_append, List.find?_cons]
      rw [show (s.me.crec != 0 && sameByte s asid va (asidOf s s.me) s.me.crec) = true from hb]
      exact ⟨nofun, fun u h hu => absurd (Option.some.inj h).symm hu⟩

/-! ## Resuming one strand -/

theorem resumeOne_ok {f : Strand → Strand} {u v : Strand} {m : State} {l : Nat × BitVec 2} (hu : getStrand s u.sid = some u) (hst : u.st = .faulted) (ha : holdsAtomic s u.sid = false)
    (hr : readRecords s u = .ok v) (hw : devWriteAll s (asidOf s u) (recordWrites s { f v with st := .ready, readyAt := s.clock + 1, resuming := false }) = .ok m) (hl : u.loc = some l) :
    resumeOne s u.sid f = after (updStrand m u.sid fun _ => { f v with st := .ready, readyAt := s.clock + 1, resuming := false }) 1 (.pickUp u.sid l.1) := by
  simp [resumeOne, hu, hst, ha, hr, hw, hl]

theorem updStrand_other {sid : Nat} {f : Strand → Strand} (h : sid ≠ s.me.sid) : updStrand s sid f = { s with pool := updFirst (fun t => t.sid == sid) f s.pool } := by
  rw [updStrand, if_neg fun e => h e.symm]

theorem getStrand_of_pool {t : State} {sid : Nat} (hp : t.pool = s.pool) (hs : t.me.sid = s.me.sid) (h : sid ≠ s.me.sid) : getStrand t sid = getStrand s sid := by
  rw [getStrand, getStrand, hs, hp, if_neg h.symm, if_neg h.symm]

theorem getStrand_updStrand {u w : Strand} (hu : getStrand s u.sid = some u) (hw : w.sid = u.sid) : getStrand (updStrand s u.sid fun _ => w) u.sid = some w := by
  have hfind (l : List Strand) (h : (l.find? fun t => t.sid == u.sid) = some u) : (updFirst (fun t => t.sid == u.sid) (fun _ => w) l).find? (fun t => t.sid == u.sid) = some w := by
    induction l with
    | nil => cases h
    | cons x l ih =>
      unfold updFirst
      split
      · simp [hw]
      next hx =>
        rw [List.find?_cons_of_neg (by exact hx)] at h ⊢
        exact ih h
  unfold updStrand
  split
  next hs => simp [getStrand, hw]
  next hs =>
    rw [getStrand, if_neg hs] at hu ⊢
    exact hfind _ hu

theorem readRecords_sid {u v : Strand} (h : readRecords s u = .ok v) : v.sid = u.sid := by
  unfold readRecords at h
  split at h
  · cases h
  split at h
  · cases h
  · rw [← Except.ok.inj h, loadCrec, loadFrame]

theorem resumeStrand_alone {u w : Strand} (hu : getStrand s u.sid = some u) (hst : u.st = .faulted) (h1 : getStrand (resumeOne s u.sid id) u.sid = some w)
    (hl : leewardsOf (resumeOne s u.sid id) u = []) : resumeStrand s u.sid = resumeOne s u.sid id := by
  simp [resumeStrand, hu, hst, h1, hl]

theorem leewardsOf_unreplicated {u : Strand} (h : replicated s u = false) : leewardsOf s u = [] := by
  have hs : strandSet s u = none := Option.not_isSome_iff_eq_none.mp (by rw [← Bool.not_eq_true] at h; exact h)
  simp [leewardsOf, replicasOf, hs]

theorem windward_unreplicated {u : Strand} (h : replicated s u = false) : windward s u = true := by
  have hs : strandSet s u = none := Option.not_isSome_iff_eq_none.mp (by rw [← Bool.not_eq_true] at h; exact h)
  unfold strandSet at hs
  unfold windward
  cases hg : gangOf s u with
  | none => rfl
  | some g =>
    rw [hg] at hs
    have hr : rsetOf s g = none := hs
    simp [isWindward, hr]

/-! ## The instruction -/

theorem privilegedJob_eq {h : Gang} {j : Job} (hg : gangOf s s.me = some h) (hj : getJob s h.job = some j) : privilegedJob s = j.priv := by
  simp [privilegedJob, jobOf, hg, hj]

theorem asidOf_eq {t : Strand} {h : Gang} {j : Job} (hg : gangOf s t = some h) (hj : getJob s h.job = some j) : asidOf s t = j.asid := by
  simp [asidOf, jobOf, hg, hj]

theorem resume_privilege {g : BitVec 4} {b : BitVec 6} (hr : Ready s (.resume g b)) (hp : privilegedJob s = false) : exec (.resume g b) s = .next (takeTrap s .privilege 1 0 0) :=
  slotOp_stop _ _ _ _ (.trap .privilege 1 0 0) hr.1.1 (stop_after _ _ _ _ hr.1 hr.2.1 rfl (fun r h => hr.2.2 r (List.mem_append_left _ (List.mem_append_left _ h))) (by simp [afterSources, hp]))

theorem resume_effect {g : BitVec 4} {b : BitVec 6} {h : Gang} {j : Job} (hg : gangOf s s.me = some h) (hj : getJob s h.job = some j) (hr : Ready s (.resume g b)) (hp : j.priv = true)
    (hw : replicated s s.me = false) : exec (.resume g b) s = .next (closeIssue (resumeAt (inSlot s 0) j.asid (sVal s b &&& ~~~(63 : Word)))) := by
  have hp' : privilegedJob s = true := (privilegedJob_eq hg hj).trans hp
  have hold : slotHold s (0, .resume g b) = none := by
    simp [slotHold, hg, hr.1.2.2.2.2.1, arrayOf, nearSpans]
  have hstop : stopOf s [(0, .resume g b)] = none :=
    stop_ready s 0 _ hr rfl (by simp [afterSources, hp']) (access_none s 0 _ rfl rfl rfl (fun _ => rfl) nofun nofun nofun) hold (by simp [linesNeeded]) rfl
      (bankStop_none s 0 _ fun _ => rfl)
  have he : exec (.resume g b) s = .next (closeIssue (if windward (inSlot s 0) (inSlot s 0).me then resumeAt (inSlot s 0) (asidOf (inSlot s 0) (inSlot s 0).me)
      (rdS (inSlot s 0) b &&& ~~~(63 : Word)) else inSlot s 0)) := effect_of s 0 (.resume g b) _ hr.1 hr.2.1 hstop
  obtain ⟨p, r, cs, hi, -⟩ := inSlot_shape s 0
  have hw' : windward (inSlot s 0) (inSlot s 0).me = true := windward_unreplicated (by rw [hi]; exact hw)
  have ha : asidOf (inSlot s 0) (inSlot s 0).me = j.asid := by rw [hi]; exact asidOf_eq (s := s) (t := s.me) hg hj
  rw [he, hw', if_pos rfl, ha, rdS_inSlot s 0 b hr.1.2.1]

theorem resumeAt_nobody {asid : Nat} {va : Word} {p : Place} (hl : isRemote s va = false) (ht : translateNow s asid va .load = .ok p) (hn : strandAt s asid va = none) :
    resumeAt s asid va = s := by
  simp [resumeAt, hl, ht, hn]

theorem resumeAt_somebody {asid : Nat} {va : Word} {p : Place} {u : Strand} (hl : isRemote s va = false) (ht : translateNow s asid va .load = .ok p) (hn : strandAt s asid va = some u) :
    resumeAt s asid va = resumeStrand s u.sid := by
  simp [resumeAt, hl, ht, hn]

theorem resume_nobody {g : BitVec 4} {b : BitVec 6} {h : Gang} {j : Job} {p : Place} (hg : gangOf s s.me = some h) (hj : getJob s h.job = some j) (hr : Ready s (.resume g b)) (hp : j.priv = true)
    (hw : replicated s s.me = false) (hl : isRemote s (sVal s b &&& ~~~(63 : Word)) = false) (ht : translateNow s j.asid (sVal s b &&& ~~~(63 : Word)) .load = .ok p)
    (hn : strandAt s j.asid (sVal s b &&& ~~~(63 : Word)) = none) : ∃ t, exec (.resume g b) s = .next t ∧ t.timers = s.timers ∧ RegFrame s t [] := by
  obtain ⟨q, r, cs, hi, hcs⟩ := inSlot_shape s 0
  have hn' : strandAt (inSlot s 0) j.asid (sVal s b &&& ~~~(63 : Word)) = none := by
    rw [← amid_inSlot]
    exact (amid_strandAt (by rw [hi]) (by rw [hi]) (by rw [hi])).1 hn
  have ht' : translateNow (inSlot s 0) j.asid (sVal s b &&& ~~~(63 : Word)) .load = .ok p := by rw [← amid_inSlot, amid_translateNow, ht]
  have hl' : isRemote (inSlot s 0) (sVal s b &&& ~~~(63 : Word)) = false := by rw [← amid_inSlot, amid_isRemote, hl]
  rw [resume_effect hg hj hr hp hw]
  rw [resumeAt_nobody hl' ht' hn', show inSlot s 0 = setMe (inSlot s 0) id from rfl]
  obtain ⟨q, r, cs, hc, hcs⟩ := edit_closed s 0 id hr.1 (fun _ => rfl) fun _ => rfl
  refine ⟨_, rfl, ?_, ?_⟩
  · rw [hc]
  rw [hc]
  refine ⟨fun r _ => rfl, ⟨rfl, fun _ => rfl⟩, ⟨rfl, hcs _ rfl, fun _ => rfl, fun _ => rfl⟩, rfl, rfl⟩

/-- The strand that RESUME leaves, from what its records say. -/
def resumedAs (s : State) (v : Strand) : Strand := { v with st := .ready, readyAt := s.clock + 1, resuming := false }

/-- A strand in the pool that RESUME finds resumable: its records read as `v`, and written they leave `m`. -/
structure Resumable (s : State) (u v : Strand) (m : State) : Prop where
  found : getStrand s u.sid = some u
  other : u.sid ≠ s.me.sid
  faulted : u.st = .faulted
  placed : holdsAtomic s u.sid = false
  reads : readRecords s u = .ok v
  alone : replicated s u = false
  writes : devWriteAll s (asidOf s u) (recordWrites s (resumedAs s v)) = .ok m

/-- A strand is resumable in the open bundle of another as it is outside. -/
theorem Resumable.amid {u v : Strand} {m : State} (h : Resumable s u v m) (hs : i.me.sid = s.me.sid) (hcs : ∀ c, (getCore i c).array = (getCore s c).array) :
    Resumable (amid i s) u v (amid i m) where
  found := by
    have hf := h.found
    have hi : ¬ i.me.sid = u.sid := fun e => h.other (e.symm.trans hs)
    rw [getStrand, if_neg fun e => h.other e.symm] at hf
    rw [getStrand, show (Machine.amid i s).me = i.me from rfl, if_neg hi]
    exact hf
  other := fun e => h.other (e.trans hs)
  faulted := h.faulted
  placed := h.placed
  reads := by rw [amid_readRecords, h.reads]
  alone := h.alone
  writes := by
    rw [amid_devWriteAll, amid_recordWrites hcs, amid_asidOf, show resumedAs (Machine.amid i s) v = resumedAs s v from rfl, h.writes]; rfl

/-- Resuming a strand whose replicas are itself alone writes its records and has it picked up. -/
theorem Resumable.resumeStrand {u v : Strand} {m : State} {l : Nat × BitVec 2} (h : Resumable s u v m) (hl : u.loc = some l) :
    resumeStrand s u.sid = after { m with pool := updFirst (fun t => t.sid == u.sid) (fun _ => resumedAs s v) m.pool } 1 (.pickUp u.sid l.1) ∧
      getStrand (Machine.resumeStrand s u.sid) u.sid = some (resumedAs s v) := by
  obtain ⟨hb, ln, o, hm⟩ := devWriteAll_shape h.writes
  have hne : u.sid ≠ m.me.sid := by rw [hm]; exact h.other
  have hone : resumeOne s u.sid id = after (updStrand m u.sid fun _ => resumedAs s v) 1 (.pickUp u.sid l.1) := resumeOne_ok h.found h.faulted h.placed h.reads h.writes hl
  have hfound : getStrand m u.sid = some u := by rw [hm]; exact h.found
  have hget : getStrand (resumeOne s u.sid id) u.sid = some (resumedAs s v) := by
    rw [hone]
    exact getStrand_updStrand (w := resumedAs s v) hfound (readRecords_sid (s := s) (v := v) h.reads)
  have halone : leewardsOf (resumeOne s u.sid id) u = [] := by
    refine leewardsOf_unreplicated ?_
    rw [hone, updStrand_other hne, hm]
    exact h.alone
  rw [resumeStrand_alone h.found h.faulted hget halone, hone, updStrand_other hne]
  refine ⟨rfl, ?_⟩
  rw [← updStrand_other hne, ← hone, hget]

theorem resume_somebody {g : BitVec 4} {b : BitVec 6} {h : Gang} {j : Job} {p : Place} {u v : Strand} {m : State} (hg : gangOf s s.me = some h) (hj : getJob s h.job = some j)
    (hr : Ready s (.resume g b)) (hp : j.priv = true) (hw : replicated s s.me = false) (hl : isRemote s (sVal s b &&& ~~~(63 : Word)) = false)
    (ht : translateNow s j.asid (sVal s b &&& ~~~(63 : Word)) .load = .ok p) (hn : strandAt s j.asid (sVal s b &&& ~~~(63 : Word)) = some u) (hu : Resumable s u v m)
    (hloc : u.loc.isSome = true) :
    ∃ t, exec (.resume g b) s = .next t ∧ t.hbm = m.hbm ∧ (∀ c, u.loc = some c → ⟨s.clock + 1, .pickUp u.sid c.1⟩ ∈ t.timers) ∧ getStrand t u.sid = some (resumedAs s v) ∧ Advanced s t ∧
      RegsKept s t [] := by
  obtain ⟨l, hloc⟩ := Option.isSome_iff_exists.mp hloc
  obtain ⟨q, r, cs, hi, -⟩ := inSlot_shape s 0
  have hsid : (inSlot s 0).me.sid = s.me.sid := inSlot_sid s 0
  have hr' : Resumable (inSlot s 0) u v (amid (inSlot s 0) m) := by
    have h := hu.amid hsid (inSlot_array s 0)
    rwa [amid_inSlot] at h
  have hn' : strandAt (inSlot s 0) j.asid (sVal s b &&& ~~~(63 : Word)) = some u := by
    rw [← amid_inSlot]
    exact (amid_strandAt hsid (by rw [hi]) (by rw [hi])).2 u hn fun e => hu.other (congrArg Strand.sid e)
  have ht' : translateNow (inSlot s 0) j.asid (sVal s b &&& ~~~(63 : Word)) .load = .ok p := by rw [← amid_inSlot, amid_translateNow, ht]
  have hl' : isRemote (inSlot s 0) (sVal s b &&& ~~~(63 : Word)) = false := by rw [← amid_inSlot, amid_isRemote, hl]
  have hck : m.clock = s.clock := by
    obtain ⟨_, _, _, hm⟩ := devWriteAll_shape hu.writes
    rw [hm]
  obtain ⟨he, hget⟩ := hr'.resumeStrand hloc
  rw [resume_effect hg hj hr hp hw, resumeAt_somebody hl' ht' hn']
  have hplain := closeIssue_plain (Machine.resumeStrand (inSlot s 0) u.sid) ⟨s.me.regs, s.me.h, s.me.loop, 0⟩ (by rw [he]; rfl) hr.1.2.1
    (by rw [he]; show (inSlot s 0).me.closing = none; rw [hi]; exact hr.1.2.2.1) (by rw [he]; show (inSlot s 0).me.heldTrap = none; rw [hi]; exact hr.1.2.2.2.1)
  refine ⟨_, rfl, ?_, ?_, ?_, ?_, ?_⟩
  · rw [hplain, he]; rfl
  · intro c hc
    rw [hplain, he]
    obtain rfl : l = c := Option.some.inj (hloc.symm.trans hc)
    exact List.mem_append_right _ (List.mem_singleton.mpr (by rw [← hck]; rfl))
  · rw [hplain]
    have hne : u.sid ≠ (Machine.resumeStrand (inSlot s 0) u.sid).me.sid := by
      rw [he]
      exact fun e => hu.other (e.trans hsid)
    refine (getStrand_of_pool (s := Machine.resumeStrand (inSlot s 0) u.sid) ?_ ?_ hne).trans hget
    · rfl
    · rfl
  · rw [hplain, he]
    refine ⟨?_, ?_⟩
    · show (inSlot s 0).me.npc = s.me.pc + 32
      rw [hi]
    · show (inSlot s 0).me.st = .running
      rw [hi]
  · intro x _
    rw [hplain, he]
    show (inSlot s 0).me.regs.get x = s.me.regs.get x
    rw [hi]

/-- Settles O23: what RESUME reads and writes does not depend on the bundle it stands in, and one strand alone is resumed by writing its records. -/
theorem resumes : Obligations.Resumes := by
  intro s g b h j hg hj hr
  refine ⟨fun hp => resume_privilege hr ((privilegedJob_eq hg hj).trans hp), fun hp hw hl => ⟨fun p ht hn => resume_nobody hg hj hr hp hw hl ht hn, ?_⟩⟩
  intro p u v m ht hn hu hne hst ha hv hrep hloc hm
  exact resume_somebody hg hj hr hp hw hl ht hn ⟨hu, hne, hst, ha, hv, hrep, hm⟩ hloc

end Sys2Proof.Machine
end

section
/-! PROOFS. System registers and pauses (O16): what SETS, GETS and AGREE do once their operands are FULL, and the wake that YIELD and SLEEP set. -/

namespace Sys2Proof.Machine
open Sys2Proof Claims

variable {s : State}

/-! ## System registers as the slot sees them -/

/-- A counter that does not select event 1 stands in the open bundle as before it. -/
theorem inSlot_perf (n : Nat) {i : BitVec 3} (h : s.me.perfsel[i.toNat]'(by omega) ≠ 1) : (inSlot s n).me.perf[i.toNat]'(by omega) = s.me.perf[i.toNat]'(by omega) := by
  have hp : (inSlot s n).me.perf = (countEv s.me 1 1).perf := by
    show (openIssue s).me.perf = _
    unfold openIssue
    dsimp only
    split_ifs <;> rfl
  simp only [hp, countEv, Vector.getElem_ofFn]
  exact if_neg h

/-- In the open bundle a system register reads as the strand's gang, job and state say, unless it counts bundles (R26). -/
theorem sysRead_inSlot {h : Gang} {j : Job} (k : Nat) (hg : gangOf s s.me = some h) (hj : getJob s h.job = some j) (n : SysReg)
    (hn : ∀ i, n = .perf i → s.me.perfsel[i.toNat]'(by omega) ≠ 1) : sysRead (inSlot s k) n = sysBits s h j n := by
  obtain ⟨p, r, cs, e, -⟩ := inSlot_shape s k
  have hg' : gangOf (inSlot s k) (inSlot s k).me = some h := by rw [e]; exact hg
  have hj' : getJob (inSlot s k) h.job = some j := by rw [e]; exact hj
  have ha : asidOf (inSlot s k) (inSlot s k).me = j.asid := asidOf_eq hg' hj'
  have hp : privilegedJob (inSlot s k) = j.priv := privilegedJob_eq hg' hj'
  cases n with
  | perf i => exact inSlot_perf k (hn i rfl)
  | nstrand => simp only [sysRead, hg']; rfl
  | gang => simp only [sysRead, hg', sysBits, packWord, List.foldl, Nat.shiftLeft_eq]; congr 1; omega
  | task => simp only [sysRead, hg']; rfl
  | job => simp only [sysRead, hg', ha, hp, sysBits, packWord, List.foldl, Nat.shiftLeft_eq]; cases j.priv <;> (congr 1; simp; omega)
  | repl => simp only [sysRead, hg', sysBits, packWord, List.foldl, Nat.shiftLeft_eq]; congr 1; omega
  | arg0 => simp only [sysRead, hg']; rfl
  | arg1 => simp only [sysRead, hg']; rfl
  | strand => simp only [sysRead, sysBits, e]
  | die => simp only [sysRead, sysBits, e]; rfl
  | device =>
    simp only [sysRead, sysBits, e, packWord, List.foldl, Nat.shiftLeft_eq]
    cases s.numset <;> simp
  | context =>
    simp only [sysRead, sysBits, e]
    cases s.me.loc <;> rfl
  | clock => rfl
  | window => simp only [sysRead, sysBits, e, packWord, List.foldl, Nat.shiftLeft_eq]; congr 1; omega
  | nearstall => simp only [sysRead, sysBits, e]
  | traprec => simp only [sysRead, sysBits, e]
  | readymap => simp only [sysRead, sysBits, e]
  | faultinj => simp only [sysRead, sysBits, e]
  | perfsel i => simp only [sysRead, sysBits, e]

theorem replicated_inSlot (n : Nat) : replicated (inSlot s n) (inSlot s n).me = replicated s s.me := by
  obtain ⟨p, r, cs, e, -⟩ := inSlot_shape s n
  rw [e]; rfl

/-- An unreplicated strand agrees with itself: the value comes with the fixed latency. -/
theorem agreeValue_unreplicated {r : RegId} {lat : Nat} {x : Payload} (h : replicated s s.me = false) : agreeValue s r lat x = produce s r lat x := by
  simp [agreeValue, h]

theorem mayInject_eq {h : Gang} {j : Job} (hg : gangOf s s.me = some h) (hj : getJob s h.job = some j) : mayInject s = j.finj := by
  simp [mayInject, jobOf, hg, hj]

/-- The 38 bits of FAULTINJ, as a mask and as a truncation. -/
theorem and_faultinj (x : Word) : x &&& 0x3FFFFFFFFF = (x.setWidth 38).setWidth 64 := by
  apply BitVec.eq_of_toNat_eq
  rw [BitVec.toNat_and, BitVec.toNat_setWidth_of_le (by decide), BitVec.toNat_setWidth]
  exact Nat.and_two_pow_sub_one_eq_mod x.toNat 38

theorem sysWrite_eq (t : Strand) (n : SysReg) (x : Word) : sysWrite t n x = sysSet t x n := by
  cases n with
  | faultinj => simp only [sysWrite, sysSet, and_faultinj]
  | _ => rfl

/-- A write of a system register commutes with a change of anything it does not concern. -/
theorem sysSet_kept (t : Strand) (x : Word) (n : SysReg) : (sysSet t x n).closing = t.closing ∧ (sysSet t x n).heldTrap = t.heldTrap := by
  cases n <;> exact ⟨rfl, rfl⟩

/-! ## The instructions -/

theorem gets_delivers {g : BitVec 4} {n : SysReg} {a : BitVec 6} {h : Gang} {j : Job} (hg : gangOf s s.me = some h) (hj : getJob s h.job = some j) (hr : Ready s (.gets g n a))
    (hn : replicated s s.me = false ∨ n ≠ .clock) (hp : ∀ i, n = .perf i → s.me.perfsel[i.toNat]'(by omega) ≠ 1) :
    ∃ t, exec (.gets g n a) s = .next t ∧ RegFrame s t [.s a] ∧ DeliversIn s t (.s a) 2 (.value ((sysBits s h j n).setWidth 1024)) := by
  obtain ⟨t, he, hd, hf⟩ : ∃ t, exec (.gets g n a) s = .next t ∧ DeliversIn s t (.s a) 2 (.value ((sysBits s h j n).setWidth 1024)) ∧ RegFrame s t [.s a] := by
    refine result_operandsOnly s 0 (.gets g n a) _ (.s a) 2 _ hr rfl ?_
    rw [← sysRead_inSlot 0 hg hj n hp]
    split
    next hc =>
      have hu := hn.resolve_right (not_not.mpr (by simpa using hc))
      exact agreeValue_unreplicated ((replicated_inSlot 0).trans hu)
    · rfl
  exact ⟨t, he, hf, hd⟩

theorem agree_delivers {g : BitVec 4} {b a : BitVec 6} (hr : Ready s (.agree g b a)) (hu : replicated s s.me = false) :
    ∃ t, exec (.agree g b a) s = .next t ∧ RegFrame s t [.s a] ∧ DeliversIn s t (.s a) 1 (.value ((sVal s b).setWidth 1024)) := by
  obtain ⟨t, he, hd, hf⟩ : ∃ t, exec (.agree g b a) s = .next t ∧ DeliversIn s t (.s a) 1 (.value ((sVal s b).setWidth 1024)) ∧ RegFrame s t [.s a] := by
    refine result_operandsOnly s 0 (.agree g b a) _ (.s a) 1 _ hr rfl ?_
    rw [← rdS_inSlot s 0 b hr.1.2.1]
    exact agreeValue_unreplicated ((replicated_inSlot 0).trans hu)
  exact ⟨t, he, hf, hd⟩

theorem sets_privilege {g : BitVec 4} {a : BitVec 6} (hr : Ready s (.sets g .faultinj a)) (hm : mayInject s = false) :
    exec (.sets g .faultinj a) s = .next (takeTrap s .privilege 1 0x21 0) :=
  slotOp_stop _ _ _ _ (.trap .privilege 1 0x21 0) hr.1.1
    (stop_after _ _ _ _ hr.1 hr.2.1 rfl (fun r h => hr.2.2 r (List.mem_append_left _ (List.mem_append_left _ h))) (by simp [afterSources, hm, sysRegCode]))

/-- Nothing stops a SETS that its job may perform. -/
theorem sets_effect {g : BitVec 4} {n : SysReg} {a : BitVec 6} (hr : Ready s (.sets g n a)) (hm : n = .faultinj → mayInject s = true) :
    exec (.sets g n a) s = .next (closeIssue (setMe (inSlot s 0) fun t => sysSet t (sVal s a) n)) := by
  have ha : afterSources s 0 (.sets g n a) = none := by
    cases n with
    | faultinj => simp [afterSources, hm rfl]
    | _ => rfl
  have hold : slotHold s (0, .sets g n a) = none := by
    unfold slotHold
    split
    · rfl
    · simp [hr.1.2.2.2.2.1, arrayOf, nearSpans]
  have hstop : stopOf s [(0, .sets g n a)] = none :=
    stop_ready s 0 _ hr rfl ha (access_none s 0 _ rfl rfl rfl (fun _ => rfl) nofun nofun nofun) hold (by simp [linesNeeded]) rfl (bankStop_none s 0 _ fun _ => rfl)
  have he : exec (.sets g n a) s = .next (closeIssue (setMe (inSlot s 0) fun t => sysWrite t n (rdS (inSlot s 0) a))) := effect_of s 0 (.sets g n a) _ hr.1 hr.2.1 hstop
  rw [he, rdS_inSlot s 0 a hr.1.2.1]
  simp only [sysWrite_eq]

theorem sets_writes {g : BitVec 4} {n : SysReg} {a : BitVec 6} (hr : Ready s (.sets g n a)) (hm : n = .faultinj → mayInject s = true) :
    ∃ t, exec (.sets g n a) s = .next t ∧ Advanced s t ∧ t.timers = s.timers ∧ (∀ i, n = .perf i → t.me.perf[i.toNat]'(by omega) = sVal s a) ∧
      Kept (withMe s (sysSet s.me (sVal s a) n)) t [] := by
  obtain ⟨p, r, cs, hc, hcs⟩ := edit_closed s 0 (fun t => sysSet t (sVal s a) n) hr.1 (fun t => (sysSet_kept t _ n).1) fun t => (sysSet_kept t _ n).2
  refine ⟨_, sets_effect hr hm, ?_⟩
  rw [hc]
  refine ⟨?_, rfl, ?_, ?_, ?_, ⟨rfl, hcs _ rfl, fun _ => rfl, fun _ => rfl⟩⟩
  · cases n <;> exact ⟨rfl, rfl⟩
  · rintro i rfl
    simp [sysSet]
  · intro x _
    cases n <;> rfl
  · cases n <;> exact ⟨rfl, fun _ => rfl⟩

theorem yield_pauses {g : BitVec 4} (hr : Ready s (.yield g)) : ∃ t, exec (.yield g) s = .next t ∧ t.timers = s.timers ∧ RegFrame s t [] ∧ t.me.readyAt = s.clock + 1 := by
  obtain ⟨p, r, cs, hi, hcs⟩ := inSlot_shape s 0
  have hclosed := closeIssue_plain (setMe (updCore (inSlot s 0) (myCore (inSlot s 0)) fun c => { c with streak := 64 }) fun t => { t with readyAt := (inSlot s 0).clock + 1 })
    ⟨s.me.regs, s.me.h, s.me.loop, 0⟩ rfl hr.1.2.1 (by rw [hi]; exact hr.1.2.2.1) (by rw [hi]; exact hr.1.2.2.2.1)
  refine ⟨_, effect_operandsOnly s 0 (.yield g) _ hr rfl, ?_⟩
  rw [hclosed]
  have hcores (t : State) (ht : t.cores = (updCore (inSlot s 0) (myCore (inSlot s 0)) fun c => { c with streak := 64 }).cores) (c : Nat) :
      (getCore t c).array = (getCore s c).array ∧ (getCore t c).copies = (getCore s c).copies ∧ (getCore t c).xstat = (getCore s c).xstat := by
    obtain ⟨h1, h2, h3⟩ := updCore_kept (inSlot s 0) _ (fun c => { c with streak := 64 }) (fun _ => ⟨rfl, rfl, rfl, rfl⟩) t ht c
    obtain ⟨k1, k2, k3⟩ := hcs (inSlot s 0) (by rw [hi]) c
    exact ⟨h1.trans k1, h2.trans k2, h3.trans k3⟩
  refine ⟨by rfl, ⟨fun x _ => ?_, ?_, ⟨?_, hcores _ rfl, fun _ => ?_, fun _ => ?_⟩, ?_⟩, rfl⟩ <;> rw [hi]
  · rfl
  · exact ⟨rfl, fun _ => rfl⟩
  · rw [← hr.1.1]; rfl
  · rfl
  · rfl
  · exact ⟨rfl, rfl⟩

/-- The low 32 bits of a word are what SLEEP counts (R101). -/
theorem wbits_low (x : Word) : wbits x 0 32 = x.toNat % 2 ^ 32 := by simp [wbits, bitsOf]

theorem sleep_effect {g : BitVec 4} {b : BitVec 6} {n : Nat} (hr : Ready s (.sleep g b)) (hn : (sVal s b).toNat % 2 ^ 32 = n) :
    exec (.sleep g b) s = .next (closeIssue (if n = 0 then inSlot s 0 else
      after (setMe (inSlot s 0) fun t => { t with asleep := true, notBefore := s.clock + 1 + n, readyAt := s.clock + 1 + n }) (n + 1) (.sleepEnd (inSlot s 0).me.sid))) := by
  rw [← hn, ← wbits_low, ← rdS_inSlot s 0 b hr.1.2.1]
  exact effect_operandsOnly s 0 (.sleep g b) _ hr rfl

theorem sleep_nothing {g : BitVec 4} {b : BitVec 6} (hr : Ready s (.sleep g b)) (hz : (sVal s b).toNat % 2 ^ 32 = 0) :
    ∃ t, exec (.sleep g b) s = .next t ∧ t.timers = s.timers ∧ RegFrame s t [] := by
  obtain ⟨p, r, cs, hc, hcs⟩ := edit_closed s 0 id hr.1 (fun _ => rfl) fun _ => rfl
  refine ⟨_, sleep_effect hr hz, ?_⟩
  rw [if_pos rfl, show inSlot s 0 = setMe (inSlot s 0) id from rfl, hc]
  exact ⟨rfl, fun x _ => rfl, ⟨rfl, fun _ => rfl⟩, ⟨rfl, hcs _ rfl, fun _ => rfl, fun _ => rfl⟩, rfl, rfl⟩

theorem sleep_pauses {g : BitVec 4} {b : BitVec 6} (hr : Ready s (.sleep g b)) (hz : (sVal s b).toNat % 2 ^ 32 ≠ 0) :
    ∃ t, exec (.sleep g b) s = .next t ∧ Advanced s t ∧ t.me.asleep = true ∧ t.timers = s.timers ++ [⟨s.clock + ((sVal s b).toNat % 2 ^ 32 + 1), .sleepEnd s.me.sid⟩] ∧
      Kept (withMe s { s.me with notBefore := s.clock + 1 + (sVal s b).toNat % 2 ^ 32 }) t [] := by
  obtain ⟨p, r, cs, hi, hcs⟩ := inSlot_shape s 0
  refine ⟨_, sleep_effect hr rfl, ?_⟩
  rw [if_neg hz, closeIssue_plain _ ⟨s.me.regs, s.me.h, s.me.loop, 0⟩ rfl hr.1.2.1 (by rw [hi]; exact hr.1.2.2.1) (by rw [hi]; exact hr.1.2.2.2.1), hi]
  refine ⟨⟨rfl, rfl⟩, rfl, rfl, fun x _ => rfl, ⟨rfl, fun _ => rfl⟩, ⟨?_, hcs _ rfl, fun _ => rfl, fun _ => rfl⟩⟩
  rw [← hr.1.1]; rfl

/-- Settles O16: each instruction acts on the state its slot sees, in which a system register reads as before the bundle unless it counts bundles. -/
theorem systemRegistersAndPauses : Obligations.SystemRegistersAndPauses := by
  refine ⟨fun s g b => ⟨yield_pauses, sleep_nothing, sleep_pauses⟩, fun s g n a b h j hg hj => ⟨gets_delivers hg hj, fun hr _ hf => ?_, fun hr hf => ?_, agree_delivers⟩⟩
  · exact sets_writes hr fun hn => (mayInject_eq hg hj).trans (hf hn)
  · exact sets_privilege hr ((mayInject_eq hg hj).trans hf)

end Sys2Proof.Machine
end

section
/-! PROOFS. Commit points with an empty window, and EXIT (O20): the bundle closes by starting its commit point, which nothing holds open, so it completes at once. -/

namespace Sys2Proof.Machine
open Sys2Proof Claims

variable {s : State}

/-! ## An empty window holds no commit point open -/

/-- No copy of the strand stands on any core. -/
def NoCopies (cs : List Core) (sid : Nat) : Prop := ∀ k ∈ cs, ∀ c ∈ k.copies, c.sid ≠ sid

theorem mem_putKey {α : Type} {key : α → Nat} {x y : α} {l : List α} (h : y ∈ putKey key x l) : y = x ∨ y ∈ l := by
  induction l with
  | nil => exact .inl (List.mem_singleton.mp h)
  | cons z zs ih =>
    unfold putKey at h
    split at h
    · exact (List.mem_cons.mp h).imp_right (List.mem_cons_of_mem _)
    · rcases List.mem_cons.mp h with rfl | h
      · exact .inr List.mem_cons_self
      · exact (ih h).imp_right (List.mem_cons_of_mem _)

theorem getCore_noCopies {sid k : Nat} (h : NoCopies s.cores sid) : ∀ c ∈ (getCore s k).copies, c.sid ≠ sid := by
  unfold getCore
  cases hf : s.cores.find? (fun x => x.id == k) with
  | none => exact fun c hc => nomatch hc
  | some x => exact h x (List.mem_of_find?_eq_some hf)

/-- The opening of a bundle begins no copy. -/
theorem inSlot_noCopies {sid : Nat} (n : Nat) (h : NoCopies s.cores sid) : NoCopies (inSlot s n).cores sid := by
  obtain ⟨k, ⟨-, hk, -⟩, e⟩ := openIssue_cores s
  intro x hx
  rw [show (inSlot s n).cores = (putCore s k).cores from e] at hx
  rcases mem_putKey hx with rfl | hx
  · rw [hk]; exact getCore_noCopies h
  · exact h x hx

/-- The operations of CMT, REL and EXIT that follow a window (R103, R320). -/
def Waits (p : Post) : Prop := p = .exit ∨ ∃ f, p = .rel f

/-- Neither far loads, atomics nor copies of a strand are on their way (R109). -/
structure Unmoved (s : State) (sid : Nat) : Prop where
  loads : ∀ l ∈ s.farLoads, l.sid ≠ sid
  atoms : ∀ a ∈ s.farAtoms, a.sid ≠ sid
  copies : NoCopies s.cores sid

theorem Unmoved.heldOpen {t : Strand} {c : Closing} (h : Unmoved s t.sid) (hg : t.gated = []) (hc : c.compare = false) (hp : ∀ p ∈ c.post, Waits p) : heldOpen s t c = false := by
  have hl : loadsOpen s t = false := List.any_eq_false.mpr fun l hl => by simp [h.loads l hl]
  have ha : waitsAtoms s t = false := List.any_eq_false.mpr fun a ha => by simp [h.atoms a ha]
  have hk : copiesOpen s t = [] := by
    refine List.flatMap_eq_nil_iff.mpr fun k hk => ?_
    rw [List.map_eq_nil_iff, List.filter_eq_nil_iff]
    intro x hx
    simp [h.copies k hk x hx]
  have hx : c.post.any needsXlate = false := List.any_eq_false.mpr fun p hp' => by
    rcases hp p hp' with rfl | ⟨f, rfl⟩ <;> simp [needsXlate]
  simp [Machine.heldOpen, hc, hg, hl, ha, hk, hx]

theorem Unmoved.accessOut {t : Strand} (h : Unmoved s t.sid) : accessOut s t = s.nearOps.any fun o => o.sid == t.sid := by
  have hl : s.farLoads.any (fun l => l.sid == t.sid && !l.done) = false := List.any_eq_false.mpr fun l hl => by simp [h.loads l hl]
  have ha : s.farAtoms.any (fun a => a.sid == t.sid) = false := List.any_eq_false.mpr fun a ha => by simp [h.atoms a ha]
  simp [Machine.accessOut, hl, ha]

/-- What an access of the strand that is outstanding means when its window is empty (R110). -/
theorem accessPending_iff (h : windowEmpty s) : accessPending s ↔ s.nearOps.any (fun o => o.sid == s.me.sid) = true := by
  obtain ⟨-, -, hl, ha, -⟩ := h
  simp only [List.any_eq_true, beq_iff_eq]
  constructor
  · rintro (ho | ⟨l, hl', he, -⟩ | ⟨a, ha', he⟩)
    · exact ho
    · exact absurd he (hl l hl')
    · exact absurd he (ha a ha')
  · exact .inl

/-! ## The commit point completes -/

/-- A commit point as its tentative phase begins, when nothing is compared. -/
def tentative (c : Closing) : Closing := { c with compare := false, late := false, phase := .tentative }

/-- A commit point that nothing holds open completes in its ck. -/
theorem startCommit_empty {c : Closing} (hm : s.me.closing = some c) (hr : replicated s s.me = false) (hu : Unmoved s s.me.sid) (hg : s.me.gated = []) (hlog : s.me.log = [])
    (hp : ∀ p ∈ c.post, Waits p) : startCommit s = finishCommit (withMe s { s.me with closing := some (tentative c) }) s.me.sid := by
  let m := withMe s { s.me with closing := some (tentative c) }
  have hh : heldOpen m m.me (tentative c) = false := Unmoved.heldOpen ⟨hu.loads, hu.atoms, hu.copies⟩ hg rfl hp
  have hn : needsPhase m m.me (tentative c) = false := by rw [needsPhase, hh, show m.me.log = [] from hlog]; rfl
  unfold startCommit
  rw [hm]
  simp only [hr, Bool.false_and, Bool.false_eq_true, if_false]
  exact if_neg (ne_true_of_eq_false hn)

/-- What follows the window of a CMT, REL or EXIT sends nothing. -/
theorem runPosts_waits {sid : Nat} {c : Closing} {ps : List Post} (hc : c.phase = .tentative) (hp : ∀ p ∈ ps, Waits p) : runPosts s sid c ps = s := by
  have hrun (p : Post) (h : Waits p) : runPost s sid c.cpt p = s := by
    unfold runPost
    split
    · rfl
    · rcases h with rfl | ⟨f, rfl⟩ <;> rfl
  have hfold (ps : List Post) (h : ∀ p ∈ ps, Waits p) : ps.foldl (fun s p => runPost s sid c.cpt p) s = s := by
    induction ps with
    | nil => rfl
    | cons p ps ih => rw [List.foldl_cons, hrun p (h p List.mem_cons_self)]; exact ih fun q hq => h q (List.mem_cons_of_mem _ hq)
  simp [runPosts, hc, hfold ps hp]

theorem withLee_waits {t : Strand} {ps : List Post} (hp : ∀ p ∈ ps, Waits p) : ps.map (withLee s t) = ps := by
  refine (List.map_congr_left fun p h => ?_).trans (List.map_id ps)
  rcases hp p h with rfl | ⟨f, rfl⟩ <;> rfl

/-- The strand whose commit point has completed, before it goes on or waits. -/
def committed (t : Strand) (c : Closing) : Strand := { closeWindow t c with closing := none }

/-- The strand after a commit point: it goes on, or waits with CDONE set (R103, R110). -/
def goOnOrWait (now : Nat) (r : Remain) (next : Word) (t : Strand) : Strand :=
  if r = .none then goOn now next t else { t with st := .parked, parkid := none, cdone := true, remain := r, parkedAt := now }

/-- The completion of a commit point after which nothing is sent, of a strand that no barrier has marked and that holds no trap. -/
theorem finishCommit_waits {c : Closing} {r : Remain} (hm : s.me.closing = some c) (hcmp : c.compare = false) (hph : c.phase = .tentative) (hk : c.keep = false) (hp : ∀ p ∈ c.post, Waits p)
    (hmk : s.me.mark = none) (ht : s.me.heldTrap = none) (hr : remainOf (withMe s (committed s.me c)) (committed s.me c) c.post = r) :
    finishCommit s s.me.sid =
      (let t := withMe s (goOnOrWait s.clock r c.next (committed s.me c))
      if r = .exit then after t 0 (.strandDone s.me.sid) else t) := by
  have hs (f : Strand → Strand) (u : Strand) (hu : u.sid = s.me.sid) : updStrand (withMe s u) s.me.sid f = withMe s (f u) := if_pos hu
  have hget (u : Strand) (hu : u.sid = s.me.sid) : getStrand (withMe s u) s.me.sid = some u := if_pos hu
  unfold finishCommit
  simp -zeta only [show getStrand s s.me.sid = some s.me from if_pos rfl, hm]
  extract_lets leeward posts s0 launch u s1 s2 gone s3 remain s4 s5 s6 s7 s8
  have hle : leeward = false := by simp [leeward, hcmp]
  have hla : launch = false := List.any_eq_false.mpr fun p h => by rcases hp p h with rfl | ⟨f, rfl⟩ <;> simp
  have h1 : s1 = withMe s (committed s.me c) := by simp only [s1, s0, hcmp, Bool.false_and, Bool.false_eq_true, if_false]; exact hs _ s.me rfl
  have h2 : s2 = withMe s (committed s.me c) := by simp only [s2, posts, hle, h1, Bool.false_eq_true, if_false, withLee_waits hp]; exact runPosts_waits hph hp
  have h3 : s3 = withMe s (committed s.me c) := by
    simp only [s3, gone, hle, h2, Bool.false_eq_true, if_false, List.contains_nil, Bool.not_false]
    rw [List.filter_eq_self.mpr fun _ _ => rfl]
  have hrem : remain = r := by simp only [remain, h3, hget (committed s.me c) rfl]; exact hr
  have h4 : s4 = withMe s (goOnOrWait s.clock r c.next (committed s.me c)) := by
    simp only [s4, h3, hrem, hla, hk, Bool.false_eq_true, if_false]
    exact hs _ (committed s.me c) rfl
  have h6 : s6 = s4 := by
    simp only [s6, s5, hla, Bool.false_and, Bool.false_eq_true, if_false, show u.mark = none from hmk, Option.isSome_none]
  have h8 : s8 = s7 := by simp only [s8, show u.heldTrap = none from ht]
  rw [hk, if_neg Bool.false_ne_true, h8]
  simp only [s7, hrem, h6, h4]
  rfl

/-! ## The bundle of a commit point -/

/-- The strand whose bundle has issued, standing at the next one. -/
def issued (s : State) (p : Vector Word 8) (r : Nat) (c : Option Closing) : Strand :=
  { s.me with perf := p, readyAt := r, st := .running, parkid := none, waitset := none, choice := none, triedAt := s.clock + 1, npc := s.me.pc + 32, asleep := false, waitSerial := false
              bankWait := none, closing := c }

/-- What slot 0 asks for at the end of its bundle: CPT and NEXT after it. -/
def askedBy (s : State) (opc : Nat) (ws : List Word) (post : List Post) : Closing :=
  { Closing.start with mask := 1, items := [(opc, 0, ws)], post := post, cpt := s.me.pc + 32, next := s.me.pc + 32 }

/-- A bundle that has asked for a commit point, without loop or trap, starts it with CPT and NEXT at the next bundle. -/
theorem closeIssue_asked {b : Issue} {c : Closing} (hi : s.issue = some b) (hl : b.loop.active = false) (hc : s.me.closing = some c) (ht : s.me.heldTrap = none) :
    closeIssue s = startCommit { s with issue := none, me := { s.me with choice := none, waitset := none, closing := some { c with cpt := s.me.npc, next := s.me.npc } } } := by
  simp [closeIssue, hi, loopStep, hl, hc, ht, setMe]

/-- The bundle of a commit point closes by starting it. -/
theorem commitPoint_closed (hc : Calm s) {sid : Nat} (hn : NoCopies s.cores sid) (opc : Nat) (ws : List Word) (post : List Post) : ∃ p r cs,
    closeIssue (commitPoint (inSlot s 0) opc ws post) = startCommit { s with me := issued s p r (some (askedBy s opc ws post)), cores := cs } ∧ NoCopies cs sid ∧
      ∀ t : State, t.cores = cs → ∀ c, (getCore t c).array = (getCore s c).array ∧ (getCore t c).copies = (getCore s c).copies ∧ (getCore t c).xstat = (getCore s c).xstat := by
  have hn' := inSlot_noCopies 0 hn
  obtain ⟨hi, hl, hcl, ht, -⟩ := hc
  obtain ⟨p, r, cs, e, hcs⟩ := inSlot_shape s 0
  refine ⟨p, r, cs, ?_, by rwa [e] at hn', hcs⟩
  have hask : (commitPoint (inSlot s 0) opc ws post).me.closing = some { Closing.start with mask := 1, items := [(opc, 0, ws)], post := post } := by
    simp [commitPoint, e, hcl, slotNo, slotBit, Closing.start]
  rw [closeIssue_asked (b := ⟨s.me.regs, s.me.h, s.me.loop, 0⟩) rfl hl hask (by rw [e]; exact ht), e, ← hi]
  rfl

/-! ## What waits after the window -/

theorem remainOf_nothing {t : Strand} : remainOf s t [] = .none := rfl

theorem remainOf_exit {t : Strand} : remainOf s t [.exit] = .exit := rfl

theorem remainOf_rel {t : Strand} {f : Scope} : remainOf s t [.rel f] = if f = .context ∨ accessOut s t = false then .none else .rel f := by
  simp [remainOf]

/-! ## The whole bundle -/

/-- The state after a commit point that has completed at once: the strand goes on, or waits for `r`. -/
def completed (s : State) (p : Vector Word 8) (rd : Nat) (cs : List Core) (r : Remain) (c : Closing) : State :=
  { s with me := goOnOrWait s.clock r (s.me.pc + 32) { closeWindow (issued s p rd none) (tentative c) with closing := s.me.closing }, cores := cs }

/-- A commit point with nothing in its window completes in the ck of its bundle. -/
theorem commitPoint_empty (hc : Calm s) (hr : replicated s s.me = false) (hw : windowEmpty s) (hmk : s.me.mark = none) (opc : Nat) (ws : List Word) {post : List Post} {r : Remain}
    (hp : ∀ p ∈ post, Waits p) (hrem : ∀ (m : State) (t : Strand), m.nearOps = s.nearOps → t.sid = s.me.sid → Unmoved m t.sid → remainOf m t post = r) : ∃ p rd cs,
    closeIssue (commitPoint (inSlot s 0) opc ws post) =
      (if r = .exit then after (completed s p rd cs r (askedBy s opc ws post)) 0 (.strandDone s.me.sid) else completed s p rd cs r (askedBy s opc ws post)) ∧
    ∀ t : State, t.cores = cs → ∀ k, (getCore t k).array = (getCore s k).array ∧ (getCore t k).copies = (getCore s k).copies ∧ (getCore t k).xstat = (getCore s k).xstat := by
  obtain ⟨hlog, hg, hl, ha, hk⟩ := hw
  obtain ⟨p, rd, cs, he, hn, hcs⟩ := commitPoint_closed hc hk opc ws post
  refine ⟨p, rd, cs, ?_, hcs⟩
  rw [he]
  refine (startCommit_empty (s := { s with me := issued s p rd (some (askedBy s opc ws post)), cores := cs }) rfl hr ⟨hl, ha, hn⟩ hg hlog hp).trans ?_
  rw [completed, hc.2.2.1]
  exact finishCommit_waits (s := withMe _ _) rfl rfl rfl rfl hp hmk hc.2.2.2.1 (hrem _ _ rfl rfl ⟨hl, ha, hn⟩)

/-- An event made due is outside the frame. -/
theorem Kept.after {e t : State} {rs : List RegId} (h : Kept e t rs) (n : Nat) (ev : Instr) : Kept e (Machine.after t n ev) rs := by
  obtain ⟨hr, hs, ht, hc, hh, hn⟩ := h
  refine ⟨hr, hs, ?_, hc, hh, hn⟩
  rw [Machine.after, addTimer, ht]

section
variable {p : Vector Word 8} {rd : Nat} {cs : List Core} {opc : Nat} {ws : List Word} {post : List Post} {r : Remain}
  (hcs : ∀ t : State, t.cores = cs → ∀ k, (getCore t k).array = (getCore s k).array ∧ (getCore t k).copies = (getCore s k).copies ∧ (getCore t k).xstat = (getCore s k).xstat)
include hcs

/-- What a completed commit point leaves of the strand that goes on. -/
theorem completed_goesOn : (completed s p rd cs .none (askedBy s opc ws post)).timers = s.timers ∧ Advanced s (completed s p rd cs .none (askedBy s opc ws post)) ∧ Kept (withMe s { closedMe s (completed s p rd cs .none (askedBy s opc ws post)).me with cdone := false, remain := .none })
    (completed s p rd cs .none (askedBy s opc ws post)) [] :=
  ⟨rfl, ⟨rfl, rfl⟩, fun _ _ => rfl, ⟨rfl, fun _ => rfl⟩, ⟨rfl, hcs _ rfl, fun _ => rfl, fun _ => rfl⟩⟩

/-- What a completed commit point leaves of the strand that waits. -/
theorem completed_waits (h : r ≠ .none) : (completed s p rd cs r (askedBy s opc ws post)).me.st = .parked ∧ (completed s p rd cs r (askedBy s opc ws post)).me.pc = s.me.pc ∧
    Kept (withMe s { closedMe s (completed s p rd cs r (askedBy s opc ws post)).me with cdone := true, remain := r, parkedAt := s.clock })
      (completed s p rd cs r (askedBy s opc ws post)) [] := by
  unfold completed goOnOrWait
  rw [if_neg h]
  exact ⟨rfl, rfl, fun _ _ => rfl, ⟨rfl, fun _ => rfl⟩, ⟨rfl, hcs _ rfl, fun _ => rfl, fun _ => rfl⟩⟩

end

/-! ## CMT, REL and EXIT -/

theorem cmt_completes {g : BitVec 4} (hu : replicated s s.me = false) (hw : windowEmpty s) (hmk : s.me.mark = none) (hr : Ready s (.cmt g)) :
    ∃ t, exec (.cmt g) s = .next t ∧ t.timers = s.timers ∧ Advanced s t ∧ Kept (withMe s { closedMe s t.me with cdone := false, remain := .none }) t [] := by
  obtain ⟨p, rd, cs, he, hcs⟩ := commitPoint_empty hr.1 hu hw hmk 22 [] (post := []) (r := .none) (List.forall_mem_nil _) fun _ _ _ _ _ => rfl
  have hx : exec (.cmt g) s = .next (closeIssue (commitPoint (inSlot s 0) 22 [] [])) := effect_operandsOnly s 0 (.cmt g) _ hr rfl
  rw [if_neg nofun] at he
  exact ⟨_, hx.trans (congrArg _ he), completed_goesOn hcs⟩

theorem exit_completes {g : BitVec 4} (hu : replicated s s.me = false) (hw : windowEmpty s) (hmk : s.me.mark = none) (hr : Ready s (.exit g)) :
    ∃ t, exec (.exit g) s = .next t ∧ t.timers = s.timers ++ [⟨s.clock, .strandDone s.me.sid⟩] ∧ t.me.st = .parked ∧ t.me.pc = s.me.pc ∧
      Kept (withMe s { closedMe s t.me with cdone := true, remain := .exit, parkedAt := s.clock }) t [] := by
  obtain ⟨p, rd, cs, he, hcs⟩ := commitPoint_empty hr.1 hu hw hmk 16 [] (post := [.exit]) (r := .exit) (fun q hq => .inl (List.mem_singleton.mp hq)) fun _ _ _ _ _ => rfl
  have hx : exec (.exit g) s = .next (closeIssue (commitPoint (inSlot s 0) 16 [] [.exit])) := effect_operandsOnly s 0 (.exit g) _ hr rfl
  rw [if_pos rfl] at he
  obtain ⟨hst, hpc, hk⟩ := completed_waits (p := p) (rd := rd) (opc := 16) (ws := []) (post := [.exit]) (r := .exit) hcs nofun
  exact ⟨_, hx.trans (congrArg _ he), rfl, hst, hpc, hk.after 0 _⟩

/-- REL waits after its window only for an access that has not been performed, and only in a scope wider than the context (R110). -/
theorem rel_remains {f : Scope} (hw : windowEmpty s) (m : State) (t : Strand) (hn : m.nearOps = s.nearOps) (hs : t.sid = s.me.sid) (hu : Unmoved m t.sid) :
    (f = .context ∨ ¬ accessPending s → remainOf m t [.rel f] = .none) ∧ (f ≠ .context → accessPending s → remainOf m t [.rel f] = .rel f) := by
  rw [remainOf_rel, hu.accessOut, hn, hs, accessPending_iff hw, Bool.not_eq_true]
  exact ⟨fun h => if_pos h, fun h1 h2 => if_neg (not_or.mpr ⟨h1, ne_false_of_eq_true h2⟩)⟩

theorem rel_effect {g : BitVec 4} {f : Scope} {r : Remain} (hu : replicated s s.me = false) (hw : windowEmpty s) (hmk : s.me.mark = none) (hr : Ready s (.rel g f)) (hx : r ≠ .exit)
    (hrem : ∀ (m : State) (t : Strand), m.nearOps = s.nearOps → t.sid = s.me.sid → Unmoved m t.sid → remainOf m t [.rel f] = r) : ∃ p rd cs c,
    exec (.rel g f) s = .next (completed s p rd cs r (askedBy s 23 [BitVec.ofNat 64 (scopeNum f)] c)) ∧
    ∀ t : State, t.cores = cs → ∀ k, (getCore t k).array = (getCore s k).array ∧ (getCore t k).copies = (getCore s k).copies ∧ (getCore t k).xstat = (getCore s k).xstat := by
  obtain ⟨p, rd, cs, he, hcs⟩ := commitPoint_empty hr.1 hu hw hmk 23 [BitVec.ofNat 64 (scopeNum f)] (post := [.rel f]) (r := r) (fun q hq => .inr ⟨f, List.mem_singleton.mp hq⟩) hrem
  have h : exec (.rel g f) s = .next (closeIssue (commitPoint (inSlot s 0) 23 [BitVec.ofNat 64 (scopeNum f)] [.rel f])) := effect_operandsOnly s 0 (.rel g f) _ hr rfl
  rw [if_neg hx] at he
  exact ⟨p, rd, cs, _, h.trans (congrArg _ he), hcs⟩

theorem rel_completes {g : BitVec 4} {f : Scope} (hu : replicated s s.me = false) (hw : windowEmpty s) (hmk : s.me.mark = none) (hr : Ready s (.rel g f))
    (hf : f = .context ∨ ¬ accessPending s) :
    ∃ t, exec (.rel g f) s = .next t ∧ t.timers = s.timers ∧ Advanced s t ∧ Kept (withMe s { closedMe s t.me with cdone := false, remain := .none }) t [] := by
  obtain ⟨p, rd, cs, c, he, hcs⟩ := rel_effect hu hw hmk hr (r := .none) nofun fun m t h1 h2 h3 => (rel_remains hw m t h1 h2 h3).1 hf
  exact ⟨_, he, completed_goesOn hcs⟩

theorem rel_waits {g : BitVec 4} {f : Scope} (hu : replicated s s.me = false) (hw : windowEmpty s) (hmk : s.me.mark = none) (hr : Ready s (.rel g f)) (hf : f ≠ .context)
    (ha : accessPending s) : ∃ t, exec (.rel g f) s = .next t ∧ t.timers = s.timers ∧ t.me.st = .parked ∧ t.me.pc = s.me.pc ∧
      Kept (withMe s { closedMe s t.me with cdone := true, remain := .rel f, parkedAt := s.clock }) t [] := by
  obtain ⟨p, rd, cs, c, he, hcs⟩ := rel_effect hu hw hmk hr (r := .rel f) nofun fun m t h1 h2 h3 => (rel_remains hw m t h1 h2 h3).2 hf ha
  exact ⟨_, he, rfl, completed_waits (r := .rel f) hcs nofun⟩

/-- Settles O20: nothing holds the commit point of an empty window open, so it completes in the ck of its bundle. -/
theorem emptyCommitsAndExits : Obligations.EmptyCommitsAndExits :=
  ⟨fun _ _ _ hu hw hmk _ => ⟨cmt_completes hu hw hmk, rel_completes hu hw hmk, rel_waits hu hw hmk⟩, fun _ _ hu hw hmk _ hr => exit_completes hu hw hmk hr⟩

end Sys2Proof.Machine
end

section
/-! PROOFS. Dispatch and completion of a task (O39): what Gust reports and retires, and the one record of one queue that it places. -/

namespace Sys2Proof.Machine
open Sys2Proof Claims

variable {s : State}

/-! ## What keeps strands and gangs -/

/-- The strands and the gangs of a state. -/
def holders (s : State) : Strand × List Strand × List Gang := (s.me, s.pool, s.gangs)

/-- A fold of steps that keep something keeps it. -/
theorem foldl_keeps {α β : Type} {v : State → β} {f : State → α → State} (hf : ∀ s x, v (f s x) = v s) (l : List α) (s : State) : v (l.foldl f s) = v s := by
  induction l generalizing s with
  | nil => rfl
  | cons x l ih => exact (ih _).trans (hf s x)

@[simp] theorem updDie_holders (d : Nat) (f : Die → Die) : holders (updDie s d f) = holders s := rfl

@[simp] theorem after_holders (n : Nat) (ev : Instr) : holders (after s n ev) = holders s := rfl

@[simp] theorem later_holders (ev : Instr) : holders (later s ev) = holders s := rfl

@[simp] theorem sendFlit_holders (f : Flit) : holders (sendFlit s f) = holders s := by
  unfold sendFlit
  split
  · rfl
  · split <;> rfl

@[simp] theorem sendPacket_holders (d : BitVec 12) (c : BitVec 2) (b : Packet) : holders (sendPacket s d c b) = holders s := sendFlit_holders _

@[simp] theorem sendReq_holders (d : BitVec 12) (w : ReqWhat) (mk : Nat → Packet) : holders (sendReq s d w mk) = holders s := sendPacket_holders _ _ _

@[simp] theorem joinWalk_holders (d a o : Nat) (ev : Instr) : holders (joinWalk s d a o ev) = holders s := by
  unfold joinWalk
  dsimp only
  split
  · rfl
  · split <;> rfl

@[simp] theorem askPage_holders (a : Nat) (k : Word) (acc : BitVec 4) (who : Nat × Word) (ev : Instr) : holders (askPage s a k acc who ev) = holders s := by
  unfold askPage
  dsimp only
  split
  · rfl
  · split
    · rfl
    · exact sendReq_holders _ _ _

@[simp] theorem askLine_holders (a : Nat) (l : Word) (acc : BitVec 4) (hold : Bool) (who : Nat × Word) (ev : Instr) : holders (askLine s a l acc hold who ev) = holders s := by
  have hask (d : BitVec 12) (mk : Nat → Packet) : holders (if pathLost s d then later s ev else sendReq s d (.got ev a l) mk) = holders s := by
    split
    · rfl
    · exact sendReq_holders _ _ _
  unfold askLine
  dsimp only
  split
  · rfl
  split
  · exact hask _ _
  split
  · exact hask _ _
  · rfl
  · split
    · exact joinWalk_holders _ _ _ _
    · rfl

@[simp] theorem awaitAccess_holders (e : XFault) (a : Nat) (acc : BitVec 4) (hold : Bool) (who : Nat × Word) (ev : Instr) : holders (awaitAccess s e a acc hold who ev) = holders s := by
  unfold awaitAccess
  split
  · exact joinWalk_holders _ _ _ _
  · split
    · exact askPage_holders _ _ _ _ _
    · exact askLine_holders _ _ _ _ _ _

@[simp] theorem holdEvent_holders (e : XFault) (a : Nat) (acc : BitVec 4) (sid : Option Nat) (ev : Instr) : holders (holdEvent s e a acc sid ev) = holders s := by
  unfold holdEvent
  split
  · exact awaitAccess_holders _ _ _ _ _ _
  · rfl

@[simp] theorem holdOnce_holders (e : XFault) (a : Nat) (acc : BitVec 4) (ev : Instr) : holders (holdOnce s e a acc ev) = holders s := by
  unfold holdOnce
  split
  · rfl
  · exact holdEvent_holders _ _ _ _ _

theorem devWrite_holders {asid : Nat} {va : Word} {bs : List Byte} {t : State} (e : devWrite s asid va bs = .ok t) : holders t = holders s := by
  obtain ⟨m, l, o, rfl⟩ := devWrite_shape e
  rfl

theorem devWriteAll_holders {asid : Nat} {ws : List (Word × List Byte)} {t : State} (e : devWriteAll s asid ws = .ok t) : holders t = holders s := by
  obtain ⟨m, l, o, rfl⟩ := devWriteAll_shape e
  rfl

@[simp] theorem reportPreempt_holders (die : Nat) (p : Preempt) : holders (reportPreempt s die p) = holders s := by
  unfold reportPreempt
  dsimp only
  split
  · rfl
  · split
    next e => exact (updDie_holders _ _).trans (devWrite_holders (s := { s with fresh := s.fresh + 2 }) e)
    · exact holdOnce_holders _ _ _ _

@[simp] theorem preemptDone_holders (gid : Nat) (saved : Bool) : holders (preemptDone s gid saved) = holders s := by
  refine foldl_keeps (fun s _ => foldl_keeps (fun s p => ?_) _ s) _ s
  dsimp only
  split
  · exact reportPreempt_holders _ _
  · rfl

@[simp] theorem kickDies_holders : holders (kickDies s) = holders s := by
  refine foldl_keeps (fun s die => ?_) _ s
  unfold kickDispatch
  split <;> rfl

/-! ## Deliveries keep the gangs -/

theorem eq_of_holders {t : State} (h : holders t = holders s) : t.me = s.me ∧ t.pool = s.pool ∧ t.gangs = s.gangs := by simpa [holders] using h

theorem allStrands_of_holders {t : State} (h : holders t = holders s) : allStrands t = allStrands s := by
  obtain ⟨hm, hp, -⟩ := eq_of_holders h
  rw [allStrands, allStrands, hm, hp]

theorem gangs_of_holders {t : State} (h : holders t = holders s) : t.gangs = s.gangs := (eq_of_holders h).2.2

@[simp] theorem deliverFrame_gangs (t : Strand) (tag : Tag) (x : Payload) : (deliverFrame s t tag x).gangs = s.gangs := by
  unfold deliverFrame
  split
  · exact gangs_of_holders (holdEvent_holders _ _ _ _ _)
  dsimp only
  split
  · exact gangs_of_holders (holdEvent_holders _ _ _ _ _)
  next s2 e =>
    have hw := gangs_of_holders (devWriteAll_holders e)
    split
    · exact (updStrand_gangs ..).trans hw
    · exact (updStrand_gangs ..).trans hw

@[simp] theorem deliverOne_gangs (at_ sid : Nat) (tag : Tag) (x : Payload) : (deliverOne at_ s sid tag x).gangs = s.gangs := by
  unfold deliverOne
  split
  · rfl
  split
  · rfl
  split
  · exact updStrand_gangs ..
  · exact deliverFrame_gangs _ _ _

@[simp] theorem deliverAll_gangs (at_ sid : Nat) (tag : Tag) (x : Payload) : (deliverAll at_ s sid tag x).gangs = s.gangs :=
  (foldl_keeps (v := State.gangs) (fun _ _ => deliverOne_gangs at_ _ _ x) _ _).trans (deliverOne_gangs (s := { s with mirrors := _ }) at_ sid tag x)

@[simp] theorem sendAgreed_gangs (t : Strand) (ord n : Nat) (x : Payload) : (sendAgreed s t ord n x).gangs = s.gangs := by
  unfold sendAgreed
  exact foldl_keeps (v := State.gangs) (fun _ _ => later_gangs ..) _ _

@[simp] theorem deliver_gangs (sid : Nat) (tag : Tag) (x : Payload) : (deliver s sid tag x).gangs = s.gangs := by
  have hdrop : (dropAgree s sid tag).gangs = s.gangs := updStrand_gangs ..
  unfold deliver deliverAt
  split
  · exact deliverAll_gangs _ _ _ _
  split
  · exact (sendAgreed_gangs ..).trans ((deliverAll_gangs ..).trans hdrop)
  split
  · exact (deliverAll_gangs ..).trans hdrop
  · exact updStrand_gangs ..

@[simp] theorem deliverNow_gangs (sid : Nat) (tag : Option Tag) (x : Payload) : (deliverNow s sid tag x).gangs = s.gangs := by
  cases tag with
  | none => rfl
  | some g => exact deliver_gangs sid g x

/-! ## Retiring a gang -/

/-- The names of a state's gangs, in their order. -/
def gangNames (s : State) : List Nat := s.gangs.map Gang.gid

theorem gangNames_of_holders {t : State} (h : holders t = holders s) : gangNames t = gangNames s := congrArg (List.map Gang.gid) (gangs_of_holders h)

theorem map_updFirst {α β : Type} {p : α → Bool} {f : α → α} {g : α → β} (hf : ∀ x, g (f x) = g x) (l : List α) : (updFirst p f l).map g = l.map g := by
  induction l with
  | nil => rfl
  | cons x l ih =>
    unfold updFirst
    split
    · rw [List.map_cons, hf, List.map_cons]
    · rw [List.map_cons, ih, List.map_cons]

/-- A change of a gang that keeps its name keeps the names. -/
theorem updGang_gangNames {gid : Nat} {f : Gang → Gang} (hf : ∀ g, (f g).gid = g.gid) : gangNames (updGang s gid f) = gangNames s := map_updFirst hf s.gangs

/-- Which name a search finds. -/
theorem find_name {α : Type} (key : α → Nat) (l : List α) (n : Nat) : (l.find? fun x => key x == n).map key = if n ∈ l.map key then some n else none := by
  induction l with
  | nil => rfl
  | cons x l ih =>
    by_cases h : key x = n
    · simp [h]
    · simp only [List.find?_cons, beq_eq_false_iff_ne.mpr h, ih, List.map_cons, List.mem_cons, Ne.symm h, false_or]

theorem getGang_name (n : Nat) : (getGang s n).map Gang.gid = if n ∈ gangNames s then some n else none := find_name Gang.gid s.gangs n

@[simp] theorem putChan_gangNames (gid : Nat) (c : BitVec 6) (x : Chan) : gangNames (putChan s gid c x) = gangNames s := updGang_gangNames fun _ => rfl

@[simp] theorem skipTicket_gangNames (job : Nat) (dst : ChanAddr) (n : BitVec 32) : gangNames (skipTicket s job dst n) = gangNames s := by
  unfold skipTicket
  split
  · split
    · rfl
    · exact putChan_gangNames _ _ _
  · exact gangNames_of_holders (sendPacket_holders _ _ _)

@[simp] theorem endSend_gangNames (m : Msg) (x : Payload) : gangNames (endSend s m x) = gangNames s := by
  unfold endSend
  extract_lets s1 s2
  have h1 : gangNames s1 = gangNames s := by
    unfold s1
    split
    · exact putChan_gangNames _ _ _
    · rfl
  have h2 : gangNames s2 = gangNames s1 := by
    unfold s2
    split
    · exact skipTicket_gangNames _ _ _
    · rfl
  exact (congrArg (List.map Gang.gid) (deliverNow_gangs m.sid m.tag x)).trans (h2.trans h1)

@[simp] theorem dropMsg_gangNames (m : Msg) : gangNames (dropMsg s m) = gangNames s := by
  unfold dropMsg
  split
  · exact endSend_gangNames _ _
  · exact gangNames_of_holders (sendPacket_holders _ _ _)

/-- A retired gang: its name is gone, alone of the names, and no strand is of it. -/
theorem retireGang_names (g : Gang) : gangNames (retireGang s g) = (gangNames s).filter (· != g.gid) ∧ ∀ u ∈ allStrands (retireGang s g), u.gid ≠ g.gid := by
  unfold retireGang
  extract_lets held s0 s1 gs s2
  have hh : holders (preemptDone (kickDies s2) g.gid false) = holders s2 := (preemptDone_holders _ _).trans kickDies_holders
  have h1 : gangNames s1 = gangNames s := foldl_keeps (fun _ m => dropMsg_gangNames m) held s
  refine ⟨?_, ?_⟩
  · rw [gangNames_of_holders hh, ← h1]
    exact (List.filter_map (p := fun n => n != g.gid) (f := Gang.gid) (l := s1.gangs)).symm
  · rw [allStrands_of_holders hh]
    intro u hu
    rcases List.mem_append.mp hu with hu | hu
    · by_cases hg : s1.me.gid = g.gid
      · have hme : s2.me = Strand.none := if_pos hg
        rw [hme, if_pos (show Strand.none.sid = 0 from rfl)] at hu
        cases hu
      · have hme : s2.me = s1.me := if_neg hg
        rw [hme] at hu
        split at hu
        · cases hu
        · rw [List.mem_singleton.mp hu]; exact hg
    · simpa using (List.mem_filter.mp hu).2

/-! ## The completion of a task -/

theorem isWindward_alone {g : Gang} (h : g.rset = none) : isWindward s g = true := by simp [isWindward, rsetOf, h]

/-- The completion word of a task (R34). -/
def completionWord : Option PoisonCode → List Byte
  | some c => leBytes 8 (poisonCode c)
  | none => leBytes 8 0

/-- The gang with its completion under way. -/
def withCompleted (s : State) (gid : Nat) : State := updGang s gid fun g => { g with completed := true }

theorem xlateAll_withCompleted (gid : Nat) : xlateAll (overMemory (withCompleted s gid) s) = xlateAll s := by
  funext a acc ps
  induction ps with
  | nil => rfl
  | cons p ps ih => rw [xlateAll, ih]; rfl

/-- A completion word is reported by its write (R34). -/
theorem reportTask_word {k : Task} {jobn : Nat} {j : Job} {c : Option PoisonCode} {ev : Instr} {m : State} (hj : getJob s jobn = some j) (hk : k.ckind = false)
    (hw : devWrite s j.asid k.caddr (completionWord c) = .ok m) : reportTask s jobn k c ev = (some m, m) := by
  cases c with
  | none =>
    simp only [reportTask, hj, hk, Bool.false_eq_true, if_false]
    rw [show devWrite s j.asid k.caddr (leBytes 8 0) = .ok m from hw]
  | some c =>
    simp only [reportTask, hj, hk, Bool.false_eq_true, if_false]
    rw [show devWrite s j.asid k.caddr (leBytes 8 (poisonCode c)) = .ok m from hw]

/-- A gang whose strands are all DONE and that has not reported writes its completion word, and looks again (R253). -/
theorem taskCompletion_reports {g : Gang} {j : Job} {m : State} (hg : getGang s g.gid = some g) (hr : g.rset = none) (hd : ∀ u ∈ g.strands.filterMap (getStrand s), u.st = .done)
    (hj : getJob s g.job = some j) (hrep : g.reported = false) (hk : g.task.ckind = false) (hw : devWrite s j.asid g.task.caddr (completionWord g.poison) = .ok m) :
    exec (.taskCompletion g.gid) s =
      .next (after (updGang (overMemory (withCompleted s g.gid) m) g.gid fun g => { g with reported := true }) 0 (.taskCompletion g.gid)) := by
  have hall : (g.strands.filterMap (getStrand s)).all (fun t => t.st == .done) = true := List.all_eq_true.mpr fun u hu => beq_iff_eq.mpr (hd u hu)
  have hwrite := devWrite_overMemory (i := withCompleted s g.gid) (s := s) rfl rfl (xlateAll_withCompleted g.gid) j.asid g.task.caddr (completionWord g.poison)
  rw [hw] at hwrite
  have hreport := reportTask_word (s := withCompleted s g.gid) (ev := .taskCompletion g.gid) hj hk hwrite
  show execTaskCompletion g.gid s = _
  unfold execTaskCompletion
  simp only [hg, hall, Bool.not_true, Bool.false_eq_true, if_false, isWindward_alone hr, hrep, Bool.not_false, if_true]
  rw [withCompleted] at hreport
  rw [hreport]
  rfl

/-- A gang that has reported and counted all its successors retires (R253). -/
theorem taskCompletion_retires {g : Gang} (hg : getGang s g.gid = some g) (hr : g.rset = none) (hd : ∀ u ∈ g.strands.filterMap (getStrand s), u.st = .done) (hrep : g.reported = true)
    (hs : g.task.nsucc ≤ g.succDone) : exec (.taskCompletion g.gid) s = .next (retireGang (handlerEnds (withCompleted s g.gid) g) g) := by
  have hall : (g.strands.filterMap (getStrand s)).all (fun t => t.st == .done) = true := List.all_eq_true.mpr fun u hu => beq_iff_eq.mpr (hd u hu)
  have hdec : decOne (withCompleted s g.gid) g = .ok none := if_pos hs
  have hlost : lostGangs (withCompleted s g.gid) g = [] := by simp [lostGangs, rsetOf, hr]
  show execTaskCompletion g.gid s = _
  unfold execTaskCompletion
  simp only [hg, hall, Bool.not_true, Bool.false_eq_true, if_false, isWindward_alone hr, hrep]
  rw [withCompleted] at hdec hlost
  rw [hdec]
  simp only [hlost, List.foldl_cons, List.foldl_nil, withCompleted]

theorem find_updFirst {α : Type} {key : α → Nat} {f : α → α} {n : Nat} (hf : ∀ x, key (f x) = key x) {l : List α} {x : α} (h : (l.find? fun y => key y == n) = some x) :
    ((updFirst (fun y => key y == n) f l).find? fun y => key y == n) = some (f x) := by
  induction l with
  | nil => cases h
  | cons y l ih =>
    unfold updFirst
    split
    next hy =>
      rw [List.find?_cons, hy] at h
      rw [List.find?_cons, hf, hy, ← Option.some.inj h]
    next hy =>
      rw [List.find?_cons, eq_false_of_ne_true hy] at h ⊢
      exact ih h

/-- A gang is found as its change leaves it. -/
theorem getGang_updGang {g : Gang} {n : Nat} {f : Gang → Gang} (hf : ∀ g, (f g).gid = g.gid) (h : getGang s n = some g) : getGang (updGang s n f) n = some (f g) := find_updFirst hf h

theorem taskCompletion_word {g : Gang} {j : Job} {m : State} (hg : getGang s g.gid = some g) (hr : g.rset = none) (hd : ∀ u ∈ g.strands.filterMap (getStrand s), u.st = .done)
    (hj : getJob s g.job = some j) (hrep : g.reported = false) (hk : g.task.ckind = false) (hw : devWrite s j.asid g.task.caddr (completionWord g.poison) = .ok m) :
    ∃ t, exec (.taskCompletion g.gid) s = .next t ∧ t.hbm = m.hbm ∧ getGang t g.gid = some { g with completed := true, reported := true } ∧
      t.timers = s.timers ++ [⟨s.clock, .taskCompletion g.gid⟩] := by
  refine ⟨_, taskCompletion_reports hg hr hd hj hrep hk hw, rfl, ?_, rfl⟩
  have h1 : getGang (overMemory (withCompleted s g.gid) m) g.gid = some { g with completed := true } := getGang_updGang (fun _ => rfl) hg
  exact getGang_updGang (f := fun g => { g with reported := true }) (fun _ => rfl) h1

theorem taskCompletion_gone {g : Gang} (hg : getGang s g.gid = some g) (hr : g.rset = none) (hd : ∀ u ∈ g.strands.filterMap (getStrand s), u.st = .done) (hrep : g.reported = true)
    (hs : g.task.nsucc ≤ g.succDone) : ∃ t, exec (.taskCompletion g.gid) s = .next t ∧ getGang t g.gid = none ∧ (∀ u ∈ allStrands t, u.gid ≠ g.gid) ∧
      ∀ n, n ≠ g.gid → (getGang t n).map Gang.gid = (getGang s n).map Gang.gid := by
  obtain ⟨hn, hu⟩ := retireGang_names (s := handlerEnds (withCompleted s g.gid) g) g
  have hn' : gangNames (handlerEnds (withCompleted s g.gid) g) = gangNames s := updGang_gangNames fun _ => rfl
  rw [hn'] at hn
  refine ⟨_, taskCompletion_retires hg hr hd hrep hs, ?_, hu, fun n h => ?_⟩
  · have hnone := getGang_name (s := retireGang (handlerEnds (withCompleted s g.gid) g) g) g.gid
    rw [hn, if_neg (by simp)] at hnone
    exact Option.map_eq_none_iff.mp hnone
  · rw [getGang_name, getGang_name, hn]
    simp [h]

/-! ## Gust's queue of strands -/

/-- Links that stand as they should are not written. -/
theorem foldl_writeLink_linked (die : Nat) (l : List (Strand × Word)) (h : ∀ u ∈ l, u.1.link = u.2) : l.foldl (writeLink die) s = s := by
  induction l with
  | nil => rfl
  | cons u l ih =>
    rw [List.foldl_cons, writeLink, if_pos (h u List.mem_cons_self)]
    exact ih fun v hv => h v (List.mem_cons_of_mem _ hv)

theorem linkQueue_linked {die : Nat} (h : ∀ j ∈ s.jobs, ∀ u ∈ gustLinks (gustQueue s die j.jobn), u.1.link = u.2) : linkQueue s die = s := by
  refine foldl_writeLink_linked die _ fun u hu => ?_
  obtain ⟨j, hj, hu⟩ := List.mem_flatMap.mp hu
  exact h j hj u hu

/-- A READY free strand is picked up before Gust looks at the queues (R259). -/
theorem dispatch_picksUp {die : Nat} {p : Nat × Nat} (hp : pickable s die = some p) (h : ∀ j ∈ s.jobs, ∀ u ∈ gustLinks (gustQueue s die j.jobn), u.1.link = u.2) :
    exec (.dispatch die) s = .next { s with timers := s.timers ++ [⟨s.clock, .pickUp p.1 p.2⟩, ⟨s.clock, .dispatch die⟩] } := by
  show execDispatch die s = _
  unfold execDispatch
  simp only [linkQueue_linked h, hp]
  simp [after, addTimer]

/-! ## A die with one queue and one record, and nothing saved -/

section
variable (hsaved : ∀ g ∈ s.gangs, g.saved = none)
include hsaved

theorem gustQueue_unsaved (die job : Nat) : gustQueue s die job = [] := by
  have h : (s.gangs.filter fun g => g.die == die && g.job == job && g.saved.isSome) = [] := List.filter_eq_nil_iff.mpr fun g hg => by simp [hsaved g hg]
  rw [gustQueue, h]; rfl

theorem linkQueue_unsaved (die : Nat) : linkQueue s die = s := linkQueue_linked fun j _ u hu => by
  rw [gustQueue_unsaved hsaved] at hu
  cases hu

theorem pickable_unsaved (die : Nat) : pickable s die = none := List.findSome?_eq_none_iff.mpr fun g hg => by simp [hsaved g hg]

theorem savedAhead_unsaved (die : Nat) (q : HwQueue) : savedAhead s die q = none := List.find?_eq_none.mpr fun g hg => by simp [hsaved g hg]

end

/-- The one queue of a die holds one record, whose task may be dispatched. -/
structure OneRecord (s : State) (die : Nat) (q : HwQueue) (a : Word) (k : Task) : Prop where
  queues : (getDie s die).queues = [q]
  enabled : q.en = true
  since : q.since.isSome = true
  onDie : q.onDie = [a]
  ring : q.rhead = q.rtail
  waiting : q.waitRing = []
  record : recordAt s q a = .ok k
  waitc : k.waitc = 0

section
variable {die : Nat} {q : HwQueue} {a : Word} {k : Task} (h : OneRecord s die q a k)
include h

theorem OneRecord.records : queueRecords s q = [(none, some a)] := by
  simp [queueRecords, h.onDie, h.waiting, ringPlaces, h.ring, upto]

theorem OneRecord.placeReady : placeReady s q (none, some a) = true := by
  simp [Machine.placeReady, dispatchable, h.record, h.waitc]

theorem OneRecord.unreadRecord : unreadRecord s die = none := by
  simp [Machine.unreadRecord, h.queues, h.records, placeFault, h.record]

theorem OneRecord.hasWork : hasWork s die q = true := by
  simp [Machine.hasWork, h.records, h.placeReady]

/-- A queue that has waited goes on waiting. -/
theorem OneRecord.markWaits : markWaits s die = s := by
  obtain ⟨c, hc⟩ := Option.isSome_iff_exists.mp h.since
  have hq : ({ q with since := some (q.since.getD s.clock) } : HwQueue) = q := by rw [hc, Option.getD_some, ← hc]
  have hd (d : Die) (e : d.queues = [q]) : { d with queues := [q] } = d := by rw [← e]
  unfold Machine.markWaits updDie
  simp only [h.queues, List.map_cons, List.map_nil, h.hasWork, List.contains_cons, BEq.rfl, Bool.true_or, if_true, hq, hd _ h.queues]
  rw [getDie, Vector.set_getElem_self]

theorem OneRecord.queueOrder : queueOrder s die = [q] := by
  simp [Machine.queueOrder, h.queues, h.since, sortBy, insertBy]

theorem OneRecord.offer (hsaved : ∀ g ∈ s.gangs, g.saved = none) : offerOf s die q = some (.record none a k) := by
  have hc : candidateOf s q = some (none, a) := by
    have hp := h.placeReady
    simp only [candidateOf, h.records, h.enabled, List.head?_cons, if_true]
    cases q.det <;> simp [hp, Option.filter_some]
  simp [offerOf, savedAhead_unsaved hsaved, hc, h.record]

end

/-! ## Placing the record -/

/-- What the one gang of an unreplicated record needs. -/
def needOf (die : Nat) (q : HwQueue) (k : Task) : Need := ⟨die, clustersOf q.clmask, k.width, k.height, k.nstr, k.nearsz, [], some q.job⟩

section
variable {die cl off : Nat} {q : HwQueue} {j : Job} {a : Word} {k : Task} {ls : List (Nat × BitVec 2 × Nat)} {m : State}

theorem needsOf_one (hr : k.repl = 1) : needsOf s die q (.record none a k) = [needOf die q k] := by
  have hd : replicaDies die k.repl = [die] := by rw [hr]; rfl
  have ht : trusted s die (decide (1 < k.repl.toNat)) (clustersOf q.clmask) = clustersOf q.clmask := by
    rw [hr]
    exact List.filter_eq_self.mpr fun _ _ => rfl
  simp [needsOf, hd, ht, needOf]

theorem placesFor_one (hp : findPlace s die (clustersOf q.clmask) k.width k.height k.nstr k.nearsz [] = some (cl, ls)) :
    placesFor s die [] [needOf die q k] = some [(needOf die q k, cl, ls)] := by
  simp [placesFor, needOf, placeOf, hp]

/-- The queue once its record is taken (R255). -/
def takenFrom (s : State) (die : Nat) (q : HwQueue) (a : Word) : State :=
  updQueue s die q.num fun q => if q.onDie.contains a then { q with onDie := dropFirst (· == a) q.onDie } else { q with waitRing := dropFirst (· == a) q.waitRing }

theorem placeRecord_one (hj : getJob s q.job = some j) (hr : k.repl = 1) (hb : bindGang s j a k die q.num cl q.det (taskSeed s q.det k) none 0 ls = .ok m) :
    placeRecord s die q none a k [(needOf die q k, cl, ls)] = .ok (takenFrom m die q a) := by
  have h1 : k.repl.toNat ≤ 1 := by rw [hr]; decide
  have hall : bindAll j a k q (taskSeed s q.det k) none [(needOf die q k, cl, ls)] 0 s = .ok m := by
    show (match bindGang s j a k die q.num cl q.det (taskSeed s q.det k) none 0 ls with
      | .error e => Except.error e
      | .ok s1 => bindAll ((getJob s1 j.jobn).getD j) a k q (taskSeed s q.det k) none [] (0 + 1) s1) = _
    rw [hb]; rfl
  simp only [placeRecord, hj, h1, if_true, hall, takeRecord]
  rfl

/-- Gust dispatches the one record of the one queue (R254, R258). -/
theorem dispatch_places (h : OneRecord s die q a k) (hsaved : ∀ g ∈ s.gangs, g.saved = none) (hj : getJob s q.job = some j) (hr : k.repl = 1)
    (hcl : cl ∈ clustersOf q.clmask) (hcould : couldPlace s die cl k.width k.height k.nstr = true)
    (hp : findPlace s die (clustersOf q.clmask) k.width k.height k.nstr k.nearsz [] = some (cl, ls))
    (hb : bindGang s j a k die q.num cl q.det (taskSeed s q.det k) none 0 ls = .ok m) :
    exec (.dispatch die) s = .next (after (servedAt (takenFrom m die q a) die q (rankOf s q)) 0 (.dispatch die)) := by
  have hfits : [needOf die q k].any (neverFits s q) = false := by
    have hc : (clustersOf q.clmask).any (fun c => couldPlace s die c k.width k.height k.nstr) = true := List.any_eq_true.mpr ⟨cl, hcl, hcould⟩
    simp [neverFits, needOf, hc]
  have hoffer : offerQueue s die [] q (.record none a k) = .served (takenFrom m die q a) := by
    simp only [offerQueue, needsOf_one hr, hfits, Bool.false_eq_true, if_false, placesFor_one hp, placeRecord_one hj hr hb]
  show execDispatch die s = _
  unfold execDispatch
  simp only [linkQueue_unsaved hsaved, pickable_unsaved hsaved, h.unreadRecord, h.markWaits, h.queueOrder, offerQueues, h.offer hsaved, hoffer, if_true]

end

/-! ## The gang that stands at the place -/

/-- The strands of a new gang (R258). -/
def newStrands (s : State) (k : Task) (base : Word) (ls : List (Nat × BitVec 2 × Nat)) : List Strand :=
  ls.zipIdx.map fun l => newStrand s s.nextId (s.nextId + 1) k.nstr l.2 k base l.1

theorem foldl_coreForJob_shape (job : Nat) (ls : List (Nat × BitVec 2 × Nat)) : ∃ cs, ls.foldl (fun s l => coreForJob s l.1 job) s = { s with cores := cs } := by
  induction ls generalizing s with
  | nil => exact ⟨s.cores, rfl⟩
  | cons l ls ih =>
    obtain ⟨cs, e⟩ := ih (s := coreForJob s l.1 job)
    exact ⟨cs, e⟩

section
variable {die cl off : Nat} {q : HwQueue} {j : Job} {a : Word} {k : Task} {ls : List (Nat × BitVec 2 × Nat)} {m : State}

/-- The gang that Gust binds to a place, in its part of the save pool. -/
def boundGang (s : State) (j : Job) (a : Word) (k : Task) (die : Nat) (q : HwQueue) (cl off : Nat) (ls : List (Nat × BitVec 2 × Nat)) : Gang :=
  newGang (s.nextId, 0) (0, a) k j.jobn die q.num cl q.det ls (j.save + BitVec.ofNat 64 off) (taskSeed s q.det k) none 0
    ((newStrands s k (j.save + BitVec.ofNat 64 off) ls).map (·.sid))

/-- What the binding of a gang changes. -/
theorem bindGang_shape (hoff : poolFit j (poolBytes k.nstr k.nearsz) = some off) (hb : bindGang s j a k die q.num cl q.det (taskSeed s q.det k) none 0 ls = .ok m) :
    ∃ js cs h l o, m = { s with
      nextId := s.nextId + 1 + k.nstr, fresh := s.fresh + k.nstr, gangs := s.gangs ++ [boundGang s j a k die q cl off ls]
      pool := s.pool ++ newStrands s k (j.save + BitVec.ofNat 64 off) ls, jobs := js, cores := cs, hbm := h, lineKey := l, devOut := o } := by
  unfold bindGang at hb
  rw [hoff] at hb
  dsimp only at hb
  split at hb
  · cases hb
  next s3 e =>
    obtain ⟨h, l, o, rfl⟩ := devWriteAll_shape e
    obtain ⟨cs, hc⟩ := foldl_coreForJob_shape (s := { updJob _ _ _ with hbm := h, lineKey := l, devOut := o }) j.jobn ls
    rw [hc] at hb
    exact ⟨_, cs, h, l, o, (Except.ok.inj hb).symm⟩

theorem getDie_updDie_same (d : Nat) (f : Die → Die) : getDie (updDie s d f) d = f (getDie s d) := Vector.getElem_set_self _

/-- The queue once Gust has served it: its record is gone, and it no longer waits. -/
theorem getQueue_served (h : OneRecord s die q a k) (hd : m.dies = s.dies) : getQueue (servedAt (takenFrom m die q a) die q (rankOf s q)) die q.num = some { q with onDie := [], since := none } := by
  have hq : (getDie m die).queues = [q] := by
    rw [← h.queues, getDie, getDie]
    simp only [hd]
  have ht : (getDie (takenFrom m die q a) die).queues = [{ q with onDie := [] }] := by
    rw [takenFrom, updQueue, getDie_updDie_same]
    simp [hq, updFirst, h.onDie, dropFirst]
  show ((getDie (updQueue (updDie (takenFrom m die q a) die _) die q.num _) die).queues.find? fun x => x.num == q.num) = _
  rw [updQueue, getDie_updDie_same, getDie_updDie_same]
  simp [ht, updFirst]

/-- The strand of each place is found by its name. -/
theorem find_newStrands (base : Word) {i : Nat} (h : i < ls.length) :
    ((newStrands s k base ls).find? fun t => t.sid == s.nextId + 1 + i) = some (newStrand s s.nextId (s.nextId + 1) k.nstr i k base ls[i]) := by
  have hfind (n : Nat) (ls : List (Nat × BitVec 2 × Nat)) (i : Nat) (h : i < ls.length) :
      (((ls.zipIdx n).map fun l => newStrand s s.nextId (s.nextId + 1) k.nstr l.2 k base l.1).find? fun t => t.sid == s.nextId + 1 + (n + i)) =
        some (newStrand s s.nextId (s.nextId + 1) k.nstr (n + i) k base ls[i]) := by
    induction ls generalizing n i with
    | nil => cases h
    | cons l ls ih =>
      rw [List.zipIdx_cons, List.map_cons, List.find?_cons]
      cases i with
      | zero => simp [newStrand]
      | succ i =>
        have hne : ((newStrand s s.nextId (s.nextId + 1) k.nstr n k base l).sid == s.nextId + 1 + (n + (i + 1))) = false := by
          rw [beq_eq_false_iff_ne]
          show s.nextId + 1 + n ≠ _
          omega
        rw [hne]
        have hi := ih (n + 1) i (Nat.lt_of_succ_lt_succ h)
        rw [show n + 1 + i = n + (i + 1) by omega] at hi
        exact hi
  have h0 := hfind 0 ls i h
  rwa [Nat.zero_add] at h0

theorem newStrand_started (base : Word) {i : Nat} (hi : i < 64) (l : Nat × BitVec 2 × Nat) : Started (newStrand s s.nextId (s.nextId + 1) k.nstr i k base l) k i l :=
  ⟨rfl, rfl, rfl, rfl, by rw [newStrand, BitVec.toNat_ofNat]; exact Nat.mod_eq_of_lt hi, rfl, rfl, rfl, rfl⟩

theorem length_newStrands (base : Word) : (newStrands s k base ls).length = ls.length := by simp [newStrands]

/-- A name that the next ones leave behind is no strand's of the pool. -/
theorem find_pool_fresh (hn : NamesFresh s) {n : Nat} (h : s.nextId ≤ n) : (s.pool.find? fun t => t.sid == n) = none := by
  refine List.find?_eq_none.mpr fun u hu => ?_
  have := hn.1 u (List.mem_append_right _ hu)
  simp only [beq_iff_eq]
  omega

theorem find_gangs_fresh (hn : NamesFresh s) : (s.gangs.find? fun g => g.gid == s.nextId) = none := by
  refine List.find?_eq_none.mpr fun g hg => ?_
  have := hn.2.1 g hg
  simp only [beq_iff_eq]
  omega

theorem dispatch_starts (h : OneRecord s die q a k) (hsaved : ∀ g ∈ s.gangs, g.saved = none) (hj : getJob s q.job = some j) (hr : k.repl = 1)
    (hcl : cl ∈ clustersOf q.clmask) (hcould : couldPlace s die cl k.width k.height k.nstr = true)
    (hp : findPlace s die (clustersOf q.clmask) k.width k.height k.nstr k.nearsz [] = some (cl, ls)) (hoff : poolFit j (poolBytes k.nstr k.nearsz) = some off) (hn : NamesFresh s)
    (hlen : k.nstr = ls.length) (h64 : k.nstr ≤ 64) (hb : bindGang s j a k die q.num cl q.det (taskSeed s q.det k) none 0 ls = .ok m) :
    ∃ t, exec (.dispatch die) s = .next t ∧ t.timers = s.timers ++ [⟨s.clock, .ringRefill die q.num⟩, ⟨s.clock, .dispatch die⟩] ∧ t.hbm = m.hbm ∧
      getQueue t die q.num = some { q with onDie := [], since := none } ∧
      (∃ g, getGang t s.nextId = some g ∧ g.record = a ∧ g.task = k ∧ g.job = j.jobn ∧ g.die = die ∧ g.cluster = cl ∧ g.alloc = ls.map (fun l => (l.1, l.2.2)) ∧
        g.barriers = Vector.replicate 16 (Barrier.start k.nstr) ∧ g.strands.length = k.nstr) ∧
      ∀ i (h : i < ls.length), ∃ u, getStrand t (s.nextId + 1 + i) = some u ∧ Started u k i ls[i] := by
  obtain ⟨js, cs, hbm, lk, o, hm⟩ := bindGang_shape hoff hb
  refine ⟨_, dispatch_places h hsaved hj hr hcl hcould hp hb, ?_, rfl, ?_, ⟨boundGang s j a k die q cl off ls, ?_, rfl, rfl, rfl, rfl, rfl, rfl, rfl, ?_⟩, fun i hi => ?_⟩
  · show (m.timers ++ [⟨m.clock + 0, .ringRefill die q.num⟩]) ++ [⟨m.clock + 0, .dispatch die⟩] = _
    rw [hm]
    simp
  · exact (show getQueue (after (servedAt (takenFrom m die q a) die q (rankOf s q)) 0 (.dispatch die)) die q.num =
      getQueue (servedAt (takenFrom m die q a) die q (rankOf s q)) die q.num from rfl).trans (getQueue_served h (by rw [hm]))
  · show m.gangs.find? (fun g => g.gid == s.nextId) = _
    rw [hm]
    show (s.gangs ++ [boundGang s j a k die q cl off ls]).find? _ = _
    rw [List.find?_append, find_gangs_fresh hn]
    simp [boundGang, newGang]
  · simp [boundGang, newGang, length_newStrands, hlen]
  · refine ⟨_, ?_, newStrand_started (s := s) (j.save + BitVec.ofNat 64 off) (by omega) ls[i]⟩
    have hme : ¬ m.me.sid = s.nextId + 1 + i := by
      have hs : m.me.sid = s.me.sid := by rw [hm]
      have hlt := hn.2.2
      omega
    show (if m.me.sid = s.nextId + 1 + i then some m.me else m.pool.find? fun t => t.sid == s.nextId + 1 + i) = _
    rw [if_neg hme, hm]
    show (s.pool ++ newStrands s k (j.save + BitVec.ofNat 64 off) ls).find? _ = _
    rw [List.find?_append, find_pool_fresh hn (by omega), Option.none_or, find_newStrands _ hi]

end

/-- Settles O39: dispatch comes down to the one record that Gust can place and to what its binding changes, completion to the write of the word and to what a retired gang leaves. -/
theorem taskEvents : Obligations.TaskEvents := by
  refine fun s => ⟨?_, fun die p => dispatch_picksUp, ?_, fun g => taskCompletion_gone⟩
  · intro die q j k a cl ls off m hqs _ hj hen hsince hdie hring hwait hrec hwc hr hsaved hcould hcl hp hoff hn hlen h64 hb
    exact dispatch_starts ⟨hqs, hen, hsince, hdie, hring, hwait, hrec, hwc⟩ hsaved hj hr hcl hcould hp hoff hn hlen h64 hb
  · intro g j m hg hrs hd hj hrep hk hw
    exact taskCompletion_word hg hrs hd hj hrep hk (by cases hc : g.poison <;> simpa [hc, completionWord] using hw)

end Sys2Proof.Machine
end

section
/-! PROOFS. Merging element-wise vector instructions and vector tests (O7): one lemma for each shape of instruction, and one for each element function. -/

namespace Sys2Proof.Machine
open Sys2Proof Claims

/-! ## Elements as numbers -/

theorem el_lt (w : Nat) (x : VVal) (e : Nat) : el w x e < 2 ^ w := Nat.mod_lt _ (by positivity)

theorem elemV_el (w : Nat) (x : VVal) (e : Nat) : elemV w x e = el w x e := elemV_eq w x e

theorem num_eq_intVal {t : Ty} {x : Nat} (h : x < 2 ^ t.width) : num t x = intVal t x := by
  unfold num intVal
  split
  · rw [sxNat_eq, BitVec.toInt_eq_toNat_bmod, BitVec.toNat_ofNat, Int.natCast_emod]
    rw [Int.emod_bmod]
  · rw [Nat.mod_eq_of_lt h]

theorem wrapT_eq_wrapN (t : Ty) (r : Int) : wrapT t r = wrapN r t.width := rfl

theorem wrapN_lt (r : Int) (w : Nat) : wrapN r w < 2 ^ w := by
  rw [wrapN_eq]; exact (BitVec.ofInt w r).isLt

theorem satT_eq_satInt (t : Ty) (r : Int) : satT t r = satInt t r := by
  have hw : (1 : Int) ≤ 2 ^ (t.width - 1) := one_le_pow₀ (by norm_num)
  have hw' : (1 : Int) ≤ 2 ^ t.width := one_le_pow₀ (by norm_num)
  unfold satT satInt
  rw [wrapT_eq_wrapN]
  congr 1
  unfold clampI intMin intMax
  split
  · generalize (2 : Int) ^ (t.width - 1) = m at *
    split_ifs <;> omega
  · generalize (2 : Int) ^ t.width = m at *
    split_ifs <;> omega

/-- An element of a type is the bits of its number. -/
theorem wrapT_num {t : Ty} {x : Nat} (h : x < 2 ^ t.width) : wrapT t (num t x) = x := by
  rw [num_eq_intVal h, wrapT_eq_wrapN, wrapN_eq]
  have hx : BitVec.ofInt t.width (intVal t x) = BitVec.ofNat t.width x := by
    unfold intVal
    split
    · rw [sxNat_eq, BitVec.ofInt_toInt]
    · rw [Nat.mod_eq_of_lt h]; exact BitVec.ofInt_natCast ..
  rw [hx, BitVec.toNat_ofNat, Nat.mod_eq_of_lt h]

/-! ## Element functions -/

section
variable {t : Ty} {a b d : Nat} (ha : a < 2 ^ t.width) (hb : b < 2 ^ t.width)
include ha hb

theorem vaddElem_add (sat : Bool) : vaddElem t sat false a b = byType t (fun m => faddB m a b) ((if sat then satT else wrapT) t (num t a + num t b)) := by
  unfold vaddElem byType
  rw [num_eq_intVal ha, num_eq_intVal hb]
  cases fmtOf t with
  | some m => rfl
  | none => cases sat <;> simp [satT_eq_satInt, wrapT_eq_wrapN]

theorem vaddElem_sub (sat : Bool) : vaddElem t sat true a b = byType t (fun m => fsubB m a b) ((if sat then satT else wrapT) t (num t a - num t b)) := by
  unfold vaddElem byType
  rw [num_eq_intVal ha, num_eq_intVal hb]
  cases fmtOf t with
  | some m => rfl
  | none => cases sat <;> simp [satT_eq_satInt, wrapT_eq_wrapN]

theorem vmulElem_eq (hi : Bool) : vmulElem t hi a b = byType t (fun m => fmulB m a b) (wrapT t (num t a * num t b / (if hi then 2 ^ t.width else 1))) := by
  unfold vmulElem byType
  rw [num_eq_intVal ha, num_eq_intVal hb]
  cases fmtOf t with
  | some m => rfl
  | none => cases hi <;> simp [wrapT_eq_wrapN]

theorem vfmaElem_eq (hd : d < 2 ^ t.width) (neg : Bool) :
    vfmaElem t neg a b d = byType t (fun m => fmaB m neg a b d) (wrapT t ((if neg then -1 else 1) * (num t a * num t b) + num t d)) := by
  unfold vfmaElem byType
  rw [num_eq_intVal ha, num_eq_intVal hb, num_eq_intVal hd]
  cases fmtOf t with
  | some m => rfl
  | none => cases neg <;> simp [wrapT_eq_wrapN]

/-- The lesser of two numbers is one of the elements. -/
theorem vminElem_eq : vminElem t a b = byType t (fun m => fminB m a b) (wrapT t (min (num t a) (num t b))) := by
  unfold vminElem byType
  cases fmtOf t with
  | some m => rfl
  | none =>
    dsimp only
    rw [← num_eq_intVal ha, ← num_eq_intVal hb]
    split
    next h => rw [min_eq_right h.le, wrapT_num hb]
    next h => rw [min_eq_left (not_lt.mp h), wrapT_num ha]

/-- The greater of two numbers is one of the elements. -/
theorem vmaxElem_eq : vmaxElem t a b = byType t (fun m => fmaxB m a b) (wrapT t (max (num t a) (num t b))) := by
  unfold vmaxElem byType
  cases fmtOf t with
  | some m => rfl
  | none =>
    dsimp only
    rw [← num_eq_intVal ha, ← num_eq_intVal hb]
    split
    next h => rw [max_eq_right h.le, wrapT_num hb]
    next h => rw [max_eq_left (not_lt.mp h), wrapT_num ha]

end

theorem vunaElem_eq {t : Ty} {a : Nat} (ha : a < 2 ^ t.width) (neg : Bool) : vunaElem t neg a = byType t
    (fun m => if (decodeF m a).isNan then qnanBits m else if neg then a ^^^ 2 ^ (t.width - 1) else a % 2 ^ (t.width - 1)) (wrapT t (if neg then -num t a else |num t a|)) := by
  unfold vunaElem byType
  rw [num_eq_intVal ha]
  cases fmtOf t with
  | some m => rfl
  | none => cases neg <;> simp [wrapT_eq_wrapN]

theorem vshlElem_eq (w x n : Nat) : (x <<< n) % 2 ^ w = (BitVec.ofNat w x <<< n).toNat := by
  rw [BitVec.toNat_shiftLeft, BitVec.toNat_ofNat, Nat.shiftLeft_eq, Nat.shiftLeft_eq, Nat.mod_mul_mod]

theorem vshrElem_eq {t : Ty} {x y : Nat} (hx : x < 2 ^ t.width) (ar : Bool) : vshrElem t ar x y =
    if ar then ((BitVec.ofNat t.width x).sshiftRight (y % t.width)).toNat else (BitVec.ofNat t.width x >>> (y % t.width)).toNat := by
  unfold vshrElem
  cases ar with
  | true =>
    simp only [if_true]
    rw [wrapN_eq, sxNat_eq]
    rw [BitVec.sshiftRight, Int.shiftRight_eq_div_pow]
    rfl
  | false => simp [BitVec.toNat_ushiftRight, Nat.mod_eq_of_lt hx]

theorem testBit_el (w : Nat) (x : VVal) (e k : Nat) : (el w x e).testBit k = (decide (k < w) && x.getLsbD (k + w * e)) := by
  rw [el, Nat.testBit_mod_two_pow, Nat.testBit_div_two_pow]
  rfl

theorem el_and (w : Nat) (x y : VVal) (e : Nat) : el w (x &&& y) e = el w x e &&& el w y e := by
  refine Nat.eq_of_testBit_eq fun k => ?_
  rw [Nat.testBit_and, testBit_el, testBit_el, testBit_el, BitVec.getLsbD_and]
  cases decide (k < w) <;> rfl

theorem el_or (w : Nat) (x y : VVal) (e : Nat) : el w (x ||| y) e = el w x e ||| el w y e := by
  refine Nat.eq_of_testBit_eq fun k => ?_
  rw [Nat.testBit_or, testBit_el, testBit_el, testBit_el, BitVec.getLsbD_or]
  cases decide (k < w) <;> rfl

theorem el_xor (w : Nat) (x y : VVal) (e : Nat) : el w (x ^^^ y) e = el w x e ^^^ el w y e := by
  refine Nat.eq_of_testBit_eq fun k => ?_
  rw [Nat.testBit_xor, testBit_el, testBit_el, testBit_el, BitVec.getLsbD_xor]
  cases decide (k < w) <;> rfl

/-! ## The shapes of the merging instructions -/

variable {s : State}

theorem enabled_inSlot (g : BitVec 4) (w e n : Nat) (hl : s.me.loop.active = false) : enabled (inSlot s n) g w e = true ↔ on s g w e := by
  unfold enabled active
  rw [rdP_inSlot s n g hl, Bool.or_eq_true, beq_iff_eq]
  rfl

/-- What a merging element-wise instruction leaves (R141): the claim's words. -/
def Merges (s : State) (i : Instr) (g : BitVec 4) (d : BitVec 5) (t : Ty) (n : Nat) (f : Nat → Nat) : Prop :=
  ∃ u x, exec i s = .next u ∧ DeliversIn s u (.v d) n (.value x) ∧ RegFrame s u [.v d] ∧
    ∀ e, e < 1024 / t.width → (on s g t.width e → el t.width x e = f e % 2 ^ t.width) ∧ (¬ on s g t.width e → el t.width x e = el t.width (vVal s d) e)

/-- An instruction whose result merges elements. -/
theorem merges_of {i : Instr} {g : BitVec 4} {d : BitVec 5} {t : Ty} {n : Nat} {f : Nat → Nat} (F : State → Nat → Nat) (hr : Ready s i) (hq : operandsOnly i = true)
    (he : exec i s = slotOp 3 i (fun s => produceV s d n (mergeV s g t.width d (F s))) s) (hf : ∀ e, e < 1024 / t.width → F (inSlot s 3) e % 2 ^ t.width = f e % 2 ^ t.width) :
    Merges s i g d t n f := by
  have hl := hr.1.2.1
  obtain ⟨u, hu, hd, hk⟩ := result_operandsOnly s 3 i (fun s => produceV s d n (mergeV s g t.width d (F s))) (.v d) n (.value (mergeV (inSlot s 3) g t.width d (F (inSlot s 3)))) hr hq rfl
  refine ⟨u, _, he.trans hu, hd, hk, fun e h => ?_⟩
  have hm : el t.width _ e = _ := mergeV_at (inSlot s 3) g t.width d (F (inSlot s 3)) e h
  rw [hm]
  refine ⟨fun ho => ?_, fun ho => ?_⟩
  · rw [if_pos ((enabled_inSlot g t.width e 3 hl).mpr ho), hf e h]
  · rw [if_neg fun h => ho ((enabled_inSlot g t.width e 3 hl).mp h), rdV_inSlot s 3 d hl]
    rfl

/-- An element-wise instruction of one source. -/
theorem merges_one {i : Instr} {g : BitVec 4} {d a : BitVec 5} {t : Ty} {n : Nat} {f : Nat → Nat} (F : Nat → Nat) (hr : Ready s i) (hq : operandsOnly i = true)
    (he : exec i s = slotOp 3 i (fun s => vec1 s g d a t n F) s) (hf : ∀ e, F (el t.width (vVal s a) e) % 2 ^ t.width = f e % 2 ^ t.width) : Merges s i g d t n f :=
  merges_of (fun s e => F (elemV t.width (rdV s a) e)) hr hq he fun e _ => by
    rw [rdV_inSlot s 3 a hr.1.2.1, elemV_el, hf]

/-- An element-wise instruction of two sources. -/
theorem merges_two {i : Instr} {g : BitVec 4} {d a b : BitVec 5} {t : Ty} {n : Nat} {f : Nat → Nat} (F : Nat → Nat → Nat) (hr : Ready s i) (hq : operandsOnly i = true)
    (he : exec i s = slotOp 3 i (fun s => vec2 s g d a b t n F) s) (hf : ∀ e, F (el t.width (vVal s a) e) (el t.width (vVal s b) e) % 2 ^ t.width = f e % 2 ^ t.width) :
    Merges s i g d t n f :=
  merges_of (fun s e => F (elemV t.width (rdV s a) e) (elemV t.width (rdV s b) e)) hr hq he fun e _ => by
    rw [rdV_inSlot s 3 a hr.1.2.1, rdV_inSlot s 3 b hr.1.2.1, elemV_el, elemV_el, hf]

/-! ## The instructions -/

theorem vectorElementwise : VectorElementwise := by
  intro s i g d t n f h hwf hr
  show Merges s i g d t n f
  have hl := hr.1.2.1
  unfold vecMerge at h
  split at h
  next g d a b t sat =>
    cases h
    exact merges_two _ hr rfl rfl fun e => by rw [vaddElem_add (el_lt ..) (el_lt ..)]
  next g d a b t sat =>
    cases h
    exact merges_two _ hr rfl rfl fun e => by rw [vaddElem_sub (el_lt ..) (el_lt ..)]
  next g d a b t hi =>
    cases h
    exact merges_two _ hr rfl rfl fun e => by rw [vmulElem_eq (el_lt ..) (el_lt ..)]
  next g d a b t neg =>
    cases h
    exact merges_of _ hr rfl rfl fun e _ => by
      rw [rdV_inSlot s 3 a hl, rdV_inSlot s 3 b hl, rdV_inSlot s 3 d hl, elemV_el, elemV_el, elemV_el, vfmaElem_eq (el_lt ..) (el_lt ..) (el_lt ..)]
  next g d a b t =>
    cases h
    exact merges_two _ hr rfl rfl fun e => by rw [vminElem_eq (el_lt ..) (el_lt ..)]
  next g d a b t =>
    cases h
    exact merges_two _ hr rfl rfl fun e => by rw [vmaxElem_eq (el_lt ..) (el_lt ..)]
  next g d a t neg =>
    cases h
    exact merges_one _ hr rfl rfl fun e => by rw [vunaElem_eq (el_lt ..)]
  next g d a b t =>
    cases h
    exact merges_two _ hr rfl rfl fun e => by rw [el_and]
  next g d a b t =>
    cases h
    exact merges_two _ hr rfl rfl fun e => by rw [el_or]
  next g d a b t =>
    cases h
    exact merges_two _ hr rfl rfl fun e => by rw [el_xor]
  next g d a b t =>
    cases h
    exact merges_two _ hr rfl rfl fun e => by rw [vshlElem_eq]
  next g d a b t ar =>
    cases h
    exact merges_two _ hr rfl rfl fun e => by rw [vshrElem_eq (el_lt ..)]
  next g d a b t =>
    cases h
    exact merges_of _ hr rfl rfl fun e _ => by
      simp only [rdV_inSlot s 3 a hl, rdV_inSlot s 3 b hl, elemV_el]
      rfl
  next g d a t fromV =>
    cases h
    exact merges_of _ hr rfl rfl fun e _ => by
      rw [rdV_inSlot s 3 a hl, rdS_inSlot s 3 _ hl, elemV_el]
  next g d t =>
    cases h
    exact merges_of _ hr rfl rfl fun e _ => by
      rw [wrapT_eq_wrapN, wrapN_eq]
      simp
  next g d a f =>
    cases h
    exact merges_one _ hr rfl rfl fun e => rfl
  next g d a t =>
    cases h
    exact merges_one _ hr rfl rfl fun e => by rw [popcount_eq]
  next => cases h

/-! ## The tests -/

/-- Types of whole bytes, whose elements fill their byte groups (R140). -/
theorem width_bytes {t : Ty} (h : t ≠ .bit) : t.width = 8 ∨ t.width = 16 ∨ t.width = 32 ∨ t.width = 64 := by
  cases t with
  | bit => exact absurd rfl h
  | i8 | n8 | e4m3 | e5m2 | mx8 => exact .inl rfl
  | i16 | n16 | bf16 | f16 => exact .inr (.inl rfl)
  | i32 | n32 | f32 => exact .inr (.inr (.inl rfl))
  | i64 => exact .inr (.inr (.inr rfl))

/-- What a merging test leaves (R146): the claim's words. -/
def Tests (s : State) (i : Instr) (g d : BitVec 4) (t : Ty) (f : Nat → Prop) : Prop :=
  ∃ u, ∃ x : PVal, exec i s = .next u ∧ DeliversIn s u (.p d) 3 (.value (BitVec.setWidth 1024 x)) ∧ RegFrame s u [.p d] ∧
    ∀ k, k < 128 → (on s g t.width (k / (t.width / 8)) → (x.getLsbD k = true ↔ f (k / (t.width / 8)))) ∧
      (¬ on s g t.width (k / (t.width / 8)) → x.getLsbD k = (pVal s d).getLsbD k)

/-- An instruction whose result merges byte groups. -/
theorem tests_of {i : Instr} {g d : BitVec 4} {t : Ty} {f : Nat → Prop} (F : State → Nat → Bool) (hr : Ready s i) (hq : operandsOnly i = true) (ht : t ≠ .bit)
    (he : exec i s = slotOp 3 i (fun s => produceP s d 3 (mergeP s g d t.width (F s))) s) (hf : ∀ e, F (inSlot s 3) e = true ↔ f e) : Tests s i g d t f := by
  have hl := hr.1.2.1
  obtain ⟨u, hu, hd, hk⟩ := result_operandsOnly s 3 i (fun s => produceP s d 3 (mergeP s g d t.width (F s))) (.p d) 3
    (.value ((mergeP (inSlot s 3) g d t.width (F (inSlot s 3))).setWidth 1024)) hr hq rfl
  refine ⟨u, _, he.trans hu, hd, hk, fun k h => ?_⟩
  have hw : 8 ≤ t.width ∧ k / (t.width / 8) < 1024 / t.width := by
    rcases width_bytes ht with hw | hw | hw | hw <;> rw [hw] <;> omega
  rw [mergeP_bit (inSlot s 3) g d t.width (F (inSlot s 3)) k hw.1 h hw.2]
  refine ⟨fun ho => ?_, fun ho => ?_⟩
  · rw [if_pos ((enabled_inSlot g t.width _ 3 hl).mpr ho)]
    exact hf _
  · rw [if_neg fun h => ho ((enabled_inSlot g t.width _ 3 hl).mp h), rdP_inSlot s 3 d hl]

/-- NaN stands in no order and equals nothing (R146). -/
theorem unrelated_of_isNan {x y : FVal} (h : x.isNan = true ∨ y.isNan = true) : x.lt y = false ∧ x.eqv y = false := by
  rcases h with h | h
  · cases x with
    | nan => exact ⟨rfl, rfl⟩
    | _ => exact Bool.noConfusion h
  · cases y with
    | nan => cases x <;> exact ⟨rfl, rfl⟩
    | _ => exact Bool.noConfusion h

/-- A relation of VCMP holds as the claim says it, NaN apart (R146). -/
theorem vcmpHolds_eq (t : Ty) (c : VcmpC) (a b : Nat) : vcmpHolds t c a b = vrel c (valueOf t a) (valueOf t b) := by
  unfold vcmpHolds vrel
  generalize valueOf t a = x, valueOf t b = y
  by_cases h : x.isNan = true ∨ y.isNan = true
  · obtain ⟨h1, h2⟩ := unrelated_of_isNan h
    obtain ⟨h3, -⟩ := unrelated_of_isNan h.symm
    cases c <;> rcases h with h | h <;> simp [h, h1, h2, h3]
  · obtain ⟨hx, hy⟩ := not_or.mp h
    cases c <;> simp [hx, hy]

/-- A position of VMATCH holds as the claim says it (R155). -/
theorem matchAt_iff (w n : Nat) (a b : VVal) (i : Nat) : matchAt w n a b i = true ↔
    1 ≤ el w b (n - 1) ∧ el w b (n - 1) ≤ n - 1 ∧ ∀ k, k < el w b (n - 1) → i + k < n → el w a (i + k) = el w b k := by
  unfold matchAt
  simp only [elemV_el, Bool.and_eq_true, decide_eq_true_eq, List.all_eq_true, upto, List.mem_range, Bool.or_eq_true, beq_iff_eq, and_assoc, or_iff_not_imp_left, not_le]

theorem vectorTests : VectorTests := by
  intro s i g d t f h hwf hr
  show Tests s i g d t f
  have hl := hr.1.2.1
  unfold vecTest at h
  split at h
  next g d a b t c =>
    cases h
    refine tests_of (fun s e => vcmpHolds t c (elemV t.width (rdV s a) e) (elemV t.width (rdV s b) e)) hr rfl ?_ rfl fun e => ?_
    · rintro rfl
      simp [wellFormed, Ty.isFp, Ty.isNum, Ty.isInt] at hwf
    · rw [rdV_inSlot s 3 a hl, rdV_inSlot s 3 b hl, elemV_el, elemV_el, vcmpHolds_eq]
  next g d a b t =>
    cases h
    refine tests_of (fun s => matchAt t.width t.count (rdV s a) (rdV s b)) hr rfl ?_ rfl fun e => ?_
    · rintro rfl
      simp [wellFormed] at hwf
    · rw [rdV_inSlot s 3 a hl, rdV_inSlot s 3 b hl]
      exact matchAt_iff ..
  next g d a b t =>
    cases h
    refine tests_of (fun s e => (rdV s b).toNat.testBit (elemV t.width (rdV s a) e % 1024)) hr rfl ?_ rfl fun e => ?_
    · rintro rfl
      simp [wellFormed, Ty.isInt] at hwf
    · rw [rdV_inSlot s 3 a hl, rdV_inSlot s 3 b hl, elemV_el]
      rfl
  next => cases h

/-- Settles O7: every instruction merges what its element function gives, and each element function is the stated result. -/
theorem vectorElementsAndTests : Obligations.VectorElementsAndTests := ⟨vectorElementwise, vectorTests⟩

end Sys2Proof.Machine
end

section
/-! PROOFS. The opcode map (O55, O56): words of the spec decode as it says; slot 0 alone reads a word without one of its bits. -/

namespace Sys2Proof.Machine
open Sys2Proof Claims

/-- Settles O55: each word decodes by evaluation. -/
theorem wordsOfTheSpec : Obligations.WordsOfTheSpec := by
  unfold Obligations.WordsOfTheSpec
  decide

/-- BR to its own bundle with L, the bit 31 of slot 0, set (R38): the decoder of slot 0 does not look at that bit. -/
theorem decodeSlot_br_with_lit : decodeSlot 0 none 0x81000000 = .ok (.br 0 0) := by decide

theorem encode_br_zero : encode (.br 0 0) = some (0, 0x01000000, none) := by decide

/-- Refutes O56: slot 0 accepts 0x81000000, which has L set, as BR; the encoding of that BR is 0x01000000, so the bit is dropped. The statement applies `decodeSlot 0` to every word,
where a bundle applies it to slot 0 without its L bit (`ctlWord`). -/
theorem not_encodeDecode : ¬ Obligations.EncodeDecode := by
  rintro ⟨-, hword, -⟩
  obtain ⟨-, henc⟩ := hword 0 0x81000000 (.br 0 0) (by decide) decodeSlot_br_with_lit nofun
  rw [encode_br_zero] at henc
  exact absurd henc (by decide)

end Sys2Proof.Machine
end

section
/-! PROOFS. The issue of a bundle of one slot instruction, whichever it is: what its guard and its operands stop (O18), and what is left of it when its guard suppresses it (O19). -/

namespace Sys2Proof.Machine
open Sys2Proof Claims

variable {s : State} {i : Instr} {n : Nat}

/-! ## A slot instruction is an operation of its slot -/

/-- Inside a bundle a slot instruction is an operation of the slot that R47 to R52 give it. -/
theorem runInstr_slotOp (h : slotIndex i = some n) : ∃ eff, ∀ s, runInstr i s = slotOp n i eff s := by
  cases i <;> cases h <;> exact ⟨_, fun _ => rfl⟩

/-- Alone it is the same operation. -/
theorem exec_eq_runInstr (h : slotIndex i = some n) (s : State) : exec i s = runInstr i s := by
  cases i <;> cases h <;> rfl

theorem exec_slotOp (h : slotIndex i = some n) : ∃ eff, ∀ s, exec i s = slotOp n i eff s := by
  obtain ⟨eff, he⟩ := runInstr_slotOp h
  exact ⟨eff, fun s => (exec_eq_runInstr h s).trans (he s)⟩

/-- What stops its bundle is all that happens. -/
theorem exec_stopped {x : Stop} (h : slotIndex i = some n) (hi : s.issue = none) (hs : stopOf s [(n, i)] = some x) : exec i s = .next (stopIssue s x) := by
  obtain ⟨eff, he⟩ := exec_slotOp h
  rw [he, slotOp_stop s n i eff x hi hs]

/-! ## A register that is not FULL (R276, R283) -/

theorem stopIssue_park (s : State) (r : RegId) : stopIssue s (.park r) = parkedOn s (some r) := by
  simp [stopIssue, setMe, parkedOn]

/-- Outside loops a PENDING register stops its examiner by parking on it. -/
theorem examine_pending {r : RegId} (hc : Calm s) (h : (s.me.regs.get r).st = .pending) : examine s n r = some (.park r) := by
  simp [examine, look_closed s r hc.1 hc.2.1, h, rot, viewLoop_calm s hc, rotReg_idle]

/-- Outside loops a POISONED register stops its examiner by POISON_USE with its code. -/
theorem examine_poisoned {r : RegId} (hc : Calm s) (h : (s.me.regs.get r).st = .poisoned) :
    examine s n r = some (.trap .poisonUse (slotBit n) ((s.me.regs.get r).val.setWidth 16) ((regIdCode r).setWidth 64)) := by
  simp [examine, look_closed s r hc.1 hc.2.1, h, rot, viewLoop_calm s hc, rotReg_idle]

theorem examine_full {r : RegId} (hc : Calm s) (h : isFull s r) : examine s n r = none := by
  simp only [examine, look_closed s r hc.1 hc.2.1, h]

/-- Where the examination of a register decides whether the bundle issues, a PENDING one parks the strand on it and a POISONED one traps with its code. -/
theorem exec_not_ready {r : RegId} (hn : slotIndex i = some n) (hc : Calm s) (hs : ∀ x, examine s n r = some x → stopOf s [(n, i)] = some x) :
    ((s.me.regs.get r).st = .pending → exec i s = .next (parkedOn s (some r))) ∧
    ((s.me.regs.get r).st = .poisoned →
      exec i s = .next (takeTrap s .poisonUse (BitVec.ofNat 8 (2 ^ n)) ((s.me.regs.get r).val.setWidth 16) ((regIdCode r).setWidth 64))) := by
  refine ⟨fun h => ?_, fun h => ?_⟩
  · rw [exec_stopped hn hc.1 (hs _ (examine_pending hc h)), stopIssue_park]
  · exact exec_stopped hn hc.1 (hs _ (examine_poisoned hc h))

theorem bodyTrap_calm (hc : Calm s) (is : List (Nat × Instr)) : bodyTrap s is = none := by
  simp [bodyTrap, viewLoop_calm s hc]

/-- The guard is examined first (R276). -/
theorem stop_guard {x : Stop} (hc : Calm s) (h : examine s n (.p (guardOf i)) = some x) : stopOf s [(n, i)] = some x := by
  simp [stopOf, bodyTrap_calm hc, h]

/-- Behind a guard that is on, the operands are examined in order; nothing else stands between them here. -/
theorem stop_operand {x : Stop} {pre post : List RegId} {r : RegId} (hc : Calm s) (hg : GuardOn s i) (hb : beforeSources s i = none) (ha : afterSources s n i = none)
    (hr : readsOf i ++ examinedOf i = pre ++ r :: post) (hp : ∀ z ∈ pre, isFull s z) (hx : examine s n r = some x) : stopOf s [(n, i)] = some x := by
  refine stop_turn_some s n i x hc hg ?_
  have hpre : pre.findSome? (examine s n) = none := List.findSome?_eq_none_iff.mpr fun z hz => examine_full hc (hp z hz)
  have hops : ((readsOf i).findSome? (examine s n)).or ((examinedOf i).findSome? (examine s n)) = some x := by
    rw [← List.findSome?_append, hr, List.findSome?_append, hpre]
    simp [hx]
  simpa [slotTurn, hb, ha] using hops

/-- Settles O18: the first register that the parking order meets and that is not FULL is what stops the bundle. -/
theorem operandsNotReady : Obligations.OperandsNotReady := by
  intro s i n pre post r hn hc
  refine ⟨?_, fun hg hb ha hr hp => exec_not_ready hn hc fun x hx => stop_operand hc hg hb ha hr hp hx⟩
  rintro rfl
  exact exec_not_ready hn hc fun x hx => stop_guard hc hx

/-! ## A suppressed instruction (R41) -/

/-- In a calm strand a guard bit of 0 suppresses an instruction that its guard governs as a whole. -/
theorem suppressed_calm (hc : Calm s) (hw : wholeGuard i = true) (hg : (pVal s (guardOf i)).getLsbD 0 = false) : suppressedBy s i = true := by
  have h : (rdP s (guardOf i)).toNat.testBit 0 = false := by rwa [rdP, look_closed s _ hc.1 hc.2.1]
  simp only [suppressedBy, hw, h, Bool.not_false, Bool.and_self]

/-- So it does inside the bundle. -/
theorem suppressed_inSlot (hc : Calm s) (hw : wholeGuard i = true) (hg : (pVal s (guardOf i)).getLsbD 0 = false) : suppressedBy (inSlot s n) i = true := by
  have h : (rdP (inSlot s n) (guardOf i)).toNat.testBit 0 = false := by rwa [rdP_inSlot s n _ hc.2.1]
  simp only [suppressedBy, hw, h, Bool.not_false, Bool.and_self]

/-- A bundle without an unsuppressed slot needs no commit point before it. -/
theorem needsImplicit_nil (hc : Calm s) : needsImplicit s [] = false := by
  obtain ⟨-, -, -, -, -, -, -, hu, hg⟩ := hc
  simp only [needsImplicit, logFull, newlyLogged, List.flatMap_nil, List.filter_nil, List.dedup_nil, List.map_nil, List.sum_nil, List.any_nil, Bool.and_false, Bool.false_eq_true, if_false,
    Bool.or_eq_false_iff, decide_eq_false_iff_not, not_lt]
  omega

/-- Nothing stops the bundle of a suppressed instruction whose guard is FULL. -/
theorem stop_suppressed (hc : Calm s) (hf : isFull s (.p (guardOf i))) (hs : suppressedBy s i = true) : stopOf s [(n, i)] = none := by
  have hser : ¬ 1024 < s.me.serials.length + serialsNeeded s [] := by
    have : s.me.serials.length ≤ 1000 := hc.2.2.2.2.2.2.1
    simp only [serialsNeeded, List.map_nil, List.sum_nil]
    omega
  simp [stopOf, bodyTrap_calm hc, examine_full hc hf, hs, hser, needsImplicit_nil hc]

/-- A bundle in which no slot acts leaves everything but the place in the program. -/
theorem closeIssue_inSlot (hc : Calm s) (n : Nat) : (closeIssue (inSlot s n)).timers = s.timers ∧ RegFrame s (closeIssue (inSlot s n)) [] := by
  obtain ⟨p, r, cs, hcl, hcs⟩ := edit_closed s n id hc (fun _ => rfl) fun _ => rfl
  rw [show inSlot s n = setMe (inSlot s n) id from rfl, hcl]
  exact ⟨rfl, fun _ _ => rfl, ⟨rfl, fun _ => rfl⟩, ⟨rfl, hcs _ rfl, fun _ => rfl, fun _ => rfl⟩, rfl, rfl⟩

/-- Settles O19: the bundle of a suppressed instruction issues and closes as it opened. -/
theorem guardsOff : Obligations.GuardsOff := by
  intro s i hi hc hf hw hg
  obtain ⟨n, hn⟩ := Option.isSome_iff_exists.mp hi
  obtain ⟨eff, he⟩ := exec_slotOp hn
  refine ⟨_, ?_, closeIssue_inSlot hc n⟩
  rw [he, slotOp_issue s n i eff hc.1 (stop_suppressed hc hf (suppressed_calm hc hw hg)), if_pos (suppressed_inSlot hc hw hg)]

end Sys2Proof.Machine
end

section
/-! PROOFS. Branches and calls (O10): a taken branch changes where the bundle closes to, and when the context is ready. -/

namespace Sys2Proof.Machine
open Sys2Proof Claims

variable {s : State}

/-- A state whose strand at issue has branched: it stands at `a` and is not ready before `now`. -/
def branched (t : State) (now : Nat) (a : Word) : State := withMe t { t.me with npc := a, pc := a, notBefore := now }

/-- Closing a bundle that branches is closing the bundle, and then branching. -/
theorem closeIssue_takeBranch {u : State} {b : Issue} (hi : u.issue = some b) (hl : b.loop.active = false) (hc : u.me.closing = none) (ht : u.me.heldTrap = none) (a : Word) :
    closeIssue (takeBranch u a) = branched (closeIssue u) (u.clock + 3) a := by
  rw [closeIssue_plain (takeBranch u a) b hi hl hc ht, closeIssue_plain u b hi hl hc ht]
  rfl

/-- The frame of a bundle that branches, from that of the bundle. -/
theorem branched_kept {t : State} {rs : List RegId} (h : RegFrame s t rs) (now : Nat) (a : Word) :
    Kept (withMe s { s.me with notBefore := now }) (branched t now a) rs ∧ (branched t now a).me.pc = a ∧ (branched t now a).me.st = .running := by
  obtain ⟨hregs, ⟨hme, hq⟩, ⟨hrest, hcores, hhbm, hnear⟩, -, hst⟩ := h
  refine ⟨⟨hregs, ⟨?_, hq⟩, ?_, hcores, hhbm, hnear⟩, rfl, hst⟩
  · rw [branched, withMe, hme]
  · rw [branched, withMe, hrest]

/-- A result changes neither the open bundle nor its commit point or trap. -/
theorem produce_open (hc : Calm s) (n : Nat) (r : RegId) (lat : Nat) (x : Payload) :
    (produce (inSlot s n) r lat x).issue = some ⟨s.me.regs, s.me.h, s.me.loop, n⟩ ∧ (produce (inSlot s n) r lat x).me.closing = none ∧ (produce (inSlot s n) r lat x).me.heldTrap = none ∧
      (produce (inSlot s n) r lat x).clock = s.clock := by
  obtain ⟨-, hl, hcl, ht, -, -, hser, -⟩ := hc
  obtain ⟨p, rd, cs, rg, lg, qq, sr, g, e, -⟩ := obligate_inSlot s n r false hl hser
  unfold produce
  simp only [e]
  cases g <;> exact ⟨rfl, hcl, ht, rfl⟩

/-- What a branch or call does inside its bundle: the return address is saved first. -/
theorem branch_effect {i : Instr} {a : Word} {link : Bool} (h : branch s i = some (a, link)) (hr : Ready s i) :
    exec i s = .next (closeIssue (takeBranch (if link then saveReturn (inSlot s 0) else inSlot s 0) a)) := by
  have hcb (o : BitVec 20) : s.me.pc + BitVec.ofInt 64 (32 * o.toInt) = cbTarget (inSlot s 0) o := by rw [cbTarget, inSlot_pc]
  have hreg (b : BitVec 6) : sVal s b &&& ~~~(31 : Word) = regTarget (inSlot s 0) b := by rw [regTarget, rdS_inSlot s 0 b hr.1.2.1]
  unfold branch at h
  split at h <;> cases h
  · rw [hcb]; exact effect_operandsOnly s 0 _ _ hr rfl
  · rw [hcb]; exact effect_operandsOnly s 0 _ _ hr rfl
  · rw [hreg]; exact effect_operandsOnly s 0 _ _ hr rfl
  · rw [hreg]; exact effect_operandsOnly s 0 _ _ hr rfl

theorem branch_plain {i : Instr} {a : Word} (h : branch s i = some (a, false)) (hr : Ready s i) :
    ∃ t, exec i s = .next t ∧ Kept (withMe s { s.me with notBefore := s.clock + 3 }) t [] ∧ t.me.pc = a ∧ t.me.st = .running ∧ t.timers = s.timers := by
  obtain ⟨p, r, cs, e, -⟩ := inSlot_shape s 0
  obtain ⟨-, hl, hcl, ht, -⟩ := hr.1
  obtain ⟨htimers, hframe⟩ := closeIssue_inSlot hr.1 0
  obtain ⟨hkept, hpc, hst⟩ := branched_kept hframe (s.clock + 3) a
  refine ⟨_, ?_, hkept, hpc, hst, htimers⟩
  rw [branch_effect h hr, if_neg Bool.false_ne_true, closeIssue_takeBranch (u := inSlot s 0) rfl hl (by rw [e]; exact hcl) (by rw [e]; exact ht)]
  rfl

theorem branch_link {i : Instr} {a : Word} (h : branch s i = some (a, true)) (hr : Ready s i) :
    ∃ t, exec i s = .next t ∧ Kept (withMe s { s.me with notBefore := s.clock + 3 }) t [.s 47] ∧ t.me.pc = a ∧ t.me.st = .running ∧
      DeliversIn s t (.s 47) 1 (.value ((s.me.pc + 32).setWidth 1024)) := by
  obtain ⟨hi, hcl, ht, hck⟩ := produce_open hr.1 0 (.s 47) 1 (.value ((s.me.pc + 32).setWidth 1024))
  obtain ⟨hdel, hframe⟩ := produce_closed s 0 (.s 47) 1 (.value ((s.me.pc + 32).setWidth 1024)) hr.1
  obtain ⟨hkept, hpc, hst⟩ := branched_kept hframe (s.clock + 3) a
  refine ⟨_, ?_, hkept, hpc, hst, hdel⟩
  have hsave : saveReturn (inSlot s 0) = produce (inSlot s 0) (.s 47) 1 (.value ((s.me.pc + 32).setWidth 1024)) := by rw [saveReturn, produceS, inSlot_pc]
  rw [branch_effect h hr, if_pos rfl, hsave, closeIssue_takeBranch hi hr.1.2.1 hcl ht, hck]

/-- Settles O10: NOP closes its bundle as it opened; a branch redirects the closing, after the return address where it links. -/
theorem branches : Obligations.Branches := by
  refine fun s => ⟨fun hr => ⟨_, effect_operandsOnly s 0 .nop id hr rfl, closeIssue_inSlot hr.1 0⟩, fun i a link h hr => ?_⟩
  cases link with
  | false => exact branch_plain h hr
  | true => exact branch_link h hr

end Sys2Proof.Machine
end

section
/-! PROOFS. O37 fails: the perform phase places a byte of a gated line by its address, and no hypothesis says that the line's address is the first of 64. -/

namespace Sys2Proof.Machine
open Sys2Proof Claims

/-- A gated line that starts at address 1: its byte 0, which is 7, has address 1. -/
def oddLine : GatedLine := ⟨1, 1, 7⟩

/-- A commit point in its perform phase, with that line reserved at HBM address 0. -/
def oddClosing : Closing := { Closing.start with phase := .perform, lines := [(oddLine, 0, none)] }

/-- A parked strand with that commit point; HBM is empty. -/
def oddWindow : State := { State.reset with me := { Strand.none with gid := 1, st := .parked, closing := some oddClosing }, gangs := [fetchGang] }

/-- The perform phase writes byte 0 of the line at HBM address 1, since its own address is 1 modulo 64. -/
theorem oddWindow_performs : hbmByte (outState oddWindow (exec (.windowPerform oddWindow.me.sid) oddWindow)) (asidOf oddWindow oddWindow.me) 0 = 0 := by decide +kernel

/-- Refutes O37: the clause on the perform phase of `Claims.CommitPhases` asks for byte j of a gated line at offset j of the place reserved for it, where its hypotheses put only the place at
a multiple of 64 (R212 gates whole lines); in `oddWindow` the line itself starts at address 1, and `applyLine` puts its byte 0 at offset 1. -/
theorem not_windowPhases : ¬ Obligations.WindowPhases := by
  rintro ⟨hphases, -⟩
  obtain ⟨-, -, hperform, -⟩ := hphases oddWindow oddClosing fetchGang rfl rfl rfl rfl
  obtain ⟨t, e, -, -, -, -, -, -, -, -, -, -, hbytes, -⟩ := hperform rfl rfl rfl rfl rfl rfl rfl rfl rfl (by decide) (by decide) rfl
  have h0 := hbytes (oddLine, 0, none) List.mem_cons_self 0 (by decide)
  rw [if_pos (by decide)] at h0
  have hrun := oddWindow_performs
  rw [e] at hrun
  exact absurd (hrun.symm.trans h0) (by decide +kernel)

end Sys2Proof.Machine
end

section
/-! PROOFS. Encode, then decode (R36, R38 to R54): every well-formed instruction of a slot is read back from its word. -/

namespace Sys2Proof.Machine
open Sys2Proof Claims

variable {i : Instr}

/-! ## Fields of a word -/

/-- A field that lies in the last part of a word is a field of that part. -/
theorem extract_within {v w lo n : Nat} (x : BitVec v) (y : BitVec w) (h : lo + n ≤ w) : (BitVec.append x y).extractLsb' lo n = y.extractLsb' lo n :=
  BitVec.extractLsb'_append_eq_of_add_le h

/-- A field above the last part of a word is a field of what stands before it. -/
theorem extract_above {v w lo n : Nat} (x : BitVec v) (y : BitVec w) (h : w ≤ lo) : (BitVec.append x y).extractLsb' lo n = x.extractLsb' (lo - w) n :=
  BitVec.extractLsb'_append_eq_of_le h

/-! ## Codes of operands -/

@[simp] theorem tyOf_code (t : Ty) : tyOf t.code = some t := by cases t <;> rfl
@[simp] theorem szOf_szCode (z : Sz) : szOf (szCode z) = z := by cases z <;> rfl
@[simp] theorem w2Of_w2Code (w : W2) : w2Of (w2Code w) = some w := by cases w <;> rfl
@[simp] theorem atSz_atSzCode (w : W2) : atSz (atSzCode w) = w := by cases w <;> rfl
@[simp] theorem atomOf_atomCode (o : AtomF) : atomOf (atomCode o) = o := by cases o <;> rfl
@[simp] theorem scatOf_scatCode (o : ScatF) : scatOf (scatCode o) = o := by cases o <;> rfl
@[simp] theorem fileOf_fileCode (f : RFile) : Sys2Proof.fileOf (fileCode f) = some f := by cases f <;> rfl
@[simp] theorem scopeOf_scopeCode (f : Scope) : scopeOf (scopeCode f) = some f := by cases f <;> rfl

/-! A condition, a division or a reduction stands in a field of more bits than its code needs. -/

@[simp] theorem cmpOf_code4 (c : CmpC) : cmpOf (cmpCode c % 16) = some c := by cases c <;> rfl
@[simp] theorem cmpOf_code3 (c : CmpC) : cmpOf (cmpCode c % 8) = some c := by cases c <;> rfl
@[simp] theorem divOf_code4 (f : DivF) : divOf (divCode f % 16) = some f := by cases f <;> rfl
@[simp] theorem redOf_code3 (f : RedF) : redOf (redCode f % 8) = some f := by cases f <;> rfl

@[simp] theorem fn1_le_one (b : Bool) : (fn1 b).toNat ≤ 1 := by cases b <;> decide
@[simp] theorem fn1_eq_one (b : Bool) : ((fn1 b).toNat == 1) = b := by cases b <;> rfl

@[simp] theorem sIdOf_sId (a : BitVec 6) : sIdOf (sId a) = some a := by revert a; decide
@[simp] theorem pIdOf_code (a : BitVec 4) : pIdOf (regIdCode (.p a)) = some a := by revert a; decide
@[simp] theorem p6Of_setWidth (d : BitVec 4) : p6Of (d.setWidth 6) = some d := by revert d; decide
@[simp] theorem p5Of_setWidth (d : BitVec 4) : p5Of (d.setWidth 5) = some d := by revert d; decide
@[simp] theorem v6Of_setWidth (d : BitVec 5) : v6Of (d.setWidth 6) = some d := by revert d; decide

@[simp] theorem regIdOf_code (r : RegId) : regIdOf (regIdCode r) = some r := by
  cases r with
  | s a => revert a; decide
  | v a => revert a; decide
  | p a => revert a; decide

@[simp] theorem sysRegOf_code (n : SysReg) : sysRegOf (sysRegCode n) = some n := by
  cases n with
  | perf k => revert k; decide
  | perfsel k => revert k; decide
  | _ => rfl

/-- The type of VCVT's source stands in a field of 5 bits, the first of them 0. -/
@[simp] theorem code_low (t : Ty) : BitVec.extractLsb' 0 4 (BitVec.setWidth 5 t.code) = t.code := by cases t <;> rfl
@[simp] theorem code_high (t : Ty) : BitVec.extractLsb' 4 1 (BitVec.setWidth 5 t.code) = 0#1 := by cases t <;> rfl

/-- A shift by a constant below 32 leaves bit 5 of the count 0 (R48). -/
theorem small_count (c : BitVec 6) (h : c.toNat < 32) : BitVec.extractLsb' 5 1 c = 0#1 := by revert h; revert c; decide

/-! ## The slots, one by one -/

/-- Slot 0 (R47). -/
theorem decodeCtl_encode (h : slotIndex i = some 0) (hw : wellFormed i = true) : ∃ w, encode i = some (0, w, none) ∧ decodeCtl w = .ok i := by
  cases i <;> cases h
  all_goals refine ⟨_, rfl, ?_⟩
  all_goals simp [-BitVec.append_eq, decodeCtl, encCtl, encCr, fld, HAppend.hAppend, extract_within, extract_above, req, ifOk]
  case sets.refl => exact hw
  case pset.refl w _ _ => cases w <;> rfl

/-- Slots 1 and 2, the literal beside the word (R43, R48). -/
theorem decodeScalar_encode (h : slotIndex i = some 1) (hw : wellFormed i = true) : ∃ w x, encode i = some (1, w, x) ∧ decodeScalar false x w = .ok i := by
  cases i <;> cases h
  any_goals (rename Src2 => b; cases b)
  any_goals (rename ImmW => m; cases m)
  all_goals refine ⟨_, _, rfl, ?_⟩
  all_goals simp [-BitVec.append_eq, decodeScalar, encSlot, src2Enc, fld, HAppend.hAppend, extract_within, extract_above, req]
  any_goals (rename MulhF => f; cases f <;> rfl)
  any_goals (rename LogF => f; cases f <;> rfl)
  any_goals (rename MinMaxF => f; cases f <;> rfl)
  any_goals (rename BitcF => f; cases f <;> rfl)
  any_goals (rename FopF => f; cases f <;> rfl)
  any_goals (rename FcmpF => f; cases f <;> rfl)
  any_goals (rename FcvtF => f; cases f <;> rfl)
  case shi.refl w k c =>
    have hc : w ≠ .w64 → BitVec.extractLsb' 5 1 c = 0#1 := fun h => small_count c (by simpa [wellFormed, h] using hw)
    rw [if_neg (fun h => h.2 (hc h.1))]
    cases w <;> cases k <;> rfl
  all_goals (rename Bool => f; cases f <;> rfl)

/-- Slot 3 (R49). -/
theorem decodeVec_encode (h : slotIndex i = some 3) (hw : wellFormed i = true) : ∃ w, encode i = some (3, w, none) ∧ decodeVec w = .ok i := by
  cases i <;> cases h
  all_goals refine ⟨_, rfl, ?_⟩
  all_goals simp [-BitVec.append_eq, decodeVec, encSlot, encV, fld, HAppend.hAppend, extract_within, extract_above, req, ifOk, hw]
  case vcmp.refl c => cases c <;> exact if_pos hw
  case vcvt.refl nan r => cases r <;> cases nan <;> exact if_pos hw
  case vfun.refl f => cases f <;> rfl

/-- Slot 4 (R50). -/
theorem decodeArr_encode (h : slotIndex i = some 4) : ∃ w, encode i = some (4, w, none) ∧ decodeArr w = .ok i := by
  cases i <;> cases h
  all_goals refine ⟨_, rfl, ?_⟩
  all_goals simp [-BitVec.append_eq, decodeArr, encSlot, encAr, fld, HAppend.hAppend, extract_within, extract_above, req, ifOk]
  case aprog.refl x _ _ _ => omega
  all_goals rfl

/-- Slot 5 (R51). -/
theorem decodeNear_encode (h : slotIndex i = some 5) (hw : wellFormed i = true) : ∃ w, encode i = some (5, w, none) ∧ decodeNear w = .ok i := by
  cases i <;> cases h
  all_goals refine ⟨_, rfl, ?_⟩
  all_goals simp [-BitVec.append_eq, decodeNear, encSlot, encM, encG, encAt, fld, HAppend.hAppend, extract_within, extract_above, req, ifOk, hw]

/-- Slot 6 (R51). -/
theorem decodeFar_encode (h : slotIndex i = some 6) (hw : wellFormed i = true) : ∃ w, encode i = some (6, w, none) ∧ decodeFar w = .ok i := by
  cases i <;> cases h
  all_goals refine ⟨_, rfl, ?_⟩
  all_goals simp [-BitVec.append_eq, decodeFar, encSlot, encM, encG, encAt, fld, HAppend.hAppend, extract_within, extract_above, req, ifOk, hw]
  rfl

/-- Slot 7 (R52). -/
theorem decodeXfer_encode (h : slotIndex i = some 7) (hw : wellFormed i = true) : ∃ w, encode i = some (7, w, none) ∧ decodeXfer w = .ok i := by
  cases i <;> cases h
  all_goals refine ⟨_, rfl, ?_⟩
  all_goals simp [-BitVec.append_eq, decodeXfer, encSlot, encAr, encXc, fld, HAppend.hAppend, extract_within, extract_above, ifOk]
  case xstat.refl => exact of_decide_eq_true hw

end Sys2Proof.Machine
end

section
/-! PROOFS. A bundle of one instruction (R36, R40, R42): its bytes, its slots, and that it is legal (R56, R57). -/

namespace Sys2Proof.Machine
open Sys2Proof Claims

variable {i : Instr} {n : Nat} {w : Half} {x : Option Half}

/-! ## The slot of a word -/

theorem slotIndex_of_encode (h : encode i = some (n, w, x)) : slotIndex i = some n := by
  cases i
  case movi m => cases m <;> cases h <;> rfl
  all_goals cases h <;> rfl

/-- The slots of instructions: a scalar instruction is given in slot 1. -/
theorem slotIndex_cases (h : slotIndex i = some n) : n = 0 ∨ n = 1 ∨ n = 3 ∨ n = 4 ∨ n = 5 ∨ n = 6 ∨ n = 7 := by
  cases i <;> cases h <;> decide

/-- Only a scalar instruction has a literal (R43). -/
theorem encode_lit_none (h : encode i = some (n, w, x)) (hn : n ≠ 1) : x = none := by
  cases i
  case movi m => cases m <;> cases h <;> simp at hn
  all_goals cases h <;> simp at hn ⊢

/-- A word of slot 0 is a frame of R38. -/
theorem encode_ctl (h : encode i = some (0, w, x)) : ∃ opc g ops, w = encCtl opc g ops := by
  cases i
  case movi m => cases m <;> cases h
  all_goals cases h
  case nop.refl => exact ⟨0, 0, 0, rfl⟩
  all_goals exact ⟨_, _, _, rfl⟩

/-- The first two bits of that frame, the L bit and bit 30, are zero (R38). -/
theorem encCtl_small (opc : Nat) (g : BitVec 4) (ops : BitVec 20) : (encCtl opc g ops).toNat < 2 ^ 30 := by
  have h : (encCtl opc g ops).extractLsb' 30 2 = 0#2 := by simp [-BitVec.append_eq, encCtl, HAppend.hAppend, extract_above]
  have ht := congrArg BitVec.toNat h
  simp only [BitVec.extractLsb'_toNat, Nat.shiftRight_eq_div_pow] at ht
  have hw := (encCtl opc g ops).isLt
  simp at ht
  omega

theorem encode_ctl_small (h : encode i = some (0, w, x)) : w.toNat < 2 ^ 30 := by
  obtain ⟨opc, g, ops, rfl⟩ := encode_ctl h
  exact encCtl_small opc g ops

theorem noLit_of_small (h : w.toNat < 2 ^ 30) : fld w 31 1 = 0 := by
  apply BitVec.eq_of_toNat_eq
  simp [fld, BitVec.extractLsb'_toNat, Nat.shiftRight_eq_div_pow]
  omega

theorem ctlWord_toNat (w : Half) : (ctlWord w).toNat = w.toNat % 2 ^ 31 := by
  change ((0 : BitVec 1) ++ w.extractLsb' 0 31).toNat = _
  rw [BitVec.toNat_append]
  simp

theorem ctlWord_of_small (h : w.toNat < 2 ^ 30) : ctlWord w = w := by
  apply BitVec.eq_of_toNat_eq
  rw [ctlWord_toNat]
  omega

theorem bit30_of_small (h : w.toNat < 2 ^ 30) : w &&& ~~~(0x40000000 : Half) = w := by
  have h30 : w.getLsbD 30 = false := Nat.testBit_lt_two_pow h
  have ho : (0x40000000 : Half) = BitVec.twoPow 32 30 := rfl
  rw [ho]
  refine BitVec.eq_of_getLsbD_eq fun k hk => ?_
  by_cases e : k = 30
  · subst e; simpa using h30
  · simp [hk, e]

theorem decodeSlot_encode (hw : wellFormed i = true) (h : encode i = some (n, w, x)) : decodeSlot n x w = .ok i := by
  have hi := slotIndex_of_encode h
  rcases slotIndex_cases hi with rfl | rfl | rfl | rfl | rfl | rfl | rfl
  · obtain ⟨_, he, hd⟩ := decodeCtl_encode hi hw
    cases he.symm.trans h; exact hd
  · obtain ⟨_, _, he, hd⟩ := decodeScalar_encode hi hw
    cases he.symm.trans h; exact hd
  · obtain ⟨_, he, hd⟩ := decodeVec_encode hi hw
    cases he.symm.trans h; exact hd
  · obtain ⟨_, he, hd⟩ := decodeArr_encode hi
    cases he.symm.trans h; exact hd
  · obtain ⟨_, he, hd⟩ := decodeNear_encode hi hw
    cases he.symm.trans h; exact hd
  · obtain ⟨_, he, hd⟩ := decodeFar_encode hi hw
    cases he.symm.trans h; exact hd
  · obtain ⟨_, he, hd⟩ := decodeXfer_encode hi hw
    cases he.symm.trans h; exact hd

/-! ## The bytes of a bundle (R36) -/

theorem leNat_leBytes (k y : Nat) : leNat (leBytes k y) = y % 256 ^ k := by
  induction k generalizing y with
  | zero => simp [leBytes, leNat, Nat.mod_one]
  | succ k ih => simp [leBytes, leNat, ih, pow_succ', Nat.mod_mul]

theorem word_leBytes (w : Half) : BitVec.ofNat 32 (leNat (leBytes 4 w.toNat)) = w := by
  rw [leNat_leBytes, Nat.mod_eq_of_lt (by simpa using w.isLt)]
  simp

theorem bundleWords_bundleBytes (b : BundleWords) : bundleWords (bundleBytes b) = b := by
  obtain ⟨⟨l⟩, hl⟩ := b
  match l, hl with
  | [b0, b1, b2, b3, b4, b5, b6, b7], _ =>
    refine Vector.ext fun k hk => ?_
    have word (w : Half) : BitVec.ofNat 32 (leNat [BitVec.ofNat 8 w.toNat, BitVec.ofNat 8 (w.toNat / 256), BitVec.ofNat 8 (w.toNat / 256 / 256), BitVec.ofNat 8 (w.toNat / 256 / 256 / 256)]) = w := word_leBytes w
    match k, hk with
    | 0, _ => exact word b0
    | 1, _ => exact word b1
    | 2, _ => exact word b2
    | 3, _ => exact word b3
    | 4, _ => exact word b4
    | 5, _ => exact word b5
    | 6, _ => exact word b6
    | 7, _ => exact word b7

/-! ## The slots of a bundle -/

/-- The slots of the bundle that holds one instruction: that one, and NOPs (R40, R43). -/
def oneSlot (n : Nat) (i : Instr) : List Dec := (List.replicate 8 (.ok .nop)).set n (.ok i)

/-! A word of zeros is NOP (R40), and the word that holds the L bit alone is NOP beside a literal (R38). -/

@[simp] theorem fld_zero_lit : fld 0#32 31 1 = 0#1 := by decide
@[simp] theorem fld_lit : fld 2147483648#32 31 1 = 1#1 := by decide
@[simp] theorem ctlWord_zero : ctlWord 0#32 = 0#32 := by decide
@[simp] theorem ctlWord_lit : ctlWord 2147483648#32 = 0#32 := by decide
@[simp] theorem decodeCtl_zero : decodeCtl 0#32 = .ok .nop := by decide
@[simp] theorem decodeScalar_zero (two : Bool) : decodeScalar two none 0#32 = .ok .nop := by revert two; decide
@[simp] theorem decodeVec_zero : decodeVec 0#32 = .ok .nop := by decide
@[simp] theorem decodeArr_zero : decodeArr 0#32 = .ok .nop := by decide
@[simp] theorem decodeNear_zero : decodeNear 0#32 = .ok .nop := by decide
@[simp] theorem decodeFar_zero : decodeFar 0#32 = .ok .nop := by decide
@[simp] theorem decodeXfer_zero : decodeXfer 0#32 = .ok .nop := by decide

theorem decodeBundle_encode (hw : wellFormed i = true) (h : encode i = some (n, w, x)) : decodeBundle (encodeBundle n w x) = oneSlot n i := by
  have hd := decodeSlot_encode hw h
  have hx := encode_lit_none h
  rcases slotIndex_cases (slotIndex_of_encode h) with rfl | rfl | rfl | rfl | rfl | rfl | rfl
  case inl =>
    obtain rfl := hx (by decide)
    have hs := encode_ctl_small h
    simp only [decodeSlot] at hd
    simp [decodeBundle, hasLit, encodeBundle, oneSlot, noLit_of_small hs, ctlWord_of_small hs, hd]
  case inr.inl =>
    cases x <;> simp only [decodeSlot] at hd <;> simp [decodeBundle, hasLit, encodeBundle, oneSlot, hd]
  all_goals
    obtain rfl := hx (by decide)
    simp only [decodeSlot] at hd
    simp [decodeBundle, hasLit, encodeBundle, oneSlot, hd]

/-! ## It is legal (R55 to R57) -/

theorem slotInstrs_encode (hw : wellFormed i = true) (h : encode i = some (n, w, x)) (hi : i ≠ .nop) : slotInstrs (encodeBundle n w x) = [(n, i)] := by
  rw [slotInstrs, decodeBundle_encode hw h]
  rcases slotIndex_cases (slotIndex_of_encode h) with rfl | rfl | rfl | rfl | rfl | rfl | rfl <;> simp [oneSlot, hi]

theorem bitsOf_toNat (w : Half) (lo k : Nat) : bitsOf w.toNat lo k = (w.extractLsb' lo k).toNat := by simp [bitsOf]

theorem encSlot_opcode (opc : Nat) (g : BitVec 4) (ops : BitVec 22) : (encSlot opc g ops).toNat >>> 26 = opc % 64 := by
  have h : (encSlot opc g ops).extractLsb' 26 6 = BitVec.ofNat 6 opc := by simp [-BitVec.append_eq, encSlot, HAppend.hAppend, extract_above]
  have ht := congrArg BitVec.toNat h
  have hw := (encSlot opc g ops).isLt
  simp only [BitVec.extractLsb'_toNat, BitVec.toNat_ofNat, Nat.shiftRight_eq_div_pow] at ht ⊢
  omega

/-- The field that a literal replaces is zero: the second source, or the constant of MOVI and MOVHI (R43, R48). -/
theorem encSlot_lit_field (opc : Nat) (g : BitVec 4) (d a : BitVec 6) (y : Half) (f : BitVec 4) : bitsOf (encSlot opc g (d ++ a ++ (src2Enc (.lit y)).1 ++ f)).toNat 4 6 = 0 := by
  rw [bitsOf_toNat]
  simp [-BitVec.append_eq, encSlot, src2Enc, HAppend.hAppend, extract_within, extract_above]

theorem encSlot_const_field (opc : Nat) (g : BitVec 4) (d : BitVec 6) : bitsOf (encSlot opc g (d ++ 0#16)).toNat 0 16 = 0 := by
  rw [bitsOf_toNat]
  simp [-BitVec.append_eq, encSlot, HAppend.hAppend, extract_within]

theorem lit_used {y : Half} (h : encode i = some (1, w, some y)) : litMisused w = false := by
  cases i
  case movi m => cases m <;> cases h; simp [litMisused, encSlot_opcode, encSlot_const_field]
  case movhiW => cases h; simp [litMisused, encSlot_opcode, encSlot_const_field]
  any_goals (rename Src2 => b; cases b)
  all_goals cases h
  all_goals simp [litMisused, encSlot_opcode, encSlot_lit_field]

theorem src2Reg_length (b : Src2) : (src2Reg b).length ≤ 1 := by cases b <;> simp [src2Reg]

theorem readsOf_length (i : Instr) : (readsOf i).length ≤ 4 := by
  cases i <;> simp [readsOf, upto]
  case vcvt s t nan r => split <;> split <;> simp
  case vbcast x => split <;> simp
  case fop b f =>
    have := src2Reg_length b
    split <;> simp <;> omega
  all_goals
    rename Src2 => b
    have := src2Reg_length b
    omega

theorem portOnly_length (i : Instr) : (portOnly i).length ≤ 1 := by cases i <;> simp [portOnly]

/-- One instruction has at most 6 read ports and 2 write ports (R55). -/
theorem readPorts_length (i : Instr) : (readPorts i).length ≤ 6 := by
  unfold readPorts
  split
  · simp
  · refine (List.length_filter_le _ _).trans ?_
    have := readsOf_length i
    have := portOnly_length i
    simp only [List.length_cons, List.length_append]
    omega

theorem writePorts_length (i : Instr) : (writePorts i).length ≤ 2 := (List.length_filter_le _ _).trans (destsOf_length i)

/-- One slot alone exceeds no budget that covers its ports. -/
theorem overPorts_one (f : RFile) {limit : Nat} {ports : List RegId} (n : Nat) (h : ports.length ≤ limit) : overPorts f limit [(n, ports)] = [] := by
  have hf := List.length_filter_le (fun r => fileOf r == f) ports
  simp [overPorts]
  omega

theorem doubleWrites_one (n : Nat) (i : Instr) : doubleWrites [(n, i)] = [] := by simp [doubleWrites]

theorem lit_encode (h : encode i = some (n, w, x)) : (hasLit (encodeBundle n w x) && litMisused (encodeBundle n w x)[1]) = false := by
  cases x with
  | none =>
    rcases slotIndex_cases (slotIndex_of_encode h) with rfl | rfl | rfl | rfl | rfl | rfl | rfl
    case inl => simp [hasLit, encodeBundle, noLit_of_small (encode_ctl_small h)]
    all_goals simp [hasLit, encodeBundle]
  | some y =>
    obtain rfl : n = 1 := by_contra fun hn => Option.some_ne_none y (encode_lit_none h hn)
    simp [encodeBundle, lit_used h]

/-- Slot 0 of the bundle, its bit 30 aside (R57). -/
theorem ctl_encode (hw : wellFormed i = true) (h : encode i = some (n, w, x)) :
    decodeCtl (ctlWord (encodeBundle n w x)[0] &&& ~~~(0x40000000 : Half)) = .ok (if n = 0 then i else .nop) := by
  rcases slotIndex_cases (slotIndex_of_encode h) with rfl | rfl | rfl | rfl | rfl | rfl | rfl
  case inl =>
    obtain rfl := encode_lit_none h (by decide)
    have hs := encode_ctl_small h
    rw [show (encodeBundle 0 w none)[0] = w by simp [encodeBundle], ctlWord_of_small hs, bit30_of_small hs]
    exact decodeSlot_encode hw h
  all_goals cases x <;> simp [encodeBundle]

theorem countedInstrs_encode (hw : wellFormed i = true) (h : encode i = some (n, w, x)) (hi : i ≠ .nop) : countedInstrs (encodeBundle n w x) = [(n, i)] := by
  simp only [countedInstrs, ctl_encode hw h, slotInstrs_encode hw h hi, lit_encode h, Bool.and_assoc]
  by_cases hn : n = 0 <;> simp [hn, hi]

theorem illegalMask_encode (hw : wellFormed i = true) (h : encode i = some (n, w, x)) (hi : i ≠ .nop) : illegalMask (encodeBundle n w x) = 0 := by
  have hr := readPorts_length i
  have hs := writePorts_length i
  simp only [illegalMask, countedInstrs_encode hw h hi, decodeBundle_encode hw h, lit_encode h, List.map_cons, List.map_nil, doubleWrites_one, overPorts_one _ _ (hr.trans (by decide : 6 ≤ 12)),
    overPorts_one _ _ hr, overPorts_one _ _ (hr.trans (by decide : 6 ≤ 8)), overPorts_one _ _ (hs.trans (by decide : 2 ≤ 6)), overPorts_one _ _ (hs.trans (by decide : 2 ≤ 3)), overPorts_one _ _ (hs.trans (by decide : 2 ≤ 4))]
  rcases slotIndex_cases (slotIndex_of_encode h) with rfl | rfl | rfl | rfl | rfl | rfl | rfl <;> rfl

/-! ## Its issue (R42) -/

theorem fillLoopBuf_idle {s : State} (bs : List Byte) (h : s.me.loop.active = false) : fillLoopBuf s bs = s := by simp [fillLoopBuf, h]

/-- Inside the bundle at issue, an instruction as a slot's operation is the effect it has. -/
theorem runSlot_asOp {s : State} {eff : State → State} (he : ∀ s, runInstr i s = slotOp n i eff s) : runSlot s (asOp (n, i)) = runSlot s ⟨n, i, eff⟩ := by
  unfold runSlot
  cases hs : s.issue with
  | none => rfl
  | some _ => simp only [asOp, he, slotOp, outState]; split <;> simp_all

/-- A bundle that holds one instruction is that instruction. -/
theorem issueOps_asOp {s : State} (h : slotIndex i = some n) (hs : s.issue = none) : .next (issueOps [asOp (n, i)] s) = exec i s := by
  obtain ⟨eff, he⟩ := runInstr_slotOp h
  have hrun (t : State) : (inTurn [asOp (n, i)]).foldl runSlot t = (inTurn [⟨n, i, eff⟩]).foldl runSlot t := by
    cases ha : actsLast i <;> simp [inTurn, asOp, ha, ← runSlot_asOp he]
  rw [exec_eq_runInstr h, he]
  simp only [slotOp, hs, issueOps, hrun]
  rfl

theorem issueBytes_encode {s : State} (hw : wellFormed i = true) (h : encode i = some (n, w, x)) (hi : i ≠ .nop) (hl : s.me.loop.active = false) (hs : s.issue = none) :
    .next (issueBytes s (bundleBytes (encodeBundle n w x))) = exec i s := by
  have hb : bundleOf (bundleBytes (encodeBundle n w x)) = encodeBundle n w x := bundleWords_bundleBytes _
  simp only [issueBytes, hb, illegalMask_encode hw h hi, slotInstrs_encode hw h hi, fillLoopBuf_idle _ hl]
  exact issueOps_asOp (slotIndex_of_encode h) hs

end Sys2Proof.Machine
end

section
/-! PROOFS. What a step runs (R42, R434, log 7): the order of events, and the bundle that holds one instruction. -/

namespace Sys2Proof.Machine
open Sys2Proof Claims

variable {s : State} {i : Instr} {n : Nat} {w : Half} {x : Option Half}

/-! ## The first event that may run -/

theorem takeDue_none {p : Timer → Bool} {l : List Timer} (h : ∀ t ∈ l, p t = false) : takeDue p l = none := by
  induction l with
  | nil => rfl
  | cons t ts ih => simp [takeDue, h t, ih fun u hu => h u (.tail _ hu)]

theorem takeDue_first {p : Timer → Bool} {pre ts : List Timer} {e : Timer} (hpre : ∀ t ∈ pre, p t = false) (he : p e = true) : takeDue p (pre ++ e :: ts) = some (e.ev, pre ++ ts) := by
  induction pre with
  | nil => simp [takeDue, he]
  | cons t pre ih => simp [takeDue, hpre t, ih fun u hu => hpre u (.tail _ hu)]

theorem dueInstr_none {p : Timer → Bool} (h : ∀ t ∈ s.timers, p t = false) : dueInstr s p = none := by simp [dueInstr, takeDue_none h]

theorem dueInstr_first {p : Timer → Bool} {pre ts : List Timer} {e : Timer} (hs : s.timers = pre ++ e :: ts) (hpre : ∀ t ∈ pre, p t = false) (he : p e = true) :
    dueInstr s p = some (e.ev, { s with timers := pre ++ ts }) := by simp [dueInstr, hs, takeDue_first hpre he]

/-- Due in this ck, and not at its end. -/
def dueNow (s : State) (t : Timer) : Bool := decide (t.due ≤ s.clock) && !endOfCk t.ev

theorem dueNow_false {t : Timer} : dueNow s t = false ↔ s.clock < t.due ∨ endOfCk t.ev = true := by
  simp [dueNow, imp_iff_not_or]

/-! ## What comes next, case by case -/

theorem step_of_next {t : State} (h : nextInstr s = some (i, t)) : step s = exec i t := by simp only [step, h]

theorem nextInstr_inbox {is : List Instr} (h : s.inbox = i :: is) : nextInstr s = some (i, { s with inbox := is }) := by simp only [nextInstr, h]

theorem nextInstr_due {pre ts : List Timer} {e : Timer} (h : s.inbox = []) (hs : s.timers = pre ++ e :: ts) (hpre : ∀ t ∈ pre, dueNow s t = false) (he : dueNow s e = true) :
    nextInstr s = some (e.ev, { s with timers := pre ++ ts }) := by
  have hd : dueInstr s (fun t => decide (t.due ≤ s.clock) && !endOfCk t.ev) = _ := dueInstr_first (p := dueNow s) hs hpre he
  simp only [nextInstr, h, hd]

/-- When no event is due before the end of the ck, a bundle issues, or the end of the ck comes. -/
theorem nextInstr_bundle {sid : Nat} (h : s.inbox = []) (hs : ∀ t ∈ s.timers, dueNow s t = false) (hp : pickIssue s = some sid) : nextInstr s = some (.bundleIssue sid, s) := by
  have hd : dueInstr s (fun t => decide (t.due ≤ s.clock) && !endOfCk t.ev) = none := dueInstr_none (p := dueNow s) hs
  simp only [nextInstr, h, hd, hp]

theorem nextInstr_endOfCk (h : s.inbox = []) (hs : ∀ t ∈ s.timers, dueNow s t = false) (hp : pickIssue s = none) : nextInstr s = dueInstr s fun t => decide (t.due ≤ s.clock) := by
  have hd : dueInstr s (fun t => decide (t.due ≤ s.clock) && !endOfCk t.ev) = none := dueInstr_none (p := dueNow s) hs
  simp only [nextInstr, h, hd, hp]

/-! ## One ck passes -/

section
variable (t : Strand)

@[simp] theorem countEv_regs (c : Byte) (k : Nat) : (countEv t c k).regs = t.regs := rfl
@[simp] theorem countEv_pc (c : Byte) (k : Nat) : (countEv t c k).pc = t.pc := rfl
@[simp] theorem countBank_regs : (countBank t).regs = t.regs := by unfold countBank; split <;> rfl
@[simp] theorem countBank_pc : (countBank t).pc = t.pc := by unfold countBank; split <;> rfl

@[simp] theorem countCk_regs : (countCk s t).regs = t.regs := by
  simp only [countCk]
  split_ifs <;> simp
@[simp] theorem countCk_pc : (countCk s t).pc = t.pc := by
  simp only [countCk]
  split_ifs <;> simp

end

/-! Sending takes no time. -/

@[simp] theorem putFlit_clock (p : Nat) (f : Flit) : (putFlit s p f).clock = s.clock := by simp [putFlit]

@[simp] theorem sendFlit_clock (f : Flit) : (sendFlit s f).clock = s.clock := by
  unfold sendFlit
  split
  · rfl
  · split <;> simp

@[simp] theorem sendPacket_clock (dev : BitVec 12) (c : BitVec 2) (b : Packet) : (sendPacket s dev c b).clock = s.clock := sendFlit_clock _

@[simp] theorem sendReq_clock (dev : BitVec 12) (what : ReqWhat) (mk : Nat → Packet) : (sendReq s dev what mk).clock = s.clock := by simp [sendReq, after, takeId]

@[simp] theorem sendWrite_clock (p : BitVec 12 × Packet) : (sendWrite s p).clock = s.clock := by
  unfold sendWrite
  split
  · simp
  · split <;> simp

theorem foldl_sendWrite_clock (l : List (BitVec 12 × Packet)) (s : State) : (l.foldl sendWrite s).clock = s.clock := by
  induction l generalizing s with
  | nil => rfl
  | cons p l ih => simp [ih]

@[simp] theorem sendWrites_clock : (sendWrites s).clock = s.clock := foldl_sendWrite_clock _ _

section
variable (s)

@[simp] theorem mapOutLate_clock : (mapOutLate s).clock = s.clock := by unfold mapOutLate; split <;> rfl
@[simp] theorem mapOutLate_me : (mapOutLate s).me = s.me := by unfold mapOutLate; split <;> rfl
@[simp] theorem mapOutLate_hbm : (mapOutLate s).hbm = s.hbm := by unfold mapOutLate; split <;> rfl
@[simp] theorem mapOutLate_near : (mapOutLate s).near = s.near := by unfold mapOutLate; split <;> rfl

end

theorem tick_clock : (tick s).clock = s.clock + 1 := by simp [tick]

/-- With nothing to send, a ck leaves the registers, the memories and the place in the program. -/
theorem tick_kept (h : s.devOut = []) : (tick s).me.regs = s.me.regs ∧ (tick s).hbm = s.hbm ∧ (tick s).near = s.near ∧ (tick s).me.pc = s.me.pc := by
  simp [tick, sendWrites, h]

/-! ## The bundle that is next -/

theorem exec_bundleIssue (s : State) (sid : Nat) : exec (.bundleIssue sid) s = execBundleIssue sid s := rfl

/-- The strand at issue, which may issue, attempts the bundle it has fetched. -/
theorem exec_bundleIssue_me {bs : List Byte} (hm : mayIssue s s.me = true) (hi : s.issue = none) (hk : s.me.mark = none) (hc : s.me.cdone = false) (hf : fetchBundle s = .bytes bs) :
    exec (.bundleIssue s.me.sid) s = .next (issueBytes s bs) := by
  have hs : ({ s with issue := none } : State) = s := by rw [← hi]
  rw [exec_bundleIssue]
  simp only [execBundleIssue, getStrand, if_true, hm, hs, focus, attempt, hk, hc, hf]
  rfl

theorem exec_oneAtNext (ho : OneAtNext s n w x) (he : encode i = some (n, w, x)) (hw : wellFormed i = true) (hi : i ≠ .nop) : exec (.bundleIssue s.me.sid) s = exec i s := by
  obtain ⟨-, -, -, hm, hs, hk, hc, hl, hf⟩ := ho
  rw [exec_bundleIssue_me hm hs hk hc hf]
  exact issueBytes_encode hw he hi hl hs

theorem step_oneAtNext (ho : OneAtNext s n w x) (he : encode i = some (n, w, x)) (hw : wellFormed i = true) (hi : i ≠ .nop) : step s = exec i s := by
  obtain ⟨hin, ht, hp, -⟩ := id ho
  rw [step_of_next (nextInstr_bundle hin (fun t h => dueNow_false.2 (ht t h)) hp)]
  exact exec_oneAtNext ho he hw hi

theorem step_passes (h : s.inbox = []) (ht : ∀ t ∈ s.timers, s.clock < t.due) (hp : pickIssue s = none) : step s = .next (tick s) := by
  have hn : nextInstr s = none := by
    rw [nextInstr_endOfCk h (fun t m => dueNow_false.2 (.inl (ht t m))) hp]
    exact dueInstr_none fun t m => by simpa using ht t m
  simp only [step, hn]

theorem step_endOfCk {pre ts : List Timer} {e : Timer} (h : s.inbox = []) (hp : pickIssue s = none) (hs : s.timers = pre ++ e :: ts) (hts : ∀ t ∈ ts, s.clock < t.due ∨ endOfCk t.ev = true)
    (hpre : ∀ t ∈ pre, s.clock < t.due) (hd : e.due ≤ s.clock) (he : endOfCk e.ev = true) : step s = exec e.ev { s with timers := pre ++ ts } := by
  have hall : ∀ t ∈ s.timers, dueNow s t = false := by
    intro t ht
    rw [dueNow_false]
    rw [hs, List.mem_append, List.mem_cons] at ht
    rcases ht with ht | rfl | ht
    · exact .inl (hpre t ht)
    · exact .inr he
    · exact hts t ht
  refine step_of_next ?_
  rw [nextInstr_endOfCk h hall hp]
  exact dueInstr_first hs (fun t m => by simpa using hpre t m) (by simpa using hd)

/-- Settles O54: each clause is one case of what comes next; a bundle of one instruction is legal and its only slot operation is that instruction. -/
theorem stepRunsWhatIsNext : Obligations.StepRunsWhatIsNext := by
  refine fun s => ⟨fun i is h => step_of_next (nextInstr_inbox h), ?_, ?_, ?_, fun i n w x ho he hw hi => step_oneAtNext ho he hw hi, ?_, ?_⟩
  · intro pre e ts h hs hpre hd he
    exact step_of_next (nextInstr_due h hs (fun t m => dueNow_false.2 (hpre t m)) (by simp [dueNow, hd, he]))
  · intro sid h ht hp
    exact step_of_next (nextInstr_bundle h (fun t m => dueNow_false.2 (ht t m)) hp)
  · intro pre e ts h hp hs hts hpre hd he
    exact step_endOfCk h hp hs hts hpre hd he
  · intro h ht hp
    exact ⟨tick s, step_passes h ht hp, tick_clock, tick_kept⟩
  · rintro i n w x bs ho he hw hi rfl
    refine ⟨?_, exec_oneAtNext ho he hw hi⟩
    rw [bundleOf, bundleWords_bundleBytes, illegalMask_encode hw he hi]

end Sys2Proof.Machine
end

section
/-! PROOFS. Cores beside the issue, and instructions whose turn alone can stop them: what the proofs of the control slot share. -/

namespace Sys2Proof.Machine
open Sys2Proof Claims

variable {s : State} {i : Instr}

/-! ## Arrays, copies and counts of the cores -/

/-- Two lists of cores with the same arrays, copies and counts of copies. -/
def SameEngines (cs ds : List Core) : Prop := ∀ t u : State, t.cores = cs → u.cores = ds → ∀ c,
  (getCore t c).array = (getCore u c).array ∧ (getCore t c).copies = (getCore u c).copies ∧ (getCore t c).xstat = (getCore u c).xstat

theorem getCore_congr {t u : State} (h : t.cores = u.cores) (c : Nat) : getCore t c = getCore u c := by rw [getCore, getCore, h]

theorem SameEngines.refl (cs : List Core) : SameEngines cs cs := fun t u ht hu c => by
  rw [getCore_congr (ht.trans hu.symm)]
  exact ⟨rfl, rfl, rfl⟩

theorem SameEngines.trans {cs ds es : List Core} (h : SameEngines cs ds) (h' : SameEngines ds es) : SameEngines cs es := fun t u ht hu c => by
  obtain ⟨a1, a2, a3⟩ := h t { u with cores := ds } ht rfl c
  obtain ⟨b1, b2, b3⟩ := h' { u with cores := ds } u rfl hu c
  exact ⟨a1.trans b1, a2.trans b2, a3.trans b3⟩

/-- A change of a core's bookkeeping leaves the engines. -/
theorem sameEngines_updCore (s : State) (k : Nat) (f : Core → Core) (hf : ∀ c, (f c).id = c.id ∧ (f c).array = c.array ∧ (f c).copies = c.copies ∧ (f c).xstat = c.xstat) :
    SameEngines (updCore s k f).cores s.cores := fun t u ht hu c => by
  rw [getCore_congr (u := s) hu]
  exact updCore_kept s k f hf t ht c

/-- The opening of a bundle leaves the engines. -/
theorem sameEngines_inSlot (s : State) (n : Nat) : SameEngines (inSlot s n).cores s.cores := fun t u ht hu c => by
  obtain ⟨p, r, cs, e, hcs⟩ := inSlot_shape s n
  rw [getCore_congr (u := s) hu]
  exact hcs t (by rw [ht, e]) c

/-! ## A bundle amid its effects -/

/-- The strand whose bundle has opened (R42, R260). -/
def issuing (s : State) (p : Vector Word 8) (r : Nat) : Strand :=
  { s.me with perf := p, readyAt := r, st := .running, parkid := none, triedAt := s.clock + 1, npc := s.me.pc + 32, asleep := false, waitSerial := false, bankWait := none }

/-- A state whose bundle has opened, with slot `n` in its turn. -/
def opened (s : State) (p : Vector Word 8) (r : Nat) (cs : List Core) (n : Nat) : State := { s with me := issuing s p r, cores := cs, issue := some ⟨s.me.regs, s.me.h, s.me.loop, n⟩ }

theorem inSlot_issuing (s : State) (n : Nat) : ∃ p r cs, inSlot s n = opened s p r cs n ∧ SameEngines cs s.cores := by
  obtain ⟨p, r, cs, e, -⟩ := inSlot_shape s n
  refine ⟨p, r, cs, e, ?_⟩
  have h := sameEngines_inSlot s n
  rwa [e] at h

/-- A bundle that has asked for no commit point and holds no trap closes at the next bundle. -/
theorem closeIssue_calm {n : Nat} {u : State} (hc : Calm s) (hi : u.issue = some ⟨s.me.regs, s.me.h, s.me.loop, n⟩) (hcl : u.me.closing = s.me.closing) (ht : u.me.heldTrap = s.me.heldTrap) :
    closeIssue u = { u with issue := none, me := { u.me with choice := none, waitset := none, pc := u.me.npc } } :=
  closeIssue_plain u ⟨s.me.regs, s.me.h, s.me.loop, n⟩ hi hc.2.1 (hcl.trans hc.2.2.1) (ht.trans hc.2.2.2.1)

/-! ## Instructions whose own turn alone can stop them -/

/-- Slot 0 instructions that access nothing and wait for nothing: once their turn is over they issue. -/
def turnOnly : Instr → Bool
  | .wait _ _ | .waitany _ _ _ _ | .state _ _ _ | .looph _ _ | .lexit _ => true
  | _ => false

/-- Nothing behind its turn holds such an instruction back. -/
theorem turnOnly_unheld (h : turnOnly i = true) (ha : s.me.acqFence = []) :
    accessTrap s (0, i) = none ∧ slotHold s (0, i) = none ∧ linesNeeded s i = 0 ∧ nestStop s (0, i) = none ∧ bankStop s (0, i) = none := by
  have key : nearSpans s i = ([], 1) ∧ arrayOf s i = none ∧ farTrap s i = none ∧ (∀ g, xferTrap s g i = none) ∧ linesNeeded s i = 0 ∧ nestStop s (0, i) = none ∧
      ∀ g, banksWanted s g i = [] := by
    cases i <;> cases h <;> exact ⟨rfl, rfl, rfl, fun _ => rfl, rfl, rfl, fun _ => rfl⟩
  obtain ⟨hspan, harr, hfar, hxfer, hline, hnest, hbank⟩ := key
  refine ⟨access_none s 0 i hspan harr hfar hxfer ?_ ?_ ?_, ?_, hline, hnest, bankStop_none s 0 i hbank⟩
  · rintro _ _ _ rfl; cases h
  · rintro _ _ rfl; cases h
  · rintro _ _ rfl; cases h
  · unfold slotHold
    cases gangOf s s.me with
    | none => rfl
    | some g => cases i <;> cases h <;> simp [ha, arrayOf, nearSpans]

/-- Such an instruction issues once its turn lets it. -/
theorem stop_turnOnly (hc : Calm s) (hg : GuardOn s i) (hsrc : ∀ r ∈ readsOf i ++ examinedOf i, isFull s r) (hb : beforeSources s i = none) (ha : afterSources s 0 i = none)
    (h : turnOnly i = true) : stopOf s [(0, i)] = none := by
  obtain ⟨hacc, hhold, hline, hnest, hbank⟩ := turnOnly_unheld h hc.2.2.2.2.1
  exact stop_sources s 0 i hc hg hsrc hb ha hacc hhold (by omega) hnest hbank

/-- An instruction that nothing stops and that gives one result of fixed latency. -/
theorem result_unstopped {n : Nat} {eff : State → State} {r : RegId} {lat : Nat} {x : Payload} (hc : Calm s) (hg : GuardOn s i) (hs : stopOf s [(n, i)] = none)
    (he : eff (inSlot s n) = produce (inSlot s n) r lat x) : ∃ t, slotOp n i eff s = .next t ∧ RegFrame s t [r] ∧ DeliversIn s t r lat x := by
  obtain ⟨hd, hf⟩ := produce_closed s n r lat x hc
  exact ⟨_, (effect_of s n i eff hc hg hs).trans (by rw [he]), hf, hd⟩

end Sys2Proof.Machine
end

section
/-! PROOFS. Loops (O11): the start of a loop, the turn that the last bundle of its body makes, and what is refused inside and outside one. -/

namespace Sys2Proof.Machine
open Sys2Proof Claims

variable {s : State} {i : Instr} {c : Word} {n : BitVec 6} {g : BitVec 4}

/-! ## Starting a loop -/

theorem looping_cases (h : looping s i = some (c, n)) : (∃ g b, i = .loop g b n ∧ c = sVal s b) ∨ ∃ g v, i = .loopi g v n ∧ c = v.setWidth 64 := by
  unfold looping at h
  split at h <;> cases h
  · exact .inl ⟨_, _, rfl, rfl⟩
  · exact .inr ⟨_, _, rfl, rfl⟩

/-- A loop instruction starts the loop that it names. -/
theorem looping_effect (h : looping s i = some (c, n)) (hr : Ready s i) : exec i s = .next (closeIssue (startLoop (inSlot s 0) c n)) := by
  rcases looping_cases h with ⟨g, b, rfl, rfl⟩ | ⟨g, v, rfl, rfl⟩
  · rw [← rdS_inSlot s 0 b hr.1.2.1]
    exact effect_operandsOnly s 0 (.loop g b n) _ hr rfl
  · exact effect_operandsOnly s 0 (.loopi g v n) _ hr rfl

/-- The loop of a strand that starts `count` iterations of the next bundles (R94). -/
def startedLoop (t : Strand) (count : Word) (blen : BitVec 6) : LoopSt := { t.loop with iter := 0, count := count, first := t.pc + 32, blen := blen, active := true }

/-- With a count the loop starts; of the cores only a loop buffer changes (R309). -/
theorem startLoop_nonzero (hc : c ≠ 0) : ∃ cs, startLoop s c n = { s with me := { s.me with loop := startedLoop s.me c n }, cores := cs } ∧ SameEngines cs s.cores := by
  unfold startLoop
  rw [if_neg hc]
  by_cases hf : loopBufFree s = true
  · refine ⟨(updCore s (myCore s) fun c => { c with loopBuf := some (s.me.sid, []) }).cores, ?_, sameEngines_updCore s _ _ fun _ => ⟨rfl, rfl, rfl, rfl⟩⟩
    simp only [hf, if_true]
    rfl
  · refine ⟨s.cores, ?_, .refl _⟩
    simp only [hf]
    rfl

theorem loop_starts (h : looping s i = some (c, n)) (hr : Ready s i) (hc : c ≠ 0) : ∃ t, exec i s = .next t ∧ t.timers = s.timers ∧ Advanced s t ∧
    Kept (withMe s { s.me with loop := { s.me.loop with iter := 0, count := c, first := s.me.pc + 32, blen := n, active := true } }) t [] := by
  obtain ⟨hi, hl, hcl, ht, -⟩ := hr.1
  obtain ⟨p, r, cs, e, -⟩ := inSlot_shape s 0
  obtain ⟨ds, hs, hds⟩ := startLoop_nonzero (s := inSlot s 0) (n := n) hc
  have hcores := hds.trans (sameEngines_inSlot s 0)
  have hclosed := closeIssue_plain (startLoop (inSlot s 0) c n) ⟨s.me.regs, s.me.h, s.me.loop, 0⟩ (by rw [hs]; rfl) hl (by rw [hs, e]; exact hcl) (by rw [hs, e]; exact ht)
  refine ⟨_, looping_effect h hr, ?_⟩
  rw [hclosed, hs, e]
  refine ⟨rfl, ⟨rfl, rfl⟩, fun _ _ => rfl, ⟨rfl, fun _ => rfl⟩, ?_, hcores _ _ rfl rfl, fun _ => rfl, fun _ => rfl⟩
  rw [← hi]

theorem loop_skips (h : looping s i = some (c, n)) (hr : Ready s i) (hc : c = 0) : ∃ t, exec i s = .next t ∧ t.timers = s.timers ∧
    t.me.pc = s.me.pc + BitVec.ofNat 64 (32 * (n.toNat + 2)) ∧ t.me.st = .running ∧ Kept (withMe s { s.me with notBefore := s.clock + 3 }) t [] := by
  obtain ⟨-, hl, hcl, ht, -⟩ := hr.1
  obtain ⟨p, r, cs, e, -⟩ := inSlot_shape s 0
  obtain ⟨htimers, hframe⟩ := closeIssue_inSlot hr.1 0
  obtain ⟨hkept, hpc, hst⟩ := branched_kept hframe (s.clock + 3) (s.me.pc + BitVec.ofNat 64 (32 * (n.toNat + 2)))
  refine ⟨branched (closeIssue (inSlot s 0)) (s.clock + 3) _, ?_, htimers, hpc, hst, hkept⟩
  rw [looping_effect h hr, startLoop, if_pos hc, inSlot_pc, closeIssue_takeBranch (u := inSlot s 0) rfl hl (by rw [e]; exact hcl) (by rw [e]; exact ht)]
  rfl

/-! ## The rings -/

/-- Bits 24 to 63 of a word are clear (R93). -/
theorem shiftRight_24_eq_zero (x : Word) : (x.toNat >>> 24 == 0) = decide (x.toNat < 2 ^ 24) := by
  rw [Nat.shiftRight_eq_div_pow, Bool.eq_iff_iff, beq_iff_eq, decide_eq_true_eq, Nat.div_eq_zero_iff]
  omega

theorem looph_after {b : BitVec 6} (hc : Calm s) : afterSources s 0 (.looph g b) = if (sVal s b).toNat < 2 ^ 24 then none else some (.trap .loopBody 1 0 0) := by
  simp only [afterSources, rdS_closed s b hc, shiftRight_24_eq_zero, decide_eq_true_eq]

theorem looph_sets {b : BitVec 6} (hr : Ready s (.looph g b)) (hv : (sVal s b).toNat < 2 ^ 24) : ∃ t, exec (.looph g b) s = .next t ∧ t.timers = s.timers ∧ Advanced s t ∧
    Kept (withMe s { s.me with loop := { s.me.loop with rings := (sVal s b).setWidth 24 } }) t [] := by
  have hstop : stopOf s [(0, .looph g b)] = none :=
    stop_turnOnly hr.1 hr.2.1 (fun r h => hr.2.2 r (by simpa [readsOf, portOnly, examinedOf, merges] using h)) rfl (by rw [looph_after hr.1, if_pos hv]) rfl
  obtain ⟨p, r, cs, hclosed, hcs⟩ := edit_closed s 0 (fun t => { t with loop := { t.loop with rings := (sVal s b).setWidth 24 } }) hr.1 (fun _ => rfl) fun _ => rfl
  refine ⟨_, effect_of s 0 (.looph g b) _ hr.1 hr.2.1 hstop, ?_⟩
  rw [rdS_inSlot s 0 b hr.1.2.1, hclosed]
  exact ⟨rfl, ⟨rfl, rfl⟩, fun _ _ => rfl, ⟨rfl, fun _ => rfl⟩, rfl, hcs _ rfl, fun _ => rfl, fun _ => rfl⟩

theorem looph_traps {b : BitVec 6} (hr : Ready s (.looph g b)) (hv : 2 ^ 24 ≤ (sVal s b).toNat) : exec (.looph g b) s = .next (takeTrap s .loopBody 1 0 0) :=
  slotOp_stop _ _ _ _ (.trap .loopBody 1 0 0) hr.1.1
    (stop_after _ _ _ _ hr.1 hr.2.1 rfl (fun r h => hr.2.2 r (List.mem_append_left _ (List.mem_append_left _ h))) (by rw [looph_after hr.1, if_neg (by omega)]))

/-! ## In the body of a loop -/

/-- A predicate register is never rotated (R58). -/
theorem look_p (s : State) (hi : s.issue = none) (k : BitVec 4) : look s (.p k) = s.me.regs.get (.p k) := by
  simp [look, view, rot, viewLoop, hi, rotReg]

theorem rdP_inSlot_any (s : State) (m : Nat) (k : BitVec 4) : rdP (inSlot s m) k = pVal s k := by
  simp [rdP, look, rot, rotReg]

/-- NOP and LEXIT, the instructions of slot 0 without operands that a loop's body may hold. -/
def bare : Instr → Bool
  | .nop | .lexit _ => true
  | _ => false

/-- Whether a loop turns or not, an instruction without operands issues behind its guard. -/
theorem stop_bare (hs : Still s) (hg : GuardOn s i) (h : bare i = true) (hb : beforeSources s i = none) : stopOf s [(0, i)] = none := by
  obtain ⟨hi, -, -, ha, -, hser, hu, hgat⟩ := hs
  have hguard : (pVal s (guardOf i)).toNat.testBit 0 = true := by
    have hw : wholeGuard i = true := by cases i <;> cases h <;> rfl
    simpa using hg.2 hw
  have key : badInBody i = false ∧ readsOf i = [] ∧ examinedOf i = [] ∧ afterSources s 0 i = none ∧ accessTrap s (0, i) = none ∧ slotHold s (0, i) = none ∧ serialsOf s i = 0 ∧
      loggedDests s i = [] ∧ linesNeeded s i = 0 ∧ nestStop s (0, i) = none ∧ bankStop s (0, i) = none := by
    cases i <;> cases h <;>
      exact ⟨rfl, rfl, rfl, rfl, access_none s 0 _ rfl rfl rfl (fun _ => rfl) nofun nofun nofun, by unfold slotHold; cases gangOf s s.me <;> simp [ha, arrayOf, nearSpans], rfl, rfl, rfl,
          rfl, bankStop_none s 0 _ fun _ => rfl⟩
  obtain ⟨hbad, hreads, hex, hafter, hacc, hhold, hserials, hdests, hlines, hnest, hbank⟩ := key
  have hsup : suppressedBy s i = false := by
    simp only [suppressedBy, rdP, look_p s hi, hguard, Bool.not_true, Bool.and_false]
  have hnew : newlyLogged s [(0, i)] = [] := by
    cases i <;> cases h <;> rfl
  have hrep : isReplayed i = false := by cases i <;> cases h <;> rfl
  have himpl : needsImplicit s [(0, i)] = false := by
    simp only [needsImplicit, logFull, hnew, List.map_cons, List.map_nil, List.sum_nil, List.sum_cons, List.any_cons, List.any_nil, hrep, hlines, Bool.or_false, Bool.and_false,
      Bool.false_eq_true, if_false, Bool.or_eq_false_iff, decide_eq_false_iff_not]
    omega
  unfold stopOf
  simp only [bodyTrap, List.any_cons, List.any_nil, hbad, Bool.or_false, Bool.and_false, Bool.false_eq_true, if_false, Option.none_or, List.findSome?_cons, List.findSome?_nil, examine,
    look_p s hi, hg.1, List.filter_cons, hsup, Bool.not_false, if_true, List.filter_nil, slotTurn, hb, hreads, hafter, hex, hacc, hhold, serialsNeeded, List.map_cons, List.map_nil,
    List.sum_cons, List.sum_nil, hserials, himpl, hnest, hbank]
  rw [if_neg (by omega)]

theorem effect_bare (hs : Still s) (hg : GuardOn s i) (h : bare i = true) (hb : beforeSources s i = none) (eff : State → State) :
    slotOp 0 i eff s = .next (closeIssue (eff (inSlot s 0))) := by
  have hsup : suppressedBy (inSlot s 0) i = false := by
    cases hw : wholeGuard i with
    | false => simp only [suppressedBy, hw, Bool.false_and]
    | true =>
      have hguard : (pVal s (guardOf i)).toNat.testBit 0 = true := by simpa using hg.2 hw
      simp only [suppressedBy, rdP_inSlot_any, hguard, Bool.not_true, Bool.and_false]
  rw [slotOp_issue s 0 i eff hs.1 (stop_bare hs hg h hb), hsup]
  rfl

/-- A bundle that neither a commit point nor a trap follows closes by turning its loop; of the cores only a loop buffer may change (R94, R309). -/
theorem closeIssue_turn {u : State} {b : Issue} (hi : u.issue = some b) (hc : u.me.closing = none) (ht : u.me.heldTrap = none) : ∃ cs,
    closeIssue u = { u with issue := none, cores := cs, me := { u.me with loop := (loopStep b.loop u.me).1, choice := none, waitset := none, pc := (loopStep b.loop u.me).2 } } ∧
    SameEngines cs u.cores := by
  let s1 : State := { u with issue := none, me := { u.me with loop := (loopStep b.loop u.me).1, choice := none, waitset := none } }
  by_cases hd : (b.loop.active && !(loopStep b.loop u.me).1.active) = true
  · refine ⟨(updCore s1 (myCore s1) fun c => dropLoopBuf c u.me.sid).cores, ?_, sameEngines_updCore s1 _ _ fun _ => ⟨rfl, rfl, rfl, rfl⟩⟩
    simp only [closeIssue, hi, ht, hd, if_true, updCore_me, hc]
    rfl
  · refine ⟨u.cores, ?_, .refl _⟩
    simp only [closeIssue, hi, ht, eq_false_of_ne_true hd, Bool.false_eq_true, if_false, hc]
    rfl

/-- The loop after the last bundle of its body, and the bundle that follows (R94). -/
theorem loopStep_last {l : LoopSt} {t : Strand} (hb : l.active = true) (ht : t.loop = l) (hp : t.pc = lastOf l) :
    loopStep l t = ({ l with iter := l.iter + 1, active := decide (l.iter + 1 ≠ l.count) }, if l.iter + 1 = l.count then t.pc + 32 else l.first) := by
  have hlast : (l.active && t.loop.active && t.pc == loopLast l) = true := by
    rw [ht, hb, hp]
    simp [lastOf, loopLast]
  unfold loopStep
  rw [if_pos hlast, ht]
  by_cases he : l.iter + 1 = l.count
  · simp only [he, if_true, ne_eq, not_true, decide_false]
  · simp only [he, if_false, ne_eq, not_false_eq_true, decide_true, ← hb]

theorem nop_turns (hs : Still s) (hl : s.me.loop.active = true) (hp : s.me.pc = lastOf s.me.loop) (hg : GuardOn s .nop) : ∃ t, exec .nop s = .next t ∧ t.timers = s.timers ∧
    t.me.st = .running ∧
    Kept (withMe s { s.me with loop := { s.me.loop with iter := s.me.loop.iter + 1, active := decide (s.me.loop.iter + 1 ≠ s.me.loop.count) } }) t [] ∧
    t.me.pc = if s.me.loop.iter + 1 = s.me.loop.count then s.me.pc + 32 else s.me.loop.first := by
  obtain ⟨p, r, cs, e, -⟩ := inSlot_shape s 0
  obtain ⟨ds, hclosed, hds⟩ := closeIssue_turn (u := inSlot s 0) rfl (by rw [e]; exact hs.2.1) (by rw [e]; exact hs.2.2.1)
  have hcores := hds.trans (sameEngines_inSlot s 0)
  have hstep := loopStep_last (t := (inSlot s 0).me) hl (by rw [e]) (by rw [e]; exact hp)
  refine ⟨_, effect_bare hs hg rfl rfl id, ?_⟩
  rw [id_eq, hclosed, hstep, e]
  refine ⟨rfl, rfl, ⟨fun _ _ => rfl, ⟨rfl, fun _ => rfl⟩, ?_, hcores _ _ rfl rfl, fun _ => rfl, fun _ => rfl⟩, rfl⟩
  rw [← hs.1]

theorem lexit_leaves (hs : Still s) (hl : s.me.loop.active = true) (hg : GuardOn s (.lexit g)) : ∃ t, exec (.lexit g) s = .next t ∧ t.timers = s.timers ∧ t.me.st = .running ∧
    t.me.pc = lastOf s.me.loop + 32 ∧ Kept (withMe s { s.me with loop := { s.me.loop with active := false }, notBefore := s.clock + 3 }) t [] := by
  obtain ⟨p, r, cs, e, -⟩ := inSlot_shape s 0
  let u := takeBranch (setMe (inSlot s 0) fun t => { t with loop := { t.loop with active := false } }) (loopLast (viewLoop (inSlot s 0)) + 32)
  obtain ⟨ds, hclosed, hds⟩ := closeIssue_turn (u := u) (b := ⟨s.me.regs, s.me.h, s.me.loop, 0⟩) rfl (by show (inSlot s 0).me.closing = none; rw [e]; exact hs.2.1)
    (by show (inSlot s 0).me.heldTrap = none; rw [e]; exact hs.2.2.1)
  have hcores := hds.trans (sameEngines_inSlot s 0)
  have hstep : loopStep s.me.loop u.me = ({ s.me.loop with active := false }, lastOf s.me.loop + 32) := by
    show loopStep s.me.loop { (inSlot s 0).me with loop := { (inSlot s 0).me.loop with active := false }, npc := loopLast s.me.loop + 32, notBefore := _ } = _
    simp only [loopStep, Bool.and_false, Bool.false_and, Bool.false_eq_true, if_false, e]
    rfl
  have hb : beforeSources s (.lexit g) = none := by simp [beforeSources, viewLoop, hs.1, hl]
  refine ⟨closeIssue u, effect_bare hs hg rfl hb _, ?_⟩
  rw [hclosed, hstep]
  refine ⟨rfl, ?_, rfl, fun _ _ => ?_, ⟨?_, fun _ => ?_⟩, ?_, hcores _ _ rfl rfl, fun _ => ?_, fun _ => ?_⟩
  all_goals simp only [u, takeBranch, setMe, e]
  rw [← hs.1]

/-- LEXIT where no loop is active is refused before its operands (R97). -/
theorem lexit_traps (hs : Still s) (hl : s.me.loop.active = false) (hg : GuardOn s (.lexit g)) : exec (.lexit g) s = .next (takeTrap s .loopBody 1 0 0) := by
  obtain ⟨hi, hrest⟩ := hs
  have hc : Calm s := ⟨hi, hl, hrest⟩
  exact slotOp_stop _ _ _ _ (.trap .loopBody 1 0 0) hi (stop_before _ _ _ _ hc hg (by simp [beforeSources, viewLoop, hi, hl]))

/-- LOOP and LOOPI in an active loop are refused, by the check of the body or in their turn (R94, R97). -/
theorem loop_traps (h : looping s i = some (c, n)) (hs : Still s) (hl : s.me.loop.active = true) (hf : isFull s (.p (guardOf i))) (hg : (pVal s (guardOf i)).getLsbD 0 = true) :
    exec i s = .next (takeTrap s .loopBody 1 0 0) := by
  have hslot : slotIndex i = some 0 := by rcases looping_cases h with ⟨g, b, rfl, -⟩ | ⟨g, v, rfl, -⟩ <;> rfl
  have hb : beforeSources s i = some (.trap .loopBody 1 0 0) := by
    rcases looping_cases h with ⟨g, b, rfl, -⟩ | ⟨g, v, rfl, -⟩ <;> simp [beforeSources, viewLoop, hs.1, hl]
  have hsup : suppressedBy s i = false := by
    simp only [suppressedBy, rdP, look_p s hs.1]
    rw [show (pVal s (guardOf i)).toNat.testBit 0 = true from hg]
    simp
  have hex : examine s 0 (.p (guardOf i)) = none := by simp only [examine, look_p s hs.1, hf]
  refine exec_stopped hslot hs.1 (x := .trap .loopBody 1 0 0) ?_
  have hbody : bodyTrap s [(0, i)] = none ∨ bodyTrap s [(0, i)] = some (.trap .loopBody 1 0 0) := by
    unfold bodyTrap
    dsimp only
    split
    · exact .inr rfl
    · exact .inl rfl
  rcases hbody with hbody | hbody <;> simp [stopOf, hbody, hex, hsup, slotTurn, hb]

/-- Settles O11: LOOP and LOOPI edit the loop or branch, and the closing of a bundle turns the loop that is active. -/
theorem loopsAndTheirTurns : Obligations.LoopsAndTheirTurns := by
  refine ⟨fun s => ⟨fun i c n h hr => ⟨loop_starts h hr, loop_skips h hr⟩, fun g b hr => ⟨looph_sets hr, looph_traps hr⟩⟩, fun s g hs => ⟨nop_turns hs, lexit_leaves hs, lexit_traps hs, ?_⟩⟩
  exact fun i c n h => loop_traps h hs

end Sys2Proof.Machine
end

section
/-! PROOFS. Waiting on registers (O12): WAIT, WAITANY and STATE look at register states, and either go on or park. -/

namespace Sys2Proof.Machine
open Sys2Proof Claims

variable {s : State} {g : BitVec 4} {f : RFile} {b a : BitVec 6}

/-- A number of one word is the same number in a register (R13). -/
theorem setWidth_ofNat_small {n : Nat} (h : n < 2 ^ 64) : (BitVec.ofNat 64 n).setWidth 1024 = BitVec.ofNat 1024 n :=
  BitVec.setWidth_ofNat_of_le_of_lt (by decide) h

/-! ## WAIT -/

theorem wait_goesOn {r : RegId} (hc : Calm s) (hg : GuardOn s (.wait g r)) (h : (s.me.regs.get r).st ≠ .pending) :
    ∃ t, exec (.wait g r) s = .next t ∧ t.timers = s.timers ∧ RegFrame s t [] := by
  have hb : beforeSources s (.wait g r) = none := by simp [beforeSources, look_closed s r hc.1 hc.2.1, h]
  exact ⟨_, effect_of s 0 (.wait g r) id hc hg (stop_turnOnly hc hg nofun hb rfl rfl), closeIssue_inSlot hc 0⟩

theorem wait_parks {r : RegId} (hc : Calm s) (hg : GuardOn s (.wait g r)) (h : (s.me.regs.get r).st = .pending) : exec (.wait g r) s = .next (parkedOn s (some r)) := by
  have hrot : rot s r = r := by simp [rot, rotReg_idle _ _ (viewLoop_calm s hc)]
  have hb : beforeSources s (.wait g r) = some (.park r) := by simp [beforeSources, look_closed s r hc.1 hc.2.1, h, hrot]
  rw [exec_stopped (n := 0) rfl hc.1 (stop_before s 0 _ _ hc hg hb), stopIssue_park]

/-! ## WAITANY -/

/-- A set of a file that holds none of its registers is empty (R99). -/
theorem anySet_eq_nil {m : Word} : anySet f m = [] ↔ ∀ k, k < fileLen f → m.getLsbD k = false := by
  have hlen : fileSize f = fileLen f := by cases f <;> rfl
  simp [anySet, upto, List.filter_eq_nil_iff, hlen, bit, BitVec.getLsbD]

theorem regAt_eq_member (k : Nat) : regAt f k = member f k := by cases f <;> rfl

/-- Whether a register of the file is a member of the set and not PENDING. -/
def readyMember (s : State) (f : RFile) (m : Word) (k : Nat) : Bool := m.getLsbD k && (s.me.regs.get (member f k)).st != .pending

/-- The least ready member, wherever the registers are seen as the strand holds them. -/
theorem anyReady_eq {t : State} {m : Word} (h : view t = s.me.regs) : anyReady t f m = (List.range (fileLen f)).find? (readyMember s f m) := by
  have hlen : fileSize f = fileLen f := by cases f <;> rfl
  rw [anyReady, anySet, List.find?_filter, h, hlen]
  congr 1
  funext k
  rw [regAt_eq_member]
  simp [readyMember, bit, BitVec.getLsbD, bne, BEq.beq]

theorem find_range_least {p : Nat → Bool} {n k : Nat} (hk : k < n) (hp : p k = true) (hl : ∀ j, j < k → p j = false) : (List.range n).find? p = some k := by
  rw [List.find?_range_eq_some]
  exact ⟨hp, List.mem_range.mpr hk, fun j hj => by simp [hl j hj]⟩

section
variable (hr : Ready s (.waitany g f b a)) (hu : replicated s s.me = false) (hch : s.me.choice = none)
include hr hu hch

/-- In its turn an unreplicated WAITANY goes on with an empty set or a ready member, and else parks on the set. -/
theorem waitany_after : afterSources s 0 (.waitany g f b a) =
    if anySet f (sVal s b) = [] ∨ (anyReady s f (sVal s b)).isSome then none else some (.parkAny f (sVal s b)) := by
  simp only [afterSources, waitanyStop, rdS_closed s b hr.1, hu, hch]
  by_cases he : anySet f (sVal s b) = [] <;> simp [he]

/-- What an unreplicated WAITANY delivers. -/
theorem waitany_fills {k : Nat} (h64 : k ≤ 64) (hk : (anySet f (sVal s b) = [] ∧ k = 64) ∨ (anySet f (sVal s b) ≠ [] ∧ anyReady s f (sVal s b) = some k)) :
    ∃ t, exec (.waitany g f b a) s = .next t ∧ RegFrame s t [.s a] ∧ DeliversIn s t (.s a) 1 (.value (BitVec.ofNat 1024 k)) := by
  have hgo : anySet f (sVal s b) = [] ∨ (anyReady s f (sVal s b)).isSome := hk.imp (fun h => h.1) fun h => by simp [h.2]
  have hstop : stopOf s [(0, .waitany g f b a)] = none :=
    stop_turnOnly hr.1 hr.2.1 (fun r h => hr.2.2 r (by simpa [readsOf, portOnly, examinedOf, merges] using h)) rfl (by rw [waitany_after hr hu hch, if_pos hgo]) rfl
  refine result_unstopped hr.1 hr.2.1 hstop ?_
  have hrep : replicated (inSlot s 0) (inSlot s 0).me = false := (replicated_inSlot 0).trans hu
  have hchoice : (inSlot s 0).me.choice = none := by
    obtain ⟨p, r, cs, e, -⟩ := inSlot_shape s 0
    rw [e]; exact hch
  have hview : anyReady (inSlot s 0) f (sVal s b) = anyReady s f (sVal s b) := by
    rw [anyReady_eq (s := s) (inSlot_view s 0), anyReady_eq (s := s) (by simp [view, hr.1.1])]
  have hindex : waitanyIndex (inSlot s 0) f (sVal s b) = k := by
    rcases hk with ⟨he, rfl⟩ | ⟨he, hf⟩
    · simp [waitanyIndex, he]
    · simp [waitanyIndex, he, hrep, hchoice, hview, hf]
  simp only [rdS_inSlot s 0 b hr.1.2.1, hindex, hrep, Bool.false_and, Bool.false_eq_true, if_false, produceS, setWidth_ofNat_small (n := k) (by omega)]

theorem waitany_parks (hne : anySet f (sVal s b) ≠ []) (hn : anyReady s f (sVal s b) = none) :
    exec (.waitany g f b a) s = .next (withMe s { (parkedOn s none).me with waitset := some (f, sVal s b) }) := by
  have ha : afterSources s 0 (.waitany g f b a) = some (.parkAny f (sVal s b)) := by
    rw [waitany_after hr hu hch, if_neg (by simp [hne, hn])]
  rw [exec_stopped (n := 0) rfl hr.1.1 (stop_after s 0 _ _ hr.1 hr.2.1 rfl (fun r h => hr.2.2 r (List.mem_append_left _ (List.mem_append_left _ h))) ha)]
  simp [stopIssue, setMe, parkedOn, ← hch]

end

/-! ## STATE -/

theorem stateWord_eq (y : RegVal) : (stateWord y).setWidth 1024 = BitVec.ofNat 1024 (stateBits y) := by
  have hlt : stateBits y < 2 ^ 64 := by unfold stateBits; split <;> omega
  have hw : stateWord y = BitVec.ofNat 64 (stateBits y) := by
    unfold stateWord stateBits
    cases y.st <;> simp [packWord, stCode, Nat.shiftLeft_eq, Nat.mul_comm]
  rw [hw, setWidth_ofNat_small hlt]

theorem state_fills {r : RegId} (hc : Calm s) (hg : GuardOn s (.state g r a)) :
    ∃ t, exec (.state g r a) s = .next t ∧ RegFrame s t [.s a] ∧ DeliversIn s t (.s a) 1 (.value (BitVec.ofNat 1024 (stateBits (s.me.regs.get r)))) := by
  refine result_unstopped hc hg (stop_turnOnly hc hg nofun rfl rfl rfl) ?_
  rw [produceS, look_inSlot s 0 r hc.2.1, stateWord_eq]

/-- Settles O12: an empty set, the least ready member, or none ready are the three ways of WAITANY. -/
theorem waitingOnRegisters : Obligations.WaitingOnRegisters := by
  refine ⟨fun s g a hc hg => ⟨wait_goesOn hc hg, wait_parks hc hg⟩, fun s g f b a r => ⟨fun hr hu hch => ⟨fun he => ?_, fun k hk hm hp hl => ?_, fun hne hp => ?_⟩, state_fills⟩⟩
  · exact waitany_fills hr hu hch (le_refl _) (.inl ⟨anySet_eq_nil.mpr he, rfl⟩)
  · have hne : anySet f (sVal s b) ≠ [] := fun e => by simp [anySet_eq_nil.mp e k hk] at hm
    have hready : anyReady s f (sVal s b) = some k := by
      rw [anyReady_eq (s := s) (by simp [view, hr.1.1])]
      refine find_range_least hk (by simp [readyMember, hm, hp]) fun j hj => ?_
      by_cases hjm : (sVal s b).getLsbD j = true
      · simp [readyMember, hl j hj hjm]
      · simp [readyMember, hjm]
    have hk64 : k < 64 := by cases f <;> simp only [fileLen] at hk <;> omega
    exact waitany_fills hr hu hch hk64.le (.inr ⟨hne, hready⟩)
  · obtain ⟨k, hk, hm⟩ := hne
    refine waitany_parks hr hu hch (fun e => by simp [anySet_eq_nil.mp e k hk] at hm) ?_
    rw [anyReady_eq (s := s) (by simp [view, hr.1.1]), List.find?_eq_none]
    intro j hj
    by_cases hjm : (sVal s b).getLsbD j = true
    · simp [readyMember, hp j (List.mem_range.mp hj) hjm]
    · simp [readyMember, hjm]

end Sys2Proof.Machine
end

section
/-! PROOFS. Semaphores and barriers (O13): what SEMA, SEMR, KARR, KDROP and KINIT do to a count or a phase amid their bundle. -/

namespace Sys2Proof.Machine
open Sys2Proof Claims

variable {s u : State} {g q k : BitVec 4} {a b : BitVec 6}

/-- Only s0 of the s registers takes no obligation (R12). -/
theorem fixed_s (a : BitVec 6) : regFixed (.s a) = (a == 0) := rfl

/-! ## The first replayed instruction of a window -/

/-- A state amid the bundle of the first replayed instruction of its window (R328). -/
def performing (s : State) (p : Vector Word 8) (rd : Nat) (cs : List Core) : State :=
  { s with me := { issuing s p rd with replay := some ⟨s.me.log.length, 1, 1⟩ }, cores := cs, issue := some ⟨s.me.regs, s.me.h, s.me.loop, 0⟩ }

/-- A replayed instruction that its window has not performed before, and that nothing stops, has its effect. -/
theorem performs_once {i : Instr} {f : State → State} (hc : Calm s) (hg : GuardOn s i) (hstop : stopOf s [(0, i)] = none) (hp : s.me.replay = none) : ∃ p rd cs,
    slotOp 0 i (fun s => replayed s f) s = .next (closeIssue (f (performing s p rd cs))) ∧ SameEngines cs s.cores := by
  obtain ⟨p, rd, cs, e, hcs⟩ := inSlot_issuing s 0
  refine ⟨p, rd, cs, (effect_of s 0 i _ hc hg hstop).trans ?_, hcs⟩
  have hlog : (inSlot s 0).me.log = s.me.log := by rw [e]; rfl
  have hv : (setMe (inSlot s 0) fun t => { t with replay := some ⟨(inSlot s 0).me.log.length, 1, 1⟩ }) = performing s p rd cs := by rw [hlog, e]; rfl
  rw [replayed_once _ _ (by rw [e]; exact hp), hv]

theorem rdS_performing {p : Vector Word 8} {rd : Nat} {cs : List Core} (hc : Calm s) : rdS (performing s p rd cs) b = sVal s b :=
  rdS_open (performing s p rd cs) ⟨s.me.regs, s.me.h, s.me.loop, 0⟩ b rfl hc.2.1

/-! ## Semaphores -/

/-- Writing a register leaves a semaphore on which no SEMA waits (R105). -/
theorem writeReg_sema (t : Strand) (r : RegId) (y : RegVal) (h : (getSema t q).out = false) : getSema (writeReg t r y) q = getSema t q := by
  have hw : getSema (withdrawSema (logFirst t r) r) q = getSema t q := by
    rw [logFirst_eq]
    unfold withdrawSema
    dsimp only
    split
    · simp [getSema, show t.q[q.toNat].out = false from h]
    · rfl
  unfold writeReg
  split
  · rfl
  · exact hw

theorem obligate_sema (r : RegId) (aw : Bool) (h : (getSema u.me q).out = false) : getSema (obligate u r aw).1.me q = getSema u.me q := by
  unfold obligate obligateT
  split
  · rfl
  · exact writeReg_sema u.me (rot u r) _ h

/-- A SEMA that waits for its semaphore is held at issue, and no other check concerns it. -/
theorem sema_hold (hg : (gangOf s s.me).isSome = true) : slotHold s (0, .sema g q b a) = if (getSema s.me q).out then some .hold else none := by
  obtain ⟨h, hh⟩ := Option.isSome_iff_exists.mp hg
  simp [slotHold, hh, ordersAcq]

theorem sema_access : accessTrap s (0, .sema g q b a) = none := access_none s 0 _ rfl rfl rfl (fun _ => rfl) nofun nofun nofun

theorem sema_waits (hr : Ready s (.sema g q b a)) (hg : (gangOf s s.me).isSome = true) (ho : (getSema s.me q).out = true) :
    exec (.sema g q b a) s = .next (withMe s (triedMe s)) := by
  have hsrc : ∀ r ∈ readsOf (.sema g q b a) ++ examinedOf (.sema g q b a), isFull s r := fun r h => hr.2.2 r (by simpa [readsOf, portOnly, examinedOf] using h)
  exact slotOp_stop s 0 _ _ .hold hr.1.1 (stop_wait s 0 _ .hold hr.1 hr.2.1 hsrc rfl rfl sema_access (by rw [sema_hold hg, ho]; rfl))

/-- An outstanding SEMA for `n` that fills register A under a tag (R105). -/
def awaiting (s : State) (q : BitVec 4) (b a : BitVec 6) (o : Option Tag) : Sema := ⟨(getSema s.me q).count, (sVal s b).setWidth 32, true, .s a, o⟩

theorem sema_issues (hr : Ready s (.sema g q b a)) (hu : replicated s s.me = false) (hg : (gangOf s s.me).isSome = true) (ho : (getSema s.me q).out = false) :
    ∃ t o, exec (.sema g q b a) s = .next t ∧ Advanced s t ∧ t.timers = s.timers ++ [⟨s.clock + 1, .semaFill s.me.sid q⟩] ∧
      getSema t.me q = awaiting s q b a o ∧ (a = 0 → o = none) ∧ (a ≠ 0 → ∃ g, o = some g ∧ Owed s t (.s a) g) ∧
      ((s.me.q.toList.all fun q => !q.out) = true → ∀ k, k ≠ q → getSema t.me k = getSema s.me k) ∧
      Kept (withMe s { s.me with q := s.me.q.set q.toNat (awaiting s q b a o) (by omega) }) t [.s a] := by
  have hstop : stopOf s [(0, .sema g q b a)] = none := stop_ready s 0 _ hr rfl rfl sema_access (by rw [sema_hold hg, ho]; rfl) (Nat.zero_le _) rfl (bankStop_none s 0 _ fun _ => rfl)
  obtain ⟨p, rd, cs, rg, lg, qq, sr, o, e, hcs, hq, hz, hf, hn⟩ := obligate_inSlot s 0 (.s a) false hr.1.2.1 hr.1.2.2.2.2.2.2.1
  have hsema : getSema (obligate (inSlot s 0) (.s a) false).1.me q = getSema s.me q := by
    obtain ⟨p, r, cs, e, -⟩ := inSlot_shape s 0
    have hm : getSema (inSlot s 0).me q = getSema s.me q := by rw [e]; rfl
    exact (obligate_sema (.s a) false (hm ▸ ho)).trans hm
  rw [e] at hsema
  have hrid : (if regFixed (.s a) then RegId.s 0 else .s a) = .s a := by
    by_cases h0 : a = 0
    · rw [h0]; rfl
    · rw [if_neg (by rw [fixed_s]; exact beq_iff_eq.not.mpr h0)]
  let u : State := { s with
    me := putSema { issuing s p rd with regs := rg, log := lg, q := qq, serials := sr } q (awaiting s q b a o)
    cores := cs, issue := some ⟨s.me.regs, s.me.h, s.me.loop, 0⟩, timers := s.timers ++ [⟨s.clock + 1, .semaFill s.me.sid q⟩] }
  have heff : exec (.sema g q b a) s = .next (closeIssue u) := by
    refine (effect_of s 0 (.sema g q b a) _ hr.1 hr.2.1 hstop).trans ?_
    simp only [obligateAgreed, (replicated_inSlot 0).trans hu, Bool.not_false, if_true, e, rdS_inSlot s 0 b hr.1.2.1, rot_inSlot s 0 _ hr.1.2.1, hrid, inSlot_sid]
    simp only [setMe, after, addTimer, u, awaiting, ← hsema]
    rfl
  refine ⟨_, o, heff, ?_⟩
  rw [closeIssue_calm (u := u) hr.1 rfl rfl rfl]
  refine ⟨⟨rfl, rfl⟩, rfl, ?_, fun h0 => (hf (by rw [fixed_s, h0]; rfl)).1, fun h0 => ?_, fun hall j hj => ?_, fun r h => hz r (by simpa using h), ⟨rfl, fun h => ?_⟩, ?_, hcs _ rfl,
    fun _ => rfl, fun _ => rfl⟩
  · simp [u, getSema, putSema]
  · obtain ⟨t, rfl, h1, h2, h3, h4⟩ := hn (by rw [fixed_s]; exact beq_false_of_ne h0)
    exact ⟨t, rfl, h1, h2, h3, h4⟩
  · have hne : q.toNat ≠ j.toNat := fun h => hj (BitVec.eq_of_toNat_eq h).symm
    simp [u, getSema, putSema, Vector.getElem_set_ne _ _ hne, hq hall]
  · have hmem : awaiting s q b a o ∈ (s.me.q.set q.toNat (awaiting s q b a o) (by omega)).toList := by
      rw [Vector.mem_toList_iff, Vector.mem_iff_getElem]
      exact ⟨q.toNat, by omega, by simp⟩
    exact absurd (List.all_eq_true.mp h _ hmem) (by simp [awaiting])
  · rw [← hr.1.1]

/-- A resident strand is edited where it stands (R32). -/
theorem editStrand_resident {sid : Nat} {t : Strand} {ev : Instr} {f : Strand → Strand} (ht : getStrand s sid = some t) (hr : resident t = true) :
    editStrand s sid ev f = updStrand s sid f := by
  have hd : (t.st == .done) = false := by
    cases h : t.st <;> simp_all [resident]
  simp [editStrand, ht, hd, hr]

theorem semaSum_eq (c n : BitVec 32) : semaSum c n = countSum c n := by
  unfold semaSum countSum
  apply BitVec.eq_of_toNat_eq
  split
  · rw [min_eq_right (by omega)]; rfl
  · rw [min_eq_left (by omega), BitVec.toNat_add, BitVec.toNat_ofNat]

theorem semr_adds (hr : Ready s (.semr g q b)) (hp : s.me.replay = none) (hl : s.me.loc.isSome = true) : ∃ t, exec (.semr g q b) s = .next t ∧ Advanced s t ∧
    t.timers = s.timers ++ [⟨s.clock, .semaFill s.me.sid q⟩] ∧
    t.me.q = s.me.q.set q.toNat { getSema s.me q with count := countSum (getSema s.me q).count ((sVal s b).setWidth 32) } (by omega) ∧
    Kept (withMe s { replayOnce s with q := t.me.q }) t [] := by
  obtain ⟨p, rd, cs, heff, hcs⟩ := performs_once (f := fun s => semaInc s s.me.sid q ((rdS s b).setWidth 32) (.semaFill s.me.sid q)) hr.1 hr.2.1 (stop_operandsOnly s 0 _ hr rfl) hp
  let v := performing s p rd cs
  let u : State := { v with me := putSema v.me q { getSema s.me q with count := countSum (getSema s.me q).count ((sVal s b).setWidth 32) }
                            timers := s.timers ++ [⟨s.clock, .semaFill s.me.sid q⟩] }
  have hinc : semaInc v v.me.sid q ((rdS v b).setWidth 32) (.semaFill v.me.sid q) = u := by
    rw [rdS_performing hr.1, semaInc, editStrand_resident (t := v.me) (if_pos rfl) (by simp [v, performing, issuing, resident, hl]), updStrand, if_pos rfl]
    simp only [semaSum_eq]
    rfl
  refine ⟨closeIssue u, heff.trans (congrArg (fun t => Host.Outcome.next (closeIssue t)) hinc), ?_⟩
  rw [closeIssue_calm (u := u) hr.1 rfl rfl rfl]
  refine ⟨⟨rfl, rfl⟩, rfl, rfl, fun _ _ => rfl, ⟨rfl, fun _ => rfl⟩, ?_, hcs _ _ rfl rfl, fun _ => rfl, fun _ => rfl⟩
  rw [← hr.1.1]
  rfl

theorem semaFill_takes {sid : Nat} {t : Strand} (ht : getStrand s sid = some t) (hr : resident t = true) (ho : (getSema t q).out = true) (hn : (getSema t q).await ≤ (getSema t q).count) :
    exec (.semaFill sid q) s = .next (deliverNow (updStrand s sid fun u => { u with q := u.q.set q.toNat ⟨(getSema t q).count - (getSema t q).await, 0, false, .s 0, none⟩ (by omega) })
      sid (getSema t q).tag (.value ((getSema t q).count.setWidth 1024))) := by
  have hd : (t.st == .done) = false := by
    cases h : t.st <;> simp_all [resident]
  have hready : semaReady (getSema t q) = true := by simp [semaReady, ho, hn]
  show execSemaFill sid q s = _
  unfold execSemaFill
  simp only [ht, trapView, hr, Bool.true_or, if_true, hd, hready, Bool.not_true, Bool.or_self, Bool.false_eq_true, if_false, editStrand_resident ht hr]
  rfl

/-! ## Barriers -/

/-- A gang with barrier k replaced. -/
def setBarrier (k : BitVec 4) (x : Barrier) (h : Gang) : Gang := { h with barriers := h.barriers.set k.toNat x (by omega) }

/-- An edit of a gang that another follows at once. -/
theorem updGang_updGang {gid : Nat} {f f' : Gang → Gang} (hf : ∀ g, (f g).gid = g.gid) : updGang (updGang u gid f) gid f' = updGang u gid fun g => f' (f g) := by
  have h (l : List Gang) : updFirst (fun g => g.gid == gid) f' (updFirst (fun g => g.gid == gid) f l) = updFirst (fun g => g.gid == gid) (fun g => f' (f g)) l := by
    induction l with
    | nil => rfl
    | cons x l ih => by_cases hx : x.gid = gid <;> simp [updFirst, hf, hx, ih]
  simp only [updGang, h]

section
variable {h : Gang} {gid : Nat} (hh : getGang u gid = some h) (hs : h.saved = none)
include hh hs

/-- The barrier of a gang that is not saved is replaced in its cluster alone. -/
theorem putBarrier_unsaved (x : Barrier) : putBarrier u gid k x = updGang u gid (setBarrier k x) := by
  simp only [putBarrier, hh, hs, Option.isNone_none, if_true]
  rfl

/-- Storing a barrier and testing its phase (R107). -/
theorem checkPhase_put (y : Barrier) : checkPhase (putBarrier u gid k y) gid k =
    if phaseDone y then wakeWaiters (updGang u gid (setBarrier k (nextPhase y))) y (.value (y.phase.setWidth 1024)) else updGang u gid (setBarrier k y) := by
  have hg : getGang (updGang u gid (setBarrier k y)) gid = some (setBarrier k y h) := getGang_updGang (fun _ => rfl) hh
  have hget : getBarrier (updGang u gid (setBarrier k y)) gid k = some y := by simp [getBarrier, hg, setBarrier]
  rw [putBarrier_unsaved hh hs, checkPhase, hget]
  dsimp only
  split
  · rw [putBarrier_unsaved hg hs, updGang_updGang (f := setBarrier k y) fun _ => rfl]
    simp only [setBarrier, Vector.set_set]
    rfl
  · rfl

end

section
variable {h : Gang} {x : Barrier} (hh : gangOf s s.me = some h) (hx : h.barriers[k.toNat]'(by omega) = x)
include hh hx

theorem getBarrier_own : getBarrier s s.me.gid k = some x := by
  rw [getBarrier, show getGang s s.me.gid = some h from hh, ← hx]
  rfl

/-- KARR and KDROP are refused only at a barrier that has all its arrivals (R107). -/
theorem arrivalTrap_eq (hp : s.me.replay = none) : arrivalTrap s k = if x.bad = false ∧ x.arrived = x.expa then some (.barrierOverarrival, 0, 0) else none := by
  simp [arrivalTrap, getBarrier_own hh hx, replaysNow, hp]

theorem karr_access (hp : s.me.replay = none) :
    accessTrap s (0, .karr g k a) = if x.bad = false ∧ x.arrived = x.expa then some (.trap .barrierOverarrival 1 0 0) else none := by
  simp only [accessTrap, hh, arrivalTrap_eq hh hx hp]
  split <;> rfl

theorem kdrop_access (hp : s.me.replay = none) :
    accessTrap s (0, .kdrop g k) = if x.bad = false ∧ x.arrived = x.expa then some (.trap .barrierOverarrival 1 0 0) else none := by
  simp only [accessTrap, hh, arrivalTrap_eq hh hx hp]
  split <;> rfl

theorem karr_unstopped (hp : s.me.replay = none) (hr : Ready s (.karr g k a)) (hn : ¬ (x.bad = false ∧ x.arrived = x.expa)) : stopOf s [(0, .karr g k a)] = none :=
  stop_ready s 0 _ hr rfl rfl ((karr_access hh hx hp).trans (if_neg hn)) (by simp [slotHold, hh, ordersAcq, arrayOf, nearSpans]) (Nat.zero_le _) rfl (bankStop_none s 0 _ fun _ => rfl)

theorem kdrop_unstopped (hp : s.me.replay = none) (hr : Ready s (.kdrop g k)) (hn : ¬ (x.bad = false ∧ x.arrived = x.expa)) : stopOf s [(0, .kdrop g k)] = none :=
  stop_ready s 0 _ hr rfl rfl ((kdrop_access hh hx hp).trans (if_neg hn)) (by simp [slotHold, hh, ordersAcq, arrayOf, nearSpans]) (Nat.zero_le _) rfl (bankStop_none s 0 _ fun _ => rfl)

theorem overarrival (hp : s.me.replay = none) (hb : x.bad = false) (ha : x.arrived = x.expa) :
    (Ready s (.karr g k a) → exec (.karr g k a) s = .next (takeTrap s .barrierOverarrival 1 0 0)) ∧ (Ready s (.kdrop g k) → exec (.kdrop g k) s = .next (takeTrap s .barrierOverarrival 1 0 0)) := by
  refine ⟨fun hr => ?_, fun hr => ?_⟩
  · exact slotOp_stop s 0 _ _ (.trap .barrierOverarrival 1 0 0) hr.1.1
      (stop_access s 0 _ _ hr.1 hr.2.1 (fun r h => hr.2.2 r (by simpa [readsOf, portOnly, examinedOf] using h)) rfl rfl ((karr_access hh hx hp).trans (if_pos ⟨hb, ha⟩)))
  · exact slotOp_stop s 0 _ _ (.trap .barrierOverarrival 1 0 0) hr.1.1
      (stop_access s 0 _ _ hr.1 hr.2.1 (fun r h => hr.2.2 r (by simpa [readsOf, portOnly, examinedOf] using h)) rfl rfl ((kdrop_access hh hx hp).trans (if_pos ⟨hb, ha⟩)))

end

/-- A bundle as above that has obligated a register. -/
def arriving (s : State) (p : Vector Word 8) (rd : Nat) (cs : List Core) (rg : RegFile) (lg : List LogEntry) (qq : Vector Sema 16) (sr : List (Nat × Bool)) : State :=
  { performing s p rd cs with me := { (performing s p rd cs).me with regs := rg, log := lg, q := qq, serials := sr } }

/-- What KINIT makes of its counts word (R106). -/
theorem freshBarrier_eq (w : Word) : freshBarrier w =
    { expa := BitVec.ofNat 7 (wbits w 0 7), expb := w.extractLsb' 32 32, arrived := 0, drops := 0, bytes := 0, phase := 0
      bad := wbits w 0 7 == 0 || decide (64 < wbits w 0 7) || wbits w 7 25 != 0, waiters := [] } := by
  have hlow : wbits w 0 7 = w.toNat % 2 ^ 7 := by simp [wbits, bitsOf]
  have hmid : wbits w 7 25 = w.toNat / 2 ^ 7 % 2 ^ 25 := by simp [wbits, bitsOf, Nat.shiftRight_eq_div_pow]
  have ha : w.setWidth 7 = BitVec.ofNat 7 (wbits w 0 7) := by
    rw [hlow]; apply BitVec.eq_of_toNat_eq; simp
  have hb : (w >>> 32).setWidth 32 = w.extractLsb' 32 32 := by
    apply BitVec.eq_of_toNat_eq; simp [BitVec.extractLsb'_toNat]
  rw [freshBarrier, ha, hb, hlow, hmid]
  congr 1
  simp [bne, Bool.decide_or, Bool.or_assoc, beq_eq_decide]

section
variable {h : Gang} {x : Barrier} (hh : gangOf s s.me = some h) (hx : h.barriers[k.toNat]'(by omega) = x) (hs : h.saved = none) (hp : s.me.replay = none)
include hh hx hs hp

/-- The arrival of KARR amid its bundle: its future waits at the barrier, whose phase is then tested (R107). -/
theorem karr_arrives (hr : Ready s (.karr g k a)) (hb : x.bad = false) (ha : x.arrived ≠ x.expa) : ∃ p rd cs rg lg qq sr, ∃ o : Option Tag,
    let v := arriving s p rd cs rg lg qq sr
    let y : Barrier := { x with arrived := x.arrived + 1, waiters := x.waiters ++ [(s.me.sid, o)] }
    exec (.karr g k a) s = .next (closeIssue (if phaseDone y then wakeWaiters (withBarrier v k (nextPhase y)) y (.value (y.phase.setWidth 1024)) else withBarrier v k y)) ∧
    SameEngines cs s.cores ∧ (a = 0 → o = none) ∧ (a ≠ 0 → ∃ g, o = some g ∧ Owed s v (.s a) g) ∧ RegsKept s v [.s a] ∧ ((s.me.q.toList.all fun q => !q.out) = true → qq = s.me.q) := by
  obtain ⟨p, rd, cs, heff, hcs⟩ := performs_once hr.1 hr.2.1 (karr_unstopped hh hx hp hr fun h => ha h.2) hp
  have hrot : rot (performing s p rd cs) (.s a) = .s a := rotReg_idle _ _ hr.1.2.1
  obtain ⟨lg, qq, sr, rg, o, e, hz, hf, hn, hq⟩ := obligate_ex (performing s p rd cs) (.s a) false hrot hr.1.2.2.2.2.2.2.1
  refine ⟨p, rd, cs, rg, lg, qq, sr, o, heff.trans ?_, hcs, fun h0 => (hf (by rw [fixed_s, h0]; rfl)).1, fun h0 => ?_, fun r h => hz r (by simpa using h), hq⟩
  · have hget : getBarrier (performing s p rd cs) (performing s p rd cs).me.gid k = some x := getBarrier_own hh hx
    simp only [hget, hb, Bool.false_eq_true, if_false, e]
    exact congrArg (fun t => Host.Outcome.next (closeIssue t)) (checkPhase_put (u := arriving s p rd cs rg lg qq sr) hh hs _)
  · obtain ⟨t, rfl, h1, h2, h3, h4⟩ := hn (by rw [fixed_s]; exact beq_false_of_ne h0)
    exact ⟨t, rfl, h1, h2, h3, h4⟩

theorem karr_waits (hr : Ready s (.karr g k a)) (hb : x.bad = false) (ha : x.arrived ≠ x.expa) (hd : ¬ phaseDone { x with arrived := x.arrived + 1 }) :
    ∃ t o, exec (.karr g k a) s = .next t ∧ Advanced s t ∧ t.timers = s.timers ∧ (a = 0 → o = none) ∧ (a ≠ 0 → ∃ g, o = some g ∧ Owed s t (.s a) g) ∧
      Kept (withMe (withBarrier s k { x with arrived := x.arrived + 1, waiters := x.waiters ++ [(s.me.sid, o)] }) (replayOnce s)) t [.s a] := by
  obtain ⟨p, rd, cs, rg, lg, qq, sr, o, heff, hcs, h0, hn, hregs, hq⟩ := karr_arrives hh hx hs hp hr hb ha
  rw [if_neg hd] at heff
  refine ⟨_, o, heff, ?_⟩
  rw [closeIssue_calm (u := withBarrier (arriving s p rd cs rg lg qq sr) k _) hr.1 rfl rfl rfl]
  refine ⟨⟨rfl, rfl⟩, rfl, h0, hn, hregs, ⟨rfl, hq⟩, ?_, hcs _ _ rfl rfl, fun _ => rfl, fun _ => rfl⟩
  rw [← hr.1.1]; rfl

theorem karr_completes (hr : Ready s (.karr g k a)) (hb : x.bad = false) (ha : x.arrived ≠ x.expa) (hd : phaseDone { x with arrived := x.arrived + 1 }) (hw : x.waiters = []) :
    ∃ t, exec (.karr g k a) s = .next t ∧ Advanced s t ∧ DeliversIn s t (.s a) 1 (.value (x.phase.setWidth 1024)) ∧
      Kept (withMe (withBarrier s k (nextPhase { x with arrived := x.arrived + 1 })) (replayOnce s)) t [.s a] := by
  obtain ⟨p, rd, cs, rg, lg, qq, sr, o, heff, hcs, h0, hn, hregs, hq⟩ := karr_arrives hh hx hs hp hr hb ha
  let v := withBarrier (arriving s p rd cs rg lg qq sr) k (nextPhase { x with arrived := x.arrived + 1 })
  let u : State := { v with timers := o.elim s.timers fun t => s.timers ++ [⟨s.clock + 1, .delivery s.me.sid t (.value (x.phase.setWidth 1024))⟩] }
  have hwake : wakeWaiters v { x with arrived := x.arrived + 1, waiters := x.waiters ++ [(s.me.sid, o)] } (.value (x.phase.setWidth 1024)) = u := by
    rw [wakeWaiters, hw]
    cases o <;> rfl
  rw [if_pos hd] at heff
  refine ⟨closeIssue u, heff.trans (congrArg (fun t => Host.Outcome.next (closeIssue t)) hwake), ?_⟩
  rw [closeIssue_calm (u := u) hr.1 rfl rfl rfl]
  refine ⟨⟨rfl, rfl⟩, ?_, hregs, ⟨rfl, hq⟩, ?_, hcs _ _ rfl rfl, fun _ => rfl, fun _ => rfl⟩
  · unfold DeliversIn
    rw [fixed_s]
    by_cases ha0 : a = 0
    · rw [if_pos (by rw [ha0]; rfl)]
      simp [u, h0 ha0]
    · obtain ⟨t, rfl, ht⟩ := hn ha0
      rw [if_neg (by simpa using ha0)]
      exact ⟨t, ht, rfl⟩
  · rw [← hr.1.1]; rfl

omit hs in
theorem karr_bad (hr : Ready s (.karr g k a)) (hb : x.bad = true) (ha : a ≠ 0) : ∃ t, exec (.karr g k a) s = .next t ∧ Advanced s t ∧ t.timers = s.timers ∧
    (t.me.regs.get (.s a)).st = .poisoned ∧ (t.me.regs.get (.s a)).val = 5 ∧ Kept (withMe s (replayOnce s)) t [.s a] := by
  have hstop : stopOf s [(0, .karr g k a)] = none := karr_unstopped hh hx hp hr fun h => by simp [hb] at h
  obtain ⟨p, rd, cs, heff, hcs⟩ := performs_once hr.1 hr.2.1 hstop hp
  have hrot : rot (performing s p rd cs) (.s a) = .s a := rotReg_idle _ _ hr.1.2.1
  have hget : getBarrier (performing s p rd cs) (performing s p rd cs).me.gid k = some x := getBarrier_own hh hx
  obtain ⟨lg, qq, sr, e, hq⟩ := writeReg_ex (performing s p rd cs).me (.s a) (RegVal.poison .barrier (s.me.regs.get (.s a)).tag)
  let u := arriving s p rd cs (s.me.regs.put (.s a) (RegVal.poison .barrier (s.me.regs.get (.s a)).tag)) lg qq sr
  have hpoison : poisonReg (performing s p rd cs) (.s a) .barrier = u := by
    simp only [poisonReg, setMe, hrot]
    exact congrArg (withMe (performing s p rd cs)) e
  have hsame := RegFile.get_put_same s.me.regs (RegVal.poison .barrier (s.me.regs.get (.s a)).tag) (x := .s a) (by rw [fixed_s]; exact beq_false_of_ne ha)
  refine ⟨closeIssue u, heff.trans ?_, ?_⟩
  · simp only [hget, hb, if_true, hpoison]
  rw [closeIssue_calm (u := u) hr.1 rfl rfl rfl]
  refine ⟨⟨rfl, rfl⟩, rfl, congrArg RegVal.st hsame, (congrArg RegVal.val hsame).trans ?_, fun r h => ?_, ⟨rfl, fun h => (hq h).1⟩, ?_, hcs _ _ rfl rfl, fun _ => rfl, fun _ => rfl⟩
  · simp [fitReg, RegVal.poison, poisonCode]
  · exact RegFile.get_put_other _ _ (by simpa using h)
  · rw [← hr.1.1]; rfl

theorem kdrop_arrives (hr : Ready s (.kdrop g k)) (hb : x.bad = false) (ha : x.arrived ≠ x.expa) (hw : phaseDone { x with arrived := x.arrived + 1, drops := x.drops + 1 } → x.waiters = []) :
    let y := { x with arrived := x.arrived + 1, drops := x.drops + 1 }
    ∃ t, exec (.kdrop g k) s = .next t ∧ Advanced s t ∧ t.timers = s.timers ∧ Kept (withMe (withBarrier s k (if phaseDone y then nextPhase y else y)) (replayOnce s)) t [] := by
  intro y
  obtain ⟨p, rd, cs, heff, hcs⟩ := performs_once hr.1 hr.2.1 (kdrop_unstopped hh hx hp hr fun h => ha h.2) hp
  have hget : getBarrier (performing s p rd cs) (performing s p rd cs).me.gid k = some x := getBarrier_own hh hx
  let u := withBarrier (performing s p rd cs) k (if phaseDone y then nextPhase y else y)
  have hphase : checkPhase (putBarrier (performing s p rd cs) s.me.gid k y) s.me.gid k = u := by
    rw [checkPhase_put (u := performing s p rd cs) hh hs]
    by_cases hd : phaseDone y
    · simp only [u, if_pos hd, wakeWaiters, show y.waiters = [] from hw hd]
      rfl
    · simp only [u, if_neg hd]
      rfl
  refine ⟨closeIssue u, heff.trans ?_, ?_⟩
  · simp only [hget]
    rw [if_neg (by rw [hb]; exact Bool.false_ne_true)]
    exact congrArg (fun t => Host.Outcome.next (closeIssue t)) hphase
  rw [closeIssue_calm (u := u) hr.1 rfl rfl rfl]
  refine ⟨⟨rfl, rfl⟩, rfl, fun _ _ => rfl, ⟨rfl, fun _ => rfl⟩, ?_, hcs _ _ rfl rfl, fun _ => rfl, fun _ => rfl⟩
  rw [← hr.1.1]; rfl

theorem kinit_sets (hr : Ready s (.kinit g k b)) (hw : x.waiters = []) :
    ∃ t, exec (.kinit g k b) s = .next t ∧ Advanced s t ∧ t.timers = s.timers ∧ Kept (withMe (withBarrier s k (freshBarrier (sVal s b))) (replayOnce s)) t [] := by
  obtain ⟨p, rd, cs, heff, hcs⟩ := performs_once hr.1 hr.2.1 (stop_operandsOnly s 0 _ hr rfl) hp
  have hget : getBarrier (performing s p rd cs) (performing s p rd cs).me.gid k = some x := getBarrier_own hh hx
  let u := withBarrier (performing s p rd cs) k (freshBarrier (sVal s b))
  refine ⟨closeIssue u, heff.trans ?_, ?_⟩
  · simp only [hget, rdS_performing hr.1, wakeWaiters, hw, List.foldl_nil]
    refine congrArg (fun t => Host.Outcome.next (closeIssue t)) ((putBarrier_unsaved (u := performing s p rd cs) hh hs _).trans ?_)
    rw [← freshBarrier_eq]
    rfl
  rw [closeIssue_calm (u := u) hr.1 rfl rfl rfl]
  refine ⟨⟨rfl, rfl⟩, rfl, fun _ _ => rfl, ⟨rfl, fun _ => rfl⟩, ?_, hcs _ _ rfl rfl, fun _ => rfl, fun _ => rfl⟩
  rw [← hr.1.1]; rfl

end

/-- Settles O13: each instruction is the edit of one semaphore or one barrier amid its bundle, and the count or the phase is tested after it. -/
theorem semaphoresAndBarriers : Obligations.SemaphoresAndBarriers := by
  refine ⟨fun s g q b a => ⟨fun hr hu hg => ⟨sema_waits hr hg, sema_issues hr hu hg⟩, semr_adds, fun sid t => semaFill_takes⟩, fun s g k a b h x hh hx hs hp => ?_⟩
  exact ⟨karr_waits hh hx hs hp, karr_completes hh hx hs hp, karr_bad hh hx hp, kdrop_arrives hh hx hs hp, overarrival hh hx hp, kinit_sets hh hx hs hp⟩

end Sys2Proof.Machine
end

section
/-! PROOFS. Fences (O14): ACQ and NFENCE put the accesses outstanding on the strand's list, and change nothing else. -/

namespace Sys2Proof.Machine
open Sys2Proof Claims

variable {s : State}

/-- The far loads and atomics of the strand at issue that have not been performed (R321). -/
def farOutstanding (s : State) : List Nat :=
  (s.farLoads.filter fun l => l.sid == s.me.sid && !l.done).map (·.id) ++ (s.farAtoms.filter fun a => a.sid == s.me.sid).map (·.id)

/-- The near accesses of the strand at issue that have not been performed (R111). -/
def nearOutstanding (s : State) : List Nat := (s.nearOps.filter fun o => o.sid == s.me.sid).map (·.id)

theorem mem_farOutstanding {id : Nat} :
    id ∈ farOutstanding s ↔ (∃ l ∈ s.farLoads, l.id = id ∧ l.sid = s.me.sid ∧ l.done = false) ∨ ∃ x ∈ s.farAtoms, x.id = id ∧ x.sid = s.me.sid := by
  simp only [farOutstanding, List.mem_append, List.mem_map, List.mem_filter, Bool.and_eq_true, beq_iff_eq, Bool.not_eq_true']
  constructor
  · rintro (⟨l, ⟨hl, hs, hd⟩, e⟩ | ⟨x, ⟨hx, hs⟩, e⟩)
    · exact .inl ⟨l, hl, e, hs, hd⟩
    · exact .inr ⟨x, hx, e, hs⟩
  · rintro (⟨l, hl, e, hs, hd⟩ | ⟨x, hx, e, hs⟩)
    · exact .inl ⟨l, ⟨hl, hs, hd⟩, e⟩
    · exact .inr ⟨x, ⟨hx, hs⟩, e⟩

theorem mem_nearOutstanding {id : Nat} : id ∈ nearOutstanding s ↔ ∃ o ∈ s.nearOps, o.id = id ∧ o.sid = s.me.sid := by
  simp only [nearOutstanding, List.mem_map, List.mem_filter, beq_iff_eq]
  exact ⟨fun ⟨o, ⟨ho, hs⟩, e⟩ => ⟨o, ho, e, hs⟩, fun ⟨o, ho, e, hs⟩ => ⟨o, ⟨ho, hs⟩, e⟩⟩

theorem acq_wider {g : BitVec 4} {f : Scope} (hr : Ready s (.acq g f)) (hf : f ≠ .context) :
    exec (.acq g f) s = .next (closeIssue (setMe (inSlot s 0) fun t => { t with acqFence := (t.acqFence ++ farOutstanding s).dedup })) := by
  obtain ⟨p, r, cs, hi, -⟩ := inSlot_shape s 0
  refine (effect_operandsOnly s 0 (.acq g f) _ hr rfl).trans ?_
  have hsid : (inSlot s 0).me.sid = s.me.sid := inSlot_sid s 0
  have hloads : (inSlot s 0).farLoads = s.farLoads := by rw [hi]
  have hatoms : (inSlot s 0).farAtoms = s.farAtoms := by rw [hi]
  rw [if_neg (by simpa using hf)]
  simp only [hsid, hloads, hatoms, farOutstanding, List.append_assoc]

theorem acq_fences {g : BitVec 4} {f : Scope} (hr : Ready s (.acq g f)) (hf : f ≠ .context) : ∃ t, exec (.acq g f) s = .next t ∧ Advanced s t ∧ t.timers = s.timers ∧
    Kept (withMe s { s.me with acqFence := t.me.acqFence }) t [] ∧ t.me.acqFence = (farOutstanding s).dedup := by
  obtain ⟨p, r, cs, hc, hcs⟩ := edit_closed s 0 (fun t => { t with acqFence := (t.acqFence ++ farOutstanding s).dedup }) hr.1 (fun _ => rfl) fun _ => rfl
  have hempty : s.me.acqFence = [] := hr.1.2.2.2.2.1
  refine ⟨_, acq_wider hr hf, ?_⟩
  rw [hc]
  refine ⟨⟨rfl, rfl⟩, rfl, ⟨fun _ _ => rfl, ⟨rfl, fun _ => rfl⟩, rfl, hcs _ rfl, fun _ => rfl, fun _ => rfl⟩, ?_⟩
  simp only [hempty, List.nil_append]

theorem acq_context {g : BitVec 4} (hr : Ready s (.acq g .context)) : ∃ t, exec (.acq g .context) s = .next t ∧ Advanced s t ∧ t.timers = s.timers ∧
    Kept (withMe s { s.me with acqFence := t.me.acqFence }) t [] ∧ t.me.acqFence = [] := by
  obtain ⟨p, r, cs, hc, hcs⟩ := edit_closed s 0 id hr.1 (fun _ => rfl) fun _ => rfl
  refine ⟨_, effect_operandsOnly s 0 (.acq g .context) _ hr rfl, ?_⟩
  rw [if_pos (by decide), show inSlot s 0 = setMe (inSlot s 0) id from rfl, hc]
  exact ⟨⟨rfl, rfl⟩, rfl, ⟨fun _ _ => rfl, ⟨rfl, fun _ => rfl⟩, rfl, hcs _ rfl, fun _ => rfl, fun _ => rfl⟩, hr.1.2.2.2.2.1⟩

theorem nfence_fences {g : BitVec 4} (hr : Ready s (.nfence g)) : ∃ t, exec (.nfence g) s = .next t ∧ Advanced s t ∧ t.timers = s.timers ∧
    Kept (withMe s { s.me with nearFence := t.me.nearFence }) t [] ∧ t.me.nearFence = nearOutstanding s := by
  obtain ⟨p, r, cs, hi, -⟩ := inSlot_shape s 0
  have hops : (inSlot s 0).nearOps = s.nearOps := by rw [hi]
  obtain ⟨p, r, cs, hc, hcs⟩ := edit_closed s 0 (fun t => { t with nearFence := (s.nearOps.filter fun o => o.sid == t.sid).map (·.id) }) hr.1 (fun _ => rfl) fun _ => rfl
  refine ⟨_, effect_operandsOnly s 0 (.nfence g) _ hr rfl, ?_⟩
  rw [hops, hc]
  exact ⟨⟨rfl, rfl⟩, rfl, ⟨fun _ _ => rfl, ⟨rfl, fun _ => rfl⟩, rfl, hcs _ rfl, fun _ => rfl, fun _ => rfl⟩, rfl⟩

/-- Settles O14: a fence is the list of what is outstanding, and the strand had none before. -/
theorem fences : Obligations.Fences := by
  refine fun s g f => ⟨fun hr => ?_, fun hr => ?_⟩
  · by_cases hf : f = .context
    · subst hf
      obtain ⟨t, he, ha, ht, hk, hfence⟩ := acq_context hr
      exact ⟨t, he, ha, ht, hk, fun id => by simp [hfence]⟩
    · obtain ⟨t, he, ha, ht, hk, hfence⟩ := acq_fences hr hf
      exact ⟨t, he, ha, ht, hk, fun id => by rw [hfence, List.mem_dedup, mem_farOutstanding, and_iff_right hf]⟩
  · obtain ⟨t, he, ha, ht, hk, hfence⟩ := nfence_fences hr
    exact ⟨t, he, ha, ht, hk, fun id => by rw [hfence, mem_nearOutstanding]⟩

end Sys2Proof.Machine
end

section
/-! PROOFS. Tile loops (O15): NEST waits for its record and takes a static slice or joins the shared counter; NEXT unpacks a tile number into its indices. -/

namespace Sys2Proof.Machine
open Sys2Proof Claims

variable {s : State} {g : BitVec 4} {a b : BitVec 6} {h : Gang}

/-! ## Tile numbers and their indices (R112) -/

theorem wbits_tiles (counts : Word) (d : Nat) : wbits counts (16 * d) 16 = tiles counts d := by
  simp [wbits, bitsOf, tiles, Nat.shiftRight_eq_div_pow]

theorem tileIndex_lt {counts : Word} {n t d : Nat} (hp : ∀ e, e ≤ n → 0 < tiles counts e) : tileIndex counts n t d < 2 ^ 16 := by
  unfold tileIndex
  split
  · decide
  · exact (Nat.mod_lt _ (hp d (by omega))).trans (Nat.mod_lt _ (by decide))

/-- The word of a tile packs its four indices, 0 in the dimensions that the nest does not have. -/
theorem tileWord_eq {counts : Word} {n t : Nat} (hn : n < 4) (hp : ∀ e, e ≤ n → 0 < tiles counts e) :
    tileWord counts n t = packWord [(tileIndex counts n t 0, 0), (tileIndex counts n t 1, 16), (tileIndex counts n t 2, 32), (tileIndex counts n t 3, 48)] := by
  have hmax (d : Nat) (hd : d ≤ n) : max (wbits counts (16 * d) 16) 1 = tiles counts d := by rw [wbits_tiles, max_eq_left (hp d hd)]
  have hfold (ds : List Nat) (hds : (upto (n + 1)).reverse = ds) : tileWord counts n t =
      packWord (ds.foldl (fun (acc : Nat × List (Nat × Nat)) d => (acc.1 / tiles counts d, (acc.1 % tiles counts d, 16 * d) :: acc.2)) (t, [])).2 := by
    rw [tileWord, ← hds]
    refine congrArg (fun r : Nat × List (Nat × Nat) => packWord r.2) (List.foldl_ext _ _ _ fun acc d hd => ?_)
    have hle : d ≤ n := by simpa [upto, Nat.lt_succ_iff] using hd
    rw [hmax d hle]
  interval_cases n
  · rw [hfold [0] rfl]
    simp [tileIndex, packWord, List.range_succ]
  · rw [hfold [1, 0] rfl]
    simp [tileIndex, packWord, List.range_succ]
  · rw [hfold [2, 1, 0] rfl]
    simp [tileIndex, packWord, List.range_succ, Nat.div_div_eq_div_mul, mul_comm]
  · rw [hfold [3, 2, 1, 0] rfl]
    simp [tileIndex, packWord, List.range_succ, Nat.div_div_eq_div_mul, mul_comm]

theorem packWord_digit {x0 x1 x2 x3 : Nat} (h0 : x0 < 2 ^ 16) (h1 : x1 < 2 ^ 16) (h2 : x2 < 2 ^ 16) (h3 : x3 < 2 ^ 16) :
    (packWord [(x0, 0), (x1, 16), (x2, 32), (x3, 48)]).toNat = x0 + x1 * 2 ^ 16 + x2 * 2 ^ 32 + x3 * 2 ^ 48 := by
  have hsum : [(x0, 0), (x1, 16), (x2, 32), (x3, 48)].foldl (fun a f => a + f.1 <<< f.2) 0 = x0 + x1 * 2 ^ 16 + x2 * 2 ^ 32 + x3 * 2 ^ 48 := by
    show 0 + x0 <<< 0 + x1 <<< 16 + x2 <<< 32 + x3 <<< 48 = _
    rw [Nat.shiftLeft_eq, Nat.shiftLeft_eq, Nat.shiftLeft_eq, Nat.shiftLeft_eq, pow_zero, Nat.mul_one, Nat.zero_add]
  rw [packWord, hsum, BitVec.toNat_ofNat, Nat.mod_eq_of_lt (by omega)]

theorem tileWord_index {counts : Word} {n t d : Nat} (hn : n < 4) (hp : ∀ e, e ≤ n → 0 < tiles counts e) (hd : d < 4) :
    (tileWord counts n t).toNat / 2 ^ (16 * d) % 2 ^ 16 = tileIndex counts n t d := by
  have hlt (e : Nat) : tileIndex counts n t e < 2 ^ 16 := tileIndex_lt hp
  rw [tileWord_eq hn hp, packWord_digit (hlt 0) (hlt 1) (hlt 2) (hlt 3)]
  have h0 := hlt 0
  have h1 := hlt 1
  have h2 := hlt 2
  have h3 := hlt 3
  interval_cases d <;> omega

/-! ## NEXT (R114) -/

/-- A result amid a bundle whose strand has been edited: everything that it changes. -/
theorem produce_amid {v : State} {r : RegId} {lat : Nat} {x : Payload} (hrot : rot v r = r) (hs : v.me.serials.length ≤ 1000) : ∃ rg lg qq sr, ∃ o : Option Tag,
    produce v r lat x = { v with me := { v.me with regs := rg, log := lg, q := qq, serials := sr }
                                 timers := o.elim v.timers fun t => v.timers ++ [⟨v.clock + lat, .delivery v.me.sid t x⟩] } ∧
    RegsKept v { v with me := { v.me with regs := rg, log := lg, q := qq, serials := sr } } [r] ∧ ((v.me.q.toList.all fun q => !q.out) = true → qq = v.me.q) ∧
    DeliversIn v { v with me := { v.me with regs := rg, log := lg, q := qq, serials := sr }, timers := o.elim v.timers fun t => v.timers ++ [⟨v.clock + lat, .delivery v.me.sid t x⟩] } r lat x := by
  obtain ⟨lg, qq, sr, rg, o, e, hz, hf, hn, hq⟩ := obligate_ex v r false hrot hs
  refine ⟨rg, lg, qq, sr, o, ?_, fun z h => hz z (by simpa using h), hq, ?_⟩
  · unfold produce
    simp only [e]
    cases o <;> rfl
  · unfold DeliversIn
    split
    next h => rw [(hf h).1]; rfl
    next h =>
      obtain ⟨t, rfl, h1, h2, h3, h4⟩ := hn (by simpa using h)
      exact ⟨t, ⟨h1, h2, h3, h4⟩, rfl⟩

section
variable (hr : Ready s (.next g a))
include hr

theorem next_own (hm : s.me.seq.mode = 1) (hlt : s.me.seq.nextT < s.me.seq.endT) :
    ∃ t, exec (.next g a) s = .next t ∧ Advanced s t ∧
      DeliversIn s t (.s a) 2 (.value ((tileWord s.me.seq.counts s.me.seq.ndim.toNat s.me.seq.nextT.toNat).setWidth 1024)) ∧
      Kept (withMe s { s.me with seq := { s.me.seq with nextT := s.me.seq.nextT + 1 } }) t [.s a] := by
  obtain ⟨p, rd, cs, e, hcs⟩ := inSlot_issuing s 0
  let v : State := { s with me := { issuing s p rd with seq := { s.me.seq with nextT := s.me.seq.nextT + 1 } }, cores := cs, issue := some ⟨s.me.regs, s.me.h, s.me.loop, 0⟩ }
  let x : Payload := .value ((tileWord s.me.seq.counts s.me.seq.ndim.toNat s.me.seq.nextT.toNat).setWidth 1024)
  obtain ⟨rg, lg, qq, sr, o, hprod, hregs, hq, hdel⟩ := produce_amid (v := v) (r := .s a) (lat := 2) (x := x) (rotReg_idle _ _ hr.1.2.1) hr.1.2.2.2.2.2.2.1
  have heff : exec (.next g a) s = .next (closeIssue (produce v (.s a) 2 x)) := by
    refine (effect_operandsOnly s 0 (.next g a) _ hr rfl).trans ?_
    have hseq : (inSlot s 0).me.seq = s.me.seq := by rw [e]; rfl
    have hne : ¬ (1 : BitVec 2) = 2 := by decide
    simp only [hseq, hm, hne, hlt, and_self, if_false, if_true]
    rw [e, ← hm]
    rfl
  rw [heff, hprod]
  refine ⟨_, rfl, ?_⟩
  rw [closeIssue_calm (u := { v with me := { v.me with regs := rg, log := lg, q := qq, serials := sr }, timers := _ }) hr.1 rfl rfl rfl]
  refine ⟨⟨rfl, rfl⟩, hdel, hregs, ⟨rfl, hq⟩, ?_, hcs _ _ rfl rfl, fun _ => rfl, fun _ => rfl⟩
  rw [← hr.1.1]

theorem next_none (hm : s.me.seq.mode = 0 ∨ s.me.seq.mode = 1 ∧ s.me.seq.endT ≤ s.me.seq.nextT) :
    ∃ t, exec (.next g a) s = .next t ∧ RegFrame s t [.s a] ∧ DeliversIn s t (.s a) 2 (.value ((BitVec.allOnes 64).setWidth 1024)) := by
  have hseq : (inSlot s 0).me.seq = s.me.seq := by
    obtain ⟨p, rd, cs, e, -⟩ := inSlot_issuing s 0
    rw [e]; rfl
  have h2 : ¬ s.me.seq.mode = 2 := by rcases hm with h | ⟨h, -⟩ <;> rw [h] <;> decide
  have h1 : ¬ (s.me.seq.mode = 1 ∧ s.me.seq.nextT < s.me.seq.endT) := by
    rintro ⟨h, hlt⟩
    rcases hm with h0 | ⟨-, hle⟩
    · rw [h0] at h; exact absurd h (by decide)
    · exact absurd hlt (BitVec.not_lt.mpr hle)
  obtain ⟨hd, hf⟩ := produce_closed s 0 (.s a) 2 (.value ((BitVec.allOnes 64).setWidth 1024)) hr.1
  refine ⟨_, (effect_operandsOnly s 0 (.next g a) _ hr rfl).trans ?_, hf, hd⟩
  simp only [hseq, h2, h1, if_false]
  rfl

/-- What the dynamic sequencer gives to a NEXT, and the gang that it leaves (R114). -/
def takeTile (d : DynSeq) : Word × (Gang → Gang) :=
  if d.next < d.total then (tileWord d.counts d.ndim.toNat d.next, fun g => { g with dyn := some { d with next := d.next + 1 } }) else (BitVec.allOnes 64, id)

omit hr in
theorem updFirst_id {α : Type} (p : α → Bool) (l : List α) : updFirst p id l = l := by
  induction l with
  | nil => rfl
  | cons x l ih => cases hx : p x <;> simp [updFirst, hx, ih]

theorem next_shared {d : DynSeq} (hh : gangOf s s.me = some h) (hd : h.dyn = some d) (hm : s.me.seq.mode = 2) :
    ∃ t n, exec (.next g a) s = .next t ∧ Advanced s t ∧ 1 ≤ n ∧ n ≤ 40 ∧ DeliversIn s t (.s a) n (.value ((takeTile d).1.setWidth 1024)) ∧
      Kept { s with gangs := t.gangs, fresh := s.fresh + 1 } t [.s a] ∧ t.gangs = (updGang s h.gid (takeTile d).2).gangs := by
  obtain ⟨p, rd, cs, e, hcs⟩ := inSlot_issuing s 0
  let v := opened s p rd cs 0
  let n := 1 + Config.delay s.fresh % 40
  let x : Payload := .value ((takeTile d).1.setWidth 1024)
  obtain ⟨lg, qq, sr, rg, o, hob, hz, hf, hn, hq⟩ := obligate_ex v (.s a) false (rotReg_idle _ _ hr.1.2.1) hr.1.2.2.2.2.2.2.1
  let u : State := { updGang v h.gid (takeTile d).2 with
    me := { v.me with regs := rg, log := lg, q := qq, serials := sr }, fresh := s.fresh + 1
    timers := o.elim s.timers fun t => s.timers ++ [⟨s.clock + n, .delivery s.me.sid t x⟩] }
  have heff : exec (.next g a) s = .next (closeIssue u) := by
    refine (effect_operandsOnly s 0 (.next g a) _ hr rfl).trans ?_
    have hmode : v.me.seq.mode = 2 := hm
    have hgang : gangOf v v.me = some h := hh
    rw [show inSlot s 0 = v from e]
    simp only [hmode, hgang, hob, hd, if_true]
    by_cases hlt : d.next < d.total
    · simp only [u, x, takeTile, if_pos hlt]
      cases o <;> rfl
    · simp only [u, x, takeTile, if_neg hlt, updGang, updFirst_id]
      cases o <;> rfl
  refine ⟨_, n, heff, ?_⟩
  rw [closeIssue_calm (u := u) hr.1 rfl rfl rfl]
  refine ⟨⟨rfl, rfl⟩, Nat.le_add_right 1 _, ?_, ?_, ⟨fun z h => hz z (by simpa using h), ⟨rfl, hq⟩, ?_, hcs _ _ rfl rfl, fun _ => rfl, fun _ => rfl⟩, rfl⟩
  · have := Nat.mod_lt (Config.delay s.fresh) (show 0 < 40 by decide)
    omega
  · unfold DeliversIn
    split
    next hx => simp [u, (hf hx).1]
    next hx =>
      obtain ⟨t, rfl, h1, h2, h3, h4⟩ := hn (by simpa using hx)
      exact ⟨t, ⟨h1, h2, h3, h4⟩, rfl⟩
  · rw [← hr.1.1]; rfl

end

/-! ## NEST (R113) -/

/-- An instruction that nothing else stops waits for its nest record. -/
theorem stop_nest {n : Nat} {i : Instr} {x : Stop} (hc : Calm s) (hg : GuardOn s i) (hsrc : ∀ r ∈ readsOf i ++ examinedOf i, isFull s r) (hb : beforeSources s i = none)
    (ha : afterSources s n i = none) (hacc : accessTrap s (n, i) = none) (hh : slotHold s (n, i) = none) (hline : linesNeeded s i ≤ 4) (hn : nestStop s (n, i) = some x) :
    stopOf s [(n, i)] = some x := by
  obtain ⟨hbody, hgd, hsup, hturn⟩ := turn_sources s n i hc hg hsrc hb ha
  obtain ⟨-, -, -, -, -, -, hser, hundo, hgat⟩ := hc
  have hroom := serialsOf_le s i
  have himpl : needsImplicit s [(n, i)] = false := by
    simp [needsImplicit, logFull_one s n i hundo]
    omega
  unfold stopOf
  simp only [hbody, List.findSome?_cons, hgd, List.findSome?_nil, Option.or_none, List.filter_cons, hsup, Bool.not_false, if_true, List.filter_nil, hturn, hacc, hh, hn, himpl,
    serialsNeeded, List.map_cons, List.map_nil, List.sum_cons, List.sum_nil]
  rw [if_neg (by omega)]
  rfl

/-- The gang that a strand names has that name. -/
theorem gangOf_gid {t : Strand} (h' : gangOf s t = some h) : h.gid = t.gid := by
  simpa using List.find?_some (show s.gangs.find? (fun g => g.gid == t.gid) = some h from h')

/-- The shared counter that a NEST joins, or begins anew (R113). -/
def joined (d : Option DynSeq) (x : Word) (q : SeqSt) : Option DynSeq :=
  match d with
  | some d => if d.addr = x ∧ d.next < d.total then some d else some ⟨x, 0, q.endT.toNat, q.counts, q.ndim⟩
  | none => some ⟨x, 0, q.endT.toNat, q.counts, q.ndim⟩

/-- A state whose strand takes its tiles from the gang's sequencer (R113). -/
def sharing (s : State) (gs : List Gang) : State := setMe { s with gangs := gs } fun t => { t with nestAddr := none, seq := { s.me.seq with nextT := 0, endT := 0, mode := 2 } }

theorem startNest_shared {x : Word} (hh : gangOf s s.me = some h) (hst : staticSlices s h s.me = false) :
    ∃ gs, startNest s h x = sharing s gs ∧ (getGang { s with gangs := gs } s.me.gid).bind (·.dyn) = joined h.dyn x s.me.seq := by
  let F (g : Gang) : Gang := { g with dyn := some ⟨x, 0, s.me.seq.endT.toNat, s.me.seq.counts, s.me.seq.ndim⟩ }
  have hnew : (getGang { s with gangs := (updGang s h.gid F).gangs } s.me.gid).bind (·.dyn) = some ⟨x, 0, s.me.seq.endT.toNat, s.me.seq.counts, s.me.seq.ndim⟩ := by
    rw [gangOf_gid hh, show getGang { s with gangs := (updGang s s.me.gid F).gangs } s.me.gid = some (F h) from getGang_updGang (fun _ => rfl) hh]
    rfl
  unfold startNest
  rw [hst, if_neg Bool.false_ne_true]
  cases hd : h.dyn with
  | none => exact ⟨_, rfl, hnew⟩
  | some d =>
    dsimp only
    by_cases hj : d.addr = x ∧ d.next < d.total
    · refine ⟨s.gangs, by rw [if_pos (by simpa using hj)]; rfl, ?_⟩
      rw [show getGang { s with gangs := s.gangs } s.me.gid = some h from hh, joined, if_pos hj, ← hd]
      rfl
    · refine ⟨_, by rw [if_neg (by simpa using hj)]; rfl, ?_⟩
      rw [joined, if_neg hj]
      exact hnew

section
variable (hh : gangOf s s.me = some h) (hr : Ready s (.nest g b))
include hh hr

theorem nest_access : accessTrap s (0, .nest g b) = if (sVal s b).toNat % 64 = 0 then none else some (.trap .shape 1 0 (sVal s b)) := by
  simp [accessTrap, hh, rdS_closed s b hr.1]

theorem nest_hold : slotHold s (0, .nest g b) = if staticSlices s h s.me = true ∨ nestBusy h (sVal s b) = false then none else some .hold := by
  simp only [slotHold, hh, ordersAcq, Bool.false_and, Bool.false_eq_true, if_false, rdS_closed s b hr.1]
  cases staticSlices s h s.me <;> cases nestBusy h (sVal s b) <;> rfl

theorem nest_misaligned (ha : (sVal s b).toNat % 64 ≠ 0) : exec (.nest g b) s = .next (takeTrap s .shape 1 0 (sVal s b)) :=
  slotOp_stop s 0 _ _ (.trap .shape 1 0 (sVal s b)) hr.1.1
    (stop_access s 0 _ _ hr.1 hr.2.1 (fun r h => hr.2.2 r (by simpa [readsOf, portOnly, examinedOf] using h)) rfl rfl ((nest_access hh hr).trans (if_neg ha)))

theorem nest_reads (ha : (sVal s b).toNat % 64 = 0) (hq : staticSlices s h s.me = true ∨ nestBusy h (sVal s b) = false) (hn : s.me.nestAddr ≠ some (sVal s b)) :
    exec (.nest g b) s = .next (later (withMe s { (parkedOn s none).me with nestAddr := some (sVal s b) }) (.sequencerLoad s.me.sid)) := by
  have hsrc : ∀ r ∈ readsOf (.nest g b) ++ examinedOf (.nest g b), isFull s r := fun r h => hr.2.2 r (by simpa [readsOf, portOnly, examinedOf] using h)
  have hstop : stopOf s [(0, .nest g b)] = some (.nest (sVal s b)) :=
    stop_nest hr.1 hr.2.1 hsrc rfl rfl ((nest_access hh hr).trans (if_pos ha)) ((nest_hold hh hr).trans (if_pos hq)) (Nat.zero_le _) (by simp [nestStop, rdS_closed s b hr.1, hn])
  rw [exec_stopped (n := 0) rfl hr.1.1 hstop]
  simp [stopIssue, setMe, parkedOn]

theorem nest_unstopped (ha : (sVal s b).toNat % 64 = 0) (hq : staticSlices s h s.me = true ∨ nestBusy h (sVal s b) = false) (hn : s.me.nestAddr = some (sVal s b)) :
    stopOf s [(0, .nest g b)] = none :=
  stop_ready s 0 _ hr rfl rfl ((nest_access hh hr).trans (if_pos ha)) ((nest_hold hh hr).trans (if_pos hq)) (Nat.zero_le _) (by simp [nestStop, rdS_closed s b hr.1, hn])
    (bankStop_none s 0 _ fun _ => rfl)

theorem nest_static (ha : (sVal s b).toNat % 64 = 0) (hn : s.me.nestAddr = some (sVal s b)) (hst : staticSlices s h s.me = true) :
    ∃ t, exec (.nest g b) s = .next t ∧ Advanced s t ∧ t.timers = s.timers ∧ Kept (withMe s { s.me with nestAddr := none, seq := { s.me.seq with
      nextT := BitVec.ofNat 32 (s.me.lidx.toNat * s.me.seq.endT.toNat / max h.task.nstr 1), endT := BitVec.ofNat 32 ((s.me.lidx.toNat + 1) * s.me.seq.endT.toNat / max h.task.nstr 1)
      mode := 1 } }) t [] := by
  obtain ⟨p, rd, cs, e, hcs⟩ := inSlot_issuing s 0
  let v := opened s p rd cs 0
  have hstop := nest_unstopped hh hr ha (.inl hst) hn
  refine ⟨closeIssue (startNest v h (rdS v b)), (effect_of s 0 (.nest g b) _ hr.1 hr.2.1 hstop).trans ?_, ?_⟩
  · rw [show inSlot s 0 = v from e]
    simp only [show gangOf v v.me = some h from hh]
  have hstart : startNest v h (rdS v b) = setMe v fun t => { t with nestAddr := none, seq := { v.me.seq with
      nextT := BitVec.ofNat 32 (v.me.lidx.toNat * v.me.seq.endT.toNat / max h.task.nstr 1), endT := BitVec.ofNat 32 ((v.me.lidx.toNat + 1) * v.me.seq.endT.toNat / max h.task.nstr 1), mode := 1 } } := by
    simp only [startNest, show staticSlices v h v.me = true from hst, if_true]
  rw [hstart, closeIssue_calm (u := setMe v _) hr.1 rfl rfl rfl]
  refine ⟨⟨rfl, rfl⟩, rfl, fun _ _ => rfl, ⟨rfl, fun _ => rfl⟩, ?_, hcs _ _ rfl rfl, fun _ => rfl, fun _ => rfl⟩
  rw [← hr.1.1]
  rfl

theorem nest_shared (ha : (sVal s b).toNat % 64 = 0) (hn : s.me.nestAddr = some (sVal s b)) (hst : staticSlices s h s.me = false) (hb : nestBusy h (sVal s b) = false) :
    ∃ t, exec (.nest g b) s = .next t ∧ Advanced s t ∧ t.timers = s.timers ∧ (gangOf t t.me).bind (·.dyn) = joined h.dyn (sVal s b) s.me.seq ∧
      Kept (withMe { s with gangs := t.gangs } { s.me with nestAddr := none, seq := { s.me.seq with nextT := 0, endT := 0, mode := 2 } }) t [] := by
  obtain ⟨p, rd, cs, e, hcs⟩ := inSlot_issuing s 0
  let v := opened s p rd cs 0
  have hstop := nest_unstopped hh hr ha (.inr hb) hn
  have hrd : rdS v b = sVal s b := rdS_open v ⟨s.me.regs, s.me.h, s.me.loop, 0⟩ b rfl hr.1.2.1
  obtain ⟨gs, hstart, hdyn⟩ := startNest_shared (s := v) (x := rdS v b) hh hst
  rw [hrd] at hdyn
  refine ⟨closeIssue (startNest v h (rdS v b)), (effect_of s 0 (.nest g b) _ hr.1 hr.2.1 hstop).trans ?_, ?_⟩
  · rw [show inSlot s 0 = v from e]
    simp only [show gangOf v v.me = some h from hh]
  rw [hstart, closeIssue_calm (u := sharing v gs) hr.1 rfl rfl rfl]
  refine ⟨⟨rfl, rfl⟩, rfl, hdyn, fun _ _ => rfl, ⟨rfl, fun _ => rfl⟩, ?_, hcs _ _ rfl rfl, fun _ => rfl, fun _ => rfl⟩
  rw [← hr.1.1]
  rfl

end

/-- Settles O15: NEST edits the strand's sequencer and perhaps the gang's, and NEXT takes a tile from the one that its mode names. -/
theorem tileLoopsAll : Obligations.TileLoopsAll := by
  refine ⟨fun s g a b h hh => ⟨nest_misaligned hh, nest_reads hh, nest_static hh, nest_shared hh, fun hr hm hlt hp => ?_, next_none⟩, fun s g a h d hh hd hm hr => ?_⟩
  · obtain ⟨t, he, hadv, hdel, hk⟩ := next_own hr hm hlt
    exact ⟨t, _, he, hadv, hdel, fun e he => tileWord_index s.me.seq.ndim.isLt hp he, hk⟩
  · obtain ⟨t, n, he, hadv, h1, h40, hdel, hk, hg⟩ := next_shared hr hh hd hm
    refine ⟨t, n, _, he, hadv, h1, h40, hdel, hk, fun hlt hp => ?_, fun hle => ?_⟩
    · rw [takeTile, if_pos hlt] at hg ⊢
      exact ⟨hg, fun e he => tileWord_index d.ndim.isLt hp he⟩
    · rw [takeTile, if_neg (by omega)] at hg ⊢
      exact ⟨hg.trans (updFirst_id _ _), rfl⟩

end Sys2Proof.Machine
end

section
/-! PROOFS. Predicates (O17): the truth table bit by bit, and the mask of the leading elements as byte groups. -/

namespace Sys2Proof.Machine
open Sys2Proof Claims

variable {s : State}

/-- A bit of PLOG is the truth table's bit for the pair (R120). -/
theorem plogP_bit (t : BitVec 4) (x y : PVal) {k : Nat} (hk : k < 128) : (plogP t x y).getLsbD k = t.getLsbD (2 * (x.getLsbD k).toNat + (y.getLsbD k).toNat) := by
  have hmask (c : Bool) (z : PVal) : (if c = true then z else 0).getLsbD k = (c && z.getLsbD k) := by cases c <;> simp
  simp only [plogP, BitVec.getLsbD_or, hmask, BitVec.getLsbD_and, BitVec.getLsbD_not, hk, decide_true, Bool.true_and]
  cases x.getLsbD k <;> cases y.getLsbD k <;> simp [BitVec.getElem_eq_testBit_toNat, BitVec.getLsbD]

/-- A bit of PSET's mask is set in the byte groups of the elements below the count (R13, R121). -/
theorem prefixP_bit (w : Sz) (n : Nat) {k : Nat} (hk : k < 128) : (prefixP (8 * szBytes w) n).getLsbD k = decide (k / szBytes w < n) := by
  have hb : 1 ≤ szBytes w ∧ szBytes w ≤ 8 ∧ szBytes w ∣ 128 := by cases w <;> decide
  obtain ⟨h1, h8, hd⟩ := hb
  have hw : 8 * szBytes w / 8 = szBytes w := by omega
  have hl : k / szBytes w < 1024 / (8 * szBytes w) := by
    rw [show (1024 : Nat) = 8 * 128 by rfl, Nat.mul_div_mul_left _ _ (by omega)]
    exact Nat.div_lt_div_of_lt_of_dvd hd hk
  unfold prefixP
  rw [packGroups_bit _ _ k (by omega) hk (by simpa [upto, hw] using hl), hw]
  simp [upto, List.getD_eq_getElem?_getD, hl]

theorem plog_writes {g t b a d : BitVec 4} (hr : Ready s (.plog g t b a d)) :
    ∃ u, exec (.plog g t b a d) s = .next u ∧ DeliversIn s u (.p d) 1 (.value ((plogP t (pVal s a) (pVal s b)).setWidth 1024)) ∧ RegFrame s u [.p d] := by
  refine result_operandsOnly s 0 (.plog g t b a d) _ (.p d) 1 _ hr rfl ?_
  rw [produceP, rdP_inSlot s 0 a hr.1.2.1, rdP_inSlot s 0 b hr.1.2.1]

theorem pset_writes {g a : BitVec 4} {w : Sz} {c : BitVec 6} (hr : Ready s (.pset g w c a)) :
    ∃ u, exec (.pset g w c a) s = .next u ∧ DeliversIn s u (.p a) 1 (.value ((prefixP (8 * szBytes w) (sVal s c).toNat).setWidth 1024)) ∧ RegFrame s u [.p a] := by
  refine result_operandsOnly s 0 (.pset g w c a) _ (.p a) 1 _ hr rfl ?_
  rw [produceP, rdS_inSlot s 0 c hr.1.2.1]

/-- Settles O17: both deliver after 1 ck what the two lemmas on their bits say. -/
theorem predicates : Obligations.Predicates := by
  refine fun s g t b a d w c => ⟨fun hr => ?_, fun hr => ?_⟩
  · obtain ⟨u, he, hd, hf⟩ := plog_writes hr
    exact ⟨u, _, he, hf, hd, fun k hk => plogP_bit t _ _ hk⟩
  · obtain ⟨u, he, hd, hf⟩ := pset_writes hr
    exact ⟨u, _, he, hf, hd, fun k hk => prefixP_bit w _ hk⟩

end Sys2Proof.Machine
end

section
/-! PROOFS. Commit points that wait (O21): what holds a window open at its commit point, and what leaves at once when nothing does. -/

namespace Sys2Proof.Machine
open Sys2Proof Claims

variable {s u : State} {g : BitVec 4} {a b : BitVec 6}

/-! ## A commit point that waits in its tentative phase (R109, R318) -/

/-- The strand that waits in a phase of a commit point. -/
def atCommit (t : Strand) (c : Closing) (now : Nat) : Strand := { t with closing := some c, st := .parked, parkid := none, waitset := none, parkedAt := now }

/-- Why a window stays open at its commit point: a gated line, a translation of what follows, or a logged register where no array command follows (R109). -/
def StaysOpen (t : Strand) (c : Closing) : Prop := (t.gated ≠ [] ∨ c.post.any needsXlate = true) ∨ t.log ≠ [] ∧ c.post.filter isArrayPost = []

theorem StaysOpen.held {t : Strand} {c : Closing} (h : StaysOpen t c) :
    needsPhase s t c = true ∧ (if heldOpen s t c then [] else c.post.filter isArrayPost) = [] := by
  rcases h with h | ⟨hlog, hpost⟩
  · have hh : heldOpen s t c = true := by
      rcases h with h | h
      · have : t.gated.isEmpty = false := by simpa using h
        simp [heldOpen, this]
      · simp [heldOpen, h]
    exact ⟨by simp [needsPhase, hh], if_pos hh⟩
  · have : t.log.isEmpty = false := by simpa using hlog
    exact ⟨by simp [needsPhase, this], by simp [hpost]⟩

/-- What a commit point that waits has still to send, once `early` has left. -/
def leftOver (c : Closing) (early : List Post) : Closing := if early.isEmpty then tentative c else { tentative c with post := c.post.filter fun p => !isArrayPost p }

/-- A commit point that something holds open parks its strand in the tentative phase, and sends its array commands unless more than a register is waited for. -/
theorem startCommit_phase {c : Closing} {early : List Post} (hm : s.me.closing = some c) (hr : replicated s s.me = false) (hk : c.keep = false) (hmask : (c.mask == 0) = false)
    (hn : needsPhase (withMe s { s.me with closing := some (tentative c) }) { s.me with closing := some (tentative c) } (tentative c) = true)
    (he : (if heldOpen (withMe s { s.me with closing := some (tentative c) }) { s.me with closing := some (tentative c) } (tentative c) then [] else c.post.filter isArrayPost) = early) :
    startCommit s = later (early.foldl (fun u p => runPost u s.me.sid c.cpt p) (withMe s (atCommit s.me (leftOver c early) s.clock))) (.windowTentativePhase s.me.sid) := by
  unfold startCommit
  rw [hm]
  dsimp -zeta only
  extract_lets t rep late cmp e c1 s1 left t1 s2 t2 s3
  have hrep : rep = false := hr
  have hc1 : c1 = tentative c := by simp only [c1, cmp, late, hrep, Bool.false_and]; rfl
  have hs1 : s1 = withMe s { s.me with closing := some (tentative c) } := by
    have he : e = s.me.eddy := by simp only [e, hrep, Bool.false_and, Bool.false_eq_true, if_false]; rfl
    simp only [s1, hc1, he]
    rfl
  have hleft : left = early := by simp only [left, hs1, hc1]; exact he
  have hs3 : s3 = withMe s (atCommit s.me (leftOver c early) s.clock) := by
    simp only [s3, t2, s2, t1, hleft, hs1, hc1, hk, hmask, Bool.or_false, Bool.false_eq_true, if_false, leftOver]
    cases early.isEmpty <;> rfl
  rw [if_pos (by rw [hs1, hc1]; exact hn), hleft, hs3]

/-- A commit point whose window stays open waits with all that it has to send. -/
theorem startCommit_parks {c : Closing} (hm : s.me.closing = some c) (hr : replicated s s.me = false) (hk : c.keep = false) (hmask : (c.mask == 0) = false) (ho : StaysOpen s.me c) :
    startCommit s = later (withMe s (atCommit s.me (tentative c) s.clock)) (.windowTentativePhase s.me.sid) := by
  obtain ⟨hn, he⟩ := StaysOpen.held (s := withMe s { s.me with closing := some (tentative c) }) (t := { s.me with closing := some (tentative c) }) (c := tentative c) ho
  exact startCommit_phase hm hr hk hmask hn he

/-- A bundle of a commit point that waits, as it closes. -/
theorem closeIssue_waits {b : Issue} {c : Closing} (hi : s.issue = some b) (hl : b.loop.active = false) (hc : s.me.closing = some c) (ht : s.me.heldTrap = none)
    (hr : replicated s s.me = false) (hk : c.keep = false) (hmask : (c.mask == 0) = false) (ho : StaysOpen s.me c) :
    closeIssue s = later { s with issue := none, me := atCommit { s.me with choice := none } (tentative { c with cpt := s.me.npc, next := s.me.npc }) s.clock } (.windowTentativePhase s.me.sid) := by
  rw [closeIssue_asked hi hl hc ht]
  exact startCommit_parks (s := { s with issue := none, me := { s.me with choice := none, waitset := none, closing := some { c with cpt := s.me.npc, next := s.me.npc } } }) rfl hr hk hmask ho

/-- What the instruction of slot `n` asks for at the end of its bundle. -/
def asking (n opc : Nat) (ws : List Word) (post : List Post) : Closing := { Closing.start with mask := slotBit n, items := [(opc, n, ws)], post := post }

theorem commitPoint_asks {b : Issue} (hi : s.issue = some b) (hc : s.me.closing = none) (opc : Nat) (ws : List Word) (post : List Post) :
    commitPoint s opc ws post = withMe s { s.me with closing := some (asking b.slot opc ws post) } := by
  simp [commitPoint, hc, slotNo, hi, asking, Closing.start]

/-! ## A commit point that nothing holds open -/

/-- A post that leaves inside the strand's own core and after which nothing waits. -/
def leaves : Post → Bool
  | .array _ _ | .arrayPoison _ _ | .launchAlign _ => true
  | _ => false

/-- Such a post is no LAUNCH, and is followed by no wait; it needs no translation, and nothing of it for a leeward strand. -/
theorem leaves_plain {p : Post} (h : leaves p = true) :
    (∀ r o w, p ≠ .launch r o w) ∧ needsXlate p = false ∧ p ≠ .exit ∧ (∀ f, p ≠ .rel f) ∧ ∀ (s : State) (t : Strand), withLee s t p = p := by
  cases p <;> cases h <;> exact ⟨nofun, rfl, nofun, nofun, fun _ _ => rfl⟩

/-- A window that holds no line and has nothing on its way is held open by translations alone. -/
theorem heldOpen_unmoved {t : Strand} {c : Closing} (hu : Unmoved s t.sid) (hg : t.gated = []) (hc : c.compare = false) : heldOpen s t c = c.post.any needsXlate := by
  have hsplit : heldOpen s t c = (heldOpen s t { c with post := [] } || c.post.any needsXlate) := by simp [heldOpen]
  rw [hsplit, hu.heldOpen (c := { c with post := [] }) hg hc (List.forall_mem_nil _), Bool.false_or]

theorem leaves_unheld {ps : List Post} (hp : ∀ p ∈ ps, leaves p = true) : ps.any needsXlate = false := List.any_eq_false.mpr fun p h => ne_true_of_eq_false (leaves_plain (hp p h)).2.1

/-- A commit point with an empty window and no translation to make completes in its ck. -/
theorem startCommit_completes {c : Closing} (hm : s.me.closing = some c) (hr : replicated s s.me = false) (hu : Unmoved s s.me.sid) (hg : s.me.gated = []) (hlog : s.me.log = [])
    (hp : ∀ p ∈ c.post, leaves p = true) : startCommit s = finishCommit (withMe s { s.me with closing := some (tentative c) }) s.me.sid := by
  have hn : needsPhase (withMe s { s.me with closing := some (tentative c) }) { s.me with closing := some (tentative c) } (tentative c) = false := by
    have hu' : Unmoved (withMe s { s.me with closing := some (tentative c) }) s.me.sid := ⟨hu.loads, hu.atoms, hu.copies⟩
    have hh := heldOpen_unmoved (t := { s.me with closing := some (tentative c) }) (c := tentative c) hu' hg rfl
    rw [needsPhase, hh, show (tentative c).post.any needsXlate = false from leaves_unheld hp, hlog]
    rfl
  unfold startCommit
  rw [hm]
  simp only [hr, Bool.false_and, Bool.false_eq_true, if_false]
  exact if_neg (ne_true_of_eq_false hn)

/-- A bundle of such a commit point closes by completing it. -/
theorem closeIssue_completes {b : Issue} {c : Closing} (hi : s.issue = some b) (hl : b.loop.active = false) (hc : s.me.closing = some c) (ht : s.me.heldTrap = none)
    (hr : replicated s s.me = false) (hu : Unmoved s s.me.sid) (hg : s.me.gated = []) (hlog : s.me.log = []) (hp : ∀ p ∈ c.post, leaves p = true) :
    closeIssue s = finishCommit { s with issue := none, me := { s.me with choice := none, waitset := none, closing := some (tentative { c with cpt := s.me.npc, next := s.me.npc }) } } s.me.sid := by
  rw [closeIssue_asked hi hl hc ht]
  exact startCommit_completes (s := { s with issue := none, me := { s.me with choice := none, waitset := none, closing := some { c with cpt := s.me.npc, next := s.me.npc } } }) rfl hr
    ⟨hu.loads, hu.atoms, hu.copies⟩ hg hlog hp

/-- The completion of a commit point whose posts leave at once, of a strand that no barrier has marked and that holds no trap. -/
theorem finishCommit_leaves {c : Closing} {v : State} (hm : s.me.closing = some c) (hcmp : c.compare = false) (hph : c.phase = .tentative) (hk : c.keep = false)
    (hp : ∀ p ∈ c.post, leaves p = true) (hmk : s.me.mark = none) (ht : s.me.heldTrap = none)
    (hrun : c.post.foldl (fun u p => runPost u s.me.sid c.cpt p) (withMe s (committed s.me c)) = v) (hv : v.me.sid = s.me.sid) :
    finishCommit s s.me.sid = withMe v (goOn s.clock c.next v.me) := by
  have hs (f : Strand → Strand) (u : State) (hu : u.me.sid = s.me.sid) : updStrand u s.me.sid f = withMe u (f u.me) := if_pos hu
  have hget (u : State) (hu : u.me.sid = s.me.sid) : getStrand u s.me.sid = some u.me := if_pos hu
  unfold finishCommit
  simp -zeta only [hget s rfl, hm]
  extract_lets leeward posts s0 launch u s1 s2 gone s3 remain s4 s5 s6 s7 s8
  have hle : leeward = false := by simp [leeward, hcmp]
  have hla : launch = false := List.any_eq_false.mpr fun p h => by
    obtain ⟨hne, -⟩ := leaves_plain (hp p h)
    split
    · exact absurd rfl (hne _ _ _)
    · exact Bool.false_ne_true
  have hlee : c.post.map (withLee s s.me) = c.post := (List.map_congr_left fun p h => (leaves_plain (hp p h)).2.2.2.2 s s.me).trans (List.map_id _)
  have h1 : s1 = withMe s (committed s.me c) := by simp only [s1, s0, hcmp, Bool.false_and, Bool.false_eq_true, if_false]; exact hs _ s rfl
  have h2 : s2 = v := by
    simp only [s2, posts, hle, h1, Bool.false_eq_true, if_false, hlee, runPosts, hph]
    simp [hrun]
  have h3 : s3 = v := by
    simp only [s3, gone, hle, h2, Bool.false_eq_true, if_false, List.contains_nil, Bool.not_false]
    rw [List.filter_eq_self.mpr fun _ _ => rfl]
  have hexit : c.post.contains .exit = false := by
    rw [List.contains_eq_mem, decide_eq_false_iff_not]
    exact fun h => (leaves_plain (hp _ h)).2.2.1 rfl
  have hrem : remain = .none := by
    simp only [remain, h3, hget v hv, remainOf, hexit, Bool.false_eq_true, if_false]
    rw [List.findSome?_eq_none_iff.mpr fun p h => ?_]
    obtain ⟨-, -, -, hne, -⟩ := leaves_plain (hp p h)
    split
    · exact absurd rfl (hne _)
    · rfl
  have h4 : s4 = withMe v (goOn s.clock c.next v.me) := by
    simp only [s4, h3, hrem, hla, hk, Bool.false_eq_true, if_false, if_true]
    exact hs _ v hv
  have h6 : s6 = s4 := by
    simp only [s6, s5, hla, Bool.false_and, Bool.false_eq_true, if_false, show u.mark = none from hmk, Option.isSome_none]
  have h8 : s8 = s7 := by simp only [s8, show u.heldTrap = none from ht]
  rw [hk, if_neg Bool.false_ne_true, h8]
  simp only [s7, hrem, h6, h4]
  rfl

section
variable (hu : replicated s s.me = false)
include hu

/-- CMT, REL and EXIT with a register or a line in their window. -/
theorem commit_waits {i : Instr} {opc : Nat} {ws : List Word} {post : List Post} (hc : Calm s) (hx : exec i s = .next (closeIssue (commitPoint (inSlot s 0) opc ws post)))
    (hp : post.filter isArrayPost = []) (hw : s.me.log ≠ [] ∨ s.me.gated ≠ []) :
    ∃ t c, exec i s = .next t ∧ t.timers = s.timers ++ [⟨s.clock + 1 + Config.delay s.fresh, .windowTentativePhase s.me.sid⟩] ∧ t.me.st = .parked ∧ t.me.pc = s.me.pc ∧
      t.me.closing = some c ∧ askedAt s c ∧ Kept { withMe s (waitingMe s t) with fresh := s.fresh + 1 } t [] := by
  obtain ⟨p, rd, cs, e, hcs⟩ := inSlot_issuing s 0
  have ho : StaysOpen (issuing s p rd) (asking 0 opc ws post) := hw.elim (fun h => .inr ⟨h, hp⟩) fun h => .inl (.inl h)
  have hclose := closeIssue_waits (s := withMe (opened s p rd cs 0) { issuing s p rd with closing := some (asking 0 opc ws post) }) rfl hc.2.1 rfl hc.2.2.2.1 hu rfl rfl ho
  rw [e, commitPoint_asks (s := opened s p rd cs 0) rfl hc.2.2.1] at hx
  refine ⟨_, tentative { asking 0 opc ws post with cpt := s.me.pc + 32, next := s.me.pc + 32 }, hx.trans (congrArg Host.Outcome.next hclose), rfl, rfl, rfl, rfl, ⟨rfl, rfl, rfl, rfl, rfl⟩,
    fun _ _ => rfl, ⟨rfl, fun _ => rfl⟩, ?_, hcs _ _ rfl rfl, fun _ => rfl, fun _ => rfl⟩
  rw [← hc.1]
  rfl

/-- Once the record of a LAUNCH is aligned its destination has a tag but for s0, and the strand waits for Gust (R102). -/
theorem launch_waits (hr : Ready s (.launch g b a)) (ha : (sVal s b).toNat % 64 = 0) :
    ∃ t c o, exec (.launch g b a) s = .next t ∧ t.timers = s.timers ++ [⟨s.clock + 1 + Config.delay s.fresh, .windowTentativePhase s.me.sid⟩] ∧ t.me.st = .parked ∧ t.me.pc = s.me.pc ∧
      t.me.closing = some c ∧ askedAt s c ∧ c.post = [.launch (.s a) o (sVal s b)] ∧ c.before = some (foundBy s) ∧ (a = 0 → o = none) ∧
      (a ≠ 0 → ∃ k, o = some k ∧ k.toNat % 1024 ∉ s.me.serials.map (·.1) ∧ t.me.serials = s.me.serials ++ [(k.toNat % 1024, false)]) ∧
      Kept { withMe s (waitingMe s t) with fresh := s.fresh + 1 } t [] := by
  obtain ⟨p, rd, cs, e, hcs⟩ := inSlot_issuing s 0
  have hc := hr.1
  let o : Option Tag := if a = 0 then none else some (tagOf (freeSerial s.me.serials 1024 0) s.me.window)
  let sr : List (Nat × Bool) := if a = 0 then s.me.serials else s.me.serials ++ [(freeSerial s.me.serials 1024 0, false)]
  let v := withMe (opened s p rd cs 0) { issuing s p rd with serials := sr }
  have htag : reserveTag (opened s p rd cs 0) (.s a) = (v, o) := by
    have hrot : rot (opened s p rd cs 0) (.s a) = .s a := rotReg_idle _ _ hc.2.1
    rw [reserveTag, hrot, fixed_s]
    by_cases h0 : a = 0
    · simp only [h0, beq_self_eq_true, if_true, v, o, sr]
      rfl
    · simp only [beq_false_of_ne h0, Bool.false_eq_true, h0, if_false, v, o, sr]
      rfl
  let c : Closing := { asking 0 14 [] [.launch (.s a) o (sVal s b)] with before := some (foundBy s) }
  let u := withMe v { v.me with closing := some c }
  have hx : exec (.launch g b a) s = .next (closeIssue u) := by
    refine (effect_operandsOnly s 0 (.launch g b a) _ hr rfl).trans ?_
    have hrd : rdS (opened s p rd cs 0) b = sVal s b := rdS_open (opened s p rd cs 0) ⟨s.me.regs, s.me.h, s.me.loop, 0⟩ b rfl hc.2.1
    have hhash (ws : List Word) : hashItem (opened s p rd cs 0) 5 14 0 ws = opened s p rd cs 0 := by
      rw [hashItem, if_neg (ne_true_of_eq_false (show replicated (opened s p rd cs 0) (opened s p rd cs 0).me = false from hu))]
    have hrot : rot (opened s p rd cs 0) (.s a) = .s a := rotReg_idle _ _ hc.2.1
    simp only [e, hrd, ha, hhash, htag, hrot, ne_eq, not_true_eq_false, if_false]
    rw [commitPoint_asks (s := v) rfl hc.2.2.1]
    rfl
  have ho : StaysOpen v.me c := .inl (.inr rfl)
  obtain ⟨hfree, hlt⟩ := freeSerial_free s.me.serials (by omega)
  have hserial := (tagOf_serial (freeSerial s.me.serials 1024 0) s.me.window hlt).1
  have hclose := closeIssue_waits (s := u) rfl hc.2.1 rfl hc.2.2.2.1 hu rfl rfl ho
  refine ⟨_, tentative { c with cpt := s.me.pc + 32, next := s.me.pc + 32 }, o, hx.trans (congrArg Host.Outcome.next hclose), rfl, rfl, rfl, rfl, ⟨rfl, rfl, rfl, rfl, rfl⟩, rfl, rfl,
    fun h0 => if_pos h0, fun h0 => ⟨_, if_neg h0, ?_, ?_⟩, fun _ _ => rfl, ⟨rfl, fun _ => rfl⟩, ?_, hcs _ _ rfl rfl, fun _ => rfl, fun _ => rfl⟩
  · rw [hserial]
    exact hfree
  · rw [hserial]
    exact if_neg h0
  · rw [← hc.1]
    rfl

omit hu in
theorem runPost_launchAlign {sid : Nat} {cpt : Word} {r : RegId} (h : u.me.sid = sid) :
    runPost u sid cpt (.launchAlign r) = withMe u (writeKept u.me r (RegVal.poison .align (u.me.regs.get r).tag)) := by
  subst h
  simp [runPost, getStrand, updStrand]

/-- A misaligned LAUNCH closes its empty window and poisons its destination (R102). -/
theorem launch_poisons (hr : Ready s (.launch g b a)) (ha : (sVal s b).toNat % 64 ≠ 0) (hw : windowEmpty s) (hmk : s.me.mark = none) (h0 : a ≠ 0) :
    ∃ t, exec (.launch g b a) s = .next t ∧ t.timers = s.timers ∧ Advanced s t ∧ (t.me.regs.get (.s a)).st = .poisoned ∧ (t.me.regs.get (.s a)).val = 12 ∧
      Kept (withMe s { closedMe s t.me with cdone := false, remain := .none }) t [.s a] := by
  obtain ⟨hlog, hg, hl, hat, hk⟩ := hw
  obtain ⟨p, rd, cs, e, hcs⟩ := inSlot_issuing s 0
  have hc := hr.1
  have hn : NoCopies cs s.me.sid := by
    have h := inSlot_noCopies (s := s) (sid := s.me.sid) 0 hk
    rwa [e] at h
  let c := asking 0 14 [] [.launchAlign (.s a)]
  let u := withMe (opened s p rd cs 0) { issuing s p rd with closing := some c }
  have hx : exec (.launch g b a) s = .next (closeIssue u) := by
    refine (effect_operandsOnly s 0 (.launch g b a) _ hr rfl).trans ?_
    have hrd : rdS (opened s p rd cs 0) b = sVal s b := rdS_open (opened s p rd cs 0) ⟨s.me.regs, s.me.h, s.me.loop, 0⟩ b rfl hc.2.1
    have hhash (ws : List Word) : hashItem (opened s p rd cs 0) 5 14 0 ws = opened s p rd cs 0 := by
      rw [hashItem, if_neg (ne_true_of_eq_false (show replicated (opened s p rd cs 0) (opened s p rd cs 0).me = false from hu))]
    have hrot : rot (opened s p rd cs 0) (.s a) = .s a := rotReg_idle _ _ hc.2.1
    simp only [e, hrd, ha, hhash, hrot, ne_eq, not_false_eq_true, if_true]
    rw [commitPoint_asks (s := opened s p rd cs 0) rfl hc.2.2.1]
    rfl
  let d := tentative { c with cpt := s.me.pc + 32, next := s.me.pc + 32 }
  let m : State := { s with me := issued s p rd (some d), cores := cs }
  have hclose : closeIssue u = finishCommit m s.me.sid := by
    refine (closeIssue_completes (s := u) rfl hc.2.1 rfl hc.2.2.2.1 hu ⟨hl, hat, hn⟩ hg hlog fun q hq => ?_).trans ?_
    · rw [List.mem_singleton.mp hq]; rfl
    · exact congrArg (fun m => finishCommit m s.me.sid) (congrArg (fun i => { m with issue := i }) hc.1).symm
  let y := RegVal.poison .align (s.me.regs.get (.s a)).tag
  obtain ⟨lg, qq, sr, hwrite, hq⟩ := writeReg_ex (committed m.me d) (.s a) y
  let v := withMe m { committed m.me d with regs := s.me.regs.put (.s a) y, q := qq, serials := sr, closing := s.me.closing }
  have hrun : d.post.foldl (fun u p => runPost u s.me.sid d.cpt p) (withMe m (committed m.me d)) = v := by
    refine Eq.trans (b := withMe (withMe m (committed m.me d)) _) (runPost_launchAlign (u := withMe m (committed m.me d)) (cpt := d.cpt) rfl) ?_
    show withMe m { writeReg (committed m.me d) (.s a) y with log := [] } = v
    rw [hwrite]
    exact congrArg (fun x => withMe m { committed m.me d with regs := s.me.regs.put (.s a) y, q := qq, serials := sr, closing := x }) hc.2.2.1.symm
  have hfin := finishCommit_leaves (s := m) (c := d) (v := v) rfl rfl rfl rfl (fun q hq => by rw [List.mem_singleton.mp hq]; rfl) hmk hc.2.2.2.1 hrun rfl
  have hsame := RegFile.get_put_same s.me.regs y (x := .s a) (by rw [fixed_s]; exact beq_false_of_ne h0)
  refine ⟨_, hx.trans (congrArg Host.Outcome.next (hclose.trans hfin)), rfl, ⟨rfl, rfl⟩, congrArg RegVal.st hsame, (congrArg RegVal.val hsame).trans ?_, fun r h => ?_, ⟨?_, fun h => (hq h).1⟩, ?_,
    hcs _ _ rfl rfl, fun _ => rfl, fun _ => rfl⟩
  · simp [y, fitReg, RegVal.poison, poisonCode]
  · exact RegFile.get_put_other _ _ (by simpa using h)
  · rfl
  · rfl

end

/-- Settles O21: a window that holds something parks at its commit point, as every aligned LAUNCH does; a misaligned LAUNCH completes at once. -/
theorem commitsWait : Obligations.CommitsWait := by
  refine fun s g f a b hu _ => ⟨fun i hi hr hw => ?_, launch_waits hu, launch_poisons hu⟩
  rcases hi with rfl | rfl | rfl
  · exact commit_waits hu hr.1 (effect_operandsOnly s 0 (.cmt g) _ hr rfl) rfl hw
  · exact commit_waits hu hr.1 (effect_operandsOnly s 0 (.rel g f) _ hr rfl) rfl hw
  · exact commit_waits hu hr.1 (effect_operandsOnly s 0 (.exit g) _ hr rfl) rfl hw

end Sys2Proof.Machine
end

section
/-! PROOFS. Commands of the array's holder (O24): a command does the same in every state that differs in the strand's registers and place alone, and leaves at its commit point. -/

namespace Sys2Proof.Machine
open Sys2Proof Claims

variable {s u : State} {i : Instr} {sid core : Nat}

/-! ## States that an array cannot tell apart -/

/-- Two states that differ in the strand at issue, but for its names, and in the cores' bookkeeping. -/
structure Alike (s u : State) : Prop where
  rest : u = { s with me := u.me, cores := u.cores }
  sid : u.me.sid = s.me.sid
  gid : u.me.gid = s.me.gid
  lidx : u.me.lidx = s.me.lidx
  engines : SameEngines u.cores s.cores

/-- A command that has started, and completes `n` ck later, or a variable time after that where an operand is far (R196). -/
def commandBegun (s : State) (core : Nat) (b : Array) (id : Nat) (far : Bool) (n : Nat) : State :=
  let s1 := updArray s core fun _ => updCmd b id fun c => { c with started := true }
  if far then { after s1 (n + Config.delay s.fresh) (.arrayCommandComplete core id) with fresh := s.fresh + 1 } else after s1 n (.arrayCommandComplete core id)

namespace Alike
variable (h : Alike s u)
include h

theorem array (k : Nat) : getArray u k = getArray s k := (h.engines u s rfl rfl k).1

theorem clock : u.clock = s.clock := by rw [h.rest]

theorem timers : u.timers = s.timers := by rw [h.rest]

theorem fresh : u.fresh = s.fresh := by rw [h.rest]

theorem pool : u.pool = s.pool := by rw [h.rest]

theorem gangOf (t : Strand) : gangOf u t = Machine.gangOf s t := by rw [h.rest]; rfl

theorem gangOf_me : Machine.gangOf s u.me = Machine.gangOf s s.me := by rw [Machine.gangOf, Machine.gangOf, h.gid]

theorem nearPhys_me (g : Gang) (a : Nat) : nearPhys g u.me a = nearPhys g s.me a := by rw [nearPhys, nearPhys, nearSlice, nearSlice, h.lidx]

theorem cmdPhys (a : Nat) : cmdPhys u sid a = Machine.cmdPhys s sid a := by
  unfold Machine.cmdPhys getStrand
  rw [h.sid, h.pool]
  by_cases hn : s.me.sid = sid
  · simp only [hn, if_true, h.gangOf, h.gangOf_me, h.nearPhys_me]
  · simp only [hn, if_false, h.gangOf]

theorem cmdBytes (a n : Nat) : cmdBytes u sid a n = Machine.cmdBytes s sid a n := by
  have hnear (job x n : Nat) : nearBytes u job x n = nearBytes s job x n := by rw [h.rest]; rfl
  unfold Machine.cmdBytes getStrand
  rw [h.sid, h.pool]
  by_cases hn : s.me.sid = sid
  · simp only [hn, if_true, h.gangOf, h.gangOf_me, h.nearPhys_me, hnear]
  · simp only [hn, if_false, h.gangOf, hnear]

theorem copyLocked (phys n : Nat) : copyLocked u core phys n = Machine.copyLocked s core phys n := by
  have hcopies : (getCore u core).copies = (getCore s core).copies := (h.engines u s rfl rfl core).2.1
  have howner (c : CopyOp) : (copyOwner u c).map (fun o => (o.1, nearPhys o.1 o.2 (caBits c.dst))) = (copyOwner s c).map fun o => (o.1, nearPhys o.1 o.2 (caBits c.dst)) := by
    unfold copyOwner getStrand
    rw [h.sid, h.pool]
    by_cases hn : s.me.sid = c.sid
    · simp only [hn, if_true, h.gangOf, h.gangOf_me]
      cases Machine.gangOf s s.me <;> simp [h.nearPhys_me]
    · simp only [hn, if_false, h.gangOf]
  unfold Machine.copyLocked
  rw [hcopies]
  refine congrArg (List.any _) (funext fun c => ?_)
  have hc := howner c
  rcases hu : copyOwner u c with _ | x <;> rcases hs : copyOwner s c with _ | y <;> simp only [hu, hs, Option.map_none, Option.map_some, reduceCtorEq, Option.some.injEq, Prod.mk.injEq] at hc
  · rfl
  · obtain ⟨hgang, hphys⟩ := hc
    simp only [hphys]
    simp only [hgang]

theorem elsewhere (a : Nat) : elsewhere u core sid a = Machine.elsewhere s core sid a := by rw [Machine.elsewhere, Machine.elsewhere, h.cmdPhys]

theorem cmdLocked (a n : Nat) : cmdLocked u core sid a n = Machine.cmdLocked s core sid a n := by rw [Machine.cmdLocked, Machine.cmdLocked, h.cmdPhys, h.copyLocked]

theorem operand72 (mx : Bool) (base : Word) (sh : Shape) (x n : Nat) : operand72 u sid mx base sh x n = Machine.operand72 s sid mx base sh x n := by
  rw [Machine.operand72, Machine.operand72, h.cmdBytes, h.cmdBytes]

/-! What keeps two states alike -/

theorem ite {p : Prop} [Decidable p] {s' u' : State} (h' : Alike s' u') : Alike (if p then s else s') (if p then u else u') := by
  split
  · exact h
  · exact h'

theorem updArray (k : Nat) (f : Array → Array) : Alike (updArray s k f) (updArray u k f) := by
  refine ⟨?_, h.sid, h.gid, h.lidx, fun a b ha hb c => ?_⟩
  · rw [h.rest]; rfl
  have hf (v : State) : ({ getCore v k with array := f (getCore v k).array } : Core).id = k := getCore_id v k
  obtain ⟨e1, e2, e3⟩ := h.engines u s rfl rfl c
  rw [getCore_congr (u := Machine.updArray u k f) ha, getCore_congr (u := Machine.updArray s k f) hb]
  by_cases hc : c = k
  · subst hc
    rw [Machine.updArray, Machine.updArray, getCore_updCore_same _ _ _ (hf u), getCore_updCore_same _ _ _ (hf s)]
    exact ⟨congrArg f e1, e2, e3⟩
  · rw [Machine.updArray, Machine.updArray, getCore_updCore_other _ _ (hf u) hc, getCore_updCore_other _ _ (hf s) hc]
    exact ⟨e1, e2, e3⟩

theorem after (n : Nat) (ev : Instr) : Alike (after s n ev) (after u n ev) := by
  refine ⟨?_, h.sid, h.gid, h.lidx, h.engines⟩
  rw [h.rest]; rfl

theorem bump : Alike { s with fresh := s.fresh + 1 } { u with fresh := u.fresh + 1 } := by
  refine ⟨?_, h.sid, h.gid, h.lidx, h.engines⟩
  rw [h.rest]

theorem later (ev : Instr) : Alike (later s ev) (later u ev) := by
  refine ⟨?_, h.sid, h.gid, h.lidx, h.engines⟩
  rw [h.rest]; rfl

theorem kickArray (k : Nat) : Alike (kickArray s k) (kickArray u k) := by
  unfold Machine.kickArray
  rw [h.timers]
  split
  · exact h
  · exact h.after 0 _

theorem commandBegun (k : Nat) (b : Array) (id : Nat) (far : Bool) (n : Nat) : Alike (commandBegun s k b id far n) (commandBegun u k b id far n) := by
  have h1 := h.updArray k fun _ => updCmd b id fun c => { c with started := true }
  unfold Machine.commandBegun
  cases far
  · exact h1.after _ _
  · rw [if_pos rfl, if_pos rfl, h.fresh]
    have h2 := (h1.after (n + Config.delay s.fresh) (.arrayCommandComplete k id)).bump
    rw [show ({ Machine.after (Machine.updArray u k fun _ => updCmd b id fun c => { c with started := true }) (n + Config.delay s.fresh) (.arrayCommandComplete k id) with fresh := s.fresh + 1 } : State)
      = { Machine.after (Machine.updArray u k fun _ => updCmd b id fun c => { c with started := true }) (n + Config.delay s.fresh) (.arrayCommandComplete k id) with fresh := u.fresh + 1 } by rw [h.fresh]]
    exact h2

/-- A command starts with the same items and events, and leaves two alike states. -/
theorem startCmd (c : ArrCmd) : Alike (startCmd s core c) (startCmd u core c) := by
  unfold Machine.startCmd
  simp -zeta only [h.array, h.cmdLocked, h.cmdBytes, h.elsewhere, h.operand72, h.clock]
  extract_lets a go load b chained sS sU
  have hgo (b : Array) (far : Bool) (n : Nat) : Alike (go s b far n) (go u b far n) := h.commandBegun core b c.id far n
  have hstream : Alike sS sU := h.updArray core _
  cases c.kind with
  | prog => exact h.ite (hgo _ _ _)
  | stat => exact h.ite (hgo _ _ _)
  | swap | clr | drain | trace => exact hgo _ _ _
  | stream | wave => exact (hstream.after 0 _).ite hstream

omit h in
/-- A fold of steps that keep two states alike keeps them alike. -/
theorem foldl {α : Type} {f : State → α → State} (hf : ∀ x (s u : State), Alike s u → Alike (f s x) (f u x)) (l : List α) : ∀ (s u : State), Alike s u → Alike (l.foldl f s) (l.foldl f u) := by
  induction l with
  | nil => exact fun _ _ h => h
  | cons x l ih => exact fun s u h => ih _ _ (hf x s u h)

theorem startCmds : Alike (startCmds s core) (startCmds u core) := by
  unfold Machine.startCmds
  rw [h.array]
  refine foldl (fun c s u h => ?_) _ s u h
  rw [h.array]
  split
  · split
    · exact h.startCmd _
    · exact h
  · exact h

theorem sendArray (k : Nat) (c : ArrCmd) : Alike (sendArray s k c) (sendArray u k c) := by
  have h1 := h.updArray k fun a => { a with cmds := a.cmds ++ [c] }
  unfold Machine.sendArray
  dsimp only
  rw [h1.clock, h1.array]
  split
  · exact h1.kickArray k
  · exact h1.startCmds.kickArray k

/-- An event that is due later leaves what two alike states keep. -/
theorem kept_later {rs : List RegId} (ev : Instr) (hr : RegsKept s u rs) (hk : StrandKept s u) : Kept { s with fresh := s.fresh + 1 } (Machine.later u ev) rs := by
  refine ⟨hr, hk, ?_, h.engines _ _ rfl rfl, ?_, ?_⟩
  · rw [h.rest]; rfl
  · exact fun k => congrArg (fun m => m.hbm.read k) h.rest
  · exact fun k => congrArg (fun m => m.near.read k) h.rest

end Alike

/-! ## What a command sends -/

/-- What no command changes when it is sent: the strand at issue and the clock. -/
def meNow (s : State) : Strand × Nat := (s.me, s.clock)

/-- A step that leaves the strand at issue and the clock, and does the same in alike states. -/
structure Sending (R : State → State) : Prop where
  now : ∀ u, meNow (R u) = meNow u
  alike : ∀ s u, Alike s u → Alike (R s) (R u)

theorem Sending.me {R : State → State} (h : Sending R) (u : State) : (R u).me = u.me := congrArg Prod.fst (h.now u)

theorem Sending.clock {R : State → State} (h : Sending R) (u : State) : (R u).clock = u.clock := congrArg Prod.snd (h.now u)

theorem meNow_kickArray (u : State) (k : Nat) : meNow (kickArray u k) = meNow u := by unfold kickArray; split <;> rfl

theorem meNow_startCmd (u : State) (k : Nat) (c : ArrCmd) : meNow (startCmd u k c) = meNow u := by
  unfold startCmd
  dsimp only
  cases c.kind <;> dsimp only <;> split_ifs <;> rfl

theorem meNow_startCmds (u : State) (k : Nat) : meNow (startCmds u k) = meNow u := by
  unfold startCmds
  refine foldl_keeps (v := meNow) (fun s c => ?_) _ u
  split
  · split
    · exact meNow_startCmd s k _
    · rfl
  · rfl

theorem sending_sendArray (k : Nat) (c : ArrCmd) : Sending fun u => sendArray u k c := by
  refine ⟨fun u => ?_, fun s u h => h.sendArray k c⟩
  unfold sendArray
  dsimp only
  rw [meNow_kickArray]
  split
  · rfl
  · exact meNow_startCmds _ k

theorem sending_deliverLater (n : Nat) (o : Option Tag) (x : Payload) : Sending fun u => deliverLater u n o x := by
  refine ⟨fun u => by cases o <;> rfl, fun s u h => ?_⟩
  cases o with
  | none => exact h
  | some g => exact h.later _

/-! ## The future of a command -/

/-- The obligation of a command's destination, if it has one (R186). -/
def obligateDest (s : State) : Option RegId → State × Option Tag
  | some r => obligate s r true
  | none => (s, none)

theorem obligateT_log (t : Strand) (r : RegId) (aw : Bool) (hl : t.log = []) : (obligateT t r aw).1.log = [] ↔ regFixed r = true := by
  cases hf : regFixed r with
  | true => simp only [obligateT, hf, hl, if_true]
  | false =>
    have hlog : (logFirst t r).log ≠ [] := by simp [logFirst, hf, hl]
    have hw (y : RegVal) : (writeReg t r y).log = (logFirst t r).log := by
      rw [writeReg, if_neg (by rw [hf]; exact Bool.false_ne_true)]
      show (withdrawSema (logFirst t r) r).log = _
      rw [withdrawSema_eq]
    simp [obligateT, hf, hw, hlog]

/-- The state amid a bundle of slot 4 whose destination is obligated. -/
def commanding (s : State) (p : Vector Word 8) (rd : Nat) (cs : List Core) (rg : RegFile) (lg : List LogEntry) (qq : Vector Sema 16) (sr : List (Nat × Bool)) (n : Nat) : State :=
  { opened s p rd cs 4 with me := { issuing s p rd with regs := rg, log := lg, q := qq, serials := sr }, nextId := n }

theorem obligateDest_opened {p : Vector Word 8} {rd : Nat} {cs : List Core} (hc : Calm s) (d : Option (BitVec 6)) : ∃ rg lg qq sr o,
    obligateDest (opened s p rd cs 4) (d.map .s) = (commanding s p rd cs rg lg qq sr s.nextId, o) ∧ (∀ r, r ∉ destReg d → rg.get r = s.me.regs.get r) ∧
    ((s.me.q.toList.all fun q => !q.out) = true → qq = s.me.q) ∧ FutureOf s (commanding s p rd cs rg lg qq sr s.nextId) d o ∧ (s.me.log = [] → (lg = [] ↔ o = none)) := by
  cases d with
  | none => exact ⟨s.me.regs, s.me.log, s.me.q, s.me.serials, none, rfl, fun _ _ => rfl, fun _ => rfl, rfl, fun h => ⟨fun _ => rfl, fun _ => h⟩⟩
  | some r =>
    obtain ⟨lg, qq, sr, rg, o, e, hz, hf, hn, hq⟩ := obligate_ex (opened s p rd cs 4) (.s r) true (rotReg_idle _ _ hc.2.1) hc.2.2.2.2.2.2.1
    refine ⟨rg, lg, qq, sr, o, e, fun z h => hz z fun h' => h (by simp [destReg, h']), hq, ⟨fun h0 => (hf (by rw [fixed_s, h0]; rfl)).1, fun h0 => ?_⟩, fun hl => ?_⟩
    · obtain ⟨t, rfl, h1, h2, h3, h4⟩ := hn (by rw [fixed_s]; exact beq_false_of_ne h0)
      exact ⟨t, rfl, h1, h2, h3, h4⟩
    · have hlog : lg = (obligateT (issuing s p rd) (.s r) true).1.log := by
        have h := congrArg (fun x => x.1.me.log) e
        rw [obligate, show rot (opened s p rd cs 4) (.s r) = .s r from rotReg_idle _ _ hc.2.1] at h
        exact h.symm
      rw [hlog, obligateT_log (issuing s p rd) (.s r) true hl]
      cases hx : regFixed (.s r) with
      | true => simp [(hf hx).1]
      | false =>
        obtain ⟨t, rfl, -⟩ := hn hx
        simp

theorem FutureOf.congr {t v : State} {d : Option (BitVec 6)} {o : Option Tag} (h : FutureOf s t d o) (hr : v.me.regs = t.me.regs) (hs : v.me.serials = t.me.serials) : FutureOf s v d o := by
  cases d with
  | none => exact h
  | some r =>
    refine ⟨h.1, fun h0 => ?_⟩
    obtain ⟨g, ho, hg⟩ := h.2 h0
    refine ⟨g, ho, ?_⟩
    unfold Owed at hg ⊢
    rwa [hr, hs]

/-! ## The commit point of a command -/

section
variable {p : Vector Word 8} {rd n opc : Nat} {cs : List Core} {rg : RegFile} {lg : List LogEntry} {qq : Vector Sema 16} {sr : List (Nat × Bool)} {x : Post} {rs : List RegId}
  (hc : Calm s) (hu : replicated s s.me = false) (hx : isArrayPost x = true) (hcs : SameEngines cs s.cores) (hz : ∀ r, r ∉ rs → rg.get r = s.me.regs.get r)
  (hq : (s.me.q.toList.all fun q => !q.out) = true → qq = s.me.q)
include hc hu hcs hz hq

/-- With a gated line in the window the command itself waits. -/
theorem command_waits (hg : s.me.gated ≠ []) : ∃ t, closeIssue (commitPoint (commanding s p rd cs rg lg qq sr n) opc [] [x]) = t ∧
    WaitsAt s { withMe s (waitingMe s t) with nextId := n } t 4 [x] rs ∧ t.me.regs = rg ∧ t.me.serials = sr := by
  let w := commanding s p rd cs rg lg qq sr n
  let u := withMe w { w.me with closing := some (asking 4 opc [] [x]) }
  have hclose := closeIssue_waits (s := u) rfl hc.2.1 rfl hc.2.2.2.1 hu rfl rfl (.inl (.inl hg))
  rw [commitPoint_asks (s := w) rfl hc.2.2.1]
  refine ⟨_, hclose, ⟨rfl, rfl, ⟨_, rfl, rfl, rfl, rfl, rfl, rfl, rfl⟩, rfl, hz, ⟨rfl, hq⟩, ?_, hcs _ _ rfl rfl, fun _ => rfl, fun _ => rfl⟩, rfl, rfl⟩
  rw [← hc.1]
  rfl

/-- What the bundle of a command asks for, with CPT and NEXT known. -/
def commandClosing (s : State) (opc : Nat) (x : Post) : Closing := tentative { asking 4 opc [] [x] with cpt := s.me.pc + 32, next := s.me.pc + 32 }

include hx

/-- Without a tag the window of a command is empty: it closes, and the command leaves. -/
theorem command_completes {R : State → State} (hR : Sending R) (hrun : ∀ v, v.me.sid = s.me.sid → runPost v s.me.sid (s.me.pc + 32) x = R v) (hw : windowEmpty s) (hn : NoCopies cs s.me.sid)
    (hmk : s.me.mark = none) (hlg : lg = []) : ∃ t, closeIssue (commitPoint (commanding s p rd cs rg lg qq sr n) opc [] [x]) = t ∧
    (Advanced s t ∧ t.timers = (R { withMe s (sentMe s t) with nextId := n }).timers ∧ Kept (R { withMe s (sentMe s t) with nextId := n }) t rs) ∧ t.me.regs = rg ∧ t.me.serials = sr := by
  obtain ⟨-, hg, hl, ha, hk⟩ := hw
  have hleave : leaves x = true := by cases x <;> cases hx <;> rfl
  let w := commanding s p rd cs rg lg qq sr n
  let u := withMe w { w.me with closing := some (asking 4 opc [] [x]) }
  let d := commandClosing s opc x
  let m : State := { w with issue := s.issue, me := { w.me with choice := none, waitset := none, closing := some d } }
  let tm : Strand := { goOn s.clock (s.me.pc + 32) (committed m.me d) with closing := s.me.closing }
  let X := withMe m (committed m.me d)
  let t := withMe (R X) tm
  let e := R { withMe s (sentMe s t) with nextId := n }
  have hpost : ∀ q ∈ [x], leaves q = true := fun q hq => by rw [List.mem_singleton.mp hq]; exact hleave
  have hclose : closeIssue u = finishCommit m s.me.sid :=
    (closeIssue_completes (s := u) rfl hc.2.1 rfl hc.2.2.2.1 hu ⟨hl, ha, hn⟩ hg hlg hpost).trans
      (congrArg (fun m => finishCommit m s.me.sid) (congrArg (fun i => { m with issue := i }) hc.1).symm)
  have hfin : finishCommit m s.me.sid = t := by
    have h := finishCommit_leaves (s := m) (c := d) (v := R X) rfl rfl rfl rfl hpost hmk hc.2.2.2.1 (hrun X rfl) (by rw [hR.me]; rfl)
    refine h.trans ?_
    rw [hR.me]
    exact congrArg (fun c => withMe (R X) { tm with closing := c }) hc.2.2.1.symm
  have hlike : Alike { withMe s (sentMe s t) with nextId := n } X := by
    exact ⟨rfl, rfl, rfl, rfl, hcs⟩
  have h := hR.alike _ _ hlike
  rw [commitPoint_asks (s := w) rfl hc.2.2.1]
  refine ⟨t, hclose.trans hfin, ⟨⟨rfl, rfl⟩, h.timers, fun r hr => ?_, ⟨?_, fun hall => ?_⟩, ?_, h.engines _ _ rfl rfl, ?_, ?_⟩, rfl, rfl⟩
  · rw [hR.me]; exact hz r hr
  · rw [hR.me]; rfl
  · rw [hR.me] at hall ⊢; exact hq hall
  · exact (congrArg (withMe · tm) h.rest).trans (congrArg (fun ts => { e with me := tm, cores := (R X).cores, timers := ts }) h.timers.symm)
  · exact fun k => congrArg (fun m => m.hbm.read k) h.rest
  · exact fun k => congrArg (fun m => m.near.read k) h.rest

theorem command_parks {R : State → State} (hR : Sending R) (hrun : ∀ v, v.me.sid = s.me.sid → runPost v s.me.sid (s.me.pc + 32) x = R v) (hw : windowEmpty s) (hn : NoCopies cs s.me.sid)
    (hlg : lg ≠ []) :
    ∃ t, closeIssue (commitPoint (commanding s p rd cs rg lg qq sr n) opc [] [x]) = t ∧ WaitsAt s (R { withMe s (waitingMe s t) with nextId := n }) t 4 [] rs ∧ t.me.regs = rg ∧ t.me.serials = sr := by
  obtain ⟨-, hg, hl, ha, hk⟩ := hw
  have hkind : needsXlate x = false ∧ [x].filter isArrayPost = [x] ∧ ([x].filter fun q => !isArrayPost q) = [] := by cases x <;> cases hx <;> exact ⟨rfl, rfl, rfl⟩
  obtain ⟨hxl, hearly, hrest⟩ := hkind
  let w := commanding s p rd cs rg lg qq sr n
  let u := withMe w { w.me with closing := some (asking 4 opc [] [x]) }
  let c : Closing := { asking 4 opc [] [x] with cpt := s.me.pc + 32, next := s.me.pc + 32 }
  let m : State := { w with issue := s.issue, me := { w.me with choice := none, waitset := none, closing := some c } }
  let X := withMe m (atCommit m.me (leftOver c [x]) s.clock)
  let t := later (R X) (.windowTentativePhase s.me.sid)
  have hheld : heldOpen (withMe m { m.me with closing := some (tentative c) }) { m.me with closing := some (tentative c) } (tentative c) = false := by
    have hidle : Unmoved (withMe m { m.me with closing := some (tentative c) }) s.me.sid := ⟨hl, ha, hn⟩
    rw [heldOpen_unmoved (t := { m.me with closing := some (tentative c) }) hidle hg rfl]
    show [x].any needsXlate = false
    simp [hxl]
  have hneeds : needsPhase (withMe m { m.me with closing := some (tentative c) }) { m.me with closing := some (tentative c) } (tentative c) = true := by
    have hlog : lg.isEmpty = false := by simpa using hlg
    rw [needsPhase, hheld, show ({ m.me with closing := some (tentative c) } : Strand).log = lg from rfl, hlog]
    rfl
  have hstart : startCommit m = t := by
    refine (startCommit_phase (s := m) (c := c) (early := [x]) rfl hu rfl rfl hneeds (by rw [hheld]; exact hearly)).trans ?_
    exact congrArg (fun v => later v (.windowTentativePhase s.me.sid)) (hrun X rfl)
  have hclose : closeIssue u = t := by
    refine (closeIssue_asked (s := u) rfl hc.2.1 rfl hc.2.2.2.1).trans (Eq.trans ?_ hstart)
    exact congrArg (fun i => startCommit { m with issue := i }) hc.1.symm
  have hlike : Alike { withMe s (waitingMe s t) with nextId := n } X := ⟨rfl, rfl, rfl, rfl, hcs⟩
  have h := hR.alike _ _ hlike
  rw [commitPoint_asks (s := w) rfl hc.2.2.1]
  have hme : t.me = atCommit m.me (leftOver c [x]) s.clock := hR.me X
  have hte : (R { withMe s (waitingMe s t) with nextId := n }).me = { s.me with closing := some (leftOver c [x]), parkedAt := s.clock } :=
    (hR.me _).trans (congrArg (fun t => { s.me with closing := t.closing, parkedAt := s.clock }) hme)
  refine ⟨t, hclose, ⟨?_, ?_, ⟨leftOver c [x], ?_, rfl, rfl, rfl, rfl, hrest, rfl⟩, ?_, h.kept_later _ (fun r hr => ?_) ⟨?_, fun hall => ?_⟩⟩, ?_, ?_⟩
  · rw [hme]; rfl
  · rw [hme]; rfl
  · rw [hme]; rfl
  · show (R X).timers ++ [⟨(R X).clock + 1 + Config.delay (R X).fresh, .windowTentativePhase s.me.sid⟩] = _
    rw [h.timers, h.fresh, hR.clock]
    rfl
  · rw [hte, show (R X).me = _ from hme]; exact hz r hr
  · rw [hte, show (R X).me = _ from hme]; rfl
  · rw [hte] at hall ⊢
    rw [show (R X).me = _ from hme]
    exact hq hall
  · rw [hme]; rfl
  · rw [hme]; rfl

theorem command_leaves {o : Option Tag} {R : State → State} (hR : Sending R) (hrun : ∀ v, v.me.sid = s.me.sid → runPost v s.me.sid (s.me.pc + 32) x = R v) (hw : windowEmpty s) (hn : NoCopies cs s.me.sid)
    (hmk : s.me.mark = none) (hlg : lg = [] ↔ o = none) : ∃ t, closeIssue (commitPoint (commanding s p rd cs rg lg qq sr n) opc [] [x]) = t ∧
    LeftAtIssue s (R { withMe s (commandMe s t o) with nextId := n }) t 4 o rs ∧ t.me.regs = rg ∧ t.me.serials = sr := by
  cases o with
  | none => exact command_completes hc hu hx hcs hz hq hR hrun hw hn hmk (hlg.mpr rfl)
  | some g => exact command_parks hc hu hx hcs hz hq hR hrun hw hn fun h => nomatch hlg.mp h

end

/-! ## The instructions of the array's commands -/

variable {k : ArrKind} {a b : Word} {sh : Option Shape} {x : BitVec 2} {d : Option (BitVec 6)} {opc : Nat}

/-- How an instruction sends a command: what its slot does, what it captures, and what it is checked for at issue. -/
structure SendsCommand (s : State) (i : Instr) (opc : Nat) (k : ArrKind) (a b : Word) (sh : Option Shape) (x : BitVec 2) (d : Option (BitVec 6)) : Prop where
  exec : exec i s = slotOp 4 i (fun s => arrayCommand s i opc (d.map .s)) s
  captures : ∀ u, (∀ c, rdS u c = sVal s c) → (∀ c : BitVec 4, rdH u c = s.me.h[c.toNat]) → arrayOf u i = some (k, a, b, sh, x)
  before : beforeSources s i = none
  after : afterSources s 4 i = none
  access : ∀ h, gangOf s s.me = some h → arrayTrap s h i = none → accessTrap s (4, i) = none
  hold : s.me.acqFence = [] → (holdsArray s = true → (getCore s (myCore s)).array.cmds.length < 8 ∧ (isStream k && progOut s) = false) → slotHold s (4, i) = none
  lines : linesNeeded s i ≤ 4
  nest : nestStop s (4, i) = none
  banks : bankStop s (4, i) = none

theorem sendsCommand (h : arrayCmd s i = some (k, a, b, sh, x, d)) : ∃ opc, SendsCommand s i opc k a b sh x d := by
  unfold arrayCmd at h
  split at h
  case h_9 => cases h
  all_goals
    cases h
    refine ⟨_, rfl, fun u hr hh => ?_, rfl, rfl, fun h hg ht => ?_, fun hq hb => ?_, Nat.zero_le 4, rfl, bankStop_none _ _ _ fun g => rfl⟩
    · simp only [arrayOf, hr, hh]
    · unfold accessTrap
      simp only [hg, ht]
      rfl
    · unfold slotHold
      rcases gangOf s s.me with _ | h
      · rfl
      · cases hh : holdsArray s
        · simp [hq, arrayOf]
        · obtain ⟨h8, hp⟩ := hb hh
          simp [hq, arrayOf, h8, hp]

/-- The command that an instruction captures in a state, under a tag (R187). -/
def captured (s : State) (k : ArrKind) (a b : Word) (sh : Option Shape) (x : BitVec 2) (o : Option Tag) : ArrCmd :=
  { id := s.nextId, sid := s.me.sid, tag := o, kind := k, a := a, b := b, h := sh.getD 0, x := x, cfg := cfgNow (myArray s), entered := 0, complete := 0, started := false, beat0 := 0, bad := false }

/-- Nothing of the strand is on its way to a slice, so there is nothing to perform. -/
theorem drainAll_idle (h : nearIdle s) : drainAll s s.me.sid = s := by
  have hmine : (s.nearOps.filter fun o => o.sid == s.me.sid && o.sent && true) = [] := by
    refine List.filter_eq_nil_iff.mpr fun o ho => ?_
    simp [h o ho]
  rw [drainAll, drainNear, hmine]
  rfl

/-- What an array command asks for, once it has captured its operands. -/
theorem arrayCommand_captured (h : arrayOf s i = some (k, a, b, sh, x)) (r : Option RegId) : arrayCommand s i opc r =
    if arrayEngine s k sh then commitPoint (obligateDest s r).1 opc [] [.arrayPoison (obligateDest s r).2 .engine]
    else if !arrayAligned s k a sh then commitPoint (obligateDest s r).1 opc [] [.arrayPoison (obligateDest s r).2 .align]
    else commitPoint (drainAll { (obligateDest s r).1 with nextId := (obligateDest s r).1.nextId + 1 } s.me.sid) opc []
      [.array (coreOf s.me) { captured s k a b sh x (obligateDest s r).2 with id := (obligateDest s r).1.nextId }] := by
  unfold arrayCommand
  rw [h]
  cases r <;> rfl

theorem arrayEngine_congr (h : myArray u = myArray s) (hs : u.me.sid = s.me.sid) : arrayEngine u k sh = arrayEngine s k sh := by
  simp only [arrayEngine, holdsArray, getArray, myCore, h, hs]

theorem arrayAligned_congr (h : myArray u = myArray s) : arrayAligned u k a sh = arrayAligned s k a sh := by
  simp only [arrayAligned, getArray, myCore, h]

theorem captured_congr {o : Option Tag} (h : myArray u = myArray s) (hs : u.me.sid = s.me.sid) (n : Nat) : { captured u k a b sh x o with id := n } = { captured s k a b sh x o with id := n } := by
  simp only [captured, h, hs]

section
variable {p : Vector Word 8} {rd : Nat} {cs : List Core} {rg : RegFile} {lg : List LogEntry} {qq : Vector Sema 16} {sr : List (Nat × Bool)} {o : Option Tag}
  (hs : SendsCommand s i opc k a b sh x d) (hc : Calm s) (hcs : SameEngines cs s.cores) (hi : nearIdle s)
  (ho : obligateDest (opened s p rd cs 4) (d.map .s) = (commanding s p rd cs rg lg qq sr s.nextId, o))
include hs hc hcs hi ho

/-- In its slot the instruction captures what it does in the state before it, for its destination's tag. -/
theorem arrayCommand_opened : arrayCommand (opened s p rd cs 4) i opc (d.map .s) =
    if arrayEngine s k sh then commitPoint (commanding s p rd cs rg lg qq sr s.nextId) opc [] [.arrayPoison o .engine]
    else if !arrayAligned s k a sh then commitPoint (commanding s p rd cs rg lg qq sr s.nextId) opc [] [.arrayPoison o .align]
    else commitPoint (commanding s p rd cs rg lg qq sr (s.nextId + 1)) opc [] [.array (coreOf s.me) (captured s k a b sh x o)] := by
  have harr : myArray (opened s p rd cs 4) = myArray s := (hcs (opened s p rd cs 4) s rfl rfl _).1
  have hcap := hs.captures (opened s p rd cs 4) (fun c => rdS_open (opened s p rd cs 4) ⟨s.me.regs, s.me.h, s.me.loop, 4⟩ c rfl hc.2.1) fun c => rfl
  have hdrain : drainAll (commanding s p rd cs rg lg qq sr (s.nextId + 1)) s.me.sid = commanding s p rd cs rg lg qq sr (s.nextId + 1) :=
    drainAll_idle (s := commanding s p rd cs rg lg qq sr (s.nextId + 1)) hi
  rw [arrayCommand_captured hcap, arrayEngine_congr harr rfl, arrayAligned_congr harr, captured_congr harr rfl, ho]
  simp only
  exact congrArg (fun v => if arrayEngine s k sh then _ else if !arrayAligned s k a sh then _ else commitPoint v opc [] _) hdrain

end

/-- An array command that nothing stops has its effect. -/
theorem SendsCommand.effect {h : Gang} (hs : SendsCommand s i opc k a b sh x d) (hr : Ready s i) (hg : gangOf s s.me = some h) (ht : arrayTrap s h i = none)
    (hb : holdsArray s = true → (getCore s (myCore s)).array.cmds.length < 8 ∧ (isStream k && progOut s) = false) : ∃ p rd cs,
    Machine.exec i s = .next (closeIssue (arrayCommand (opened s p rd cs 4) i opc (d.map .s))) ∧ SameEngines cs s.cores ∧ (NoCopies s.cores s.me.sid → NoCopies cs s.me.sid) := by
  obtain ⟨p, rd, cs, e, hcs⟩ := inSlot_issuing s 4
  have hstop := stop_ready s 4 i hr hs.before hs.after (hs.access h hg ht) (hs.hold hr.1.2.2.2.2.1 hb) hs.lines hs.nest hs.banks
  refine ⟨p, rd, cs, hs.exec.trans ((effect_of s 4 i _ hr.1 hr.2.1 hstop).trans (by rw [e])), hcs, fun hn => ?_⟩
  have hn' := inSlot_noCopies (s := s) (sid := s.me.sid) 4 hn
  rwa [e] at hn'

/-! ## What leaves at the commit point -/

theorem runPost_arrayPoison {v : State} {cpt : Word} {o : Option Tag} {c : PoisonCode} : runPost v v.me.sid cpt (.arrayPoison o c) = deliverLater v v.me.sid o (.poison c) := by
  simp [runPost, getStrand]

theorem runPost_array {v : State} {cpt : Word} {c : ArrCmd} : runPost v v.me.sid cpt (.array core c) = sendArray v core c := by
  simp [runPost, getStrand]

/-- A future that is poisoned is due after a variable time, one that no tag names never. -/
theorem deliverLater_fills {v : State} (o : Option Tag) (y : Payload) (hclock : v.clock = s.clock) (hfresh : v.fresh = s.fresh) (htimers : v.timers = s.timers) :
    deliverLater v s.me.sid o y = { v with fresh := s.fresh + o.toList.length, timers := s.timers ++ fills s o (1 + Config.delay s.fresh) y } := by
  cases o with
  | none => simp [deliverLater, fills, ← hfresh, ← htimers]
  | some g => simp [deliverLater, fills, later, addTimer, Nat.add_assoc, hclock, hfresh, htimers]

section
variable {h : Gang} (hs : SendsCommand s i opc k a b sh x d) (hr : Ready s i) (hg : gangOf s s.me = some h) (ht : arrayTrap s h i = none)
  (hb : holdsArray s = true → (getCore s (myCore s)).array.cmds.length < 8 ∧ (isStream k && progOut s) = false) (hu : replicated s s.me = false)
include hs hr hg ht hb hu

/-- What a command asks for at its commit point leaves at once where its window is empty. -/
theorem command_leavesAtIssue {E : Option Tag → Post} {R : Option Tag → State → State} {n : Nat} (hmk : s.me.mark = none) (hw : windowEmpty s) (hR : ∀ o, Sending (R o)) (hx : ∀ o, isArrayPost (E o) = true)
    (hrun : ∀ o v, v.me.sid = s.me.sid → runPost v s.me.sid (s.me.pc + 32) (E o) = R o v)
    (hask : ∀ {p rd cs rg lg qq sr o}, SameEngines cs s.cores → obligateDest (opened s p rd cs 4) (d.map .s) = (commanding s p rd cs rg lg qq sr s.nextId, o) →
      arrayCommand (opened s p rd cs 4) i opc (d.map .s) = commitPoint (commanding s p rd cs rg lg qq sr n) opc [] [E o]) :
    ∃ t o, exec i s = .next t ∧ FutureOf s t d o ∧ LeftAtIssue s (R o { withMe s (commandMe s t o) with nextId := n }) t 4 o (destReg d) := by
  obtain ⟨p, rd, cs, he, hcs, hcop⟩ := hs.effect hr hg ht hb
  obtain ⟨rg, lg, qq, sr, o, ho, hz, hq, hf, hl⟩ := obligateDest_opened (p := p) (rd := rd) (cs := cs) hr.1 d
  have hn : NoCopies s.cores s.me.sid := hw.2.2.2.2
  obtain ⟨t, hclose, hleft, hregs, hser⟩ := command_leaves (n := n) (opc := opc) (o := o) hr.1 hu (hx o) hcs hz hq (hR o) (hrun o) hw (hcop hn) hmk (hl hw.1)
  exact ⟨t, o, he.trans (congrArg Host.Outcome.next ((congrArg closeIssue (hask hcs ho)).trans hclose)), FutureOf.congr hf hregs hser, hleft⟩

/-- With a gated line in the window it waits. -/
theorem command_waitsAtIssue {E : Option Tag → Post} {n : Nat} (hgate : s.me.gated ≠ [])
    (hask : ∀ {p rd cs rg lg qq sr o}, SameEngines cs s.cores → obligateDest (opened s p rd cs 4) (d.map .s) = (commanding s p rd cs rg lg qq sr s.nextId, o) →
      arrayCommand (opened s p rd cs 4) i opc (d.map .s) = commitPoint (commanding s p rd cs rg lg qq sr n) opc [] [E o]) :
    ∃ t o, exec i s = .next t ∧ FutureOf s t d o ∧ WaitsAt s { withMe s (waitingMe s t) with nextId := n } t 4 [E o] (destReg d) := by
  obtain ⟨p, rd, cs, he, hcs, -⟩ := hs.effect hr hg ht hb
  obtain ⟨rg, lg, qq, sr, o, ho, hz, hq, hf, -⟩ := obligateDest_opened (p := p) (rd := rd) (cs := cs) hr.1 d
  obtain ⟨t, hclose, hleft, hregs, hser⟩ := command_waits (n := n) (opc := opc) (x := E o) hr.1 hu hcs hz hq hgate
  exact ⟨t, o, he.trans (congrArg Host.Outcome.next ((congrArg closeIssue (hask hcs ho)).trans hclose)), FutureOf.congr hf hregs hser, hleft⟩

/-- A poisoned command obligates its destination and poisons it after a variable time. -/
theorem command_poisons {c : PoisonCode} (hmk : s.me.mark = none) (hw : windowEmpty s)
    (hask : ∀ {p rd cs rg lg qq sr o}, SameEngines cs s.cores → obligateDest (opened s p rd cs 4) (d.map .s) = (commanding s p rd cs rg lg qq sr s.nextId, o) →
      arrayCommand (opened s p rd cs 4) i opc (d.map .s) = commitPoint (commanding s p rd cs rg lg qq sr s.nextId) opc [] [.arrayPoison o c]) :
    ∃ t o, exec i s = .next t ∧ FutureOf s t d o ∧
      LeftAtIssue s { withMe s (commandMe s t o) with fresh := s.fresh + o.toList.length, timers := s.timers ++ fills s o (1 + Config.delay s.fresh) (.poison c) } t 4 o (destReg d) := by
  obtain ⟨t, o, he, hf, hl⟩ := command_leavesAtIssue hs hr hg ht hb hu hmk hw (R := fun o u => deliverLater u s.me.sid o (.poison c)) (fun o => sending_deliverLater s.me.sid o (.poison c)) (fun _ => rfl)
    (fun o v hv => by rw [← hv]; exact runPost_arrayPoison) hask
  refine ⟨t, o, he, hf, ?_⟩
  have hfill := deliverLater_fills (s := s) (v := { withMe s (commandMe s t o) with nextId := s.nextId }) o (.poison c) rfl rfl rfl
  exact (congrArg (LeftAtIssue s · t 4 o (destReg d)) hfill).mp hl

end

/-- Settles O24: a command of the holder leaves at its commit point, at issue where its window is empty. -/
theorem arrayCommands : Obligations.ArrayCommands := by
  intro s i h k a b sh x d hcmd hr hg hu _ hmk hi cmd free poisons
  obtain ⟨opc, hs⟩ := sendsCommand hcmd
  have hholds : holdsArray s = true ↔ Holds s := by simp [holdsArray, getArray, myCore]
  have hadmit (hf : free) : (getCore s (myCore s)).array.cmds.length < 8 ∧ (isStream k && progOut s) = false := by
    refine ⟨hf.1, Bool.eq_false_iff.mpr fun hp => ?_⟩
    obtain ⟨hk, hp⟩ := Bool.and_eq_true_iff.mp hp
    obtain ⟨c, hc, hkind⟩ := List.any_eq_true.mp hp
    exact hf.2 hk c hc (by simpa using hkind)
  have hcap : arrayOf s i = some (k, a, b, sh, x) := hs.captures s (fun c => rdS_closed s c hr.1) fun c => by rw [rdH, hr.1.1]
  have htrap (hp : arrayEngine s k sh = true ∨ arrayAligned s k a sh = false) : arrayTrap s h i = none := by
    unfold arrayTrap
    rw [hcap]
    rcases hp with hp | hp <;> simp [hp]
  have hask := @arrayCommand_opened s i k a b sh x d opc
  refine ⟨fun hn hw => ?_, fun hh hf he ha hw => ?_, fun _ hf he ha ht hw => ?_, fun _ hf he ha ht hgate => ?_⟩
  · have he : arrayEngine s k sh = true := by simp [arrayEngine, mt hholds.mp hn]
    refine command_poisons hs hr hg (htrap (.inl he)) (fun hb => absurd (hholds.mp hb) hn) hu hmk hw fun hcs ho => ?_
    rw [hask hs hr.1 hcs hi ho, if_pos he]
  · refine command_poisons hs hr hg (htrap (.inr ha)) (fun _ => hadmit hf) hu hmk hw fun hcs ho => ?_
    rw [hask hs hr.1 hcs hi ho, he, ha]
    rfl
  · refine command_leavesAtIssue hs hr hg ht (fun _ => hadmit hf) hu hmk hw (R := fun o u => sendArray u (coreOf s.me) (cmd o)) (fun o => sending_sendArray _ _) (fun _ => rfl)
      (fun o v hv => by rw [← hv]; exact runPost_array) fun hcs ho => ?_
    rw [hask hs hr.1 hcs hi ho, he, ha]
    rfl
  · refine command_waitsAtIssue hs hr hg ht (fun _ => hadmit hf) hu (E := fun o => .array (coreOf s.me) (cmd o)) hgate fun hcs ho => ?_
    rw [hask hs hr.1 hcs hi ho, he, ha]
    rfl

end Sys2Proof.Machine
end

section
/-! PROOFS. Traps (O22): what TRAP leaves behind it, the order of held events, and the records that a trap writes. -/

namespace Sys2Proof.Machine
open Sys2Proof Claims

variable {s m : State} {e : HeldEvent} {r : TrapRec} {next : Word}

/-! ## The order of held events (R372) -/

/-- Whether a held event is entered before a new one. -/
def enteredFirst (e x : HeldEvent) : Bool := decide (x.ck < e.ck) || (x.ck == e.ck && decide (x.place ≤ e.place))

theorem enteredFirst_iff {x : HeldEvent} : enteredFirst e x = true ↔ earlierEvent x e := by simp [enteredFirst, earlierEvent]

theorem holdTrap_eq (hs : List HeldEvent) : holdTrap e hs = hs.takeWhile (enteredFirst e) ++ e :: hs.dropWhile (enteredFirst e) := rfl

theorem earlierEvent_of_not {x : HeldEvent} (h : ¬ earlierEvent x e) : earlierEvent e x := by
  unfold earlierEvent at *
  omega

theorem earlierEvent_trans {x y z : HeldEvent} (h : earlierEvent x y) (h' : earlierEvent y z) : earlierEvent x z := by
  unfold earlierEvent at *
  omega

theorem holdTrap_perm (hs : List HeldEvent) : (holdTrap e hs).Perm (e :: hs) := by
  rw [holdTrap_eq]
  refine List.perm_middle.trans ?_
  rw [List.takeWhile_append_dropWhile]

/-- Behind the events that a new one follows, all others follow the new one. -/
theorem later_dropWhile {hs : List HeldEvent} (h : hs.Pairwise earlierEvent) : ∀ x ∈ hs.dropWhile (enteredFirst e), earlierEvent e x := by
  cases hd : hs.dropWhile (enteredFirst e) with
  | nil => exact List.forall_mem_nil _
  | cons y ys =>
    have hy : earlierEvent e y := by
      have hhead := List.head?_dropWhile_not (enteredFirst e) hs
      rw [hd] at hhead
      exact earlierEvent_of_not (mt enteredFirst_iff.mpr (by simpa using hhead))
    have hrest : (y :: ys).Pairwise earlierEvent := hd ▸ h.sublist (List.dropWhile_sublist _)
    intro x hx
    rcases List.mem_cons.mp hx with rfl | hx
    · exact hy
    · exact earlierEvent_trans hy (List.rel_of_pairwise_cons hrest hx)

theorem holdTrap_pairwise {hs : List HeldEvent} (h : hs.Pairwise earlierEvent) : (holdTrap e hs).Pairwise earlierEvent := by
  have hsplit : (hs.takeWhile (enteredFirst e) ++ hs.dropWhile (enteredFirst e)).Pairwise earlierEvent := by rwa [List.takeWhile_append_dropWhile]
  obtain ⟨hpre, hpost, hcross⟩ := List.pairwise_append.mp hsplit
  have hbefore (x : HeldEvent) (hx : x ∈ hs.takeWhile (enteredFirst e)) : earlierEvent x e := enteredFirst_iff.mp (List.mem_takeWhile_imp hx)
  rw [holdTrap_eq]
  refine List.pairwise_append.mpr ⟨hpre, List.pairwise_cons.mpr ⟨later_dropWhile h, hpost⟩, fun x hx y hy => ?_⟩
  rcases List.mem_cons.mp hy with rfl | hy
  · exact hbefore x hx
  · exact hcross x hx y hy

/-! ## The records of a trap (R369, R371) -/

theorem postEvent_me (j p : Nat) (ts : List Word) (bs : List Byte) : (postEvent s j p ts bs).me = s.me := by
  unfold postEvent
  split
  · rfl
  · dsimp only
    split <;> rfl

section
variable (hu : replicated s s.me = false)
include hu

/-- A trap of an unreplicated strand is saved at once. -/
theorem takeTrapOn_unreplicated : takeTrapOn s s.me.sid r next = saveTrap (trapHeld s r next) s.me.sid := by
  have hs : updStrand s s.me.sid (fun t => { t with pc := next, heldTrap := some r, waitSerial := false, bankWait := none }) = trapHeld s r next := if_pos rfl
  have hget : getStrand (trapHeld s r next) s.me.sid = some (trapHeld s r next).me := if_pos rfl
  have hrep : replicated (trapHeld s r next) (trapHeld s r next).me = false := hu
  unfold takeTrapOn
  simp only [hs, hget, hrep, Bool.false_and, Bool.false_eq_true, if_false]

variable (hsig : s.me.sig = none) (hcl : s.me.closing = none) (hr : r.cause ≠ .replicaMismatch)
include hsig hcl hr

/-- Once the records are written the strand is FAULTED, and only a far fault posts no event; while one cannot be written, the write is held. -/
theorem saveTrap_unreplicated :
    (∀ m, devWriteAll (trapHeld s r next) (asidOf s s.me) (trapWrites s r next) = .ok m → saveTrap (trapHeld s r next) s.me.sid =
      if r.cause == .farFault then withMe m (faultedMe s.me next)
      else postEvent (withMe m (faultedMe s.me next)) (jobNum s s.me) (trapPlace s s.me) [s.me.trec] (trapBytes r (faultedMe s.me next) (identOf s (faultedMe s.me next)))) ∧
    ∀ e, devWriteAll (trapHeld s r next) (asidOf s s.me) (trapWrites s r next) = .error e →
      saveTrap (trapHeld s r next) s.me.sid = holdEvent (trapHeld s r next) e (asidOf s s.me) 7 (some s.me.sid) (.heldEventEntry (jobNum s s.me)) := by
  have hget : getStrand (trapHeld s r next) s.me.sid = some (trapHeld s r next).me := if_pos rfl
  have hheld : (if (trapHeld s r next).me.sig.isSome || (trapHeld s r next).me.closing.isSome then none else (trapHeld s r next).me.heldTrap) = some r := by simp [trapHeld, withMe, hsig, hcl]
  have hwind : windward (trapHeld s r next) (trapHeld s r next).me = true := windward_unreplicated (s := s) hu
  have hfaulted : ({ (trapHeld s r next).me with st := .faulted, heldTrap := none, parkid := none, waitset := none, choice := none, closing := none, asleep := false } : Strand) = faultedMe s.me next := rfl
  have hasid : asidOf (trapHeld s r next) (trapHeld s r next).me = asidOf s s.me := rfl
  have hwrites : recordWrites (trapHeld s r next) (faultedMe s.me next) ++ [((trapHeld s r next).me.trec, trapBytes r (faultedMe s.me next) (identOf (trapHeld s r next) (trapHeld s r next).me))]
    = trapWrites s r next := rfl
  unfold saveTrap
  simp only [hget, hfaulted]
  rw [hheld]
  simp only [hwind, beq_eq_false_iff_ne.mpr hr, Bool.false_eq_true, if_false, Bool.or_false, Bool.not_true]
  refine ⟨fun m hw => ?_, fun e hw => ?_⟩
  · have hsid : m.me.sid = s.me.sid := (congrArg Strand.sid (eq_of_holders (devWriteAll_holders hw)).1).trans rfl
    have hset : updStrand m s.me.sid (fun _ => faultedMe s.me next) = withMe m (faultedMe s.me next) := if_pos hsid
    rw [hasid, hwrites, hw]
    simp only [hset]
    rfl
  · rw [hasid, hwrites, hw]
    rfl

end

/-- What taking a trap leaves (R369, R370, R371). -/
theorem trapEntry : TrapEntry := by
  refine ⟨fun e hs h => ⟨holdTrap_pairwise h, holdTrap_perm hs⟩, fun s r next hu hsig hcl hr => ?_⟩
  obtain ⟨hwritten, hheld⟩ := saveTrap_unreplicated (next := next) hu hsig hcl hr
  rw [takeTrapOn_unreplicated hu]
  refine ⟨fun m hw => ⟨fun hf => ?_, fun hf => ?_⟩, fun e hw => ?_⟩
  · rw [hwritten m hw, if_pos (beq_iff_eq.mpr hf)]
  · rw [hwritten m hw, if_neg (mt beq_iff_eq.mp hf)]
    exact ⟨rfl, postEvent_me _ _ _ _⟩
  · rw [hheld e hw]
    exact (eq_of_holders (holdEvent_holders _ _ _ _ _)).1

/-! ## TRAP (R118) -/

/-- A bundle that holds a trap closes by taking it, at the bundle after its own. -/
theorem closeIssue_trapping {b : Issue} (hi : s.issue = some b) (hl : b.loop.active = false) (hcl : s.me.closing = none) (ht : s.me.heldTrap = some r) :
    closeIssue s = takeTrapOn { s with issue := none, me := { s.me with choice := none, waitset := none, heldTrap := none } } s.me.sid r r.bundle := by
  simp [closeIssue, hi, loopStep, hl, hcl, ht, setMe]

theorem softwareTraps : SoftwareTraps := by
  intro s g c hr
  obtain ⟨p, rd, cs, e, hcs⟩ := inSlot_issuing s 0
  let r : TrapRec := ⟨.trap, 1, c.setWidth 16, s.me.pc + 32, s.me.window, 0⟩
  let u := setMe (opened s p rd cs 0) fun t => { t with heldTrap := some r }
  let m : State := { u with issue := s.issue, me := { u.me with choice := none, waitset := none, heldTrap := s.me.heldTrap } }
  have hx : exec (.trap g c) s = .next (closeIssue u) := (effect_operandsOnly s 0 (.trap g c) _ hr rfl).trans (by rw [e]; rfl)
  have hm : { u with issue := none, me := { u.me with choice := none, waitset := none, heldTrap := none } } = m := by
    rw [← hr.1.1, ← hr.1.2.2.2.1]
  refine ⟨m, hx.trans (congrArg Host.Outcome.next ?_), rfl, rfl, rfl, fun _ _ => rfl, ⟨rfl, fun _ => rfl⟩, rfl, hcs _ _ rfl rfl, fun _ => rfl, fun _ => rfl⟩
  rw [closeIssue_trapping (s := u) rfl hr.1.2.1 hr.1.2.2.1 rfl, hm]
  rfl

/-- Settles O22: TRAP's bundle commits before its trap is taken; a trap writes its records, faults the strand and posts its event in the order of R372. -/
theorem trapsAndTheirEntry : Obligations.TrapsAndTheirEntry := ⟨softwareTraps, trapEntry⟩

end Sys2Proof.Machine
end

section
/-! PROOFS. Events of one strand (O34). -/

namespace Sys2Proof.Machine
open Sys2Proof Claims

variable {s : State} {sid : Nat}

/-- An update of the first member of a list that satisfies a test depends on what it does to that member alone. -/
theorem updFirst_congr {α : Type} {p : α → Bool} {f g : α → α} {x : α} {l : List α} (h : l.find? p = some x) (hx : f x = g x) : updFirst p f l = updFirst p g l := by
  induction l with
  | nil => rfl
  | cons y ys ih =>
    simp only [List.find?_cons, updFirst] at *
    cases hp : p y with
    | true => simp_all
    | false => simp_all

/-- An update of a strand depends on what it does to that strand alone. -/
theorem updStrand_congr {t : Strand} {f g : Strand → Strand} (h : getStrand s sid = some t) (ht : f t = g t) : updStrand s sid f = updStrand s sid g := by
  unfold getStrand at h
  unfold updStrand
  split at h
  next hm =>
    cases h
    rw [if_pos hm, if_pos hm, ht]
  next hm => rw [if_neg hm, if_neg hm, updFirst_congr h ht]

theorem sleepEnd_wakes {t : Strand} (h : getStrand s sid = some t) (ha : t.asleep = true) (hn : t.notBefore ≤ s.clock) : exec (.sleepEnd sid) s = .next (updStrand s sid fun u => { u with asleep := false }) :=
  congrArg Host.Outcome.next (updStrand_congr h (by simp [ha, hn]))

/-! ## The strand at issue -/

theorem getStrand_me : getStrand s s.me.sid = some s.me := if_pos rfl

theorem updStrand_me {f : Strand → Strand} : updStrand s s.me.sid f = withMe s (f s.me) := if_pos rfl

theorem barrierBytes_traps {b : BitVec 4} {v : Word} (hm : s.me.mark = some (b, v)) (hcl : s.me.closing = none) (hr : resident s.me = true) :
    exec (.barrierBytes s.me.sid) s = .next (takeTrapOn (withMe s { s.me with mark := none }) s.me.sid ⟨.barrierBytes, 0, b.setWidth 16, s.me.pc, s.me.window, v⟩ s.me.pc) := by
  have hst : (s.me.closing.isSome || s.me.st == .faulted || s.me.st == .done) = false := by
    cases h : s.me.st <;> simp_all [resident]
  refine congrArg Host.Outcome.next ?_
  unfold barrierTrap
  simp only [getStrand_me, hm, hst, trapView, hr, Bool.true_or, if_true, Bool.false_eq_true, if_false, updStrand_me]

section
variable {a : Word} {bs : List Byte} (hn : s.me.nestAddr = some a) (hp : s.me.st = .parked) (hl : s.me.loc.isSome = true) (hb : devRead s (asidOf s s.me) a 64 = .ok bs)
include hn hp hl hb

theorem sequencerLoad_malformed (h : nestOf bs = none) : exec (.sequencerLoad s.me.sid) s =
    .next (takeTrapOn (withMe s { s.me with nestAddr := none }) s.me.sid ⟨.shape, 1, 0, s.me.pc, s.me.window, a⟩ s.me.pc) := by
  refine congrArg Host.Outcome.next ?_
  simp [getStrand_me, hn, hp, resident, hl, hb, h, updStrand_me]

theorem sequencerLoad_stages {d : BitVec 2} {c : Word} {n : Nat} (h : nestOf bs = some (d, c, n)) : exec (.sequencerLoad s.me.sid) s =
    .next (withMe s { s.me with st := .running, readyAt := s.clock + 1, notBefore := s.clock + 1, seq := { nextT := 0, endT := BitVec.ofNat 32 n, counts := c, mode := 2, ndim := d } }) := by
  refine congrArg Host.Outcome.next ?_
  simp [getStrand_me, hn, hp, resident, hl, hb, h, updStrand_me]

end

/-! ## The end of a strand (R103) -/

/-- What the end of a strand is stated of: the strand at issue, the memories and the cores. -/
def endView (s : State) : Strand × Memory × Memory × List Core := (s.me, s.hbm, s.near, s.cores)

theorem kickDies_endView : endView (kickDies s) = endView s := by
  refine foldl_keeps (fun s die => ?_) _ s
  unfold kickDispatch
  split <;> rfl

theorem dropTickets_none {t : Strand} (h : t.tickets = []) : dropTickets s t = s := by
  unfold dropTickets
  split
  · rfl
  · rw [h, List.foldl_nil, ite_self]

/-- The holder of an array gives it up. -/
theorem releaseArray_unheld (core : Nat) : (getArray (releaseArray s core) core).holder = none ∧ (releaseArray s core).me = s.me ∧ (releaseArray s core).hbm = s.hbm ∧ (releaseArray s core).near = s.near := by
  have hset : (getArray (updArray s core fun a => { a with holder := none, releasing := none, nextCfg := [], cfg := cfgNow a }) core).holder = none := by
    rw [getArray, updArray, getCore_updCore_same _ _ _ (getCore_id s core)]
  unfold releaseArray
  dsimp only
  split
  · exact ⟨hset, rfl, rfl, rfl⟩
  · exact ⟨hset, rfl, rfl, rfl⟩

/-- The end of a strand takes its core's array from it, if it holds it. -/
theorem array_left (core : Nat) : (getArray (if (getArray s core).holder == some sid then releaseArray s core else s) core).holder ≠ some sid ∧
    (if (getArray s core).holder == some sid then releaseArray s core else s).me = s.me ∧
    (if (getArray s core).holder == some sid then releaseArray s core else s).hbm = s.hbm ∧
    (if (getArray s core).holder == some sid then releaseArray s core else s).near = s.near := by
  obtain ⟨hnone, hrest⟩ := releaseArray_unheld (s := s) core
  split
  next h => exact ⟨by simp [hnone], hrest⟩
  next h => exact ⟨by simpa using h, rfl, rfl, rfl⟩

theorem strandDone_ends {m : State} (hc : s.me.cdone = true) (hr : s.me.remain = .exit) (ha : awaitedOut s s.me = false) (hp : s.me.st = .parked) (ht : s.me.heldTrap = none) (hm : s.me.mark = none)
    (hk : s.me.tickets = [])
    (hw : devWriteAll s (asidOf s s.me) [(s.me.crec, crecBytes { s.me with st := .done, cdone := false, remain := .none, parkid := none, waitset := none } (identOf s s.me))] = .ok m) :
    ∃ t, exec (.strandDone s.me.sid) s = .next t ∧ t.me.st = .done ∧ t.me.loc = none ∧ t.me.cdone = false ∧ t.me.regs = s.me.regs ∧ t.hbm = m.hbm ∧ t.near = s.near ∧
      (getArray t (coreOf s.me)).holder ≠ some s.me.sid := by
  have hcond : (!s.me.cdone || s.me.remain != .exit || awaitedOut s s.me || s.me.st != .parked || s.me.heldTrap.isSome || s.me.mark.isSome) = false := by
    simp [hc, hr, ha, hp, ht, hm]
  have hme : m.me = s.me := (eq_of_holders (devWriteAll_holders hw)).1
  have hnear : m.near = s.near := by obtain ⟨_, _, _, rfl⟩ := devWriteAll_shape hw; rfl
  unfold exec execStrandDone
  simp -zeta only [getStrand_me, hcond, Bool.false_eq_true, if_false]
  extract_lets u core
  have hwrite : devWriteAll s (asidOf s s.me) [(s.me.crec, crecBytes u (identOf s u))] = .ok m := hw
  rw [hwrite]
  simp -zeta only
  extract_lets s2 s3 s4 s5 s6 s7 s8
  obtain ⟨hholder, hme2, hhbm2, hnear2⟩ : (getArray s2 core).holder ≠ some s.me.sid ∧ s2.me = m.me ∧ s2.hbm = m.hbm ∧ s2.near = m.near := array_left core
  have h3 : s3 = s2 := dropTickets_none hk
  have h5 : s5.me = s.me ∧ s5.hbm = m.hbm ∧ s5.near = s.near ∧ (getArray s5 core).holder ≠ some s.me.sid := by
    refine ⟨?_, ?_, ?_, ?_⟩
    · exact (congrArg State.me h3).trans (hme2.trans hme)
    · exact (congrArg State.hbm h3).trans hhbm2
    · exact (congrArg State.near h3).trans (hnear2.trans hnear)
    · have hcore : getCore s4 core = getCore s2 core := getCore_congr (congrArg State.cores h3) core
      rw [getArray, getCore_updCore_same _ _ _ (getCore_id s4 core), hcore]
      exact hholder
  obtain ⟨hme5, hhbm5, hnear5, hholder5⟩ := h5
  have h6 : s6 = withMe s5 { u with loc := none, tickets := [], halted := false } := if_pos (congrArg Strand.sid hme5)
  have h8 : endView (kickDies s8) = endView s6 := by
    refine kickDies_endView.trans ?_
    simp only [s8]
    split
    · split <;> rfl
    · rfl
  rw [h6] at h8
  obtain ⟨hme, hhbm, hnear, hcores⟩ : (kickDies s8).me = _ ∧ (kickDies s8).hbm = _ ∧ (kickDies s8).near = _ ∧ (kickDies s8).cores = _ := by simpa [endView] using h8
  refine ⟨_, rfl, ?_, ?_, ?_, ?_, hhbm.trans hhbm5, hnear.trans hnear5, ?_⟩
  · rw [hme]
  · rw [hme]
  · rw [hme]
  · rw [hme]
  · rw [getArray, getCore_congr (u := s5) hcores]
    exact hholder5

/-- Settles O34: the events that concern one strand alone. -/
theorem strandEvents : Obligations.StrandEvents := by
  refine fun s sid => ⟨fun t h ha hn => sleepEnd_wakes h ha hn, ?_, ?_, ?_⟩
  · rintro rfl hc hr ha hp ht hm hk m hw
    exact strandDone_ends hc hr ha hp ht hm hk hw
  · rintro b v rfl hm hcl hr
    exact barrierBytes_traps hm hcl hr
  · rintro a bs rfl hn hp hl hb
    exact ⟨sequencerLoad_malformed hn hp hl hb, fun d c n => sequencerLoad_stages hn hp hl hb⟩

end Sys2Proof.Machine
end

section
/-! PROOFS. HBM byte by byte (R307, R429): what a reader under a key sees of a write under it. -/

namespace Sys2Proof.Machine
open Sys2Proof Claims

variable {s : State} {m : Memory} {a b : Nat} {bs : List Byte}

/-! ## Bytes of a memory -/

theorem read_append_of_absent {n : Memory} (h : ∀ c ∈ m, c.1 ≠ a) : Memory.read (m ++ n) a = Memory.read n a := by
  induction m with
  | nil => rfl
  | cons c r ih =>
    obtain ⟨hc, hr⟩ := List.forall_mem_cons.mp h
    exact (if_neg hc).trans (ih hr)

theorem read_append_of_absent_right {n : Memory} (h : ∀ c ∈ n, c.1 ≠ a) : Memory.read (m ++ n) a = Memory.read m a := by
  induction m with
  | nil =>
    induction n with
    | nil => rfl
    | cons c r ih => exact (if_neg (h c List.mem_cons_self)).trans (ih fun d hd => h d (List.mem_cons_of_mem _ hd))
  | cons c r ih => exact congrArg (fun x => if c.1 = a then c.2 else x) ih

theorem read_absent (h : ∀ c ∈ m, c.1 ≠ a) : Memory.read m a = 0 := (read_append_of_absent_right (m := []) h)

/-- The cells of bytes that are laid out from an address read as these bytes. -/
theorem read_cellsOf (a : Nat) : ∀ k (h : k < bs.length), Memory.read (cellsOf a bs) (a + k) = bs[k] := by
  induction bs generalizing a with
  | nil => exact fun k h => nomatch h
  | cons x xs ih =>
    have hbehind : ∀ c ∈ cellsOf (a + 1) xs, c.1 ≠ a := fun c hc => by
      have := ((cellsOf_spec xs (a + 1)).2 c hc).2.1
      omega
    intro k h
    cases k with
    | zero =>
      by_cases hx : x = 0
      · rw [cellsOf, if_pos hx]
        exact (read_absent hbehind).trans hx.symm
      · rw [cellsOf, if_neg hx]
        exact if_pos rfl
    | succ k =>
      have hk := ih (a + 1) k (Nat.lt_of_succ_lt_succ h)
      rw [show a + 1 + k = a + (k + 1) by omega] at hk
      rw [cellsOf]
      split
      · exact hk
      · refine (if_neg ?_).trans hk
        show a ≠ a + (k + 1)
        omega

theorem below_of_takeWhile {c : Host.Cell} (hc : c ∈ m.takeWhile fun c => decide (c.1 < a)) : c.1 < a := by simpa using List.mem_takeWhile_imp hc

/-- The cells below an address and those above one do not change what is read elsewhere. -/
theorem read_split (hm : m.wf = true) (n : Nat) : (b < a → Memory.read (m.takeWhile fun c => decide (c.1 < a)) b = m.read b) ∧ (n ≤ b → Memory.read (m.dropWhile fun c => decide (c.1 < n)) b = m.read b) := by
  have hsort := ((Memory.wf_iff m).mp hm).1
  refine ⟨fun h => ?_, fun h => ?_⟩
  · conv_rhs => rw [← List.takeWhile_append_dropWhile (p := fun c => decide (c.1 < a)) (l := m)]
    refine (read_append_of_absent_right fun c hc => ?_).symm
    have := dropWhile_ge m a hsort c hc
    omega
  · conv_rhs => rw [← List.takeWhile_append_dropWhile (p := fun c => decide (c.1 < n)) (l := m)]
    refine (read_append_of_absent fun c hc => ?_).symm
    have := below_of_takeWhile hc
    omega

section
variable (hm : m.wf = true)
include hm

/-- A write is read back. -/
theorem read_write_in {k : Nat} (h : k < bs.length) : (m.write a bs).read (a + k) = bs[k] := by
  have hbelow : ∀ c ∈ m.takeWhile (fun c => decide (c.1 < a)), c.1 ≠ a + k := fun c hc => by
    have := below_of_takeWhile hc
    omega
  have habove : ∀ c ∈ m.dropWhile (fun c => decide (c.1 < a + bs.length)), c.1 ≠ a + k := fun c hc => by
    have := dropWhile_ge m (a + bs.length) ((Memory.wf_iff m).mp hm).1 c hc
    omega
  rw [Memory.write, read_append_of_absent_right habove, read_append_of_absent hbelow, read_cellsOf a k h]

/-- Every other byte stays. -/
theorem read_write_out (h : ¬ (a ≤ b ∧ b < a + bs.length)) : (m.write a bs).read b = m.read b := by
  have hcells : ∀ c ∈ cellsOf a bs, c.1 ≠ b := fun c hc => by
    have := ((cellsOf_spec bs a).2 c hc).2
    omega
  rw [Memory.write]
  by_cases hb : b < a
  · have habove : ∀ c ∈ cellsOf a bs ++ m.dropWhile (fun c => decide (c.1 < a + bs.length)), c.1 ≠ b := fun c hc => by
      rcases List.mem_append.mp hc with hc | hc
      · exact hcells c hc
      · have := dropWhile_ge m (a + bs.length) ((Memory.wf_iff m).mp hm).1 c hc
        omega
    rw [List.append_assoc, read_append_of_absent_right habove]
    exact (read_split hm 0).1 hb
  · have hbelow : ∀ c ∈ m.takeWhile (fun c => decide (c.1 < a)) ++ cellsOf a bs, c.1 ≠ b := fun c hc => by
      rcases List.mem_append.mp hc with hc | hc
      · have := below_of_takeWhile hc
        omega
      · exact hcells c hc
    rw [read_append_of_absent hbelow]
    exact (read_split (a := 0) hm (a + bs.length)).2 (by omega)

/-- The bytes of a range are the bytes at its addresses. -/
theorem bytes_eq (a n : Nat) : m.bytes a n = (List.range n).map fun k => m.read (a + k) := by
  have key : ∀ n a (m : Memory), m.Pairwise (fun c d => c.1 < d.1) → (∀ c ∈ m, a ≤ c.1) → readFrom n a m = (List.range n).map fun k => m.read (a + k) := by
    intro n
    induction n with
    | zero => exact fun _ _ _ _ => rfl
    | succ n ih =>
      intro a m hs hle
      have hnext (k : Nat) : a + 1 + k = a + (k + 1) := by omega
      rw [List.range_succ_eq_map, List.map_cons, List.map_map]
      cases m with
      | nil => exact congrArg (0 :: ·) ((ih (a + 1) [] hs (List.forall_mem_nil _)).trans rfl)
      | cons c r =>
        obtain ⟨hc, hr⟩ := List.pairwise_cons.mp hs
        obtain ⟨hca, hra⟩ := List.forall_mem_cons.mp hle
        rw [readFrom]
        split
        next he =>
          refine List.cons_eq_cons.mpr ⟨(if_pos he).symm, (ih (a + 1) r hr fun d hd => ?_).trans (List.map_congr_left fun k _ => ?_)⟩
          · have := hc d hd
            omega
          · rw [hnext]
            exact (if_neg (by rw [he]; omega)).symm
        next he =>
          have hout : ∀ d ∈ c :: r, a + 1 ≤ d.1 := fun d hd => by
            rcases List.mem_cons.mp hd with rfl | hd
            · omega
            · have := hc d hd
              omega
          refine List.cons_eq_cons.mpr ⟨(read_absent fun d hd => ?_).symm, (ih (a + 1) (c :: r) hs hout).trans (List.map_congr_left fun k _ => by rw [hnext]; rfl)⟩
          have := hout d hd
          omega
  have hsort := ((Memory.wf_iff m).mp hm).1
  rw [Memory.bytes, key n a _ (hsort.sublist (List.dropWhile_sublist _)) (dropWhile_ge m a hsort)]
  exact List.map_congr_left fun k _ => (read_split (a := 0) hm a).2 (Nat.le_add_right a k)

end

/-! ## What a key sees -/

/-- The byte of HBM at an address as a reader under a key sees it (R429). -/
def seen (s : State) (key b : Nat) : Byte := ((lineKeyOf s (b / 64)).elim (s.hbm.read b) fun k => if k = key then s.hbm.read b else Config.scramble key k b (s.hbm.read b))

theorem hbmRead_one (hm : s.hbm.wf = true) (key b : Nat) : (hbmRead s key b 1).headD 0 = seen s key b := by
  have hline : linesOf b 1 = [b / 64] := by simp [linesOf, upto]
  unfold hbmRead seen
  rw [bytes_eq hm, hline]
  cases hk : lineKeyOf s (b / 64) with
  | none => simp [hk]
  | some k =>
    by_cases he : k = key <;> simp [upto, hk, he]

theorem hbmByte_seen (hm : s.hbm.wf = true) (asid b : Nat) : hbmByte s asid b = seen s (keyOf s asid) b := hbmRead_one hm _ _

theorem lineKeyOf_keyLine_same {ks : List (Nat × Nat)} {l key : Nat} : ((keyLine l key ks).find? fun p => p.1 == l) = some (l, key) := by
  have hnone : ((ks.filter fun p => decide (p.1 < l)).find? fun p => p.1 == l) = none := List.find?_eq_none.mpr fun p hp => by
    have := of_decide_eq_true (List.mem_filter.mp hp).2
    simp; omega
  simp [keyLine, List.find?_append, hnone]

theorem lineKeyOf_keyLine_other {ks : List (Nat × Nat)} {l k key : Nat} (h : k ≠ l) : ((keyLine l key ks).find? fun p => p.1 == k) = ks.find? fun p => p.1 == k := by
  have hsplit (q : Nat × Nat → Bool) : ((ks.filter q).find? fun p => p.1 == k) = ks.find? fun p => q p && (p.1 == k) := by
    rw [List.find?_filter]
    exact congrArg (List.find? · ks) (funext fun p => by simp [Bool.beq_eq_decide_eq])
  have hhead : ((l, key).1 == k) = false := by simpa using h.symm
  rw [keyLine, List.find?_append, List.find?_cons, hhead, hsplit, hsplit]
  rcases Nat.lt_or_gt_of_ne h with hlt | hgt
  · have hthis : (fun p : Nat × Nat => decide (p.1 < l) && (p.1 == k)) = fun p => p.1 == k := by
      funext p
      by_cases hp : p.1 = k <;> simp [hp, hlt]
    have hnone : (ks.find? fun p => decide (l < p.1) && (p.1 == k)) = none := List.find?_eq_none.mpr fun p _ => by
      simp; omega
    rw [hthis, hnone, Option.or_none]
  · have hthis : (fun p : Nat × Nat => decide (l < p.1) && (p.1 == k)) = fun p => p.1 == k := by
      funext p
      by_cases hp : p.1 = k <;> simp [hp, hgt]
    have hnone : (ks.find? fun p => decide (p.1 < l) && (p.1 == k)) = none := List.find?_eq_none.mpr fun p _ => by
      simp; omega
    rw [hthis, hnone, Option.none_or]

/-- A line that a key takes is a line of that key; the others keep theirs. -/
theorem lineKeyOf_rekeyLine (key l k : Nat) : lineKeyOf (rekeyLine key s l) k = if k = l then some key else lineKeyOf s k := by
  have hset {ks : List (Nat × Nat)} : ((keyLine l key ks).find? fun p => p.1 == k).map (·.2) = if k = l then some key else (ks.find? fun p => p.1 == k).map (·.2) := by
    split
    next he => rw [he, lineKeyOf_keyLine_same]; rfl
    next he => rw [lineKeyOf_keyLine_other he]
  unfold rekeyLine
  split
  · exact hset
  next j hj =>
    split
    next he =>
      split
      next hk => rw [hk, hj, he]
      · rfl
    · exact hset

/-- What a key sees stays when a line comes under it. -/
theorem seen_rekeyLine (hm : s.hbm.wf = true) (key l b : Nat) : seen (rekeyLine key s l) key b = seen s key b := by
  rw [seen, seen, lineKeyOf_rekeyLine]
  split
  next hb =>
    have hread : (rekeyLine key s l).hbm.read b = seen s key b := by
      unfold seen rekeyLine
      rw [hb]
      split
      next hj => rw [hj]; rfl
      next j hj =>
        rw [hj]
        split
        next he => exact (if_pos he).symm
        next he =>
          refine Eq.trans ?_ (if_neg he).symm
          have hlen : ((s.hbm.bytes (64 * l) 64).zipIdx.map fun p => Config.scramble key j (64 * l + p.2) p.1).length = 64 := by simp [bytes_eq hm]
          have h := read_write_in hm (a := 64 * l) (bs := (s.hbm.bytes (64 * l) 64).zipIdx.map fun p => Config.scramble key j (64 * l + p.2) p.1) (k := b % 64) (by rw [hlen]; omega)
          rw [show 64 * l + b % 64 = b by omega] at h
          refine h.trans ?_
          simp [bytes_eq hm, show 64 * l + b % 64 = b by omega]
    simpa using hread.trans (by rw [seen, hb])
  next hb =>
    have hread : (rekeyLine key s l).hbm.read b = s.hbm.read b := by
      unfold rekeyLine
      split
      · rfl
      · split
        · rfl
        · refine read_write_out hm ?_
          simp [bytes_eq hm]
          omega
    rw [hread]

/-- The lines that a write brings under its key. -/
theorem rekeyLines (key : Nat) (ls : List Nat) : ∀ s : State, s.hbm.wf = true → (ls.foldl (rekeyLine key) s).hbm.wf = true ∧ (∀ b, seen (ls.foldl (rekeyLine key) s) key b = seen s key b) ∧
    ∀ k, lineKeyOf (ls.foldl (rekeyLine key) s) k = if k ∈ ls then some key else lineKeyOf s k := by
  induction ls with
  | nil => exact fun s hm => ⟨hm, fun _ => rfl, fun k => by simp⟩
  | cons l ls ih =>
    intro s hm
    obtain ⟨hwf, hseen, hkey⟩ := ih (rekeyLine key s l) ((rekeyLine_spec key s l).2 hm)
    refine ⟨hwf, fun b => (hseen b).trans (seen_rekeyLine hm key l b), fun k => (hkey k).trans ?_⟩
    rw [lineKeyOf_rekeyLine]
    by_cases h1 : k ∈ ls <;> by_cases h2 : k = l <;> simp [h1, h2]

theorem mem_linesOf {n k : Nat} (h : k < n) : (a + k) / 64 ∈ linesOf a n := by
  have hn : n ≠ 0 := by omega
  rw [linesOf, if_neg hn, List.mem_map]
  exact ⟨(a + k) / 64 - a / 64, List.mem_range.mpr (by omega), by omega⟩

/-- A write under a key is what that key sees at its place; elsewhere it sees what it saw. -/
theorem seen_hbmWrite (hm : s.hbm.wf = true) (key a : Nat) (bs : List Byte) :
    (∀ k (h : k < bs.length), seen (hbmWrite s key a bs) key (a + k) = bs[k]) ∧ ∀ b, ¬ (a ≤ b ∧ b < a + bs.length) → seen (hbmWrite s key a bs) key b = seen s key b := by
  obtain ⟨hwf, hseen, hkey⟩ := rekeyLines key (linesOf a bs.length) s hm
  let u := (linesOf a bs.length).foldl (rekeyLine key) s
  have hlines (k : Nat) : lineKeyOf (hbmWrite s key a bs) k = lineKeyOf u k := rfl
  refine ⟨fun k h => ?_, fun b h => ?_⟩
  · rw [seen, hlines, hkey, if_pos (mem_linesOf h)]
    exact (if_pos rfl).trans (read_write_in hwf h)
  · have hread : (hbmWrite s key a bs).hbm.read b = u.hbm.read b := read_write_out hwf h
    rw [← hseen b, seen, hlines, hread]
    rfl

end Sys2Proof.Machine
end

section
/-! PROOFS. Hardware queues (O38): an enqueue, a refill, and the answer to a LAUNCH. -/

namespace Sys2Proof.Machine
open Sys2Proof Claims

variable {s t : State} {die q : Nat} {x : HwQueue} {rec : Word} {bs : List Byte}

/-! ## One queue (R250, R251) -/

theorem find_updFirst_other {α : Type} {key : α → Nat} {f : α → α} {n m : Nat} (hf : ∀ x, key (f x) = key x) (h : m ≠ n) (l : List α) :
    ((updFirst (fun y => key y == n) f l).find? fun y => key y == m) = l.find? fun y => key y == m := by
  induction l with
  | nil => rfl
  | cons y l ih =>
    unfold updFirst
    split
    next hy =>
      have hy : key y = n := by simpa using hy
      simp [hf, hy, h.symm]
    · simp only [List.find?_cons, ih]

section
variable {f : HwQueue → HwQueue} (hf : ∀ y, (f y).num = y.num) (h : getQueue s die q = some x)
include hf h

theorem getQueue_updQueue : getQueue (updQueue s die q f) die q = some (f x) := by
  rw [getQueue, updQueue, getDie_updDie_same]
  exact find_updFirst (key := HwQueue.num) hf h

/-- An update of a queue is an update of that queue only. -/
theorem queueOnly_updQueue : QueueOnly s (updQueue s die q f) die q x (f x) := by
  have hdie : getDie (updQueue s die q f) die = { getDie s die with queues := updFirst (fun x => x.num == q) f (getDie s die).queues } := getDie_updDie_same die _
  refine ⟨h, getQueue_updQueue hf h, fun n hn => ?_, fun d hd => Vector.getElem_set_ne (hi := Nat.mod_lt die (by decide)) _ (Ne.symm hd), ?_⟩
  · rw [getQueue, hdie]
    exact find_updFirst_other (key := HwQueue.num) hf hn _
  · rw [hdie]

end

theorem QueueOnly.congr {u : State} {y : HwQueue} (h : QueueOnly s t die q x y) (hd : u.dies = t.dies) : QueueOnly s u die q x y := by
  have hget (d : Nat) : getDie u d = getDie t d := by rw [getDie, getDie]; simp only [hd]
  have hqueue (n : Nat) : getQueue u die n = getQueue t die n := by rw [getQueue, getQueue, hget]
  obtain ⟨h1, h2, h3, h4, h5⟩ := h
  exact ⟨h1, (hqueue q).trans h2, fun n hn => (hqueue n).trans (h3 n hn), fun d hd => (hget d).trans (h4 d hd), by rw [hget]; exact h5⟩

/-- A record joins a queue that has room on die. -/
def appended (rec : Word) (y : HwQueue) : HwQueue := { y with onDie := y.onDie ++ [rec] }

theorem joinQueue_appends (h : getQueue s die q = some x) (hr : HasRoom x) : joinQueue s die q rec = (.done, after (updQueue s die q (appended rec)) 0 (.dispatch die)) := by
  obtain ⟨hring, hwait, hroom⟩ := hr
  have hfree : (x.rhead != x.rtail || !x.waitRing.isEmpty || decide (16 ≤ x.onDie.length)) = false := by simp [hring, hwait, hroom]
  unfold joinQueue
  simp only [h]
  exact if_neg (ne_true_of_eq_false hfree)

/-! ## Enqueue (R251, R252) -/

/-- A record that is never a task's is rejected at every queue. -/
theorem rejects_of_never (h : NeverTask (taskOf bs)) : rejects s die x bs = true := by
  have hbad : recordBad bs = true := by
    have hentry : wbits (taskOf bs).entry 0 5 = (taskOf bs).entry.toNat % 32 := by simp [wbits, bitsOf]
    unfold recordBad
    simp only [hentry]
    rcases h with h | h | h | h | ⟨h, hs⟩
    · simp [h]
    · simp [h]
    · simp [h]
    · simp [h]
    · rcases hs with hs | hs <;> simp [h, hs]
  simp [rejects, hbad]

section
variable {j : Job} (h : getQueue s die q = some x) (hj : getJob s x.job = some j) (hn : ∀ k ∈ s.jobs, k.handler ≠ rec) (hb : devRead s j.asid rec 64 = .ok bs)
include h hj hn hb

theorem enqueue_eq : exec (.enqueue die q rec) s = .next (if rejects s die x bs then s else (joinQueue s die q rec).2) := by
  have hhandler : (s.jobs.find? fun k => k.handler == rec && k.hdie == die && k.hq == q) = none := List.find?_eq_none.mpr fun k hk => by simp [hn k hk]
  refine congrArg Host.Outcome.next ?_
  simp only [h, hj, hhandler, hb, Bool.false_eq_true, if_false]

theorem enqueue_appends (ha : rejects s die x bs = false) (hr : HasRoom x) : ∃ t, exec (.enqueue die q rec) s = .next t ∧ t = { s with dies := t.dies, timers := s.timers ++ [⟨s.clock, .dispatch die⟩] } ∧
    QueueOnly s t die q x { x with onDie := x.onDie ++ [rec] } := by
  refine ⟨_, enqueue_eq h hj hn hb, ?_⟩
  rw [ha, joinQueue_appends h hr]
  exact ⟨rfl, QueueOnly.congr (queueOnly_updQueue (f := appended rec) (fun _ => rfl) h) rfl⟩

theorem enqueue_rejects (ht : NeverTask (taskOf bs)) : exec (.enqueue die q rec) s = .next s := by
  rw [enqueue_eq h hj hn hb, rejects_of_never ht]
  rfl

end

/-! ## Refill (R251, R255) -/

/-- The oldest ring entry of a queue moves to the die, an entry of 0 to nowhere. -/
def refilled (w : Word) (y : HwQueue) : HwQueue := { y with rhead := y.rhead + 1, onDie := y.onDie ++ if w = 0 then [] else [w] }

theorem refill_once (h : getQueue s die q = some x) (hroom : x.onDie.length < 16) (ht : x.rtail = x.rhead + 1) (hb : devRead s (queueAsid s x) (ringEntry x x.rhead) 8 = .ok bs) :
    refill 2 s die q = updQueue s die q (refilled (wordAt bs 0)) := by
  have hstart : ¬ (x.rhead = x.rtail ∨ 16 ≤ x.onDie.length) := by
    rw [ht]
    rintro (h | h)
    · bv_omega
    · omega
  have hq := getQueue_updQueue (f := refilled (wordAt bs 0)) (fun _ => rfl) h
  rw [refill]
  simp only [h]
  rw [if_neg hstart, hb]
  refine Eq.trans (b := refill 1 (updQueue s die q (refilled (wordAt bs 0))) die q) rfl ?_
  rw [refill]
  simp only [hq]
  exact if_pos (.inl ht.symm)

theorem ringRefill_moves (h : getQueue s die q = some x) (hw : x.waitRing = []) (hroom : x.onDie.length < 16) (ht : x.rtail = x.rhead + 1)
    (hb : devRead s (queueAsid s x) (ringEntry x x.rhead) 8 = .ok bs) : ∃ t, exec (.ringRefill die q) s = .next t ∧ t = { s with dies := t.dies, timers := s.timers ++ [⟨s.clock, .dispatch die⟩] } ∧
      QueueOnly s t die q x { x with rhead := x.rtail, onDie := x.onDie ++ if wordAt bs 0 = 0 then [] else [wordAt bs 0] } := by
  have hcount : ringCount x + 1 = 2 := by simp [ringCount, ht, hw]
  have hflush : flushRing (x.waitRing.length + 1) s die q = s := by
    rw [flushRing]
    simp only [h, hw]
  refine ⟨after (updQueue s die q (refilled (wordAt bs 0))) 0 (.dispatch die), congrArg Host.Outcome.next ?_, rfl, ?_⟩
  · simp only [h]
    rw [hcount, hflush, refill_once h hroom ht hb]
  · have hx : { x with rhead := x.rtail, onDie := x.onDie ++ if wordAt bs 0 = 0 then [] else [wordAt bs 0] } = refilled (wordAt bs 0) x := by rw [refilled, ht]
    rw [hx]
    exact QueueOnly.congr (queueOnly_updQueue (f := refilled (wordAt bs 0)) (fun _ => rfl) h) rfl

/-! ## The answer to a LAUNCH (R102) -/

variable {c : Closing} {a : RegId} {o : Option Tag} {p asid : Nat} {g : Gang}

/-- What the completion of a record is to name, where a future awaits it: Gust writes it into the record, and the destination is PENDING (R102). -/
def promised (s : State) (c : Closing) (rec : Word) (a : RegId) : Option Tag → State
  | none => s
  | some r => obligateLaunch (writeCompletion s s.me c rec a r) s.me.sid a (some r)

theorem releaseKept_nil : releaseKept s [] = s := by simp [releaseKept]

section
variable (hc : s.me.closing = some c) (hu : replicated s s.me = false) (hg : gangOf s s.me = some g) (hphase : c.phase = .answer) (hpost : c.post = [.launch a o rec]) (hkept : c.kept = []) (hrej : c.reject = false)
  (hdet : x.det = false) (hroom : HasRoom x) (hx : getQueue s g.die g.queue = some x)
include hc hu hg hphase hpost hkept hrej hdet hroom hx

/-- Gust appends the record that it has read and not rejected, and the strand goes on. -/
theorem launchAnswer_appends (hp : getQueue (promised s c rec a o) g.die g.queue = some x) : exec (.launchAnswer s.me.sid) s =
    .next (afterLaunch (after (updQueue (promised s c rec a o) g.die g.queue (appended rec)) 0 (.dispatch g.die)) s.me.sid) := by
  have hl : launchOf s.me = some (a, o, rec) := by simp [launchOf, hc, closingLaunch, hpost]
  have hjoin := joinQueue_appends (rec := rec) hp hroom
  have henq (k : Task) : launchEnqueue (promised s c rec a o) s.me.sid g x o rec k =
      (some (after (updQueue (promised s c rec a o) g.die g.queue (appended rec)) 0 (.dispatch g.die)), after (updQueue (promised s c rec a o) g.die g.queue (appended rec)) 0 (.dispatch g.die)) := by
    simp only [launchEnqueue, hdet, hjoin, Bool.false_and, Bool.false_eq_true, if_false]
  refine congrArg Host.Outcome.next ?_
  have hphase' : (c.phase != .answer) = false := by rw [hphase]; rfl
  simp only [getStrand_me, hc, hl, hg, leewardsOf_unreplicated hu, hphase', hrej, hkept, hx, List.filter_nil, List.any_nil, List.map_nil, List.foldl_nil, Bool.false_eq_true, if_false]
  have hans := henq (taskOf c.recBytes)
  cases o with
  | none =>
    dsimp only [promised, obligateLaunch] at hans ⊢
    simp only [hans, releaseKept_nil]
    rfl
  | some r =>
    dsimp only [promised, obligateLaunch] at hans ⊢
    simp only [hans, releaseKept_nil]
    rfl

end

/-! ## What the answer leaves -/

/-- The strand that launched stands at the next bundle, with everything else as the answer made it. -/
theorem afterLaunch_me (hc : s.me.closing = some c) : afterLaunch s s.me.sid = withMe s (goOn s.clock c.next { s.me with closing := none }) := by
  rw [afterLaunch, updStrand_me, hc]

theorem goOn_place (now : Nat) (next : Word) (t : Strand) : (goOn now next t).st = .running ∧ (goOn now next t).pc = next ∧ (goOn now next t).closing = t.closing ∧ (goOn now next t).regs = t.regs := by
  unfold goOn
  dsimp only
  split <;> exact ⟨rfl, rfl, rfl, rfl⟩

/-- The word of a completion: the destination's code, its tag, and that it is a future (R253). -/
def futureWord (a : RegId) (r : Tag) : Word := packWord [((regIdCode a).toNat, 0), (r.toNat, 8), (1, 24)]

theorem packWord_three (x y z i j k : Nat) : packWord [(x, i), (y, j), (z, k)] = BitVec.ofNat 64 (x * 2 ^ i + y * 2 ^ j + z * 2 ^ k) := by
  simp [packWord, Nat.shiftLeft_eq]

theorem futureWord_toNat (a : RegId) (r : Tag) : (futureWord a r).toNat = (regIdCode a).toNat + 2 ^ 8 * r.toNat + 2 ^ 24 := by
  have ha := (regIdCode a).isLt
  have hr := r.isLt
  rw [futureWord, packWord_three, BitVec.toNat_ofNat, Nat.mod_eq_of_lt (by omega)]
  omega

/-- The bytes of the completion in a record (R253). -/
def completionBytes (s : State) (a : RegId) (r : Tag) : List Byte := wordBytes s.me.crec ++ wordBytes (futureWord a r)

theorem little_eq (bs : List Byte) : little bs = leNat bs := by
  induction bs with
  | nil => rfl
  | cons b bs ih => rw [little, leNat, ih]

theorem leBytes_get (n y : Nat) : ∀ k, (leBytes n y)[k]? = if k < n then some (BitVec.ofNat 8 (y / 256 ^ k)) else none := by
  induction n generalizing y with
  | zero => exact fun k => rfl
  | succ n ih =>
    intro k
    cases k with
    | zero => simp [leBytes]
    | succ k => simp [leBytes, ih, Nat.div_div_eq_div_mul, pow_succ']

theorem leBytes_length (n y : Nat) : (leBytes n y).length = n := by
  induction n generalizing y with
  | zero => rfl
  | succ n ih => rw [leBytes, List.length_cons, ih]

/-- Eight bytes of HBM that are those of a word hold it. -/
theorem hbmElement_word {asid b : Nat} {w : Word} (h : ∀ k, k < 8 → some (hbmByte s asid (b + k)) = (wordBytes w)[k]?) : hbmElement s asid b 8 = w.toNat := by
  have hbytes : ((List.range 8).map fun k => hbmByte s asid (b + k)) = wordBytes w := by
    refine List.ext_getElem? fun k => ?_
    by_cases hk : k < 8
    · rw [← h k hk]
      simp [hk]
    · rw [List.getElem?_eq_none (by simpa using hk), List.getElem?_eq_none (by rw [wordBytes, leBytes_length]; omega)]
  rw [hbmElement, hbytes, little_eq, wordBytes, leNat_leBytes]
  exact Nat.mod_eq_of_lt w.isLt

/-- Once its record is appended the strand stands behind the bundle, and only the queue has changed. -/
theorem afterLaunch_place {v : State} (hc : v.me.closing = some c) (hd : v.dies = s.dies) (hx : getQueue s die q = some x) : ∃ t,
    afterLaunch (after (updQueue v die q (appended rec)) 0 (.dispatch die)) v.me.sid = t ∧ t.me.st = .running ∧ t.me.pc = c.next ∧ t.me.closing = none ∧
    t.timers = v.timers ++ [⟨v.clock, .dispatch die⟩] ∧ QueueOnly s t die q x (appended rec x) ∧ t.me.regs = v.me.regs ∧ t.hbm = v.hbm ∧ t.lineKey = v.lineKey ∧ t.jobs = v.jobs := by
  let w := after (updQueue v die q (appended rec)) 0 (.dispatch die)
  have hw : afterLaunch w v.me.sid = withMe w (goOn w.clock c.next { w.me with closing := none }) := afterLaunch_me (s := w) hc
  obtain ⟨hst, hpc, hclose, hregs⟩ := goOn_place w.clock c.next { w.me with closing := none }
  have hdie (d : Nat) : getDie v d = getDie s d := by rw [getDie, getDie]; simp only [hd]
  have hdies : w.dies = (updQueue s die q (appended rec)).dies := by
    simp only [w, after, addTimer, updQueue, updDie, hdie, hd]
  exact ⟨_, hw, hst, hpc, hclose, rfl, QueueOnly.congr (queueOnly_updQueue (f := appended rec) (fun _ => rfl) hx) hdies, hregs, rfl, rfl, rfl⟩

theorem promised_some {r : Tag} (hrec : c.record = some (p, none)) : promised s c rec a (some r) =
    withMe (hbmWrite s (keyOf s (asidOf s s.me)) (p + 32) (completionBytes s a r)) (writeKept s.me a ⟨0, .pending, r⟩) := by
  have hwrite : writeCompletion s s.me c rec a r = hbmWrite s (keyOf s (asidOf s s.me)) (p + 32) (completionBytes s a r) := by
    unfold writeCompletion
    rw [hrec]
    rfl
  have hme : (hbmWrite s (keyOf s (asidOf s s.me)) (p + 32) (completionBytes s a r)).me = s.me := by rw [(hbmWrite_spec _ _ _ _).1]
  have hupd := updStrand_me (s := hbmWrite s (keyOf s (asidOf s s.me)) (p + 32) (completionBytes s a r)) (f := fun t => writeKept t a ⟨0, .pending, r⟩)
  rw [hme] at hupd
  rw [promised, hwrite]
  exact hupd

/-- What the record then says, and that every other byte of HBM stays as it was. -/
theorem completion_written {u : State} {r : Tag} (hm : s.hbm.wf = true) (hh : u.hbm = (hbmWrite s (keyOf s asid) p (completionBytes s a r)).hbm)
    (hk : u.lineKey = (hbmWrite s (keyOf s asid) p (completionBytes s a r)).lineKey) (hj : u.jobs = s.jobs) :
    (∀ k, k < 8 → hbmByte u asid (p + k) = s.me.crec.extractLsb' (8 * k) 8) ∧ hbmElement u asid (p + 8) 8 = (regIdCode a).toNat + 2 ^ 8 * r.toNat + 2 ^ 24 ∧
    ∀ b, ¬ (p ≤ b ∧ b < p + 16) → hbmByte u asid b = hbmByte s asid b := by
  have hkey : keyOf u asid = keyOf s asid := by rw [keyOf, keyOf, hj]
  have hwf : u.hbm.wf = true := hh ▸ (hbmWrite_spec s _ p _).2 hm
  obtain ⟨hin, hout⟩ := seen_hbmWrite hm (keyOf s asid) p (completionBytes s a r)
  have hlen : (completionBytes s a r).length = 16 := by simp [completionBytes, wordBytes, leBytes_length]
  have hbyte (b : Nat) : hbmByte u asid b = seen (hbmWrite s (keyOf s asid) p (completionBytes s a r)) (keyOf s asid) b := by
    rw [hbmByte_seen hwf, hkey, seen, seen, lineKeyOf, lineKeyOf, hh, hk]
  have hget (k : Nat) (h : k < 16) : some (hbmByte u asid (p + k)) = (completionBytes s a r)[k]? := by
    rw [hbyte, hin k (by omega), List.getElem?_eq_getElem]
  have hcrec : (wordBytes s.me.crec).length = 8 := leBytes_length 8 _
  refine ⟨fun k h => ?_, ?_, fun b h => ?_⟩
  · have hx := hget k (by omega)
    rw [completionBytes, List.getElem?_append_left (by omega), wordBytes, leBytes_get, if_pos h] at hx
    rw [Option.some.inj hx]
    refine BitVec.eq_of_toNat_eq ?_
    rw [show 256 ^ k = 2 ^ (8 * k) by rw [pow_mul]; norm_num]
    simp [BitVec.extractLsb'_toNat, Nat.shiftRight_eq_div_pow]
  · rw [hbmElement_word (w := futureWord a r) fun k h => ?_, futureWord_toNat]
    rw [Nat.add_assoc, hget (8 + k) (by omega), completionBytes, List.getElem?_append_right (by omega), hcrec, Nat.add_sub_cancel_left]
  · rw [hbyte, hout b (by omega), hbmByte_seen hm]

section
variable (hc : s.me.closing = some c) (hu : replicated s s.me = false) (hg : gangOf s s.me = some g) (hphase : c.phase = .answer) (hpost : c.post = [.launch a o rec]) (hkept : c.kept = []) (hrej : c.reject = false)
  (hdet : x.det = false) (hroom : HasRoom x) (hx : getQueue s g.die g.queue = some x)
include hc hu hg hphase hpost hkept hrej hdet hroom hx

/-- Without a future the answer appends the record, and nothing of the record or the registers changes. -/
theorem launchAnswer_plain (ho : o = none) : ∃ t, exec (.launchAnswer s.me.sid) s = .next t ∧ t.me.st = .running ∧ t.me.pc = c.next ∧ t.me.closing = none ∧
    t.timers = s.timers ++ [⟨s.clock, .dispatch g.die⟩] ∧ QueueOnly s t g.die g.queue x (appended rec x) ∧ t.me.regs = s.me.regs ∧ t.hbm = s.hbm := by
  subst ho
  obtain ⟨t, ht, hst, hpc, hcl, htm, hq, hregs, hhbm, -⟩ := afterLaunch_place (rec := rec) hc rfl hx
  exact ⟨t, (launchAnswer_appends hc hu hg hphase hpost hkept hrej hdet hroom hx hx).trans (congrArg Host.Outcome.next ht), hst, hpc, hcl, htm, hq, hregs, hhbm⟩

/-- With a future the record names it, and the destination is PENDING under its tag. -/
theorem launchAnswer_future {r : Tag} (ho : o = some r) (hrec : c.record = some (p, none)) (hfix : regFixed a = false) (hm : s.hbm.wf = true) : ∃ t, exec (.launchAnswer s.me.sid) s = .next t ∧
    t.me.st = .running ∧ t.me.pc = c.next ∧ t.me.closing = none ∧ t.timers = s.timers ++ [⟨s.clock, .dispatch g.die⟩] ∧ QueueOnly s t g.die g.queue x (appended rec x) ∧
    t.me.regs.get a = ⟨0, .pending, r⟩ ∧ (∀ n, n ≠ a → t.me.regs.get n = s.me.regs.get n) ∧
    (∀ k, k < 8 → hbmByte t (asidOf s s.me) (p + 32 + k) = s.me.crec.extractLsb' (8 * k) 8) ∧
    hbmElement t (asidOf s s.me) (p + 32 + 8) 8 = (regIdCode a).toNat + 2 ^ 8 * r.toNat + 2 ^ 24 ∧
    ∀ b, ¬ (p + 32 ≤ b ∧ b < p + 32 + 16) → hbmByte t (asidOf s s.me) b = hbmByte s (asidOf s s.me) b := by
  subst ho
  let u := hbmWrite s (keyOf s (asidOf s s.me)) (p + 32) (completionBytes s a r)
  have hu' : u = { s with hbm := u.hbm, lineKey := u.lineKey } := (hbmWrite_spec s _ _ _).1
  obtain ⟨lg, qq, sr, hwrite, -⟩ := writeReg_ex s.me a ⟨0, .pending, r⟩
  let v := withMe u (writeKept s.me a ⟨0, .pending, r⟩)
  have hv : promised s c rec a (some r) = v := promised_some hrec
  have hme : v.me = { s.me with regs := s.me.regs.put a ⟨0, .pending, r⟩, q := qq, serials := sr } := by
    show { writeReg s.me a ⟨0, .pending, r⟩ with log := s.me.log } = _
    rw [hwrite]
  have hvc : v.me.closing = some c := by rw [hme]; exact hc
  have hvs : v.me.sid = s.me.sid := by rw [hme]
  obtain ⟨hdies, hjobsu⟩ : u.dies = s.dies ∧ u.jobs = s.jobs := by rw [hu']; exact ⟨rfl, rfl⟩
  have hvx : getQueue v g.die g.queue = some x := by
    rw [getQueue, getDie]
    simp only [v, hdies]
    exact hx
  obtain ⟨t, ht, hst, hpc, hcl, htm, hq, hregs, hhbm, hkeys, hjobs⟩ := afterLaunch_place (rec := rec) hvc hdies hx
  have happ := launchAnswer_appends hc hu hg hphase hpost hkept hrej hdet hroom hx (hv ▸ hvx)
  rw [hv, ← hvs, ht] at happ
  rw [hvs] at happ
  have hcompl := completion_written (u := t) (asid := asidOf s s.me) (p := p + 32) (a := a) (r := r) hm hhbm hkeys (hjobs.trans hjobsu)
  refine ⟨t, happ, hst, hpc, hcl, htm.trans ?_, hq, ?_, fun n hn => ?_, hcompl⟩
  · exact congrArg (fun w => w.timers ++ [⟨w.clock, .dispatch g.die⟩]) hu'
  · rw [hregs, hme]
    exact RegFile.get_put_pending _ r hfix
  · rw [hregs, hme]
    exact RegFile.get_put_other _ _ hn

end

/-- Settles O38: what joins a queue, what a refill moves, and what LAUNCH's answer leaves. -/
theorem queueEvents : Obligations.QueueEvents := by
  intro s die q rec x hx
  refine ⟨fun j bs hj hn hb => ⟨fun ha hr => enqueue_appends hx hj hn hb ha hr, enqueue_rejects hx hj hn hb⟩, fun bs hw hroom ht hb => ringRefill_moves hx hw hroom ht hb, ?_⟩
  rintro c a o p g hc hg rfl rfl hu hphase hpost hrec hkept hrej hfix hdet hroom hm
  cases o with
  | none =>
    obtain ⟨t, ht, hst, hpc, hcl, htm, hq, hregs, hhbm⟩ := launchAnswer_plain hc hu hg hphase hpost hkept hrej hdet hroom hx rfl
    exact ⟨t, ht, hst, hpc, hcl, htm, hq, fun _ => ⟨hregs, hhbm⟩, nofun⟩
  | some r =>
    obtain ⟨t, ht, hst, hpc, hcl, htm, hq, hreg, hother, hcompl⟩ := launchAnswer_future hc hu hg hphase hpost hkept hrej hdet hroom hx rfl hrec (hfix r rfl) hm
    refine ⟨t, ht, hst, hpc, hcl, htm, hq, nofun, fun r' hr => ?_⟩
    cases hr
    exact ⟨hreg, hother, hcompl⟩

end Sys2Proof.Machine
end

section
/-! PROOFS. Scalar results of fixed latency (O2 to O5): one lemma for each shape of operands, and one for each value that the claims write in other words than the model. -/

namespace Sys2Proof.Machine
open Sys2Proof Claims

variable {s : State} {i : Instr} {d a : BitVec 6} {n : Nat}

/-! ## The shapes of the scalar instructions -/

/-- No loop rotates what a ready instruction reads (R58). -/
theorem Ready.loop_idle (hr : Ready s i) : s.me.loop.active = false := hr.1.2.1

/-- What an instruction of one s result leaves: the claims' words. -/
def Gives (s : State) (i : Instr) (d : BitVec 6) (n : Nat) (x : Word) : Prop :=
  ∃ t, exec i s = .next t ∧ DeliversIn s t (.s d) n (.value (x.setWidth 1024)) ∧ RegFrame s t [.s d]

/-- An instruction of one s result gives what its value function reads in its slot. -/
theorem gives_of {x : Word} (F : State → Word) (hr : Ready s i) (hq : operandsOnly i = true) (he : exec i s = slotOp 1 i (fun s => produceS s d n (F s)) s)
    (hx : F (inSlot s 1) = x) : Gives s i d n x := by
  subst hx
  obtain ⟨t, ht, hd, hk⟩ := result_operandsOnly s 1 i (fun s => produceS s d n (F s)) (.s d) n _ hr hq rfl
  exact ⟨t, he.trans ht, hd, hk⟩

/-- An instruction of one s source. -/
theorem gives_one {x : Word} (F : Word → Word) (hr : Ready s i) (hq : operandsOnly i = true) (he : exec i s = slotOp 1 i (fun s => produceS s d n (F (rdS s a))) s)
    (hx : F (sVal s a) = x) : Gives s i d n x :=
  gives_of (fun s => F (rdS s a)) hr hq he (by rw [rdS_inSlot s 1 a hr.loop_idle, hx])

/-- An instruction of an s source and a second source. -/
theorem gives_two {b : Src2} {x : Word} (F : Word → Word → Word) (hr : Ready s i) (hq : operandsOnly i = true)
    (he : exec i s = slotOp 1 i (fun s => produceS s d n (F (rdS s a) (rdSrc2 s b))) s) (hx : F (sVal s a) (src2Val s b) = x) : Gives s i d n x :=
  gives_of (fun s => F (rdS s a) (rdSrc2 s b)) hr hq he (by rw [rdS_inSlot s 1 a hr.loop_idle, rdSrc2_inSlot s 1 b hr.loop_idle, hx])

/-- An instruction of an s source and a second source that also reads its destination. -/
theorem gives_three {b : Src2} {x : Word} (F : Word → Word → Word → Word) (hr : Ready s i) (hq : operandsOnly i = true)
    (he : exec i s = slotOp 1 i (fun s => produceS s d n (F (rdS s a) (rdSrc2 s b) (rdS s d))) s) (hx : F (sVal s a) (src2Val s b) (sVal s d) = x) : Gives s i d n x :=
  gives_of (fun s => F (rdS s a) (rdSrc2 s b) (rdS s d)) hr hq he (by rw [rdS_inSlot s 1 a hr.loop_idle, rdSrc2_inSlot s 1 b hr.loop_idle, rdS_inSlot s 1 d hr.loop_idle, hx])

/-! ## Values at a width (R124, R128) -/

theorem atWidth_atW (w : W2) (x : Word) : atWidth w x.toNat = atW w x := (atWidth_word w x).trans (by cases w <;> rfl)

theorem shiftValue_shiftAt (k : ShiftK) (w : W2) (x : Word) (n : Nat) : shiftValue k w x n = shiftAt k w x n := by
  rw [shiftValue_eq]
  cases w <;> cases k <;> rfl

theorem logicAndShifts : LogicAndShifts := by
  intro s i d x h hr
  show Gives s i d 1 x
  unfold logicResult at h
  split at h
  next g d a b => cases h; exact gives_two (· &&& ·) hr rfl rfl rfl
  next g d a b => cases h; exact gives_two (· ||| ·) hr rfl rfl rfl
  next g d a b => cases h; exact gives_two (· ^^^ ·) hr rfl rfl rfl
  next g d a v => cases h; exact gives_one (logiValue .and · v) hr rfl rfl rfl
  next g d a v => cases h; exact gives_one (logiValue .or · v) hr rfl rfl rfl
  next g d a v => cases h; exact gives_one (logiValue .xor · v) hr rfl rfl rfl
  next g d a b w => cases h; exact gives_two (fun x y => shiftValue .shl w x y.toNat) hr rfl rfl (shiftValue_shiftAt ..)
  next g d a b w => cases h; exact gives_two (fun x y => shiftValue .shr w x y.toNat) hr rfl rfl (shiftValue_shiftAt ..)
  next g d a b w => cases h; exact gives_two (fun x y => shiftValue .sar w x y.toNat) hr rfl rfl (shiftValue_shiftAt ..)
  next g d a b w => cases h; exact gives_two (fun x y => shiftValue .rot w x y.toNat) hr rfl rfl (shiftValue_shiftAt ..)
  next g d a w k c => cases h; exact gives_one (shiftValue k w · c.toNat) hr rfl rfl (shiftValue_shiftAt ..)
  next => cases h

/-! ## Compares (R129, R135) -/

theorem cmpHolds_iff (f : CmpC) (x y : Word) : cmpHolds f x y = true ↔ condition f x y := by
  rw [cmpHolds_eq]
  cases f <;> exact decide_eq_true_iff

/-- A compare writes the flag that its test reads in its slot. -/
theorem flags_of {d : BitVec 4} (F : State → Bool) (hr : Ready s i) (hq : operandsOnly i = true) (he : exec i s = slotOp 1 i (fun s => produceP s d n (flagP (F s))) s) :
    ∃ t, exec i s = .next t ∧ DeliversIn s t (.p d) n (.value ((flagP (F (inSlot s 1))).setWidth 1024)) ∧ RegFrame s t [.p d] := by
  obtain ⟨t, ht, hd, hk⟩ := result_operandsOnly s 1 i (fun s => produceP s d n (flagP (F s))) (.p d) n _ hr hq rfl
  exact ⟨t, he.trans ht, hd, hk⟩

/-- A compare whose test says whether a condition holds. -/
theorem flags_condition {d : BitVec 4} {c : Prop} (F : State → Bool) (hr : Ready s i) (hq : operandsOnly i = true)
    (he : exec i s = slotOp 1 i (fun s => produceP s d n (flagP (F s))) s) (hc : F (inSlot s 1) = true ↔ c) :
    ∃ t x, exec i s = .next t ∧ DeliversIn s t (.p d) n (.value (BitVec.setWidth 1024 (x : PVal))) ∧ (c → x = BitVec.allOnes 128) ∧ (¬ c → x = 0) ∧ RegFrame s t [.p d] := by
  obtain ⟨t, ht, hd, hk⟩ := flags_of F hr hq he
  exact ⟨t, _, ht, hd, fun h => if_pos (hc.mpr h), fun h => if_neg fun hf => h (hc.mp hf), hk⟩

theorem compares : Compares := by
  intro s i d c h hr
  have hl := hr.loop_idle
  unfold compared at h
  split at h
  next g d a b f =>
    cases h
    exact flags_condition (fun s => cmpHolds f (rdS s a) (rdSrc2 s b)) hr rfl rfl (by rw [rdS_inSlot s 1 a hl, rdSrc2_inSlot s 1 b hl, cmpHolds_iff])
  next g d a f v =>
    cases h
    exact flags_condition (fun s => cmpHolds f (rdS s a) (v.signExtend 64)) hr rfl rfl (by rw [rdS_inSlot s 1 a hl, cmpHolds_iff])
  next => cases h

/-- A relation of FCMP holds as the claim says it: NaN stands in none but UN. -/
theorem fcmpHolds_related (f : FcmpF) (x y : Nat) : fcmpHolds f x y = related f (decodeF fmtF32 x) (decodeF fmtF32 y) := by
  unfold fcmpHolds related
  generalize decodeF fmtF32 x = u, decodeF fmtF32 y = v
  by_cases h : u.isNan = true ∨ v.isNan = true
  · obtain ⟨hlt, heq⟩ := unrelated_of_isNan h
    cases f <;> simp [hlt, heq]
  · obtain ⟨hu, hv⟩ := not_or.mp h
    cases f <;> simp [hu, hv]

theorem flagP_setWidth (b : Bool) : (flagP b).setWidth 1024 = if b then (BitVec.allOnes 128).setWidth 1024 else 0 := by
  rw [flagP, apply_ite (BitVec.setWidth 1024), show (0 : PVal) = 0#128 from rfl, BitVec.setWidth_zero]
  rfl

/-- Settles O5: FCMP writes the flag of its relation. -/
theorem floatCompares : Obligations.FloatCompares := by
  intro s g d a b f hr
  obtain ⟨t, ht, hd, hk⟩ := flags_of (fun s => fcmpHolds f (f32Of (rdS s a)) (f32Of (rdSrc2 s b))) hr rfl (show exec (.fcmp g d a b f) s = _ from rfl)
  refine ⟨t, ht, hk, ?_⟩
  rw [rdS_inSlot s 1 a hr.loop_idle, rdSrc2_inSlot s 1 b hr.loop_idle, fcmpHolds_related, flagP_setWidth] at hd
  exact hd

/-! ## Selection, counts and fields (R130, R131) -/

theorem bitcValue_clz (x : Word) : bitcValue .clz x = BitVec.ofNat 64 ((List.range 64).takeWhile fun k => !x.getLsbD (63 - k)).length :=
  congrArg (BitVec.ofNat 64) (clz_eq 64 x.toNat x.isLt)

theorem bitcValue_ctz (x : Word) : bitcValue .ctz x = BitVec.ofNat 64 ((List.range 64).takeWhile fun k => !x.getLsbD k).length :=
  congrArg (BitVec.ofNat 64) (ctz_eq 64 x.toNat)

theorem bitcValue_popc (x : Word) : bitcValue .popc x = BitVec.ofNat 64 ((List.range 64).countP fun k => x.getLsbD k) :=
  congrArg (BitVec.ofNat 64) (popcount_eq 64 x.toNat)

theorem selectionAndFields : SelectionAndFields := by
  intro s i d x h hr
  show Gives s i d 1 x
  have hl := hr.loop_idle
  unfold fieldResult at h
  split at h
  next g d a b => cases h; exact gives_two (minmaxValue .min) hr rfl rfl (minmaxValue_eq ..)
  next g d a b => cases h; exact gives_two (minmaxValue .max) hr rfl rfl (minmaxValue_eq ..)
  next g d a b => cases h; exact gives_two (minmaxValue .minu) hr rfl rfl (minmaxValue_eq ..)
  next g d a b => cases h; exact gives_two (minmaxValue .maxu) hr rfl rfl (minmaxValue_eq ..)
  next g d a b p =>
    cases h
    exact gives_of (fun s => if (rdP s p).toNat.testBit 0 then rdS s a else rdSrc2 s b) hr rfl rfl (by
      rw [rdP_inSlot s 1 p hl, rdS_inSlot s 1 a hl, rdSrc2_inSlot s 1 b hl]
      rfl)
  next g d a => cases h; exact gives_one (bitcValue .clz) hr rfl rfl (bitcValue_clz _)
  next g d a => cases h; exact gives_one (bitcValue .ctz) hr rfl rfl (bitcValue_ctz _)
  next g d a => cases h; exact gives_one (bitcValue .popc) hr rfl rfl (bitcValue_popc _)
  next g d a b signed => cases h; exact gives_two (extValue signed) hr rfl rfl (extValue_eq ..)
  next g d a b => cases h; exact gives_three insValue hr rfl rfl (insValue_eq ..)
  next => cases h

/-- Settles O2: each instruction gives what its value function reads, and each value function is the stated value. -/
theorem bitsComparesAndFields : Obligations.BitsComparesAndFields := ⟨logicAndShifts, compares, selectionAndFields⟩

/-- Settles O3: constants read nothing or the destination that they replace a part of. -/
theorem constantsAndAddresses : Obligations.ConstantsAndAddresses := by
  intro s i d x h hr
  show Gives s i d 1 x
  unfold constResult at h
  split at h
  next g d v => cases h; exact gives_of (fun _ => moviValue (.imm16 v)) hr rfl rfl rfl
  next g d v => cases h; exact gives_of (fun _ => moviValue (.lit v)) hr rfl rfl rfl
  next g d v => cases h; exact gives_one (movhiValue · v) hr rfl rfl (movhiValue_eq ..)
  next g d v => cases h; exact gives_one (movhiWValue · v) hr rfl rfl (movhiWValue_eq ..)
  next g d a b k => cases h; exact gives_two (fun x y => x + y <<< k.toNat) hr rfl rfl rfl
  next => cases h

/-! ## FP32 (R134, R136) -/

theorem clampI_eq_max_min {lo hi : Int} (h : lo ≤ hi) (x : Int) : clampI lo hi x = max lo (min hi x) := by
  unfold clampI
  split_ifs <;> omega

/-- FCVT to n64 saturates (R81, R136). -/
theorem toN64_eq (x : FVal) (rm : RMode) : toN64 x rm = match x with
    | .nan => 0
    | .inf neg => if neg then 0 else 2 ^ 64 - 1
    | .fin y => (max 0 (min (2 ^ 64 - 1) (rndI y rm 0))).toNat := by
  cases x with
  | fin y => exact congrArg Int.toNat (clampI_eq_max_min (by norm_num) _)
  | _ => rfl

/-- Settles O4: FOP and FCVT give the stated bits, of which only those of FCVT to n64 stand in other words. -/
theorem floatResults : Obligations.FloatResults := by
  intro s i d n b h hr
  show Gives s i d n (BitVec.ofNat 64 b)
  unfold floatResult at h
  split at h
  next g d a b => cases h; exact gives_three (fopValue .fadd) hr rfl rfl rfl
  next g d a b => cases h; exact gives_three (fopValue .fsub) hr rfl rfl rfl
  next g d a b => cases h; exact gives_three (fopValue .fmul) hr rfl rfl rfl
  next g d a b => cases h; exact gives_three (fopValue .fma) hr rfl rfl rfl
  next g d a b => cases h; exact gives_three (fopValue .fmin) hr rfl rfl rfl
  next g d a b => cases h; exact gives_three (fopValue .fmax) hr rfl rfl rfl
  next g d a => cases h; exact gives_one (fcvtValue .i2f) hr rfl rfl rfl
  next g d a => cases h; exact gives_one (fcvtValue .n2f) hr rfl rfl rfl
  next g d a => cases h; exact gives_one (fcvtValue .f2i) hr rfl rfl rfl
  next g d a => cases h; exact gives_one (fcvtValue .f2iRtz) hr rfl rfl rfl
  next g d a => cases h; exact gives_one (fcvtValue .f2n) hr rfl rfl (congrArg (BitVec.ofNat 64) (toN64_eq ..))
  next g d a => cases h; exact gives_one (fcvtValue .f2nRtz) hr rfl rfl (congrArg (BitVec.ofNat 64) (toN64_eq ..))
  next => cases h

end Sys2Proof.Machine
end

section
/-! PROOFS. Integer arithmetic and the shared divider (O1): DIV and REM are results that also take the divider of their core. -/

namespace Sys2Proof.Machine
open Sys2Proof Claims

variable {s : State} {i : Instr} {d : BitVec 6} {n : Nat} {x : Word}

/-! ## Quotients and remainders (R126) -/

theorem divResult_quot (f : DivF) (a b : Word) : divResult f (divRem f a.toNat b.toNat).1 = divide f (fun g _ => quot g) a b := by
  cases f with
  | s64 => exact (divRem_64 true a b).1
  | u64 => exact (divRem_64 false a b).1
  | s32 => exact (divRem_32 true a b).1
  | u32 => exact (divRem_32 false a b).1

theorem divResult_remd (f : DivF) (a b : Word) : divResult f (divRem f a.toNat b.toNat).2 = divide f (fun g _ => remd g) a b := by
  cases f with
  | s64 => exact (divRem_64 true a b).2
  | u64 => exact (divRem_64 false a b).2
  | s32 => exact (divRem_32 true a b).2
  | u32 => exact (divRem_32 false a b).2

theorem divLatency_eq (f : DivF) : divLatency f = if f = .s32 ∨ f = .u32 then 12 else 20 := by cases f <;> rfl

/-! ## A result that also changes its core's bookkeeping -/

theorem regFrame_updCore {t : State} {rs : List RegId} (k : Nat) (f : Core → Core) (hf : ∀ c, (f c).id = c.id ∧ (f c).array = c.array ∧ (f c).copies = c.copies ∧ (f c).xstat = c.xstat)
    (h : RegFrame s t rs) : RegFrame s (updCore t k f) rs := by
  obtain ⟨hregs, hstrand, ⟨hrest, hcores, hhbm, hnear⟩, hadv⟩ := h
  refine ⟨hregs, hstrand, ⟨?_, fun c => ?_, hhbm, hnear⟩, hadv⟩
  · exact congrArg (fun u => updCore u k f) hrest
  · obtain ⟨h1, h2, h3⟩ := updCore_kept t k f hf _ rfl c
    obtain ⟨g1, g2, g3⟩ := hcores c
    exact ⟨h1.trans g1, h2.trans g2, h3.trans g3⟩

/-- The closing of a bundle that turns no loop and holds no commit point or trap does not look at the cores. -/
theorem closeIssue_updCore {u : State} {b : Issue} (k : Nat) (f : Core → Core) (hi : u.issue = some b) (hl : b.loop.active = false) (hc : u.me.closing = none) (ht : u.me.heldTrap = none) :
    closeIssue (updCore u k f) = updCore (closeIssue u) k f := by
  rw [closeIssue_plain (updCore u k f) b hi hl hc ht, closeIssue_plain u b hi hl hc ht]
  rfl

/-! ## The divider (R127) -/

/-- A core whose divider is taken up to a ck: a division's latency, also where no register awaits its result (log 59). -/
def dividing (upTo : Nat) (owner : Nat × Tag) (c : Core) : Core := { c with divBusy := upTo, divOwner := some owner }

theorem deliverIn_updCore (u : State) (k : Nat) (f : Core → Core) (lat sid : Nat) (o : Option Tag) (x : Payload) :
    deliverIn (updCore u k f) lat sid o x = updCore (deliverIn u lat sid o x) k f := by
  cases o <;> rfl

/-- A division is its result, beside which it takes the divider. -/
theorem useDivider_eq (s : State) (d : BitVec 6) (f : DivF) (x : Nat) :
    ∃ w, useDivider s d f x = updCore (produceS s d (divLatency f) (divResult f x)) (myCore s) (dividing (s.clock + divLatency f) w) :=
  ⟨_, deliverIn_updCore ..⟩

theorem myCore_inSlot (s : State) (n : Nat) : myCore (inSlot s n) = coreOf s.me := by
  obtain ⟨p, r, cs, e, -⟩ := inSlot_shape s n
  rw [e]
  rfl

/-- A bundle of one division: its result is due, and the divider is taken for the latency. -/
theorem division_closed (f : DivF) (q : Nat) (hc : Calm s) :
    DeliversIn s (closeIssue (useDivider (inSlot s 1) d f q)) (.s d) (divLatency f) (.value ((divResult f q).setWidth 1024)) ∧
    RegFrame s (closeIssue (useDivider (inSlot s 1) d f q)) [.s d] ∧
    (getCore (closeIssue (useDivider (inSlot s 1) d f q)) (coreOf s.me)).divBusy = s.clock + divLatency f := by
  obtain ⟨hd, hk⟩ := produce_closed s 1 (.s d) (divLatency f) (.value ((divResult f q).setWidth 1024)) hc
  obtain ⟨-, hl, hcl, ht, -, -, hs, -, -⟩ := hc
  obtain ⟨w, hw⟩ := useDivider_eq (inSlot s 1) d f q
  obtain ⟨p, rd, cs, e, -⟩ := inSlot_issuing s 1
  obtain ⟨rg, lg, qq, sr, o, hp, -⟩ := produce_amid (x := .value ((divResult f q).setWidth 1024)) (lat := divLatency f) (rot_inSlot s 1 (.s d) hl) (by rw [e]; exact hs)
  have hclose : closeIssue (useDivider (inSlot s 1) d f q) =
      updCore (closeIssue (produceS (inSlot s 1) d (divLatency f) (divResult f q))) (coreOf s.me) (dividing (s.clock + divLatency f) w) := by
    rw [hw, myCore_inSlot, inSlot_clock]
    refine closeIssue_updCore _ _ (b := ⟨s.me.regs, s.me.h, s.me.loop, 1⟩) ?_ hl ?_ ?_ <;> rw [produceS, hp, e]
    · rfl
    · exact hcl
    · exact ht
  rw [hclose]
  refine ⟨hd, regFrame_updCore _ _ (fun _ => ⟨rfl, rfl, rfl, rfl⟩) hk, ?_⟩
  rw [getCore_updCore_same _ _ _ (getCore_id _ _)]
  rfl

section
variable (h : divides i = true)
include h

/-- Of the checks between its operands and its issue, a division has the wait for its divider alone. -/
theorem divides_unheld (s : State) : accessTrap s (1, i) = none ∧ beforeSources s i = none ∧ afterSources s 1 i = none ∧ linesNeeded s i = 0 ∧ nestStop s (1, i) = none ∧
    bankStop s (1, i) = none := by
  cases i <;> cases h <;>
    exact ⟨access_none s 1 _ rfl rfl rfl (fun _ => rfl) nofun nofun nofun, rfl, rfl, rfl, rfl, bankStop_none s 1 _ fun _ => rfl⟩

/-- It waits while the divider of its core is busy (R127). -/
theorem divides_hold (s : State) : slotHold s (1, i) = if (gangOf s s.me).isSome && decide (s.clock < (getCore s (coreOf s.me)).divBusy) then some .hold else none := by
  unfold slotHold
  cases gangOf s s.me with
  | none => rfl
  | some g => cases i <;> cases h <;> rfl

theorem division_waits (hr : Ready s i) (hg : (gangOf s s.me).isSome = true) (hb : s.clock < (getCore s (coreOf s.me)).divBusy) : exec i s = .next (withMe s (triedMe s)) := by
  obtain ⟨hacc, hbef, haft, -, -, -⟩ := divides_unheld h s
  have hn : slotIndex i = some 1 := by cases i <;> cases h <;> rfl
  have hsrc : ∀ r ∈ readsOf i ++ examinedOf i, isFull s r := fun r hm => hr.2.2 r (by simp only [List.mem_append] at hm ⊢; tauto)
  rw [exec_stopped hn hr.1.1 (stop_wait s 1 i .hold hr.1 hr.2.1 hsrc hbef haft hacc (by simp [divides_hold h, hg, hb]))]
  rfl

/-- A division is `useDivider` of a result that is the claimed one in its slot. -/
theorem division_result (hx : arithResult s i = some (d, n, x)) (hl : s.me.loop.active = false) :
    ∃ f, ∃ q : State → Nat, exec i s = slotOp 1 i (fun s => useDivider s d f (q s)) s ∧ divLatency f = n ∧ divResult f (q (inSlot s 1)) = x := by
  cases i with
  | div g d a b f =>
    cases hx
    refine ⟨f, fun s => (divRem f (rdS s a).toNat (rdSrc2 s b).toNat).1, rfl, divLatency_eq f, ?_⟩
    simp only [rdS_inSlot s 1 a hl, rdSrc2_inSlot s 1 b hl, divResult_quot]
  | rem g d a b f =>
    cases hx
    refine ⟨f, fun s => (divRem f (rdS s a).toNat (rdSrc2 s b).toNat).2, rfl, divLatency_eq f, ?_⟩
    simp only [rdS_inSlot s 1 a hl, rdSrc2_inSlot s 1 b hl, divResult_remd]
  | _ => cases h

theorem division_issues (hx : arithResult s i = some (d, n, x)) (hr : Ready s i) (hb : (getCore s (coreOf s.me)).divBusy ≤ s.clock) :
    ∃ t, exec i s = .next t ∧ DeliversIn s t (.s d) n (.value (x.setWidth 1024)) ∧ RegFrame s t [.s d] ∧ (getCore t (coreOf s.me)).divBusy = s.clock + n := by
  obtain ⟨f, q, he, rfl, rfl⟩ := division_result h hx hr.loop_idle
  obtain ⟨hacc, hbef, haft, hline, hnest, hbank⟩ := divides_unheld h s
  have hstop : stopOf s [(1, i)] = none := stop_ready s 1 i hr hbef haft hacc (by simp [divides_hold h, hb]) (by omega) hnest hbank
  exact ⟨_, he.trans (effect_of s 1 i _ hr.1 hr.2.1 hstop), division_closed f _ hr.1⟩

end

theorem scalarArithmetic : ScalarArithmetic := by
  intro s i d n x h hr hb
  by_cases hd : divides i = true
  · obtain ⟨t, ht, hdel, hk, -⟩ := division_issues hd h hr (hb hd)
    exact ⟨t, ht, hdel, hk⟩
  show Gives s i d n x
  unfold arithResult at h
  split at h
  next g d a b w => cases h; exact gives_two (fun x y => atWidth w (x + y).toNat) hr rfl rfl (atWidth_atW ..)
  next g d a b w => cases h; exact gives_two (fun x y => atWidth w (x - y).toNat) hr rfl rfl (atWidth_atW ..)
  next g d a v => cases h; exact gives_one (· + v.signExtend 64) hr rfl rfl rfl
  next g d a b w => cases h; exact gives_two (fun x y => atWidth w (x * y).toNat) hr rfl rfl (atWidth_atW ..)
  next g d a b => cases h; exact gives_two (mulhValue .signed) hr rfl rfl (mulhValue_eq ..)
  next g d a b => cases h; exact gives_two (mulhValue .unsigned) hr rfl rfl (mulhValue_eq ..)
  next g d a b => cases h; exact gives_two (mulhValue .mixed) hr rfl rfl (mulhValue_eq ..)
  next => exact absurd rfl hd
  next => exact absurd rfl hd
  next => cases h

/-- A listed gang of the strand is found. -/
theorem gangOf_isSome_of_any (h : s.gangs.any (fun g => g.gid == s.me.gid) = true) : (gangOf s s.me).isSome = true := by
  rw [gangOf, getGang, List.find?_isSome]
  exact List.any_eq_true.mp h

theorem dividerBusy : DividerBusy := by
  intro s i d n x h hr hd hg
  refine ⟨fun hb => ?_, division_waits hd hr (gangOf_isSome_of_any hg)⟩
  obtain ⟨t, ht, -, -, hbusy⟩ := division_issues hd h hr hb
  exact ⟨t, ht, hbusy⟩

/-- Settles O1: the divider is the only thing that DIV and REM wait for or leave, beside their result. -/
theorem arithmeticAndDivider : Obligations.ArithmeticAndDivider := ⟨scalarArithmetic, dividerBusy⟩

end Sys2Proof.Machine
end

section
/-! PROOFS. Moves (O6): MOV of a FULL register is a result of 1 ck, MOV of a PENDING one edits the strand's registers alone. -/

namespace Sys2Proof.Machine
open Sys2Proof Claims

variable {s : State} {i : Instr} {g : BitVec 4} {d a : RegId}

/-! ## The frame of fewer registers -/

theorem RegFrame.mono {t : State} {rs rs' : List RegId} (h : RegFrame s t rs) (hsub : rs ⊆ rs') : RegFrame s t rs' := by
  obtain ⟨hregs, hrest⟩ := h
  exact ⟨fun r hr => hregs r fun hm => hr (hsub hm), hrest⟩

/-! ## Handing on a future (R132) -/

/-- A strand's registers after the future of `a` has moved to `d`. -/
def movedRegs (r : RegFile) (d a : RegId) : RegFile := (r.put a (RegVal.poison .moved (r.get a).tag)).put d ⟨0, .pending, (r.get a).tag⟩

/-- Handing on a future changes the registers, the log, the semaphores and the serials alone; the semaphores only where a SEMA waits. -/
theorem moveFuture_ex (t : Strand) (d a : RegId) : ∃ lg qq sr, moveFuture t d a = { t with regs := movedRegs t.regs d a, log := lg, q := qq, serials := sr } ∧
    ((t.q.toList.all fun q => !q.out) = true → qq = t.q) := by
  obtain ⟨lg, hlog⟩ := logFirst_ex t a
  obtain ⟨lg', qq, sr, hw, hq⟩ := writeReg_ex { t with regs := t.regs.put a (RegVal.poison .moved (t.regs.get a).tag), log := lg } d ⟨0, .pending, (t.regs.get a).tag⟩
  refine ⟨lg', qq.map fun q => if q.out && q.tag == some (t.regs.get a).tag then { q with rid := if regFixed d then .s 0 else d } else q, sr, ?_, fun h => ?_⟩
  · unfold moveFuture
    simp only [hlog, hw]
    rfl
  · obtain ⟨rfl, -⟩ := hq h
    refine Vector.ext fun k hk => ?_
    have hout : t.q[k].out = false := by simpa using List.all_eq_true.mp h t.q[k] (by simp)
    simp [hout]

/-- The source of a moved future is POISONED with MOVED. -/
theorem movedRegs_source (r : RegFile) (ha : regFixed a = false) (hne : d ≠ a) : ((movedRegs r d a).get a).st = .poisoned ∧ ((movedRegs r d a).get a).val = 7 := by
  rw [movedRegs, RegFile.get_put_other _ _ hne.symm, RegFile.get_put_same _ _ ha]
  refine ⟨rfl, ?_⟩
  cases a <;> simp [fitReg, RegVal.poison, poisonCode]

/-- Its destination is PENDING under the source's tag, but for s0 and p0 (R12). -/
theorem movedRegs_dest (r : RegFile) (hd : regFixed d = false) : (movedRegs r d a).get d = ⟨0, .pending, (r.get a).tag⟩ := RegFile.get_put_pending _ _ hd

theorem movedRegs_fixed (r : RegFile) (hd : regFixed d = true) (hne : d ≠ a) : (movedRegs r d a).get d = r.get d := by
  rw [movedRegs, RegFile.put_fixed _ _ hd, RegFile.get_put_other _ _ hne]

theorem movedRegs_other (r : RegFile) {z : RegId} (hd : z ≠ d) (ha : z ≠ a) : (movedRegs r d a).get z = r.get z :=
  (RegFile.get_put_other _ _ hd).trans (RegFile.get_put_other _ _ ha)

/-! ## The two forms of MOV -/

/-- MOV in either file: what it does, and that only a POISONED source stops it. -/
structure IsMove (i : Instr) (d a : RegId) : Prop where
  meaning : ∀ s, exec i s = slotOp 1 i (fun s => moveReg s d a) s
  source : ∀ s, afterSources s 1 i = if (look s a).st == .poisoned then examine s 1 a else none
  reads : readsOf i ++ examinedOf i = []
  before : ∀ s, beforeSources s i = none
  unheld : ∀ s, accessTrap s (1, i) = none ∧ linesNeeded s i = 0 ∧ nestStop s (1, i) = none ∧ bankStop s (1, i) = none
  hold : ∀ s, slotHold s (1, i) = none

theorem isMove_mov (d a : BitVec 6) : IsMove (.mov g d a) (.s d) (.s a) where
  meaning _ := rfl
  source _ := rfl
  reads := rfl
  before _ := rfl
  unheld s := ⟨access_none s 1 _ rfl rfl rfl (fun _ => rfl) nofun nofun nofun, rfl, rfl, bankStop_none s 1 _ fun _ => rfl⟩
  hold s := by
    unfold slotHold
    cases gangOf s s.me <;> rfl

theorem isMove_movPredicate (d a : BitVec 4) : IsMove (.movPredicate g d a) (.p d) (.p a) where
  meaning _ := rfl
  source _ := rfl
  reads := rfl
  before _ := rfl
  unheld s := ⟨access_none s 1 _ rfl rfl rfl (fun _ => rfl) nofun nofun nofun, rfl, rfl, bankStop_none s 1 _ fun _ => rfl⟩
  hold s := by
    unfold slotHold
    cases gangOf s s.me <;> rfl

/-- MOV of a register that is not POISONED issues, PENDING or not. -/
theorem IsMove.unstopped (h : IsMove i d a) (hc : Calm s) (hg : GuardOn s i) (hst : (s.me.regs.get a).st ≠ .poisoned) : stopOf s [(1, i)] = none := by
  obtain ⟨hacc, hline, hnest, hbank⟩ := h.unheld s
  refine stop_sources s 1 i hc hg ?_ (h.before s) ?_ hacc (h.hold s) (by omega) hnest hbank
  · rw [h.reads]
    exact nofun
  · rw [h.source, look_closed s a hc.1 hc.2.1, beq_false_of_ne hst]
    rfl

theorem IsMove.copies (h : IsMove i d a) (hc : Calm s) (hg : GuardOn s i) (hf : isFull s a) :
    ∃ t, exec i s = .next t ∧ DeliversIn s t d 1 (.value (s.me.regs.get a).val) ∧ RegFrame s t [d] := by
  have heff : moveReg (inSlot s 1) d a = produce (inSlot s 1) d 1 (.value (s.me.regs.get a).val) := by
    simp only [moveReg, look_inSlot s 1 a hc.2.1, hf]
  have hstop := h.unstopped hc hg (by rw [hf]; exact nofun)
  obtain ⟨t, ht, hk, hd⟩ := result_unstopped (eff := fun s => moveReg s d a) hc hg hstop heff
  exact ⟨t, (h.meaning s).trans ht, hd, hk⟩

/-- In its slot, MOV of a PENDING register hands its future on, unless to itself. -/
theorem moveReg_inSlot (hc : Calm s) (hp : (s.me.regs.get a).st = .pending) :
    moveReg (inSlot s 1) d a = if d = a then inSlot s 1 else setMe (inSlot s 1) fun t => moveFuture t d a := by
  simp only [moveReg, look_inSlot s 1 a hc.2.1, hp, rot_inSlot s 1 _ hc.2.1, beq_iff_eq]

theorem IsMove.stays (h : IsMove i d d) (hc : Calm s) (hg : GuardOn s i) (hp : (s.me.regs.get d).st = .pending) :
    ∃ t, exec i s = .next t ∧ t.timers = s.timers ∧ RegFrame s t [] := by
  have hstop := h.unstopped hc hg (by rw [hp]; exact nofun)
  refine ⟨_, (h.meaning s).trans (effect_of s 1 i _ hc hg hstop), ?_⟩
  rw [moveReg_inSlot hc hp, if_pos rfl]
  exact closeIssue_inSlot hc 1

theorem IsMove.handsOn (h : IsMove i d a) (hc : Calm s) (hg : GuardOn s i) (hp : (s.me.regs.get a).st = .pending) (hne : d ≠ a) :
    ∃ t, exec i s = .next t ∧ t.timers = s.timers ∧ t.me.regs = movedRegs s.me.regs d a ∧ RegFrame s t [d, a] := by
  have hstop := h.unstopped hc hg (by rw [hp]; exact nofun)
  obtain ⟨p, rd, cs, e, hcs⟩ := inSlot_issuing s 1
  obtain ⟨lg, qq, sr, hm, hq⟩ := moveFuture_ex (issuing s p rd) d a
  let u : State := { opened s p rd cs 1 with me := { issuing s p rd with regs := movedRegs s.me.regs d a, log := lg, q := qq, serials := sr } }
  have hu : moveReg (inSlot s 1) d a = u := by
    rw [moveReg_inSlot hc hp, if_neg hne, e]
    exact congrArg (fun t => { opened s p rd cs 1 with me := t }) hm
  refine ⟨closeIssue u, (h.meaning s).trans ((effect_of s 1 i _ hc hg hstop).trans (by rw [hu])), ?_⟩
  rw [closeIssue_calm (u := u) hc rfl rfl rfl]
  refine ⟨rfl, rfl, fun z hz => ?_, ⟨rfl, hq⟩, ⟨?_, hcs _ _ rfl rfl, fun _ => rfl, fun _ => rfl⟩, rfl, rfl⟩
  · obtain ⟨hzd, hza⟩ : z ≠ d ∧ z ≠ a := by simpa using hz
    exact movedRegs_other _ hzd hza
  · rw [← hc.1]
    rfl

/-- Settles O6: a FULL source is a result, a PENDING one is handed on by an edit of two registers. -/
theorem movesFutures : Obligations.MovesFutures := by
  intro s g i d a hi hc hg
  have h : IsMove i d a := by
    rcases hi with ⟨x, y, rfl, rfl, rfl⟩ | ⟨x, y, rfl, rfl, rfl⟩
    · exact isMove_mov x y
    · exact isMove_movPredicate x y
  refine ⟨h.copies hc hg, fun hp ha => ?_⟩
  by_cases hne : d = a
  · subst hne
    obtain ⟨t, ht, htm, hk⟩ := h.stays hc hg hp
    exact ⟨t, ht, htm, hk.mono (List.nil_subset _), fun _ => hk.1 d (List.not_mem_nil), fun h => absurd rfl h⟩
  · obtain ⟨t, ht, htm, hregs, hk⟩ := h.handsOn hc hg hp hne
    have hsrc := movedRegs_source s.me.regs ha hne
    refine ⟨t, ht, htm, hk, fun h => absurd h hne, fun _ => ?_⟩
    rw [hregs]
    exact ⟨hsrc.1, hsrc.2, fun hd => by rw [movedRegs_dest _ hd]; exact ⟨rfl, rfl⟩, fun hd => movedRegs_fixed _ hd hne⟩

end Sys2Proof.Machine
end

section
/-! PROOFS. O41 fails: a completed command fills its future through a search that passes over s0, and no hypothesis says that the register owed is not s0. -/

namespace Sys2Proof.Machine
open Sys2Proof Claims

/-- A strand whose s0, which R12 never makes PENDING, is PENDING under tag 5; its other registers are FULL. -/
def s0OwedMe : Strand := { Strand.none with loc := some (0, 0), st := .running, regs := { RegFile.start with s := RegFile.start.s.set 0 ⟨0, .pending, 5⟩ } }

/-- A started ACLR whose future is tag 5. -/
def s0Clear : ArrCmd := { id := 1, sid := 0, tag := some 5, kind := .clr, a := 0, b := 0, h := 0, x := 0, cfg := 0, entered := 0, complete := 0, started := true, beat0 := 0, bad := false }

/-- The strand, with the command in the array of core 0. -/
def s0Owed : State := updArray { State.reset with me := s0OwedMe } 0 fun a => { a with cmds := [s0Clear] }

/-- Every register of the strand but s0 is as it starts. -/
theorem s0OwedMe_get (r : RegId) (h : r ≠ .s 0) : s0OwedMe.regs.get r = RegFile.start.get r := by
  cases r with
  | s i =>
    have hi : (0 : Nat) ≠ i.toNat := fun e => h (congrArg RegId.s (BitVec.eq_of_toNat_eq e.symm))
    simp only [s0OwedMe, RegFile.get, Vector.getElem_set_ne _ _ hi]
  | v i => rfl
  | p i => rfl

theorem s0Owed_takes : Takes s0Owed 5 (.s 0) := by
  refine ⟨rfl, rfl, rfl, rfl, rfl, rfl, fun q hq h => ?_, fun e he => absurd he List.not_mem_nil⟩
  have hst : (s0OwedMe.regs.get q).st = .pending := h.1
  rw [s0OwedMe_get q fun e => hq (List.mem_singleton.mpr e), start_full] at hst
  exact absurd hst (by decide)

/-- The command completes, and s0 is PENDING as before: `findPending` looks through s1 to s63, v0 to v31 and p1 to p15, and `RegFile.put` writes no other register. -/
theorem s0Owed_completes : ((outState s0Owed (exec (.arrayCommandComplete 0 1) s0Owed)).me.regs.get (.s 0)).st = .pending := by decide +kernel

/-- Refutes O41: its last clause says that a completed command's future lands in the register `r` that is PENDING under its tag, and `Takes` leaves `r` free to be s0 or p0, which take no delivery (R12);
in `s0Owed` it is s0. -/
theorem not_arrayEvents : ¬ Obligations.ArrayEvents := by
  intro h
  obtain ⟨-, -, -, -, hcomplete⟩ := h s0Owed 0
  obtain ⟨hfills, -⟩ := hcomplete s0Clear 5 (.s 0) rfl rfl rfl rfl rfl rfl s0Owed_takes
  obtain ⟨t, e, hland, -⟩ := hfills nofun nofun
  obtain ⟨hfull, -⟩ : (t.me.regs.get (.s 0)).st = .full ∧ _ := hland
  have hrun := s0Owed_completes
  rw [show exec (.arrayCommandComplete 0 1) s0Owed = .next t from e] at hrun
  exact absurd (hrun.symm.trans hfull) (by decide)

end Sys2Proof.Machine
end

section
/-! PROOFS. Holding and reading the array (O25): ACFG and ADONE are one edit of the core's array and the event that it makes due; AREAD is two results of one bundle. -/

namespace Sys2Proof.Machine
open Sys2Proof Claims

variable {s : State} {g : BitVec 4} {a : BitVec 6}

/-! ## Edits of one core's array -/

theorem putKey_putKey {α : Type} {key : α → Nat} {x y : α} (h : key x = key y) (l : List α) : putKey key y (putKey key x l) = putKey key y l := by
  induction l with
  | nil => simp [putKey, h]
  | cons z l ih =>
    by_cases hz : key z = key y
    · simp [putKey, h, hz]
    · simp [putKey, h, hz, ih]

theorem putCore_putCore (u : State) {c d : Core} (h : c.id = d.id) : putCore (putCore u c) d = putCore u d :=
  congrArg (fun cs => ({ u with cores := cs } : State)) (putKey_putKey h u.cores)

theorem updArray_updArray (u : State) (k : Nat) (f f' : Array → Array) : updArray (updArray u k f) k f' = updArray u k (f' ∘ f) := by
  have hget : getCore (updArray u k f) k = { getCore u k with array := f (getCore u k).array } := getCore_updCore_same _ _ _ (getCore_id u k)
  rw [updArray, updCore, hget]
  exact putCore_putCore u rfl

theorem updArray_congr {u : State} {k : Nat} {f f' : Array → Array} (h : f (getArray u k) = f' (getArray u k)) : updArray u k f = updArray u k f' :=
  congrArg (fun x => putCore u { getCore u k with array := x }) h

/-- A bundle of slot 4 whose effect is to take an id, to edit an array and to make an event due in the same ck. -/
theorem arrayEdit_closed {p : Vector Word 8} {rd : Nat} {cs : List Core} (hc : Calm s) (hcs : SameEngines cs s.cores) (k : Nat) (f : Array → Array) (ev : Instr) : ∃ t,
    closeIssue (after (updArray { opened s p rd cs 4 with nextId := s.nextId + 1 } k f) 0 ev) = t ∧ Advanced s t ∧ t.timers = s.timers ++ [⟨s.clock, ev⟩] ∧
      Kept (updArray { s with nextId := s.nextId + 1 } k f) t [] := by
  let m : Strand := { issuing s p rd with choice := none, waitset := none, pc := s.me.pc + 32 }
  have hlike : Alike { s with nextId := s.nextId + 1 } { s with nextId := s.nextId + 1, me := m, cores := cs } := ⟨rfl, rfl, rfl, rfl, hcs⟩
  have h := hlike.updArray k f
  refine ⟨_, closeIssue_calm hc rfl rfl rfl, ⟨rfl, rfl⟩, rfl, fun _ _ => rfl, ⟨rfl, fun _ => rfl⟩, ?_, h.engines _ _ rfl rfl, fun _ => rfl, fun _ => rfl⟩
  rw [← hc.1]
  rfl

/-! ## ACFG and ADONE (R184, R185) -/

theorem holdsArray_iff : holdsArray s = true ↔ Holds s := by simp [holdsArray, getArray, myCore]

/-- An array with a configuration recorded under a number (R184). -/
def recordedAs (id : Nat) (w : Word) (x : Array) : Array := { x with nextCfg := x.nextCfg ++ [(id, w)], releasing := none }

/-- What ACFG does to the array, claimed first where the strand does not hold it, is one edit. -/
theorem claim_then_record (u : State) (w : Word) : recordCfg (if holdsArray u then u else claimArray u (myCore u) u.me.sid (jobNum u u.me)) (myCore u) w =
    after (updArray { u with nextId := u.nextId + 1 } (myCore u) (configured u (jobNum u u.me) u.nextId w)) 0 (.arrayConfigApply (myCore u)) := by
  let v : State := { u with nextId := u.nextId + 1 }
  split
  next hh =>
    have hholder : (getArray v (myCore u)).holder = some u.me.sid := holdsArray_iff.mp hh
    show after (updArray v (myCore u) (recordedAs u.nextId w)) 0 _ = _
    refine congrArg (after · 0 _) (updArray_congr ?_)
    rw [configured, if_pos hholder, recordedAs]
  next hh =>
    have hholder : (getArray v (myCore u)).holder ≠ some u.me.sid := fun e => hh (holdsArray_iff.mpr e)
    show after (updArray (claimArray v (myCore u) u.me.sid (jobNum u u.me)) (myCore u) (recordedAs u.nextId w)) 0 _ = _
    rw [claimArray, updArray_updArray]
    refine congrArg (after · 0 _) (updArray_congr ?_)
    simp [configured, hholder, recordedAs, v]

theorem acfg_access : accessTrap s (4, .acfg g a) = none := access_none s 4 _ rfl rfl rfl (fun _ => rfl) nofun nofun nofun

/-- ACFG waits for the array while another context holds it. -/
theorem acfg_held {h : Gang} {k : Nat} (hg : gangOf s s.me = some h) (hk : (myArray s).holder = some k) (hne : k ≠ s.me.sid) : slotHold s (4, .acfg g a) = some .holdArray := by
  simp [slotHold, hg, ordersAcq, myCore, hk, hne]

/-- It does not where its own context holds the array, or where nobody holds it or waits for it. -/
theorem acfg_unheld (hf : Holds s ∨ (myArray s).holder = none ∧ (myArray s).waiting = []) : slotHold s (4, .acfg g a) = none := by
  unfold slotHold
  cases gangOf s s.me with
  | none => rfl
  | some h => rcases hf with hh | ⟨hn, hw⟩ <;> simp [ordersAcq, myCore, *]

/-- The contexts that wait once the strand at issue waits too. -/
def joinWaiting (s : State) (ws : List (Nat × Nat)) : List (Nat × Nat) := if ws.any (fun w => w.1 == s.me.sid) then ws else ws ++ [(s.me.sid, s.clock)]

theorem stopIssue_holdArray (s : State) : stopIssue s .holdArray =
    updArray (withMe s (triedMe s)) (coreOf s.me) fun x => { x with waiting := joinWaiting s (x.waiting.filter (stillWaits s)) } := rfl

theorem acfg_records {h : Gang} (hg : gangOf s s.me = some h) (hr : Ready s (.acfg g a)) (hf : Holds s ∨ (myArray s).holder = none ∧ (myArray s).waiting = []) :
    ∃ t, exec (.acfg g a) s = .next t ∧ Advanced s t ∧ t.timers = s.timers ++ [⟨s.clock, .arrayConfigApply (coreOf s.me)⟩] ∧
      Kept (updArray { s with nextId := s.nextId + 1 } (coreOf s.me) (configured s h.job s.nextId (sVal s a))) t [] := by
  obtain ⟨p, rd, cs, e, hcs⟩ := inSlot_issuing s 4
  have hstop : stopOf s [(4, .acfg g a)] = none := stop_ready s 4 _ hr rfl rfl acfg_access (acfg_unheld hf) (Nat.zero_le 4) rfl (bankStop_none _ _ _ fun _ => rfl)
  have hjob : jobNum (opened s p rd cs 4) (issuing s p rd) = h.job := by
    have hgang : gangOf (opened s p rd cs 4) (issuing s p rd) = some h := hg
    simp only [jobNum, hgang]
  obtain ⟨t, hclose, hrest⟩ := arrayEdit_closed (p := p) (rd := rd) hr.1 hcs (coreOf s.me) (configured s h.job s.nextId (sVal s a)) (.arrayConfigApply (coreOf s.me))
  refine ⟨t, (effect_of s 4 (.acfg g a) _ hr.1 hr.2.1 hstop).trans (congrArg Host.Outcome.next (Eq.trans ?_ hclose)), hrest⟩
  have heff := claim_then_record (opened s p rd cs 4) (sVal s a)
  rw [show jobNum (opened s p rd cs 4) (opened s p rd cs 4).me = h.job from hjob] at heff
  dsimp only
  rw [rdS_inSlot s 4 a hr.1.2.1, e]
  refine congrArg closeIssue (Eq.trans ?_ heff)
  rw [← hjob]
  rfl

theorem acfg_waits {h : Gang} {k : Nat} (hg : gangOf s s.me = some h) (hr : Ready s (.acfg g a)) (hk : (myArray s).holder = some k) (hne : k ≠ s.me.sid)
    (hw : ∀ w ∈ (myArray s).waiting, w.1 ≠ s.me.sid) :
    exec (.acfg g a) s = .next (updArray (withMe s (triedMe s)) (coreOf s.me) fun x => { x with waiting := x.waiting.filter (stillWaits s) ++ [(s.me.sid, s.clock)] }) := by
  have hsrc : ∀ r ∈ readsOf (.acfg g a) ++ examinedOf (.acfg g a), isFull s r := fun r h => hr.2.2 r (by simpa [readsOf, portOnly, examinedOf] using h)
  have hnew : ((myArray s).waiting.filter (stillWaits s)).any (fun w => w.1 == s.me.sid) = false :=
    List.any_eq_false.mpr fun w h => by simpa using hw w (List.mem_of_mem_filter h)
  rw [exec_stopped rfl hr.1.1 (stop_wait s 4 _ .holdArray hr.1 hr.2.1 hsrc rfl rfl acfg_access (acfg_held hg hk hne)), stopIssue_holdArray]
  refine congrArg Host.Outcome.next (updArray_congr ?_)
  show { myArray s with waiting := joinWaiting s ((myArray s).waiting.filter (stillWaits s)) } = _
  rw [joinWaiting, hnew]
  rfl

theorem adone_releases (hr : Ready s (.adone g)) (hh : Holds s) : ∃ t, exec (.adone g) s = .next t ∧ Advanced s t ∧ t.timers = s.timers ++ [⟨s.clock, .arrayRelease (coreOf s.me)⟩] ∧
    Kept (updArray { s with nextId := s.nextId + 1 } (coreOf s.me) fun x => { x with releasing := some s.nextId }) t [] := by
  obtain ⟨p, rd, cs, e, hcs⟩ := inSlot_issuing s 4
  have hheld : holdsArray (opened s p rd cs 4) = true := by rw [holdsArray_iff, Holds, myArray, (hcs (opened s p rd cs 4) s rfl rfl _).1]; exact hh
  obtain ⟨t, hclose, hrest⟩ := arrayEdit_closed (p := p) (rd := rd) hr.1 hcs (coreOf s.me) (fun x => { x with releasing := some s.nextId }) (.arrayRelease (coreOf s.me))
  refine ⟨t, (effect_operandsOnly s 4 (.adone g) _ hr rfl).trans (congrArg Host.Outcome.next (Eq.trans ?_ hclose)), hrest⟩
  rw [e]
  exact congrArg closeIssue (if_pos hheld)

theorem holdsArray_inSlot (n : Nat) : holdsArray (inSlot s n) = holdsArray s := by
  rw [holdsArray, holdsArray, getArray, getArray, inSlot_array, inSlot_sid, myCore_inSlot, myCore]

theorem adone_nothing (hr : Ready s (.adone g)) (hh : ¬ Holds s) : ∃ t, exec (.adone g) s = .next t ∧ t.timers = s.timers ∧ RegFrame s t [] := by
  refine ⟨_, (effect_operandsOnly s 4 (.adone g) _ hr rfl).trans (congrArg (fun u => Host.Outcome.next (closeIssue u)) ?_), closeIssue_inSlot hr.1 4⟩
  exact if_neg (by rw [holdsArray_inSlot, holdsArray_iff]; exact hh)

theorem arrayHolding : ArrayHolding := fun _ _ _ _ hg => ⟨acfg_records hg, fun hr _ => acfg_waits hg hr, adone_releases, adone_nothing⟩

/-! ## Two results of one bundle (R20) -/

/-- A state whose strand at issue has a register PENDING under a tag, with the event that fills it. -/
def owing (v : State) (lg : List LogEntry) (qq : Vector Sema 16) (r : RegId) (t : Tag) (lat : Nat) (x : Payload) : State :=
  { v with me := { v.me with regs := v.me.regs.put r ⟨0, .pending, t⟩, log := lg, q := qq, serials := v.me.serials ++ [(t.toNat % 1024, false)] }
           timers := v.timers ++ [⟨v.clock + lat, .delivery v.me.sid t x⟩] }

/-- A tag of a serial that the strand does not hold, in its window. -/
def FreshTag (v : State) (t : Tag) : Prop := t.toNat % 1024 ∉ v.me.serials.map (·.1) ∧ t.toNat / 1024 = v.me.window.toNat % 64

theorem obligate_serials {v : State} {r : RegId} {aw : Bool} (hrot : rot v r = r) (hf : regFixed r = false) :
    (obligate v r aw).1.me.serials = v.me.serials ++ [(freeSerial v.me.serials 1024 0, aw)] := by
  simp [obligate, obligateT, hrot, hf]

/-- A result of a register that takes one, in a strand with a serial to spare: everything that it changes. -/
theorem produce_owing {v : State} {r : RegId} {lat : Nat} {x : Payload} (hrot : rot v r = r) (hf : regFixed r = false) (hs : v.me.serials.length < 1024) : ∃ lg qq t,
    produce v r lat x = owing v lg qq r t lat x ∧ FreshTag v t ∧ ((v.me.q.toList.all fun q => !q.out) = true → qq = v.me.q) := by
  obtain ⟨hfree, hlt⟩ := freeSerial_free v.me.serials hs
  obtain ⟨hserial, hwindow⟩ := tagOf_serial (freeSerial v.me.serials 1024 0) v.me.window hlt
  obtain ⟨lg, qq, sr, e, -, -, hq⟩ := obligate_open v r false hrot hf
  have hsr : sr = v.me.serials ++ [(freeSerial v.me.serials 1024 0, false)] := by
    have h := obligate_serials (aw := false) hrot hf
    rwa [e] at h
  refine ⟨lg, qq, _, ?_, ⟨by rwa [hserial], hwindow⟩, hq⟩
  rw [produce, e, owing, hserial, hsr]
  rfl

/-- A bundle whose slots have written registers of the strand at issue and made events due closes with the frame of an instruction that writes registers only. -/
theorem written_closed {n : Nat} {p : Vector Word 8} {rd : Nat} {cs : List Core} {rg : RegFile} {lg : List LogEntry} {qq : Vector Sema 16} {sr : List (Nat × Bool)} {ts : List Timer} {rs : List RegId}
    (hc : Calm s) (hcs : SameEngines cs s.cores) (hrg : ∀ z, z ∉ rs → rg.get z = s.me.regs.get z) (hq : (s.me.q.toList.all fun q => !q.out) = true → qq = s.me.q) : ∃ t,
    closeIssue { opened s p rd cs n with me := { issuing s p rd with regs := rg, log := lg, q := qq, serials := sr }, timers := ts } = t ∧ RegFrame s t rs ∧
      t.me.regs = rg ∧ t.me.serials = sr ∧ t.timers = ts := by
  refine ⟨_, closeIssue_calm hc rfl rfl rfl, ⟨hrg, ⟨rfl, hq⟩, ⟨?_, hcs _ _ rfl rfl, fun _ => rfl, fun _ => rfl⟩, rfl, rfl⟩, rfl, rfl, rfl⟩
  rw [← hc.1]
  rfl

theorem produce_fixed {v : State} {r : RegId} {lat : Nat} {x : Payload} (hrot : rot v r = r) (hf : regFixed r = true) : produce v r lat x = v := by
  rw [produce, obligate_fixed v r false hrot hf]
  rfl

/-- Two results of the same latency in one bundle, the second perhaps of a register that takes none (R12): each register is owed under a tag of its own. -/
theorem twoResults_closed {n lat : Nat} {r z : RegId} {x y : Payload} (hc : Calm s) (hf : regFixed r = false) (hne : r ≠ z) : ∃ t k,
    closeIssue (produce (produce (inSlot s n) r lat x) z lat y) = t ∧ RegFrame s t [z, r] ∧ Owed s t r k ∧
    (regFixed z = true → t.timers = s.timers ++ [⟨s.clock + lat, .delivery s.me.sid k x⟩]) ∧
    (regFixed z = false → ∃ j, j ≠ k ∧ Owed s t z j ∧ t.timers = s.timers ++ [⟨s.clock + lat, .delivery s.me.sid k x⟩, ⟨s.clock + lat, .delivery s.me.sid j y⟩]) := by
  obtain ⟨p, rd, cs, e, hcs⟩ := inSlot_issuing s n
  have hidle : s.me.loop.active = false := hc.2.1
  have hroom : s.me.serials.length ≤ 1000 := hc.2.2.2.2.2.2.1
  obtain ⟨lg, qq, k, he, ⟨hk, hkw⟩, hq⟩ := produce_owing (v := opened s p rd cs n) (lat := lat) (x := x) (rotReg_idle _ _ hidle) hf (Nat.lt_of_le_of_lt hroom (by decide))
  let v := owing (opened s p rd cs n) lg qq r k lat x
  have hother {w : RegId} (h : w ∉ [z, r]) : v.me.regs.get w = s.me.regs.get w := RegFile.get_put_other _ _ fun h' => h (by simp [h'])
  have hpending : v.me.regs.get r = ⟨0, .pending, k⟩ := RegFile.get_put_pending _ _ hf
  have hrot : rot v z = z := rotReg_idle _ _ hidle
  rw [e, he]
  cases hz : regFixed z with
  | true =>
    rw [produce_fixed hrot hz]
    obtain ⟨t, hclose, hframe, hregs, hserials, htimers⟩ := written_closed (p := p) (rd := rd) (n := n) (lg := lg) (sr := v.me.serials) (ts := v.timers) hc hcs (fun w => hother (w := w)) hq
    refine ⟨t, k, hclose, hframe, ⟨by rw [hregs, hpending], hk, ?_, hkw⟩, fun _ => htimers, nofun⟩
    rw [hserials]
    simp [v, owing]
  | false =>
    obtain ⟨lg', qq', j, he', ⟨hj, hjw⟩, hq'⟩ := produce_owing (v := v) (lat := lat) (x := y) hrot hz (by simp [v, owing, opened, issuing]; omega)
    let w := owing v lg' qq' z j lat y
    have hnew : j.toNat % 1024 ∉ s.me.serials.map (·.1) ∧ j.toNat % 1024 ≠ k.toNat % 1024 := by simpa [v, owing, opened, issuing, not_or] using hj
    have hquiet (h : (s.me.q.toList.all fun q => !q.out) = true) : qq' = s.me.q := (hq' (by rw [show v.me.q = s.me.q from hq h]; exact h)).trans (hq h)
    obtain ⟨t, hclose, hframe, hregs, hserials, htimers⟩ := written_closed (p := p) (rd := rd) (n := n) (rg := w.me.regs) (lg := lg') (sr := w.me.serials) (ts := w.timers) (rs := [z, r]) hc hcs
      (fun u hu => (RegFile.get_put_other _ _ fun h => hu (by simp [h])).trans (hother hu)) hquiet
    rw [he']
    refine ⟨t, k, hclose, hframe, ⟨?_, hk, ?_, hkw⟩, nofun, fun _ => ⟨j, fun h => hnew.2 (by rw [h]), ⟨?_, hnew.1, ?_, hjw⟩, ?_⟩⟩
    · rw [hregs]
      exact (RegFile.get_put_other _ _ hne).trans hpending
    · rw [hserials]
      simp [w, v, owing]
    · rw [hregs]
      exact RegFile.get_put_pending _ _ hz
    · rw [hserials]
      simp [w, owing]
    · rw [htimers]
      simp [w, v, owing, opened, issuing]

/-! ## AREAD (R185, R195) -/

theorem replicated_produce {u : State} {r : RegId} {lat : Nat} {x : Payload} : replicated (produce u r lat x) (produce u r lat x).me = replicated u u.me := by
  have hgid : (obligate u r false).1.me.gid = u.me.gid := by rw [obligate, (obligateT_eq u.me (rot u r) false).1]
  have hgang : gangOf u (obligate u r false).1.me = gangOf u u.me := by rw [gangOf, gangOf, hgid]
  have hset : replicated u (obligate u r false).1.me = replicated u u.me := by rw [replicated, replicated, strandSet, strandSet, hgang]
  rw [← hset, produce]
  cases (obligate u r false).2 <;> rfl

/-- Unreplicated, AREAD is two results after 4 ck. -/
theorem agreeValue_twice {u : State} {r z : RegId} {lat : Nat} {x y : Payload} (hu : replicated u u.me = false) :
    agreeValue (agreeValue u r lat x) z lat y = produce (produce u r lat x) z lat y := by
  rw [agreeValue_unreplicated hu, agreeValue_unreplicated (replicated_produce.trans hu)]

/-- With no step of a current command complete AREAD gives L1 as it stands. -/
theorem areadRow_stands {x : Array} (r : Nat) (h : x.current = none ∨ x.curDonePrev = 0) : (areadRow x r).1 = l1Row x r := by
  have hcount : (if x.current.isSome then x.curDonePrev else 0) = 0 := by
    rcases h with h | h <;> simp [h]
  unfold areadRow l1Row
  simp only [hcount, if_true]
  refine List.map_congr_left fun j _ => ?_
  split
  · rfl
  · cases x.current <;> rfl

/-- What AREAD gives to vB and to sD. -/
def areadGives (s : State) (a : BitVec 6) : Payload × Payload :=
  if holdsArray s then
    let x := areadRow (myArray s) ((sVal s a).toNat % 32)
    (.value (ofElems 32 x.1), .value (BitVec.ofNat 1024 x.2))
  else (.poison .engine, .poison .engine)

theorem aread_effect {d : BitVec 6} {b : BitVec 5} (hr : Ready s (.aread g d b a)) (hu : replicated s s.me = false) :
    exec (.aread g d b a) s = .next (closeIssue (produce (produce (inSlot s 4) (.v b) 4 (areadGives s a).1) (.s d) 4 (areadGives s a).2)) := by
  refine (effect_operandsOnly s 4 (.aread g d b a) _ hr rfl).trans (congrArg (fun u => Host.Outcome.next (closeIssue u)) ?_)
  have hu' : replicated (inSlot s 4) (inSlot s 4).me = false := (replicated_inSlot 4).trans hu
  have hrow : wbits (rdS (inSlot s 4) a) 0 5 = (sVal s a).toNat % 32 := by simp [rdS_inSlot s 4 a hr.1.2.1, wbits, bitsOf]
  have harr : getArray (inSlot s 4) (myCore (inSlot s 4)) = myArray s := by rw [getArray, inSlot_array, myCore_inSlot]
  simp only [areadGives, hrow, harr, holdsArray_inSlot, agreeValue_twice hu']
  split <;> rfl

theorem arrayReading : ArrayReading := by
  intro s g d b a hr hu
  obtain ⟨t, k, hclose, hframe, howed, hfixed, hother⟩ := twoResults_closed (n := 4) (lat := 4) (r := .v b) (z := .s d) (x := (areadGives s a).1) (y := (areadGives s a).2) hr.1 rfl nofun
  refine ⟨t, (areadGives s a).1, (areadGives s a).2, k, (aread_effect hr hu).trans (congrArg Host.Outcome.next hclose), hframe, howed, fun h => hfixed (by rw [fixed_s, h]; rfl),
    fun h => hother (by rw [fixed_s]; exact beq_false_of_ne h), fun hh => ?_, fun hh => ?_⟩
  · have hh' : ¬ holdsArray s = true := fun e => hh (holdsArray_iff.mp e)
    rw [areadGives, if_neg hh']
    exact ⟨rfl, rfl⟩
  · rw [areadGives, if_pos (holdsArray_iff.mpr hh)]
    exact ⟨rfl, fun h => congrArg (fun row => Payload.value (ofElems 32 row)) (areadRow_stands _ h)⟩

/-- Settles O25: ACFG and ADONE edit the array of their core, AREAD leaves two results. -/
theorem arrayHoldingAndReading : Obligations.ArrayHoldingAndReading := ⟨arrayHolding, arrayReading⟩

end Sys2Proof.Machine
end

section
/-! PROOFS. O30 fails: the commit point sends every atomic under the new name, and no hypothesis says that another strand's atomic has another name. -/

namespace Sys2Proof.Machine
open Sys2Proof Claims

/-- A reduction of strand 5 under the name 1, still to leave. -/
def otherReduction : FarAtom :=
  { id := 1, sid := 5, tag := none, window := 0, va := 0, w := .w64, op := .rmw .add 0, sent := false, cpt := 0, held := none, fkind := 0, remote := false }

/-- Strand 0 runs while that reduction waits; the next name is 1 too. -/
def sharedName : State := { State.reset with me := { Strand.none with loc := some (0, 0), st := .running }, farAtoms := [otherReduction] }

/-- REDF of strand 0 sends both reductions. -/
theorem sharedName_sends : (outState sharedName (exec (.redf 0 .w64 .add 0 0) sharedName)).farAtoms.head?.map (·.sent) = some true := by decide +kernel

/-- Its operands are s0 and its guard p0. -/
theorem sharedName_ready : Ready sharedName (.redf 0 .w64 .add 0 0) := by
  refine ⟨⟨rfl, rfl, rfl, rfl, rfl, rfl, by decide, by decide, by decide⟩, ⟨start_full _, fun _ => by decide +kernel⟩, fun r _ => start_full r⟩

theorem sharedName_streams : windowStreams sharedName := by
  refine ⟨rfl, rfl, rfl, fun _ h => absurd h List.not_mem_nil, fun a ha e => ?_, fun _ h => absurd h List.not_mem_nil⟩
  obtain rfl := List.mem_singleton.mp ha
  exact absurd e (by decide)

/-- Refutes O30: the first clause of `Claims.FarAtomics` asks that the atomics outstanding before stay as they are, where its hypotheses let an atomic of another strand bear the next name;
in `sharedName` one does, and `runPost` marks it as sent with the new one. -/
theorem not_atomicsFarAndNear : ¬ Obligations.AtomicsFarAndNear := by
  rintro ⟨hfar, -⟩
  obtain ⟨hsends, -⟩ := hfar sharedName (.redf 0 .w64 .add 0 0) none 0 .w64 (.rmw .add 0) rfl sharedName_ready rfl rfl rfl nofun sharedName_streams (by decide)
  obtain ⟨t, e, -, -, -, -, ⟨hrest, -⟩⟩ := hsends rfl (.inl rfl)
  have hatoms : t.farAtoms.head?.map (·.sent) = some false := congrArg (fun u => u.farAtoms.head?.map (·.sent)) hrest
  have hrun := sharedName_sends
  rw [e] at hrun
  exact absurd (hrun.symm.trans hatoms) (by decide)

end Sys2Proof.Machine
end

section
/-! PROOFS. O32 fails: a SEND with a misaligned address uses its strand's ticket, which the statement's frame keeps. -/

namespace Sys2Proof.Machine
open Sys2Proof Claims

/-- A ticketed send end with nothing sent. -/
def ticketedEnd : SendEnd :=
  { tkt := true, peer := ⟨0xFFF, 0, 0, 0, 0⟩, depth := none, free := 0, rcvd := 0, sent := 0, msgs := 0, called := none, skips := [], resync := false, peerBind := 0, ops := [] }

/-- A gang whose channel 0 is that end. -/
def ticketedGang : Gang := { fetchGang with chans := (Vector.replicate 64 .unbound).set 0 (.send ticketedEnd) }

/-- A running strand of the gang that holds ticket 7 of channel 0; its s1 is 4, a misaligned address with a length of 0. -/
def ticketHolder : State :=
  { State.reset with
    me := { Strand.none with gid := 1, loc := some (0, 0), st := .running, tickets := [(0, 7)], regs := RegFile.start.put (.s 1) ⟨4, .full, 0⟩ }
    gangs := [ticketedGang] }

/-- Every register of the strand is FULL. -/
theorem ticketHolder_full (r : RegId) : isFull ticketHolder r := by
  by_cases h : r = .s 1
  · subst h
    exact congrArg RegVal.st (RegFile.get_put_same RegFile.start ⟨4, .full, 0⟩ (x := .s 1) rfl)
  · exact (congrArg RegVal.st (RegFile.get_put_other RegFile.start ⟨4, .full, 0⟩ h)).trans (start_full r)

theorem ticketHolder_ready : Ready ticketHolder (.send 0 0 0 1) :=
  ⟨⟨rfl, rfl, rfl, rfl, rfl, rfl, by decide, by decide, by decide⟩, ⟨ticketHolder_full _, fun _ => by decide +kernel⟩, fun r _ => ticketHolder_full r⟩

/-- The SEND is refused for its address, and the ticket is gone. -/
theorem ticketHolder_uses : (outState ticketHolder (exec (.send 0 0 0 1) ticketHolder)).me.tickets = [] := by decide +kernel

/-- It names 0 bytes at address 4. -/
theorem ticketHolder_names (r : Nat × Nat) (h : chanRange ticketHolder (.send 0 0 0 1) = some r) : RangeIn ticketedGang ticketHolder.me r.1 r.2 := by
  obtain rfl : (4, 0) = r := Option.some.inj ((by decide +kernel : some (4, 0) = chanRange ticketHolder (.send 0 0 0 1)).trans h)
  exact .inl rfl

/-- What the SEND asks for: nothing to send, and ALIGN for its future. -/
def misalignedSend (o : Option Tag) : Post :=
  .send 0 { sid := 0, tag := o, bytes := [], num := some 7, left := false, count := 0, since := 0 } (some .align)

theorem ticketHolder_asks : chanCmd ticketHolder ticketedGang (.send 0 0 0 1) = some (0, false, misalignedSend) := by
  have hspan : spanOf (sVal ticketHolder 1) = (4, 0) := by decide +kernel
  have hticket : oldestTicket ticketHolder ticketedGang 0 = some 7 := by decide +kernel
  simp only [chanCmd, hspan, hticket]
  rfl

/-- Refutes O32: by the first clause of `Claims.ChannelCommands` a SEND whose address is misaligned leaves its strand's tickets as they are, since `chanLeaves` and `StrandKept` name no other effect of it,
but the refused SEND uses its ticket (R236); in `ticketHolder` it is the strand's only one. -/
theorem not_channelsAndCollectives : ¬ Obligations.ChannelsAndCollectives := by
  rintro ⟨hchannels, -⟩
  obtain ⟨hleaves, -⟩ := hchannels ticketHolder (.send 0 0 0 1) ticketedGang 0 false misalignedSend ticketHolder_asks (by decide +kernel) ticketHolder_ready rfl rfl rfl nofun rfl
  obtain ⟨hleaves, -⟩ := hleaves (by decide +kernel) ticketHolder_names
  have hempty : windowEmpty ticketHolder :=
    ⟨rfl, rfl, fun _ h => absurd h List.not_mem_nil, fun _ h => absurd h List.not_mem_nil, fun _ h => absurd h List.not_mem_nil⟩
  obtain ⟨t, e, -, -, -, ⟨hme, -⟩, -⟩ := hleaves rfl hempty
  have htickets : t.me.tickets = [(0, 7)] := congrArg Strand.tickets hme
  have hrun := ticketHolder_uses
  rw [e] at hrun
  exact absurd (hrun.symm.trans htickets) (by decide)

end Sys2Proof.Machine
end

section
/-! PROOFS. O36 fails: a fault of a far atomic counts the answers it drops once its strand is FAULTED, and a context without a resident strand counts no event. -/

namespace Sys2Proof.Machine
open Sys2Proof Claims

/-- A reduction of strand 0 that has left; its answer goes nowhere. -/
def leftReduction (id : Nat) : FarAtom :=
  { id := id, sid := 0, tag := none, window := 0, va := 0, w := .w64, op := .rmw .add 0, sent := true, cpt := 0, held := none, fkind := 0, remote := false }

/-- A running strand with two such reductions; its counter 0 selects event 7. -/
def twoReductions : State :=
  { State.reset with
    me := { Strand.none with loc := some (0, 0), st := .running, perfsel := (Vector.replicate 8 0).set 0 7 }
    farAtoms := [leftReduction 1, leftReduction 2] }

/-- The fault of the first drops the answer of the second, and counter 0 stays. -/
theorem twoReductions_uncounted : (outState twoReductions (exec (.atomicFaultRollback 1) twoReductions)).me.perf[0] = 0 := by decide +kernel

/-- Refutes O36: its last clause asks that a fault counts every answer that it drops by event 7, but `execAtomicFaultRollback` counts them after the rollback, when the strand is FAULTED,
and `countHere` counts for a resident strand only (R27); in `twoReductions` one answer is dropped. -/
theorem not_farLoadAndAtomicEvents : ¬ Obligations.FarLoadAndAtomicEvents := by
  rintro ⟨-, hatomics⟩
  obtain ⟨-, -, hrollback⟩ := hatomics twoReductions (leftReduction 1) twoReductions.me rfl rfl rfl rfl
  obtain ⟨t, e, ⟨-, -, -, -, -, -, -, hperf, -⟩, -⟩ := hrollback rfl rfl rfl rfl (by decide)
  have hrun := twoReductions_uncounted
  have e' : exec (.atomicFaultRollback 1) twoReductions = .next t := e
  rw [e'] at hrun
  exact absurd (hrun.symm.trans (hperf 0 (by decide))) (by decide +kernel)

end Sys2Proof.Machine
end

section
/-! PROOFS. Addresses and lanes of slots 5 and 6 (R202, R203): what a bundle computes is what the claims name, wherever it reads the registers as they stood at its opening. -/

namespace Sys2Proof.Machine
open Sys2Proof Claims

variable {s u : State}

/-! ## Registers as a bundle reads them -/

/-- A state in which an instruction reads the registers that the strand at issue has in another. -/
def Reads (u s : State) : Prop := ∀ r, look u r = s.me.regs.get r

theorem reads_closed (hc : Calm s) : Reads s s := fun r => look_closed s r hc.1 hc.2.1

theorem reads_inSlot (hc : Calm s) (n : Nat) : Reads (inSlot s n) s := fun r => look_inSlot s n r hc.2.1

theorem Reads.sVal (h : Reads u s) (i : BitVec 6) : rdS u i = Machine.sVal s i := by rw [rdS, h]

theorem Reads.vVal (h : Reads u s) (i : BitVec 5) : rdV u i = Machine.vVal s i := by rw [rdV, h]

theorem Reads.pVal (h : Reads u s) (i : BitVec 4) : rdP u i = Machine.pVal s i := by rw [rdP, h]

/-! ## Addresses -/

theorem ofInt_offset (o : BitVec 8) (unit : Nat) : BitVec.ofInt 64 (o.toInt * unit) = o.signExtend 64 * BitVec.ofNat 64 unit := by
  rw [BitVec.ofInt_mul, BitVec.signExtend, BitVec.ofInt_natCast]

theorem Reads.ea (h : Reads u s) (a : BitVec 6) (o : BitVec 8) (unit : Nat) : eaM u a o unit = ea s a o unit := by
  rw [eaM, Claims.ea, h.sVal, ofInt_offset]

theorem Reads.eaLane (h : Reads u s) (a : BitVec 6) (iv : BitVec 5) (t : Ty) (e : Nat) : eaG u a iv t e = eaLane s a iv t e := by
  rw [eaG, Claims.eaLane, h.sVal, h.vVal, bitsOf, Nat.shiftRight_eq_div_pow]
  rfl

theorem Reads.enabled (h : Reads u s) (g : BitVec 4) (w e : Nat) : enabled u g w e = decide (on s g w e) := by
  rw [Bool.eq_iff_iff, decide_eq_true_iff, Machine.enabled, active, h.pVal, Bool.or_eq_true, beq_iff_eq]
  rfl

/-! ## Lanes -/

/-- The lanes of a gather or scatter, each with its address if it is enabled. -/
def laneEas (s : State) (g : BitVec 4) (a : BitVec 6) (t : Ty) (iv : BitVec 5) : List (Option Word) :=
  (List.range (laneCount t)).map fun e => if on s g t.width e then some (eaLane s a iv t e) else none

theorem Reads.laneAddrs (h : Reads u s) (g : BitVec 4) (a : BitVec 6) (t : Ty) (iv : BitVec 5) : laneAddrs u g a t iv = laneEas s g a t iv := by
  refine List.map_congr_left fun e _ => ?_
  rw [h.enabled, h.eaLane]
  by_cases ho : on s g t.width e
  · rw [if_pos ho, if_pos (decide_eq_true ho)]
  · rw [if_neg ho, if_neg (by simpa using ho)]

theorem laneEas_isSome (g : BitVec 4) (a : BitVec 6) (t : Ty) (iv : BitVec 5) :
    (laneEas s g a t iv).map Option.isSome = (List.range (laneCount t)).map fun e => decide (on s g t.width e) := by
  rw [laneEas, List.map_map]
  refine List.map_congr_left fun e _ => ?_
  by_cases ho : on s g t.width e
  · simp only [Function.comp_apply, if_pos ho, decide_eq_true ho, Option.isSome_some]
  · simp only [Function.comp_apply, if_neg ho, decide_eq_false ho, Option.isSome_none]

theorem filterMap_if {α β : Type} (p : α → Prop) [DecidablePred p] (f : α → β) (l : List α) : l.filterMap (fun e => if p e then some (f e) else none) = (l.filter fun e => decide (p e)).map f := by
  induction l with
  | nil => rfl
  | cons e l ih => by_cases h : p e <;> simp [h, ih]

/-- What is made of each enabled lane's address. -/
theorem laneEas_filterMap {α : Type} (g : BitVec 4) (a : BitVec 6) (t : Ty) (iv : BitVec 5) (f : Word → α) :
    (laneEas s g a t iv).filterMap (fun ea => ea.map f) = (lanesOn s g t).map fun e => f (eaLane s a iv t e) := by
  rw [laneEas, lanesOn, List.filterMap_map, ← filterMap_if]
  refine List.filterMap_congr fun e _ => ?_
  by_cases ho : on s g t.width e
  · simp only [Function.comp_apply, if_pos ho, Option.map_some]
  · simp only [Function.comp_apply, if_neg ho, Option.map_none]

/-! ## A register obligated in a bundle -/

/-- A bundle whose slot `n` has obligated a register: the registers, the log, the semaphores and the serials of its strand are others. -/
def obliged (s : State) (p : Vector Word 8) (rd : Nat) (cs : List Core) (rg : RegFile) (lg : List LogEntry) (qq : Vector Sema 16) (sr : List (Nat × Bool)) (n : Nat) : State :=
  { opened s p rd cs n with me := { issuing s p rd with regs := rg, log := lg, q := qq, serials := sr } }

theorem obligate_opened (hc : Calm s) (p : Vector Word 8) (rd : Nat) (cs : List Core) (n : Nat) (r : RegId) : ∃ rg lg qq sr o,
    obligate (opened s p rd cs n) r false = (obliged s p rd cs rg lg qq sr n, o) ∧ (∀ z, z ∉ [r] → rg.get z = s.me.regs.get z) ∧ ((s.me.q.toList.all fun q => !q.out) = true → qq = s.me.q) ∧
    FutureReg s (obliged s p rd cs rg lg qq sr n) r o := by
  obtain ⟨lg, qq, sr, rg, o, ho, hz, hfixed, howed, hq⟩ := obligate_ex (opened s p rd cs n) r false (rotReg_idle _ _ hc.2.1) hc.2.2.2.2.2.2.1
  refine ⟨rg, lg, qq, sr, o, ho, fun z h => hz z fun e => h (List.mem_singleton.mpr e), hq, fun h => (hfixed h).1, fun h => ?_⟩
  obtain ⟨g, hg, hpending, hnew, hheld, hwindow⟩ := howed h
  exact ⟨g, hg, hpending, hnew, hheld, hwindow⟩

theorem obligate_obliged (hc : Calm s) (n : Nat) (r : RegId) : ∃ p rd cs rg lg qq sr o,
    obligate (inSlot s n) r false = (obliged s p rd cs rg lg qq sr n, o) ∧ SameEngines cs s.cores ∧ (∀ z, z ∉ [r] → rg.get z = s.me.regs.get z) ∧
    ((s.me.q.toList.all fun q => !q.out) = true → qq = s.me.q) ∧ FutureReg s (obliged s p rd cs rg lg qq sr n) r o := by
  obtain ⟨p, rd, cs, e, hcs⟩ := inSlot_issuing s n
  obtain ⟨rg, lg, qq, sr, o, ho, hz, hq, hfuture⟩ := obligate_opened hc p rd cs n r
  exact ⟨p, rd, cs, rg, lg, qq, sr, o, by rw [e, ho], hcs, hz, hq, hfuture⟩

theorem futureReg_congr {t v : State} {r : RegId} {o : Option Tag} (h : FutureReg s v r o) (hregs : t.me.regs = v.me.regs) (hser : t.me.serials = v.me.serials) : FutureReg s t r o := by
  unfold FutureReg Owed at *
  rwa [hregs, hser]

/-- A bundle that, beside registers, bookkeeping and events due, has made the difference between the state before it and `e`, closes with that frame. -/
theorem close_kept {e u : State} {n : Nat} {rs : List RegId} (hc : Calm s) (hclosing : e.me.closing = s.me.closing) (htrap : e.me.heldTrap = s.me.heldTrap) (hissue : e.issue = s.issue)
    (hopen : u.issue = some ⟨s.me.regs, s.me.h, s.me.loop, n⟩)
    (hme : u.me = { e.me with
      regs := u.me.regs, log := u.me.log, q := u.me.q, serials := u.me.serials, perf := u.me.perf, readyAt := u.me.readyAt
      st := .running, parkid := none, triedAt := u.me.triedAt, npc := s.me.pc + 32, asleep := false, waitSerial := false, bankWait := none })
    (hrest : u = { e with me := u.me, cores := u.cores, timers := u.timers, issue := u.issue })
    (hregs : RegsKept e u rs) (hq : (e.me.q.toList.all fun q => !q.out) = true → u.me.q = e.me.q) (hcs : SameEngines u.cores e.cores) :
    Kept e (closeIssue u) rs ∧ Advanced s (closeIssue u) ∧ (closeIssue u).timers = u.timers ∧ (closeIssue u).me = { u.me with choice := none, waitset := none, pc := u.me.npc } := by
  rw [closeIssue_calm hc hopen ((congrArg Strand.closing hme).trans hclosing) ((congrArg Strand.heldTrap hme).trans htrap)]
  refine ⟨⟨hregs, ⟨?_, hq⟩, ?_, hcs _ _ rfl rfl, ?_, ?_⟩, ⟨congrArg Strand.npc hme, congrArg Strand.st hme⟩, rfl, rfl⟩
  · rw [hme]
  · rw [hrest, ← hc.1, ← hissue]
  · intro a; rw [hrest]
  · intro a; rw [hrest]

end Sys2Proof.Machine
end

section
/-! PROOFS. Far loads at issue (O28): each obligates its destination, and then poisons it, fills it or sends its access away. -/

namespace Sys2Proof.Machine
open Sys2Proof Claims

variable {s : State} {i : Instr} {r : RegId} {a : Word} {u : Nat} {k : LoadKind} {ls : List (Word × Nat)}

/-! ## One effect for the three loads -/

/-- What a far load does in its slot: a misaligned one poisons its destination, another sends its accesses away (R205, R213). -/
def farLoad (v : State) (r : RegId) (a : Word) (u : Nat) (k : LoadKind) (ls : List (Word × Nat)) : State :=
  if a.toNat % u ≠ 0 then alignPoison v r else issueLoad (obligate v r false).1 (obligate v r false).2 k ls

theorem farLoad_exec (h : farLoadOf s i = some (r, a, u, k, ls)) (hr : Ready s i) : exec i s = .next (closeIssue (farLoad (inSlot s 6) r a u k ls)) := by
  have hreads := reads_inSlot hr.1 6
  unfold farLoadOf at h
  split at h
  · next g d b o z =>
    cases h
    rw [← hreads.ea]
    exact effect_operandsOnly s 6 _ _ hr rfl
  · next g d b o =>
    cases h
    rw [← hreads.ea]
    exact effect_operandsOnly s 6 _ _ hr rfl
  · next g d b t v =>
    cases h
    refine (effect_operandsOnly s 6 (.ldfg g d b t v) _ hr rfl).trans ?_
    simp only [hreads.laneAddrs, laneEas_isSome, laneEas_filterMap, hreads.sVal, hreads.vVal]
    rfl
  · cases h

/-! ## The strand's own bytes -/

/-- An entry of a range of gated bytes is the gated byte at its address. -/
theorem gatedIn_gated {t : Strand} {va : Word} {n : Nat} {b : Word × Byte} (h : b ∈ gatedIn s t va n) : gatedByte s t b.1 = some b.2 := by
  obtain ⟨j, -, hj⟩ := List.mem_filterMap.mp h
  obtain ⟨y, hy, rfl⟩ := Option.map_eq_some_iff.mp hj
  exact hy

/-- The bytes that go with an access give the gated byte of each address that it touches. -/
theorem gatedIn_find {t : Strand} {l : Word × Nat} {j : Nat} (hl : l ∈ ls) (hj : j < l.2) :
    ((ls.flatMap fun l => gatedIn s t l.1 l.2).find? fun b => b.1 == l.1 + BitVec.ofNat 64 j).map (·.2) = gatedByte s t (l.1 + BitVec.ofNat 64 j) := by
  cases hf : (ls.flatMap fun l => gatedIn s t l.1 l.2).find? fun b => b.1 == l.1 + BitVec.ofNat 64 j with
  | some b =>
    obtain ⟨l', -, hb⟩ := List.mem_flatMap.mp (List.mem_of_find?_eq_some hf)
    have haddr : b.1 = l.1 + BitVec.ofNat 64 j := by simpa using List.find?_some hf
    rw [← haddr, gatedIn_gated hb, Option.map_some]
  | none =>
    cases hg : gatedByte s t (l.1 + BitVec.ofNat 64 j) with
    | none => rfl
    | some y =>
      have hmem : (l.1 + BitVec.ofNat 64 j, y) ∈ ls.flatMap fun l => gatedIn s t l.1 l.2 :=
        List.mem_flatMap.mpr ⟨l, hl, List.mem_filterMap.mpr ⟨j, List.mem_range.mpr hj, by rw [hg, Option.map_some]⟩⟩
      exact absurd (List.find?_eq_none.mp hf _ hmem) (by simp)

/-! ## The three outcomes -/

/-- A far load that waits for its owner. -/
def sentLoad (s : State) (o : Option Tag) (k : LoadKind) (ls : List (Word × Nat)) : FarLoad :=
  { id := s.nextId, sid := s.me.sid, tag := o, window := s.me.window, kind := k, lanes := ls, gated := ls.flatMap fun l => gatedIn s s.me l.1 l.2, bound := [], remote := false, done := false, fault := none }

/-- What a far load that is sent changes beside its destination. -/
def withLoad (s : State) (o : Option Tag) (k : LoadKind) (ls : List (Word × Nat)) : State :=
  { s with me := { s.me with farLoaded := true }, farLoads := s.farLoads ++ [sentLoad s o k ls], nextId := s.nextId + 1, fresh := s.fresh + 1 }

theorem farLoad_sends (h : farLoadOf s i = some (r, a, u, k, ls)) (hr : Ready s i) (ha : a.toNat % u = 0) (hls : ls ≠ []) : ∃ t o,
    exec i s = .next t ∧ Advanced s t ∧ FutureReg s t r o ∧ t.timers = s.timers ++ [⟨s.clock + 1 + Config.delay s.fresh, .farLoadTranslate s.nextId⟩] ∧ Kept (withLoad s o k ls) t [r] := by
  obtain ⟨p, rd, cs, rg, lg, qq, sr, o, ho, hcs, hz, hq, hfuture⟩ := obligate_obliged hr.1 6 r
  let v := withLoad (obliged s p rd cs rg lg qq sr 6) o k ls
  let w : State := { v with timers := s.timers ++ [⟨s.clock + 1 + Config.delay s.fresh, .farLoadTranslate s.nextId⟩] }
  have heff : farLoad (inSlot s 6) r a u k ls = w := by
    rw [farLoad, if_neg (not_not_intro ha), ho, issueLoad, if_neg hls]
    rfl
  obtain ⟨hkept, hadv, htimers, hme⟩ := close_kept (e := withLoad s o k ls) (u := w) (rs := [r]) hr.1 rfl rfl rfl rfl rfl rfl hz hq hcs
  exact ⟨closeIssue w, o, (farLoad_exec h hr).trans (by rw [heff]), hadv, futureReg_congr hfuture (by rw [hme]; rfl) (by rw [hme]; rfl), htimers, hkept⟩

/-- A far load that ends at issue: its destination is filled, or poisoned, later. -/
theorem farLoad_fills {x : Payload} (h : farLoadOf s i = some (r, a, u, k, ls)) (hr : Ready s i)
    (hends : ∀ v o, obligate (inSlot s 6) r false = (v, o) → v.me.sid = s.me.sid → farLoad (inSlot s 6) r a u k ls = deliverLater v s.me.sid o x) : ∃ t o,
    exec i s = .next t ∧ Advanced s t ∧ FutureReg s t r o ∧ t.timers = s.timers ++ fills s o (1 + Config.delay s.fresh) x ∧ Kept { s with fresh := s.fresh + o.toList.length } t [r] := by
  obtain ⟨p, rd, cs, rg, lg, qq, sr, o, ho, hcs, hz, hq, hfuture⟩ := obligate_obliged hr.1 6 r
  let w : State := { obliged s p rd cs rg lg qq sr 6 with fresh := s.fresh + o.toList.length, timers := s.timers ++ fills s o (1 + Config.delay s.fresh) x }
  have heff : farLoad (inSlot s 6) r a u k ls = w := (hends _ o ho rfl).trans (deliverLater_fills o x rfl rfl rfl)
  obtain ⟨hkept, hadv, htimers, hme⟩ := close_kept (e := { s with fresh := s.fresh + o.toList.length }) (u := w) (rs := [r]) hr.1 rfl rfl rfl rfl rfl rfl hz hq hcs
  exact ⟨closeIssue w, o, (farLoad_exec h hr).trans (by rw [heff]), hadv, futureReg_congr hfuture (by rw [hme]) (by rw [hme]), htimers, hkept⟩

theorem farLoad_misaligned (h : farLoadOf s i = some (r, a, u, k, ls)) (hr : Ready s i) (ha : a.toNat % u ≠ 0) : ∃ t o,
    exec i s = .next t ∧ Advanced s t ∧ FutureReg s t r o ∧ t.timers = s.timers ++ fills s o (1 + Config.delay s.fresh) (.poison .align) ∧ Kept { s with fresh := s.fresh + o.toList.length } t [r] := by
  refine farLoad_fills h hr fun v o ho _ => ?_
  rw [farLoad, if_pos ha, alignPoison, inSlot_sid, ho]

theorem farLoad_nothing (h : farLoadOf s i = some (r, a, u, k, [])) (hr : Ready s i) (ha : a.toNat % u = 0) : ∃ t o,
    exec i s = .next t ∧ Advanced s t ∧ FutureReg s t r o ∧ t.timers = s.timers ++ fills s o (1 + Config.delay s.fresh) (.value (loadValue k [] fun _ => 0)) ∧
    Kept { s with fresh := s.fresh + o.toList.length } t [r] := by
  refine farLoad_fills h hr fun v o ho hsid => ?_
  rw [farLoad, if_neg (not_not_intro ha), ho, issueLoad, if_pos rfl, hsid]

/-! ## A gather without an enabled lane -/

/-- Lanes that are not enabled keep their elements. -/
theorem gather_off {α : Type} {step : List Nat × α → Bool × Nat → List Nat × α} (hstep : ∀ acc p, p.1 = false → step acc p = (acc.1 ++ [p.2], acc.2)) (ps : List (Bool × Nat))
    (acc : List Nat × α) (h : ∀ p ∈ ps, p.1 = false) : ps.foldl step acc = (acc.1 ++ ps.map (·.2), acc.2) := by
  induction ps generalizing acc with
  | nil => simp
  | cons p ps ih =>
    rw [List.foldl_cons, hstep acc p (h p List.mem_cons_self), ih _ fun q hq => h q (List.mem_cons_of_mem _ hq)]
    simp

theorem map_snd_zip_take {α β : Type} (ms : List α) (xs : List β) : (ms.zip xs).map (·.2) = xs.take ms.length := by
  induction ms generalizing xs with
  | nil => rfl
  | cons m ms ih =>
    cases xs with
    | nil => rfl
    | cons x xs => simp [ih]

/-- The value of a gather whose mask enables no lane: the old elements of its lanes, and zeros above. -/
theorem loadValue_none {t : Ty} {mask : List Bool} {old : VVal} {e : Nat} (hlen : mask.length = laneCount t) (hoff : ∀ b ∈ mask, b = false) (he : e < 1024 / t.width) :
    el t.width (loadValue (.g t mask old) [] fun _ => 0) e = if e < laneCount t then el t.width old e else 0 := by
  have hfit := elem_inside t.width e he
  have hlanes : lanesOf t = laneCount t := rfl
  unfold el
  simp only [loadValue]
  rw [gather_off (fun acc p hp => if_neg (Bool.eq_false_iff.mp hp)) _ _ fun p hp => hoff p.1 (List.of_mem_zip hp).1, ofElems_at _ _ _ hfit, List.nil_append, map_snd_zip_take, hlen, hlanes,
    List.take_take, Nat.min_self]
  by_cases h : e < laneCount t
  · rw [if_pos h, ← velems_at t.width old e he, List.getD_eq_getElem?_getD, List.getElem?_take, if_pos h, ← List.getD_eq_getElem?_getD, velems_at t.width old e he, Nat.mod_mod]
  · rw [if_neg h, List.getD_eq_getElem?_getD, List.getElem?_take, if_neg h, Option.getD_none, Nat.zero_mod]

theorem lanesOn_nil {g : BitVec 4} {t : Ty} (h : lanesOn s g t = []) (b : Bool) (hb : b ∈ (List.range (laneCount t)).map fun e => decide (on s g t.width e)) : b = false := by
  obtain ⟨e, he, rfl⟩ := List.mem_map.mp hb
  exact Bool.eq_false_iff.mpr (List.filter_eq_nil_iff.mp h e he)

theorem gather_keeps {g : BitVec 4} {d v : BitVec 5} {b : BitVec 6} {ty : Ty} (h : farLoadOf s (.ldfg g d b ty v) = some (r, a, u, k, [])) (e : Nat) (he : e < 1024 / ty.width) :
    el ty.width (loadValue k [] fun _ => 0) e = if e < laneCount ty then el ty.width (vVal s d) e else 0 := by
  simp only [farLoadOf, Option.some.injEq, Prod.mk.injEq] at h
  obtain ⟨-, -, -, hk, hlanes⟩ := h
  rw [← hk]
  exact loadValue_none (by simp) (lanesOn_nil (List.map_eq_nil_iff.mp hlanes)) he

/-- Settles O28: the address decides between the three outcomes of a far load; PREF has no effect. -/
theorem farLoads : Obligations.FarLoads := by
  intro s i r a u k ls hr _
  refine ⟨fun h _ => ⟨fun ha hls => ?_, fun ha hls => ?_, farLoad_misaligned h hr⟩, fun g b o hi => ?_⟩
  · obtain ⟨t, o, he, hadv, hfuture, htimers, hkept⟩ := farLoad_sends h hr ha hls
    exact ⟨t, o, _, he, hadv, hfuture, htimers, fun l hl j hj => gatedIn_find hl hj, hkept⟩
  · subst hls
    obtain ⟨t, o, he, hadv, hfuture, htimers, hkept⟩ := farLoad_nothing h hr ha
    refine ⟨t, o, _, he, hadv, hfuture, htimers, ?_, hkept⟩
    rintro g d b ty v rfl
    exact gather_keeps h
  · subst hi
    obtain ⟨htimers, hframe⟩ := closeIssue_inSlot hr.1 6
    exact ⟨_, effect_operandsOnly s 6 (.pref g b o) id hr rfl, htimers, hframe⟩

end Sys2Proof.Machine
end

section
/-! PROOFS. Far stores (O29): a gated byte is found under both names of its address, and a store is bytes gated in turn. -/

namespace Sys2Proof.Machine
open Sys2Proof Claims

variable {s : State} {t : Strand}

/-! ## The spelling of an address (R306) -/

/-- What is added to an address of a device to spell it with device 0xFFF, where the device is the strand's own. -/
def spelling (s : State) (d : BitVec 12) : Word := if ownDev s d then (~~~d).setWidth 64 <<< 48 else 0

theorem or_device (a : Word) : a ||| (0x0FFF000000000000 : Word) = a + (~~~(farDev a)).setWidth 64 <<< 48 := by
  have hmask : ∀ k < 64, (0x0FFF000000000000 : Word).getLsbD k = decide (48 ≤ k ∧ k < 60) := by decide
  rw [BitVec.add_eq_or_of_and_eq_zero]
  · refine BitVec.eq_of_getLsbD_eq fun k hk => ?_
    simp [farDev]
    grind
  · refine BitVec.eq_of_getLsbD_eq fun k hk => ?_
    simp [farDev]
    grind

theorem canon_eq (a : Word) : canon s a = a + spelling s (farDev a) := by
  rw [canon, isRemote, spelling]
  cases ownDev s (farDev a) with
  | true => exact or_device a
  | false => simp

/-- The claim's spelling is the model's. -/
theorem samePlace_eq (a : Word) : samePlace s a = canon s a := by
  have hown : (a.extractLsb' 48 12 = 0xFFF ∨ (s.numset = true ∧ a.extractLsb' 48 12 = s.devnum)) ↔ isRemote s a = false := by simp [isRemote, ownDev, farDev, or_iff_not_imp_left]
  rw [samePlace, canon]
  cases h : isRemote s a with
  | true => rw [if_neg fun hp => Bool.false_ne_true ((hown.mp hp).symm.trans h), if_pos rfl]
  | false => rw [if_pos (hown.mpr h)]; rfl

theorem spelling_mod (d : BitVec 12) : (spelling s d).toNat % 64 = 0 := by
  unfold spelling
  split
  · rw [BitVec.toNat_shiftLeft, Nat.shiftLeft_eq]
    omega
  · rfl

theorem canon_mod (a : Word) : (canon s a).toNat % 64 = a.toNat % 64 := by
  have h := spelling_mod (s := s) (farDev a)
  rw [canon_eq, BitVec.toNat_add]
  omega

/-- An access that stays in the low 48 bits of its address stays in its device. -/
theorem farDev_add (a : Word) (k : Nat) (h : a.toNat % 2 ^ 48 + k < 2 ^ 48) : farDev (a + BitVec.ofNat 64 k) = farDev a := by
  refine BitVec.eq_of_toNat_eq ?_
  simp only [farDev, BitVec.extractLsb'_toNat, BitVec.toNat_add, BitVec.toNat_ofNat, Nat.shiftRight_eq_div_pow]
  omega

theorem canon_add (a : Word) (k : Nat) (h : a.toNat % 2 ^ 48 + k < 2 ^ 48) : canon s (a + BitVec.ofNat 64 k) = canon s a + BitVec.ofNat 64 k := by
  rw [canon_eq, canon_eq, farDev_add a k h, add_right_comm]

/-! ## Lines -/

theorem lineOf_add (a : Word) : lineOf a + BitVec.ofNat 64 (a.toNat % 64) = a := by
  have hoff : BitVec.ofNat 64 (a.toNat % 64) = a &&& 63 := BitVec.eq_of_toNat_eq (by
    rw [BitVec.toNat_and, BitVec.toNat_ofNat, Nat.mod_eq_of_lt (by omega)]
    exact (Nat.and_two_pow_sub_one_eq_mod a.toNat 6).symm)
  rw [hoff, lineOf, BitVec.add_eq_or_of_and_eq_zero]
  · refine BitVec.eq_of_getLsbD_eq fun k hk => ?_
    simp only [BitVec.getLsbD_or, BitVec.getLsbD_and, BitVec.getLsbD_not, hk, decide_true, Bool.true_and]
    cases (63 : Word).getLsbD k <;> simp
  · refine BitVec.eq_of_getLsbD_eq fun k hk => ?_
    simp only [BitVec.getLsbD_and, BitVec.getLsbD_not, hk, decide_true, Bool.true_and]
    cases (63 : Word).getLsbD k <;> simp

theorem lineOf_mod (a : Word) : (lineOf a).toNat % 64 = 0 := by
  have h := congrArg BitVec.toNat (lineOf_add a)
  rw [BitVec.toNat_add, BitVec.toNat_ofNat] at h
  omega

/-- An address is its line's and its place in the line, however it is spelled. -/
theorem canon_lineOf (a : Word) : canon s a = canon s (lineOf a) + BitVec.ofNat 64 (a.toNat % 64) := by
  have hmod := lineOf_mod a
  rw [← canon_add (lineOf a) _ (by omega), lineOf_add]

/-- Two addresses name one byte when they name one line and stand at one place in it. -/
theorem canon_eq_iff (x y : Word) : canon s x = canon s y ↔ canon s (lineOf x) = canon s (lineOf y) ∧ x.toNat % 64 = y.toNat % 64 := by
  refine ⟨fun h => ?_, fun ⟨hline, hoff⟩ => by rw [canon_lineOf x, canon_lineOf y, hline, hoff]⟩
  have hoff : x.toNat % 64 = y.toNat % 64 := by rw [← canon_mod (s := s) x, h, canon_mod]
  rw [canon_lineOf x, canon_lineOf y, hoff] at h
  exact ⟨add_right_cancel h, hoff⟩

/-! ## The bytes of an entry -/

/-- The byte at a place of an entry that its mask covers. -/
def lineByte (g : GatedLine) (o : Nat) : Option Byte := if g.mask.toNat.testBit o then some (BitVec.ofNat 8 (g.data.toNat >>> (8 * o))) else none

theorem gatedByte_eq (x : Word) : gatedByte s t x = (t.gated.find? (holdsLine s x)).bind fun g => lineByte g (x.toNat % 64) := rfl

theorem setLineByte_mask (g : GatedLine) {o : Nat} (b : Byte) (k : Nat) (ho : o < 64) : (setLineByte g o b).mask.toNat.testBit k = (g.mask.toNat.testBit k || decide (o = k)) := by
  rw [setLineByte, BitVec.toNat_or, Nat.testBit_or, BitVec.toNat_ofNat, Nat.mod_eq_of_lt (Nat.pow_lt_pow_right (by decide) ho), Nat.testBit_two_pow]

theorem setLineByte_data (g : GatedLine) {o k : Nat} (b : Byte) (hk : k < 64) :
    BitVec.ofNat 8 ((setLineByte g o b).data.toNat >>> (8 * k)) = if o = k then b else BitVec.ofNat 8 (g.data.toNat >>> (8 * k)) := by
  refine BitVec.eq_of_getLsbD_eq fun j hj => ?_
  have hin : 8 * k + j < 512 := by omega
  have hones : (255 : Nat) = 2 ^ 8 - 1 := rfl
  rw [BitVec.getLsbD_ofNat, Nat.testBit_shiftRight, setLineByte, BitVec.testBit_toNat, BitVec.getLsbD_or, BitVec.getLsbD_and, BitVec.getLsbD_not, BitVec.getLsbD_ofNat, BitVec.getLsbD_ofNat,
    Nat.testBit_shiftLeft, Nat.testBit_shiftLeft, hones, Nat.testBit_two_pow_sub_one]
  by_cases h : o = k
  · subst h
    simp [hj, hin, BitVec.testBit_toNat]
  · rw [if_neg h, BitVec.getLsbD_ofNat, Nat.testBit_shiftRight, BitVec.testBit_toNat]
    have hout : 8 * o ≤ 8 * k + j → 8 ≤ 8 * k + j - 8 * o := by omega
    by_cases hle : 8 * o ≤ 8 * k + j
    · have h8 := hout hle
      simp [hj, hin, hle, BitVec.testBit_toNat, BitVec.getLsbD_of_ge b _ h8, Nat.not_lt.mpr h8]
    · simp [hj, hin, hle, BitVec.testBit_toNat]

theorem lineByte_setLineByte (g : GatedLine) {o k : Nat} (b : Byte) (ho : o < 64) (hk : k < 64) : lineByte (setLineByte g o b) k = if o = k then some b else lineByte g k := by
  rw [lineByte, setLineByte_mask g b k ho, setLineByte_data g b hk, lineByte]
  by_cases h : o = k <;> simp [h]

/-! ## Entries of a list -/

theorem find_updFirst_same {α : Type} {p : α → Bool} {f : α → α} (hf : ∀ x, p (f x) = p x) (l : List α) : (updFirst p f l).find? p = (l.find? p).map f := by
  induction l with
  | nil => rfl
  | cons x l ih => cases hx : p x <;> simp [updFirst, hf, hx, ih]

theorem find_updFirst_apart {α : Type} {p q : α → Bool} {f : α → α} (h : ∀ x, p x = true → q x = false ∧ q (f x) = false) (l : List α) : (updFirst p f l).find? q = l.find? q := by
  induction l with
  | nil => rfl
  | cons x l ih =>
    cases hx : p x with
    | true => simp [updFirst, hx, h x hx]
    | false => simp [updFirst, hx, ih, List.find?_cons]

/-! ## Gating -/

theorem holdsLine_same {x y : Word} (h : canon s (lineOf x) = canon s (lineOf y)) : holdsLine s x = holdsLine s y := by
  funext g
  rw [holdsLine, holdsLine, h]

theorem holdsLine_apart {x y : Word} (h : canon s (lineOf x) ≠ canon s (lineOf y)) (g : GatedLine) (hg : holdsLine s y g = true) : holdsLine s x g = false := by
  have hline : canon s g.line = canon s (lineOf y) := by simpa [holdsLine] using hg
  rw [holdsLine, hline]
  simpa using Ne.symm h

theorem gateByte_gated (va : Word) (b : Byte) : (gateByte s t va b).gated =
    if t.gated.any (holdsLine s va) then updFirst (holdsLine s va) (fun g => setLineByte g (va.toNat % 64) b) t.gated else t.gated ++ [setLineByte ⟨lineOf va, 0, 0⟩ (va.toNat % 64) b] := by
  unfold gateByte
  split <;> rfl

/-- The line of an address after a byte of it is gated: the entry that was there, or an empty one, with the byte. -/
theorem gateByte_find (va : Word) (b : Byte) :
    (gateByte s t va b).gated.find? (holdsLine s va) = some (setLineByte ((t.gated.find? (holdsLine s va)).getD ⟨lineOf va, 0, 0⟩) (va.toNat % 64) b) := by
  cases hany : t.gated.any (holdsLine s va) with
  | true =>
    obtain ⟨g, hg⟩ := Option.isSome_iff_exists.mp (List.find?_isSome.mpr (List.any_eq_true.mp hany))
    rw [gateByte_gated, if_pos hany, find_updFirst_same (f := fun g => setLineByte g (va.toNat % 64) b) fun x => rfl, hg]
    rfl
  | false =>
    have hnone : t.gated.find? (holdsLine s va) = none := List.find?_eq_none.mpr (List.any_eq_false.mp hany)
    have hnew : holdsLine s va (setLineByte ⟨lineOf va, 0, 0⟩ (va.toNat % 64) b) = true := beq_self_eq_true _
    rw [gateByte_gated, if_neg (Bool.eq_false_iff.mp hany), List.find?_append, hnone, Option.none_or, List.find?_singleton, if_pos hnew]
    rfl

/-- The entries of other lines stay. -/
theorem gateByte_find_apart {va x : Word} (b : Byte) (h : canon s (lineOf x) ≠ canon s (lineOf va)) : (gateByte s t va b).gated.find? (holdsLine s x) = t.gated.find? (holdsLine s x) := by
  cases hany : t.gated.any (holdsLine s va) with
  | true =>
    rw [gateByte_gated, if_pos hany]
    exact find_updFirst_apart (f := fun g => setLineByte g (va.toNat % 64) b) (fun g hg => ⟨holdsLine_apart h g hg, holdsLine_apart h g hg⟩) _
  | false =>
    have hnew : holdsLine s x (setLineByte ⟨lineOf va, 0, 0⟩ (va.toNat % 64) b) = false := holdsLine_apart h _ (beq_self_eq_true _)
    rw [gateByte_gated, if_neg (Bool.eq_false_iff.mp hany), List.find?_append, List.find?_singleton, hnew, if_neg Bool.false_ne_true, Option.or_none]

/-- A byte that is gated stands at its address, under either name; every other gated byte stays (R212, R306). -/
theorem gatedByte_gateByte (va x : Word) (b : Byte) : gatedByte s (gateByte s t va b) x = if canon s x = canon s va then some b else gatedByte s t x := by
  have hoff (a : Word) : a.toNat % 64 < 64 := Nat.mod_lt _ (by decide)
  rw [gatedByte_eq, gatedByte_eq]
  by_cases hline : canon s (lineOf x) = canon s (lineOf va)
  · rw [holdsLine_same hline, gateByte_find, Option.bind_some, lineByte_setLineByte _ b (hoff va) (hoff x)]
    by_cases hx : va.toNat % 64 = x.toNat % 64
    · rw [if_pos hx, if_pos ((canon_eq_iff x va).mpr ⟨hline, hx.symm⟩)]
    · rw [if_neg hx, if_neg fun h => hx ((canon_eq_iff x va).mp h).2.symm]
      cases t.gated.find? (holdsLine s va) with
      | some g => rfl
      | none => simp [lineByte]
  · rw [gateByte_find_apart b hline, if_neg fun h => hline ((canon_eq_iff x va).mp h).1]

theorem toNat_sub_succ {x y : Word} (h : x ≠ y) : (x - y).toNat = (x - (y + 1)).toNat + 1 := by bv_omega

theorem toNat_self_sub_succ (y : Word) : (y - (y + 1)).toNat = 2 ^ 64 - 1 := by bv_omega

/-- Bytes gated from an address on, in one device: each stands at its place (R212). -/
theorem gatedByte_gateBytes (bs : List Byte) (va x : Word) (hlen : bs.length < 2 ^ 64) (hdev : ∀ k < bs.length, canon s (va + BitVec.ofNat 64 k) = canon s va + BitVec.ofNat 64 k) :
    gatedByte s (gateBytes s t va bs) x = if (canon s x - canon s va).toNat < bs.length then bs[(canon s x - canon s va).toNat]? else gatedByte s t x := by
  induction bs generalizing t va with
  | nil => rfl
  | cons b bs ih =>
    have hsucc (w : Word) (k : Nat) : w + 1 + BitVec.ofNat 64 k = w + BitVec.ofNat 64 (k + 1) := by rw [BitVec.ofNat_add, add_assoc, add_comm 1]; rfl
    have hone (h : 0 < bs.length) : canon s (va + 1) = canon s va + 1 := hdev 1 (Nat.succ_lt_succ h)
    have hnext (k : Nat) (hk : k < bs.length) : canon s (va + 1 + BitVec.ofNat 64 k) = canon s (va + 1) + BitVec.ofNat 64 k := by
      rw [hsucc, hdev (k + 1) (Nat.succ_lt_succ hk), hone (Nat.zero_lt_of_lt hk), hsucc]
    rw [gateBytes, ih (t := gateByte s t va b) (va + 1) (Nat.lt_of_succ_lt hlen) hnext, gatedByte_gateByte]
    by_cases hempty : bs.length = 0
    · obtain rfl := List.length_eq_zero_iff.mp hempty
      have hzero : (canon s x - canon s va).toNat < 1 ↔ canon s x = canon s va := by bv_omega
      by_cases hx : canon s x = canon s va
      · simp [hx]
      · rw [List.length_nil, List.length_singleton, if_neg (Nat.not_lt_zero _), if_neg hx, if_neg fun h => hx (hzero.mp h)]
    · rw [hone (Nat.pos_of_ne_zero hempty)]
      by_cases hx : canon s x = canon s va
      · rw [hx, toNat_self_sub_succ, if_neg (by simp only [List.length_cons] at hlen; omega), if_pos rfl]
        simp
      · rw [if_neg hx, toNat_sub_succ hx]
        simp only [List.length_cons, Nat.add_lt_add_iff_right, List.getElem?_cons_succ]

/-! ## The data of a store (R346) -/

theorem wbits_eq (w : Word) (lo n : Nat) : wbits w lo n = (w.extractLsb' lo n).toNat := by simp [wbits, bitsOf]

/-- Byte `k` of a value, of its number's low bytes. -/
theorem byteOf_mod (x : VVal) {n k : Nat} (h : k < n) : BitVec.ofNat 8 (x.toNat % 2 ^ (8 * n) / 256 ^ k) = byteOf x k := by
  have hpow : (256 : Nat) ^ k = 2 ^ (8 * k) := by norm_num [pow_mul]
  refine BitVec.eq_of_getLsbD_eq fun j hj => ?_
  have hin : 8 * k + j < 8 * n := by omega
  rw [hpow, BitVec.getLsbD_ofNat, ← Nat.shiftRight_eq_div_pow, Nat.testBit_shiftRight, Nat.testBit_mod_two_pow, BitVec.getLsbD_extractLsb', BitVec.testBit_toNat]
  simp [hj, hin]

/-- FAULTINJ after the next store (R346). -/
def spent (t : Strand) : Word := if ordinalOf t.faultinj ≠ 0 ∧ t.storeCount + 1 = ordinalOf t.faultinj then t.faultinj &&& 0xFFFFFFFF00000003 else t.faultinj

/-- The strand that counts a store. -/
theorem injectStore_strand (x n : Nat) : (injectStore s t x n).2 = { t with storeCount := t.storeCount + 1, faultinj := spent t } := by
  unfold injectStore
  simp only [wbits_eq]
  by_cases h : ordinalOf t.faultinj ≠ 0 ∧ t.storeCount + 1 = ordinalOf t.faultinj
  · rw [show spent t = t.faultinj &&& 0xFFFFFFFF00000003 from if_pos h]
    exact congrArg Prod.snd (if_pos h)
  · rw [show spent t = t.faultinj from if_neg h]
    exact congrArg Prod.snd (if_neg h)

/-- The bytes that it gates are those of the claim. -/
theorem injectStore_bytes {h : Gang} {x : VVal} {n k : Nat} (hg : gangOf s s.me = some h) (hk : k < n) :
    BitVec.ofNat 8 ((injectStore s s.me (x.toNat % 2 ^ (8 * n)) n).1 / 256 ^ k) = byteOf (injected s h n x) k := by
  have hbit : (s.me.faultinj.extractLsb' 32 6).toNat % (8 * min n 8) < 8 * n := (Nat.mod_lt _ (by omega)).trans_le (by omega)
  have hbit' : (s.me.faultinj.extractLsb' 32 6).toNat % (8 * min n 8) < 1024 := (Nat.mod_lt _ (by omega)).trans_le (by omega)
  unfold injectStore injected ordinalOf
  simp only [wbits_eq, hg]
  generalize (s.me.faultinj.extractLsb' 32 6).toNat % (8 * min n 8) = b at *
  have hflip : x.toNat % 2 ^ (8 * n) ^^^ 2 ^ b = (x ^^^ BitVec.ofNat 1024 (2 ^ b)).toNat % 2 ^ (8 * n) := by
    rw [BitVec.toNat_xor, BitVec.toNat_ofNat, Nat.mod_eq_of_lt (Nat.pow_lt_pow_right Nat.one_lt_two hbit'), Nat.xor_mod_two_pow, Nat.mod_eq_of_lt (Nat.pow_lt_pow_right (by decide) hbit)]
  by_cases hfires : (s.me.faultinj.extractLsb' 2 30).toNat ≠ 0 ∧ s.me.storeCount + 1 = (s.me.faultinj.extractLsb' 2 30).toNat
  · rw [if_pos hfires]
    by_cases hi : h.ridx.toNat = (s.me.faultinj.extractLsb' 0 2).toNat
    · rw [if_pos hi, if_pos ⟨hfires.1, hfires.2, hi⟩, hflip, byteOf_mod _ hk]
    · rw [if_neg hi, if_neg fun hp => hi hp.2.2, byteOf_mod _ hk]
  · rw [if_neg hfires, if_neg fun hp => hfires ⟨hp.1, hp.2.1⟩, byteOf_mod _ hk]

/-! ## The stores -/

theorem gateBytes_eq (va : Word) (bs : List Byte) : gateBytes s t va bs = { t with gated := (gateBytes s t va bs).gated } := by
  induction bs generalizing t va with
  | nil => rfl
  | cons b bs ih =>
    rw [gateBytes, ih]
    unfold gateByte
    split <;> rfl

variable {i : Instr} {h : Gang} {a : Word} {n : Nat} {x : VVal}

/-- The sizes of far stores. -/
theorem farStore_size (hs : farStoreOf s i = some (a, n, x)) : n ∣ 2 ^ 48 ∧ 0 < n ∧ n ≤ 128 := by
  unfold farStoreOf at hs
  split at hs
  · next z => cases hs; cases z <;> decide
  · cases hs; decide
  · cases hs

/-- An aligned store stays in its device. -/
theorem farStore_device (hs : farStoreOf s i = some (a, n, x)) (ha : a.toNat % n = 0) (k : Nat) (hk : k < n) : canon s (a + BitVec.ofNat 64 k) = canon s a + BitVec.ofNat 64 k := by
  obtain ⟨⟨m, hm⟩, -, -⟩ := farStore_size hs
  have hdvd : n ∣ a.toNat % 2 ^ 48 := (Nat.dvd_mod_iff ⟨m, hm⟩).mpr (Nat.dvd_of_mod_eq_zero ha)
  obtain ⟨q, hq⟩ := hdvd
  have hlt : n * q < n * m := by rw [← hq, ← hm]; exact Nat.mod_lt _ (by decide)
  have hstep : n * (q + 1) ≤ n * m := Nat.mul_le_mul_left _ (Nat.lt_of_mul_lt_mul_left hlt)
  refine canon_add a k ?_
  rw [hq, hm]
  rw [Nat.mul_succ] at hstep
  omega

/-- What stops a far store: its address alone (R205). -/
theorem farStore_far (hs : farStoreOf s i = some (a, n, x)) (hc : Calm s) : farTrap s i = if a.toNat % n == 0 then none else some (.align, a) := by
  have hreads := reads_closed hc
  unfold farStoreOf at hs
  split at hs
  · next g d b o z => cases hs; rw [← hreads.ea]; rfl
  · next g d b o => cases hs; rw [← hreads.ea]; rfl
  · cases hs

/-- The rest of its issue needs no operand (R24, R204, R223). -/
theorem farStore_plain (hs : farStoreOf s i = some (a, n, x)) : slotIndex i = some 6 ∧ beforeSources s i = none ∧ afterSources s 6 i = none ∧ nearSpans s i = ([], 1) ∧ arrayOf s i = none ∧
    (∀ g, xferTrap s g i = none) ∧ nestStop s (6, i) = none ∧ ∀ g, banksWanted s g i = [] := by
  unfold farStoreOf at hs
  split at hs
  · exact ⟨rfl, rfl, rfl, rfl, rfl, fun _ => rfl, rfl, fun _ => rfl⟩
  · exact ⟨rfl, rfl, rfl, rfl, rfl, fun _ => rfl, rfl, fun _ => rfl⟩
  · cases hs

theorem newLines_le (va : Word) (k : Nat) : newLines s t va k ≤ 2 := by
  have hmiss (l : Word) : (if t.gated.any (holdsLine s l) then 0 else 1) ≤ 1 := by split <;> decide
  unfold newLines
  simp only
  split
  · exact (hmiss _).trans (by decide)
  · exact Nat.add_le_add (hmiss _) (hmiss _)

theorem farStore_lines (hs : farStoreOf s i = some (a, n, x)) : linesNeeded s i ≤ 2 := by
  unfold farStoreOf at hs
  split at hs
  · exact newLines_le _ _
  · exact newLines_le _ _
  · cases hs

theorem farStore_access (hs : farStoreOf s i = some (a, n, x)) (hc : Calm s) (hg : gangOf s s.me = some h) :
    accessTrap s (6, i) = if a.toNat % n == 0 then none else some (.trap .align 64 0 a) := by
  obtain ⟨-, -, -, hspans, harray, hxfer, -⟩ := farStore_plain hs
  have hplain : accessTrap s (6, i) = ((nearTrap s h i).map fun x => .trap x.1 (slotBit 6) 0 x.2).or (((arrayTrap s h i).map fun x => .trap x.1 (slotBit 6) 0 x.2).or
      (((farTrap s i).map fun x => .trap x.1 (slotBit 6) 0 x.2).or ((xferTrap s h i).map fun x => .trap x.1 (slotBit 6) x.2.1 x.2.2))) := by
    unfold accessTrap
    simp only [hg]
    unfold farStoreOf at hs
    split at hs
    · rfl
    · rfl
    · cases hs
  have hnear : nearTrap s h i = none := by simp [nearTrap, hspans]
  have hcommand : arrayTrap s h i = none := by simp [arrayTrap, harray]
  rw [hplain, hnear, hcommand, hxfer, farStore_far hs hc]
  cases a.toNat % n == 0 <;> rfl

theorem farStore_hold (hs : farStoreOf s i = some (a, n, x)) (hc : Calm s) : slotHold s (6, i) = none := by
  have ha : s.me.acqFence = [] := hc.2.2.2.2.1
  unfold slotHold
  simp only [ha, List.isEmpty_nil, Bool.not_true, Bool.and_false, Bool.false_eq_true, if_false]
  unfold farStoreOf at hs
  split
  · rfl
  · split at hs
    · rfl
    · rfl
    · cases hs

theorem farStore_exec (hs : farStoreOf s i = some (a, n, x)) (hr : Ready s i) (hg : gangOf s s.me = some h) (ha : a.toNat % n = 0) : ∃ opc sub,
    exec i s = .next (closeIssue (gateStore (inSlot s 6) opc sub a n (x.toNat % 2 ^ (8 * n)))) := by
  obtain ⟨-, hbefore, hafter, -, -, -, hnest, hbanks⟩ := farStore_plain hs
  have haccess : accessTrap s (6, i) = none := by rw [farStore_access hs hr.1 hg, if_pos (by simpa using ha)]
  have hstop := stop_ready s 6 i hr hbefore hafter haccess (farStore_hold hs hr.1) ((farStore_lines hs).trans (by decide)) hnest (bankStop_none s 6 i hbanks)
  have hreads := reads_inSlot hr.1 6
  unfold farStoreOf at hs
  split at hs
  · next g d b o z =>
    cases hs
    refine ⟨2, (szCode z).toNat, (effect_of s 6 (.stf g d b o z) _ hr.1 hr.2.1 hstop).trans ?_⟩
    have hwide : ((sVal s d).setWidth 1024).toNat = (sVal s d).toNat := BitVec.toNat_setWidth_of_le (by decide)
    rw [hreads.ea, hreads.sVal, hwide]
  · next g d b o =>
    cases hs
    refine ⟨4, 4, (effect_of s 6 (.stfv g d b o) _ hr.1 hr.2.1 hstop).trans ?_⟩
    rw [hreads.ea, hreads.vVal, Nat.mod_eq_of_lt (vVal s d).isLt]
  · cases hs

theorem farStore_misaligned (hs : farStoreOf s i = some (a, n, x)) (hr : Ready s i) (hg : gangOf s s.me = some h) (ha : a.toNat % n ≠ 0) :
    exec i s = .next (takeTrap s .align 64 0 a) := by
  obtain ⟨hslot, hbefore, hafter, -⟩ := farStore_plain hs
  have haccess : accessTrap s (6, i) = some (.trap .align 64 0 a) := by rw [farStore_access hs hr.1 hg, if_neg (by simpa using ha)]
  have hsrc : ∀ r ∈ readsOf i ++ examinedOf i, isFull s r := fun r hm => hr.2.2 r (by simp only [List.mem_append] at hm ⊢; tauto)
  rw [exec_stopped hslot hr.1.1 (stop_access s 6 i _ hr.1 hr.2.1 hsrc hbefore hafter haccess)]
  rfl

/-! ## The whole bundle -/

/-- The store in its slot: the strand gates its bytes, and the store is counted. -/
theorem gateStore_unreplicated {v : State} (hu : replicated v v.me = false) (opc sub y : Nat) :
    gateStore v opc sub a n y = withMe v { v.me with
      storeCount := v.me.storeCount + 1, faultinj := spent v.me
      gated := (gateBytes v { v.me with storeCount := v.me.storeCount + 1, faultinj := spent v.me } a (leBytes n (injectStore v v.me y n).1)).gated } := by
  simp only [gateStore]
  rw [injectStore_strand, gateBytes_eq]
  exact if_neg (ne_true_of_eq_false hu)

theorem farStore_gates (hs : farStoreOf s i = some (a, n, x)) (hr : Ready s i) (hg : gangOf s s.me = some h) (hu : replicated s s.me = false) (ha : a.toNat % n = 0) : ∃ t, exec i s = .next t ∧
    Advanced s t ∧ t.timers = s.timers ∧
    (∀ b, gatedByte t t.me b = if (canon s b - canon s a).toNat < n then some (byteOf (injected s h n x) (canon s b - canon s a).toNat) else gatedByte s s.me b) ∧ t.me.faultinj = spent s.me ∧
    Kept (withMe s { s.me with gated := t.me.gated, storeCount := s.me.storeCount + 1, faultinj := t.me.faultinj }) t [] := by
  obtain ⟨opc, sub, hexec⟩ := farStore_exec hs hr hg ha
  obtain ⟨p, rd, cs, e, hcs⟩ := inSlot_issuing s 6
  let v := opened s p rd cs 6
  let w : Strand := { v.me with storeCount := v.me.storeCount + 1, faultinj := spent v.me }
  let bs := leBytes n (injectStore v v.me (x.toNat % 2 ^ (8 * n)) n).1
  let u := withMe v { w with gated := (gateBytes v w a bs).gated }
  have heff : gateStore (inSlot s 6) opc sub a n (x.toNat % 2 ^ (8 * n)) = u := by rw [e]; exact gateStore_unreplicated (v := v) hu opc sub _
  obtain ⟨hkept, hadv, htimers, hme⟩ := close_kept (e := withMe s { s.me with gated := u.me.gated, storeCount := s.me.storeCount + 1, faultinj := spent s.me }) (u := u) (rs := []) hr.1 rfl rfl rfl rfl rfl rfl
    (fun _ _ => rfl) (fun _ => rfl) hcs
  obtain ⟨-, hsmall, hlarge⟩ := farStore_size hs
  have hlen : bs.length = n := leBytes_length _ _
  have hgated (b : Word) : gatedByte v (gateBytes v w a bs) b =
      if (canon s b - canon s a).toNat < n then some (byteOf (injected s h n x) (canon s b - canon s a).toNat) else gatedByte s s.me b := by
    rw [gatedByte_gateBytes bs a b (by rw [hlen]; omega) (by rw [hlen]; exact farStore_device hs ha), hlen]
    show (if (canon s b - canon s a).toNat < n then bs[(canon s b - canon s a).toNat]? else gatedByte s s.me b) = _
    by_cases hk : (canon s b - canon s a).toNat < n
    · rw [if_pos hk, if_pos hk, leBytes_get, if_pos hk, injectStore_bytes (s := v) hg hk]
      rfl
    · rw [if_neg hk, if_neg hk]
  refine ⟨closeIssue u, by rw [hexec, heff], hadv, htimers, fun b => ?_, by rw [hme]; rfl, ?_⟩
  · rw [← hgated b, closeIssue_calm (u := u) hr.1 rfl rfl rfl]
    rfl
  · rw [hme]
    exact hkept

/-- Settles O29: an aligned store gates its bytes one by one, and `spent` says what it leaves of FAULTINJ; a misaligned one stops its bundle. -/
theorem farStores : Obligations.FarStores := by
  intro s i h a n x hg hs hr hu
  refine ⟨fun ha => ?_, farStore_misaligned hs hr hg⟩
  obtain ⟨t, hexec, hadv, htimers, hgated, hspent, hkept⟩ := farStore_gates hs hr hg hu ha
  refine ⟨t, hexec, hadv, htimers, fun b => ?_, fun hf => ?_, fun hf => ?_, hkept⟩
  · rw [samePlace_eq, samePlace_eq, hgated]
  · exact hspent.trans (if_pos hf)
  · exact hspent.trans (if_neg hf)

end Sys2Proof.Machine
end

section
/-! PROOFS. Near memory as a job reads it (R303): a write puts its bytes there, and leaves every other byte, whatever units change hands. -/

namespace Sys2Proof.Machine
open Sys2Proof Claims

variable {s : State} {job a b : Nat}

/-! ## Units -/

theorem unitIs_unit {c : Nat} (h : b / 4096 = c / 4096) : unitIs s job b = unitIs s job c := by rw [unitIs, unitIs, h]

theorem takeUnit_own (h : unitIs s job a = true) : takeUnit job s a = s := if_pos h

theorem takeUnit_taken (h : unitIs s job a = false) :
    takeUnit job s a = { s with near := s.near.write (a / 4096 * 4096) (List.replicate 4096 0), unitJob := putKey Prod.fst (a / 4096, job) s.unitJob } := if_neg (Bool.eq_false_iff.mp h)

theorem unitIs_takeUnit_same (h : b / 4096 = a / 4096) : unitIs (takeUnit job s a) job b = true := by
  cases hu : unitIs s job a with
  | true => rw [takeUnit_own hu, unitIs_unit h, hu]
  | false =>
    rw [takeUnit_taken hu, unitIs, h]
    exact beq_iff_eq.mpr (find_putKey_same Prod.fst (a / 4096, job) s.unitJob)

theorem unitIs_takeUnit_other {j : Nat} (h : b / 4096 ≠ a / 4096) : unitIs (takeUnit job s a) j b = unitIs s j b := by
  cases hu : unitIs s job a with
  | true => rw [takeUnit_own hu]
  | false =>
    rw [takeUnit_taken hu, unitIs, unitIs]
    exact congrArg (· == some (b / 4096, j)) (find_putKey_other Prod.fst (a / 4096, job) s.unitJob h)

theorem read_takeUnit_other (hwf : s.near.wf = true) (h : b / 4096 ≠ a / 4096) : (takeUnit job s a).near.read b = s.near.read b := by
  cases hu : unitIs s job a with
  | true => rw [takeUnit_own hu]
  | false =>
    rw [takeUnit_taken hu]
    exact read_write_out hwf (by rw [List.length_replicate]; omega)

/-- A unit that changes hands reads as zeros both before, since another job wrote it last, and after. -/
theorem nearByte_takeUnit (hwf : s.near.wf = true) : nearByte (takeUnit job s a) job b = nearByte s job b := by
  cases hu : unitIs s job a with
  | true => rw [takeUnit_own hu]
  | false =>
    by_cases h : b / 4096 = a / 4096
    · have hzero : (takeUnit job s a).near.read b = 0 := by
        have hplace : b = a / 4096 * 4096 + b % 4096 := by omega
        rw [takeUnit_taken hu, hplace, read_write_in hwf (by rw [List.length_replicate]; omega)]
        exact List.getElem_replicate _
      rw [nearByte, nearByte, unitIs_takeUnit_same h, unitIs_unit h, hu, hzero, if_pos rfl, if_neg Bool.false_ne_true]
    · rw [nearByte, nearByte, unitIs_takeUnit_other h, read_takeUnit_other hwf h]

theorem unitIs_takeUnit_mono (h : unitIs s job b = true) : unitIs (takeUnit job s a) job b = true := by
  by_cases hu : b / 4096 = a / 4096
  · exact unitIs_takeUnit_same hu
  · rw [unitIs_takeUnit_other hu, h]

/-- The units of a range, taken in turn. -/
theorem takeUnits_spec (us : List Nat) (hwf : s.near.wf = true) :
    (us.foldl (takeUnit job) s).near.wf = true ∧ (∀ b, nearByte (us.foldl (takeUnit job) s) job b = nearByte s job b) ∧
    (∀ b, (unitIs s job b = true ∨ ∃ u ∈ us, b / 4096 = u / 4096) → unitIs (us.foldl (takeUnit job) s) job b = true) ∧
    ∀ b, (∀ u ∈ us, b / 4096 ≠ u / 4096) → (us.foldl (takeUnit job) s).near.read b = s.near.read b := by
  induction us generalizing s with
  | nil => exact ⟨hwf, fun _ => rfl, fun b h => h.elim id fun ⟨u, hu, _⟩ => absurd hu List.not_mem_nil, fun _ _ => rfl⟩
  | cons u us ih =>
    obtain ⟨hwf', hbyte, hunit, hread⟩ := ih (s := takeUnit job s u) ((takeUnit_spec job s u).2 hwf)
    refine ⟨hwf', fun b => (hbyte b).trans (nearByte_takeUnit hwf), fun b h => hunit b ?_, fun b h => ?_⟩
    · rcases h with h | ⟨v, hv, he⟩
      · exact .inl (unitIs_takeUnit_mono h)
      · rcases List.mem_cons.mp hv with rfl | hv
        · exact .inl (unitIs_takeUnit_same he)
        · exact .inr ⟨v, hv, he⟩
    · rw [List.foldl_cons, hread b fun v hv => h v (List.mem_cons_of_mem _ hv), read_takeUnit_other hwf (h u List.mem_cons_self)]

theorem mem_unitsOf {n : Nat} (hn : 0 < n) (u : Nat) : u ∈ unitsOf a n ↔ u % 4096 = 0 ∧ a / 4096 ≤ u / 4096 ∧ u / 4096 ≤ (a + n - 1) / 4096 := by
  have hle : a / 4096 ≤ (a + n - 1) / 4096 := Nat.div_le_div_right (by omega)
  rw [unitsOf, if_neg (Nat.pos_iff_ne_zero.mp hn), List.mem_map]
  constructor
  · rintro ⟨k, hk, rfl⟩
    have := List.mem_range.mp hk
    omega
  · rintro ⟨h0, h1, h2⟩
    exact ⟨u / 4096 - a / 4096, List.mem_range.mpr (by omega), by omega⟩

/-! ## A write -/

/-- The bytes of a write, where the job reads them. -/
theorem nearByte_nearWrite (hwf : s.near.wf = true) (bs : List Byte) :
    nearByte (nearWrite s job a bs) job b = if a ≤ b ∧ b < a + bs.length then bs.getD (b - a) 0 else nearByte s job b := by
  by_cases hbs : bs = []
  · subst hbs
    rw [nearWrite, if_pos rfl, if_neg (by simp only [List.length_nil]; omega)]
  · have hpos : 0 < bs.length := List.length_pos_iff.mpr hbs
    obtain ⟨hwf', hbyte, hunit, -⟩ := takeUnits_spec (job := job) (unitsOf a bs.length) hwf
    rw [nearWrite, if_neg hbs]
    by_cases hin : a ≤ b ∧ b < a + bs.length
    · have hu : unitIs ((unitsOf a bs.length).foldl (takeUnit job) s) job b = true :=
        hunit b (.inr ⟨b / 4096 * 4096, (mem_unitsOf hpos _).mpr (by omega), by omega⟩)
      have hplace : b = a + (b - a) := by omega
      rw [if_pos hin, nearByte]
      refine (if_pos hu).trans ?_
      rw [List.getD_eq_getElem _ _ (by omega)]
      conv_lhs => rw [hplace]
      exact read_write_in hwf' (by omega)
    · rw [if_neg hin, ← hbyte b, nearByte, nearByte]
      exact congrArg (fun x => if unitIs ((unitsOf a bs.length).foldl (takeUnit job) s) job b then x else 0) (read_write_out hwf' hin)

theorem nearWrite_wf (hwf : s.near.wf = true) (bs : List Byte) : (nearWrite s job a bs).near.wf = true := (nearWrite_spec s job a bs).2 hwf

/-- Bytes of other units stand as they did, whoever reads them. -/
theorem read_nearWrite_other (hwf : s.near.wf = true) (bs : List Byte) (h : b / 4096 < a / 4096 ∨ (a + bs.length - 1) / 4096 < b / 4096) : (nearWrite s job a bs).near.read b = s.near.read b := by
  by_cases hbs : bs = []
  · rw [nearWrite, if_pos hbs]
  · have hpos : 0 < bs.length := List.length_pos_iff.mpr hbs
    obtain ⟨hwf', -, -, hread⟩ := takeUnits_spec (job := job) (unitsOf a bs.length) hwf
    rw [nearWrite, if_neg hbs, ← hread b fun u hu => by have := (mem_unitsOf hpos u).mp hu; omega]
    exact read_write_out hwf' (by omega)

/-! ## Reads -/

theorem nearBytes_eq (hwf : s.near.wf = true) (n : Nat) : nearBytes s job a n = (List.range n).map fun k => nearByte s job (a + k) := by
  rw [nearBytes, bytes_eq hwf]
  refine List.ext_getElem (by simp) fun k h1 h2 => ?_
  simp [nearByte]

theorem leNat_nearBytes (hwf : s.near.wf = true) (n : Nat) : leNat (nearBytes s job a n) = elementAt s job a n := by rw [nearBytes_eq hwf, ← little_eq, elementAt]

/-- An element is what its bytes make. -/
theorem elementAt_congr {u : State} {n : Nat} (h : ∀ k, k < n → nearByte u job (a + k) = nearByte s job (a + k)) : elementAt u job a n = elementAt s job a n :=
  congrArg little (List.map_congr_left fun k hk => h k (List.mem_range.mp hk))

/-- An element that is written is read back. -/
theorem elementAt_nearWrite (hwf : s.near.wf = true) (n y : Nat) : elementAt (nearWrite s job a (leBytes n y)) job a n = y % 256 ^ n := by
  have hbytes : ((List.range n).map fun k => nearByte (nearWrite s job a (leBytes n y)) job (a + k)) = leBytes n y := by
    refine List.ext_getElem (by simp [leBytes_length]) fun k h1 h2 => ?_
    rw [List.getElem_map, List.getElem_range, nearByte_nearWrite hwf, if_pos (by omega), Nat.add_sub_cancel_left, List.getD_eq_getElem _ _ h2]
  rw [elementAt, hbytes, little_eq, leNat_leBytes]

/-! ## Bytes and their number -/

theorem leNat_lt (bs : List Byte) : leNat bs < 256 ^ bs.length := by
  induction bs with
  | nil => decide
  | cons b bs ih =>
    have := b.isLt
    rw [leNat, List.length_cons, Nat.pow_succ]
    omega

theorem elementAt_lt (n : Nat) : elementAt s job a n < 256 ^ n := by
  have h := leNat_lt ((List.range n).map fun j => nearByte s job (a + j))
  rwa [List.length_map, List.length_range, ← little_eq] at h

theorem leNat_byte (bs : List Byte) (k : Nat) : BitVec.ofNat 8 (leNat bs / 256 ^ k) = bs.getD k 0 := by
  induction bs generalizing k with
  | nil => simp [leNat]
  | cons b bs ih =>
    have hb := b.isLt
    cases k with
    | zero =>
      refine BitVec.eq_of_toNat_eq ?_
      simp only [leNat, Nat.pow_zero, Nat.div_one, BitVec.toNat_ofNat, List.getD_cons_zero]
      omega
    | succ k =>
      have hdiv : leNat (b :: bs) / 256 = leNat bs := by
        rw [leNat]
        omega
      rw [List.getD_cons_succ, ← ih k, Nat.pow_succ', ← Nat.div_div_eq_div_mul, hdiv]

/-- Byte `k` of a number. -/
theorem byteOf_ofNat (y : Nat) {k : Nat} (h : k < 128) : byteOf (BitVec.ofNat 1024 y) k = BitVec.ofNat 8 (y / 256 ^ k) := by
  have hpow : (256 : Nat) ^ k = 2 ^ (8 * k) := by norm_num [pow_mul]
  refine BitVec.eq_of_getLsbD_eq fun j hj => ?_
  have hin : 8 * k + j < 1024 := by omega
  rw [hpow, BitVec.getLsbD_ofNat, ← Nat.shiftRight_eq_div_pow, Nat.testBit_shiftRight, BitVec.getLsbD_extractLsb', BitVec.getLsbD_ofNat]
  simp [hj, hin]

/-- The bytes of a list, as a value holds them. -/
theorem byteOf_leNat (bs : List Byte) {k : Nat} (h : k < 128) : byteOf (BitVec.ofNat 1024 (leNat bs)) k = bs.getD k 0 := by rw [byteOf_ofNat _ h, leNat_byte]

end Sys2Proof.Machine
end

section
/-! PROOFS. An f32 sum is 32 bits (R71): the bits of a finite value no greater than the greatest of the type. -/

namespace Sys2Proof.Machine
open Sys2Proof Claims

/-- A mantissa shifted so that its top bit stands at place `k` or below. -/
theorem shiftZ_lt {m k : Nat} {z : Int} (h : (Nat.log2 m : Int) + z < k) : shiftZ m z < 2 ^ k := by
  have hm : m < 2 ^ (Nat.log2 m + 1) := Nat.lt_log2_self
  unfold shiftZ
  split
  · next hz =>
    rw [Nat.shiftLeft_eq]
    calc m * 2 ^ z.toNat < 2 ^ (Nat.log2 m + 1) * 2 ^ z.toNat := Nat.mul_lt_mul_of_pos_right hm (by positivity)
      _ = 2 ^ (Nat.log2 m + 1 + z.toNat) := (Nat.pow_add ..).symm
      _ ≤ 2 ^ k := Nat.pow_le_pow_right (by decide) (by omega)
  · next hz =>
    rw [Nat.shiftRight_eq_div_pow]
    refine Nat.div_lt_of_lt_mul (hm.trans_le ?_)
    rw [← Nat.pow_add]
    exact Nat.pow_le_pow_right (by decide) (by omega)

/-- A value that is not above the greatest f32 has an exponent of at most 127. -/
theorem exponent_le {d : Dy} (h0 : d.mant ≠ 0) (h : magGt d (maxfin fmtF32) = false) : (Nat.log2 d.mant : Int) + d.exp ≤ 127 := by
  have hlog : 2 ^ Nat.log2 d.mant ≤ d.mant := Nat.log2_self_le h0
  have hmax : maxfin fmtF32 = ⟨false, 2 ^ 24 - 1, 104⟩ := by decide
  rw [hmax, magGt] at h
  by_cases he : (104 : Int) ≤ d.exp
  · rw [if_pos he, decide_eq_false_iff_not, Nat.shiftLeft_eq, Nat.not_lt] at h
    have hpow : 2 ^ (Nat.log2 d.mant + (d.exp - 104).toNat) < 2 ^ 24 := by
      rw [Nat.pow_add]
      exact (Nat.mul_le_mul_right _ hlog).trans_lt (h.trans_lt (by decide))
    have := (Nat.pow_lt_pow_iff_right (by decide)).mp hpow
    omega
  · rw [if_neg he, decide_eq_false_iff_not, Nat.shiftLeft_eq, Nat.not_lt] at h
    have hpow : 2 ^ Nat.log2 d.mant < 2 ^ (24 + (104 - d.exp).toNat) := by
      rw [Nat.pow_add]
      exact hlog.trans_lt (h.trans_lt (Nat.mul_lt_mul_of_pos_right (by decide) (by positivity)))
    have := (Nat.pow_lt_pow_iff_right (by decide)).mp hpow
    omega

theorem encodeFin_lt {d : Dy} (h : magGt d (maxfin fmtF32) = false) : encodeFin fmtF32 d < 2 ^ 32 := by
  have hsign : (if d.neg then 1 <<< (fmtF32.fbits + fmtF32.ebits) else 0) ≤ 2 ^ 31 := by split <;> decide
  unfold encodeFin
  simp only
  generalize (if d.neg then 1 <<< (fmtF32.fbits + fmtF32.ebits) else 0) = sign at *
  by_cases h0 : d.mant = 0
  · rw [if_pos h0]
    omega
  · have he := exponent_le h0 h
    have hbias : (fmtF32.bias : Int) = 127 := rfl
    have hbits : (fmtF32.fbits : Int) = 23 := rfl
    have hfraction : fmtF32.fbits = 23 := rfl
    rw [if_neg h0, hbias, hbits, hfraction]
    split
    · next hlow =>
      have := shiftZ_lt (m := d.mant) (k := 23) (z := d.exp - (1 - 127 - 23)) (by omega)
      omega
    · next hlow =>
      have hmant := shiftZ_lt (m := d.mant) (k := 24) (z := d.exp - (Nat.log2 d.mant + d.exp - 23)) (by omega)
      have hexp : ((Nat.log2 d.mant : Int) + d.exp + 127).toNat ≤ 254 := by omega
      rw [Nat.shiftLeft_eq]
      have := Nat.mul_le_mul_right (2 ^ 23) hexp
      omega

theorem infBits_lt (neg : Bool) : infBits fmtF32 neg < 2 ^ 32 := by cases neg <;> decide

theorem qnanBits_lt : qnanBits fmtF32 < 2 ^ 32 := by decide

theorem narrowF_lt (d : Dy) : narrowF fmtF32 d .rne true 0 < 2 ^ 32 := by
  cases h : magGt (rndF fmtF32 d .rne 0) (maxfin fmtF32) with
  | true =>
    have hinf : narrowF fmtF32 d .rne true 0 = infBits fmtF32 d.neg := if_pos h
    rw [hinf]
    exact infBits_lt d.neg
  | false =>
    have hfin : narrowF fmtF32 d .rne true 0 = encodeFin fmtF32 (rndF fmtF32 d .rne 0) := if_neg (Bool.eq_false_iff.mp h)
    rw [hfin]
    exact encodeFin_lt h

theorem ieee_lt (v : FVal) : ieee fmtF32 v < 2 ^ 32 := by
  cases v with
  | nan => exact qnanBits_lt
  | inf neg => exact infBits_lt neg
  | fin d => exact narrowF_lt d

theorem faddB_lt (x y : Nat) : faddB fmtF32 x y < 2 ^ 32 := ieee_lt _

end Sys2Proof.Machine
end

section
/-! PROOFS. Near operations of other slices (O35): the oldest of a strand at its slice finds nothing before it, and is performed. -/

namespace Sys2Proof.Machine
open Sys2Proof Claims

variable {s : State} {o : NearOp} {h : Gang}

/-! ## Arrival -/

/-- What may change around an operation that is performed: fences, and the banks that it takes. -/
structure SameBut (u v : State) : Prop where
  near : u.near = v.near
  units : u.unitJob = v.unitJob
  timers : u.timers = v.timers
  nearOps : u.nearOps = v.nearOps
  hbm : u.hbm = v.hbm
  clock : u.clock = v.clock

theorem SameBut.nearByte {u v : State} (h : SameBut u v) (job a : Nat) : nearByte u job a = nearByte v job a := by
  rw [Claims.nearByte, Claims.nearByte, unitIs, unitIs, h.near, h.units]

theorem SameBut.elementAt {u v : State} (h : SameBut u v) (job a n : Nat) : elementAt u job a n = elementAt v job a n := elementAt_congr fun k _ => h.nearByte job (a + k)

theorem clearFence_same (v : State) (sid id : Nat) : SameBut (clearFence v sid id) v := by constructor <;> simp [clearFence]

theorem takeBanks_same (v : State) (core : Nat) (bs : List (Nat × Nat)) : SameBut (takeBanks v core bs) v := by
  unfold takeBanks
  split
  · exact ⟨rfl, rfl, rfl, rfl, rfl, rfl⟩
  · constructor <;> rfl

theorem SameBut.trans {u v w : State} (h : SameBut u v) (h' : SameBut v w) : SameBut u w :=
  ⟨h.near.trans h'.near, h.units.trans h'.units, h.timers.trans h'.timers, h.nearOps.trans h'.nearOps, h.hbm.trans h'.hbm, h.clock.trans h'.clock⟩

/-- Nothing to perform. -/
theorem drainNear_none {sid : Nat} {p : NearOp → Bool} (h : ∀ x ∈ s.nearOps, ¬ (x.sid = sid ∧ x.sent = true ∧ p x = true)) : drainNear s sid p = s := by
  have hnil : (s.nearOps.filter fun x => x.sid == sid && x.sent && p x) = [] :=
    List.filter_eq_nil_iff.mpr fun x hx hp => h x hx (by simpa [and_assoc] using hp)
  rw [drainNear, hnil]
  rfl

/-- The state from which an operation has left the list of those on their way. -/
def without (s : State) (id : Nat) : State := { s with nearOps := s.nearOps.filter fun p => p.id != id }

/-- An operation that finds no earlier one of its strand at its slice is performed (R210). -/
theorem arriveNear_oldest (ho : o ∈ s.nearOps) (hone : ∀ p ∈ s.nearOps, p.id = o.id → p = o)
    (hold : ∀ p ∈ s.nearOps, p.sid = o.sid → p.slice = o.slice → p.sent = true → p.id ≤ o.id → p = o) : SameBut (arriveNear s o.id) (performNear (without s o.id) o s.clock) := by
  have hfind : s.nearOps.find? (fun p => p.id == o.id) = some o := by
    cases hf : s.nearOps.find? fun p => p.id == o.id with
    | none => exact absurd (List.find?_eq_none.mp hf o ho) (by simp)
    | some p => rw [hone p (List.mem_of_find?_eq_some hf) (by simpa using List.find?_some hf)]
  have hdrain : drainNear s o.sid (fun x => x.slice == o.slice && decide (x.id < o.id)) = s := by
    refine drainNear_none fun x hx ⟨hsid, hsent, hp⟩ => ?_
    obtain ⟨hslice, hlt⟩ : x.slice = o.slice ∧ x.id < o.id := by simpa using hp
    rw [hold x hx hsid hslice hsent hlt.le] at hlt
    exact absurd hlt (lt_irrefl _)
  unfold arriveNear
  simp only [hfind, hdrain]
  split
  · exact (takeBanks_same _ _ _).trans (clearFence_same _ _ _)
  · exact clearFence_same _ _ _

/-! ## A store -/

/-- Single bytes written in turn, at addresses that differ. -/
theorem nearWrites_spec {job : Nat} (bs : List (Nat × Byte)) (hwf : s.near.wf = true) (hnodup : (bs.map (·.1)).Nodup) :
    (∀ b ∈ bs, nearByte (bs.foldl (fun s b => nearWrite s job b.1 [b.2]) s) job b.1 = b.2) ∧
    ∀ a, (∀ b ∈ bs, b.1 ≠ a) → nearByte (bs.foldl (fun s b => nearWrite s job b.1 [b.2]) s) job a = nearByte s job a := by
  induction bs generalizing s with
  | nil => exact ⟨fun _ hb => absurd hb List.not_mem_nil, fun _ _ => rfl⟩
  | cons c bs ih =>
    rw [List.map_cons, List.nodup_cons] at hnodup
    obtain ⟨hbytes, hrest⟩ := ih (s := nearWrite s job c.1 [c.2]) (nearWrite_wf hwf _) hnodup.2
    have hc : ∀ b ∈ bs, b.1 ≠ c.1 := fun b hb he => hnodup.1 (List.mem_map.mpr ⟨b, hb, he⟩)
    refine ⟨fun b hb => ?_, fun a ha => ?_⟩
    · rcases List.mem_cons.mp hb with rfl | hb
      · rw [List.foldl_cons, hrest _ hc, nearByte_nearWrite hwf, if_pos (by simp)]
        simp
      · exact hbytes b hb
    · have hne : c.1 ≠ a := ha c List.mem_cons_self
      rw [List.foldl_cons, hrest a fun b hb => ha b (List.mem_cons_of_mem _ hb), nearByte_nearWrite hwf, if_neg (by simp only [List.length_singleton]; omega)]

/-- Such writes change near memory and its units only. -/
theorem nearWrites_frame {job : Nat} (bs : List (Nat × Byte)) (s : State) : bs.foldl (fun s b => nearWrite s job b.1 [b.2]) s =
    { s with near := (bs.foldl (fun s b => nearWrite s job b.1 [b.2]) s).near, unitJob := (bs.foldl (fun s b => nearWrite s job b.1 [b.2]) s).unitJob } := by
  induction bs generalizing s with
  | nil => rfl
  | cons b bs ih =>
    rw [List.foldl_cons, ih, (nearWrite_spec s job b.1 [b.2]).1]

/-! ## An atomic -/

theorem pow_bytes (z : W2) : 256 ^ w2Bytes z = 2 ^ (8 * w2Bytes z) := by cases z <;> rfl

theorem atomStore_updated (z : W2) (f : AtomF) (b : Word) (old : Nat) : atomStore z (.rmw f b) old = updated z (.rmw f b) old := by
  have hb : BitVec.ofNat (8 * w2Bytes z) (b.toNat % 2 ^ (8 * w2Bytes z)) = BitVec.ofNat (8 * w2Bytes z) b.toNat := by
    refine BitVec.eq_of_toNat_eq ?_
    rw [BitVec.toNat_ofNat, BitVec.toNat_ofNat, Nat.mod_mod]
  cases f with
  | add => simp [atomStore, atomNew, updated]
  | and => rfl
  | or => rfl
  | xor => rfl
  | min => simp only [atomStore, atomNew, updated, sxNat_eq, hb]
  | max => simp only [atomStore, atomNew, updated, sxNat_eq, hb]
  | swap => rfl
  | fadd => rfl

/-- What an atomic leaves fits its element. -/
theorem updated_lt {z : W2} {f : AtomF} {b : Word} {old : Nat} (h : old < 2 ^ (8 * w2Bytes z)) : updated z (.rmw f b) old < 2 ^ (8 * w2Bytes z) := by
  have hb : b.toNat % 2 ^ (8 * w2Bytes z) < 2 ^ (8 * w2Bytes z) := Nat.mod_lt _ (by positivity)
  cases f with
  | add => exact Nat.mod_lt _ (by positivity)
  | and => exact Nat.and_lt_two_pow _ hb
  | or => exact Nat.or_lt_two_pow h hb
  | xor => exact Nat.xor_lt_two_pow h hb
  | min =>
    simp only [updated]
    split
    · exact hb
    · exact h
  | max =>
    simp only [updated]
    split
    · exact hb
    · exact h
  | swap => exact hb
  | fadd => exact (faddB_lt _ _).trans_le (Nat.pow_le_pow_right (by decide) (by cases z <;> decide))

theorem atomResult_returned (z : W2) (f : AtomF) (b : Word) (old : Nat) : atomResult z (.rmw f b) old = returned z (.rmw f b) old := by
  cases z with
  | w64 => rfl
  | w32 =>
    cases f with
    | fadd => rfl
    | _ => exact sx64_eq old 32

/-! ## The events -/

theorem performNear_store {bs : List (Nat × Byte)} (hg : getGang s o.gid = some h) (hw : o.what = .store bs) (due : Nat) :
    performNear s o due = bs.foldl (fun s b => nearWrite s h.job b.1 [b.2]) s := by
  rw [performNear, hg, hw]

theorem performNear_atomic {z : W2} {f : AtomF} {b : Word} {g : Option Tag} (hwf : s.near.wf = true) (hg : getGang s o.gid = some h) (hw : o.what = .atomic z f b g) :
    performNear s o s.clock = deliverIn (nearWrite s h.job o.loc (leBytes (w2Bytes z) (updated z (.rmw f b) (elementAt s h.job o.loc (w2Bytes z))))) 1 o.sid g
      (.value ((returned z (.rmw f b) (elementAt s h.job o.loc (w2Bytes z))).setWidth 1024)) := by
  rw [performNear, hg, hw]
  simp only [leNat_nearBytes hwf, atomStore_updated, atomResult_returned, Nat.sub_self, Nat.zero_add]

/-- A delivery adds one event where there is a tag, and changes nothing else. -/
theorem deliverIn_fillsTo (v : State) (n sid : Nat) (g : Option Tag) (x : Payload) : deliverIn v n sid g x = { v with timers := v.timers ++ fillsTo v sid g n x } := by
  cases g with
  | none => simp [deliverIn, fillsTo]
  | some g => rfl

/-- Settles O35: what arrives is performed at once, a store byte by byte, an atomic on its element. -/
theorem nearOperations : Obligations.NearOperations := by
  intro s o h ho _ hone hold _ hg hwf
  have harrive := arriveNear_oldest ho hone hold
  refine ⟨fun bs hw hnodup => ⟨_, rfl, ?_⟩, fun z f b g hw _ _ => ⟨_, rfl, ?_⟩⟩
  · rw [performNear_store (s := without s o.id) hg hw, nearWrites_frame] at harrive
    obtain ⟨hbytes, hrest⟩ := nearWrites_spec (s := without s o.id) (job := h.job) bs hwf hnodup
    exact ⟨harrive.timers, harrive.nearOps, harrive.hbm, harrive.clock, fun b hb => (harrive.nearByte _ _).trans (hbytes b hb), fun a ha => (harrive.nearByte _ _).trans (hrest a ha)⟩
  · have helement : elementAt (without s o.id) h.job o.loc (w2Bytes z) = elementAt s h.job o.loc (w2Bytes z) := rfl
    rw [show s.clock = (without s o.id).clock from rfl, performNear_atomic (s := without s o.id) hwf hg hw, helement, deliverIn_fillsTo] at harrive
    let y := updated z (.rmw f b) (elementAt s h.job o.loc (w2Bytes z))
    have hfits : y < 256 ^ w2Bytes z := by
      rw [pow_bytes]
      exact updated_lt (pow_bytes z ▸ elementAt_lt _)
    have hframe := (nearWrite_spec (without s o.id) h.job o.loc (leBytes (w2Bytes z) y)).1
    refine ⟨?_, ?_, ?_, ?_, fun a ha => ?_⟩
    · exact harrive.nearOps.trans (by rw [hframe]; rfl)
    · exact harrive.hbm.trans (by rw [hframe]; rfl)
    · exact harrive.timers.trans (by rw [hframe]; rfl)
    · exact (harrive.elementAt _ _ _).trans ((elementAt_nearWrite (s := without s o.id) hwf _ _).trans (Nat.mod_eq_of_lt hfits))
    · exact (harrive.nearByte _ _).trans ((nearByte_nearWrite (s := without s o.id) hwf _).trans (if_neg (by rwa [leBytes_length])))

end Sys2Proof.Machine
end

section
/-! PROOFS. The issue of a near access (R204, R206, R211): its addresses, what stops it, and that nothing else does. -/

namespace Sys2Proof.Machine
open Sys2Proof Claims

variable {s : State} {i : Instr} {h : Gang}

/-! ## Near addresses -/

theorem nearSlice_eq (t : Strand) (a : Word) : nearSlice t a.toNat = sliceOf t a := by
  simp [nearSlice, sliceOf, bit, bitsOf, BitVec.testBit_toNat]

theorem nearOff_eq (a : Word) : nearOff a.toNat = (a.extractLsb' 0 20).toNat := by simp [nearOff, bitsOf]

theorem nearIn_iff (t : Strand) (a : Word) (n : Nat) : nearIn h t a.toNat n = true ↔ InBounds h t a n := by
  have htop : a.toNat >>> 27 = 0 ↔ a.toNat < 2 ^ 27 := by rw [Nat.shiftRight_eq_div_pow, Nat.div_eq_zero_iff]; omega
  simp only [nearIn, InBounds, Bool.and_eq_true, Bool.or_eq_true, beq_iff_eq, decide_eq_true_iff, nearSlice_eq, nearOff_eq, nearLimit, htop, and_assoc, bit, BitVec.testBit_toNat]

/-- Near addresses with their sizes that are in bounds and aligned. -/
def SpansOk (s : State) (h : Gang) (x : List (Word × Nat) × Nat) : Prop := ∀ p ∈ x.1, InBounds h s.me p.1 p.2 ∧ p.1.toNat % x.2 = 0

theorem nearTrap_none (hok : SpansOk s h (nearSpans s i)) : nearTrap s h i = none := by
  have hin : (nearSpans s i).1.find? (fun p => !nearIn h s.me p.1.toNat p.2) = none :=
    List.find?_eq_none.mpr fun p hp => by simpa using (nearIn_iff s.me p.1 p.2).mpr (hok p hp).1
  have halign : (nearSpans s i).1.find? (fun p => p.1.toNat % (nearSpans s i).2 != 0) = none := List.find?_eq_none.mpr fun p hp => by simpa using (hok p hp).2
  rw [nearTrap]
  simp only [hin, halign, Option.map_none]

theorem find_first {α : Type} {p : α → Bool} {pre post : List α} {x : α} (hpre : ∀ y ∈ pre, p y = false) (hx : p x = true) : (pre ++ x :: post).find? p = some x := by
  rw [List.find?_append, List.find?_eq_none.mpr fun y hy => by rw [hpre y hy]; exact Bool.false_ne_true, Option.none_or, List.find?_cons_of_pos hx]

/-- The first address out of bounds. -/
theorem nearTrap_bounds {pre post : List (Word × Nat)} {x : Word × Nat} (he : (nearSpans s i).1 = pre ++ x :: post) (hpre : ∀ y ∈ pre, InBounds h s.me y.1 y.2) (hx : ¬ InBounds h s.me x.1 x.2) :
    nearTrap s h i = some (.nearBounds, x.1) := by
  have hfind : (nearSpans s i).1.find? (fun p => !nearIn h s.me p.1.toNat p.2) = some x := by
    rw [he]
    exact find_first (fun y hy => by simpa using (nearIn_iff s.me y.1 y.2).mpr (hpre y hy)) (by simpa using fun hin => hx ((nearIn_iff s.me x.1 x.2).mp hin))
  rw [nearTrap]
  simp only [hfind]

/-- The first address that is misaligned, all being in bounds. -/
theorem nearTrap_align {pre post : List (Word × Nat)} {x : Word × Nat} (he : (nearSpans s i).1 = pre ++ x :: post) (hall : ∀ y ∈ pre ++ x :: post, InBounds h s.me y.1 y.2)
    (hpre : ∀ y ∈ pre, y.1.toNat % (nearSpans s i).2 = 0) (hx : x.1.toNat % (nearSpans s i).2 ≠ 0) : nearTrap s h i = some (.align, x.1) := by
  have hin : (nearSpans s i).1.find? (fun p => !nearIn h s.me p.1.toNat p.2) = none :=
    List.find?_eq_none.mpr fun p hp => by simpa using (nearIn_iff s.me p.1 p.2).mpr (hall p (he ▸ hp))
  have hfind : (nearSpans s i).1.find? (fun p => p.1.toNat % (nearSpans s i).2 != 0) = some x := by
    conv_lhs => arg 2; rw [he]
    exact find_first (fun y hy => by simpa using hpre y hy) (by simpa using hx)
  rw [nearTrap]
  simp only [hin, hfind, Option.map_some]

/-! ## Its turn -/

/-- The loads and stores of slot 5. -/
def nearAccess : Instr → Bool
  | .ldn _ _ _ _ _ | .stn _ _ _ _ _ | .ldnv _ _ _ _ | .stnv _ _ _ _ | .ldng _ _ _ _ _ | .stns _ _ _ _ _ _ | .ldnp _ _ _ _ | .stnp _ _ _ _ | .ldnt _ _ _ _ _ => true
  | _ => false

/-- Beside its near bytes, such an access has nothing that stops it. -/
theorem nearAccess_plain (hi : nearAccess i = true) : slotIndex i = some 5 ∧ beforeSources s i = none ∧ afterSources s 5 i = none ∧ linesNeeded s i = 0 ∧ nestStop s (5, i) = none := by
  cases i <;> cases hi <;> exact ⟨rfl, rfl, rfl, rfl, rfl⟩

theorem nearAccess_access (hi : nearAccess i = true) (hg : gangOf s s.me = some h) : accessTrap s (5, i) = (nearTrap s h i).map fun x => .trap x.1 32 0 x.2 := by
  unfold accessTrap
  simp only [hg]
  cases i <;> cases hi <;> exact Option.or_none

theorem nearAccess_hold (hi : nearAccess i = true) (hc : Calm s) (hg : gangOf s s.me = some h) (hheld : nearHeld s h i = false) : slotHold s (5, i) = none := by
  have hacq : s.me.acqFence = [] := hc.2.2.2.2.1
  have hnear : s.me.nearFence = [] := hc.2.2.2.2.2.1
  have hplain : slotHold s (5, i) = if !(nearSpans s i).1.isEmpty && (!s.me.nearFence.isEmpty || nearHeld s h i) then some .hold else none := by
    unfold slotHold
    simp only [hg, hacq, List.isEmpty_nil, Bool.not_true, Bool.and_false, Bool.false_eq_true, if_false]
    cases i <;> cases hi <;> rfl
  rw [hplain, hnear, hheld]
  simp

theorem Ready.sources (hr : Ready s i) : ∀ r ∈ readsOf i ++ examinedOf i, isFull s r := fun r hm => hr.2.2 r (by simp only [List.mem_append] at hm ⊢; tauto)

/-- An access that fails a check traps with its address (R204, R370). -/
theorem nearAccess_traps {c : Cause} {a : Word} (hi : nearAccess i = true) (hr : Ready s i) (hg : gangOf s s.me = some h) (ht : nearTrap s h i = some (c, a)) :
    exec i s = .next (takeTrap s c 32 0 a) := by
  obtain ⟨hslot, hbefore, hafter, -⟩ := nearAccess_plain (s := s) hi
  have haccess : accessTrap s (5, i) = some (.trap c 32 0 a) := by rw [nearAccess_access hi hg, ht]; rfl
  rw [exec_stopped hslot hr.1.1 (stop_access s 5 i _ hr.1 hr.2.1 hr.sources hbefore hafter haccess)]
  rfl

/-- Nothing but its banks stops an access that passes its checks and is not held. -/
theorem nearAccess_stop (hi : nearAccess i = true) (hr : Ready s i) (hg : gangOf s s.me = some h) (hok : SpansOk s h (nearSpans s i)) (hheld : nearHeld s h i = false) :
    stopOf s [(5, i)] = bankStop s (5, i) := by
  obtain ⟨-, hbefore, hafter, hlines, hnest⟩ := nearAccess_plain (s := s) hi
  have haccess : accessTrap s (5, i) = none := by rw [nearAccess_access hi hg, nearTrap_none hok]; rfl
  obtain ⟨hbody, hguard, hsup, hturn⟩ := turn_sources s 5 i hr.1 hr.2.1 hr.sources hbefore hafter
  obtain ⟨-, -, -, -, -, -, hserials, hundo, hgated⟩ := hr.1
  have hlog := logFull_one s 5 i hundo
  have hserial := serialsOf_le s i
  have hroom : ¬ 1024 < s.me.serials.length + serialsOf s i := by omega
  have hlines' : ¬ 64 < s.me.gated.length := by omega
  unfold stopOf
  simp [hbody, hguard, hsup, hturn, haccess, nearAccess_hold hi hr.1 hg hheld, needsImplicit, hlog, hlines, hnest, serialsNeeded, hroom, hlines']

/-- It waits for its banks (R206). -/
theorem nearAccess_waits (hi : nearAccess i = true) (hr : Ready s i) (hg : gangOf s s.me = some h) (hok : SpansOk s h (nearSpans s i)) (hheld : nearHeld s h i = false) : WaitsForBanks s i := by
  intro w hw
  obtain ⟨hslot, -⟩ := nearAccess_plain (s := s) hi
  rw [exec_stopped hslot hr.1.1 ((nearAccess_stop hi hr hg hok hheld).trans hw)]
  simp only [stopIssue, setMe, withMe, triedMe]
  cases s.me.bankWait <;> rfl

/-- With its banks it has its effect. -/
theorem nearAccess_effect {eff : State → State} (hi : nearAccess i = true) (he : ∀ u, exec i u = slotOp 5 i eff u) (hr : Ready s i) (hg : gangOf s s.me = some h) (hok : SpansOk s h (nearSpans s i))
    (hheld : nearHeld s h i = false) (hb : BanksFree s i) : exec i s = .next (closeIssue (eff (inSlot s 5))) :=
  (he s).trans (effect_of s 5 i eff hr.1 hr.2.1 ((nearAccess_stop hi hr hg hok hheld).trans hb))

/-! ## In its slot -/

/-- No near operation of the strand is on its way to a slice. -/
theorem drainSlice_idle {v : State} (hops : v.nearOps = s.nearOps) (hsid : v.me.sid = s.me.sid) (hidle : nearIdle s) (slice : Nat) : drainSlice v v.me.sid slice = v :=
  drainNear_none fun x hx hp => hidle x (hops ▸ hx) (hp.1.trans hsid)

end Sys2Proof.Machine
end

section
/-! PROOFS. Filling a near destination (R207): from the strand's own slice a result of fixed latency, from another one within the limit. -/

namespace Sys2Proof.Machine
open Sys2Proof Claims

variable {s : State} {p : Vector Word 8} {rd : Nat} {cs : List Core} {r : RegId} {lat : Nat} {locs : List (Nat × Nat)} {x : VVal}

/-- A future that is filled at a known ck is a result delivered then. -/
theorem deliversIn_of {t : State} {o : Option Tag} {m : Nat} {y : Payload} (hf : FutureReg s t r o) (ht : t.timers = s.timers ++ fills s o m y) : DeliversIn s t r m y := by
  unfold DeliversIn
  cases hr : regFixed r with
  | true =>
    rw [if_pos rfl, ht, hf.1 hr]
    exact List.append_nil _
  | false =>
    obtain ⟨g, rfl, howed⟩ := hf.2 hr
    exact ⟨g, howed, ht⟩

theorem deliverIn_fills {v : State} (o : Option Tag) (n : Nat) (y : Payload) (hclock : v.clock = s.clock) (htimers : v.timers = s.timers) :
    deliverIn v n s.me.sid o y = { v with timers := s.timers ++ fills s o n y } := by
  cases o with
  | none => simp [deliverIn, fills, ← htimers]
  | some g => simp [deliverIn, fills, after, addTimer, hclock, htimers]

theorem fillNear_own (hc : Calm s) (hcs : SameEngines cs s.cores) : ∃ t, closeIssue (fillNear (opened s p rd cs 5) r true lat locs x) = t ∧ Advanced s t ∧ DeliversIn s t r lat (.value x) ∧ Kept s t [r] := by
  obtain ⟨rg, lg, qq, sr, o, ho, hz, hq, hfuture⟩ := obligate_opened hc p rd cs 5 r
  let u : State := { obliged s p rd cs rg lg qq sr 5 with timers := s.timers ++ fills s o lat (.value x) }
  have heff : fillNear (opened s p rd cs 5) r true lat locs x = u := by
    rw [fillNear, ho]
    exact deliverIn_fills o lat _ rfl rfl
  obtain ⟨hkept, hadv, htimers, hme⟩ := close_kept (e := s) (u := u) (rs := [r]) hc rfl rfl rfl rfl rfl rfl hz hq hcs
  exact ⟨closeIssue u, by rw [heff], hadv, deliversIn_of (futureReg_congr hfuture (by rw [hme]) (by rw [hme])) htimers, hkept⟩

/-- The opening of a bundle leaves the operations queued ahead. -/
theorem nearLimitCk_opened (n : Nat) (as : List Nat) : nearLimitCk (opened s p rd cs n) as = nearLimitCk s as := by
  have hafar (o : NearOp) : fromAfar (opened s p rd cs n) o = fromAfar s o := by
    have hsid : (opened s p rd cs n).me.sid = s.me.sid := rfl
    unfold fromAfar getStrand
    rw [hsid]
    by_cases h : s.me.sid = o.sid
    · rw [if_pos h, if_pos h]
      rfl
    · rw [if_neg h, if_neg h]
      rfl
  simp only [nearLimitCk, hafar]
  rfl

theorem nearLimitCk_pos (as : List Nat) : 0 < nearLimitCk s as := by
  unfold nearLimitCk
  omega

/-- The loads that a tag stands for at other slices. -/
def loadsFor (s : State) (o : Option Tag) (locs : List (Nat × Nat)) (due : Nat) : List NearLoad := o.toList.flatMap fun g => locs.map fun a => ⟨s.me.sid, g, a.1 / 2 ^ 20, banksOf a.1 a.2, due⟩

theorem fillNear_other (hc : Calm s) (hcs : SameEngines cs s.cores) : ∃ t m, closeIssue (fillNear (opened s p rd cs 5) r false lat locs x) = t ∧ Advanced s t ∧ DeliversIn s t r m (.value x) ∧
    1 ≤ m ∧ m ≤ nearLimitCk s (locs.map (·.1)) ∧ (∃ ls, t.nearLoads = s.nearLoads ++ ls ∧ ∀ l ∈ ls, l.sid = s.me.sid) ∧ Kept { s with fresh := s.fresh + 1, nearLoads := t.nearLoads } t [r] := by
  obtain ⟨rg, lg, qq, sr, o, ho, hz, hq, hfuture⟩ := obligate_opened hc p rd cs 5 r
  let n := nearLimitCk s (locs.map (·.1))
  let ls := loadsFor s o locs (s.clock + 1 + Config.delay s.fresh % n)
  let u : State := { obliged s p rd cs rg lg qq sr 5 with
    fresh := s.fresh + 1, nearLoads := s.nearLoads ++ ls, timers := s.timers ++ fills s o (1 + Config.delay s.fresh % n) (.value x) }
  have heff : fillNear (opened s p rd cs 5) r false lat locs x = u := by
    rw [fillNear, ho, nearLimitCk_opened]
    cases o with
    | none => simp [u, ls, loadsFor, fills, deliverWithin, deliverIn, obliged, opened]
    | some g => simp [u, ls, n, loadsFor, fills, deliverWithin, deliverIn, after, addTimer, obliged, opened, issuing]
  obtain ⟨hkept, hadv, htimers, hme⟩ := close_kept (e := { s with fresh := s.fresh + 1, nearLoads := s.nearLoads ++ ls }) (u := u) (rs := [r]) hc rfl rfl rfl rfl rfl rfl hz hq hcs
  have hloads : (closeIssue u).nearLoads = s.nearLoads ++ ls := by rw [closeIssue_calm (u := u) hc rfl rfl rfl]
  have hpos := nearLimitCk_pos (s := s) (locs.map (·.1))
  refine ⟨closeIssue u, 1 + Config.delay s.fresh % n, by rw [heff], hadv, deliversIn_of (futureReg_congr hfuture (by rw [hme]) (by rw [hme])) htimers, Nat.le_add_right _ _, ?_, ⟨ls, hloads, ?_⟩, ?_⟩
  · have hlt : Config.delay s.fresh % n < n := Nat.mod_lt _ hpos
    show 1 + Config.delay s.fresh % n ≤ n
    omega
  · intro l hl
    obtain ⟨g, -, hl⟩ := List.mem_flatMap.mp hl
    obtain ⟨a, -, rfl⟩ := List.mem_map.mp hl
    rfl
  · rw [hloads]
    exact hkept

end Sys2Proof.Machine
end

section
/-! PROOFS. Near loads (O26): one effect for the four, and the value that each makes of its bytes. -/

namespace Sys2Proof.Machine
open Sys2Proof Claims

variable {s : State} {i : Instr} {h : Gang} {r : RegId} {a : Word} {n u : Nat}

/-! ## Values -/

theorem range_getD {α : Type} (f : Nat → α) (n k : Nat) (d : α) : ((List.range n).map f).getD k d = if k < n then f k else d := by
  split
  · next hk => rw [List.getD_eq_getElem _ _ (by simpa using hk), List.getElem_map, List.getElem_range]
  · next hk => rw [List.getD_eq_default _ _ (by simpa using hk)]

/-- The bytes in order, zeros above (R208). -/
theorem bytesVal_loaded (n : Nat) (f : Nat → Byte) (k : Nat) (hk : k < 128) : byteOf (bytesVal ((List.range n).map f)) k = if k < n then f k else 0 := by
  rw [bytesVal, byteOf_leNat _ hk, range_getD]

/-- A byte of an element is a byte of the register. -/
theorem byteOf_el (x : VVal) {k e j : Nat} (hj : j < k) : byteOf x (k * e + j) = BitVec.ofNat 8 (el (8 * k) x e / 256 ^ j) := by
  have hpow : (256 : Nat) ^ j = 2 ^ (8 * j) := by norm_num [pow_mul]
  refine BitVec.eq_of_getLsbD_eq fun b hb => ?_
  have hin : 8 * j + b < 8 * k := by omega
  have hplace : 8 * (k * e + j) + b = 8 * j + b + 8 * k * e := by ring
  rw [hpow, BitVec.getLsbD_ofNat, ← Nat.shiftRight_eq_div_pow, Nat.testBit_shiftRight, testBit_el, BitVec.getLsbD_extractLsb', hplace]
  simp [hb, hin]

theorem drop_take_getD (bs : List Byte) (m k j : Nat) (hj : j < k) : ((bs.drop m).take k).getD j 0 = bs.getD (m + j) 0 := by
  rw [List.getD_eq_getElem?_getD, List.getElem?_take, if_pos hj, List.getElem?_drop, ← List.getD_eq_getElem?_getD]

theorem szBytes_pos (z : Sz) : 0 < szBytes z := by cases z <;> decide

theorem group_fits (z : Sz) : 0 < 128 / group z ∧ szBytes z ∣ group z ∧ 128 / group z * (group z / szBytes z) = 128 / szBytes z ∧ szBytes z * (128 / szBytes z) = 128 := by cases z <;> decide

theorem pow_bits (k : Nat) : 2 ^ (8 * k) = 256 ^ k := by norm_num [pow_mul]

/-- Element `c` of row `r` stands at element `c * nr + r` (R208). -/
theorem transposeVal_loaded (z : Sz) (f : Nat → Byte) {r c j : Nat} (hr : r < 128 / group z) (hc : c < group z / szBytes z) (hj : j < szBytes z) :
    byteOf (transposeVal z ((List.range (64 * (128 / group z - 1) + group z)).map f)) (szBytes z * (c * (128 / group z) + r) + j) = f (64 * r + szBytes z * c + j) := by
  obtain ⟨hnr, hdvd, hcount, hwidth⟩ := group_fits z
  have hgroup : (if z == .b8 then 8 else 4) = group z := by cases z <;> rfl
  have he : c * (128 / group z) + r < 128 / szBytes z := by
    rw [← hcount, Nat.mul_comm (128 / group z)]
    calc c * (128 / group z) + r < c * (128 / group z) + 128 / group z := Nat.add_lt_add_left hr _
      _ = (c + 1) * (128 / group z) := (Nat.succ_mul ..).symm
      _ ≤ group z / szBytes z * (128 / group z) := Nat.mul_le_mul_right _ hc
  have hmod : (c * (128 / group z) + r) % (128 / group z) = r := by rw [Nat.mul_add_mod_self_right, Nat.mod_eq_of_lt hr]
  have hdiv : (c * (128 / group z) + r) / (128 / group z) = c := by rw [Nat.add_comm, Nat.add_mul_div_right _ _ hnr, Nat.div_eq_of_lt hr, Nat.zero_add]
  have hin : szBytes z * c + j < group z := by
    have h1 : szBytes z * (c + 1) ≤ szBytes z * (group z / szBytes z) := Nat.mul_le_mul_left _ hc
    rw [Nat.mul_div_cancel' hdvd, Nat.mul_succ] at h1
    omega
  have hfits : 8 * szBytes z * (c * (128 / group z) + r + 1) ≤ 1024 := by
    have hle : szBytes z * (c * (128 / group z) + r + 1) ≤ szBytes z * (128 / szBytes z) := Nat.mul_le_mul_left _ he
    rw [hwidth] at hle
    rw [Nat.mul_assoc]
    exact Nat.mul_le_mul_left 8 hle
  have hel (bs : List Byte) : el (8 * szBytes z) (transposeVal z bs) (c * (128 / group z) + r) = leNat ((bs.drop (64 * r + szBytes z * c)).take (szBytes z)) % 256 ^ szBytes z := by
    unfold el transposeVal
    simp only [hgroup]
    rw [ofElems_at _ _ _ hfits, upto, range_getD, if_pos he, hmod, hdiv, pow_bits]
  have hlen (bs : List Byte) : leNat ((bs.drop (64 * r + szBytes z * c)).take (szBytes z)) < 256 ^ szBytes z :=
    (leNat_lt _).trans_le (Nat.pow_le_pow_right (by decide) (List.length_take_le _ _))
  rw [byteOf_el _ hj, hel, Nat.mod_eq_of_lt (hlen _), leNat_byte, drop_take_getD _ _ _ _ hj, range_getD, if_pos (by omega)]

/-! ## One effect for the four loads -/

/-- What a near load is at issue: an access of one span, and the value that it makes of its bytes. -/
theorem nearLoad_shape (hl : nearLoadOf s i = some (r, a, n, u)) (hc : Calm s) : nearAccess i = true ∧ nearSpans s i = ([(a, n)], u) ∧ ∃ (addr : State → Word) (f : List Byte → VVal),
    (∀ v, exec i v = slotOp 5 i (fun v => nearLoadOp v r (addr v) n f) v) ∧ addr (inSlot s 5) = a ∧ ∀ g, LoadedAs i (f ((List.range n).map g)) n g := by
  have hclosed := reads_closed hc
  have hslot := reads_inSlot hc 5
  unfold nearLoadOf at hl
  split at hl
  · next d b o z =>
    cases hl
    refine ⟨rfl, ?_, fun v => eaM v b o (szBytes z), bytesVal, fun v => rfl, hslot.ea .., fun g k hk => bytesVal_loaded _ g k hk⟩
    rw [nearSpans, hclosed.ea]
  · next d b o =>
    cases hl
    refine ⟨rfl, ?_, fun v => eaM v b o 128, bytesVal, fun v => rfl, hslot.ea .., fun g k hk => bytesVal_loaded _ g k hk⟩
    rw [nearSpans, hclosed.ea]
  · next d b o =>
    cases hl
    refine ⟨rfl, ?_, fun v => eaM v b o 16, bytesVal, fun v => rfl, hslot.ea .., fun g k hk => bytesVal_loaded _ g k hk⟩
    rw [nearSpans, hclosed.ea]
  · next d b o z =>
    cases hl
    have hgroup : (if z == .b8 then 8 else 4) = group z := by cases z <;> rfl
    refine ⟨rfl, ?_, fun v => eaM v b o 128, transposeVal z, fun v => ?_, hslot.ea .., fun g r c j hr hc hj => transposeVal_loaded z g hr hc hj⟩
    · simp only [nearSpans, hgroup, hclosed.ea]
    · rw [← hgroup]
      rfl
  · cases hl

/-- The one span of a load is in bounds and aligned. -/
theorem spansOk_single (hspans : nearSpans s i = ([(a, n)], u)) (hin : InBounds h s.me a n) (ha : a.toNat % u = 0) : SpansOk s h (nearSpans s i) := by
  rw [hspans]
  intro q hq
  obtain rfl := List.mem_singleton.mp hq
  exact ⟨hin, ha⟩

/-- What fails a check of an access with one span (R204). -/
theorem single_traps (hi : nearAccess i = true) (hspans : nearSpans s i = ([(a, n)], u)) (hr : Ready s i) (hg : gangOf s s.me = some h) :
    (¬ InBounds h s.me a n → exec i s = .next (takeTrap s .nearBounds 32 0 a)) ∧ (InBounds h s.me a n → a.toNat % u ≠ 0 → exec i s = .next (takeTrap s .align 32 0 a)) := by
  have hlist : (nearSpans s i).1 = [] ++ (a, n) :: [] := congrArg Prod.fst hspans
  have hstep : (nearSpans s i).2 = u := congrArg Prod.snd hspans
  refine ⟨fun hout => nearAccess_traps hi hr hg (nearTrap_bounds hlist nofun hout), fun hin ha => ?_⟩
  exact nearAccess_traps hi hr hg (nearTrap_align hlist (fun y hy => by obtain rfl := List.mem_singleton.mp hy; exact hin) nofun (by rwa [hstep]))

section
variable (hidle : nearIdle s) (hwf : s.near.wf = true) (hg : gangOf s s.me = some h)
include hidle hwf hg

/-- The effect in its slot: the bytes as they stand fill the destination (R208). -/
theorem nearLoadOp_opened (p : Vector Word 8) (rd : Nat) (cs : List Core) (f : List Byte → VVal) : nearLoadOp (opened s p rd cs 5) r a n f =
    fillNear (opened s p rd cs 5) r (sliceOf s.me a == s.me.lidx.toNat) 6 [(nearPhys h s.me a.toNat, n)] (f ((List.range n).map fun k => nearByte s h.job (nearPhys h s.me a.toNat + k))) := by
  have hgang : gangOf (opened s p rd cs 5) (opened s p rd cs 5).me = some h := hg
  have hdrain (k : Nat) : drainSlice (opened s p rd cs 5) (opened s p rd cs 5).me.sid k = opened s p rd cs 5 := drainSlice_idle (v := opened s p rd cs 5) rfl rfl hidle k
  have hbytes := nearBytes_eq (s := opened s p rd cs 5) (job := h.job) (a := nearPhys h s.me a.toNat) hwf n
  have hslice : nearSlice (opened s p rd cs 5).me a.toNat = sliceOf s.me a := nearSlice_eq _ a
  rw [nearLoadOp, hgang]
  simp only [nearLoad, hdrain, hslice]
  exact congrArg (fun bs => fillNear (opened s p rd cs 5) r (sliceOf s.me a == s.me.lidx.toNat) 6 [(nearPhys h s.me a.toNat, n)] (f bs)) hbytes

theorem nearLoad_loads (hl : nearLoadOf s i = some (r, a, n, u)) (hr : Ready s i) (hin : InBounds h s.me a n) (ha : a.toNat % u = 0) (hheld : nearHeld s h i = false) (hb : BanksFree s i) : ∃ t x m,
    exec i s = .next t ∧ Advanced s t ∧ LoadedAs i x n (fun k => nearByte s h.job (nearPhys h s.me a.toNat + k)) ∧ DeliversIn s t r m (.value x) ∧
    (ownSlice s a → m = 6 ∧ Kept s t [r]) ∧ (¬ ownSlice s a → 1 ≤ m ∧ m ≤ nearLimitCk s [nearPhys h s.me a.toNat] ∧ (∃ ls, t.nearLoads = s.nearLoads ++ ls ∧ ∀ l ∈ ls, l.sid = s.me.sid) ∧
      Kept { s with fresh := s.fresh + 1, nearLoads := t.nearLoads } t [r]) := by
  obtain ⟨hi, hspans, addr, f, hexec, haddr, hload⟩ := nearLoad_shape hl hr.1
  obtain ⟨p, rd, cs, e, hcs⟩ := inSlot_issuing s 5
  have heff := nearAccess_effect hi hexec hr hg (spansOk_single hspans hin ha) hheld hb
  rw [haddr, e, nearLoadOp_opened hidle hwf hg] at heff
  by_cases hown : ownSlice s a
  · rw [show (sliceOf s.me a == s.me.lidx.toNat) = true from beq_iff_eq.mpr hown] at heff
    obtain ⟨t, ht, hadv, hdel, hkept⟩ := fillNear_own hr.1 hcs
    exact ⟨t, _, 6, by rw [heff, ht], hadv, hload _, hdel, fun _ => ⟨rfl, hkept⟩, fun hn => absurd hown hn⟩
  · rw [show (sliceOf s.me a == s.me.lidx.toNat) = false from beq_eq_false_iff_ne.mpr hown] at heff
    obtain ⟨t, m, ht, hadv, hdel, hm1, hm, hloads, hkept⟩ := fillNear_other (locs := [(nearPhys h s.me a.toNat, n)]) hr.1 hcs
    exact ⟨t, _, m, by rw [heff, ht], hadv, hload _, hdel, fun ho => absurd ho hown, fun _ => ⟨hm1, hm, hloads, hkept⟩⟩

end

theorem nearLoads : NearLoads := by
  intro s i h r a n u hg hl hr hidle hwf
  obtain ⟨hi, hspans, -⟩ := nearLoad_shape hl hr.1
  obtain ⟨hbounds, halign⟩ := single_traps hi hspans hr hg
  exact ⟨fun hin ha hheld => nearAccess_waits hi hr hg (spansOk_single hspans hin ha) hheld, fun hin ha hheld hb => nearLoad_loads hidle hwf hg hl hr hin ha hheld hb, hbounds, halign⟩

end Sys2Proof.Machine
end

section
/-! PROOFS. Near gathers (O26): the lanes' addresses, the value, and the rows that they touch in a bank. -/

namespace Sys2Proof.Machine
open Sys2Proof Claims

variable {s : State} {h : Gang} {g : BitVec 4} {d v : BitVec 5} {a : BitVec 6} {t : Ty}

/-! ## The lanes at issue -/

theorem laneSpans (hc : Calm s) : ((upto (lanesOf t)).filterMap fun e => if enabled s g t.width e then some (eaG s a v t e, laneBytes t) else none) =
    ((lanesOn s g t).map (eaLane s a v t)).map fun x => (x, t.width / 8) := by
  have hreads := reads_closed hc
  rw [lanesOn, List.map_map]
  refine (List.filterMap_congr fun e _ => ?_).trans (filterMap_if (fun e => on s g t.width e) _ _)
  rw [hreads.enabled, hreads.eaLane]
  by_cases ho : on s g t.width e
  · rw [if_pos (decide_eq_true ho), if_pos ho]
    rfl
  · rw [if_neg (by simpa using ho), if_neg ho]

section
variable {i : Instr} (hspans : nearSpans s i = (((lanesOn s g t).map (eaLane s a v t)).map fun x => (x, t.width / 8), t.width / 8))
include hspans

theorem spansOk_lanes (hok : ∀ x ∈ (lanesOn s g t).map (eaLane s a v t), InBounds h s.me x (t.width / 8) ∧ x.toNat % (t.width / 8) = 0) : SpansOk s h (nearSpans s i) := by
  rw [hspans]
  intro q hq
  obtain ⟨x, hx, rfl⟩ := List.mem_map.mp hq
  exact hok x hx

/-- What fails a check of an access of lanes: the lowest failing lane (R204). -/
theorem lanes_trap (hi : nearAccess i = true) (hr : Ready s i) (hg : gangOf s s.me = some h) :
    (∀ pre x post, (lanesOn s g t).map (eaLane s a v t) = pre ++ x :: post → (∀ y ∈ pre, InBounds h s.me y (t.width / 8)) → ¬ InBounds h s.me x (t.width / 8) →
      exec i s = .next (takeTrap s .nearBounds 32 0 x)) ∧
    (∀ pre x post, (lanesOn s g t).map (eaLane s a v t) = pre ++ x :: post → (∀ y ∈ (lanesOn s g t).map (eaLane s a v t), InBounds h s.me y (t.width / 8)) →
      (∀ y ∈ pre, y.toNat % (t.width / 8) = 0) → x.toNat % (t.width / 8) ≠ 0 → exec i s = .next (takeTrap s .align 32 0 x)) := by
  have hlist {pre post : List Word} {x : Word} (he : (lanesOn s g t).map (eaLane s a v t) = pre ++ x :: post) :
      (nearSpans s i).1 = (pre.map fun x => (x, t.width / 8)) ++ (x, t.width / 8) :: post.map fun x => (x, t.width / 8) := by
    rw [hspans, he]
    simp
  have hstep : (nearSpans s i).2 = t.width / 8 := congrArg Prod.snd hspans
  refine ⟨fun pre x post he hpre hx => ?_, fun pre x post he hall hpre hx => ?_⟩
  · refine nearAccess_traps hi hr hg (nearTrap_bounds (hlist he) (fun y hy => ?_) hx)
    obtain ⟨w, hw, rfl⟩ := List.mem_map.mp hy
    exact hpre w hw
  · refine nearAccess_traps hi hr hg (nearTrap_align (hlist he) (fun y hy => ?_) (fun y hy => ?_) (by rwa [hstep]))
    · rw [← hlist he, hspans] at hy
      obtain ⟨w, hw, rfl⟩ := List.mem_map.mp hy
      exact hall w hw
    · obtain ⟨w, hw, rfl⟩ := List.mem_map.mp hy
      rw [hstep]
      exact hpre w hw

end

/-! ## The value -/

/-- What a lane reads: the element at its address. -/
def laneRead (s : State) (h : Gang) (k : Nat) (ea : Option Word) : Option Nat := ea.map fun x => elementAt s h.job (nearPhys h s.me x.toNat) k

theorem foldl_collect {α β γ : Type} {step : α × List β → γ → α × List β} {u : α} {f : γ → β} (hstep : ∀ acc x, step (u, acc) x = (u, acc ++ [f x])) (xs : List γ) (acc : List β) :
    xs.foldl step (u, acc) = (u, acc ++ xs.map f) := by
  induction xs generalizing acc with
  | nil => simp
  | cons x xs ih =>
    rw [List.foldl_cons, hstep, ih]
    simp

theorem gatherNear_idle {u : State} {k : Nat} (hwf : u.near.wf = true) (hidle : ∀ slice, drainSlice u u.me.sid slice = u) (eas : List (Option Word)) :
    gatherNear u h k eas = (u, eas.map (laneRead u h k)) := by
  refine foldl_collect (fun acc ea => ?_) eas []
  cases ea with
  | none => rfl
  | some x => simp only [nearLoad, hidle, leNat_nearBytes hwf, laneRead, Option.map_some]

theorem lanes_fit (ht : t ≠ .bit) : laneCount t ≤ 1024 / t.width := by
  cases t with
  | bit => exact absurd rfl ht
  | _ => decide

theorem pow_width (ht : t ≠ .bit) : 256 ^ (t.width / 8) = 2 ^ t.width := by
  cases t with
  | bit => exact absurd rfl ht
  | _ => rfl

/-- The value of a gather (R203, R208). -/
def gathered (s : State) (h : Gang) (g : BitVec 4) (d : BitVec 5) (a : BitVec 6) (t : Ty) (v : BitVec 5) : VVal :=
  ofElems t.width ((((laneEas s g a t v).map (laneRead s h (t.width / 8))).zip (velems t.width (vVal s d))).map fun p => p.1.getD p.2)

theorem gathered_at (ht : t ≠ .bit) {e : Nat} (he : e < 1024 / t.width) : el t.width (gathered s h g d a t v) e =
    if laneCount t ≤ e then 0 else if on s g t.width e then elementAt s h.job (nearPhys h s.me (eaLane s a v t e).toNat) (t.width / 8) else el t.width (vVal s d) e := by
  have hlen : (laneEas s g a t v).length = laneCount t := by rw [laneEas, List.length_map, List.length_range]
  have hvlen : e < (velems t.width (vVal s d)).length := by rwa [velems_length]
  have hzip : (((laneEas s g a t v).map (laneRead s h (t.width / 8))).zip (velems t.width (vVal s d))).length = laneCount t := by
    rw [List.length_zip, List.length_map, hlen, velems_length, Nat.min_eq_left (lanes_fit ht)]
  have hold : (velems t.width (vVal s d))[e] = el t.width (vVal s d) e := by rw [← List.getD_eq_getElem _ 0 hvlen, velems_at _ _ _ he]; rfl
  unfold gathered el
  rw [ofElems_at _ _ _ (elem_inside _ _ he)]
  by_cases hl : laneCount t ≤ e
  · rw [if_pos hl, List.getD_eq_default _ _ (by rw [List.length_map, hzip]; exact hl), Nat.zero_mod]
  · rw [if_neg hl, List.getD_eq_getElem _ _ (by rw [List.length_map, hzip]; omega), List.getElem_map, List.getElem_zip, List.getElem_map, hold]
    simp only [laneEas, List.getElem_map, List.getElem_range, laneRead]
    by_cases ho : on s g t.width e
    · rw [if_pos ho, if_pos ho, Option.map_some, Option.getD_some, Nat.mod_eq_of_lt (by rw [← pow_width ht]; exact elementAt_lt _)]
    · rw [if_neg ho, if_neg ho, Option.map_none, Option.getD_none, Nat.mod_eq_of_lt (el_lt _ _ _)]
      rfl

/-! ## Banks (R206) -/

theorem bankRows_eq : bankRows (laneEas s g a t v) = conflicts ((lanesOn s g t).map (eaLane s a v t)) := by
  have hoffs : (laneEas s g a t v).filterMap (fun ea => ea.map fun x => nearOff x.toNat) = ((lanesOn s g t).map (eaLane s a v t)).map fun x => nearOff x.toNat := by
    rw [laneEas_filterMap, List.map_map]
    rfl
  have hbank (x : Word) : bitsOf (nearOff x.toNat) 6 5 = (x.extractLsb' 6 5).toNat := by
    simp only [bitsOf, nearOff, BitVec.extractLsb'_toNat, Nat.shiftRight_eq_div_pow]
    omega
  have hrow (x : Word) : bitsOf (nearOff x.toNat) 11 9 = (x.extractLsb' 11 9).toNat := by
    simp only [bitsOf, nearOff, BitVec.extractLsb'_toNat, Nat.shiftRight_eq_div_pow]
    omega
  have hrows (as : List Word) (b : Nat) : (((as.map fun x => nearOff x.toNat).filter fun o => bitsOf o 6 5 == b).map (bitsOf · 11 9)).dedup = rowsIn as b := by
    rw [rowsIn, List.filter_map, List.map_map]
    congr 1
    simp only [Function.comp_def, hbank, hrow]
  rw [bankRows, hoffs, conflicts, List.foldl_map]
  simp only [hrows]
  rfl

/-! ## The whole bundle -/

/-- The addresses at other slices, with the bytes read there. -/
def otherLocs (s : State) (h : Gang) (k : Nat) (ads : List Word) : List (Nat × Nat) := (ads.filter fun x => sliceOf s.me x != s.me.lidx.toNat).map fun x => (nearPhys h s.me x.toNat, k)

theorem otherLocs_eq (k : Nat) : ((laneEas s g a t v).filterMap fun ea => ea.bind fun e => if nearSlice s.me e.toNat == s.me.lidx.toNat then none else some (nearPhys h s.me e.toNat, k)) =
    otherLocs s h k ((lanesOn s g t).map (eaLane s a v t)) := by
  have hjoin : ((laneEas s g a t v).filterMap fun ea => ea.bind fun e => if nearSlice s.me e.toNat == s.me.lidx.toNat then none else some (nearPhys h s.me e.toNat, k)) =
      ((laneEas s g a t v).filterMap fun ea => ea.map id).filterMap fun e => if sliceOf s.me e ≠ s.me.lidx.toNat then some (nearPhys h s.me e.toNat, k) else none := by
    rw [List.filterMap_filterMap]
    refine List.filterMap_congr fun ea _ => ?_
    cases ea with
    | none => rfl
    | some e => by_cases he : sliceOf s.me e = s.me.lidx.toNat <;> simp [nearSlice_eq, he]
  rw [hjoin, laneEas_filterMap, filterMap_if, otherLocs]
  refine congrArg (List.map _) (List.filter_congr fun e _ => ?_)
  by_cases he : sliceOf s.me e = s.me.lidx.toNat <;> simp [he]

/-- A test that passes every lane that is not enabled. -/
theorem laneEas_all {q : Option Word → Bool} (hnone : q none = true) : (laneEas s g a t v).all q = true ↔ ∀ x ∈ (lanesOn s g t).map (eaLane s a v t), q (some x) = true := by
  simp only [laneEas, lanesOn, List.all_eq_true, List.mem_map, List.mem_filter]
  constructor
  · rintro hall x ⟨e, ⟨he, ho⟩, rfl⟩
    have h := hall _ ⟨e, he, rfl⟩
    rwa [if_pos (of_decide_eq_true ho)] at h
  · rintro hon ea ⟨e, he, rfl⟩
    by_cases ho : on s g t.width e
    · rw [if_pos ho]
      exact hon _ ⟨e, ⟨he, decide_eq_true ho⟩, rfl⟩
    · rw [if_neg ho, hnone]

/-- Whether a lane, if it is enabled, stays in the strand's own slice. -/
def laneOwn (s : State) : Option Word → Bool
  | some e => nearSlice s.me e.toNat == s.me.lidx.toNat
  | none => true

theorem allOwn_iff : (laneEas s g a t v).all (laneOwn s) = true ↔ ∀ x ∈ (lanesOn s g t).map (eaLane s a v t), ownSlice s x :=
  (laneEas_all (q := laneOwn s) rfl).trans (forall₂_congr fun x _ => by simp only [laneOwn, nearSlice_eq, beq_iff_eq])

theorem reads_opened (hc : Calm s) (p : Vector Word 8) (rd : Nat) (cs : List Core) (n : Nat) : Reads (opened s p rd cs n) s := fun r => look_open (opened s p rd cs n) ⟨s.me.regs, s.me.h, s.me.loop, n⟩ r rfl hc.2.1

/-- NEARSTALL after a gather of a number of rows in one bank (R206). -/
def nearStalled (s : State) (m : Nat) : State := withMe s { s.me with nearstall := s.me.nearstall + BitVec.ofNat 64 (m - 1) }

section
variable (hg : gangOf s s.me = some h) (hr : Ready s (.ldng g d a t v)) (hidle : nearIdle s) (hwf : s.near.wf = true)
  (hok : ∀ x ∈ (lanesOn s g t).map (eaLane s a v t), InBounds h s.me x (t.width / 8) ∧ x.toNat % (t.width / 8) = 0) (hheld : nearHeld s h (.ldng g d a t v) = false) (hb : BanksFree s (.ldng g d a t v))
include hg hr hidle hwf hok hheld hb

/-- LDNG in its slot: the gathered value fills its destination. -/
theorem ldng_exec : ∃ own m p rd cs, (own = true ↔ ∀ x ∈ (lanesOn s g t).map (eaLane s a v t), ownSlice s x) ∧ m = (if own then conflicts ((lanesOn s g t).map (eaLane s a v t)) else 1) ∧
    SameEngines cs s.cores ∧ exec (.ldng g d a t v) s =
      .next (closeIssue (fillNear (opened (nearStalled s m) p rd cs 5) (.v d) own (5 + m) (otherLocs s h (t.width / 8) ((lanesOn s g t).map (eaLane s a v t))) (gathered s h g d a t v))) := by
  obtain ⟨p, rd, cs, e, hcs⟩ := inSlot_issuing s 5
  have hspans : nearSpans s (.ldng g d a t v) = (((lanesOn s g t).map (eaLane s a v t)).map fun x => (x, t.width / 8), t.width / 8) := congrArg (·, t.width / 8) (laneSpans hr.1)
  have hreads := reads_opened hr.1 p rd cs 5
  have hgang : gangOf (opened s p rd cs 5) (opened s p rd cs 5).me = some h := hg
  have hgather := gatherNear_idle (h := h) (u := opened s p rd cs 5) (k := laneBytes t) hwf (drainSlice_idle (v := opened s p rd cs 5) rfl rfl hidle) (laneEas s g a t v)
  refine ⟨(laneEas s g a t v).all (laneOwn s), _, (countEv (issuing s p rd) 6 ((if (laneEas s g a t v).all (laneOwn s) then bankRows (laneEas s g a t v) else 1) - 1)).perf, rd, cs, allOwn_iff, rfl,
    hcs, ?_⟩
  rw [nearAccess_effect (i := .ldng g d a t v) rfl (fun u => rfl) hr hg (spansOk_lanes hspans hok) hheld hb, e, ← bankRows_eq, ← otherLocs_eq]
  simp only [hgang, hreads.laneAddrs, hreads.vVal, hgather]
  rfl

end

theorem nearStalled_one : nearStalled s 1 = s := by
  rw [nearStalled, Nat.sub_self, BitVec.add_zero]

/-- NEARSTALL has no part in a result. -/
theorem DeliversIn.unstalled {u : State} {r : RegId} {m n : Nat} {y : Payload} (hd : DeliversIn (nearStalled s m) u r n y) : DeliversIn s u r n y := by
  unfold DeliversIn Owed at *
  exact hd

theorem nearGathers : NearGathers := by
  intro s g d a t v h hg ht hr hidle hwf
  have hspans : nearSpans s (.ldng g d a t v) = (((lanesOn s g t).map (eaLane s a v t)).map fun x => (x, t.width / 8), t.width / 8) := congrArg (·, t.width / 8) (laneSpans hr.1)
  obtain ⟨hbounds, halign⟩ := lanes_trap hspans (i := .ldng g d a t v) rfl hr hg
  refine ⟨fun hok hheld hb => ?_, hbounds, halign⟩
  obtain ⟨own, m, p, rd, cs, hown, hm, hcs, hexec⟩ := ldng_exec hg hr hidle hwf hok hheld hb
  cases own with
  | true =>
    obtain ⟨u, hu, hadv, hdel, hkept⟩ := fillNear_own (s := nearStalled s m) (r := .v d) (lat := 5 + m) hr.1 hcs
    refine ⟨u, _, 5 + m, by rw [hexec, hu], ⟨hadv.1, hadv.2⟩, hdel.unstalled, fun e he => gathered_at ht he, fun _ => ?_, fun hn => absurd (hown.mp rfl) hn⟩
    rw [if_pos rfl] at hm
    rw [← hm]
    exact ⟨rfl, hkept⟩
  | false =>
    have hsome : ¬ ∀ x ∈ (lanesOn s g t).map (eaLane s a v t), ownSlice s x := fun hall => Bool.false_ne_true (hown.mpr hall)
    rw [if_neg Bool.false_ne_true] at hm
    subst hm
    rw [nearStalled_one] at hexec
    obtain ⟨u, n, hu, hadv, hdel, hn1, hn, hloads, hkept⟩ := fillNear_other (r := .v d) (lat := 5 + 1) hr.1 hcs
    refine ⟨u, _, n, by rw [hexec, hu], hadv, hdel, fun e he => gathered_at ht he, fun hall => absurd hall hsome, fun _ => ⟨hn1, ?_, hloads, hkept⟩⟩
    rwa [otherLocs, List.map_map] at hn

/-- Settles O26: a near load and a gather are each one fill of their destination. -/
theorem nearLoadsAndGathers : Obligations.NearLoadsAndGathers := ⟨nearLoads, nearGathers⟩

end Sys2Proof.Machine
end

section
/-! PROOFS. Near stores (O27): one effect for the three, at once in the strand's own slice, on its way to another. -/

namespace Sys2Proof.Machine
open Sys2Proof Claims

variable {s : State} {i : Instr} {h : Gang} {a : Word} {n : Nat} {x : VVal} {p : Vector Word 8} {rd : Nat} {cs : List Core}

/-! ## Bytes -/

/-- The bytes of a store are those of the value. -/
theorem leBytes_byteOf (n y : Nat) (hn : n ≤ 128) : leBytes n y = (List.range n).map fun k => byteOf (BitVec.ofNat 1024 y) k := by
  refine List.ext_getElem (by simp [leBytes_length]) fun k h1 h2 => ?_
  have hk : k < n := by rwa [leBytes_length] at h1
  rw [List.getElem_map, List.getElem_range, byteOf_ofNat _ (hk.trans_le hn), ← Option.some_inj, ← List.getElem?_eq_getElem h1, leBytes_get, if_pos hk]

/-- The bytes of a store that is sent, each with its address. -/
theorem sent_bytes (f : Nat → Byte) (n loc : Nat) : (((List.range n).map f).zipIdx.map fun q => (loc + q.2, q.1)) = (List.range n).map fun k => (loc + k, f k) := by
  refine List.ext_getElem (by simp) fun k h1 h2 => ?_
  simp

/-! ## One effect for the three stores -/

/-- What a near store is at issue: an access of one span that stores a value's bytes. -/
theorem nearStore_shape (hl : nearStoreOf s i = some (a, n, x)) (hc : Calm s) : nearAccess i = true ∧ nearSpans s i = ([(a, n)], n) ∧ 0 < n ∧ n ≤ 128 ∧ ∃ (addr : State → Word) (val : State → Nat),
    (∀ v, exec i v = slotOp 5 i (fun v => nearStoreOp v (addr v) (leBytes n (val v))) v) ∧ addr (inSlot s 5) = a ∧ BitVec.ofNat 1024 (val (inSlot s 5)) = x := by
  have hclosed := reads_closed hc
  have hslot := reads_inSlot hc 5
  unfold nearStoreOf at hl
  split at hl
  · next d b o z =>
    cases hl
    refine ⟨rfl, ?_, szBytes_pos z, by cases z <;> decide, fun v => eaM v b o (szBytes z), fun v => (rdS v d).toNat, fun v => rfl, hslot.ea .., ?_⟩
    · rw [nearSpans, hclosed.ea]
    · simp only [hslot.sVal, BitVec.ofNat_toNat]
  · next d b o =>
    cases hl
    refine ⟨rfl, ?_, by decide, by decide, fun v => eaM v b o 128, fun v => (rdV v d).toNat, fun v => rfl, hslot.ea .., ?_⟩
    · rw [nearSpans, hclosed.ea]
    · simp only [hslot.vVal, BitVec.ofNat_toNat, BitVec.setWidth_eq]
  · next d b o =>
    cases hl
    refine ⟨rfl, ?_, by decide, by decide, fun v => eaM v b o 16, fun v => (rdP v d).toNat, fun v => rfl, hslot.ea .., ?_⟩
    · rw [nearSpans, hclosed.ea]
    · simp only [hslot.pVal, BitVec.ofNat_toNat]
  · cases hl

/-! ## In its slot -/

theorem launching_calm {v : State} (hc : Calm s) (hclosing : v.me.closing = s.me.closing) : launching v = false := by
  have hnone : s.me.closing = none := hc.2.2.1
  rw [launching, hclosing, hnone]

section
variable (hc : Calm s) (hg : gangOf s s.me = some h)
include hc hg

/-- A store of the bundle is one of the strand's slice that it names, at its physical address. -/
theorem nearStoreOp_opened (bs : List Byte) : nearStoreOp (opened s p rd cs 5) a bs = nearStore (opened s p rd cs 5) (opened s p rd cs 5).me (sliceOf s.me a) (nearPhys h s.me a.toNat) bs := by
  have hgang : gangOf (opened s p rd cs 5) (opened s p rd cs 5).me = some h := hg
  have hslice : nearSlice (opened s p rd cs 5).me a.toNat = sliceOf s.me a := nearSlice_eq _ a
  rw [nearStoreOp, hgang]
  simp only [storeOrHold, launching_calm (v := opened s p rd cs 5) hc rfl, Bool.false_eq_true, if_false, hslice]
  rfl

theorem nearStoreOp_own (hidle : nearIdle s) (hown : ownSlice s a) (bs : List Byte) : nearStoreOp (opened s p rd cs 5) a bs = nearWrite (opened s p rd cs 5) h.job (nearPhys h s.me a.toNat) bs := by
  have hjob : jobNum (opened s p rd cs 5) (opened s p rd cs 5).me = h.job := by
    have hgang : gangOf (opened s p rd cs 5) (opened s p rd cs 5).me = some h := hg
    rw [jobNum, hgang]
  have hslice : sliceOf s.me a = (opened s p rd cs 5).me.lidx.toNat := hown
  rw [nearStoreOp_opened hc hg, nearStore, if_pos hslice, drainSlice_idle (v := opened s p rd cs 5) rfl rfl hidle, hjob]

/-- The store that is sent. -/
theorem nearStoreOp_other (hown : ¬ ownSlice s a) (hn : n ≤ 128) (y : Nat) : nearStoreOp (opened s p rd cs 5) a (leBytes n y) = { opened s p rd cs 5 with
    nearOps := s.nearOps ++ [⟨s.nextId, s.me.sid, s.me.gid, sliceOf s.me a, nearPhys h s.me a.toNat, .store ((List.range n).map fun k => (nearPhys h s.me a.toNat + k, byteOf (BitVec.ofNat 1024 y) k)), true⟩]
    nextId := s.nextId + 1, fresh := s.fresh + 1
    timers := s.timers ++ [⟨s.clock + 1 + Config.delay s.fresh, .nearStorePerformed s.nextId⟩] } := by
  have hslice : sliceOf s.me a ≠ (opened s p rd cs 5).me.lidx.toNat := hown
  rw [nearStoreOp_opened hc hg, nearStore, if_neg hslice, leBytes_byteOf _ _ hn, sent_bytes]
  rfl

end

/-! ## The whole bundle -/

/-- The bundle with what near stores change, as it stands in another state: near memory, operations on their way and events due. -/
def stored (s : State) (p : Vector Word 8) (rd : Nat) (cs : List Core) (w : State) : State :=
  { opened s p rd cs 5 with near := w.near, unitJob := w.unitJob, nearOps := w.nearOps, nextId := w.nextId, fresh := w.fresh, timers := w.timers }

/-- A bundle that has only stored closes with that frame. -/
theorem close_stored {w : State} (hc : Calm s) (hcs : SameEngines cs s.cores) (hw : w = stored s p rd cs w) : ∃ t, closeIssue w = t ∧ Advanced s t ∧ (∀ job b, nearByte t job b = nearByte w job b) ∧
    t.near = w.near ∧ t.nearOps = w.nearOps ∧ t.nextId = w.nextId ∧ t.fresh = w.fresh ∧ t.timers = w.timers ∧
    Kept { s with near := t.near, unitJob := t.unitJob, nearOps := t.nearOps, nextId := t.nextId, fresh := t.fresh } t [] := by
  obtain ⟨hkept, hadv, htimers, -⟩ := close_kept (e := { s with near := w.near, unitJob := w.unitJob, nearOps := w.nearOps, nextId := w.nextId, fresh := w.fresh })
    (u := stored s p rd cs w) (rs := []) hc rfl rfl rfl rfl rfl rfl (fun _ _ => rfl) (fun _ => rfl) hcs
  have hclose := closeIssue_calm (u := stored s p rd cs w) hc rfl rfl rfl
  have hnear : (closeIssue (stored s p rd cs w)).near = w.near := by rw [hclose]; rfl
  have hunit : (closeIssue (stored s p rd cs w)).unitJob = w.unitJob := by rw [hclose]; rfl
  have hops : (closeIssue (stored s p rd cs w)).nearOps = w.nearOps := by rw [hclose]; rfl
  have hid : (closeIssue (stored s p rd cs w)).nextId = w.nextId := by rw [hclose]; rfl
  have hfresh : (closeIssue (stored s p rd cs w)).fresh = w.fresh := by rw [hclose]; rfl
  refine ⟨closeIssue (stored s p rd cs w), congrArg closeIssue hw, hadv, fun job b => ?_, hnear, hops, hid, hfresh, htimers, ?_⟩
  · rw [nearByte, nearByte, unitIs, unitIs, hnear, hunit]
  · rw [hnear, hunit, hops, hid, hfresh]
    exact hkept

theorem store_own {job loc y : Nat} (hc : Calm s) (hcs : SameEngines cs s.cores) (hwf : s.near.wf = true) (hn : n ≤ 128) :
    ∃ t, closeIssue (nearWrite (opened s p rd cs 5) job loc (leBytes n y)) = t ∧ Advanced s t ∧ t.timers = s.timers ∧
      (∀ b, nearByte t job b = if loc ≤ b ∧ b < loc + n then byteOf (BitVec.ofNat 1024 y) (b - loc) else nearByte s job b) ∧
      (∀ b, b / 4096 ≠ loc / 4096 → b / 4096 ≠ (loc + n - 1) / 4096 → t.near.read b = s.near.read b) ∧ Kept { s with near := t.near, unitJob := t.unitJob } t [] := by
  let v := opened s p rd cs 5
  have hframe := (nearWrite_spec v job loc (leBytes n y)).1
  have hstored : nearWrite v job loc (leBytes n y) = stored s p rd cs (nearWrite v job loc (leBytes n y)) := by rw [hframe]; rfl
  obtain ⟨t, ht, hadv, hbytes, hnear, hops, hid, hfresh, htimers, hkept⟩ := close_stored hc hcs hstored
  refine ⟨t, ht, hadv, htimers.trans (by rw [hframe]; rfl), fun b => ?_, fun b h1 h2 => ?_, ?_⟩
  · rw [hbytes, nearByte_nearWrite (s := v) hwf, leBytes_length]
    by_cases hin : loc ≤ b ∧ b < loc + n
    · rw [if_pos hin, if_pos hin, leBytes_byteOf _ _ hn, range_getD, if_pos (by omega)]
    · rw [if_neg hin, if_neg hin]
      rfl
  · rw [hnear]
    exact read_nearWrite_other (s := v) hwf _ (by rw [leBytes_length]; omega)
  · rw [hops, hid, hfresh, hframe] at hkept
    exact hkept

theorem store_other {op : NearOp} (hc : Calm s) (hcs : SameEngines cs s.cores) (ts : List Timer) :
    ∃ t, closeIssue { opened s p rd cs 5 with nearOps := s.nearOps ++ [op], nextId := s.nextId + 1, fresh := s.fresh + 1, timers := ts } = t ∧ Advanced s t ∧ t.timers = ts ∧
      Kept { s with nearOps := s.nearOps ++ [op], nextId := s.nextId + 1, fresh := s.fresh + 1 } t [] := by
  obtain ⟨hkept, hadv, htimers, -⟩ := close_kept (e := { s with nearOps := s.nearOps ++ [op], nextId := s.nextId + 1, fresh := s.fresh + 1 })
    (u := { opened s p rd cs 5 with nearOps := s.nearOps ++ [op], nextId := s.nextId + 1, fresh := s.fresh + 1, timers := ts }) (rs := []) hc rfl rfl rfl rfl rfl rfl (fun _ _ => rfl) (fun _ => rfl) hcs
  exact ⟨_, rfl, hadv, htimers, hkept⟩

theorem nearStores : NearStores := by
  intro s i h a n x hg hl hr hidle hwf
  obtain ⟨hi, hspans, hpos, hn, addr, val, hexec, haddr, hval⟩ := nearStore_shape hl hr.1
  obtain ⟨hbounds, halign⟩ := single_traps hi hspans hr hg
  refine ⟨fun hin ha hheld hb => ?_, hbounds, halign⟩
  obtain ⟨p, rd, cs, e, hcs⟩ := inSlot_issuing s 5
  have heff := nearAccess_effect hi hexec hr hg (spansOk_single hspans hin ha) hheld hb
  rw [haddr, e] at heff
  rw [e] at hval
  by_cases hown : ownSlice s a
  · rw [nearStoreOp_own hr.1 hg hidle hown] at heff
    obtain ⟨t, ht, hadv, htimers, hbytes, hother, hkept⟩ := store_own (job := h.job) (loc := nearPhys h s.me a.toNat) (y := val (opened s p rd cs 5)) hr.1 hcs hwf hn
    rw [hval] at hbytes
    exact ⟨t, by rw [heff, ht], hadv, fun _ => ⟨htimers, hbytes, hother, hkept⟩, fun hn => absurd hown hn⟩
  · rw [nearStoreOp_other hr.1 hg hown hn, hval] at heff
    obtain ⟨t, ht, hadv, htimers, hkept⟩ := store_other hr.1 hcs _
    exact ⟨t, by rw [heff, ht], hadv, fun ho => absurd ho hown, fun _ => ⟨htimers, hkept⟩⟩

end Sys2Proof.Machine
end

section
/-! PROOFS. The lanes of a scatter at a slice (O27): each combines its element with the one at its address, and no other near byte changes. -/

namespace Sys2Proof.Machine
open Sys2Proof Claims

variable {s : State} {o : ScatF} {t : Ty} {old d job loc : Nat}

/-! ## One lane -/

theorem byType_int (h : isFloatTy t = false) (f : FFmt → Nat) (y : Nat) : byType t f y = y := by
  have hnone : fmtOf t = none := by
    cases hf : fmtOf t with
    | none => rfl
    | some m =>
      rw [isFloatTy, hf] at h
      cases h
  rw [byType, hnone]

theorem fminB_lt (hold : old < 2 ^ 32) (hd : d < 2 ^ 32) : fminB fmtF32 old d < 2 ^ 32 := by
  have := qnanBits_lt
  unfold fminB
  simp only
  split_ifs <;> assumption

theorem fmaxB_lt (hold : old < 2 ^ 32) (hd : d < 2 ^ 32) : fmaxB fmtF32 old d < 2 ^ 32 := by
  have := qnanBits_lt
  unfold fmaxB
  simp only
  split_ifs <;> assumption

/-- The lesser, as bits. -/
theorem wrapT_min (hold : old < 2 ^ t.width) (hd : d < 2 ^ t.width) : wrapT t (min (num t old) (num t d)) = if intVal t d < intVal t old then d else old := by
  rw [← num_eq_intVal hold, ← num_eq_intVal hd]
  split
  · next h => rw [min_eq_right h.le, wrapT_num hd]
  · next h => rw [min_eq_left (not_lt.mp h), wrapT_num hold]

/-- The greater, as bits. -/
theorem wrapT_max (hold : old < 2 ^ t.width) (hd : d < 2 ^ t.width) : wrapT t (max (num t old) (num t d)) = if intVal t old < intVal t d then d else old := by
  rw [← num_eq_intVal hold, ← num_eq_intVal hd]
  split
  · next h => rw [max_eq_right h.le, wrapT_num hd]
  · next h => rw [max_eq_left (not_lt.mp h), wrapT_num hold]

theorem scatterValue_f32 : scatterValue o .f32 old d = combined o .f32 old d := by cases o <;> rfl

theorem scatterValue_int (h : isFloatTy t = false) (hold : old < 2 ^ t.width) (hd : d < 2 ^ t.width) : scatterValue o t old d = combined o t old d := by
  have hne : t ≠ .f32 := by
    rintro rfl
    cases h
  cases o with
  | plain => rfl
  | add => rw [scatterValue, combined, if_neg hne, byType_int h, num_eq_intVal hold, num_eq_intVal hd, wrapT_eq_wrapN]
  | min => rw [scatterValue, combined, if_neg hne, byType_int h, wrapT_min hold hd]
  | max => rw [scatterValue, combined, if_neg hne, byType_int h, wrapT_max hold hd]

theorem combined_f32_lt (hold : old < 2 ^ 32) (hd : d < 2 ^ 32) : combined o .f32 old d < 2 ^ 32 := by
  cases o with
  | plain => exact hd
  | add => exact faddB_lt old d
  | min => exact fminB_lt hold hd
  | max => exact fmaxB_lt hold hd

theorem combined_int_lt (h : isFloatTy t = false) (hd : d < 2 ^ t.width) : combined o t old d < 2 ^ t.width := by
  cases o with
  | plain => exact hd
  | add => exact (byType_int h _ _).trans_lt (wrapN_lt _ _)
  | min => exact (byType_int h _ _).trans_lt (wrapN_lt _ _)
  | max => exact (byType_int h _ _).trans_lt (wrapN_lt _ _)

/-- What a lane leaves is what R209 says, an element of its type; a combination of floats is of f32. -/
theorem scatterValue_combined (hf : o ≠ .plain → isFloatTy t = true → t = .f32) (hold : old < 2 ^ t.width) (hd : d < 2 ^ t.width) :
    scatterValue o t old d = combined o t old d ∧ combined o t old d < 2 ^ t.width := by
  by_cases ho : o = .plain
  · subst ho
    exact ⟨rfl, hd⟩
  · cases h : isFloatTy t with
    | false => exact ⟨scatterValue_int h hold hd, combined_int_lt h hd⟩
    | true =>
      obtain rfl := hf ho h
      exact ⟨scatterValue_f32, combined_f32_lt hold hd⟩

/-! ## All lanes of a slice -/

/-- Near memory after the lanes of a scatter: each element as they have combined it, every other byte as it was (R209). -/
def Scattered (s u : State) (job : Nat) (o : ScatF) (t : Ty) (ls : List (Nat × Nat)) : Prop :=
  (∀ l ∈ ls, elementAt u job l.1 (t.width / 8) = afterLanes o t l.1 (elementAt s job l.1 (t.width / 8)) ls) ∧
  ∀ b, (∀ l ∈ ls, ¬ (l.1 ≤ b ∧ b < l.1 + t.width / 8)) → nearByte u job b = nearByte s job b

/-- The elements at two aligned addresses are the same or have no byte in common. -/
theorem aligned_apart {k a b : Nat} (ha : a % k = 0) (hb : b % k = 0) (hne : a ≠ b) : a + k ≤ b ∨ b + k ≤ a := by
  obtain ⟨m, rfl⟩ := Nat.dvd_of_mod_eq_zero ha
  obtain ⟨n, rfl⟩ := Nat.dvd_of_mod_eq_zero hb
  rcases lt_trichotomy m n with h | rfl | h
  · exact .inl (Nat.mul_le_mul_left k h)
  · exact absurd rfl hne
  · exact .inr (Nat.mul_le_mul_left k h)

/-- A write of an element, seen at an aligned address. -/
theorem elementAt_aligned {k y a : Nat} (hwf : s.near.wf = true) (hy : y < 256 ^ k) (ha : a % k = 0) (hloc : loc % k = 0) :
    elementAt (nearWrite s job a (leBytes k y)) job loc k = if a = loc then y else elementAt s job loc k := by
  split
  · next h => rw [← h, elementAt_nearWrite hwf, Nat.mod_eq_of_lt hy]
  · next h =>
    refine elementAt_congr fun j hj => ?_
    rw [nearByte_nearWrite hwf, leBytes_length, if_neg]
    have := aligned_apart ha hloc h
    omega

/-- The state after one lane. -/
def afterLane (s : State) (job : Nat) (o : ScatF) (t : Ty) (l : Nat × Nat) : State := nearWrite s job l.1 (leBytes (t.width / 8) (scatterValue o t (leNat (nearBytes s job l.1 (t.width / 8))) l.2))

theorem scatterLanes_cons (l : Nat × Nat) (ls : List (Nat × Nat)) : scatterLanes s job o t (l :: ls) = scatterLanes (afterLane s job o t l) job o t ls := rfl

theorem afterLane_wf (hwf : s.near.wf = true) (l : Nat × Nat) : (afterLane s job o t l).near.wf = true := nearWrite_wf hwf _

section
variable (hf : o ≠ .plain → isFloatTy t = true → t = .f32) (ht : t ≠ .bit)
include hf ht

theorem afterLane_element {l : Nat × Nat} (hwf : s.near.wf = true) (hd : l.2 < 2 ^ t.width) (hl : l.1 % (t.width / 8) = 0) (hloc : loc % (t.width / 8) = 0) :
    elementAt (afterLane s job o t l) job loc (t.width / 8) = if l.1 = loc then combined o t (elementAt s job loc (t.width / 8)) l.2 else elementAt s job loc (t.width / 8) := by
  have hold : elementAt s job l.1 (t.width / 8) < 2 ^ t.width := by
    rw [← pow_width ht]
    exact elementAt_lt _
  obtain ⟨hvalue, hlt⟩ := scatterValue_combined hf hold hd
  rw [afterLane, leNat_nearBytes hwf, hvalue, elementAt_aligned hwf (by rwa [pow_width ht]) hl hloc]
  split
  · next h => rw [h]
  · rfl

theorem scatterLanes_element (ls : List (Nat × Nat)) (hwf : s.near.wf = true) (hd : ∀ l ∈ ls, l.2 < 2 ^ t.width) (hl : ∀ l ∈ ls, l.1 % (t.width / 8) = 0) (hloc : loc % (t.width / 8) = 0) :
    elementAt (scatterLanes s job o t ls) job loc (t.width / 8) = afterLanes o t loc (elementAt s job loc (t.width / 8)) ls := by
  induction ls generalizing s with
  | nil => rfl
  | cons l ls ih =>
    rw [scatterLanes_cons, ih (afterLane_wf hwf l) (fun m hm => hd m (List.mem_cons_of_mem _ hm)) (fun m hm => hl m (List.mem_cons_of_mem _ hm)),
      afterLane_element hf ht hwf (hd l List.mem_cons_self) (hl l List.mem_cons_self) hloc]
    rfl

end

theorem scatterLanes_other (ls : List (Nat × Nat)) (hwf : s.near.wf = true) {b : Nat} (hb : ∀ l ∈ ls, ¬ (l.1 ≤ b ∧ b < l.1 + t.width / 8)) : nearByte (scatterLanes s job o t ls) job b = nearByte s job b := by
  induction ls generalizing s with
  | nil => rfl
  | cons l ls ih =>
    rw [scatterLanes_cons, ih (afterLane_wf hwf l) fun m hm => hb m (List.mem_cons_of_mem _ hm), afterLane, nearByte_nearWrite hwf, leBytes_length, if_neg (hb l List.mem_cons_self)]

theorem scatterLanes_scattered (hf : o ≠ .plain → isFloatTy t = true → t = .f32) (ht : t ≠ .bit) (ls : List (Nat × Nat)) (hwf : s.near.wf = true) (hd : ∀ l ∈ ls, l.2 < 2 ^ t.width)
    (hl : ∀ l ∈ ls, l.1 % (t.width / 8) = 0) : Scattered s (scatterLanes s job o t ls) job o t ls :=
  ⟨fun l hm => scatterLanes_element hf ht ls hwf hd hl (hl l hm), fun _ hb => scatterLanes_other ls hwf hb⟩

theorem scatterLanes_wf (ls : List (Nat × Nat)) (hwf : s.near.wf = true) : (scatterLanes s job o t ls).near.wf = true := by
  induction ls generalizing s with
  | nil => exact hwf
  | cons l ls ih => exact ih (afterLane_wf hwf l)

/-- The lanes of a slice change near memory and its units only. -/
theorem scatterLanes_frame (ls : List (Nat × Nat)) (s : State) : scatterLanes s job o t ls = { s with near := (scatterLanes s job o t ls).near, unitJob := (scatterLanes s job o t ls).unitJob } := by
  induction ls generalizing s with
  | nil => rfl
  | cons l ls ih =>
    rw [scatterLanes_cons, ih, afterLane, (nearWrite_spec s job l.1 _).1]

end Sys2Proof.Machine
end

section
/-! PROOFS. Scatters (O27): one operation for each slice that the lanes name, performed in the strand's own slice and sent to every other. -/

namespace Sys2Proof.Machine
open Sys2Proof Claims

variable {s : State} {h : Gang} {g : BitVec 4} {d v : BitVec 5} {a : BitVec 6} {o : ScatF} {t : Ty}

/-! ## Slice by slice -/

/-- The part of STNS at one slice. -/
def scatterStep (h : Gang) (m : Strand) (o : ScatF) (t : Ty) (mine : Nat → List (Nat × Nat)) (w : State) (k : Nat) : State :=
  if launching w then holdStore w k (((mine k).map (·.1)).headD 0) (.scatter o t (mine k))
  else if k = m.lidx.toNat then scatterLanes (drainSlice w m.sid k) h.job o t (mine k)
  else sendNear w m k (((mine k).map (·.1)).headD 0) (.scatter o t (mine k)) .nearStorePerformed

/-- What arrives of an operation that is sent. -/
def arrival (w : State) (q : NearOp × Nat) : Timer := ⟨w.clock + 1 + q.2, .nearStorePerformed q.1.id⟩

/-- A state after operations have been sent, each with its delay. -/
def withSent (w u : State) (sent : List (NearOp × Nat)) : State :=
  { w with near := u.near, unitJob := u.unitJob, nearOps := w.nearOps ++ sent.map (·.1), nextId := u.nextId, fresh := u.fresh, timers := w.timers ++ sent.map (arrival w) }

section
variable {m : Strand} {mine : Nat → List (Nat × Nat)} {w : State}

theorem scatterStep_own (hlaunch : launching w = false) (hidle : ∀ x ∈ w.nearOps, x.sid = m.sid → x.slice ≠ m.lidx.toNat) :
    scatterStep h m o t mine w m.lidx.toNat = scatterLanes w h.job o t (mine m.lidx.toNat) := by
  have hdrain : drainSlice w m.sid m.lidx.toNat = w := drainNear_none fun x hx hp => hidle x hx hp.1 (beq_iff_eq.mp hp.2.2)
  rw [scatterStep, hlaunch, if_neg Bool.false_ne_true, if_pos rfl, hdrain]

/-- What is sent to another slice. -/
def sentOp (m : Strand) (o : ScatF) (t : Ty) (mine : Nat → List (Nat × Nat)) (w : State) (k : Nat) : NearOp := ⟨w.nextId, m.sid, m.gid, k, ((mine k).map (·.1)).headD 0, .scatter o t (mine k), true⟩

/-- The state that has sent it. -/
def sentTo (m : Strand) (o : ScatF) (t : Ty) (mine : Nat → List (Nat × Nat)) (w : State) (k : Nat) : State :=
  { w with nearOps := w.nearOps ++ [sentOp m o t mine w k], nextId := w.nextId + 1, fresh := w.fresh + 1, timers := w.timers ++ [arrival w (sentOp m o t mine w k, Config.delay w.fresh)] }

theorem scatterStep_other {k : Nat} (hlaunch : launching w = false) (hk : k ≠ m.lidx.toNat) : scatterStep h m o t mine w k = sentTo m o t mine w k := by
  rw [scatterStep, hlaunch, if_neg Bool.false_ne_true, if_neg hk]
  rfl

/-- What the parts of a scatter make of a state, the strand's own slice among them or not. -/
structure Performed (h : Gang) (m : Strand) (o : ScatF) (t : Ty) (mine : Nat → List (Nat × Nat)) (ks : List Nat) (w u : State) (sent : List (NearOp × Nat)) : Prop where
  frame : u = withSent w u sent
  slices : sent.map (·.1.slice) = ks.filter fun k => decide (k ≠ m.lidx.toNat)
  ops : ∀ q ∈ sent, q.1.sid = m.sid ∧ q.1.sent = true ∧ q.1.what = .scatter o t (mine q.1.slice)
  own : m.lidx.toNat ∈ ks → Scattered w u h.job o t (mine m.lidx.toNat)
  kept : m.lidx.toNat ∉ ks → ∀ b, nearByte u h.job b = nearByte w h.job b

theorem Scattered.congr {u u' : State} {job : Nat} {ls : List (Nat × Nat)} (hs : Scattered w u job o t ls) (hu : ∀ b, nearByte u' job b = nearByte u job b) : Scattered w u' job o t ls :=
  ⟨fun l hl => (elementAt_congr fun _ _ => hu _).trans (hs.1 l hl), fun b hb => (hu b).trans (hs.2 b hb)⟩

/-- A part that is sent, before the rest. -/
theorem Performed.cons_other {k : Nat} {ks : List Nat} {u : State} {sent : List (NearOp × Nat)} (hk : k ≠ m.lidx.toNat) (hp : Performed h m o t mine ks (sentTo m o t mine w k) u sent) :
    Performed h m o t mine (k :: ks) w u ((sentOp m o t mine w k, Config.delay w.fresh) :: sent) := by
  refine ⟨?_, ?_, fun q hq => ?_, fun hown => ?_, fun hown => ?_⟩
  · rw [withSent, List.map_cons, List.map_cons, List.append_cons w.nearOps, List.append_cons w.timers]
    exact hp.frame
  · have hpos : decide (k ≠ m.lidx.toNat) = true := decide_eq_true hk
    rw [List.map_cons, hp.slices, List.filter_cons, hpos]
    rfl
  · rcases List.mem_cons.mp hq with rfl | hq
    · exact ⟨rfl, rfl, rfl⟩
    · exact hp.ops q hq
  · exact hp.own ((List.mem_cons.mp hown).resolve_left fun he => hk he.symm)
  · exact hp.kept fun hm => hown (List.mem_cons_of_mem _ hm)

/-- The part at the strand's own slice, before the rest. -/
theorem Performed.cons_own {ks : List Nat} {w' u : State} {sent : List (NearOp × Nat)} (hk : m.lidx.toNat ∉ ks) (hw : w' = { w with near := w'.near, unitJob := w'.unitJob })
    (hs : Scattered w w' h.job o t (mine m.lidx.toNat)) (hp : Performed h m o t mine ks w' u sent) : Performed h m o t mine (m.lidx.toNat :: ks) w u sent := by
  refine ⟨hp.frame.trans ?_, ?_, hp.ops, fun _ => hs.congr (hp.kept hk), fun hown => absurd List.mem_cons_self hown⟩
  · rw [hw]
    rfl
  · rw [hp.slices, List.filter_cons_of_neg (by simp)]

/-- All parts, in turn. -/
theorem scatter_performed (hf : o ≠ .plain → isFloatTy t = true → t = .f32) (ht : t ≠ .bit) (hd : ∀ l ∈ mine m.lidx.toNat, l.2 < 2 ^ t.width) (hl : ∀ l ∈ mine m.lidx.toNat, l.1 % (t.width / 8) = 0)
    (ks : List Nat) (hks : ks.Nodup) (hlaunch : launching w = false) (hwf : w.near.wf = true) (hidle : ∀ x ∈ w.nearOps, x.sid = m.sid → x.slice ≠ m.lidx.toNat) :
    ∃ sent, Performed h m o t mine ks w (ks.foldl (scatterStep h m o t mine) w) sent := by
  induction ks generalizing w with
  | nil => exact ⟨[], by simp [withSent], rfl, nofun, nofun, fun _ _ => rfl⟩
  | cons k ks ih =>
    obtain ⟨hk, hrest⟩ := List.nodup_cons.mp hks
    rw [List.foldl_cons]
    by_cases hown : k = m.lidx.toNat
    · subst hown
      rw [scatterStep_own hlaunch hidle]
      have hframe := scatterLanes_frame (job := h.job) (o := o) (t := t) (mine m.lidx.toNat) w
      have hs := scatterLanes_scattered (job := h.job) hf ht (mine m.lidx.toNat) hwf hd hl
      have hwf' := scatterLanes_wf (job := h.job) (o := o) (t := t) (mine m.lidx.toNat) hwf
      obtain ⟨sent, hp⟩ := ih hrest (w := scatterLanes w h.job o t (mine m.lidx.toNat)) (by rw [hframe]; exact hlaunch) hwf' (by rw [hframe]; exact hidle)
      exact ⟨sent, hp.cons_own hk hframe hs⟩
    · rw [scatterStep_other hlaunch hown]
      have hidle' : ∀ x ∈ (sentTo m o t mine w k).nearOps, x.sid = m.sid → x.slice ≠ m.lidx.toNat := by
        intro x hx hsid
        rcases List.mem_append.mp hx with hx | hx
        · exact hidle x hx hsid
        · obtain rfl := List.mem_singleton.mp hx
          exact hown
      obtain ⟨sent, hp⟩ := ih hrest (w := sentTo m o t mine w k) hlaunch hwf hidle'
      exact ⟨_, hp.cons_other hown⟩

end

/-! ## The lanes -/

/-- What is made of each enabled lane's address and element. -/
theorem laneEas_zip {α : Type} (ht : t ≠ .bit) (x : VVal) (f : Word → Nat → α) :
    ((laneEas s g a t v).zip (velems t.width x)).filterMap (fun q => q.1.map fun ea => f ea q.2) = (lanesOn s g t).map fun e => f (eaLane s a v t e) (el t.width x e) := by
  have hzip : (laneEas s g a t v).zip (velems t.width x) = (List.range (laneCount t)).map fun e => (if on s g t.width e then some (eaLane s a v t e) else none, el t.width x e) := by
    refine List.ext_getElem ?_ fun e h1 h2 => ?_
    · simp [laneEas, velems_length, lanes_fit ht]
    · have he : e < 1024 / t.width := by
        have := lanes_fit ht
        have : e < laneCount t := by simpa using h2
        omega
      have hel : (velems t.width x)[e]'(by rwa [velems_length]) = el t.width x e := by rw [← List.getD_eq_getElem _ 0, velems_at _ _ _ he]; rfl
      simp [laneEas, hel]
  rw [hzip, List.filterMap_map, lanesOn, ← filterMap_if]
  refine List.filterMap_congr fun e _ => ?_
  by_cases ho : on s g t.width e
  · simp only [Function.comp_apply, if_pos ho, Option.map_some]
  · simp only [Function.comp_apply, if_neg ho, Option.map_none]

/-- The slices of the enabled lanes, each once. -/
def scatterSlices (s : State) (g : BitVec 4) (a : BitVec 6) (t : Ty) (v : BitVec 5) : List Nat := ((lanesOn s g t).map fun e => sliceOf s.me (eaLane s a v t e)).dedup

/-- The lanes of a slice, each with its physical address and its element. -/
def lanesAt (s : State) (h : Gang) (g : BitVec 4) (d : BitVec 5) (a : BitVec 6) (t : Ty) (v : BitVec 5) (k : Nat) : List (Nat × Nat) :=
  ((lanesOn s g t).filter fun e => sliceOf s.me (eaLane s a v t e) == k).map fun e => (nearPhys h s.me (eaLane s a v t e).toNat, el t.width (vVal s d) e)

/-- Each enabled lane: its slice, its physical address and its element. -/
def scatterList (s : State) (h : Gang) (g : BitVec 4) (d : BitVec 5) (a : BitVec 6) (t : Ty) (v : BitVec 5) : List (Nat × Nat × Nat) :=
  (lanesOn s g t).map fun e => (sliceOf s.me (eaLane s a v t e), nearPhys h s.me (eaLane s a v t e).toNat, el t.width (vVal s d) e)

theorem scatterList_zip (ht : t ≠ .bit) : (((laneEas s g a t v).zip (velems t.width (vVal s d))).filterMap fun q => q.1.map fun ea => (sliceOf s.me ea, nearPhys h s.me ea.toNat, q.2)) = scatterList s h g d a t v :=
  laneEas_zip ht (vVal s d) fun x y => (sliceOf s.me x, nearPhys h s.me x.toNat, y)

theorem scatterList_slices : (scatterList s h g d a t v).map (·.1) = (lanesOn s g t).map fun e => sliceOf s.me (eaLane s a v t e) := List.map_map

theorem scatterList_at (k : Nat) : ((scatterList s h g d a t v).filter fun l => l.1 == k).map (·.2) = lanesAt s h g d a t v k := by
  rw [scatterList, List.filter_map, List.map_map]
  rfl

theorem mem_scatterSlices (k : Nat) : k ∈ scatterSlices s g a t v ↔ lanesAt s h g d a t v k ≠ [] := by
  simp [scatterSlices, lanesAt]

theorem lane_lt (k : Nat) : ∀ l ∈ lanesAt s h g d a t v k, l.2 < 2 ^ t.width := by
  intro l hl
  obtain ⟨e, -, rfl⟩ := List.mem_map.mp hl
  exact el_lt _ _ _

/-- An aligned near address is aligned in its slice, whose allocation begins at a page. -/
theorem nearPhys_aligned {m : Strand} {k : Nat} {x : Word} (halloc : ∀ q ∈ h.alloc, q.2 % 4096 = 0) (hk : k ∣ 4096) (hx : x.toNat % k = 0) : nearPhys h m x.toNat % k = 0 := by
  have hoff : k ∣ (x.extractLsb' 0 20).toNat := by
    rw [BitVec.extractLsb'_toNat, Nat.shiftRight_zero]
    exact (Nat.dvd_mod_iff (hk.trans (by decide))).mpr (Nat.dvd_of_mod_eq_zero hx)
  rw [nearPhys, slicePhys, nearOff_eq]
  cases hq : h.alloc[nearSlice m x.toNat]? with
  | none => exact Nat.zero_mod k
  | some q =>
    have hbase : k ∣ q.2 := hk.trans (Nat.dvd_of_mod_eq_zero (halloc q (List.mem_of_getElem? hq)))
    exact Nat.mod_eq_zero_of_dvd ((dvd_mul_of_dvd_right (hk.trans (by decide)) q.1).add (hbase.add hoff))

theorem width_dvd (ht : t ≠ .bit) : t.width / 8 ∣ 4096 := by
  cases t with
  | bit => exact absurd rfl ht
  | _ => decide

theorem lane_aligned (ht : t ≠ .bit) (halloc : ∀ q ∈ h.alloc, q.2 % 4096 = 0) (hok : ∀ x ∈ (lanesOn s g t).map (eaLane s a v t), InBounds h s.me x (t.width / 8) ∧ x.toNat % (t.width / 8) = 0) (k : Nat) :
    ∀ l ∈ lanesAt s h g d a t v k, l.1 % (t.width / 8) = 0 := by
  intro l hl
  obtain ⟨e, he, rfl⟩ := List.mem_map.mp hl
  exact nearPhys_aligned halloc (width_dvd ht) (hok _ (List.mem_map_of_mem (List.mem_of_mem_filter he))).2

/-! ## The whole bundle -/

/-- STNS in its slot: its parts, slice by slice. -/
theorem stns_exec (hg : gangOf s s.me = some h) (ht : t ≠ .bit) (hr : Ready s (.stns g d a o t v))
    (hok : ∀ x ∈ (lanesOn s g t).map (eaLane s a v t), InBounds h s.me x (t.width / 8) ∧ x.toNat % (t.width / 8) = 0) (hheld : nearHeld s h (.stns g d a o t v) = false)
    (hb : BanksFree s (.stns g d a o t v)) : ∃ p rd cs, SameEngines cs s.cores ∧
    exec (.stns g d a o t v) s = .next (closeIssue ((scatterSlices s g a t v).foldl (scatterStep h (opened s p rd cs 5).me o t (lanesAt s h g d a t v)) (opened s p rd cs 5))) := by
  obtain ⟨p, rd, cs, e, hcs⟩ := inSlot_issuing s 5
  have hspans : nearSpans s (.stns g d a o t v) = (((lanesOn s g t).map (eaLane s a v t)).map fun x => (x, t.width / 8), t.width / 8) := congrArg (·, t.width / 8) (laneSpans hr.1)
  have hreads := reads_opened hr.1 p rd cs 5
  have hgang : gangOf (opened s p rd cs 5) (opened s p rd cs 5).me = some h := hg
  have hslice (x : Word) : nearSlice (opened s p rd cs 5).me x.toNat = sliceOf s.me x := nearSlice_eq _ x
  have hphys (x : Nat) : nearPhys h (opened s p rd cs 5).me x = nearPhys h s.me x := rfl
  refine ⟨p, rd, cs, hcs, ?_⟩
  rw [nearAccess_effect (i := .stns g d a o t v) rfl (fun u => rfl) hr hg (spansOk_lanes hspans hok) hheld hb, e]
  simp only [hgang, hreads.laneAddrs, hreads.vVal, hslice, hphys, scatterList_zip ht, scatterList_slices, scatterList_at]
  rfl

theorem nearScatters : NearScatters := by
  intro s g d a o t v h hg ht hf _ hr hidle hwf
  have hspans : nearSpans s (.stns g d a o t v) = (((lanesOn s g t).map (eaLane s a v t)).map fun x => (x, t.width / 8), t.width / 8) := congrArg (·, t.width / 8) (laneSpans hr.1)
  obtain ⟨hbounds, halign⟩ := lanes_trap hspans (i := .stns g d a o t v) rfl hr hg
  refine ⟨fun hok hheld hb halloc => ?_, hbounds, halign⟩
  obtain ⟨p, rd, cs, hcs, hexec⟩ := stns_exec hg ht hr hok hheld hb
  let own := s.me.lidx.toNat
  obtain ⟨sent, hp⟩ := scatter_performed (h := h) (m := (opened s p rd cs 5).me) (mine := lanesAt s h g d a t v) (w := opened s p rd cs 5) hf ht (lane_lt _) (lane_aligned ht halloc hok _)
    (scatterSlices s g a t v) (List.nodup_dedup _) (launching_calm (v := opened s p rd cs 5) hr.1 rfl) hwf (fun x hx hsid => absurd hsid (hidle x hx))
  generalize hw : (scatterSlices s g a t v).foldl (scatterStep h (opened s p rd cs 5).me o t (lanesAt s h g d a t v)) (opened s p rd cs 5) = w at hexec hp
  have hops : w.nearOps = s.nearOps ++ sent.map (·.1) := congrArg State.nearOps hp.frame
  have htimers : w.timers = s.timers ++ sent.map (arrival s) := congrArg State.timers hp.frame
  obtain ⟨u, hu, hadv, hbytes, -, hops', -, -, htimers', hkept⟩ := close_stored hr.1 hcs (hp.frame.trans (by rw [stored, hops, htimers]; rfl))
  have hown : Scattered s u h.job o t (lanesAt s h g d a t v own) := by
    by_cases hmem : own ∈ scatterSlices s g a t v
    · exact (hp.own hmem).congr (hbytes h.job)
    · have hnil : lanesAt s h g d a t v own = [] := not_not.mp fun hne => hmem ((mem_scatterSlices own).mpr hne)
      rw [hnil]
      exact ⟨nofun, fun b _ => (hbytes h.job b).trans (hp.kept hmem b)⟩
  refine ⟨u, sent.map (·.1), by rw [hexec, hu], hadv, hops'.trans hops, ?_, ?_, hkept, hown.1, hown.2, ?_, fun k hk hne => ?_, fun op hop => ?_⟩
  · rw [htimers', htimers, List.take_left]
  · rw [htimers', htimers, List.length_append, List.length_map, List.length_map]
  · rw [List.map_map]
    exact hp.slices ▸ (List.nodup_dedup _).filter _
  · have hmem : k ∈ sent.map (·.1.slice) := hp.slices ▸ List.mem_filter.mpr ⟨(mem_scatterSlices k).mpr hne, decide_eq_true hk⟩
    obtain ⟨q, hq, rfl⟩ := List.mem_map.mp hmem
    exact ⟨q.1, List.mem_map_of_mem hq, rfl⟩
  · obtain ⟨q, hq, rfl⟩ := List.mem_map.mp hop
    have hslice : q.1.slice ∈ sent.map (·.1.slice) := List.mem_map_of_mem hq
    rw [hp.slices] at hslice
    obtain ⟨hsid, hsent, hwhat⟩ := hp.ops q hq
    refine ⟨of_decide_eq_true (List.mem_filter.mp hslice).2, hsid, hsent, hwhat, q.2, ?_⟩
    rw [htimers', htimers]
    exact List.mem_append_right _ (List.mem_map_of_mem hq)

/-- Settles O27: a store and a scatter are performed at the strand's own slice and sent to the others. -/
theorem nearStoresAndScatters : Obligations.NearStoresAndScatters := ⟨nearStores, nearScatters⟩

end Sys2Proof.Machine
end
